-- ==== Sys2Proof/Syntax.lean ====
section
/-!
DEFINITION. Sys2Proof/Syntax.lean: the instructions and events of the Quelas Q9 as syntax.
One constructor per row of spec/opcode_table.json: 271 instructions that a 32-bit word encodes, then 83 events of
the part, which no word encodes (spec/95_what_each_step_holds.md). The arguments of an instruction are the operand
fields of its word, those that the word splits joined (`ext` takes the position, `loop` the whole offset). The
arguments of an event name the agent or the entry it acts on, and the data it brings from outside the part.
-/

namespace Sys2Proof

/-- The instructions and events of the part. -/
inductive Instr where
  /-- `ADD` (R94). Writes the 64-bit wrapped sum of g[a] and g[b] to g[d]. -/
  | add (d a b : BitVec 5)
  /-- `SUB` (R94). Writes the 64-bit wrapped difference g[a] minus g[b] to g[d]. -/
  | sub (d a b : BitVec 5)
  /-- `AND` (R94). Writes the bitwise AND of g[a] and g[b] to g[d]. -/
  | and (d a b : BitVec 5)
  /-- `OR` (R94). Writes the bitwise OR of g[a] and g[b] to g[d]. -/
  | or (d a b : BitVec 5)
  /-- `XOR` (R94). Writes the bitwise XOR of g[a] and g[b] to g[d]. -/
  | xor (d a b : BitVec 5)
  /-- `ANDN` (R94). Writes g[a] AND NOT g[b] to g[d]. -/
  | andn (d a b : BitVec 5)
  /-- `ORN` (R94). Writes g[a] OR NOT g[b] to g[d]. -/
  | orn (d a b : BitVec 5)
  /-- `XNOR` (R94). Writes NOT (g[a] XOR g[b]) to g[d]. -/
  | xnor (d a b : BitVec 5)
  /-- `SLL` (R94). Shifts g[a] left by g[b] mod 64 into g[d]. -/
  | sll (d a b : BitVec 5)
  /-- `SRL` (R94). Shifts g[a] right logically by g[b] mod 64 into g[d]. -/
  | srl (d a b : BitVec 5)
  /-- `SRA` (R94). Shifts g[a] right arithmetically by g[b] mod 64 into g[d]. -/
  | sra (d a b : BitVec 5)
  /-- `ROL` (R94). Rotates g[a] left by g[b] mod 64 into g[d]. -/
  | rol (d a b : BitVec 5)
  /-- `ROR` (R94). Rotates g[a] right by g[b] mod 64 into g[d]. -/
  | ror (d a b : BitVec 5)
  /-- `SLT` (R94). Writes 1 to g[d] when g[a] is less than g[b] as signed, else 0. -/
  | slt (d a b : BitVec 5)
  /-- `SLTZ` (R94). Writes 1 to g[d] when g[a] is less than g[b] as unsigned, else 0. -/
  | sltz (d a b : BitVec 5)
  /-- `MIN` (R94). Writes the signed minimum of g[a] and g[b] to g[d]. -/
  | min (d a b : BitVec 5)
  /-- `MAX` (R94). Writes the signed maximum of g[a] and g[b] to g[d]. -/
  | max (d a b : BitVec 5)
  /-- `MINZ` (R94). Writes the unsigned minimum of g[a] and g[b] to g[d]. -/
  | minz (d a b : BitVec 5)
  /-- `MAXZ` (R94). Writes the unsigned maximum of g[a] and g[b] to g[d]. -/
  | maxz (d a b : BitVec 5)
  /-- `ADD_W` (R94). Writes the sign-extended 32-bit sum of g[a] and g[b] to g[d]. -/
  | addW (d a b : BitVec 5)
  /-- `SUB_W` (R94). Writes the sign-extended 32-bit difference to g[d]. -/
  | subW (d a b : BitVec 5)
  /-- `SLL_W` (R94). Writes the sign-extended 32-bit left shift by g[b] mod 32 to g[d]. -/
  | sllW (d a b : BitVec 5)
  /-- `SRL_W` (R94). Writes the sign-extended 32-bit logical right shift by g[b] mod 32 to g[d]. -/
  | srlW (d a b : BitVec 5)
  /-- `SRA_W` (R94). Writes the 32-bit arithmetic right shift by g[b] mod 32, sign-extended, to g[d]. -/
  | sraW (d a b : BitVec 5)
  /-- `ADD_SAT` (R94). Writes the signed saturating sum of g[a] and g[b] to g[d]. -/
  | addSat (d a b : BitVec 5)
  /-- `SUB_SAT` (R94). Writes the signed saturating difference to g[d]. -/
  | subSat (d a b : BitVec 5)
  /-- `SEQ` (R94). Writes 1 to g[d] when g[a] equals g[b], else 0. -/
  | seq (d a b : BitVec 5)
  /-- `SNE` (R94). Writes 1 to g[d] when g[a] differs from g[b], else 0. -/
  | sne (d a b : BitVec 5)
  /-- `ADDI` (R95). Adds the sign-extended imm16 to g[a] into g[d]. -/
  | addi (d a : BitVec 5) (i : BitVec 16)
  /-- `ANDI` (R95). ANDs g[a] with the zero-extended imm16 into g[d]. -/
  | andi (d a : BitVec 5) (i : BitVec 16)
  /-- `ORI` (R95). ORs g[a] with the zero-extended imm16 into g[d]. -/
  | ori (d a : BitVec 5) (i : BitVec 16)
  /-- `XORI` (R95). XORs g[a] with the zero-extended imm16 into g[d]. -/
  | xori (d a : BitVec 5) (i : BitVec 16)
  /-- `LIMH` (R95). Adds imm16 shifted to bits 31:16, sign-extended from bit 31, to g[a] into g[d]. -/
  | limh (d a : BitVec 5) (i : BitVec 16)
  /-- `SLTI` (R95). Writes 1 to g[d] when g[a] is below the signed immediate. -/
  | slti (d a : BitVec 5) (i : BitVec 16)
  /-- `SLTIZ` (R95). Writes 1 to g[d] when g[a] is below the sign-extended immediate compared unsigned. -/
  | sltiz (d a : BitVec 5) (i : BitVec 16)
  /-- `SLLI` (R96). Shifts g[a] left by the immediate amount into g[d]. -/
  | slli (d a : BitVec 5) (n : BitVec 6)
  /-- `SRLI` (R96). Shifts g[a] right logically by the immediate amount into g[d]. -/
  | srli (d a : BitVec 5) (n : BitVec 6)
  /-- `SRAI` (R96). Shifts g[a] right arithmetically by the immediate amount into g[d]. -/
  | srai (d a : BitVec 5) (n : BitVec 6)
  /-- `RORI` (R96). Rotates g[a] right by the immediate amount into g[d]. -/
  | rori (d a : BitVec 5) (n : BitVec 6)
  /-- `SLLI_W` (R96). 32-bit left shift by the immediate, sign-extended into g[d]. -/
  | slliW (d a : BitVec 5) (n : BitVec 6)
  /-- `SRLI_W` (R96). 32-bit logical right shift by the immediate, sign-extended into g[d]. -/
  | srliW (d a : BitVec 5) (n : BitVec 6)
  /-- `SRAI_W` (R96). 32-bit arithmetic right shift by the immediate, sign-extended into g[d]. -/
  | sraiW (d a : BitVec 5) (n : BitVec 6)
  /-- `MUL` (R97). Writes the low 64 bits of g[a] times g[b] to g[d]. -/
  | mul (d a b : BitVec 5)
  /-- `MULH` (R97). Writes the high 64 bits of the signed product to g[d]. -/
  | mulh (d a b : BitVec 5)
  /-- `MULHZ` (R97). Writes the high 64 bits of the unsigned product to g[d]. -/
  | mulhz (d a b : BitVec 5)
  /-- `MULHSZ` (R97). Writes the high 64 bits of the signed-by-unsigned product to g[d]. -/
  | mulhsz (d a b : BitVec 5)
  /-- `DIV` (R97). Writes the signed quotient truncated toward zero to g[d], with fixed results for zero divisor and overflow. -/
  | div (d a b : BitVec 5)
  /-- `DIVZ` (R97). Writes the unsigned quotient to g[d]. -/
  | divz (d a b : BitVec 5)
  /-- `REM` (R97). Writes the signed remainder to g[d]. -/
  | rem (d a b : BitVec 5)
  /-- `REMZ` (R97). Writes the unsigned remainder to g[d]. -/
  | remz (d a b : BitVec 5)
  /-- `MUL_W` (R97). Writes the sign-extended low 32 bits of the product to g[d]. -/
  | mulW (d a b : BitVec 5)
  /-- `DIV_W` (R97). Writes the signed 32-bit quotient to g[d]. -/
  | divW (d a b : BitVec 5)
  /-- `DIVZ_W` (R97). Writes the unsigned 32-bit quotient, sign-extended, to g[d]. -/
  | divzW (d a b : BitVec 5)
  /-- `REM_W` (R97). Writes the signed 32-bit remainder to g[d]. -/
  | remW (d a b : BitVec 5)
  /-- `REMZ_W` (R97). Writes the unsigned 32-bit remainder, sign-extended, to g[d]. -/
  | remzW (d a b : BitVec 5)
  /-- `EXT` (R98). Extracts a sign-extended bit field of g[a] into g[d]. -/
  | ext (d a : BitVec 5) (p l : BitVec 6)
  /-- `EXTZ` (R98). Extracts a zero-extended bit field of g[a] into g[d]. -/
  | extz (d a : BitVec 5) (p l : BitVec 6)
  /-- `INS` (R98). Inserts the low bits of g[a] into a bit field of g[d]. -/
  | ins (d a : BitVec 5) (p l : BitVec 6)
  /-- `CLZ` (R99). Counts leading zero bits of g[a] into g[d]. -/
  | clz (d a : BitVec 5)
  /-- `CTZ` (R99). Counts trailing zero bits of g[a] into g[d]. -/
  | ctz (d a : BitVec 5)
  /-- `POPC` (R99). Counts one bits of g[a] into g[d]. -/
  | popc (d a : BitVec 5)
  /-- `REV8` (R99). Reverses the bytes of g[a] into g[d]. -/
  | rev8 (d a : BitVec 5)
  /-- `REVB` (R99). Reverses the bits of g[a] into g[d]. -/
  | revb (d a : BitVec 5)
  /-- `ADDA` (R100). Writes g[a] plus g[b] shifted left by sh to g[d]. -/
  | adda (d a b : BitVec 5) (s : BitVec 6)
  /-- `SUBA` (R100). Writes g[a] minus g[b] shifted left by sh to g[d]. -/
  | suba (d a b : BitVec 5) (s : BitVec 6)
  /-- `CHKB` (R100). Traps BOUNDS when g[a] is not below g[b] unsigned. -/
  | chkb (a b : BitVec 5)
  /-- `CHKR` (R100). Traps BOUNDS when g[d] lies outside [g[a], g[b]) unsigned. -/
  | chkr (d a b : BitVec 5)
  /-- `ALIGNA` (R100). Rounds g[a] up to a multiple of 2^sh into g[d]. -/
  | aligna (d a : BitVec 5) (s : BitVec 6)
  /-- `LD_B` (R101). Loads a sign-extended byte from the local store into g[d]. -/
  | ldB (d a : BitVec 5) (i : BitVec 16)
  /-- `LD_H` (R101). Loads a sign-extended halfword from the local store into g[d]. -/
  | ldH (d a : BitVec 5) (i : BitVec 16)
  /-- `LD_W` (R101). Loads a sign-extended word from the local store into g[d]. -/
  | ldW (d a : BitVec 5) (i : BitVec 16)
  /-- `LD_D` (R101). Loads a doubleword from the local store into g[d]. -/
  | ldD (d a : BitVec 5) (i : BitVec 16)
  /-- `LD_BZ` (R101). Loads a zero-extended byte from the local store into g[d]. -/
  | ldBz (d a : BitVec 5) (i : BitVec 16)
  /-- `LD_HZ` (R101). Loads a zero-extended halfword from the local store into g[d]. -/
  | ldHz (d a : BitVec 5) (i : BitVec 16)
  /-- `LD_WZ` (R101). Loads a zero-extended word from the local store into g[d]. -/
  | ldWz (d a : BitVec 5) (i : BitVec 16)
  /-- `ST_B` (R102). Stores the low byte of g[d] to the local store. -/
  | stB (d a : BitVec 5) (i : BitVec 16)
  /-- `ST_H` (R102). Stores the low halfword of g[d] to the local store. -/
  | stH (d a : BitVec 5) (i : BitVec 16)
  /-- `ST_W` (R102). Stores the low word of g[d] to the local store. -/
  | stW (d a : BitVec 5) (i : BitVec 16)
  /-- `ST_D` (R102). Stores g[d] as a doubleword to the local store. -/
  | stD (d a : BitVec 5) (i : BitVec 16)
  /-- `BEQZ` (R104). Branches when g[a] equals zero. -/
  | beqz (a : BitVec 5) (o : BitVec 16)
  /-- `BNEZ` (R104). Branches when g[a] is not zero. -/
  | bnez (a : BitVec 5) (o : BitVec 16)
  /-- `BLTZ` (R104). Branches when g[a] is negative. -/
  | bltz (a : BitVec 5) (o : BitVec 16)
  /-- `BGEZ` (R104). Branches when g[a] is zero or positive. -/
  | bgez (a : BitVec 5) (o : BitVec 16)
  /-- `BGTZ` (R104). Branches when g[a] is positive. -/
  | bgtz (a : BitVec 5) (o : BitVec 16)
  /-- `BLEZ` (R104). Branches when g[a] is zero or negative. -/
  | blez (a : BitVec 5) (o : BitVec 16)
  /-- `BEQ` (R104). Branches when g[a] equals g[b]. -/
  | beq (a b : BitVec 5) (o : BitVec 13)
  /-- `BNE` (R104). Branches when g[a] differs from g[b]. -/
  | bne (a b : BitVec 5) (o : BitVec 13)
  /-- `BLT` (R104). Branches when g[a] is less than g[b] signed. -/
  | blt (a b : BitVec 5) (o : BitVec 13)
  /-- `BGE` (R104). Branches when g[a] is at least g[b] signed. -/
  | bge (a b : BitVec 5) (o : BitVec 13)
  /-- `BLO` (R104). Branches when g[a] is less than g[b] unsigned. -/
  | blo (a b : BitVec 5) (o : BitVec 13)
  /-- `BHS` (R104). Branches when g[a] is at least g[b] unsigned. -/
  | bhs (a b : BitVec 5) (o : BitVec 13)
  /-- `J` (R105). Jumps pc-relative by a 26-bit word offset. -/
  | j (o : BitVec 26)
  /-- `JL` (R105). Jumps pc-relative and writes the return address to g1. -/
  | jl (o : BitVec 26)
  /-- `JR` (R105). Jumps to the address in g[a] after bounds and alignment checks. -/
  | jr (a : BitVec 5)
  /-- `JLR` (R105). Jumps to the address in g[a] and writes the return address to g1. -/
  | jlr (a : BitVec 5)
  /-- `CRR` (R107). Reads a control register into g[d]. -/
  | crr (d : BitVec 5) (n : BitVec 12)
  /-- `CRW` (R107). Writes g[a] to a control register, field by field as its map allows. -/
  | crw (a : BitVec 5) (n : BitVec 12)
  /-- `CRS` (R107). Atomically ORs g[a] into a control register and returns the old value. -/
  | crs (d a : BitVec 5) (n : BitVec 12)
  /-- `CRC` (R107). Atomically clears the bits of g[a] in a control register and returns the old value. -/
  | crc (d a : BitVec 5) (n : BitVec 12)
  /-- `SVC` (R111). Raises the SVC trap with the 11-bit code. -/
  | svc (c : BitVec 11)
  /-- `ERET` (R113). Returns from a trap, restoring PRIV and IE and jumping to EPC. -/
  | eret
  /-- `TRAP` (R111). Raises the SOFT trap with the 11-bit code. -/
  | trap (c : BitVec 11)
  /-- `BRK` (R111). Raises BREAK with debug off, or writes a trace record or stops the core in the trace and halt debug states. -/
  | brk (c : BitVec 11)
  /-- `HALT` (R114). Squashes untriggered copies, drains the ring, stops the core and reports it halted to its registrar. -/
  | halt
  /-- `WFE` (R115). Clears the event latch and continues, or waits until the latch is set. -/
  | wfe
  /-- `IFENCE` (R116). Discards the fetch buffer so later fetches see completed local-store writes. -/
  | ifence
  /-- `YIELD` (R117). Marks a safe point at which a deferrable pre-emption request is delivered. -/
  | yield
  /-- `VADD` (R126). Adds vector elements modulo 2^w. -/
  | vadd (d a b : BitVec 5) (m : BitVec 3) (w : BitVec 2)
  /-- `VSUB` (R126). Subtracts vector elements modulo 2^w. -/
  | vsub (d a b : BitVec 5) (m : BitVec 3) (w : BitVec 2)
  /-- `VADDS_SIGNED` (R126). Adds vector elements with signed saturation. -/
  | vaddsSigned (d a b : BitVec 5) (m : BitVec 3) (w : BitVec 2)
  /-- `VADDS_UNSIGNED` (R126). Adds vector elements with unsigned saturation. -/
  | vaddsUnsigned (d a b : BitVec 5) (m : BitVec 3) (w : BitVec 2)
  /-- `VSUBS_SIGNED` (R126). Subtracts vector elements with signed saturation. -/
  | vsubsSigned (d a b : BitVec 5) (m : BitVec 3) (w : BitVec 2)
  /-- `VSUBS_UNSIGNED` (R126). Subtracts vector elements with unsigned saturation. -/
  | vsubsUnsigned (d a b : BitVec 5) (m : BitVec 3) (w : BitVec 2)
  /-- `VMUL` (R126). Multiplies vector elements, keeping the low w bits. -/
  | vmul (d a b : BitVec 5) (m : BitVec 3) (w : BitVec 2)
  /-- `VMULH_SIGNED` (R126). Writes the high w bits of signed element products. -/
  | vmulhSigned (d a b : BitVec 5) (m : BitVec 3) (w : BitVec 2)
  /-- `VMULH_UNSIGNED` (R126). Writes the high w bits of unsigned element products. -/
  | vmulhUnsigned (d a b : BitVec 5) (m : BitVec 3) (w : BitVec 2)
  /-- `VMIN_SIGNED` (R126). Writes the signed minimum of each element pair. -/
  | vminSigned (d a b : BitVec 5) (m : BitVec 3) (w : BitVec 2)
  /-- `VMIN_UNSIGNED` (R126). Writes the unsigned minimum of each element pair. -/
  | vminUnsigned (d a b : BitVec 5) (m : BitVec 3) (w : BitVec 2)
  /-- `VMAX_SIGNED` (R126). Writes the signed maximum of each element pair. -/
  | vmaxSigned (d a b : BitVec 5) (m : BitVec 3) (w : BitVec 2)
  /-- `VMAX_UNSIGNED` (R126). Writes the unsigned maximum of each element pair. -/
  | vmaxUnsigned (d a b : BitVec 5) (m : BitVec 3) (w : BitVec 2)
  /-- `VAND` (R126). Bytewise AND of two vectors under a byte mask. -/
  | vand (d a b : BitVec 5) (m : BitVec 3) (w : BitVec 2)
  /-- `VOR` (R126). Bytewise OR of two vectors under a byte mask. -/
  | vor (d a b : BitVec 5) (m : BitVec 3) (w : BitVec 2)
  /-- `VXOR` (R126). Bytewise XOR of two vectors under a byte mask. -/
  | vxor (d a b : BitVec 5) (m : BitVec 3) (w : BitVec 2)
  /-- `VANDN` (R126). Bytewise AND NOT of two vectors under a byte mask. -/
  | vandn (d a b : BitVec 5) (m : BitVec 3) (w : BitVec 2)
  /-- `VSLL` (R126). Shifts each element left by the other operand's element mod w. -/
  | vsll (d a b : BitVec 5) (m : BitVec 3) (w : BitVec 2)
  /-- `VSRL` (R126). Shifts each element right logically. -/
  | vsrl (d a b : BitVec 5) (m : BitVec 3) (w : BitVec 2)
  /-- `VSRA` (R126). Shifts each element right arithmetically. -/
  | vsra (d a b : BitVec 5) (m : BitVec 3) (w : BitVec 2)
  /-- `VABS` (R126). Writes the wrapped absolute value of each element. -/
  | vabs (d a : BitVec 5) (m : BitVec 3) (w : BitVec 2)
  /-- `VSUM` (R127). Sums the active elements plus element 0 of vb into element 0 and zeroes the rest. -/
  | vsum (d a b : BitVec 5) (m : BitVec 3) (w : BitVec 2)
  /-- `VFADD` (R128). Adds floating-point elements with one rounding in STATUS.RM. -/
  | vfadd (d a b : BitVec 5) (m t : BitVec 3)
  /-- `VFSUB` (R128). Subtracts floating-point elements with one rounding. -/
  | vfsub (d a b : BitVec 5) (m t : BitVec 3)
  /-- `VFMUL` (R128). Multiplies floating-point elements with one rounding. -/
  | vfmul (d a b : BitVec 5) (m t : BitVec 3)
  /-- `VFDIV` (R128). Divides floating-point elements with one rounding. -/
  | vfdiv (d a b : BitVec 5) (m t : BitVec 3)
  /-- `VFSQRT` (R128). Takes the rounded square root of each element. -/
  | vfsqrt (d a : BitVec 5) (m t : BitVec 3)
  /-- `VFMIN` (R129). Returns the lesser operand of each pair exactly, with NaN rules. -/
  | vfmin (d a b : BitVec 5) (m t : BitVec 3)
  /-- `VFMAX` (R129). Returns the greater operand of each pair exactly, with NaN rules. -/
  | vfmax (d a b : BitVec 5) (m t : BitVec 3)
  /-- `VFABS` (R128). Clears the sign of each element. -/
  | vfabs (d a : BitVec 5) (m t : BitVec 3)
  /-- `VFNEG` (R128). Inverts the sign of each element. -/
  | vfneg (d a : BitVec 5) (m t : BitVec 3)
  /-- `VFSUM` (R130). Reduces the active elements by the fixed pairwise tree plus an initial value into element 0. -/
  | vfsum (d a b : BitVec 5) (m t : BitVec 3)
  /-- `VFSUMW` (R130). Reduces the elements by the fixed tree into a wider result format. -/
  | vfsumw (d a b : BitVec 5) (m t : BitVec 3)
  /-- `VFMA` (R131). Computes a times b plus c per element with one rounding. -/
  | vfma (d a b c : BitVec 5) (m : BitVec 3) (t : BitVec 2)
  /-- `VFMS` (R131). Computes a times b minus c per element with one rounding. -/
  | vfms (d a b c : BitVec 5) (m : BitVec 3) (t : BitVec 2)
  /-- `VCMP_EQ` (R132). Sets mask bits where elements are equal. -/
  | vcmpEq (d : BitVec 3) (a b : BitVec 5) (m : BitVec 3) (t : BitVec 4)
  /-- `VCMP_NE` (R132). Sets mask bits where elements differ. -/
  | vcmpNe (d : BitVec 3) (a b : BitVec 5) (m : BitVec 3) (t : BitVec 4)
  /-- `VCMP_LT` (R132). Sets mask bits where va is less than vb. -/
  | vcmpLt (d : BitVec 3) (a b : BitVec 5) (m : BitVec 3) (t : BitVec 4)
  /-- `VCMP_LE` (R132). Sets mask bits where va is at most vb. -/
  | vcmpLe (d : BitVec 3) (a b : BitVec 5) (m : BitVec 3) (t : BitVec 4)
  /-- `VCMP_GT` (R132). Sets mask bits where va is greater than vb. -/
  | vcmpGt (d : BitVec 3) (a b : BitVec 5) (m : BitVec 3) (t : BitVec 4)
  /-- `VCMP_GE` (R132). Sets mask bits where va is at least vb. -/
  | vcmpGe (d : BitVec 3) (a b : BitVec 5) (m : BitVec 3) (t : BitVec 4)
  /-- `VCMP_UN` (R132). Sets mask bits where either float operand is a NaN. -/
  | vcmpUn (d : BitVec 3) (a b : BitVec 5) (m : BitVec 3) (t : BitVec 4)
  /-- `MAND` (R133). ANDs two mask registers. -/
  | mand (d a b : BitVec 3)
  /-- `MOR` (R133). ORs two mask registers. -/
  | mor (d a b : BitVec 3)
  /-- `MXOR` (R133). XORs two mask registers. -/
  | mxor (d a b : BitVec 3)
  /-- `MANDN` (R133). ANDs a mask with the complement of another. -/
  | mandn (d a b : BitVec 3)
  /-- `MNOT` (R133). Complements a mask register. -/
  | mnot (d a : BitVec 3)
  /-- `MFROMG` (R133). Copies g[a] into a mask register. -/
  | mfromg (d : BitVec 3) (a : BitVec 5)
  /-- `MTOG` (R133). Copies a mask register into g[d]. -/
  | mtog (d : BitVec 5) (a : BitVec 3)
  /-- `MPOP` (R133). Counts the one bits of a mask register into g[d]. -/
  | mpop (d : BitVec 5) (a : BitVec 3)
  /-- `VCVT_EL` (R134). Converts elements one by one between formats in the named rounding mode. -/
  | vcvtEl (d a : BitVec 5) (r m : BitVec 3) (x s : BitVec 4)
  /-- `VCVT_PACK` (R136). Packs 32 wide values into one MX block with its scale by MXScale. -/
  | vcvtPack (d a : BitVec 5) (r : BitVec 3) (x s : BitVec 4)
  /-- `VCVT_UNPACK` (R136). Expands one MX block into 32 wide values. -/
  | vcvtUnpack (d a : BitVec 5) (r : BitVec 3) (x s : BitVec 4)
  /-- `VPERM` (R137). Selects elements of va by indices in vb. -/
  | vperm (d a b : BitVec 5) (m : BitVec 3) (w : BitVec 2)
  /-- `VBCAST` (R137). Broadcasts the low bits of g[a] to every active element. -/
  | vbcast (d a : BitVec 5) (m : BitVec 3) (w : BitVec 2)
  /-- `VDUP` (R137). Broadcasts the element of va named by element 0 of vb. -/
  | vdup (d a b : BitVec 5) (m : BitVec 3) (w : BitVec 2)
  /-- `VMOV` (R137). Copies va to vd bytewise under the mask. -/
  | vmov (d a : BitVec 5) (m : BitVec 3) (w : BitVec 2)
  /-- `VZIP` (R137). Interleaves the low halves of va and vb. -/
  | vzip (d a b : BitVec 5) (m : BitVec 3) (w : BitVec 2)
  /-- `VUNZIP` (R137). Gathers the even elements of va then vb. -/
  | vunzip (d a b : BitVec 5) (m : BitVec 3) (w : BitVec 2)
  /-- `VSLIDE` (R137). Slides va by the signed count in g[b], filling with zero. -/
  | vslide (d a b : BitVec 5) (m : BitVec 3) (w : BitVec 2)
  /-- `VINS` (R138). Writes g[a] into element g[b] of vd, trapping BOUNDS on a bad index. -/
  | vins (d a b : BitVec 5) (w : BitVec 2)
  /-- `VEXT` (R138). Reads element g[b] of va into g[d], trapping BOUNDS on a bad index. -/
  | vext (d a b : BitVec 5) (w : BitVec 2)
  /-- `VCOMPRESS` (R137). Packs the active elements of va to the bottom of vd and zeroes the rest. -/
  | vcompress (d a : BitVec 5) (m : BitVec 3) (w : BitVec 2)
  /-- `VEXPAND` (R137). Places successive elements of va into the active positions of vd. -/
  | vexpand (d a : BitVec 5) (m : BitVec 3) (w : BitVec 2)
  /-- `VLD` (R139). Loads 64 bytes from the local store into a vector register under a byte mask. -/
  | vld (v a : BitVec 5) (m : BitVec 3) (o : BitVec 13)
  /-- `VST` (R139). Stores the active bytes of a vector register to the local store. -/
  | vst (v a : BitVec 5) (m : BitVec 3) (o : BitVec 13)
  /-- `VLDS` (R141). Loads strided elements, checking every active address before any access. -/
  | vlds (d a b : BitVec 5) (m : BitVec 3) (w : BitVec 2)
  /-- `VSTS` (R141). Stores strided elements after checking every active address. -/
  | vsts (d a b : BitVec 5) (m : BitVec 3) (w : BitVec 2)
  /-- `VGATH` (R141). Gathers elements from base plus per-element offsets. -/
  | vgath (d a b : BitVec 5) (m : BitVec 3) (w : BitVec 2)
  /-- `VSCAT` (R141). Scatters elements to base plus per-element offsets. -/
  | vscat (d a b : BitVec 5) (m : BitVec 3) (w : BitVec 2)
  /-- `RFRM` (R77). Checks and captures n following instructions for T renamed replays. -/
  | rfrm (n : BitVec 4) (a b : BitVec 5)
  /-- `FRAME_REPLAY` (R78). The sequencer executes one replay of the captured instructions with renamed vector registers. -/
  | frameReplay
  /-- `LOOP` (R82). Decrements g[a] and branches while it is not zero. -/
  | loop (o : BitVec 16) (a : BitVec 5)
  /-- `SEND` (R177). Sends g[b] as a g message on channel N to the named core. -/
  | send (a b : BitVec 5) (t : BitVec 1) (n : BitVec 4)
  /-- `SEND_V` (R177). Sends v[b] as a v message on channel N to the named core. -/
  | sendV (a b : BitVec 5) (t : BitVec 1) (n : BitVec 4)
  /-- `RECV` (R179). Waits for and removes the head g message of channel N, checking kind and format. -/
  | recv (d : BitVec 5) (r : BitVec 1) (n : BitVec 4)
  /-- `RECV_V` (R179). Waits for and removes the head v message of channel N. -/
  | recvV (d : BitVec 5) (r : BitVec 1) (n : BitVec 4)
  /-- `RECV_T` (R181). Removes the head g message if present, else returns all ones, writing a status. -/
  | recvT (d a : BitVec 5) (r : BitVec 1) (n : BitVec 4)
  /-- `RECV_T_V` (R181). Removes the head v message if present, writing a status, without waiting. -/
  | recvTV (d a : BitVec 5) (r : BitVec 1) (n : BitVec 4)
  /-- `MSGST` (R182). Writes the message status of channel N into g[d]. -/
  | msgst (d : BitVec 5) (n : BitVec 4)
  /-- `ARRIVE` (R184). Sets the arrival flag of barrier N, casting a ballot on a COMM barrier. -/
  | arrive (n : BitVec 4)
  /-- `WAITB` (R184). Waits until the arrival flag of barrier N is clear. -/
  | waitb (n : BitVec 4)
  /-- `TESTB` (R185). Writes the arrival, phase, valid and comm bits of barrier N to g[d]. -/
  | testb (d : BitVec 5) (n : BitVec 4)
  /-- `VOTE` (R186). Arrives with an 8-bit ballot on a COMM barrier and writes the vote result at release. -/
  | vote (d a : BitVec 5) (n : BitVec 4)
  /-- `BDEF` (R187). Sets BRECT[N] from g[a] after checking its layout and rectangle. -/
  | bdef (a : BitVec 5) (n : BitVec 4)
  /-- `FOLLOW` (R190). Checks the gang conditions and requests to follow the named leader, writing a status. -/
  | follow (d a : BitVec 5)
  /-- `SPLIT` (R191). Dissolves the gang so every member continues alone. -/
  | split
  /-- `GANGST` (R191). Writes the gang size, index, role and leader address into g[d]. -/
  | gangst (d : BitVec 5)
  /-- `FOLLOW_REQUEST_TAKEN` (R190). A leader takes an arriving follow request at its next boundary and the follower joins its stream. -/
  | followRequestTaken (leader follower : Nat)
  /-- `COMM` (R198). Waits for the open phase to close and returns, or traps on, the exchange report. -/
  | comm (d : BitVec 5) (r : BitVec 1)
  /-- `TTPLAN` (R199). Checks exchange plan g[a] and makes it current when well-formed. -/
  | ttplan (d a : BitVec 5)
  /-- `TTSEND` (R195). Checks a send entry and sends its beats on the crossbar from its slot offset. -/
  | ttsend (c : BitVec 16) (a : BitVec 5)
  /-- `TTRECV` (R196). Checks a receive entry and arms and locks its destination span for the phase. -/
  | ttrecv (c : BitVec 16) (a : BitVec 5)
  /-- `LDX` (R262). Plain off-core load of 1 to 8 bytes through range translation or a held window. -/
  | ldx (d a b : BitVec 5) (z : BitVec 1) (s : BitVec 2) (p : BitVec 4)
  /-- `LDX_ACQ` (R262). Off-core load whose read acquires at its scope. -/
  | ldxAcq (d a b : BitVec 5) (z : BitVec 1) (s : BitVec 2) (p : BitVec 4)
  /-- `LOAD_DATA_RETURN` (R260). The data of an outstanding LDX or ATOM returns and is written to g[d], letting the core issue again. -/
  | loadDataReturn (c : Nat)
  /-- `MEMORY_RESPONSE_TIMEOUT` (R260). No response to an LDX or ATOM within 2^22 clk raises MEMORY with reason 2. -/
  | memoryResponseTimeout (c : Nat)
  /-- `STX` (R262). Plain posted off-core store, counted on its path counter. -/
  | stx (d a b : BitVec 5) (s : BitVec 2) (p : BitVec 4)
  /-- `STX_REL` (R262). Off-core store whose write releases at its scope. -/
  | stxRel (d a b : BitVec 5) (s : BitVec 2) (p : BitVec 4)
  /-- `STX_OF` (R263). Ordered store carrying the core's write count to the destination package. -/
  | stxOf (d a b : BitVec 5) (s : BitVec 2) (p : BitVec 4)
  /-- `ATOM_ADD` (R264). Atomically adds g[b] at the location and returns the old value. -/
  | atomAdd (d a b : BitVec 5) (r s : BitVec 1) (p : BitVec 4)
  /-- `ATOM_AND` (R264). Atomically ANDs g[b] at the location and returns the old value. -/
  | atomAnd (d a b : BitVec 5) (r s : BitVec 1) (p : BitVec 4)
  /-- `ATOM_OR` (R264). Atomically ORs g[b] at the location and returns the old value. -/
  | atomOr (d a b : BitVec 5) (r s : BitVec 1) (p : BitVec 4)
  /-- `ATOM_XOR` (R264). Atomically XORs g[b] at the location and returns the old value. -/
  | atomXor (d a b : BitVec 5) (r s : BitVec 1) (p : BitVec 4)
  /-- `ATOM_MIN` (R264). Atomically stores the signed minimum and returns the old value. -/
  | atomMin (d a b : BitVec 5) (r s : BitVec 1) (p : BitVec 4)
  /-- `ATOM_MAX` (R264). Atomically stores the signed maximum and returns the old value. -/
  | atomMax (d a b : BitVec 5) (r s : BitVec 1) (p : BitVec 4)
  /-- `ATOM_MINZ` (R264). Atomically stores the unsigned minimum and returns the old value. -/
  | atomMinz (d a b : BitVec 5) (r s : BitVec 1) (p : BitVec 4)
  /-- `ATOM_MAXZ` (R264). Atomically stores the unsigned maximum and returns the old value. -/
  | atomMaxz (d a b : BitVec 5) (r s : BitVec 1) (p : BitVec 4)
  /-- `ATOM_SWAP` (R264). Atomically swaps g[b] with the location. -/
  | atomSwap (d a b : BitVec 5) (r s : BitVec 1) (p : BitVec 4)
  /-- `ATOM_CAS` (R264). Atomically compares with g[d] and stores g[b] on a match, returning the old value. -/
  | atomCas (d a b : BitVec 5) (r s : BitVec 1) (p : BitVec 4)
  /-- `ATOM_FADD` (R264). Atomically adds a float with RNE and returns the old value. -/
  | atomFadd (d a b : BitVec 5) (r s : BitVec 1) (p : BitVec 4)
  /-- `FENCE_ACQ` (R265). Gives earlier synchronising reads acquire standing at the scope. -/
  | fenceAcq (p : BitVec 4)
  /-- `FENCE_REL` (R265). Gives later writes release standing at the scope. -/
  | fenceRel (p : BitVec 4)
  /-- `FENCE_FULL` (R265). Acts as acquire and release fence and joins the total order of full fences at the scope. -/
  | fenceFull (p : BitVec 4)
  /-- `FENCE_ACK` (R266). Waits for all path counters to reach zero, then reports failed writes or acts as fence.full.sys. -/
  | fenceAck
  /-- `RLOAD` (R269). Dispatches installation of a range entry in the station catalogue. -/
  | rload (d a b : BitVec 5)
  /-- `RPROBE` (R269). Dispatches a lookup of the range containing va without filling the table. -/
  | rprobe (d a b : BitVec 5)
  /-- `RSPLIT` (R269). Dispatches the split of a range at a point through the coordinator. -/
  | rsplit (d a b : BitVec 5)
  /-- `RMERGE` (R269). Dispatches the merge of two adjacent ranges through the coordinator. -/
  | rmerge (d a b : BitVec 5)
  /-- `RINV` (R269). Dispatches invalidation of a range through the coordinator. -/
  | rinv (d a b : BitVec 5)
  /-- `RRES` (R269). Dispatches replacement of a range's residency map. -/
  | rres (d a b : BitVec 5)
  /-- `RCOMPACT` (R269). Dispatches a move of a range's bytes to a new base and its retarget. -/
  | rcompact (d a b : BitVec 5)
  /-- `RSTAT` (R272). Dispatches a snapshot of range-table and catalogue statistics into a result block. -/
  | rstat (d b : BitVec 5)
  /-- `GBIND` (R275). Dispatches creation of a guard binding from a descriptor. -/
  | gbind (d a b : BitVec 5)
  /-- `GUNBIND` (R276). Dispatches removal of a binding, with write-back when last exclusive holder. -/
  | gunbind (d a b : BitVec 5)
  /-- `GACQ_S` (R276). Dispatches a shared acquire of a bound guard. -/
  | gacqS (d a b : BitVec 5)
  /-- `GACQ_X` (R276). Dispatches an exclusive acquire of a bound guard. -/
  | gacqX (d a b : BitVec 5)
  /-- `GREL` (R276). Dispatches a release of a held guard. -/
  | grel (d a b : BitVec 5)
  /-- `GTRY_S` (R276). Dispatches a shared acquire that returns BUSY instead of queueing. -/
  | gtryS (d a b : BitVec 5)
  /-- `GTRY_X` (R276). Dispatches an exclusive acquire that returns BUSY instead of queueing. -/
  | gtryX (d a b : BitVec 5)
  /-- `GFLUSH` (R276). Dispatches a flush request that writes the newest copy back home. -/
  | gflush (d a b : BitVec 5)
  /-- `GSTAT` (R276). Dispatches a report of a binding's state into the status word. -/
  | gstat (d a b : BitVec 5)
  /-- `CPY` (R336). Checks and dispatches a copy request, reporting 1 when the copy queue is full. -/
  | cpy (d : BitVec 5) (a : BitVec 3) (b : BitVec 5)
  /-- `CPY_W` (R336). Checks and dispatches a copy request, stalling while the copy queue is full. -/
  | cpyW (d : BitVec 5) (a : BitVec 3) (b : BitVec 5)
  /-- `CPYST` (R337). Writes a snapshot of the core's copy state into g[d]. -/
  | cpyst (d : BitVec 5)
  /-- `DEAL` (R338). Swaps g[a] into the DEAL register and returns the old value. -/
  | deal (d a : BitVec 5)
  /-- `WAITW` (R339). Waits until the 8-byte word at g[a] reads g[b]. -/
  | waitw (a b : BitVec 5)
  /-- `WAITW_SEQ` (R339). Waits while ring entry g[b] is pending and returns its state. -/
  | waitwSeq (d b : BitVec 5)
  /-- `WAITM` (R340). Waits until the mailbox holds a record and returns the record count. -/
  | waitm (d : BitVec 5)
  /-- `MBXRD` (R340). Moves the head mailbox record into the local store and returns the count. -/
  | mbxrd (d a : BitVec 5)
  /-- `MMA` (R341). Checks and dispatches one tile step into an accumulator. -/
  | mma (c : BitVec 2) (a b : BitVec 5) (r : BitVec 2) (u v w x : BitVec 1)
  /-- `MZERO` (R342). Dispatches zeroing of an accumulator tile. -/
  | mzero (c : BitVec 2)
  /-- `MLDA` (R342). Dispatches a load of an accumulator tile from 1 KiB of local store. -/
  | mlda (c : BitVec 2) (a : BitVec 5)
  /-- `MSTA` (R342). Dispatches a store of an accumulator tile to 1 KiB of local store. -/
  | msta (c : BitVec 2) (a : BitVec 5)
  /-- `MFMT` (R343). Dispatches conversion of an accumulator tile into a narrower format in the local store. -/
  | mfmt (c : BitVec 2) (a : BitVec 5) (s r : BitVec 2) (t : BitVec 4)
  /-- `MCBLD` (R342). Dispatches loading of a shared codebook table from 2 KiB of local store. -/
  | mcbld (a b : BitVec 5)
  /-- `EVCFG_POP` (R345). Dispatches writing of a population descriptor, making the issuer its owner. -/
  | evcfgPop (d a b : BitVec 5)
  /-- `EVCFG_LEAK` (R345). Dispatches writing of a leak table. -/
  | evcfgLeak (d a b : BitVec 5)
  /-- `EVCFG_ENG` (R345). Dispatches setting TICKNS and optionally clearing the engine counters. -/
  | evcfgEng (d a : BitVec 5)
  /-- `EVPOST` (R346). Dispatches posting of an event word to the own or a named engine. -/
  | evpost (d a b : BitVec 5)
  /-- `EVSWEEP` (R347). Dispatches a sweep bringing every state of a population up to the current tick. -/
  | evsweep (d a : BitVec 5)
  /-- `EVREAD` (R348). Dispatches reading of n states into the local store. -/
  | evread (d a b : BitVec 5)
  /-- `EVREAD_ST` (R348). Dispatches reading of the 64-byte engine status. -/
  | evreadSt (d a : BitVec 5)
  /-- `EVWRITE` (R348). Dispatches writing of n states from the local store. -/
  | evwrite (d a b : BitVec 5)
  /-- `EVDRAIN` (R349). Dispatches a wait until no queued event is due at the current tick. -/
  | evdrain (d : BitVec 5)
  /-- `EVDRAIN_POP` (R349). Dispatches discarding of every queued event of one population. -/
  | evdrainPop (d a : BitVec 5)
  /-- `LAUNCH` (R200). Copies a launch record into a launch queue after release ordering, returning a status. -/
  | launch (d a b : BitVec 5)
  /-- `DONE` (R201). Drains the ring, performs release ordering and ends the thread. -/
  | done
  /-- `SIGNAL` (R202). Performs release ordering and decrements a predecessor counter. -/
  | signal (a : BitVec 5)
  /-- `RDTIME` (R350). Reads the domain clock in ns into g[d]. -/
  | rdtime (d : BitVec 5)
  /-- `RDTIME_TICK` (R350). Reads the own engine's current tick into g[d]. -/
  | rdtimeTick (d : BitVec 5)
  /-- `TARM` (R351). Arms a time trigger that releases a TRIG copy, returning a status. -/
  | tarm (d a b : BitVec 5)
  /-- `TARM_EV` (R351). Arms a time trigger that posts an event to the own engine. -/
  | tarmEv (d a b : BitVec 5)
  /-- `WAITT` (R350). Waits until the domain clock reaches g[a]. -/
  | waitt (a : BitVec 5)
  /-- `LDTILE` (R352). Memory core dispatches a load from a data VA into a remote local store through its channel port. -/
  | ldtile (d : BitVec 5) (a : BitVec 3)
  /-- `STTILE` (R352). Memory core dispatches a store from a remote local store to a data VA. -/
  | sttile (d : BitVec 5) (a : BitVec 3)
  /-- `LDEAL` (R352). Memory core dispatches a load dealt across a group's local stores. -/
  | ldeal (d : BitVec 5) (a : BitVec 3)
  /-- `LSWAIT` (R353). Memory core waits until at most g[a] LSTR operations are pending. -/
  | lswait (d a : BitVec 5)
  /-- `LATE_FAULT_TAKEN` (R29). A pending late fault is taken at the first boundary with IE 1, oldest sequence first. -/
  | lateFaultTaken (c : Nat)
  /-- `RELEASE_CAUSE_TAKEN` (R158). A pending PLAN_MISMATCH or BARRIER reason 5 is taken at the first boundary at or after the release instant. -/
  | releaseCauseTaken (c : Nat)
  /-- `REGISTER_WRITE` (R402). A write to a register or descriptor byte that has no row of its own stores the value. -/
  | registerWrite (pkg off pid : Nat) (host : Bool) (xs : List (BitVec 8))
  /-- `BARRIER_RELEASE` (R151). When every member has arrived the release takes effect on all members in one clk, clearing arrivals and inverting phases. -/
  | barrierRelease (c n : Nat)
  /-- `PHASE_CLOSE` (R154). At T0 plus LENGTH the phase closes, the report is fixed and held events become eligible. -/
  | phaseClose (c : Nat)
  /-- `EXCHANGE_BEAT_SEND` (R195). At its slot offset a send entry puts one 64-byte beat with sideband on the crossbar. -/
  | exchangeBeatSend (c : Nat)
  /-- `EXCHANGE_BEAT_RECEIVE` (R196). A beat arriving for an armed receive entry is written, or counted as missed or mismatched. -/
  | exchangeBeatReceive (c slot k : Nat)
  /-- `RX_WATCHDOG` (R180). A receive that waits for the RXWATCH period raises RX_WATCHDOG and records the channel in the census. -/
  | rxWatchdog (c : Nat)
  /-- `MESSAGE_ARRIVAL` (R178). A message reaching its destination interface is discarded as undeliverable or queued for its channel. -/
  | messageArrival (i : Nat)
  /-- `MESSAGE_ENTERS_CHANNEL` (R162). A waiting message enters its channel when the receive queue has room, setting the event latch. -/
  | messageEntersChannel (c : Nat)
  /-- `LAUNCH_ADMISSION` (R169). The registrar admits a ready record, checks it and its header, places the groups and writes the cores' state, copying record, preloads and bay image. -/
  | launchAdmission (pkg q : Nat)
  /-- `LAUNCH_START` (R169). Once placement and copies finish, every core of each placed group starts in the same clk. -/
  | launchStart (pkg num grp : Nat)
  /-- `LAUNCH_END` (R172). When every core has ended and the ring has drained, the registrar writes the status and decrements successors on OK. -/
  | launchEnd (pkg num : Nat)
  /-- `PREEMPT_REQUEST` (R365). The registrar sends a pre-emption request to every core of a launch. -/
  | preemptRequest (pkg num : Nat)
  /-- `PREEMPT` (R366). A core takes PREEMPT as an interrupt, squashing its squashable ring entries. -/
  | preempt (c : Nat)
  /-- `CONTEXT_SAVE` (R368). Once every core has stopped the registrar writes each core's context into its buffer and frees the cores. -/
  | contextSave (pkg num : Nat)
  /-- `RESUME` (R370). Every core of a pre-empted launch is restored, re-dispatches kept operations and takes RESUME. -/
  | resume (pkg num : Nat)
  /-- `ROLLBACK` (R377). A rollback request stops every team member, undoes the log, restores the snapshot and resumes all members together. -/
  | rollback (c : Nat)
  /-- `COPY_START` (R291). The copy engine starts a ready request, checking dealt targets before the first byte moves. -/
  | copyStart (c seq : Nat)
  /-- `COPY_COMPLETE` (R289). After the last destination byte a copy writes its completion word, posts its mailbox record and becomes done. -/
  | copyComplete (c seq : Nat)
  /-- `COPY_FAULT` (R292). A translation or target failure stops a copy, reports a late fault and reports its unissued writes as failed. -/
  | copyFault (c seq : Nat)
  /-- `STREAMED_STEP_REPLAY` (R313). A parked streamed step replays whole once the port is reopened by a new request. -/
  | streamedStepReplay (c : Nat)
  /-- `MAILBOX_POST` (R290). A post enters the mailbox, waiting while it is full. -/
  | mailboxPost (c : Nat)
  /-- `LOADER_CALL_START` (R297). A memory core takes a queued loader call and starts a thread with the caller's context. -/
  | loaderCallStart (c : Nat)
  /-- `TILE_STEP_START` (R299). The matrix unit starts a tile step chosen by weighted round robin, sampling formats and reading operands. -/
  | tileStepStart (eng : Nat)
  /-- `TILE_STEP_COMPLETE` (R311). A step's rounded result reaches its accumulator, buffers are filled and flags reach FSTAT. -/
  | tileStepComplete (c mismatches : Nat)
  /-- `MATRIX_OPERATION_PERFORM` (R342). The unit performs an mzero, mlda, msta, mfmt or mcbld in issue order and marks it done. -/
  | matrixOperationPerform (c : Nat)
  /-- `EVENT_ARRIVAL` (R320). An event is resolved to a tick and enters the engine queue, or is discarded at a full queue. -/
  | eventArrival (i : Nat)
  /-- `EVENT_DELIVERY` (R322). The engine delivers the next due event, integrating with leak and testing the threshold. -/
  | eventDelivery (eng : Nat)
  /-- `EVENT_OPERATION_PERFORM` (R344). The engine performs a core's event operation between deliveries, or refuses it with EVENT. -/
  | eventOperationPerform (c : Nat)
  /-- `EVDRAIN_COMPLETE` (R349). An evdrain completes once no queued event is due at its starting tick. -/
  | evdrainComplete (c : Nat)
  /-- `TRIGGER_FIRE` (R330). An armed trigger whose value the clock reaches releases its copy or posts its event. -/
  | triggerFire (unit : Nat)
  /-- `WAITT_EXPIRY` (R350). A waitt ends when the domain clock reaches its value. -/
  | waittExpiry (c : Nat)
  /-- `DOMAIN_CLOCK_STEP` (R327). A correction over 1 us steps the domain clock, updating TSTAT and re-evaluating ticks and triggers. -/
  | domainClockStep (pkg : Nat) (x : BitVec 64)
  /-- `STATION_LOOKUP` (R214). A table miss goes to the core's station, which searches its catalogue and installs a hit in the core's table. -/
  | stationLookup (c : Nat)
  /-- `STATION_RANGE_REQUEST` (R269). The station performs an rload, rprobe or rstat and writes the result block and status word. -/
  | stationRangeRequest (c : Nat)
  /-- `RANGE_NOTICE` (R222). The coordinator's change notice marks station entries CHANGING or MOVING and is forwarded to holders. -/
  | rangeNotice (pkg pid station : Nat)
  /-- `HOLDER_ACKNOWLEDGE` (R216). A holder acknowledges a notice once its use count reaches zero and its entry leaves. -/
  | holderAcknowledge (c : Nat)
  /-- `COORDINATOR_APPLY` (R222). After all 64 acknowledgements the coordinator installs the new entries and completes the operation. -/
  | coordinatorApply (pkg pid : Nat)
  /-- `CONSERVATOR_COPY` (R226). The conservator copies the resident sixty-fourths of a compacted range to the new span. -/
  | conservatorCopy (pkg pid : Nat)
  /-- `RETARGET` (R226). The new OFFSET is sent to every station and holder, releasing waiting accesses. -/
  | retarget (pkg pid : Nat)
  /-- `GUARD_OPERATION_START` (R274). A guard operation starts after the previous one on its binding, checking its state. -/
  | guardOperationStart (c seq : Nat)
  /-- `CURATOR_REQUEST` (R252). The curator serves or queues an acquire, granting at once or forwarding to the supplier. -/
  | curatorRequest (i : Nat)
  /-- `SUPPLIER_FORWARD` (R252). The supplier sends the newer sub-blocks with stamps to the requester, followed by the grant. -/
  | supplierForward (i : Nat)
  /-- `GRANT_ARRIVAL` (R250). A grant arriving after the last sub-block makes the binding held and the acquire done. -/
  | grantArrival (i : Nat)
  /-- `CURATOR_RELEASE` (R253). The curator processes a release, advancing RELCNT for exclusive releases and serving its queue. -/
  | curatorRelease (i : Nat)
  /-- `WRITE_BACK` (R254). Changed sub-blocks are copied home with their stamps and HCNT is set to RELCNT. -/
  | writeBack (i : Nat)
  /-- `WRITE_ACKNOWLEDGEMENT` (R409). An acknowledgement of a remote write returns and its path counter falls. -/
  | writeAcknowledgement (i : Nat)
  /-- `ORDERED_STORE_RELEASE` (R410). An ordered store held at the ordering point is performed once its carried count is reached. -/
  | orderedStoreRelease (i : Nat)
  /-- `ORDERED_STORE_TIMEOUT` (R410). An ordered store held for 2^24 clk is discarded and counted as failed. -/
  | orderedStoreTimeout (i : Nat)
  /-- `HOST_WINDOW_READ` (R399). A host read of the memory window is checked and performed by a service core. -/
  | hostWindowRead (pkg off len : Nat)
  /-- `HOST_WINDOW_WRITE` (R399). A host posted write to the memory window is checked and performed by a service core. -/
  | hostWindowWrite (pkg off : Nat) (xs : List (BitVec 8))
  /-- `HOST_ORDERED_WRITE_RELEASE` (R241). The ordering point releases a HORD posted write after every earlier one is acknowledged. -/
  | hostOrderedWriteRelease (pkg : Nat)
  /-- `HOST_READ_COMPLETION` (R400). A completion for a device read of host memory returns, with failures raising MEMORY. -/
  | hostReadCompletion (c : Nat) (ok : Bool)
  /-- `RECORD_WRITE` (R407). A 64-byte write to a queue's RECORD appends a launch record or is dropped. -/
  | recordWrite (pkg off pid : Nat) (host : Bool) (xs : List (BitVec 8))
  /-- `QCREATE` (R403). Creates a launch queue with its attributes. -/
  | qcreate (pkg slot : Nat)
  /-- `QDESTROY` (R403). Destroys an idle launch queue. -/
  | qdestroy (pkg slot : Nat)
  /-- `CSET` (R403). Sets a predecessor counter and its owner. -/
  | cset (pkg slot : Nat)
  /-- `CANCEL` (R360). Ends a launch with CANCELLED, stopping its cores at their next boundary. -/
  | cancel (pkg slot : Nat)
  /-- `SUMMARY` (R428). Writes the 16 KiB summary report as a release at sys. -/
  | summary (pkg slot : Nat)
  /-- `TSTEP` (R403). Steps the domain clock to a new value. -/
  | tstep (pkg slot : Nat)
  /-- `HWIN` (R400). Sets HWBASE of the host-memory window. -/
  | hwin (pkg slot : Nat)
  /-- `MWIN` (R399). Writes or removes a host window entry. -/
  | mwin (pkg slot : Nat)
  /-- `SOEP` (R415). Writes a scale-out window slot. -/
  | soep (pkg slot : Nat)
  /-- `SETSTATE` (R423). Changes the security, debug and power state whole or not at all. -/
  | setstate (pkg slot : Nat)
  /-- `PACKAGE_RESET` (R421). A conventional reset, FLR or power-on brings the package up to open, debug off, run. -/
  | packageReset (pkg : Nat)
  /-- `DIE_RESET` (R396). Firmware resets a Freti die, ending its launches, emptying its tables and taking loss steps. -/
  | dieReset (pkg die : Nat)
  /-- `GATEWAY_DIE_RESET` (R396). Reset of a gateway die stops its ports and registrar while keeping its queue records. -/
  | gatewayDieReset (pkg gw : Nat)
  /-- `DIE_UNRESPONSIVE_TIMEOUT` (R422). A die silent towards firmware for 2^24 clk is reset. -/
  | dieUnresponsiveTimeout (pkg die : Nat)
  /-- `LINK_CRC_REPLAY` (R379). A flit with a CRC error is replayed on the link. -/
  | linkCrcReplay (pkg link : Nat)
  /-- `LANE_RETIRE` (R379). A lane failing beyond 8 replays is retired and a spare used, or the link rate reduced. -/
  | laneRetire (pkg link : Nat)
  /-- `PATH_DOWN` (R409). A fabric path going down fails writes on it and may make a package unreachable. -/
  | pathDown (pkg pod path : Nat)
  /-- `THERMAL_THROTTLE` (R427). At 105 C junction the clocks fall in 100 MHz steps until the temperature drops. -/
  | thermalThrottle (pkg steps : Nat)
  /-- `DEBUG_RESUME` (R114). A debugger resumes a core stopped in the halt debug state. -/
  | debugResume (c : Nat)
  /-- `GRANDMASTER_LOCK_CHANGE` (R328). The gateways gain or lose lock to the domain's grandmaster, setting or clearing TSTAT.SYNC. -/
  | grandmasterLockChange (pkg : Nat) (lock : Bool)
  /-- `PATH_LIVE` (R409). A fabric path to a pod becomes live again, so it can be chosen and the package is reachable. -/
  | pathLive (pkg pod path : Nat)
  /-- `CONFIGURATION_REQUEST` (R421). A host PCI Express configuration request is completed, with Request Retry Status until bring-up ends. -/
  | configurationRequest (pkg : Nat)
  /-- `STACK_BASE_DIE_RESET` (R393). Firmware resets a stack base die so that its channel repair assignments can change. -/
  | stackBaseDieReset (pkg stack : Nat)
  /-- `HALT_DEBUG_ACCESS` (R424). A debugger reads or writes registers, local stores or stacked memory of a core stopped in the halt debug state. -/
  | haltDebugAccess (c what idx : Nat) (wr : Bool) (x : BitVec 512)
deriving DecidableEq, Repr

end Sys2Proof
end

