-- ==== Sys2Proof/Word.lean ====
section
/-!
DEFINITION. Sys2Proof/Word.lean: the bit-vector widths the spec names and the plainest reading of a bit field.
-/

namespace Sys2Proof

/-- A `g` or `m` register, an off-core word (R9). -/
abbrev Word := BitVec 64

/-- One byte lane of a `v` register, one byte of memory (R9, R24). -/
abbrev Byte := BitVec 8

/-- A `v` register (R9). -/
abbrev VReg := BitVec 512

/-- An accumulator tile of 1 KiB (R9). -/
abbrev Tile := BitVec 8192

/-- A local address or the pc (R9, R24). -/
abbrev LAddr := BitVec 21

/-- The address of a core in the domain, laid out like COREID[22:0] (R143). -/
abbrev CoreAddr := BitVec 23

/-- `Bits(x, lo + n - 1, lo)` of R33 as a number: the `n` bits of `x` from bit `lo` up. -/
def bitsAt (x lo n : Nat) : Nat := x / 2 ^ lo % 2 ^ n

end Sys2Proof
end

