-- ==== Sys2Proof/WellFormed.lean ====
section
/-!
DEFINITION. Sys2Proof/WellFormed.lean: the combinations that a sub-map or a description calls illegal, as one check on
an instruction (R65 step 2). A field too wide for its values is narrowed by the syntax; what is left is here.
-/

namespace Sys2Proof

/-- The control-register numbers that the table of R11 assigns. -/
def crAssigned (n : BitVec 12) : Bool :=
  let k := n.toNat
  decide (k ≤ 0x002) || (decide (0x008 ≤ k) && decide (k ≤ 0x00C)) || (decide (0x010 ≤ k) && decide (k ≤ 0x011)) ||
  (decide (0x018 ≤ k) && decide (k ≤ 0x01B)) || (decide (0x020 ≤ k) && decide (k ≤ 0x025)) ||
  (decide (0x028 ≤ k) && decide (k ≤ 0x02A)) || k == 0x030 || (decide (0x040 ≤ k) && decide (k ≤ 0x053)) ||
  k == 0x058 || k == 0x060 || k == 0x068

/-- A scope code of R69; 0xC to 0xF are illegal. -/
def scopeOk (p : BitVec 4) : Bool := decide (p.toNat < 12)

/-- A float type code of R70; 0b100 to 0b111 are illegal. -/
def floatTypeOk (t : BitVec 3) : Bool := decide (t.toNat < 4)

/-- A rounding code of an instruction field (R43): 0b101 and 0b110 are reserved. -/
def roundOk (r : BitVec 3) : Bool := r != 5 && r != 6

/-- Is the conversion code an integer type (R71)? -/
def cvtIsInt (c : BitVec 4) : Bool := decide (c.toNat < 7)

/-- Is the conversion code a narrow format (R71)? -/
def cvtIsNarrow (c : BitVec 4) : Bool := c == 7 || decide (12 ≤ c.toNat)

/-- Is the conversion code `f32`, `bf16` or `f16` (R71)? -/
def cvtIsPackWide (c : BitVec 4) : Bool := c == 9 || c == 10 || c == 11

/-- The permitted pairs of `mfmt` (R343): source `f32`, `f64` or `s32`, and a destination code of R71. -/
def mfmtOk (s : BitVec 2) (t : BitVec 4) : Bool :=
  (s == 0 && (t == 0xA || t == 0xB || t == 0xC || t == 0xD)) || (s == 1 && (t == 0x9 || t == 0xA)) ||
  (s == 2 && (t == 0x0 || t == 0x1 || t == 0x4))

/-- The combination rules of a form of `mma` (R307, R341): a held operand leaves its source field and its source flag
zero, a streamed B leaves b zero. -/
def mmaOk (a b : BitVec 5) (u v w x : BitVec 1) : Bool :=
  (x == 0 || (a == 0 && u == 0)) && (w == 0 || (b == 0 && v == 0)) && (v == 0 || b == 0)

/-- No combination of the operands is illegal (R65 step 2, R71, R72, R75, R82, R96, R98, R128, R132, R336, R343,
R352). -/
def Instr.wf : Instr → Bool
  | .slliW _ _ n | .srliW _ _ n | .sraiW _ _ n => decide (n.toNat < 32)
  | .ext _ _ p l | .extz _ _ p l | .ins _ _ p l => decide (p.toNat + (l.toNat + 1) ≤ 64)
  | .crr _ n => crAssigned n
  | .crw _ n => crAssigned n
  | .crs _ _ n | .crc _ _ n => crAssigned n
  | .vfadd _ _ _ _ t | .vfsub _ _ _ _ t | .vfmul _ _ _ _ t | .vfdiv _ _ _ _ t | .vfmin _ _ _ _ t
  | .vfmax _ _ _ _ t | .vfsum _ _ _ _ t => floatTypeOk t
  | .vfsqrt _ _ _ t | .vfabs _ _ _ t | .vfneg _ _ _ t => floatTypeOk t
  | .vfsumw _ _ _ _ t => floatTypeOk t && t != 0
  | .vcmpEq _ _ _ _ t | .vcmpNe _ _ _ _ t | .vcmpLt _ _ _ _ t | .vcmpLe _ _ _ _ t | .vcmpGt _ _ _ _ t
  | .vcmpGe _ _ _ _ t => decide (t.toNat < 12)
  | .vcmpUn _ _ _ _ t => decide (8 ≤ t.toNat) && decide (t.toNat < 12)
  | .vcvtEl _ _ r _ x s => roundOk r && x != s && !(cvtIsInt x && cvtIsInt s)
  | .vcvtPack _ _ r x s => roundOk r && cvtIsPackWide s && cvtIsNarrow x
  | .vcvtUnpack _ _ r x s => roundOk r && cvtIsNarrow s && cvtIsPackWide x
  | .loop _ a => a != 0
  | .ldx _ _ _ z s p | .ldxAcq _ _ _ z s p => scopeOk p && !(z == 1 && s == 3)
  | .stx _ _ _ _ p | .stxRel _ _ _ _ p | .stxOf _ _ _ _ p => scopeOk p
  | .atomAdd _ _ _ _ _ p | .atomAnd _ _ _ _ _ p | .atomOr _ _ _ _ _ p | .atomXor _ _ _ _ _ p
  | .atomMin _ _ _ _ _ p | .atomMax _ _ _ _ _ p | .atomMinz _ _ _ _ _ p | .atomMaxz _ _ _ _ _ p
  | .atomSwap _ _ _ _ _ p | .atomCas _ _ _ _ _ p | .atomFadd _ _ _ _ _ p => scopeOk p
  | .fenceAcq p | .fenceRel p | .fenceFull p => scopeOk p
  | .cpy d a b | .cpyW d a b => a != 0 && (d != b || b == 0)
  | .ldtile _ a | .sttile _ a | .ldeal _ a => a != 0
  | .mma _ a b _ u v w x => mmaOk a b u v w x
  | .mfmt _ _ s _ t => mfmtOk s t
  | _ => true

end Sys2Proof
end

