-- ==== Sys2Proof/Decode.lean ====
section
/-!
DEFINITION. Sys2Proof/Decode.lean: from a 32-bit word to an instruction or a named reason to refuse it, and back.
Every format of R60 cuts a word into major, three 5-bit fields and the 11 bits below them; `decodeFields` reads those
five pieces by the opcode map (R63) and the sub-maps (R72 to R77, R111, R176, R183, R189, R193, R200, R262, R264, R341
to R345, R350, R352). A word that reads as an instruction but breaks a combination rule is refused by `wf`.
-/

namespace Sys2Proof

/-- Why a word is ILLEGAL at decode (R65 step 2). -/
inductive Reject where
  /-- A reserved major opcode (R63). -/
  | reservedMajor
  /-- A sub-map leaves the value unassigned (R72 to R77). -/
  | unassigned
  /-- A field that the form does not use is not zero (R66). -/
  | mustBeZero
  /-- A combination that a sub-map or a description calls illegal. -/
  | combination
deriving DecidableEq, Repr

/-- The word of a major opcode, three 5-bit fields and the low 11 bits (R60). -/
def mkWord (mj : Nat) (d a b : BitVec 5) (lo : BitVec 11) : BitVec 32 :=
  BitVec.ofNat 32 (mj * 2 ^ 26 + d.toNat * 2 ^ 21 + a.toNat * 2 ^ 16 + b.toNat * 2 ^ 11 + lo.toNat)

/-- Bits [31:26] (R59). -/
def wordMajor (w : BitVec 32) : Nat := w.toNat / 2 ^ 26

/-- Bits [25:21] (R60). -/
def wordD (w : BitVec 32) : BitVec 5 := BitVec.ofNat 5 (w.toNat / 2 ^ 21)

/-- Bits [20:16] (R60). -/
def wordA (w : BitVec 32) : BitVec 5 := BitVec.ofNat 5 (w.toNat / 2 ^ 16)

/-- Bits [15:11] (R60). -/
def wordB (w : BitVec 32) : BitVec 5 := BitVec.ofNat 5 (w.toNat / 2 ^ 11)

/-- Bits [10:0] (R60). -/
def wordLo (w : BitVec 32) : BitVec 11 := BitVec.ofNat 11 w.toNat

/-! Lean's compiled code holds at most 245 constructors with fields of one type, and `Instr` has more: what builds the
later ones has no compiled code (the kernel evaluates it as it does any definition). -/
noncomputable section

/-- Major 0x01, INT, format A (R63, R72 to R77). -/
def decInt (d a b : BitVec 5) (lo : BitVec 11) : Except Reject Instr :=
  match lo with
  | 0x0#11 => .ok (.add d a b)
  | 0x1#11 => .ok (.sub d a b)
  | 0x2#11 => .ok (.and d a b)
  | 0x3#11 => .ok (.or d a b)
  | 0x4#11 => .ok (.xor d a b)
  | 0x5#11 => .ok (.andn d a b)
  | 0x6#11 => .ok (.orn d a b)
  | 0x7#11 => .ok (.xnor d a b)
  | 0x8#11 => .ok (.sll d a b)
  | 0x9#11 => .ok (.srl d a b)
  | 0xa#11 => .ok (.sra d a b)
  | 0xb#11 => .ok (.rol d a b)
  | 0xc#11 => .ok (.ror d a b)
  | 0xd#11 => .ok (.slt d a b)
  | 0xe#11 => .ok (.sltz d a b)
  | 0xf#11 => .ok (.min d a b)
  | 0x10#11 => .ok (.max d a b)
  | 0x11#11 => .ok (.minz d a b)
  | 0x12#11 => .ok (.maxz d a b)
  | 0x13#11 => .ok (.addW d a b)
  | 0x14#11 => .ok (.subW d a b)
  | 0x15#11 => .ok (.sllW d a b)
  | 0x16#11 => .ok (.srlW d a b)
  | 0x17#11 => .ok (.sraW d a b)
  | 0x18#11 => .ok (.addSat d a b)
  | 0x19#11 => .ok (.subSat d a b)
  | 0x1a#11 => .ok (.seq d a b)
  | 0x1b#11 => .ok (.sne d a b)
  | _ => .error .unassigned

/-- Major 0x06, SHIFTI, format I (R63, R72 to R77). -/
def decShifti (d a b : BitVec 5) (lo : BitVec 11) : Except Reject Instr :=
  match b.extractLsb' 2 3 with
  | 0x0#3 =>
    if b.extractLsb' 0 2 = 0x0#2 ∧ lo.extractLsb' 6 5 = 0x0#5
    then .ok (.slli d a (lo.extractLsb' 0 6)) else .error .mustBeZero
  | 0x1#3 =>
    if b.extractLsb' 0 2 = 0x0#2 ∧ lo.extractLsb' 6 5 = 0x0#5
    then .ok (.srli d a (lo.extractLsb' 0 6)) else .error .mustBeZero
  | 0x2#3 =>
    if b.extractLsb' 0 2 = 0x0#2 ∧ lo.extractLsb' 6 5 = 0x0#5
    then .ok (.srai d a (lo.extractLsb' 0 6)) else .error .mustBeZero
  | 0x3#3 =>
    if b.extractLsb' 0 2 = 0x0#2 ∧ lo.extractLsb' 6 5 = 0x0#5
    then .ok (.rori d a (lo.extractLsb' 0 6)) else .error .mustBeZero
  | 0x4#3 =>
    if b.extractLsb' 0 2 = 0x0#2 ∧ lo.extractLsb' 6 5 = 0x0#5
    then .ok (.slliW d a (lo.extractLsb' 0 6)) else .error .mustBeZero
  | 0x5#3 =>
    if b.extractLsb' 0 2 = 0x0#2 ∧ lo.extractLsb' 6 5 = 0x0#5
    then .ok (.srliW d a (lo.extractLsb' 0 6)) else .error .mustBeZero
  | 0x6#3 =>
    if b.extractLsb' 0 2 = 0x0#2 ∧ lo.extractLsb' 6 5 = 0x0#5
    then .ok (.sraiW d a (lo.extractLsb' 0 6)) else .error .mustBeZero
  | _ => .error .unassigned

/-- Major 0x0A, MULDIV, format A (R63, R72 to R77). -/
def decMuldiv (d a b : BitVec 5) (lo : BitVec 11) : Except Reject Instr :=
  match lo with
  | 0x0#11 => .ok (.mul d a b)
  | 0x1#11 => .ok (.mulh d a b)
  | 0x2#11 => .ok (.mulhz d a b)
  | 0x3#11 => .ok (.mulhsz d a b)
  | 0x4#11 => .ok (.div d a b)
  | 0x5#11 => .ok (.divz d a b)
  | 0x6#11 => .ok (.rem d a b)
  | 0x7#11 => .ok (.remz d a b)
  | 0x8#11 => .ok (.mulW d a b)
  | 0x9#11 => .ok (.divW d a b)
  | 0xa#11 => .ok (.divzW d a b)
  | 0xb#11 => .ok (.remW d a b)
  | 0xc#11 => .ok (.remzW d a b)
  | _ => .error .unassigned

/-- Major 0x0B, BITS, format A (R63, R72 to R77). -/
def decBits (d a b : BitVec 5) (lo : BitVec 11) : Except Reject Instr :=
  match lo.extractLsb' 7 3 with
  | 0x0#3 =>
    if lo.extractLsb' 6 1 = 0x0#1
    then .ok (.ext d a (lo.extractLsb' 10 1 ++ b) (lo.extractLsb' 0 6)) else .error .mustBeZero
  | 0x1#3 =>
    if lo.extractLsb' 6 1 = 0x0#1
    then .ok (.extz d a (lo.extractLsb' 10 1 ++ b) (lo.extractLsb' 0 6)) else .error .mustBeZero
  | 0x2#3 =>
    if lo.extractLsb' 6 1 = 0x0#1
    then .ok (.ins d a (lo.extractLsb' 10 1 ++ b) (lo.extractLsb' 0 6)) else .error .mustBeZero
  | 0x4#3 =>
    if b = 0x0#5 ∧ lo.extractLsb' 10 1 = 0x0#1 ∧ lo.extractLsb' 0 7 = 0x0#7
    then .ok (.clz d a)
    else if b = 0x0#5 ∧ lo.extractLsb' 10 1 = 0x0#1 ∧ lo.extractLsb' 0 7 = 0x1#7
    then .ok (.ctz d a)
    else if b = 0x0#5 ∧ lo.extractLsb' 10 1 = 0x0#1 ∧ lo.extractLsb' 0 7 = 0x2#7
    then .ok (.popc d a)
    else if b = 0x0#5 ∧ lo.extractLsb' 10 1 = 0x0#1 ∧ lo.extractLsb' 0 7 = 0x3#7
    then .ok (.rev8 d a)
    else if b = 0x0#5 ∧ lo.extractLsb' 10 1 = 0x0#1 ∧ lo.extractLsb' 0 7 = 0x4#7
    then .ok (.revb d a)
    else .error .mustBeZero
  | _ => .error .unassigned

/-- Major 0x0C, ADDR, format A (R63, R72 to R77). -/
def decAddr (d a b : BitVec 5) (lo : BitVec 11) : Except Reject Instr :=
  match lo.extractLsb' 8 3 with
  | 0x0#3 =>
    if lo.extractLsb' 6 2 = 0x0#2
    then .ok (.adda d a b (lo.extractLsb' 0 6)) else .error .mustBeZero
  | 0x1#3 =>
    if lo.extractLsb' 6 2 = 0x0#2
    then .ok (.suba d a b (lo.extractLsb' 0 6)) else .error .mustBeZero
  | 0x2#3 =>
    if d = 0x0#5 ∧ lo.extractLsb' 0 8 = 0x0#8
    then .ok (.chkb a b) else .error .mustBeZero
  | 0x3#3 =>
    if lo.extractLsb' 0 8 = 0x0#8
    then .ok (.chkr d a b) else .error .mustBeZero
  | 0x4#3 =>
    if b = 0x0#5 ∧ lo.extractLsb' 6 2 = 0x0#2
    then .ok (.aligna d a (lo.extractLsb' 0 6)) else .error .mustBeZero
  | _ => .error .unassigned

/-- Major 0x18, BC, format B (R63, R72 to R77). -/
def decBc (d a b : BitVec 5) (lo : BitVec 11) : Except Reject Instr :=
  match d with
  | 0x0#5 => .ok (.beqz a (b ++ lo))
  | 0x1#5 => .ok (.bnez a (b ++ lo))
  | 0x2#5 => .ok (.bltz a (b ++ lo))
  | 0x3#5 => .ok (.bgez a (b ++ lo))
  | 0x4#5 => .ok (.bgtz a (b ++ lo))
  | 0x5#5 => .ok (.blez a (b ++ lo))
  | _ => .error .unassigned

/-- Major 0x19, BCMP, format C (R63, R72 to R77). -/
def decBcmp (d a b : BitVec 5) (lo : BitVec 11) : Except Reject Instr :=
  match b.extractLsb' 2 3 with
  | 0x0#3 => .ok (.beq d a (b.extractLsb' 0 2 ++ lo))
  | 0x1#3 => .ok (.bne d a (b.extractLsb' 0 2 ++ lo))
  | 0x2#3 => .ok (.blt d a (b.extractLsb' 0 2 ++ lo))
  | 0x3#3 => .ok (.bge d a (b.extractLsb' 0 2 ++ lo))
  | 0x4#3 => .ok (.blo d a (b.extractLsb' 0 2 ++ lo))
  | 0x5#3 => .ok (.bhs d a (b.extractLsb' 0 2 ++ lo))
  | _ => .error .unassigned

/-- Major 0x1C, JR, format A (R63, R72 to R77). -/
def decJr (d a b : BitVec 5) (lo : BitVec 11) : Except Reject Instr :=
  match lo with
  | 0x0#11 =>
    if d = 0x0#5 ∧ b = 0x0#5
    then .ok (.jr a) else .error .mustBeZero
  | 0x1#11 =>
    if d = 0x0#5 ∧ b = 0x0#5
    then .ok (.jlr a) else .error .mustBeZero
  | _ => .error .unassigned

/-- Major 0x1D, CTRL, format A (R63, R72 to R77). -/
def decCtrl (d a b : BitVec 5) (lo : BitVec 11) : Except Reject Instr :=
  match lo.extractLsb' 8 3 with
  | 0x0#3 =>
    if a = 0x0#5 ∧ lo.extractLsb' 7 1 = 0x0#1
    then .ok (.crr d (b ++ lo.extractLsb' 0 7)) else .error .mustBeZero
  | 0x1#3 =>
    if d = 0x0#5 ∧ lo.extractLsb' 7 1 = 0x0#1
    then .ok (.crw a (b ++ lo.extractLsb' 0 7)) else .error .mustBeZero
  | 0x2#3 =>
    if lo.extractLsb' 7 1 = 0x0#1
    then .ok (.crs d a (b ++ lo.extractLsb' 0 7)) else .error .mustBeZero
  | 0x3#3 =>
    if lo.extractLsb' 7 1 = 0x0#1
    then .ok (.crc d a (b ++ lo.extractLsb' 0 7)) else .error .mustBeZero
  | _ => .error .unassigned

/-- Major 0x1E, SYS, format E (R63, R72 to R77). -/
def decSys (d a b : BitVec 5) (lo : BitVec 11) : Except Reject Instr :=
  match lo.extractLsb' 6 5 with
  | 0x0#5 =>
    if d = 0x0#5 ∧ a = 0x0#5
    then .ok (.svc (b ++ lo.extractLsb' 0 6)) else .error .mustBeZero
  | 0x1#5 =>
    if d = 0x0#5 ∧ a = 0x0#5 ∧ b = 0x0#5 ∧ lo.extractLsb' 0 6 = 0x0#6
    then .ok (.eret) else .error .mustBeZero
  | 0x2#5 =>
    if d = 0x0#5 ∧ a = 0x0#5
    then .ok (.trap (b ++ lo.extractLsb' 0 6)) else .error .mustBeZero
  | 0x3#5 =>
    if d = 0x0#5 ∧ a = 0x0#5
    then .ok (.brk (b ++ lo.extractLsb' 0 6)) else .error .mustBeZero
  | 0x4#5 =>
    if d = 0x0#5 ∧ a = 0x0#5 ∧ b = 0x0#5 ∧ lo.extractLsb' 0 6 = 0x0#6
    then .ok (.halt) else .error .mustBeZero
  | 0x5#5 =>
    if d = 0x0#5 ∧ a = 0x0#5 ∧ b = 0x0#5 ∧ lo.extractLsb' 0 6 = 0x0#6
    then .ok (.wfe) else .error .mustBeZero
  | 0x6#5 =>
    if d = 0x0#5 ∧ a = 0x0#5 ∧ b = 0x0#5 ∧ lo.extractLsb' 0 6 = 0x0#6
    then .ok (.ifence) else .error .mustBeZero
  | 0x7#5 =>
    if d = 0x0#5 ∧ a = 0x0#5 ∧ b = 0x0#5 ∧ lo.extractLsb' 0 6 = 0x0#6
    then .ok (.yield) else .error .mustBeZero
  | _ => .error .unassigned

/-- Major 0x1F, VINT, format V (R63, R72 to R77). -/
def decVint (d a b : BitVec 5) (lo : BitVec 11) : Except Reject Instr :=
  match lo.extractLsb' 2 6 with
  | 0x0#6 => .ok (.vadd d a b (lo.extractLsb' 8 3) (lo.extractLsb' 0 2))
  | 0x1#6 => .ok (.vsub d a b (lo.extractLsb' 8 3) (lo.extractLsb' 0 2))
  | 0x2#6 => .ok (.vaddsSigned d a b (lo.extractLsb' 8 3) (lo.extractLsb' 0 2))
  | 0x3#6 => .ok (.vaddsUnsigned d a b (lo.extractLsb' 8 3) (lo.extractLsb' 0 2))
  | 0x4#6 => .ok (.vsubsSigned d a b (lo.extractLsb' 8 3) (lo.extractLsb' 0 2))
  | 0x5#6 => .ok (.vsubsUnsigned d a b (lo.extractLsb' 8 3) (lo.extractLsb' 0 2))
  | 0x6#6 => .ok (.vmul d a b (lo.extractLsb' 8 3) (lo.extractLsb' 0 2))
  | 0x7#6 => .ok (.vmulhSigned d a b (lo.extractLsb' 8 3) (lo.extractLsb' 0 2))
  | 0x8#6 => .ok (.vmulhUnsigned d a b (lo.extractLsb' 8 3) (lo.extractLsb' 0 2))
  | 0x9#6 => .ok (.vminSigned d a b (lo.extractLsb' 8 3) (lo.extractLsb' 0 2))
  | 0xa#6 => .ok (.vminUnsigned d a b (lo.extractLsb' 8 3) (lo.extractLsb' 0 2))
  | 0xb#6 => .ok (.vmaxSigned d a b (lo.extractLsb' 8 3) (lo.extractLsb' 0 2))
  | 0xc#6 => .ok (.vmaxUnsigned d a b (lo.extractLsb' 8 3) (lo.extractLsb' 0 2))
  | 0xd#6 => .ok (.vand d a b (lo.extractLsb' 8 3) (lo.extractLsb' 0 2))
  | 0xe#6 => .ok (.vor d a b (lo.extractLsb' 8 3) (lo.extractLsb' 0 2))
  | 0xf#6 => .ok (.vxor d a b (lo.extractLsb' 8 3) (lo.extractLsb' 0 2))
  | 0x10#6 => .ok (.vandn d a b (lo.extractLsb' 8 3) (lo.extractLsb' 0 2))
  | 0x11#6 => .ok (.vsll d a b (lo.extractLsb' 8 3) (lo.extractLsb' 0 2))
  | 0x12#6 => .ok (.vsrl d a b (lo.extractLsb' 8 3) (lo.extractLsb' 0 2))
  | 0x13#6 => .ok (.vsra d a b (lo.extractLsb' 8 3) (lo.extractLsb' 0 2))
  | 0x14#6 =>
    if b = 0x0#5
    then .ok (.vabs d a (lo.extractLsb' 8 3) (lo.extractLsb' 0 2)) else .error .mustBeZero
  | 0x15#6 => .ok (.vsum d a b (lo.extractLsb' 8 3) (lo.extractLsb' 0 2))
  | _ => .error .unassigned

/-- Major 0x20, VFLT, format V (R63, R72 to R77). -/
def decVflt (d a b : BitVec 5) (lo : BitVec 11) : Except Reject Instr :=
  match lo.extractLsb' 3 5 with
  | 0x0#5 => .ok (.vfadd d a b (lo.extractLsb' 8 3) (lo.extractLsb' 0 3))
  | 0x1#5 => .ok (.vfsub d a b (lo.extractLsb' 8 3) (lo.extractLsb' 0 3))
  | 0x2#5 => .ok (.vfmul d a b (lo.extractLsb' 8 3) (lo.extractLsb' 0 3))
  | 0x3#5 => .ok (.vfdiv d a b (lo.extractLsb' 8 3) (lo.extractLsb' 0 3))
  | 0x4#5 =>
    if b = 0x0#5
    then .ok (.vfsqrt d a (lo.extractLsb' 8 3) (lo.extractLsb' 0 3)) else .error .mustBeZero
  | 0x5#5 => .ok (.vfmin d a b (lo.extractLsb' 8 3) (lo.extractLsb' 0 3))
  | 0x6#5 => .ok (.vfmax d a b (lo.extractLsb' 8 3) (lo.extractLsb' 0 3))
  | 0x7#5 =>
    if b = 0x0#5
    then .ok (.vfabs d a (lo.extractLsb' 8 3) (lo.extractLsb' 0 3)) else .error .mustBeZero
  | 0x8#5 =>
    if b = 0x0#5
    then .ok (.vfneg d a (lo.extractLsb' 8 3) (lo.extractLsb' 0 3)) else .error .mustBeZero
  | 0x9#5 => .ok (.vfsum d a b (lo.extractLsb' 8 3) (lo.extractLsb' 0 3))
  | 0xa#5 => .ok (.vfsumw d a b (lo.extractLsb' 8 3) (lo.extractLsb' 0 3))
  | _ => .error .unassigned

/-- Major 0x21, VFMA, format W (R63, R72 to R77). -/
def decVfma (d a b : BitVec 5) (lo : BitVec 11) : Except Reject Instr :=
  match lo.extractLsb' 2 1 with
  | 0x0#1 => .ok (.vfma d a b (lo.extractLsb' 6 5) (lo.extractLsb' 3 3) (lo.extractLsb' 0 2))
  | 0x1#1 => .ok (.vfms d a b (lo.extractLsb' 6 5) (lo.extractLsb' 3 3) (lo.extractLsb' 0 2))

/-- Major 0x22, VCMP, format V (R63, R72 to R77). -/
def decVcmp (d a b : BitVec 5) (lo : BitVec 11) : Except Reject Instr :=
  match lo.extractLsb' 4 4 with
  | 0x0#4 =>
    if d.extractLsb' 3 2 = 0x0#2
    then .ok (.vcmpEq (d.extractLsb' 0 3) a b (lo.extractLsb' 8 3) (lo.extractLsb' 0 4)) else .error .mustBeZero
  | 0x1#4 =>
    if d.extractLsb' 3 2 = 0x0#2
    then .ok (.vcmpNe (d.extractLsb' 0 3) a b (lo.extractLsb' 8 3) (lo.extractLsb' 0 4)) else .error .mustBeZero
  | 0x2#4 =>
    if d.extractLsb' 3 2 = 0x0#2
    then .ok (.vcmpLt (d.extractLsb' 0 3) a b (lo.extractLsb' 8 3) (lo.extractLsb' 0 4)) else .error .mustBeZero
  | 0x3#4 =>
    if d.extractLsb' 3 2 = 0x0#2
    then .ok (.vcmpLe (d.extractLsb' 0 3) a b (lo.extractLsb' 8 3) (lo.extractLsb' 0 4)) else .error .mustBeZero
  | 0x4#4 =>
    if d.extractLsb' 3 2 = 0x0#2
    then .ok (.vcmpGt (d.extractLsb' 0 3) a b (lo.extractLsb' 8 3) (lo.extractLsb' 0 4)) else .error .mustBeZero
  | 0x5#4 =>
    if d.extractLsb' 3 2 = 0x0#2
    then .ok (.vcmpGe (d.extractLsb' 0 3) a b (lo.extractLsb' 8 3) (lo.extractLsb' 0 4)) else .error .mustBeZero
  | 0x6#4 =>
    if d.extractLsb' 3 2 = 0x0#2
    then .ok (.vcmpUn (d.extractLsb' 0 3) a b (lo.extractLsb' 8 3) (lo.extractLsb' 0 4)) else .error .mustBeZero
  | 0xf#4 =>
    if d.extractLsb' 3 2 = 0x0#2 ∧ a.extractLsb' 3 2 = 0x0#2 ∧ b.extractLsb' 3 2 = 0x0#2 ∧ lo.extractLsb' 8 3 = 0x0#3 ∧ lo.extractLsb' 0 4 = 0x0#4
    then .ok (.mand (d.extractLsb' 0 3) (a.extractLsb' 0 3) (b.extractLsb' 0 3))
    else if d.extractLsb' 3 2 = 0x0#2 ∧ a.extractLsb' 3 2 = 0x0#2 ∧ b.extractLsb' 3 2 = 0x0#2 ∧ lo.extractLsb' 8 3 = 0x0#3 ∧ lo.extractLsb' 0 4 = 0x1#4
    then .ok (.mor (d.extractLsb' 0 3) (a.extractLsb' 0 3) (b.extractLsb' 0 3))
    else if d.extractLsb' 3 2 = 0x0#2 ∧ a.extractLsb' 3 2 = 0x0#2 ∧ b.extractLsb' 3 2 = 0x0#2 ∧ lo.extractLsb' 8 3 = 0x0#3 ∧ lo.extractLsb' 0 4 = 0x2#4
    then .ok (.mxor (d.extractLsb' 0 3) (a.extractLsb' 0 3) (b.extractLsb' 0 3))
    else if d.extractLsb' 3 2 = 0x0#2 ∧ a.extractLsb' 3 2 = 0x0#2 ∧ b.extractLsb' 3 2 = 0x0#2 ∧ lo.extractLsb' 8 3 = 0x0#3 ∧ lo.extractLsb' 0 4 = 0x3#4
    then .ok (.mandn (d.extractLsb' 0 3) (a.extractLsb' 0 3) (b.extractLsb' 0 3))
    else if d.extractLsb' 3 2 = 0x0#2 ∧ a.extractLsb' 3 2 = 0x0#2 ∧ b = 0x0#5 ∧ lo.extractLsb' 8 3 = 0x0#3 ∧ lo.extractLsb' 0 4 = 0x4#4
    then .ok (.mnot (d.extractLsb' 0 3) (a.extractLsb' 0 3))
    else if d.extractLsb' 3 2 = 0x0#2 ∧ b = 0x0#5 ∧ lo.extractLsb' 8 3 = 0x0#3 ∧ lo.extractLsb' 0 4 = 0x5#4
    then .ok (.mfromg (d.extractLsb' 0 3) a)
    else if a.extractLsb' 3 2 = 0x0#2 ∧ b = 0x0#5 ∧ lo.extractLsb' 8 3 = 0x0#3 ∧ lo.extractLsb' 0 4 = 0x6#4
    then .ok (.mtog d (a.extractLsb' 0 3))
    else if a.extractLsb' 3 2 = 0x0#2 ∧ b = 0x0#5 ∧ lo.extractLsb' 8 3 = 0x0#3 ∧ lo.extractLsb' 0 4 = 0x7#4
    then .ok (.mpop d (a.extractLsb' 0 3))
    else .error .mustBeZero
  | _ => .error .unassigned

/-- Major 0x23, VCVT, format V (R63, R72 to R77). -/
def decVcvt (d a b : BitVec 5) (lo : BitVec 11) : Except Reject Instr :=
  match b.extractLsb' 0 2 with
  | 0x0#2 => .ok (.vcvtEl d a (b.extractLsb' 2 3) (lo.extractLsb' 8 3) (lo.extractLsb' 4 4) (lo.extractLsb' 0 4))
  | 0x1#2 =>
    if lo.extractLsb' 8 3 = 0x0#3
    then .ok (.vcvtPack d a (b.extractLsb' 2 3) (lo.extractLsb' 4 4) (lo.extractLsb' 0 4)) else .error .mustBeZero
  | 0x2#2 =>
    if lo.extractLsb' 8 3 = 0x0#3
    then .ok (.vcvtUnpack d a (b.extractLsb' 2 3) (lo.extractLsb' 4 4) (lo.extractLsb' 0 4)) else .error .mustBeZero
  | _ => .error .unassigned

/-- Major 0x24, VPERM, format V (R63, R72 to R77). -/
def decVperm (d a b : BitVec 5) (lo : BitVec 11) : Except Reject Instr :=
  match lo.extractLsb' 2 6 with
  | 0x0#6 => .ok (.vperm d a b (lo.extractLsb' 8 3) (lo.extractLsb' 0 2))
  | 0x1#6 =>
    if b = 0x0#5
    then .ok (.vbcast d a (lo.extractLsb' 8 3) (lo.extractLsb' 0 2)) else .error .mustBeZero
  | 0x2#6 => .ok (.vdup d a b (lo.extractLsb' 8 3) (lo.extractLsb' 0 2))
  | 0x3#6 =>
    if b = 0x0#5
    then .ok (.vmov d a (lo.extractLsb' 8 3) (lo.extractLsb' 0 2)) else .error .mustBeZero
  | 0x4#6 => .ok (.vzip d a b (lo.extractLsb' 8 3) (lo.extractLsb' 0 2))
  | 0x5#6 => .ok (.vunzip d a b (lo.extractLsb' 8 3) (lo.extractLsb' 0 2))
  | 0x6#6 => .ok (.vslide d a b (lo.extractLsb' 8 3) (lo.extractLsb' 0 2))
  | 0x7#6 =>
    if lo.extractLsb' 8 3 = 0x0#3
    then .ok (.vins d a b (lo.extractLsb' 0 2)) else .error .mustBeZero
  | 0x8#6 =>
    if lo.extractLsb' 8 3 = 0x0#3
    then .ok (.vext d a b (lo.extractLsb' 0 2)) else .error .mustBeZero
  | 0x9#6 =>
    if b = 0x0#5
    then .ok (.vcompress d a (lo.extractLsb' 8 3) (lo.extractLsb' 0 2)) else .error .mustBeZero
  | 0xa#6 =>
    if b = 0x0#5
    then .ok (.vexpand d a (lo.extractLsb' 8 3) (lo.extractLsb' 0 2)) else .error .mustBeZero
  | _ => .error .unassigned

/-- Major 0x27, VLDS, format V (R63, R72 to R77). -/
def decVlds (d a b : BitVec 5) (lo : BitVec 11) : Except Reject Instr :=
  match lo.extractLsb' 2 6 with
  | 0x0#6 => .ok (.vlds d a b (lo.extractLsb' 8 3) (lo.extractLsb' 0 2))
  | 0x1#6 => .ok (.vsts d a b (lo.extractLsb' 8 3) (lo.extractLsb' 0 2))
  | 0x2#6 => .ok (.vgath d a b (lo.extractLsb' 8 3) (lo.extractLsb' 0 2))
  | 0x3#6 => .ok (.vscat d a b (lo.extractLsb' 8 3) (lo.extractLsb' 0 2))
  | _ => .error .unassigned

/-- Major 0x28, SEQ, format E (R63, R72 to R77). -/
def decSeq (d a b : BitVec 5) (lo : BitVec 11) : Except Reject Instr :=
  match lo.extractLsb' 6 5 with
  | 0x0#5 =>
    if d.extractLsb' 4 1 = 0x0#1 ∧ lo.extractLsb' 0 6 = 0x0#6
    then .ok (.rfrm (d.extractLsb' 0 4) a b) else .error .mustBeZero
  | 0x1#5 => .ok (.loop (d ++ b ++ lo.extractLsb' 0 6) a)
  | _ => .error .unassigned

/-- Major 0x29, MSG, format E (R63, R72 to R77). -/
def decMsg (d a b : BitVec 5) (lo : BitVec 11) : Except Reject Instr :=
  match lo.extractLsb' 6 5 with
  | 0x0#5 =>
    if d = 0x0#5 ∧ lo.extractLsb' 5 1 = 0x0#1
    then .ok (.send a b (lo.extractLsb' 4 1) (lo.extractLsb' 0 4)) else .error .mustBeZero
  | 0x1#5 =>
    if d = 0x0#5 ∧ lo.extractLsb' 5 1 = 0x0#1
    then .ok (.sendV a b (lo.extractLsb' 4 1) (lo.extractLsb' 0 4)) else .error .mustBeZero
  | 0x2#5 =>
    if a = 0x0#5 ∧ b = 0x0#5 ∧ lo.extractLsb' 5 1 = 0x0#1
    then .ok (.recv d (lo.extractLsb' 4 1) (lo.extractLsb' 0 4)) else .error .mustBeZero
  | 0x3#5 =>
    if a = 0x0#5 ∧ b = 0x0#5 ∧ lo.extractLsb' 5 1 = 0x0#1
    then .ok (.recvV d (lo.extractLsb' 4 1) (lo.extractLsb' 0 4)) else .error .mustBeZero
  | 0x4#5 =>
    if b = 0x0#5 ∧ lo.extractLsb' 5 1 = 0x0#1
    then .ok (.recvT d a (lo.extractLsb' 4 1) (lo.extractLsb' 0 4)) else .error .mustBeZero
  | 0x5#5 =>
    if b = 0x0#5 ∧ lo.extractLsb' 5 1 = 0x0#1
    then .ok (.recvTV d a (lo.extractLsb' 4 1) (lo.extractLsb' 0 4)) else .error .mustBeZero
  | 0x6#5 =>
    if a = 0x0#5 ∧ b = 0x0#5 ∧ lo.extractLsb' 4 2 = 0x0#2
    then .ok (.msgst d (lo.extractLsb' 0 4)) else .error .mustBeZero
  | _ => .error .unassigned

/-- Major 0x2A, BAR, format E (R63, R72 to R77). -/
def decBar (d a b : BitVec 5) (lo : BitVec 11) : Except Reject Instr :=
  match lo.extractLsb' 6 5 with
  | 0x0#5 =>
    if d = 0x0#5 ∧ a = 0x0#5 ∧ b = 0x0#5 ∧ lo.extractLsb' 4 2 = 0x0#2
    then .ok (.arrive (lo.extractLsb' 0 4)) else .error .mustBeZero
  | 0x1#5 =>
    if d = 0x0#5 ∧ a = 0x0#5 ∧ b = 0x0#5 ∧ lo.extractLsb' 4 2 = 0x0#2
    then .ok (.waitb (lo.extractLsb' 0 4)) else .error .mustBeZero
  | 0x2#5 =>
    if a = 0x0#5 ∧ b = 0x0#5 ∧ lo.extractLsb' 4 2 = 0x0#2
    then .ok (.testb d (lo.extractLsb' 0 4)) else .error .mustBeZero
  | 0x3#5 =>
    if b = 0x0#5 ∧ lo.extractLsb' 4 2 = 0x0#2
    then .ok (.vote d a (lo.extractLsb' 0 4)) else .error .mustBeZero
  | 0x4#5 =>
    if d = 0x0#5 ∧ b = 0x0#5 ∧ lo.extractLsb' 4 2 = 0x0#2
    then .ok (.bdef a (lo.extractLsb' 0 4)) else .error .mustBeZero
  | _ => .error .unassigned

/-- Major 0x2B, GANG, format E (R63, R72 to R77). -/
def decGang (d a b : BitVec 5) (lo : BitVec 11) : Except Reject Instr :=
  match lo.extractLsb' 6 5 with
  | 0x0#5 =>
    if b = 0x0#5 ∧ lo.extractLsb' 0 6 = 0x0#6
    then .ok (.follow d a) else .error .mustBeZero
  | 0x1#5 =>
    if d = 0x0#5 ∧ a = 0x0#5 ∧ b = 0x0#5 ∧ lo.extractLsb' 0 6 = 0x0#6
    then .ok (.split) else .error .mustBeZero
  | 0x2#5 =>
    if a = 0x0#5 ∧ b = 0x0#5 ∧ lo.extractLsb' 0 6 = 0x0#6
    then .ok (.gangst d) else .error .mustBeZero
  | _ => .error .unassigned

/-- Major 0x2C, XCH, format E (R63, R72 to R77). -/
def decXch (d a b : BitVec 5) (lo : BitVec 11) : Except Reject Instr :=
  match lo.extractLsb' 6 5 with
  | 0x0#5 =>
    if a = 0x0#5 ∧ b = 0x0#5 ∧ lo.extractLsb' 5 1 = 0x0#1 ∧ lo.extractLsb' 0 4 = 0x0#4
    then .ok (.comm d (lo.extractLsb' 4 1)) else .error .mustBeZero
  | 0x1#5 =>
    if b = 0x0#5 ∧ lo.extractLsb' 0 6 = 0x0#6
    then .ok (.ttplan d a) else .error .mustBeZero
  | 0x2#5 => .ok (.ttsend (d ++ b ++ lo.extractLsb' 0 6) a)
  | 0x3#5 => .ok (.ttrecv (d ++ b ++ lo.extractLsb' 0 6) a)
  | _ => .error .unassigned

/-- Major 0x2D, LDX, format E (R63, R72 to R77). -/
def decLdx (d a b : BitVec 5) (lo : BitVec 11) : Except Reject Instr :=
  match lo.extractLsb' 9 2 with
  | 0x0#2 =>
    if lo.extractLsb' 4 2 = 0x0#2
    then .ok (.ldx d a b (lo.extractLsb' 8 1) (lo.extractLsb' 6 2) (lo.extractLsb' 0 4)) else .error .mustBeZero
  | 0x1#2 =>
    if lo.extractLsb' 4 2 = 0x0#2
    then .ok (.ldxAcq d a b (lo.extractLsb' 8 1) (lo.extractLsb' 6 2) (lo.extractLsb' 0 4)) else .error .mustBeZero
  | _ => .error .unassigned

/-- Major 0x2E, STX, format E (R63, R72 to R77). -/
def decStx (d a b : BitVec 5) (lo : BitVec 11) : Except Reject Instr :=
  match lo.extractLsb' 9 2 with
  | 0x0#2 =>
    if lo.extractLsb' 8 1 = 0x0#1 ∧ lo.extractLsb' 4 2 = 0x0#2
    then .ok (.stx d a b (lo.extractLsb' 6 2) (lo.extractLsb' 0 4)) else .error .mustBeZero
  | 0x1#2 =>
    if lo.extractLsb' 8 1 = 0x0#1 ∧ lo.extractLsb' 4 2 = 0x0#2
    then .ok (.stxRel d a b (lo.extractLsb' 6 2) (lo.extractLsb' 0 4)) else .error .mustBeZero
  | 0x2#2 =>
    if lo.extractLsb' 8 1 = 0x0#1 ∧ lo.extractLsb' 4 2 = 0x0#2
    then .ok (.stxOf d a b (lo.extractLsb' 6 2) (lo.extractLsb' 0 4)) else .error .mustBeZero
  | _ => .error .unassigned

/-- Major 0x2F, ATOM, format E (R63, R72 to R77). -/
def decAtom (d a b : BitVec 5) (lo : BitVec 11) : Except Reject Instr :=
  match lo.extractLsb' 6 4 with
  | 0x0#4 =>
    if lo.extractLsb' 5 1 = 0x1#1
    then .ok (.atomAdd d a b (lo.extractLsb' 10 1) (lo.extractLsb' 4 1) (lo.extractLsb' 0 4)) else .error .mustBeZero
  | 0x1#4 =>
    if lo.extractLsb' 5 1 = 0x1#1
    then .ok (.atomAnd d a b (lo.extractLsb' 10 1) (lo.extractLsb' 4 1) (lo.extractLsb' 0 4)) else .error .mustBeZero
  | 0x2#4 =>
    if lo.extractLsb' 5 1 = 0x1#1
    then .ok (.atomOr d a b (lo.extractLsb' 10 1) (lo.extractLsb' 4 1) (lo.extractLsb' 0 4)) else .error .mustBeZero
  | 0x3#4 =>
    if lo.extractLsb' 5 1 = 0x1#1
    then .ok (.atomXor d a b (lo.extractLsb' 10 1) (lo.extractLsb' 4 1) (lo.extractLsb' 0 4)) else .error .mustBeZero
  | 0x4#4 =>
    if lo.extractLsb' 5 1 = 0x1#1
    then .ok (.atomMin d a b (lo.extractLsb' 10 1) (lo.extractLsb' 4 1) (lo.extractLsb' 0 4)) else .error .mustBeZero
  | 0x5#4 =>
    if lo.extractLsb' 5 1 = 0x1#1
    then .ok (.atomMax d a b (lo.extractLsb' 10 1) (lo.extractLsb' 4 1) (lo.extractLsb' 0 4)) else .error .mustBeZero
  | 0x6#4 =>
    if lo.extractLsb' 5 1 = 0x1#1
    then .ok (.atomMinz d a b (lo.extractLsb' 10 1) (lo.extractLsb' 4 1) (lo.extractLsb' 0 4)) else .error .mustBeZero
  | 0x7#4 =>
    if lo.extractLsb' 5 1 = 0x1#1
    then .ok (.atomMaxz d a b (lo.extractLsb' 10 1) (lo.extractLsb' 4 1) (lo.extractLsb' 0 4)) else .error .mustBeZero
  | 0x8#4 =>
    if lo.extractLsb' 5 1 = 0x1#1
    then .ok (.atomSwap d a b (lo.extractLsb' 10 1) (lo.extractLsb' 4 1) (lo.extractLsb' 0 4)) else .error .mustBeZero
  | 0x9#4 =>
    if lo.extractLsb' 5 1 = 0x1#1
    then .ok (.atomCas d a b (lo.extractLsb' 10 1) (lo.extractLsb' 4 1) (lo.extractLsb' 0 4)) else .error .mustBeZero
  | 0xa#4 =>
    if lo.extractLsb' 5 1 = 0x1#1
    then .ok (.atomFadd d a b (lo.extractLsb' 10 1) (lo.extractLsb' 4 1) (lo.extractLsb' 0 4)) else .error .mustBeZero
  | _ => .error .unassigned

/-- Major 0x30, FENCE, format E (R63, R72 to R77). -/
def decFence (d a b : BitVec 5) (lo : BitVec 11) : Except Reject Instr :=
  match lo.extractLsb' 6 5 with
  | 0x0#5 =>
    if d = 0x0#5 ∧ a = 0x0#5 ∧ b = 0x0#5 ∧ lo.extractLsb' 4 2 = 0x0#2
    then .ok (.fenceAcq (lo.extractLsb' 0 4)) else .error .mustBeZero
  | 0x1#5 =>
    if d = 0x0#5 ∧ a = 0x0#5 ∧ b = 0x0#5 ∧ lo.extractLsb' 4 2 = 0x0#2
    then .ok (.fenceRel (lo.extractLsb' 0 4)) else .error .mustBeZero
  | 0x2#5 =>
    if d = 0x0#5 ∧ a = 0x0#5 ∧ b = 0x0#5 ∧ lo.extractLsb' 4 2 = 0x0#2
    then .ok (.fenceFull (lo.extractLsb' 0 4)) else .error .mustBeZero
  | 0x3#5 =>
    if d = 0x0#5 ∧ a = 0x0#5 ∧ b = 0x0#5 ∧ lo.extractLsb' 0 6 = 0x0#6
    then .ok (.fenceAck) else .error .mustBeZero
  | _ => .error .unassigned

/-- Major 0x31, RANGE, format E (R63, R72 to R77). -/
def decRange (d a b : BitVec 5) (lo : BitVec 11) : Except Reject Instr :=
  match lo.extractLsb' 6 5 with
  | 0x0#5 =>
    if lo.extractLsb' 0 6 = 0x0#6
    then .ok (.rload d a b) else .error .mustBeZero
  | 0x1#5 =>
    if lo.extractLsb' 0 6 = 0x0#6
    then .ok (.rprobe d a b) else .error .mustBeZero
  | 0x2#5 =>
    if lo.extractLsb' 0 6 = 0x0#6
    then .ok (.rsplit d a b) else .error .mustBeZero
  | 0x3#5 =>
    if lo.extractLsb' 0 6 = 0x0#6
    then .ok (.rmerge d a b) else .error .mustBeZero
  | 0x4#5 =>
    if lo.extractLsb' 0 6 = 0x0#6
    then .ok (.rinv d a b) else .error .mustBeZero
  | 0x5#5 =>
    if lo.extractLsb' 0 6 = 0x0#6
    then .ok (.rres d a b) else .error .mustBeZero
  | 0x6#5 =>
    if lo.extractLsb' 0 6 = 0x0#6
    then .ok (.rcompact d a b) else .error .mustBeZero
  | 0x7#5 =>
    if a = 0x0#5 ∧ lo.extractLsb' 0 6 = 0x0#6
    then .ok (.rstat d b) else .error .mustBeZero
  | _ => .error .unassigned

/-- Major 0x32, GUARD, format E (R63, R72 to R77). -/
def decGuard (d a b : BitVec 5) (lo : BitVec 11) : Except Reject Instr :=
  match lo.extractLsb' 6 5 with
  | 0x0#5 =>
    if lo.extractLsb' 0 6 = 0x0#6
    then .ok (.gbind d a b) else .error .mustBeZero
  | 0x1#5 =>
    if lo.extractLsb' 0 6 = 0x0#6
    then .ok (.gunbind d a b) else .error .mustBeZero
  | 0x2#5 =>
    if lo.extractLsb' 0 6 = 0x0#6
    then .ok (.gacqS d a b) else .error .mustBeZero
  | 0x3#5 =>
    if lo.extractLsb' 0 6 = 0x0#6
    then .ok (.gacqX d a b) else .error .mustBeZero
  | 0x4#5 =>
    if lo.extractLsb' 0 6 = 0x0#6
    then .ok (.grel d a b) else .error .mustBeZero
  | 0x5#5 =>
    if lo.extractLsb' 0 6 = 0x0#6
    then .ok (.gtryS d a b) else .error .mustBeZero
  | 0x6#5 =>
    if lo.extractLsb' 0 6 = 0x0#6
    then .ok (.gtryX d a b) else .error .mustBeZero
  | 0x7#5 =>
    if lo.extractLsb' 0 6 = 0x0#6
    then .ok (.gflush d a b) else .error .mustBeZero
  | 0x8#5 =>
    if lo.extractLsb' 0 6 = 0x0#6
    then .ok (.gstat d a b) else .error .mustBeZero
  | _ => .error .unassigned

/-- Major 0x33, COPY, format E (R63, R72 to R77). -/
def decCopy (d a b : BitVec 5) (lo : BitVec 11) : Except Reject Instr :=
  match lo.extractLsb' 6 5 with
  | 0x0#5 =>
    if a.extractLsb' 0 2 = 0x0#2 ∧ lo.extractLsb' 0 6 = 0x0#6
    then .ok (.cpy d (a.extractLsb' 2 3) b) else .error .mustBeZero
  | 0x1#5 =>
    if a.extractLsb' 0 2 = 0x0#2 ∧ lo.extractLsb' 0 6 = 0x0#6
    then .ok (.cpyW d (a.extractLsb' 2 3) b) else .error .mustBeZero
  | 0x2#5 =>
    if a = 0x0#5 ∧ b = 0x0#5 ∧ lo.extractLsb' 0 6 = 0x0#6
    then .ok (.cpyst d) else .error .mustBeZero
  | 0x3#5 =>
    if b = 0x0#5 ∧ lo.extractLsb' 0 6 = 0x0#6
    then .ok (.deal d a) else .error .mustBeZero
  | 0x4#5 =>
    if d = 0x0#5 ∧ lo.extractLsb' 0 6 = 0x0#6
    then .ok (.waitw a b)
    else if a = 0x0#5 ∧ lo.extractLsb' 0 6 = 0x1#6
    then .ok (.waitwSeq d b)
    else .error .mustBeZero
  | 0x5#5 =>
    if a = 0x0#5 ∧ b = 0x0#5 ∧ lo.extractLsb' 0 6 = 0x0#6
    then .ok (.waitm d) else .error .mustBeZero
  | 0x6#5 =>
    if b = 0x0#5 ∧ lo.extractLsb' 0 6 = 0x0#6
    then .ok (.mbxrd d a) else .error .mustBeZero
  | _ => .error .unassigned

/-- Major 0x34, MTX, format E (R63, R72 to R77). -/
def decMtx (d a b : BitVec 5) (lo : BitVec 11) : Except Reject Instr :=
  match lo.extractLsb' 6 5 with
  | 0x0#5 =>
    if d.extractLsb' 2 3 = 0x0#3
    then .ok (.mma (d.extractLsb' 0 2) a b (lo.extractLsb' 4 2) (lo.extractLsb' 3 1) (lo.extractLsb' 2 1) (lo.extractLsb' 1 1) (lo.extractLsb' 0 1)) else .error .mustBeZero
  | 0x1#5 =>
    if d.extractLsb' 2 3 = 0x0#3 ∧ a = 0x0#5 ∧ b = 0x0#5 ∧ lo.extractLsb' 0 6 = 0x0#6
    then .ok (.mzero (d.extractLsb' 0 2)) else .error .mustBeZero
  | 0x2#5 =>
    if d.extractLsb' 2 3 = 0x0#3 ∧ b = 0x0#5 ∧ lo.extractLsb' 0 6 = 0x0#6
    then .ok (.mlda (d.extractLsb' 0 2) a) else .error .mustBeZero
  | 0x3#5 =>
    if d.extractLsb' 2 3 = 0x0#3 ∧ b = 0x0#5 ∧ lo.extractLsb' 0 6 = 0x0#6
    then .ok (.msta (d.extractLsb' 0 2) a) else .error .mustBeZero
  | 0x4#5 =>
    if d.extractLsb' 2 3 = 0x0#3 ∧ b.extractLsb' 2 3 = 0x0#3
    then .ok (.mfmt (d.extractLsb' 0 2) a (b.extractLsb' 0 2) (lo.extractLsb' 4 2) (lo.extractLsb' 0 4)) else .error .mustBeZero
  | 0x5#5 =>
    if d = 0x0#5 ∧ lo.extractLsb' 0 6 = 0x0#6
    then .ok (.mcbld a b) else .error .mustBeZero
  | _ => .error .unassigned

/-- Major 0x35, EVT, format E (R63, R72 to R77). -/
def decEvt (d a b : BitVec 5) (lo : BitVec 11) : Except Reject Instr :=
  match lo.extractLsb' 6 5 with
  | 0x0#5 =>
    if lo.extractLsb' 0 6 = 0x0#6
    then .ok (.evcfgPop d a b)
    else if lo.extractLsb' 0 6 = 0x1#6
    then .ok (.evcfgLeak d a b)
    else if b = 0x0#5 ∧ lo.extractLsb' 0 6 = 0x2#6
    then .ok (.evcfgEng d a)
    else .error .mustBeZero
  | 0x1#5 =>
    if lo.extractLsb' 0 6 = 0x0#6
    then .ok (.evpost d a b) else .error .mustBeZero
  | 0x2#5 =>
    if b = 0x0#5 ∧ lo.extractLsb' 0 6 = 0x0#6
    then .ok (.evsweep d a) else .error .mustBeZero
  | 0x3#5 =>
    if lo.extractLsb' 0 6 = 0x0#6
    then .ok (.evread d a b)
    else if b = 0x0#5 ∧ lo.extractLsb' 0 6 = 0x1#6
    then .ok (.evreadSt d a)
    else .error .mustBeZero
  | 0x4#5 =>
    if lo.extractLsb' 0 6 = 0x0#6
    then .ok (.evwrite d a b) else .error .mustBeZero
  | 0x5#5 =>
    if a = 0x0#5 ∧ b = 0x0#5 ∧ lo.extractLsb' 0 6 = 0x0#6
    then .ok (.evdrain d)
    else if b = 0x0#5 ∧ lo.extractLsb' 0 6 = 0x1#6
    then .ok (.evdrainPop d a)
    else .error .mustBeZero
  | _ => .error .unassigned

/-- Major 0x36, TASK, format E (R63, R72 to R77). -/
def decTask (d a b : BitVec 5) (lo : BitVec 11) : Except Reject Instr :=
  match lo.extractLsb' 6 5 with
  | 0x0#5 =>
    if lo.extractLsb' 0 6 = 0x0#6
    then .ok (.launch d a b) else .error .mustBeZero
  | 0x1#5 =>
    if d = 0x0#5 ∧ a = 0x0#5 ∧ b = 0x0#5 ∧ lo.extractLsb' 0 6 = 0x0#6
    then .ok (.done) else .error .mustBeZero
  | 0x2#5 =>
    if d = 0x0#5 ∧ b = 0x0#5 ∧ lo.extractLsb' 0 6 = 0x0#6
    then .ok (.signal a) else .error .mustBeZero
  | _ => .error .unassigned

/-- Major 0x37, TIME, format E (R63, R72 to R77). -/
def decTime (d a b : BitVec 5) (lo : BitVec 11) : Except Reject Instr :=
  match lo.extractLsb' 6 5 with
  | 0x0#5 =>
    if a = 0x0#5 ∧ b = 0x0#5 ∧ lo.extractLsb' 0 6 = 0x0#6
    then .ok (.rdtime d)
    else if a = 0x0#5 ∧ b = 0x0#5 ∧ lo.extractLsb' 0 6 = 0x1#6
    then .ok (.rdtimeTick d)
    else .error .mustBeZero
  | 0x1#5 =>
    if lo.extractLsb' 0 6 = 0x0#6
    then .ok (.tarm d a b)
    else if lo.extractLsb' 0 6 = 0x1#6
    then .ok (.tarmEv d a b)
    else .error .mustBeZero
  | 0x2#5 =>
    if d = 0x0#5 ∧ b = 0x0#5 ∧ lo.extractLsb' 0 6 = 0x0#6
    then .ok (.waitt a) else .error .mustBeZero
  | _ => .error .unassigned

/-- Major 0x38, LSTR, format E (R63, R72 to R77). -/
def decLstr (d a b : BitVec 5) (lo : BitVec 11) : Except Reject Instr :=
  match lo.extractLsb' 6 5 with
  | 0x0#5 =>
    if a.extractLsb' 0 2 = 0x0#2 ∧ b = 0x0#5 ∧ lo.extractLsb' 0 6 = 0x0#6
    then .ok (.ldtile d (a.extractLsb' 2 3)) else .error .mustBeZero
  | 0x1#5 =>
    if a.extractLsb' 0 2 = 0x0#2 ∧ b = 0x0#5 ∧ lo.extractLsb' 0 6 = 0x0#6
    then .ok (.sttile d (a.extractLsb' 2 3)) else .error .mustBeZero
  | 0x2#5 =>
    if a.extractLsb' 0 2 = 0x0#2 ∧ b = 0x0#5 ∧ lo.extractLsb' 0 6 = 0x0#6
    then .ok (.ldeal d (a.extractLsb' 2 3)) else .error .mustBeZero
  | 0x3#5 =>
    if b = 0x0#5 ∧ lo.extractLsb' 0 6 = 0x0#6
    then .ok (.lswait d a) else .error .mustBeZero
  | _ => .error .unassigned

/-- The opcode map (R63): the instruction of a word's five pieces. -/
def decodeFields (mj : Nat) (d a b : BitVec 5) (lo : BitVec 11) : Except Reject Instr :=
  match mj with
  | 0x01 => decInt d a b lo
  | 0x02 => .ok (.addi d a (b ++ lo))
  | 0x03 => .ok (.andi d a (b ++ lo))
  | 0x04 => .ok (.ori d a (b ++ lo))
  | 0x05 => .ok (.xori d a (b ++ lo))
  | 0x06 => decShifti d a b lo
  | 0x07 => .ok (.limh d a (b ++ lo))
  | 0x08 => .ok (.slti d a (b ++ lo))
  | 0x09 => .ok (.sltiz d a (b ++ lo))
  | 0x0a => decMuldiv d a b lo
  | 0x0b => decBits d a b lo
  | 0x0c => decAddr d a b lo
  | 0x0d => .ok (.ldB d a (b ++ lo))
  | 0x0e => .ok (.ldH d a (b ++ lo))
  | 0x0f => .ok (.ldW d a (b ++ lo))
  | 0x10 => .ok (.ldD d a (b ++ lo))
  | 0x11 => .ok (.ldBz d a (b ++ lo))
  | 0x12 => .ok (.ldHz d a (b ++ lo))
  | 0x13 => .ok (.ldWz d a (b ++ lo))
  | 0x14 => .ok (.stB d a (b ++ lo))
  | 0x15 => .ok (.stH d a (b ++ lo))
  | 0x16 => .ok (.stW d a (b ++ lo))
  | 0x17 => .ok (.stD d a (b ++ lo))
  | 0x18 => decBc d a b lo
  | 0x19 => decBcmp d a b lo
  | 0x1a => .ok (.j (d ++ a ++ b ++ lo))
  | 0x1b => .ok (.jl (d ++ a ++ b ++ lo))
  | 0x1c => decJr d a b lo
  | 0x1d => decCtrl d a b lo
  | 0x1e => decSys d a b lo
  | 0x1f => decVint d a b lo
  | 0x20 => decVflt d a b lo
  | 0x21 => decVfma d a b lo
  | 0x22 => decVcmp d a b lo
  | 0x23 => decVcvt d a b lo
  | 0x24 => decVperm d a b lo
  | 0x25 => .ok (.vld d a (b.extractLsb' 2 3) (b.extractLsb' 0 2 ++ lo))
  | 0x26 => .ok (.vst d a (b.extractLsb' 2 3) (b.extractLsb' 0 2 ++ lo))
  | 0x27 => decVlds d a b lo
  | 0x28 => decSeq d a b lo
  | 0x29 => decMsg d a b lo
  | 0x2a => decBar d a b lo
  | 0x2b => decGang d a b lo
  | 0x2c => decXch d a b lo
  | 0x2d => decLdx d a b lo
  | 0x2e => decStx d a b lo
  | 0x2f => decAtom d a b lo
  | 0x30 => decFence d a b lo
  | 0x31 => decRange d a b lo
  | 0x32 => decGuard d a b lo
  | 0x33 => decCopy d a b lo
  | 0x34 => decMtx d a b lo
  | 0x35 => decEvt d a b lo
  | 0x36 => decTask d a b lo
  | 0x37 => decTime d a b lo
  | 0x38 => decLstr d a b lo
  | _ => .error .reservedMajor

/-- The decoder (R65 step 2): total, refusing by name. -/
def decode (w : BitVec 32) : Except Reject Instr :=
  match decodeFields (wordMajor w) (wordD w) (wordA w) (wordB w) (wordLo w) with
  | .ok i => if i.wf then .ok i else .error .combination
  | .error r => .error r

/-- The decoder read as a partial function. -/
def decode? (w : BitVec 32) : Option Instr :=
  match decode w with
  | .ok i => some i
  | .error _ => none

/-- The encoder: the word of an instruction; an event has none. -/
def encode : Instr → Option (BitVec 32)
  | .add d a b => some (mkWord 0x01 d a b 0x0#11)
  | .sub d a b => some (mkWord 0x01 d a b 0x1#11)
  | .and d a b => some (mkWord 0x01 d a b 0x2#11)
  | .or d a b => some (mkWord 0x01 d a b 0x3#11)
  | .xor d a b => some (mkWord 0x01 d a b 0x4#11)
  | .andn d a b => some (mkWord 0x01 d a b 0x5#11)
  | .orn d a b => some (mkWord 0x01 d a b 0x6#11)
  | .xnor d a b => some (mkWord 0x01 d a b 0x7#11)
  | .sll d a b => some (mkWord 0x01 d a b 0x8#11)
  | .srl d a b => some (mkWord 0x01 d a b 0x9#11)
  | .sra d a b => some (mkWord 0x01 d a b 0xa#11)
  | .rol d a b => some (mkWord 0x01 d a b 0xb#11)
  | .ror d a b => some (mkWord 0x01 d a b 0xc#11)
  | .slt d a b => some (mkWord 0x01 d a b 0xd#11)
  | .sltz d a b => some (mkWord 0x01 d a b 0xe#11)
  | .min d a b => some (mkWord 0x01 d a b 0xf#11)
  | .max d a b => some (mkWord 0x01 d a b 0x10#11)
  | .minz d a b => some (mkWord 0x01 d a b 0x11#11)
  | .maxz d a b => some (mkWord 0x01 d a b 0x12#11)
  | .addW d a b => some (mkWord 0x01 d a b 0x13#11)
  | .subW d a b => some (mkWord 0x01 d a b 0x14#11)
  | .sllW d a b => some (mkWord 0x01 d a b 0x15#11)
  | .srlW d a b => some (mkWord 0x01 d a b 0x16#11)
  | .sraW d a b => some (mkWord 0x01 d a b 0x17#11)
  | .addSat d a b => some (mkWord 0x01 d a b 0x18#11)
  | .subSat d a b => some (mkWord 0x01 d a b 0x19#11)
  | .seq d a b => some (mkWord 0x01 d a b 0x1a#11)
  | .sne d a b => some (mkWord 0x01 d a b 0x1b#11)
  | .addi d a i => some (mkWord 0x02 d a (i.extractLsb' 11 5) (i.extractLsb' 0 11))
  | .andi d a i => some (mkWord 0x03 d a (i.extractLsb' 11 5) (i.extractLsb' 0 11))
  | .ori d a i => some (mkWord 0x04 d a (i.extractLsb' 11 5) (i.extractLsb' 0 11))
  | .xori d a i => some (mkWord 0x05 d a (i.extractLsb' 11 5) (i.extractLsb' 0 11))
  | .limh d a i => some (mkWord 0x07 d a (i.extractLsb' 11 5) (i.extractLsb' 0 11))
  | .slti d a i => some (mkWord 0x08 d a (i.extractLsb' 11 5) (i.extractLsb' 0 11))
  | .sltiz d a i => some (mkWord 0x09 d a (i.extractLsb' 11 5) (i.extractLsb' 0 11))
  | .slli d a n => some (mkWord 0x06 d a 0x0#5 (0x0#5 ++ n))
  | .srli d a n => some (mkWord 0x06 d a 0x4#5 (0x0#5 ++ n))
  | .srai d a n => some (mkWord 0x06 d a 0x8#5 (0x0#5 ++ n))
  | .rori d a n => some (mkWord 0x06 d a 0xc#5 (0x0#5 ++ n))
  | .slliW d a n => some (mkWord 0x06 d a 0x10#5 (0x0#5 ++ n))
  | .srliW d a n => some (mkWord 0x06 d a 0x14#5 (0x0#5 ++ n))
  | .sraiW d a n => some (mkWord 0x06 d a 0x18#5 (0x0#5 ++ n))
  | .mul d a b => some (mkWord 0x0a d a b 0x0#11)
  | .mulh d a b => some (mkWord 0x0a d a b 0x1#11)
  | .mulhz d a b => some (mkWord 0x0a d a b 0x2#11)
  | .mulhsz d a b => some (mkWord 0x0a d a b 0x3#11)
  | .div d a b => some (mkWord 0x0a d a b 0x4#11)
  | .divz d a b => some (mkWord 0x0a d a b 0x5#11)
  | .rem d a b => some (mkWord 0x0a d a b 0x6#11)
  | .remz d a b => some (mkWord 0x0a d a b 0x7#11)
  | .mulW d a b => some (mkWord 0x0a d a b 0x8#11)
  | .divW d a b => some (mkWord 0x0a d a b 0x9#11)
  | .divzW d a b => some (mkWord 0x0a d a b 0xa#11)
  | .remW d a b => some (mkWord 0x0a d a b 0xb#11)
  | .remzW d a b => some (mkWord 0x0a d a b 0xc#11)
  | .ext d a p l => some (mkWord 0x0b d a (p.extractLsb' 0 5) (p.extractLsb' 5 1 ++ 0x0#4 ++ l))
  | .extz d a p l => some (mkWord 0x0b d a (p.extractLsb' 0 5) (p.extractLsb' 5 1 ++ 0x2#4 ++ l))
  | .ins d a p l => some (mkWord 0x0b d a (p.extractLsb' 0 5) (p.extractLsb' 5 1 ++ 0x4#4 ++ l))
  | .clz d a => some (mkWord 0x0b d a 0x0#5 0x200#11)
  | .ctz d a => some (mkWord 0x0b d a 0x0#5 0x201#11)
  | .popc d a => some (mkWord 0x0b d a 0x0#5 0x202#11)
  | .rev8 d a => some (mkWord 0x0b d a 0x0#5 0x203#11)
  | .revb d a => some (mkWord 0x0b d a 0x0#5 0x204#11)
  | .adda d a b s => some (mkWord 0x0c d a b (0x0#5 ++ s))
  | .suba d a b s => some (mkWord 0x0c d a b (0x4#5 ++ s))
  | .chkb a b => some (mkWord 0x0c 0x0#5 a b 0x200#11)
  | .chkr d a b => some (mkWord 0x0c d a b 0x300#11)
  | .aligna d a s => some (mkWord 0x0c d a 0x0#5 (0x10#5 ++ s))
  | .ldB d a i => some (mkWord 0x0d d a (i.extractLsb' 11 5) (i.extractLsb' 0 11))
  | .ldH d a i => some (mkWord 0x0e d a (i.extractLsb' 11 5) (i.extractLsb' 0 11))
  | .ldW d a i => some (mkWord 0x0f d a (i.extractLsb' 11 5) (i.extractLsb' 0 11))
  | .ldD d a i => some (mkWord 0x10 d a (i.extractLsb' 11 5) (i.extractLsb' 0 11))
  | .ldBz d a i => some (mkWord 0x11 d a (i.extractLsb' 11 5) (i.extractLsb' 0 11))
  | .ldHz d a i => some (mkWord 0x12 d a (i.extractLsb' 11 5) (i.extractLsb' 0 11))
  | .ldWz d a i => some (mkWord 0x13 d a (i.extractLsb' 11 5) (i.extractLsb' 0 11))
  | .stB d a i => some (mkWord 0x14 d a (i.extractLsb' 11 5) (i.extractLsb' 0 11))
  | .stH d a i => some (mkWord 0x15 d a (i.extractLsb' 11 5) (i.extractLsb' 0 11))
  | .stW d a i => some (mkWord 0x16 d a (i.extractLsb' 11 5) (i.extractLsb' 0 11))
  | .stD d a i => some (mkWord 0x17 d a (i.extractLsb' 11 5) (i.extractLsb' 0 11))
  | .beqz a o => some (mkWord 0x18 0x0#5 a (o.extractLsb' 11 5) (o.extractLsb' 0 11))
  | .bnez a o => some (mkWord 0x18 0x1#5 a (o.extractLsb' 11 5) (o.extractLsb' 0 11))
  | .bltz a o => some (mkWord 0x18 0x2#5 a (o.extractLsb' 11 5) (o.extractLsb' 0 11))
  | .bgez a o => some (mkWord 0x18 0x3#5 a (o.extractLsb' 11 5) (o.extractLsb' 0 11))
  | .bgtz a o => some (mkWord 0x18 0x4#5 a (o.extractLsb' 11 5) (o.extractLsb' 0 11))
  | .blez a o => some (mkWord 0x18 0x5#5 a (o.extractLsb' 11 5) (o.extractLsb' 0 11))
  | .beq a b o => some (mkWord 0x19 a b (0x0#3 ++ o.extractLsb' 11 2) (o.extractLsb' 0 11))
  | .bne a b o => some (mkWord 0x19 a b (0x1#3 ++ o.extractLsb' 11 2) (o.extractLsb' 0 11))
  | .blt a b o => some (mkWord 0x19 a b (0x2#3 ++ o.extractLsb' 11 2) (o.extractLsb' 0 11))
  | .bge a b o => some (mkWord 0x19 a b (0x3#3 ++ o.extractLsb' 11 2) (o.extractLsb' 0 11))
  | .blo a b o => some (mkWord 0x19 a b (0x4#3 ++ o.extractLsb' 11 2) (o.extractLsb' 0 11))
  | .bhs a b o => some (mkWord 0x19 a b (0x5#3 ++ o.extractLsb' 11 2) (o.extractLsb' 0 11))
  | .j o => some (mkWord 0x1a (o.extractLsb' 21 5) (o.extractLsb' 16 5) (o.extractLsb' 11 5) (o.extractLsb' 0 11))
  | .jl o => some (mkWord 0x1b (o.extractLsb' 21 5) (o.extractLsb' 16 5) (o.extractLsb' 11 5) (o.extractLsb' 0 11))
  | .jr a => some (mkWord 0x1c 0x0#5 a 0x0#5 0x0#11)
  | .jlr a => some (mkWord 0x1c 0x0#5 a 0x0#5 0x1#11)
  | .crr d n => some (mkWord 0x1d d 0x0#5 (n.extractLsb' 7 5) (0x0#4 ++ n.extractLsb' 0 7))
  | .crw a n => some (mkWord 0x1d 0x0#5 a (n.extractLsb' 7 5) (0x2#4 ++ n.extractLsb' 0 7))
  | .crs d a n => some (mkWord 0x1d d a (n.extractLsb' 7 5) (0x4#4 ++ n.extractLsb' 0 7))
  | .crc d a n => some (mkWord 0x1d d a (n.extractLsb' 7 5) (0x6#4 ++ n.extractLsb' 0 7))
  | .svc c => some (mkWord 0x1e 0x0#5 0x0#5 (c.extractLsb' 6 5) (0x0#5 ++ c.extractLsb' 0 6))
  | .eret => some (mkWord 0x1e 0x0#5 0x0#5 0x0#5 0x40#11)
  | .trap c => some (mkWord 0x1e 0x0#5 0x0#5 (c.extractLsb' 6 5) (0x2#5 ++ c.extractLsb' 0 6))
  | .brk c => some (mkWord 0x1e 0x0#5 0x0#5 (c.extractLsb' 6 5) (0x3#5 ++ c.extractLsb' 0 6))
  | .halt => some (mkWord 0x1e 0x0#5 0x0#5 0x0#5 0x100#11)
  | .wfe => some (mkWord 0x1e 0x0#5 0x0#5 0x0#5 0x140#11)
  | .ifence => some (mkWord 0x1e 0x0#5 0x0#5 0x0#5 0x180#11)
  | .yield => some (mkWord 0x1e 0x0#5 0x0#5 0x0#5 0x1c0#11)
  | .vadd d a b m w => some (mkWord 0x1f d a b (m ++ 0x0#6 ++ w))
  | .vsub d a b m w => some (mkWord 0x1f d a b (m ++ 0x1#6 ++ w))
  | .vaddsSigned d a b m w => some (mkWord 0x1f d a b (m ++ 0x2#6 ++ w))
  | .vaddsUnsigned d a b m w => some (mkWord 0x1f d a b (m ++ 0x3#6 ++ w))
  | .vsubsSigned d a b m w => some (mkWord 0x1f d a b (m ++ 0x4#6 ++ w))
  | .vsubsUnsigned d a b m w => some (mkWord 0x1f d a b (m ++ 0x5#6 ++ w))
  | .vmul d a b m w => some (mkWord 0x1f d a b (m ++ 0x6#6 ++ w))
  | .vmulhSigned d a b m w => some (mkWord 0x1f d a b (m ++ 0x7#6 ++ w))
  | .vmulhUnsigned d a b m w => some (mkWord 0x1f d a b (m ++ 0x8#6 ++ w))
  | .vminSigned d a b m w => some (mkWord 0x1f d a b (m ++ 0x9#6 ++ w))
  | .vminUnsigned d a b m w => some (mkWord 0x1f d a b (m ++ 0xa#6 ++ w))
  | .vmaxSigned d a b m w => some (mkWord 0x1f d a b (m ++ 0xb#6 ++ w))
  | .vmaxUnsigned d a b m w => some (mkWord 0x1f d a b (m ++ 0xc#6 ++ w))
  | .vand d a b m w => some (mkWord 0x1f d a b (m ++ 0xd#6 ++ w))
  | .vor d a b m w => some (mkWord 0x1f d a b (m ++ 0xe#6 ++ w))
  | .vxor d a b m w => some (mkWord 0x1f d a b (m ++ 0xf#6 ++ w))
  | .vandn d a b m w => some (mkWord 0x1f d a b (m ++ 0x10#6 ++ w))
  | .vsll d a b m w => some (mkWord 0x1f d a b (m ++ 0x11#6 ++ w))
  | .vsrl d a b m w => some (mkWord 0x1f d a b (m ++ 0x12#6 ++ w))
  | .vsra d a b m w => some (mkWord 0x1f d a b (m ++ 0x13#6 ++ w))
  | .vabs d a m w => some (mkWord 0x1f d a 0x0#5 (m ++ 0x14#6 ++ w))
  | .vsum d a b m w => some (mkWord 0x1f d a b (m ++ 0x15#6 ++ w))
  | .vfadd d a b m t => some (mkWord 0x20 d a b (m ++ 0x0#5 ++ t))
  | .vfsub d a b m t => some (mkWord 0x20 d a b (m ++ 0x1#5 ++ t))
  | .vfmul d a b m t => some (mkWord 0x20 d a b (m ++ 0x2#5 ++ t))
  | .vfdiv d a b m t => some (mkWord 0x20 d a b (m ++ 0x3#5 ++ t))
  | .vfsqrt d a m t => some (mkWord 0x20 d a 0x0#5 (m ++ 0x4#5 ++ t))
  | .vfmin d a b m t => some (mkWord 0x20 d a b (m ++ 0x5#5 ++ t))
  | .vfmax d a b m t => some (mkWord 0x20 d a b (m ++ 0x6#5 ++ t))
  | .vfabs d a m t => some (mkWord 0x20 d a 0x0#5 (m ++ 0x7#5 ++ t))
  | .vfneg d a m t => some (mkWord 0x20 d a 0x0#5 (m ++ 0x8#5 ++ t))
  | .vfsum d a b m t => some (mkWord 0x20 d a b (m ++ 0x9#5 ++ t))
  | .vfsumw d a b m t => some (mkWord 0x20 d a b (m ++ 0xa#5 ++ t))
  | .vfma d a b c m t => some (mkWord 0x21 d a b (c ++ m ++ 0x0#1 ++ t))
  | .vfms d a b c m t => some (mkWord 0x21 d a b (c ++ m ++ 0x1#1 ++ t))
  | .vcmpEq d a b m t => some (mkWord 0x22 (0x0#2 ++ d) a b (m ++ 0x0#4 ++ t))
  | .vcmpNe d a b m t => some (mkWord 0x22 (0x0#2 ++ d) a b (m ++ 0x1#4 ++ t))
  | .vcmpLt d a b m t => some (mkWord 0x22 (0x0#2 ++ d) a b (m ++ 0x2#4 ++ t))
  | .vcmpLe d a b m t => some (mkWord 0x22 (0x0#2 ++ d) a b (m ++ 0x3#4 ++ t))
  | .vcmpGt d a b m t => some (mkWord 0x22 (0x0#2 ++ d) a b (m ++ 0x4#4 ++ t))
  | .vcmpGe d a b m t => some (mkWord 0x22 (0x0#2 ++ d) a b (m ++ 0x5#4 ++ t))
  | .vcmpUn d a b m t => some (mkWord 0x22 (0x0#2 ++ d) a b (m ++ 0x6#4 ++ t))
  | .mand d a b => some (mkWord 0x22 (0x0#2 ++ d) (0x0#2 ++ a) (0x0#2 ++ b) 0xf0#11)
  | .mor d a b => some (mkWord 0x22 (0x0#2 ++ d) (0x0#2 ++ a) (0x0#2 ++ b) 0xf1#11)
  | .mxor d a b => some (mkWord 0x22 (0x0#2 ++ d) (0x0#2 ++ a) (0x0#2 ++ b) 0xf2#11)
  | .mandn d a b => some (mkWord 0x22 (0x0#2 ++ d) (0x0#2 ++ a) (0x0#2 ++ b) 0xf3#11)
  | .mnot d a => some (mkWord 0x22 (0x0#2 ++ d) (0x0#2 ++ a) 0x0#5 0xf4#11)
  | .mfromg d a => some (mkWord 0x22 (0x0#2 ++ d) a 0x0#5 0xf5#11)
  | .mtog d a => some (mkWord 0x22 d (0x0#2 ++ a) 0x0#5 0xf6#11)
  | .mpop d a => some (mkWord 0x22 d (0x0#2 ++ a) 0x0#5 0xf7#11)
  | .vcvtEl d a r m x s => some (mkWord 0x23 d a (r ++ 0x0#2) (m ++ x ++ s))
  | .vcvtPack d a r x s => some (mkWord 0x23 d a (r ++ 0x1#2) (0x0#3 ++ x ++ s))
  | .vcvtUnpack d a r x s => some (mkWord 0x23 d a (r ++ 0x2#2) (0x0#3 ++ x ++ s))
  | .vperm d a b m w => some (mkWord 0x24 d a b (m ++ 0x0#6 ++ w))
  | .vbcast d a m w => some (mkWord 0x24 d a 0x0#5 (m ++ 0x1#6 ++ w))
  | .vdup d a b m w => some (mkWord 0x24 d a b (m ++ 0x2#6 ++ w))
  | .vmov d a m w => some (mkWord 0x24 d a 0x0#5 (m ++ 0x3#6 ++ w))
  | .vzip d a b m w => some (mkWord 0x24 d a b (m ++ 0x4#6 ++ w))
  | .vunzip d a b m w => some (mkWord 0x24 d a b (m ++ 0x5#6 ++ w))
  | .vslide d a b m w => some (mkWord 0x24 d a b (m ++ 0x6#6 ++ w))
  | .vins d a b w => some (mkWord 0x24 d a b (0x7#9 ++ w))
  | .vext d a b w => some (mkWord 0x24 d a b (0x8#9 ++ w))
  | .vcompress d a m w => some (mkWord 0x24 d a 0x0#5 (m ++ 0x9#6 ++ w))
  | .vexpand d a m w => some (mkWord 0x24 d a 0x0#5 (m ++ 0xa#6 ++ w))
  | .vld v a m o => some (mkWord 0x25 v a (m ++ o.extractLsb' 11 2) (o.extractLsb' 0 11))
  | .vst v a m o => some (mkWord 0x26 v a (m ++ o.extractLsb' 11 2) (o.extractLsb' 0 11))
  | .vlds d a b m w => some (mkWord 0x27 d a b (m ++ 0x0#6 ++ w))
  | .vsts d a b m w => some (mkWord 0x27 d a b (m ++ 0x1#6 ++ w))
  | .vgath d a b m w => some (mkWord 0x27 d a b (m ++ 0x2#6 ++ w))
  | .vscat d a b m w => some (mkWord 0x27 d a b (m ++ 0x3#6 ++ w))
  | .rfrm n a b => some (mkWord 0x28 (0x0#1 ++ n) a b 0x0#11)
  | .frameReplay => none
  | .loop o a => some (mkWord 0x28 (o.extractLsb' 11 5) a (o.extractLsb' 6 5) (0x1#5 ++ o.extractLsb' 0 6))
  | .send a b t n => some (mkWord 0x29 0x0#5 a b (0x0#6 ++ t ++ n))
  | .sendV a b t n => some (mkWord 0x29 0x0#5 a b (0x2#6 ++ t ++ n))
  | .recv d r n => some (mkWord 0x29 d 0x0#5 0x0#5 (0x4#6 ++ r ++ n))
  | .recvV d r n => some (mkWord 0x29 d 0x0#5 0x0#5 (0x6#6 ++ r ++ n))
  | .recvT d a r n => some (mkWord 0x29 d a 0x0#5 (0x8#6 ++ r ++ n))
  | .recvTV d a r n => some (mkWord 0x29 d a 0x0#5 (0xa#6 ++ r ++ n))
  | .msgst d n => some (mkWord 0x29 d 0x0#5 0x0#5 (0x18#7 ++ n))
  | .arrive n => some (mkWord 0x2a 0x0#5 0x0#5 0x0#5 (0x0#7 ++ n))
  | .waitb n => some (mkWord 0x2a 0x0#5 0x0#5 0x0#5 (0x4#7 ++ n))
  | .testb d n => some (mkWord 0x2a d 0x0#5 0x0#5 (0x8#7 ++ n))
  | .vote d a n => some (mkWord 0x2a d a 0x0#5 (0xc#7 ++ n))
  | .bdef a n => some (mkWord 0x2a 0x0#5 a 0x0#5 (0x10#7 ++ n))
  | .follow d a => some (mkWord 0x2b d a 0x0#5 0x0#11)
  | .split => some (mkWord 0x2b 0x0#5 0x0#5 0x0#5 0x40#11)
  | .gangst d => some (mkWord 0x2b d 0x0#5 0x0#5 0x80#11)
  | .followRequestTaken _ _ => none
  | .comm d r => some (mkWord 0x2c d 0x0#5 0x0#5 (0x0#6 ++ r ++ 0x0#4))
  | .ttplan d a => some (mkWord 0x2c d a 0x0#5 0x40#11)
  | .ttsend c a => some (mkWord 0x2c (c.extractLsb' 11 5) a (c.extractLsb' 6 5) (0x2#5 ++ c.extractLsb' 0 6))
  | .ttrecv c a => some (mkWord 0x2c (c.extractLsb' 11 5) a (c.extractLsb' 6 5) (0x3#5 ++ c.extractLsb' 0 6))
  | .ldx d a b z s p => some (mkWord 0x2d d a b (0x0#2 ++ z ++ s ++ 0x0#2 ++ p))
  | .ldxAcq d a b z s p => some (mkWord 0x2d d a b (0x1#2 ++ z ++ s ++ 0x0#2 ++ p))
  | .loadDataReturn _ => none
  | .memoryResponseTimeout _ => none
  | .stx d a b s p => some (mkWord 0x2e d a b (0x0#3 ++ s ++ 0x0#2 ++ p))
  | .stxRel d a b s p => some (mkWord 0x2e d a b (0x2#3 ++ s ++ 0x0#2 ++ p))
  | .stxOf d a b s p => some (mkWord 0x2e d a b (0x4#3 ++ s ++ 0x0#2 ++ p))
  | .atomAdd d a b r s p => some (mkWord 0x2f d a b (r ++ 0x1#5 ++ s ++ p))
  | .atomAnd d a b r s p => some (mkWord 0x2f d a b (r ++ 0x3#5 ++ s ++ p))
  | .atomOr d a b r s p => some (mkWord 0x2f d a b (r ++ 0x5#5 ++ s ++ p))
  | .atomXor d a b r s p => some (mkWord 0x2f d a b (r ++ 0x7#5 ++ s ++ p))
  | .atomMin d a b r s p => some (mkWord 0x2f d a b (r ++ 0x9#5 ++ s ++ p))
  | .atomMax d a b r s p => some (mkWord 0x2f d a b (r ++ 0xb#5 ++ s ++ p))
  | .atomMinz d a b r s p => some (mkWord 0x2f d a b (r ++ 0xd#5 ++ s ++ p))
  | .atomMaxz d a b r s p => some (mkWord 0x2f d a b (r ++ 0xf#5 ++ s ++ p))
  | .atomSwap d a b r s p => some (mkWord 0x2f d a b (r ++ 0x11#5 ++ s ++ p))
  | .atomCas d a b r s p => some (mkWord 0x2f d a b (r ++ 0x13#5 ++ s ++ p))
  | .atomFadd d a b r s p => some (mkWord 0x2f d a b (r ++ 0x15#5 ++ s ++ p))
  | .fenceAcq p => some (mkWord 0x30 0x0#5 0x0#5 0x0#5 (0x0#7 ++ p))
  | .fenceRel p => some (mkWord 0x30 0x0#5 0x0#5 0x0#5 (0x4#7 ++ p))
  | .fenceFull p => some (mkWord 0x30 0x0#5 0x0#5 0x0#5 (0x8#7 ++ p))
  | .fenceAck => some (mkWord 0x30 0x0#5 0x0#5 0x0#5 0xc0#11)
  | .rload d a b => some (mkWord 0x31 d a b 0x0#11)
  | .rprobe d a b => some (mkWord 0x31 d a b 0x40#11)
  | .rsplit d a b => some (mkWord 0x31 d a b 0x80#11)
  | .rmerge d a b => some (mkWord 0x31 d a b 0xc0#11)
  | .rinv d a b => some (mkWord 0x31 d a b 0x100#11)
  | .rres d a b => some (mkWord 0x31 d a b 0x140#11)
  | .rcompact d a b => some (mkWord 0x31 d a b 0x180#11)
  | .rstat d b => some (mkWord 0x31 d 0x0#5 b 0x1c0#11)
  | .gbind d a b => some (mkWord 0x32 d a b 0x0#11)
  | .gunbind d a b => some (mkWord 0x32 d a b 0x40#11)
  | .gacqS d a b => some (mkWord 0x32 d a b 0x80#11)
  | .gacqX d a b => some (mkWord 0x32 d a b 0xc0#11)
  | .grel d a b => some (mkWord 0x32 d a b 0x100#11)
  | .gtryS d a b => some (mkWord 0x32 d a b 0x140#11)
  | .gtryX d a b => some (mkWord 0x32 d a b 0x180#11)
  | .gflush d a b => some (mkWord 0x32 d a b 0x1c0#11)
  | .gstat d a b => some (mkWord 0x32 d a b 0x200#11)
  | .cpy d a b => some (mkWord 0x33 d (a ++ 0x0#2) b 0x0#11)
  | .cpyW d a b => some (mkWord 0x33 d (a ++ 0x0#2) b 0x40#11)
  | .cpyst d => some (mkWord 0x33 d 0x0#5 0x0#5 0x80#11)
  | .deal d a => some (mkWord 0x33 d a 0x0#5 0xc0#11)
  | .waitw a b => some (mkWord 0x33 0x0#5 a b 0x100#11)
  | .waitwSeq d b => some (mkWord 0x33 d 0x0#5 b 0x101#11)
  | .waitm d => some (mkWord 0x33 d 0x0#5 0x0#5 0x140#11)
  | .mbxrd d a => some (mkWord 0x33 d a 0x0#5 0x180#11)
  | .mma c a b r u v w x => some (mkWord 0x34 (0x0#3 ++ c) a b (0x0#5 ++ r ++ u ++ v ++ w ++ x))
  | .mzero c => some (mkWord 0x34 (0x0#3 ++ c) 0x0#5 0x0#5 0x40#11)
  | .mlda c a => some (mkWord 0x34 (0x0#3 ++ c) a 0x0#5 0x80#11)
  | .msta c a => some (mkWord 0x34 (0x0#3 ++ c) a 0x0#5 0xc0#11)
  | .mfmt c a s r t => some (mkWord 0x34 (0x0#3 ++ c) a (0x0#3 ++ s) (0x4#5 ++ r ++ t))
  | .mcbld a b => some (mkWord 0x34 0x0#5 a b 0x140#11)
  | .evcfgPop d a b => some (mkWord 0x35 d a b 0x0#11)
  | .evcfgLeak d a b => some (mkWord 0x35 d a b 0x1#11)
  | .evcfgEng d a => some (mkWord 0x35 d a 0x0#5 0x2#11)
  | .evpost d a b => some (mkWord 0x35 d a b 0x40#11)
  | .evsweep d a => some (mkWord 0x35 d a 0x0#5 0x80#11)
  | .evread d a b => some (mkWord 0x35 d a b 0xc0#11)
  | .evreadSt d a => some (mkWord 0x35 d a 0x0#5 0xc1#11)
  | .evwrite d a b => some (mkWord 0x35 d a b 0x100#11)
  | .evdrain d => some (mkWord 0x35 d 0x0#5 0x0#5 0x140#11)
  | .evdrainPop d a => some (mkWord 0x35 d a 0x0#5 0x141#11)
  | .launch d a b => some (mkWord 0x36 d a b 0x0#11)
  | .done => some (mkWord 0x36 0x0#5 0x0#5 0x0#5 0x40#11)
  | .signal a => some (mkWord 0x36 0x0#5 a 0x0#5 0x80#11)
  | .rdtime d => some (mkWord 0x37 d 0x0#5 0x0#5 0x0#11)
  | .rdtimeTick d => some (mkWord 0x37 d 0x0#5 0x0#5 0x1#11)
  | .tarm d a b => some (mkWord 0x37 d a b 0x40#11)
  | .tarmEv d a b => some (mkWord 0x37 d a b 0x41#11)
  | .waitt a => some (mkWord 0x37 0x0#5 a 0x0#5 0x80#11)
  | .ldtile d a => some (mkWord 0x38 d (a ++ 0x0#2) 0x0#5 0x0#11)
  | .sttile d a => some (mkWord 0x38 d (a ++ 0x0#2) 0x0#5 0x40#11)
  | .ldeal d a => some (mkWord 0x38 d (a ++ 0x0#2) 0x0#5 0x80#11)
  | .lswait d a => some (mkWord 0x38 d a 0x0#5 0xc0#11)
  | .lateFaultTaken _ => none
  | .releaseCauseTaken _ => none
  | .registerWrite _ _ _ _ _ => none
  | .barrierRelease _ _ => none
  | .phaseClose _ => none
  | .exchangeBeatSend _ => none
  | .exchangeBeatReceive _ _ _ => none
  | .rxWatchdog _ => none
  | .messageArrival _ => none
  | .messageEntersChannel _ => none
  | .launchAdmission _ _ => none
  | .launchStart _ _ _ => none
  | .launchEnd _ _ => none
  | .preemptRequest _ _ => none
  | .preempt _ => none
  | .contextSave _ _ => none
  | .resume _ _ => none
  | .rollback _ => none
  | .copyStart _ _ => none
  | .copyComplete _ _ => none
  | .copyFault _ _ => none
  | .streamedStepReplay _ => none
  | .mailboxPost _ => none
  | .loaderCallStart _ => none
  | .tileStepStart _ => none
  | .tileStepComplete _ _ => none
  | .matrixOperationPerform _ => none
  | .eventArrival _ => none
  | .eventDelivery _ => none
  | .eventOperationPerform _ => none
  | .evdrainComplete _ => none
  | .triggerFire _ => none
  | .waittExpiry _ => none
  | .domainClockStep _ _ => none
  | .stationLookup _ => none
  | .stationRangeRequest _ => none
  | .rangeNotice _ _ _ => none
  | .holderAcknowledge _ => none
  | .coordinatorApply _ _ => none
  | .conservatorCopy _ _ => none
  | .retarget _ _ => none
  | .guardOperationStart _ _ => none
  | .curatorRequest _ => none
  | .supplierForward _ => none
  | .grantArrival _ => none
  | .curatorRelease _ => none
  | .writeBack _ => none
  | .writeAcknowledgement _ => none
  | .orderedStoreRelease _ => none
  | .orderedStoreTimeout _ => none
  | .hostWindowRead _ _ _ => none
  | .hostWindowWrite _ _ _ => none
  | .hostOrderedWriteRelease _ => none
  | .hostReadCompletion _ _ => none
  | .recordWrite _ _ _ _ _ => none
  | .qcreate _ _ => none
  | .qdestroy _ _ => none
  | .cset _ _ => none
  | .cancel _ _ => none
  | .summary _ _ => none
  | .tstep _ _ => none
  | .hwin _ _ => none
  | .mwin _ _ => none
  | .soep _ _ => none
  | .setstate _ _ => none
  | .packageReset _ => none
  | .dieReset _ _ => none
  | .gatewayDieReset _ _ => none
  | .dieUnresponsiveTimeout _ _ => none
  | .linkCrcReplay _ _ => none
  | .laneRetire _ _ => none
  | .pathDown _ _ _ => none
  | .thermalThrottle _ _ => none
  | .debugResume _ => none
  | .grandmasterLockChange _ _ => none
  | .pathLive _ _ _ => none
  | .configurationRequest _ => none
  | .stackBaseDieReset _ _ => none
  | .haltDebugAccess _ _ _ _ _ => none

/-- The word of an instruction, 0 for an event: what EINFO of ILLEGAL and of TEAM_OP reports (R65, R335). -/
def encodeWord (i : Instr) : BitVec 32 := (encode i).getD 0

/-- The instruction this decoder reads from a word of `nbits` bits numbered as spec/opcode_table.json numbers them: the
one word of an instruction, its bytes little-endian in the store (R59). A row of another width does not exist. -/
def decodeTableWord (nbits w : Nat) : Option Instr :=
  if nbits ≤ 32 then decode? (BitVec.ofNat 32 (w % 2 ^ nbits)) else none

end

end Sys2Proof
end

