-- ==== Sys2Proof/Machine/Firmware.lean ====
section
/-!
DEFINITION. Sys2Proof/Machine/Firmware.lean: the firmware's resident handler (R362 to R364, R367, R370). The spec says
what it does and gives no bytes of it: the text below does it (DESIGN CHOICE, unsafe, notes/assumptions/41.md).
-/

namespace Sys2Proof.Machine

/-- A word of format I. -/
def iWord (mj : Nat) (d a : BitVec 5) (i : Int) : BitVec 32 :=
  let x := BitVec.ofInt 16 i
  mkWord mj d a (x.extractLsb' 11 5) (x.extractLsb' 0 11)

/-- A word of format M under `m0`: `vld` or `vst` of the 64 bytes `o` blocks from g[a]. -/
def mWord (mj : Nat) (v a : BitVec 5) (o : Int) : BitVec 32 :=
  let x := BitVec.ofInt 13 o
  mkWord mj v a ((0 : BitVec 3) ++ x.extractLsb' 11 2) (x.extractLsb' 0 11)

/-- The bay (R361). -/
def bayBase : Nat := 0x17C000
/-- Bytes of a bay image (R362). -/
def bayImageLen : Nat := 13312
/-- The save area (R361). -/
def saveArea : Nat := 0x17F400
/-- Bytes of the save area. -/
def saveLen : Nat := 3072

/-- Distance of the save area from the address that `limh` forms. -/
def saveOff (o : Nat) : Int := (o : Int) - 0xC00

/-- `st.d gd` to the save area. -/
def saveG (d : BitVec 5) (o : Nat) : BitVec 32 := iWord 0x17 d 31 (saveOff o)
/-- `ld.d gd` from the save area. -/
def loadG (d : BitVec 5) (o : Nat) : BitVec 32 := iWord 0x10 d 31 (saveOff o)

/-- The control registers of the save area in order (R363). -/
def savedCrs : List Nat :=
  [0x000, 0x001, 0x002, 0x008, 0x009, 0x00A, 0x00B, 0x00C, 0x060, 0x020, 0x021, 0x022, 0x023, 0x025, 0x018, 0x019,
   0x01A, 0x01B, 0x058, 0x028]

/-- The control registers with the offsets of their words. -/
def crSlots : List (Nat × Nat) := savedCrs.zipIdx.map fun (n, i) => (n, 0x140 + 8 * i)

/-- The word of a CTRL form (R72). -/
def ctrlWord (op : Nat) (d a : BitVec 5) (n : BitVec 12) : BitVec 32 :=
  mkWord 0x1D d a (BitVec.ofNat 5 (n.toNat / 128)) (BitVec.ofNat 11 (op * 256 + n.toNat % 128))

/-- `crr gd, n`. -/
def crrWord (d : BitVec 5) (n : Nat) : BitVec 32 := ctrlWord 0 d 0 (BitVec.ofNat 12 n)
/-- `crw n, ga`. -/
def crwWord (a : BitVec 5) (n : Nat) : BitVec 32 := ctrlWord 1 0 a (BitVec.ofNat 12 n)
/-- `halt`. -/
def haltWord : BitVec 32 := mkWord 0x1E 0 0 0 0x100
/-- `eret`. -/
def eretWord : BitVec 32 := mkWord 0x1E 0 0 0 0x40

/-- Five-bit numbers from `lo`, `n` of them. -/
def regsFrom (lo n : Nat) : List (BitVec 5) := (List.range n).map fun i => BitVec.ofNat 5 (lo + i)

/-- The ring copied by a loop over DRSEL. -/
def saveRing : List (BitVec 32) :=
  [iWord 0x02 2 0 0, iWord 0x02 3 31 0, crwWord 2 0x029, crrWord 1 0x02A, iWord 0x17 1 3 (saveOff 0x200),
   iWord 0x02 3 3 8, iWord 0x02 2 2 1, iWord 0x02 1 2 (-64), mkWord 0x18 1 1 31 ((-6 : BitVec 11))]

/-- The whole of R363 written, and a pre-emption halt (R367). -/
def saveWords : List (BitVec 32) :=
  [iWord 0x07 31 0 0x18, saveG 0 0] ++ (regsFrom 1 30).map (fun (i : BitVec 5) => saveG i (8 * i.toNat)) ++
  [crrWord 1 0x025, saveG 1 0xF8] ++
  (regsFrom 0 8).flatMap (fun (i : BitVec 5) => [mkWord 0x22 1 i 0 0xF6, saveG 1 (0x100 + 8 * i.toNat)]) ++
  crSlots.flatMap (fun (x : Nat × Nat) => [crrWord 1 x.1, saveG 1 x.2]) ++ saveRing ++
  (regsFrom 0 32).map (fun (i : BitVec 5) => mWord 0x26 i 31 (-32 + i.toNat)) ++ [haltWord]

/-- The rest of R363 restored, and the return (R370). -/
def restoreWords : List (BitVec 32) :=
  [iWord 0x07 31 0 0x18] ++ crSlots.flatMap (fun (x : Nat × Nat) => [loadG 1 x.2, crwWord 1 x.1]) ++
  (regsFrom 1 7).flatMap (fun (i : BitVec 5) => [loadG 1 (0x100 + 8 * i.toNat), mkWord 0x22 i 1 0 0xF5]) ++
  (regsFrom 0 32).map (fun (i : BitVec 5) => mWord 0x25 i 31 (-32 + i.toNat)) ++
  (regsFrom 1 30).map (fun (i : BitVec 5) => loadG i (8 * i.toNat)) ++ [loadG 31 0xF8, eretWord]

/-- `beqz ga` to the word `n` words on. -/
def beqzWord (a : BitVec 5) (n : Nat) : BitVec 32 :=
  let o := BitVec.ofNat 16 n
  mkWord 0x18 0 a (o.extractLsb' 11 5) (o.extractLsb' 0 11)

/-- The handler: by ECAUSE it saves, restores, or halts. -/
def residentWords : List (BitVec 32) :=
  [crwWord 31 0x025, crrWord 31 0x021, iWord 0x02 31 31 (-0x240), beqzWord 31 5, iWord 0x02 31 31 (-1),
   beqzWord 31 (3 + saveWords.length), crrWord 31 0x025, haltWord] ++ saveWords ++ restoreWords

/-- The resident handler as a bay image. -/
def residentImage : List Byte :=
  residentWords.flatMap fun (w : BitVec 32) => (List.range 4).map fun i => w.extractLsb' (8 * i) 8

/-- A byte of a store whose bay holds the resident handler, by its key, and of which nothing else is said: 0
(R421; notes/assumptions/3.md). -/
def bayByte (k : Nat) : Byte :=
  if bayBase ≤ k % 2 ^ 21 then residentImage.getD (k % 2 ^ 21 - bayBase) 0 else 0

end Sys2Proof.Machine
end

