-- ==== Sys2Proof/Config.lean ====
section
/-!
DEFINITION. Sys2Proof/Config.lean: the values the spec leaves open. Each is a constant with no body, so that nothing
in Lean can evaluate it: a claim about a machine that reads one holds whatever it is. A step applies it to the counter
`tick` of State, which it then advances, or to the identity of an undefined span.
-/

namespace Sys2Proof

/-- A value the spec leaves open between two outcomes, by the counter it is drawn at (R26: old or new word). -/
opaque Config.freeBool : Nat → Bool

/-- A choice the spec leaves open among several, by the counter it is drawn at (R222: which overlapping entry). -/
opaque Config.freeNat : Nat → Nat

/-- The byte an undefined place holds, by the span's identity and the place (R226, R396, R421, R425). -/
opaque Config.freeByte : Nat → Nat → Byte

/-- A word the spec leaves open, by the counter it is drawn at. -/
opaque Config.freeWord : Nat → Word

/-- How much of what an agent has not yet seen a read of it returns, by the counter it is drawn at and the key of the
byte (R233, R237). -/
opaque Config.freeCut : Nat → Nat → Nat

/-- Is the debug token that became a tenant's at the `n`th draw registered for a PID? SETSTATE, which registers it, names
none (R423, R424; notes/assumptions/48.md). -/
opaque Config.tokenPid : Nat → BitVec 16 → Bool

end Sys2Proof
end

