-- ==== Sys2Proof/Machine/State.lean ====
section
/-!
DEFINITION. Sys2Proof/Machine/State.lean: everything the spec gives the part, as plain data, and the state after reset.
The state is a scale-up domain with ONE core in focus (`core`): the core whose stream a step runs. Every other core,
package, station, curator, engine and unit stands in a list keyed by its number, an absent key reading as its reset
value. Registers are bit vectors; keys, counts and addresses under computation are numbers.
-/

namespace Sys2Proof.Machine

/-- Why a step stops. -/
inductive Fault where
  /-- A turn of the schedule names a core that the domain does not have (R143, R383).
  Raised by `step`; safe: the hardware has no such core to move. -/
  | noSuchAgent
deriving DecidableEq, Repr

/-- Why an instruction has no meaning in this model. -/
inductive Refusal where
  /-- The instruction is not modelled yet. Raised by an arm of `exec` only; safe. -/
  | notModelled (mnemonic : String)
deriving DecidableEq, Repr

/-! ## Memory -/

/-- A span of undefined bytes (R226, R396, R421, R425): keys `lo` to `lo + len - 1` read as the free bytes of `id`. The stores
as the firmware leaves them at a package reset are such a span too, whose name is `bootSpan` (R421). -/
structure USpan where
  lo : Nat
  len : Nat
  id : Nat
deriving DecidableEq, Repr

/-- All bytes of the part by key (`Loc.key`): the cells that do not read as 0, keys strictly rising, and the spans
whose bytes the spec leaves undefined, which no cell of the list covers. -/
structure Memory where
  cells : List Host.Cell
  undef : List USpan
deriving DecidableEq, Repr

/-- A span of addresses: the bytes `lo` to `lo + len - 1`. -/
structure Span where
  lo : Nat
  len : Nat
deriving DecidableEq, Repr

/-! ## The order of accesses -/

/-- An agent of the memory model (R229): a thread, the engine operations of a thread, the curator of a stack (numbered
over the domain), the registrars and the host of a package, and what lies beyond the domain. -/
inductive Agent where
  | thread (k : Nat)
  | engine (k : Nat)
  | curator (stack : Nat)
  | registrar (pkg : Nat)
  | host (pkg : Nat)
  | beyond
deriving DecidableEq, Repr

/-- The write events of one access to off-core bytes (R228), numbered in the order of their performing, which is the
coherence order of every byte: the writer, the sequence number of its operation or of its next dispatch, the package
written to, the first key, whether the access is single-copy atomic as a unit (R231), the bytes it overwrote, and for
each byte the releases that an acquire of it reads (R235). -/
structure WEvent where
  id : Nat
  writer : Agent
  seq : BitVec 16
  pkg : Nat
  key : Nat
  unit : Bool
  old : List Byte
  heads : List (List Nat)
deriving DecidableEq, Repr

/-- A word that another agent has written into a thread's local store, as a release (R289, R405). -/
structure LocalWord where
  thread : Nat
  addr : Nat
  bytes : List Byte
deriving DecidableEq, Repr

/-- A release (R234): its agent and scope, the keys of its write (WB of R235) and the events it publishes (R236); the write
of a word of a local store has no keys, and names the word. -/
structure Release where
  id : Nat
  writer : Agent
  scope : Nat
  span : Span
  pub : List Nat
  word : Option LocalWord
deriving DecidableEq, Repr

/-- A `fence.full` (R238): its agent and scope, and what was visible to the agent there. -/
structure FullFence where
  agent : Agent
  scope : Nat
  seen : List Nat
deriving DecidableEq, Repr

/-- The write events so far, newest first, the releases, the full fences in their one order, what each guard's exclusive
releases have published, and its shared ones since the last exclusive grant (R258), and the next number. -/
structure Order where
  events : List WEvent
  rels : List Release
  fulls : List FullFence
  guardX : List (Nat × List Nat)
  guardS : List (Nat × List Nat)
  next : Nat
deriving DecidableEq, Repr

/-- What a thread has of the order: the events visible to it (R236), the releases its reads have read (R238), and the
standing its `fence.rel` and `fence.full` give its later writes, a publication for each scope (R238). -/
structure View where
  seen : List Nat
  caught : List Nat
  standing : List (Nat × List Nat)
deriving DecidableEq, Repr

/-! ## One core -/

/-- The fields of STATUS that are stored (R12); SEQ and GANG are read from the frame and the gang role. -/
structure Status where
  ppriv : Bool
  ckpt : Bool
  preempt : Bool
  rm : BitVec 3
  topx : Bool
  pie : Bool
  ie : Bool
  priv : Bool
deriving DecidableEq, Repr

/-- The register files and the pc (R9). -/
structure Regs where
  g : Vector Word 32
  v : Vector VReg 32
  m : Vector Word 8
  pc : LAddr
deriving DecidableEq, Repr

/-- The control registers (R11). -/
structure Ctl where
  status : Status
  fstat : BitVec 6
  srseed : Word
  fmta : Word
  fmtb : Word
  scla : LAddr
  sclb : LAddr
  cbook : BitVec 4
  pid : BitVec 16
  lslim : LAddr
  vlim : BitVec 6
  blim : BitVec 5
  clim : BitVec 5
  epc : LAddr
  ecause : BitVec 10
  einfo : Word
  eseq : BitVec 16
  evec : LAddr
  escratch : Word
  drnext : BitVec 16
  drsel : BitVec 6
  brect : Vector Word 16
  domain : Vector Word 4
  rxwatch : BitVec 32
  deal : BitVec 24
deriving DecidableEq, Repr

/-- STATE of a ring entry (R30). -/
inductive RingState where
  | empty
  | pending
  | done
  | faulted
  | squashed
deriving DecidableEq, Repr

/-- A slot of the dispatch ring (R30); `untaken` marks a faulted entry whose late fault is still pending (R31), with
the EINFO it will report. -/
structure RingEntry where
  cause : BitVec 8
  state : RingState
  pc : LAddr
  major : BitVec 6
  sub : BitVec 5
  seq : BitVec 16
  einfo : Word
  untaken : Bool
deriving DecidableEq, Repr

/-- The control-register values attached to an operation at dispatch (R110, R13, R333), and what is visible to its
thread there (R237). -/
structure Attach where
  fmta : Word
  fmtb : Word
  scla : LAddr
  sclb : LAddr
  cbook : BitVec 4
  topx : Bool
  rm : BitVec 3
  deal : BitVec 24
  lslim : LAddr
  seen : List Nat
deriving DecidableEq, Repr

/-- How a copy stands towards its time trigger (R283, R330). -/
inductive TrigState where
  | free
  | waiting
  | armed
  | released
deriving DecidableEq, Repr

/-- Which instruction issued a copy (R336, R352). -/
inductive CopyForm where
  | cpy
  | ldtile
  | sttile
  | ldeal
deriving DecidableEq, Repr

/-- A copy request (R283): its words, the path it is counted on with the number of writes counted, and how many of them go
to each package (R263, R286, R409), whether its bytes have moved (the mailbox post is then what it waits for, R289, R290), how many have entered the
stream port, whether it waits for the port to reopen (R295, R313), and the offset and the reason with which a read of
its source beyond the package's memory has failed (R400, R415). -/
structure CopyOp where
  form : CopyForm
  w0 : Word
  w1 : Word
  w2 : Word
  w3 : Word
  trig : TrigState
  path : Nat
  pkg : Nat
  pkgs : List (Nat × Nat)
  counted : Nat
  moved : Bool
  fed : Nat
  portHeld : Bool
  bad : Option (Nat × BitVec 4)
deriving DecidableEq, Repr

/-- The range operations (R269). -/
inductive RangeForm where
  | rload
  | rprobe
  | rsplit
  | rmerge
  | rinv
  | rres
  | rcompact
  | rstat
deriving DecidableEq, Repr

/-- The guard operations (R276). -/
inductive GuardForm where
  | gbind
  | gunbind
  | gacqS
  | gacqX
  | grel
  | gtryS
  | gtryX
  | gflush
  | gstat
deriving DecidableEq, Repr

/-- The kinds of `evcfg` (R344). -/
inductive CfgKind where
  | pop
  | leak
  | eng
deriving DecidableEq, Repr

/-- What a pending operation does. -/
inductive OpBody where
  | copy (r : CopyOp)
  | mma (acc : BitVec 2) (rm : BitVec 2) (unfold stream holdB holdA : Bool) (a b : Nat) (desc : BitVec 512)
      (parked : Bool)
  | mzero (acc : BitVec 2)
  | mlda (acc : BitVec 2) (a : Nat)
  | msta (acc : BitVec 2) (a : Nat)
  | mfmt (acc : BitVec 2) (src : BitVec 2) (rm : BitVec 2) (dst : BitVec 4) (a : Nat)
  | mcbld (a table : Nat)
  | evcfg (kind : CfgKind) (a num : Nat)
  | evpost (w : Word) (target : Option Nat)
  | evsweep (pop : Nat)
  | evread (a first n : Nat)
  | evreadSt (a : Nat)
  | evwrite (a first n : Nat)
  | evdrain (t0 : Option Nat)
  | evdrainPop (pop : Nat)
  | range (form : RangeForm) (va : Word) (block : BitVec 512) (res : Nat) (sent : Bool)
  | guard (form : GuardForm) (num : Nat) (desc : BitVec 512) (status : Option Nat) (sent : Bool)
deriving DecidableEq, Repr

/-- A pending operation of the ring in issue order (R30, R242): the local and off-core spans it reads and writes, the
range entries it holds in use (R216, by BASE), the values attached to it, and whether it has started. -/
structure Op where
  seq : BitVec 16
  started : Bool
  lread : List Span
  lwrite : List Span
  oread : List Span
  owrite : List Span
  uses : List Nat
  att : Attach
  body : OpBody
deriving DecidableEq, Repr

/-- An operand kept in the matrix unit (R307): the bytes and scale bytes as read, the format code, MX, K and the
codebook table. -/
structure OperandBuf where
  data : List Byte
  scales : List Byte
  fmt : BitVec 4
  mx : Bool
  k : Nat
  table : BitVec 2
deriving DecidableEq, Repr

/-- Bytes that one request placed in the stream port (R295), and whether an uncorrectable error stands in them (R379). -/
structure PortSeg where
  seq : BitVec 16
  data : List Byte
  bad : Bool
deriving DecidableEq, Repr

/-- What a core holds in its cluster's matrix unit (R9, R295, R307, R311, R313): `step` is the tile step that has
started, with the result it will write. -/
structure MtxRun where
  seq : BitVec 16
  acc : BitVec 2
  result : Tile
  flags : BitVec 6
  bufA : Option OperandBuf
  bufB : Option OperandBuf
  portBytes : Nat
  reran : Bool
deriving DecidableEq, Repr

/-- The accumulators, shadows, operand buffers and stream port of a core. -/
structure Mtx where
  acc : Vector Tile 4
  shadow : Vector Tile 4
  bufA : Option OperandBuf
  bufB : Option OperandBuf
  port : List PortSeg
  portStopped : Bool
  portFault : Option (BitVec 16)
  run : Option MtxRun
deriving DecidableEq, Repr

/-- An unreleased arrival on a barrier (R152, R158, R188): its ballot, the plan-set digest and the BRECT it carries,
the clk and the pc it was made at, the register its vote writes, and whether its instruction waits for its own release
(R186, R375). -/
structure Arrival where
  ballot : BitVec 8
  reg : BitVec 5
  digest : BitVec 32
  rect : Word
  at_ : Nat
  pc : LAddr
  own : Bool
deriving DecidableEq, Repr

/-- An armed receive entry of an open phase (R196) and the beats of it already decided (R197). -/
structure ArmedRecv where
  slot : Nat
  beats : Nat
  peer : Nat
  dst : Nat
  topx : Bool
  seen : List Nat
deriving DecidableEq, Repr

/-- A `ttsend` that waits for its slot or is sending (R195). -/
structure Sending where
  slot : Nat
  beats : Nat
  peer : Nat
  src : Nat
  nt : Bool
  next : Nat
deriving DecidableEq, Repr

/-- An open communication phase (R154): the release instant, LENGTH and plan, what is armed, sent or used in it, and
the beats written and mismatched. -/
structure Phase where
  t0 : Nat
  length : Nat
  plan : BitVec 3
  armed : List ArmedRecv
  used : List Nat
  sending : Option Sending
  written : Nat
  mismatch : Nat
deriving DecidableEq, Repr

/-- Barriers, plans and the exchange (R152 to R161, R198): `voteRes` keeps the result of a vote that was released
while an interrupt was served, with its address; `relCause` the release-delivered causes still pending (R158). -/
structure Sync where
  arr : Vector (Option Arrival) 16
  phaseBits : BitVec 16
  voteRes : Vector (Option (LAddr × Word)) 16
  plan : BitVec 3
  phase : Option Phase
  report : Word
  phases : BitVec 8
  relCause : List (BitVec 8 × Word)
deriving DecidableEq, Repr

/-- A message (R177): `v` tells a v message from a g message. -/
structure Msg where
  src : Nat
  dst : Nat
  chan : Nat
  v : Bool
  data : BitVec 512
  nt : Bool
  topx : Bool
  pid : BitVec 16
deriving DecidableEq, Repr

/-- The receive queue with its channels, the messages waiting at the interface, those a team holds, and UNDELIV
(R162, R164, R182, R374). -/
structure Msgs where
  queue : List Msg
  iface : List Msg
  held : List Msg
  undeliv : BitVec 32
deriving DecidableEq, Repr

/-- A core's place in a gang (R145): a leader holds its followers by index. -/
inductive Role where
  | alone
  | leader (members : List (Nat × Nat))
  | follower (leader index : Nat)
deriving DecidableEq, Repr

/-- One step of the leader's stream that a follower has still to execute (R146, R147): a word with the leader's next
pc and the gang's size, an `rfrm` with the leader's count, stride word and captured words (R81), the end of the gang, or
its end by `split`, after which a member goes on (R191). -/
inductive GangStep where
  | word (w : BitVec 32) (nextPc : LAddr) (size : Nat)
  | frame (n : BitVec 4) (a b : BitVec 5) (t x : Word) (words : List (BitVec 32))
  | leave
  | split
deriving DecidableEq, Repr

/-- Gang state: role, stream, the address of the word that the core has begun and waits in, the size of the gang as the
leader decoded a follower's word, and the leader a waiting `follow` has asked, with its register. -/
structure Gang where
  role : Role
  stream : List GangStep
  begun : Option LAddr
  size : Nat
  asked : Option (Nat × BitVec 5)
deriving DecidableEq, Repr

/-- A repeat frame (R77, R78): the captured words, the number of replays, the captured executions done, the strides, and
the address of its `rfrm`. -/
structure Frame where
  words : List (BitVec 32)
  total : Nat
  done : Nat
  sd : BitVec 5
  sa : BitVec 5
  sb : BitVec 5
  sc : BitVec 5
  at_ : LAddr
deriving DecidableEq, Repr

/-- A range entry (R208). -/
structure RangeEntry where
  base : Word
  limit : Word
  offset : Word
  e : Bool
  x : Bool
  w : Bool
  rd : Bool
  place : BitVec 2
  hord : Bool
  kind : BitVec 3
  pid : BitVec 16
  resmap : Word
deriving DecidableEq, Repr

/-- The states of an entry of a core's range table (R216); EMPTY is an entry that is not listed. -/
inductive TableState where
  | valid
  | drain
  | moving
deriving DecidableEq, Repr

/-- An entry of a core's range table (R216). -/
structure TableEntry where
  entry : RangeEntry
  state : TableState
deriving DecidableEq, Repr

/-- A core's range table of 32 entries less the bindings held, most recently used entry first (R214, R215), the miss that waits for its station, and the
counts of R272. -/
structure RangeTable where
  entries : List TableEntry
  miss : Option Word
  notFound : Bool
  tmiss : BitVec 32
  cmiss : BitVec 32
  resn : BitVec 32
deriving DecidableEq, Repr

/-- The states of a binding (R249). -/
inductive BindState where
  | bound
  | acquiring (exclusive : Bool)
  | heldS
  | heldX
deriving DecidableEq, Repr

/-- A guard binding (R248). -/
structure Binding where
  guard : Nat
  place : BitVec 2
  regionVa : Nat
  region : Nat
  rplace : BitVec 2
  len : Nat
  window : Nat
  stamps : Nat
  last : BitVec 32
  lep : BitVec 8
  state : BindState
  fresh : Bool
deriving DecidableEq, Repr

/-- The path counters IN, HOST, SO, FAB0 to FAB3 with their failed-write counts (R409), and the writes issued to each
package (R263). -/
structure Paths where
  cnt : Vector (BitVec 32) 7
  failed : Vector (BitVec 32) 7
  perPkg : List (Nat × BitVec 32)
deriving DecidableEq, Repr

/-- An entry of a team member's outbound buffer (R373); a store keeps the scope it releases at, if it
does; a release the sub-blocks whose write bits it has cleared (R251, R276). `place` stands where a `grel` that has yet to
start will enter, in program order. -/
inductive OutOp where
  | stx (va : Word) (n : Nat) (x : Word) (ordered : Bool) (pa : Nat) (place : BitVec 2) (kind : BitVec 3) (hord : Bool)
      (base : Nat) (rel : Option Nat)
  | send (m : Msg)
  | grel (num : Nat) (dirty : List Nat)
  | place (seq : BitVec 16)
deriving DecidableEq, Repr

/-- Team state of a member (R371 to R378); its snapshot stands in `State.snaps`, and `snapBad` marks an uncorrectable error
in it (R378). `committed` are the outbound entries that a commit is performing and that wait, for room in the mesh or for
ordered stores. -/
structure Team where
  logCount : Nat
  logged : List Nat
  recoverable : Bool
  replayed : Bool
  rollback : Bool
  snapBad : Bool
  committed : List OutOp
  outbuf : List OutOp
deriving DecidableEq, Repr

/-- What a running thread has from its launch (R32, R89, R166, R170), or from its loader call (R297). -/
structure LaunchInfo where
  num : Nat
  queue : Nat
  group : Nat
  index : Nat
  row0 : Nat
  col0 : Nat
  grows : Nat
  gcols : Nat
  plans : Nat
  planbase : Nat
  undobase : Nat
  undo : Nat
  weight : Nat
  joinn : Nat
  jointag : Nat
  call : Option (Nat × BitVec 16)
deriving DecidableEq, Repr

/-- A load or atomic whose data has not returned (R260); `so` marks a read of a scale-out endpoint (R415). -/
structure Outstanding where
  d : BitVec 5
  va : Word
  data : Word
  flags : BitVec 6
  reason : Option (BitVec 4)
  answered : Bool
  so : Bool
  since : Nat
  uses : Nat
deriving DecidableEq, Repr

/-- What a core does (R32, R114, R367, R382); `cancelled` is a thread that a host cancellation has stopped (R360). -/
inductive RunState where
  | idle
  | running
  | halted
  | haltDebug
  | preemptHalt
  | endedDone
  | endedFault
  | cancelled
deriving DecidableEq, Repr

/-- What a running core waits for (R382): `task` is another wait at which a pre-emption request is delivered (R203),
`draining` the wait of `halt` and `done` for their ring (R114, R201), `time` that of `waitt` (R350), `event` that of `wfe` (R115). -/
inductive WaitState where
  | no
  | recv (chan since : Nat)
  | barrier (n : Nat)
  | vote (n : Nat) (d : BitVec 5)
  | task
  | draining (halt : Bool)
  | time (value : Word)
  | event
  | other
deriving DecidableEq, Repr

/-- The fields a census entry keeps (R382); `handler` counts the traps entered and not yet returned from. -/
structure Census where
  cause : BitVec 8
  chan : BitVec 4
  wd : Bool
  double : Bool
  bar : BitVec 4
  handler : Nat
deriving DecidableEq, Repr

/-- The fault-status counters of a core (R380); `memfail` counts the failed accesses of R260, for which R380 names no
counter (DESIGN CHOICE, notes/assumptions/15.md). -/
structure FaultCounts where
  lsce : BitVec 32
  lsue : BitVec 32
  accue : BitVec 32
  mtxrerun : BitVec 32
  mtxfail : BitVec 32
  rxwd : BitVec 32
  preempts : BitVec 32
  rollbacks : BitVec 32
  memfail : BitVec 32
deriving DecidableEq, Repr

/-- A loader call waiting at a memory core (R297): the caller, its sequence number and the words it passes. -/
structure LoaderCall where
  caller : Nat
  seq : BitVec 16
  w0 : Word
  w2 : Word
  entry : LAddr
  pid : BitVec 16
  topx : Bool
  rm : BitVec 3
deriving DecidableEq, Repr

/-- One core: a tile core or a memory core, by its address (R20, R143, R296). `image` marks the saved context of a
pre-empted thread, whose bytes stand in its context buffer (R368, R369); `accBad` the accumulators, and
from bit 4 on the shadows, that hold an uncorrectable error, `ringBad` such slots of the dispatch ring (R379). -/
structure Core where
  addr : CoreAddr
  image : Bool
  run : RunState
  regs : Regs
  ctl : Ctl
  ring : Vector RingEntry 64
  ops : List Op
  kept : List Op
  keptTrig : List (BitVec 16 × Word)
  mtx : Mtx
  accBad : BitVec 8
  ringBad : BitVec 64
  sync : Sync
  msgs : Msgs
  mail : List (BitVec 128)
  latch : Bool
  gang : Gang
  frame : Option Frame
  rtab : RangeTable
  binds : Vector (Option Binding) 8
  paths : Paths
  team : Team
  info : LaunchInfo
  wbits : BitVec 3072
  fbuf : Option (LAddr × BitVec 512)
  outst : Option Outstanding
  wait : WaitState
  preempt : Option Bool
  yielded : Bool
  resetAt : Nat
  census : Census
  faults : FaultCounts
  calls : List LoaderCall
  view : View
deriving DecidableEq, Repr

/-! ## What stands around the cores -/

/-- A launch queue (R165, R403). -/
structure LQueue where
  num : Nat
  prio : Nat
  weight : Nat
  conc : Bool
  pid : BitVec 16
  dies : BitVec 8
  cap : Nat
  entries : Nat
  ring : Word
  ctxVa : Word
  ctxSize : Nat
  msix : Nat
  bay : Word
  records : List (BitVec 512)
  seq : BitVec 32
  served : Nat
deriving DecidableEq, Repr

/-- A predecessor counter and its owner (R171), with what the `done` and `signal` that decremented it published to the
launch they ready (R234). -/
structure PredCounter where
  idx : Nat
  value : BitVec 16
  owner : BitVec 16
  pub : List Nat
deriving DecidableEq, Repr

/-- A group of a launch (R170); `started` once its cores run. -/
structure Group where
  idx : Nat
  die : Nat
  row : Nat
  col : Nat
  started : Bool
deriving DecidableEq, Repr

/-- How a launch stands (R172, R365). -/
inductive LaunchState where
  | running
  | preempting
  | preempted
deriving DecidableEq, Repr

/-- A launch that runs (R166 to R172): its record, its header, its barrier table, the bytes that each of its cores is
given at local addresses, its placed groups and the status it will report if it was refused; `pub` is what the `done` and
`signal` that readied it had published when it was admitted (R202, R234). -/
structure Launch where
  num : Nat
  queue : Nat
  record : BitVec 512
  header : BitVec 512
  bars : List Word
  load : List (Nat × List Byte)
  groups : List Group
  state : LaunchState
  status : BitVec 8
  cancelled : Bool
  pub : List Nat
deriving DecidableEq, Repr

/-- A command slot (R402): the descriptor as written, and the one taken when the doorbell was rung. -/
structure CmdSlot where
  desc : BitVec 512
  taken : BitVec 512
  host : Bool
  busy : Bool
  pid : BitVec 16
  done : BitVec 16
  result : BitVec 8
deriving DecidableEq, Repr

/-- An entry of the host memory window (R399). -/
structure HostEntry where
  num : Nat
  base : Nat
  limit : Nat
  offset : Word
  rd : Bool
  w : Bool
  place : BitVec 2
  hord : Bool
deriving DecidableEq, Repr

/-- A host posted write that waits for its turn, with the service core that performs it (R241). -/
structure HostWrite where
  pkg : Nat
  svc : Nat
  hord : Bool
  place : BitVec 2
  dpa : Nat
  data : List Byte
deriving DecidableEq, Repr

/-- A scale-out slot (R415). -/
structure SoSlot where
  num : Nat
  service : BitVec 2
  ports : BitVec 8
  endpoint : BitVec 128
  job : BitVec 24
  remote : Word
  key : Word
deriving DecidableEq, Repr

/-- Security (R424). -/
inductive Security where
  | opened
  | sealed
  | attested
deriving DecidableEq, Repr

/-- Debug (R424). -/
inductive Debug where
  | off
  | trace
  | halt
deriving DecidableEq, Repr

/-- A record that `brk` writes to the firmware's trace ring (R424): `regs` under sealed, for the token's PID only. -/
structure TraceRec where
  pc : LAddr
  code : BitVec 11
  core : CoreAddr
  regs : Option (Vector Word 32)
deriving DecidableEq, Repr

/-- Power (R424, R425). -/
inductive Power where
  | run
  | idle
  | clusterOff
  | dieRetention
  | packageSleep
deriving DecidableEq, Repr

/-- A physical resource of a package: a core of a die by physical row and column, one of the 33 matrix units of a die, the
event engine of a physical cluster, one of the 17 channels of a stack, a die, a stack, a gateway die (R391 to R394). -/
inductive Resource where
  | core (die row col : Nat)
  | unit (die n : Nat)
  | engine (die n : Nat)
  | channel (stack n : Nat)
  | die (d : Nat)
  | stack (s : Nat)
  | gateway (g : Nat)
deriving DecidableEq, Repr

/-- The package's own state: what it reports (R394, R428), the resets under way, the registrar's queues and launches, the windows, the
clock record (R328), the security, debug and power state (R423 to R426), the time in ns at which its bring-up ends
(R421) and the counters of R380 that no core or engine keeps; `dieQuiet` marks the dies on which no core has run a thread since their reset (R396), `failed` are the resources that have failed, `repaired` those of
them that the repair assignments take account of (R391 to R394). -/
structure Package where
  failed : List Resource
  repaired : List Resource
  rows : Vector (BitVec 5) 8
  diePresent : BitVec 8
  dieReset : BitVec 8
  dieQuiet : BitVec 8
  channels : Vector (BitVec 5) 16
  stackPresent : BitVec 16
  gateways : BitVec 4
  gwReset : BitVec 4
  lanes : List (Nat × Nat)
  paths : List (Nat × BitVec 4)
  queues : List LQueue
  dropped : List (Nat × BitVec 16)
  counters : List PredCounter
  zeroDec : BitVec 32
  launches : List Launch
  nextNum : BitVec 16
  slots : Vector CmdSlot 16
  hwbase : Word
  hostTab : List HostEntry
  hostFail : BitVec 32
  soSlots : List SoSlot
  msix : List Nat
  sync : Bool
  back : Bool
  steps : BitVec 16
  mag : BitVec 32
  clockOff : BitVec 64
  security : Security
  debug : Debug
  power : Power
  offMask : BitVec 256
  retMask : BitVec 8
  token : BitVec 128
  tokenReg : Nat
  digest : BitVec 256
  throttle : Nat
  trace : List TraceRec
  dbgData : BitVec 512
  hostData : List Byte
  cfgRetry : Bool
  upAt : Nat
  symce : List (Nat × BitVec 32)
  symue : List (Nat × BitVec 32)
  crcReplay : List (Nat × BitVec 32)
  laneSpare : List (Nat × BitVec 32)
deriving DecidableEq, Repr

/-- The states of a catalogue entry (R217). -/
inductive CatState where
  | present
  | changing
  | moving
deriving DecidableEq, Repr

/-- An entry of a station's catalogue with its holders, by core address (R214). -/
structure CatEntry where
  entry : RangeEntry
  state : CatState
  holders : List Nat
deriving DecidableEq, Repr

/-- Where a range operation stands at its coordinator (R222, R225, R226). -/
inductive RopPhase where
  | notices
  | copied
deriving DecidableEq, Repr

/-- A range operation at its coordinator (R222): `coord` is the die of the coordinating station, `asked` are the stations
the notice has reached, `owed` the acknowledgements still owed by holders, by station and core, and `was` the RESMAP that
each station's copy had before a residency-set notice. -/
structure RangeOp where
  core : Nat
  seq : BitVec 16
  pkg : Nat
  pid : BitVec 16
  form : RangeForm
  setOnly : Bool
  bases : List Word
  news : List RangeEntry
  old : RangeEntry
  coord : Nat
  was : List (Nat × Word)
  asked : List Nat
  owed : List (Nat × Nat)
  resetAck : Nat
  phase : RopPhase
  res : Nat
deriving DecidableEq, Repr

/-- How a curator is asked (R253). -/
inductive ReqKind where
  | shared
  | exclusive
  | flush
deriving DecidableEq, Repr

/-- A request at a curator (R252, R253). -/
structure GuardReq where
  core : Nat
  num : Nat
  seq : BitVec 16
  kind : ReqKind
  last : BitVec 32
  lep : BitVec 8
deriving DecidableEq, Repr

/-- The state of an active guard at its curator (R253). -/
inductive CurState where
  | idle
  | shared (n : Nat)
  | excl
deriving DecidableEq, Repr

/-- An active guard at its curator (R245, R253, R255, R257): `steps` are the causes of its epoch steps, newest first, a
loss step as `true`, a renumbering as `false`; `lastX` is the last exclusive holder's thread and binding number. -/
structure Guard where
  dpa : Nat
  place : BitVec 2
  rplace : BitVec 2
  region : Nat
  len : Nat
  hstamp : Nat
  relcnt : BitVec 32
  hcnt : BitVec 32
  epoch : BitVec 8
  steps : List Bool
  state : CurState
  queue : List GuardReq
  lastX : Option (Nat × Nat)
  bindings : List (Nat × Nat)
  holders : List (Nat × Nat)
deriving DecidableEq, Repr

/-- What travels between cores and curators (R250 to R258); `gk` names the guard by its placement and DPA. -/
inductive GuardMsg where
  | request (gk : Nat) (r : GuardReq) (try_ : Bool)
  | forward (gk : Nat) (r : GuardReq) (supplier : Option (Nat × Nat))
  | grant (gk : Nat) (r : GuardReq) (relcnt : BitVec 32) (epoch : BitVec 8) (lost renum : Bool)
  | release (gk core num : Nat) (seq : Option (BitVec 16)) (abort : Bool)
  | unbind (gk core num : Nat) (seq : BitVec 16)
  | writeBack (gk core num : Nat) (seq : BitVec 16) (unbind : Bool)
deriving DecidableEq, Repr

/-- The weighted round robin of a matrix unit (R299). -/
structure MtxUnit where
  pos : Nat
  left : Nat
deriving DecidableEq, Repr

/-- A resolved event in an engine's queue (R318, R319, R320); the clk at which it entered, the key of its sender and the
count of events before it make its arrival number. -/
structure QEvent where
  t : Nat
  clk : Nat
  key : Nat
  arr : Nat
  w : Word
deriving DecidableEq, Repr

/-- The action of a time trigger (R330). -/
inductive TrigAct where
  | release (core : Nat) (seq : BitVec 16)
  | post (w : Word) (core : Nat)
deriving DecidableEq, Repr

/-- An armed time trigger, in order of arming (R330). -/
structure Trigger where
  value : Word
  act : TrigAct
deriving DecidableEq, Repr

/-- An event engine (R315 to R325); its bank, leak tables and descriptors stand in memory. `owners` are (population, core,
launch); `arr` counts the events that entered; `waiting` are the
trigger events at a full queue, resolved, with their senders' keys (R330); `pos` the position whose core is served next (R344). -/
structure Engine where
  tickns : Nat
  owners : List (Nat × Nat × Nat)
  queue : List QEvent
  arr : Nat
  waiting : List (Nat × Nat × Word)
  pos : Nat
  deliv : BitVec 32
  refdrop : BitVec 32
  late : BitVec 32
  overflow : BitVec 32
  reject : BitVec 32
  fanlost : BitVec 32
  fired : BitVec 32
  reclost : BitVec 32
  bankue : BitVec 32
  flags : BitVec 5
deriving DecidableEq, Repr

/-- An event travelling to an engine (R324, R346): already resolved when an engine sent it. -/
structure EvMsg where
  src : Nat
  engine : Option Nat
  target : Nat
  w : Word
  t : Option Nat
deriving DecidableEq, Repr

/-- What posts a mailbox record (R290): a copy, or an engine on firing. -/
inductive PostSrc where
  | copy (core : Nat) (seq : BitVec 16)
  | engine (eng : Nat)
deriving DecidableEq, Repr

/-- A mailbox post that has not entered its mailbox yet (R290). -/
structure Post where
  target : Nat
  record : BitVec 128
  src : PostSrc
deriving DecidableEq, Repr

/-- A beat on the crossbar (R159, R386, R413). -/
structure Beat where
  src : Nat
  dst : Nat
  sent : Nat
  data : BitVec 512
  topx : Bool
  nt : Bool
deriving DecidableEq, Repr

/-- Posted writes of one instruction that have been sent and not acknowledged (R239, R260, R409): how many, the path
they are counted on, the package they go to, whether they failed, and the range entry held in use. -/
structure Posted where
  core : Nat
  n : Nat
  path : Nat
  pkg : Nat
  failed : Bool
  uses : Option Nat
deriving DecidableEq, Repr

/-- An ordered store on its way to its ordering point or held there since a clk, with the count it carries (R240, R263,
R410), its address, the kind of
its range, whether that has HORD, and its scope; `mark` and `bound` are the next dispatch and the next event when it was issued, `standing` what
the thread's earlier fences gave it (R238). -/
structure OrdStore where
  core : Nat
  path : Nat
  pkg : Nat
  place : BitVec 2
  dpa : Nat
  n : Nat
  data : Word
  carried : BitVec 32
  since : Option Nat
  uses : Option Nat
  va : Word
  kind : BitVec 3
  hord : Bool
  scope : Nat
  mark : BitVec 16
  bound : Nat
  standing : List (Nat × List Nat)
deriving DecidableEq, Repr

/-- What goes wrong: an uncorrectable error of storage (R379) in bytes by key, in an accumulator, a shadow, a slot of the
dispatch ring, the stream port, the first message of a core's receive queue, the first record of its mailbox, an event of
an engine's queue, or a team member's snapshot (R378); a correctable one, put right at once, in a core's storage or in a
stack; a read beyond the domain, of a load or of a copy at an offset of its source, that ends with a reason (R400, R415);
or a resource that fails (R393). -/
inductive Upset where
  | bytes (key len : Nat)
  | acc (c n : Nat)
  | shadow (c n : Nat)
  | ring (c slot : Nat)
  | port (c : Nat)
  | message (c : Nat)
  | record (c : Nat)
  | event (eng i : Nat)
  | snapshot (c : Nat)
  | corrected (c : Nat)
  | symbol (pkg stack : Nat)
  | load (c reason : Nat)
  | copy (c seq off reason : Nat)
  | failure (pkg : Nat) (r : Resource)
deriving DecidableEq, Repr

/-- Who moves next: a core runs its next step, an event comes about, time passes (clk and nanoseconds), or an error of
storage arises. -/
inductive Turn where
  | core (c : Nat)
  | event (i : Instr)
  | pass (clk ns : Nat)
  | upset (u : Upset)
deriving DecidableEq, Repr

/-- The whole state: the core in focus, the others, the contexts of pre-empted threads, the snapshots of team members,
the contexts of ended threads whose core another launch has taken while theirs still runs (R201), the core whose copy
queue each cluster's engine served last (R291), what stands around them, the clocks, the counter the free values
are drawn at, and the schedule, which is data of the model and no state of the hardware. -/
structure State where
  core : Core
  others : List (Nat × Core)
  saved : List (Nat × Core)
  snaps : List (Nat × Core)
  ended : List (Nat × Core)
  mem : Memory
  poison : List Span
  clk : Nat
  ns : Nat
  tick : Nat
  sched : List Turn
  pkgs : List (Nat × Package)
  stations : List (Nat × List CatEntry)
  rops : List RangeOp
  curators : List (Nat × Guard)
  gmsgs : List GuardMsg
  units : List (Nat × MtxUnit)
  engines : List (Nat × Engine)
  triggers : List (Nat × List Trigger)
  mesh : List Msg
  evnet : List EvMsg
  posts : List Post
  beats : List Beat
  follows : List (Nat × Nat)
  posted : List Posted
  ordered : List OrdStore
  hostWrites : List HostWrite
  order : Order
  copyPos : List (Nat × Nat)
deriving DecidableEq, Repr

/-! ## After reset -/

/-- STATUS after reset: every field 0 (R12). -/
def Status.reset : Status :=
  { ppriv := false, ckpt := false, preempt := false, rm := 0, topx := false, pie := false, ie := false, priv := false }

/-- An empty ring slot (R30). -/
def RingEntry.reset : RingEntry :=
  { cause := 0, state := .empty, pc := 0, major := 0, sub := 0, seq := 0, einfo := 0, untaken := false }

/-- The register files of a core that has left reset. The spec gives no value before a launch:
DESIGN CHOICE, unsafe, notes/assumptions/1.md. -/
def Regs.reset : Regs :=
  { g := Vector.replicate 32 0, v := Vector.replicate 32 0, m := Vector.replicate 8 0, pc := 0 }

/-- The control registers of a core that has left reset: the reset columns of R12 to R19, R27, R148, R149, R293 and
R381; the limit registers, which have none, at their widest legal values (DESIGN CHOICE, unsafe,
notes/assumptions/2.md), and SRSEED and PID 0 (notes/assumptions/1.md). -/
def Ctl.reset : Ctl :=
  { status := Status.reset, fstat := 0, srseed := 0, fmta := 0, fmtb := 0, scla := 0, sclb := 0, cbook := 0, pid := 0,
    lslim := 0x17C000, vlim := 32, blim := 16, clim := 16, epc := 0, ecause := 0, einfo := 0, eseq := 0,
    evec := 0x17C000, escratch := 0, drnext := 0, drsel := 0, brect := Vector.replicate 16 0,
    domain := Vector.replicate 4 0, rxwatch := 0x1000000, deal := 0 }

/-- What a core holds in the matrix unit after reset: tiles zero (notes/assumptions/1.md), buffers and port empty. -/
def Mtx.reset : Mtx :=
  { acc := Vector.replicate 4 0, shadow := Vector.replicate 4 0, bufA := none, bufB := none, port := [],
    portStopped := false, portFault := none, run := none }

/-- No arrival, no phase, plan 0, report zero (R152, R155, R198). -/
def Sync.reset : Sync :=
  { arr := Vector.replicate 16 none, phaseBits := 0, voteRes := Vector.replicate 16 none, plan := 0, phase := none,
    report := 0, phases := 0, relCause := [] }

/-- Empty channels (R32). -/
def Msgs.reset : Msgs := { queue := [], iface := [], held := [], undeliv := 0 }

/-- Alone (R145). -/
def Gang.reset : Gang := { role := .alone, stream := [], begun := none, size := 1, asked := none }

/-- An empty range table (R215). -/
def RangeTable.reset : RangeTable :=
  { entries := [], miss := none, notFound := false, tmiss := 0, cmiss := 0, resn := 0 }

/-- Path counters and counts zero (R418). -/
def Paths.reset : Paths := { cnt := Vector.replicate 7 0, failed := Vector.replicate 7 0, perPkg := [] }

/-- Checkpoint 0: an empty log and an empty outbound buffer (R371). -/
def Team.reset : Team :=
  { logCount := 0, logged := [], recoverable := true, replayed := false, rollback := false, snapBad := false, committed := [],
    outbuf := [] }

/-- No launch. -/
def LaunchInfo.reset : LaunchInfo :=
  { num := 0, queue := 0, group := 0, index := 0, row0 := 0, col0 := 0, grows := 1, gcols := 1, plans := 0,
    planbase := 0, undobase := 0, undo := 0, weight := 1, joinn := 0, jointag := 0, call := none }

/-- An empty census entry (R382). -/
def Census.reset : Census :=
  { cause := 0, chan := 0, wd := false, double := false, bar := 0, handler := 0 }

/-- Counters of R380 at zero. -/
def FaultCounts.reset : FaultCounts :=
  { lsce := 0, lsue := 0, accue := 0, mtxrerun := 0, mtxfail := 0, rxwd := 0, preempts := 0, rollbacks := 0, memfail := 0 }

/-- Nothing visible but the initial contents (R228, R236). -/
def View.reset : View := { seen := [], caught := [], standing := [] }

/-- No write yet (R228). -/
def Order.reset : Order := { events := [], rels := [], fulls := [], guardX := [], guardS := [], next := 0 }

/-- A core that has left reset: idle, fetching nothing (R32). -/
def Core.idle (addr : CoreAddr) : Core :=
  { addr := addr, image := false, run := .idle, regs := Regs.reset, ctl := Ctl.reset, ring := Vector.replicate 64 RingEntry.reset,
    ops := [], kept := [], keptTrig := [], mtx := Mtx.reset, accBad := 0, ringBad := 0, sync := Sync.reset, msgs := Msgs.reset, mail := [],
    latch := false, gang := Gang.reset, frame := none, rtab := RangeTable.reset, binds := Vector.replicate 8 none,
    paths := Paths.reset, team := Team.reset, info := LaunchInfo.reset, wbits := 0, fbuf := none, outst := none,
    wait := .no, preempt := none, yielded := false, resetAt := 0, census := Census.reset,
    faults := FaultCounts.reset, calls := [], view := View.reset }

/-- An unused command slot (R402). -/
def CmdSlot.reset : CmdSlot := { desc := 0, taken := 0, host := false, busy := false, pid := 0, done := 0, result := 0 }

/-- A complete part after package reset (R421): open, debug off, power run, no queue, HWBASE 0 (R400). That every
logical resource is present and every path live is a DESIGN CHOICE, notes/assumptions/4.md. -/
def Package.reset : Package :=
  { failed := [], repaired := [], rows := Vector.replicate 8 16, diePresent := 0xFF, dieReset := 0, dieQuiet := 0, channels := Vector.replicate 16 16,
    stackPresent := 0xFFFF, gateways := 0xF, gwReset := 0, lanes := [], paths := [], queues := [], dropped := [], counters := [], zeroDec := 0,
    launches := [], nextNum := 1, slots := Vector.replicate 16 CmdSlot.reset, hwbase := 0, hostTab := [],
    hostFail := 0, soSlots := [], msix := [], sync := false, back := false, steps := 0, mag := 0, clockOff := 0,
    security := .opened, debug := .off, power := .run, offMask := 0, retMask := 0, token := 0, tokenReg := 0, digest := 0,
    throttle := 0, trace := [], dbgData := 0, hostData := [], cfgRetry := false, upAt := 0,
    symce := [], symue := [], crcReplay := [], laneSpare := [] }

/-- An engine after package reset: TICKNS 1, everything else zero (R316, R421). -/
def Engine.reset : Engine :=
  { tickns := 1, owners := [], queue := [], arr := 0, waiting := [], pos := 0, deliv := 0, refdrop := 0, late := 0,
    overflow := 0, reject := 0, fanlost := 0, fired := 0, reclost := 0, bankue := 0, flags := 0 }

/-- The name of the spans that are undefined at reset: no tick is as large. -/
def resetSpan : Nat := 2 ^ 64

/-- The name of the span of the stores after a package reset: every bay holds the firmware's resident handler (R421), and
every other byte, of which the spec says nothing, is 0 (notes/assumptions/3.md). -/
def bootSpan : Nat := 2 ^ 65

/-- Memory with nothing listed. The bytes of stacked memory are undefined (R421), and so are those of the hosts' memory and
of what lies beyond the domain, which no reset of this part touches (R400, R415): keys `keyOff`, `keyHost` and
`keyScaleOut` of Memory.lean. -/
def Memory.reset : Memory :=
  { cells := []
    undef := [{ lo := 0, len := 2 ^ 44, id := bootSpan }, { lo := 2 ^ 90, len := 3 * 2 ^ 52, id := resetSpan },
      { lo := 2 * 2 ^ 90, len := 2 ^ 75, id := resetSpan }, { lo := 2 ^ 200, len := 2 ^ 193, id := resetSpan }] }

/-- The domain right after a package reset (R421): every core idle, nothing in flight. The core in focus is tile core
0 of die 0 of package 0 (notes/assumptions/4.md), and the schedule is empty (notes/assumptions/6.md). -/
def State.reset : State :=
  { core := Core.idle 0, others := [], saved := [], snaps := [], ended := [], mem := Memory.reset, poison := [], clk := 0, ns := 0,
    tick := 0, sched := [], pkgs := [], stations := [], rops := [], curators := [], gmsgs := [], units := [],
    engines := [], triggers := [], mesh := [], evnet := [], posts := [], beats := [], follows := [], posted := [],
    ordered := [], hostWrites := [], order := Order.reset, copyPos := [] }

end Sys2Proof.Machine
end

