-- ==== Sys2Proof/Machine/Memory.lean ====
section
/-!
DEFINITION. Sys2Proof/Machine/Memory.lean: the bytes of the part. Every byte the spec names has one key; memory is the
list of the cells whose byte is not what an unlisted key reads as (0, notes/assumptions/3.md), keys strictly rising,
beside the spans whose bytes are undefined or stand as the firmware leaves them. Multi-byte values are little-endian (R5), here alone.
-/

namespace Sys2Proof.Machine

/-! ## Keys: one for every byte of the part -/

/-- The byte at local address `a` of core `c` (R24, R228). -/
def keyLocal (c a : Nat) : Nat := c * 2 ^ 21 + a

/-- The off-core byte named by (PLACE, DPA) (R220, R228). -/
def keyOff (place dpa : Nat) : Nat := 2 ^ 90 + place * 2 ^ 52 + dpa

/-- The byte of package `pkg`'s host memory at a host bus address (R400). -/
def keyHost (pkg a : Nat) : Nat := 2 * 2 ^ 90 + pkg * 2 ^ 64 + a

/-- Byte `off` of engine `eng`'s bank (R315). -/
def keyBank (eng off : Nat) : Nat := 3 * 2 ^ 90 + eng * 2 ^ 20 + off

/-- Byte `off` of engine `eng`'s leak tables, 1 KiB each (R316). -/
def keyLeak (eng off : Nat) : Nat := 4 * 2 ^ 90 + eng * 2 ^ 13 + off

/-- Byte `off` of engine `eng`'s population descriptors, 32 bytes each (R317). -/
def keyPop (eng off : Nat) : Nat := 5 * 2 ^ 90 + eng * 2 ^ 9 + off

/-- Byte `off` of a cluster's codebook tables, 2 KiB each (R53, R310). -/
def keyBook (eng off : Nat) : Nat := 6 * 2 ^ 90 + eng * 2 ^ 13 + off

/-- The byte at local address `a` of the saved image of core `c` (R368, R369). -/
def keyImage (c a : Nat) : Nat := 7 * 2 ^ 90 + c * 2 ^ 21 + a

/-- Byte `off` of the copy of a guard's region that a thread's binding held at its last exclusive release (R252). -/
def keyCopy (thread num off : Nat) : Nat := 8 * 2 ^ 90 + (thread * 8 + num) * 2 ^ 21 + off

/-- Byte `off` of an active guard's region as home supplies it: what only write-backs change (R254). -/
def keyHome (gk off : Nat) : Nat := 9 * 2 ^ 90 + gk * 2 ^ 20 + off

/-- The byte at address `a` of a scale-out endpoint (R415). -/
def keyScaleOut (endpoint a : Nat) : Nat := 2 ^ 200 + endpoint * 2 ^ 64 + a

/-! ## Cells -/

/-- What an unlisted key reads as (notes/assumptions/3.md, DESIGN CHOICE, unsafe). -/
def unlisted : Byte := 0

/-- The byte that a list of cells holds at a key. -/
def cellsRead : List Host.Cell → Nat → Byte
  | [], _ => unlisted
  | (a, b) :: r, k => if a < k then cellsRead r k else if a = k then b else unlisted

/-- The cells below a key. -/
def cellsBelow : List Host.Cell → Nat → List Host.Cell
  | [], _ => []
  | (a, b) :: r, k => if a < k then (a, b) :: cellsBelow r k else []

/-- The cells at or above a key. -/
def cellsFrom : List Host.Cell → Nat → List Host.Cell
  | [], _ => []
  | (a, b) :: r, k => if a < k then cellsFrom r k else (a, b) :: r

/-- The cells that bytes laid from a key up need: none for a byte equal to what an unlisted key reads as. -/
def cellsOf : Nat → List Byte → List Host.Cell
  | _, [] => []
  | k, x :: xs => if x = unlisted then cellsOf (k + 1) xs else (k, x) :: cellsOf (k + 1) xs

/-- Bytes written from a key up. -/
def cellsWrite (l : List Host.Cell) (k : Nat) (xs : List Byte) : List Host.Cell :=
  cellsBelow l k ++ cellsOf k xs ++ cellsFrom l (k + xs.length)

/-- Every key of the list is at or above `lo`, the keys strictly rise, and no byte equals the unlisted one. -/
def cellsWf : Nat → List Host.Cell → Bool
  | _, [] => true
  | lo, (a, b) :: r => decide (lo ≤ a) && b != unlisted && cellsWf (a + 1) r

/-! ## Undefined spans -/

/-- A byte of the span of a name: a free byte, or what the firmware leaves in the stores at a package reset (R421). -/
def spanByte (id k : Nat) : Byte := if id = bootSpan then bayByte k else Config.freeByte id k

/-- A byte of a span. -/
def USpan.byte (u : USpan) (k : Nat) : Byte := spanByte u.id k

/-- Does the span cover the key? -/
def USpan.covers (u : USpan) (k : Nat) : Bool := decide (u.lo ≤ k) && decide (k < u.lo + u.len)

/-- A span without the keys `lo` to `lo + n - 1`: what is left below and above. -/
def USpan.carve (u : USpan) (lo n : Nat) : List USpan :=
  let below : List USpan := if u.lo < lo then [{ u with len := min u.len (lo - u.lo) }] else []
  let above : List USpan :=
    if lo + n < u.lo + u.len then
      [({ lo := max u.lo (lo + n), len := u.lo + u.len - max u.lo (lo + n), id := u.id } : USpan)]
    else []
  if lo + n ≤ u.lo ∨ u.lo + u.len ≤ lo then [u] else below ++ above

/-- All spans without some keys. -/
def carveAll (us : List USpan) (lo n : Nat) : List USpan := us.flatMap (·.carve lo n)

/-! ## Memory -/

/-- The canonical form of memory: keys strictly rising, no cell equal to what an unlisted key reads as. -/
def Memory.wf (m : Memory) : Bool := cellsWf 0 m.cells

/-- The byte at a key: that of the span that covers it, else what the cells hold. -/
def Memory.byte (m : Memory) (k : Nat) : Byte :=
  match m.undef.find? (·.covers k) with
  | some u => u.byte k
  | none => cellsRead m.cells k

/-- Bytes written from a key up; a written byte is no longer undefined. -/
def Memory.writeBytes (m : Memory) (k : Nat) (xs : List Byte) : Memory :=
  { cells := cellsWrite m.cells k xs, undef := carveAll m.undef k xs.length }

/-- The `n` bytes from a key up. -/
def Memory.bytes (m : Memory) : Nat → Nat → List Byte
  | _, 0 => []
  | k, n + 1 => m.byte k :: m.bytes (k + 1) n

/-- Bytes as a little-endian number (R5). -/
def leNat : List Byte → Nat
  | [] => 0
  | x :: xs => x.toNat + 256 * leNat xs

/-- The low `n` bytes of a number, little-endian (R5). -/
def natLe : Nat → Nat → List Byte
  | 0, _ => []
  | n + 1, x => BitVec.ofNat 8 x :: natLe n (x / 256)

/-- The little-endian number in the `n` bytes from a key up. -/
def Memory.read (m : Memory) (k n : Nat) : Nat := leNat (m.bytes k n)

/-- The low `n` bytes of a number written from a key up. -/
def Memory.write (m : Memory) (k n x : Nat) : Memory := m.writeBytes k (natLe n x)

/-- The `n` bytes from a key up become undefined, as the span `id`: their cells go, so that the form stays. -/
def Memory.undefine (m : Memory) (k n id : Nat) : Memory :=
  { cells := cellsBelow m.cells k ++ cellsFrom m.cells (k + n),
    undef := carveAll m.undef k n ++ [{ lo := k, len := n, id := id }] }

/-- The `n` bytes from a key up become zero, without laying them out one by one. -/
def Memory.zero (m : Memory) (k n : Nat) : Memory :=
  { cells := cellsBelow m.cells k ++ cellsFrom m.cells (k + n), undef := carveAll m.undef k n }

/-- The cells from `k` to `k + n - 1`, as bytes at their distance from `k`. -/
def cellsWithin : List Host.Cell → Nat → Nat → List Host.Cell
  | [], _, _ => []
  | (a, b) :: r, k, n =>
    if a < k then cellsWithin r k n else if a < k + n then (a - k, b) :: cellsWithin r k n else []

/-- Each listed byte written at its distance from a key. -/
def Memory.writeCells (m : Memory) (k : Nat) : List Host.Cell → Memory
  | [] => m
  | (d, b) :: r => (m.writeBytes (k + d) [b]).writeCells k r

/-- The `n` bytes from `src` up of a memory `m0` copied to `dst` up: the target is zeroed and the source's listed bytes
laid there. An undefined byte of the source is undefined at the target. -/
def Memory.copyFrom (m m0 : Memory) (src dst n : Nat) : Memory :=
  let cs := cellsWithin m0.cells src n
  let us := m0.undef.filterMap fun (u : USpan) =>
    let lo := max u.lo src
    if u.lo + u.len ≤ src ∨ src + n ≤ u.lo then none
    else some ({ lo := lo - src + dst, len := min (u.lo + u.len) (src + n) - lo, id := u.id } : USpan)
  let m1 := (m.zero dst n).writeCells dst cs
  us.foldl (fun m u => m.undefine u.lo u.len u.id) m1

/-- The `n` bytes from `src` up copied to `dst` up. -/
def Memory.copy (m : Memory) (src dst n : Nat) : Memory := m.copyFrom m src dst n

end Sys2Proof.Machine
end

