-- ==== Sys2Proof/Machine/Repair.lean ====
section
/-!
DEFINITION. Sys2Proof/Machine/Repair.lean: where the bytes of stacked memory lie (R206, R207, R219, R221), the spares of a
package and what it reports once they run out (R391 to R394). The maps read the failures that the repair assignments take account of, in the order in which they came.
-/

namespace Sys2Proof.Machine

/-! ## Stacked memory -/

/-- The package of a DPA (R206). -/
def dpaPkg (pa : Nat) : Nat := pa / 2 ^ 41 % 2 ^ 11

/-- The package-local address of a DPA. -/
def dpaLocal (pa : Nat) : Nat := pa % 2 ^ 41

/-- Stacked memory ends here in the package-local space (R207). -/
def stackedSize : Nat := 0xC000000000

/-- A home window (R207). -/
def homeWindow : Nat := 0xC00000000

/-- Is a stack present (R394)? -/
def Package.hasStack (p : Package) (k : Nat) : Bool := p.stackPresent.getLsbD k

/-! ## Placement (R219, R221) -/

/-- The live stacks of a package in increasing order. -/
def Package.liveStacks (p : Package) : List Nat := (List.range 16).filter (p.hasStack ·)

/-- The live (stack, channel) targets of a package in increasing order. -/
def Package.targets (p : Package) : List (Nat × Nat) :=
  p.liveStacks.flatMap fun k => (List.range (p.channels.toList.getD k 0).toNat).map fun ch => (k, ch)

/-- Entry `i` of the deal table that a list of live targets fills (R219, R221): target i mod L for every count L that is less
than the whole, of which R221 says so for an L that is no power of two (DESIGN CHOICE, notes/assumptions/66.md). -/
def dealt {α : Type} (l : List α) (i : Nat) (d : α) : α := l.getD (i % l.length) d

/-- The fine-hash index of a granule (R219). -/
def hashIndex (g : Nat) : Nat := (g % 2 ^ 12) ^^^ (g / 2 ^ 12 % 2 ^ 12) ^^^ (g / 2 ^ 24 % 2 ^ 8)

/-- The stack and channel that hold the byte at a package-local address under a placement (R219, R221). -/
def Package.placeOf (p : Package) (place : BitVec 2) (m : Nat) : Nat × Nat :=
  let g := m / 256
  let chan := fun (k : Nat) => g % 4096 % max 1 (p.channels.toList.getD k 0).toNat
  if place = 0 then (m / homeWindow, chan (m / homeWindow))
  else if place = 1 then
    let k := dealt p.liveStacks (m / 4096 % 4096) 0
    (k, chan k)
  else dealt p.targets (hashIndex g) (0, 0)

/-! ## A Freti die (R391, R392, R394) -/

/-- The failed columns of a physical row. -/
def badCols (l : List Resource) (d r : Nat) : List Nat := (List.range 17).filter fun c => l.contains (.core d r c)

/-- Do the cores and event engines of a cluster row fail beyond the spare columns? -/
def rowBroken (l : List Resource) (d k : Nat) : Bool :=
  decide (2 ≤ (badCols l d (2 * k)).length) || decide (2 ≤ (badCols l d (2 * k + 1)).length) ||
    (List.range 4).any fun i => l.contains (.engine d (4 * k + i))

/-- The matrix units of a die that fail in cluster rows that nothing else retires, in the order of their failures. -/
def badUnits (l : List Resource) (d : Nat) : List Nat :=
  l.filterMap fun r => match r with
    | .unit e n => if e = d ∧ n < 32 ∧ !rowBroken l d (n / 4) then some n else none
    | _ => none

/-- Does the spare matrix unit of a die serve the cluster of physical unit `n`: the first that failed? -/
def spareServes (l : List Resource) (d n : Nat) : Bool := !l.contains (.unit d 32) && (badUnits l d).head? == some n

/-- Is a physical cluster row retired? -/
def rowRetired (l : List Resource) (d k : Nat) : Bool :=
  rowBroken l d k || (badUnits l d).any fun n => n / 4 == k && !spareServes l d n

/-- The physical rows in use, in increasing order: entry `r` is logical row `r`. -/
def rowMap (l : List Resource) (d : Nat) : List Nat := (List.range 16).filter fun r => !rowRetired l d (r / 2)

/-- The physical column of logical column `c` in a physical row. -/
def colMap (l : List Resource) (d r c : Nat) : Nat :=
  match (badCols l d r).head? with
  | some f => if c < f then c else c + 1
  | none => c

/-- The physical row and column of a logical core of a die. -/
def Package.physCore (p : Package) (d r c : Nat) : Nat × Nat :=
  let x := (rowMap p.repaired d).getD r 16
  (x, colMap p.repaired d x c)

/-- The physical cluster that a logical cluster of a die is. -/
def Package.physCluster (p : Package) (d n : Nat) : Nat := 4 * ((rowMap p.repaired d).getD (2 * (n / 4)) 16 / 2) + n % 4

/-- The physical matrix unit that serves a logical cluster of a die. -/
def Package.physUnit (p : Package) (d n : Nat) : Nat :=
  let k := p.physCluster d n
  if spareServes p.repaired d k then 32 else k

/-! ## A stack (R392, R394) -/

/-- The failed channels of a stack but for the spare, in the order of their failures. -/
def badChannels (l : List Resource) (s : Nat) : List Nat :=
  l.filterMap fun r => match r with
    | .channel t n => if t = s ∧ n < 16 then some n else none
    | _ => none

/-- The physical channels in use: entry `ch` is logical channel `ch`, with the spare in the place of the first that failed. -/
def channelMap (l : List Resource) (s : Nat) : List Nat :=
  let bad := badChannels l s
  let spare := if l.contains (.channel s 16) then none else bad.head?
  ((List.range 16).map fun c => if spare = some c then 16 else c).filter fun c => !bad.contains c

/-! ## A resource that has failed and is not repaired (R393)

Every byte that it holds reads as an uncorrectable error until the repair (notes/assumptions/73.md). -/

/-- Has a resource failed since the reset that would repair it? -/
def Package.broken (p : Package) (r : Resource) : Bool := p.failed.contains r && !p.repaired.contains r

/-- Does the store of a logical core of a die lie in a resource that has failed? -/
def Package.coreBroken (p : Package) (d r c : Nat) : Bool :=
  let x := p.physCore d r c
  p.broken (.core d x.1 x.2) || p.broken (.die d)

/-- Does the bank of a logical cluster's engine? -/
def Package.engineBroken (p : Package) (d n : Nat) : Bool := p.broken (.engine d (p.physCluster d n)) || p.broken (.die d)

/-- Has the matrix unit that serves a logical cluster failed? -/
def Package.unitBroken (p : Package) (d n : Nat) : Bool := p.broken (.unit d (p.physUnit d n)) || p.broken (.die d)

/-- Does a byte of stacked memory, by its package-local address, lie in a resource that has failed? -/
def Package.stackedBroken (p : Package) (place : BitVec 2) (m : Nat) : Bool :=
  let x := p.placeOf place m
  p.broken (.channel x.1 ((channelMap p.repaired x.1).getD x.2 17)) || p.broken (.stack x.1)

/-! ## What a reset of the holder takes account of (R393, R394) -/

/-- The die of a resource that only the reset of that Freti die assigns anew. -/
def Resource.freti? : Resource → Option Nat
  | .core d _ _ | .unit d _ | .engine d _ | .die d => some d
  | _ => none

/-- The stack of a resource that only the reset of that stack's base die assigns anew. -/
def Resource.stack? : Resource → Option Nat
  | .channel k _ | .stack k => some k
  | _ => none

/-- The repair assignments with the failures that a test selects taken in. -/
def Package.assign (p : Package) (f : Resource → Bool) : Package :=
  { p with repaired := p.failed.filter fun r => p.repaired.contains r || f r }

/-- What a Freti die reports: its rows, and whether it is there. -/
def Package.reportRows (p : Package) (d : Nat) : Package :=
  { p with
    rows := if h : d < 8 then p.rows.set d (BitVec.ofNat 5 (rowMap p.repaired d).length) else p.rows
    diePresent := if p.repaired.contains (.die d) then p.diePresent &&& ~~~(BitVec.twoPow 8 d) else p.diePresent }

/-- What a stack reports: its channels, and whether it is there. -/
def Package.reportChannels (p : Package) (k : Nat) : Package :=
  { p with
    channels := if h : k < 16 then p.channels.set k (BitVec.ofNat 5 (channelMap p.repaired k).length) else p.channels
    stackPresent := if p.repaired.contains (.stack k) then p.stackPresent &&& ~~~(BitVec.twoPow 16 k) else p.stackPresent }

/-- The repair of a Freti die at its reset. -/
def Package.repairDie (p : Package) (d : Nat) : Package := (p.assign fun r => r.freti? == some d).reportRows d

/-- The repair of a stack at the reset of its base die. -/
def Package.repairStack (p : Package) (k : Nat) : Package := (p.assign fun r => r.stack? == some k).reportChannels k

/-- A gateway die that has failed is absent after its reset. -/
def Package.repairGateway (p : Package) (g : Nat) : Package :=
  if p.failed.contains (.gateway g) then { p with gateways := p.gateways &&& ~~~(BitVec.twoPow 4 g) } else p

/-- The repair at a package reset: every failure is taken in, and a die, stack or gateway die that has failed is absent. -/
def Package.repairAll (p : Package) : Package :=
  (List.range 4).foldl Package.repairGateway ((List.range 16).foldl Package.reportChannels
    ((List.range 8).foldl Package.reportRows (p.assign fun _ => true)))

/-- Do the cores of a die have other physical places in two assignments? -/
def Package.dieMoved (p q : Package) (d : Nat) : Bool :=
  (List.range 16).any fun r => (List.range 16).any fun c => p.physCore d r c != q.physCore d r c

/-- A resource fails (R393). -/
def Package.fail (p : Package) (r : Resource) : Package :=
  if p.failed.contains r then p else { p with failed := p.failed ++ [r] }

end Sys2Proof.Machine
end

