-- ==== Sys2Proof/Machine/Ops.lean ====
section
/-!
DEFINITION. Sys2Proof/Machine/Ops.lean: the named operations over the state: lists with keys, the core in focus,
registers, the local store with its checks, taking a trap and returning from one, and a core's role in a gang.
-/

namespace Sys2Proof.Machine

/-- How a step of this model ends. -/
abbrev Out := Host.Outcome State Fault Refusal

/-! ## Lists with keys -/

/-- The value at a key. -/
def aget {α : Type} (l : List (Nat × α)) (k : Nat) : Option α := (l.find? (·.1 == k)).map (·.2)

/-- The list without a key. -/
def adel {α : Type} (l : List (Nat × α)) (k : Nat) : List (Nat × α) := l.filter (·.1 != k)

/-- The list with a value at a key. Keys stand in rising order, so that one content is one list. -/
def aset {α : Type} (l : List (Nat × α)) (k : Nat) (x : α) : List (Nat × α) :=
  match l with
  | [] => [(k, x)]
  | y :: r => if k < y.1 then (k, x) :: y :: r else if k = y.1 then (k, x) :: r else y :: aset r k x

/-- The value at a key, or a default. -/
def agetD {α : Type} (l : List (Nat × α)) (k : Nat) (x : α) : α := (aget l k).getD x

/-! ## The core in focus and the others -/

/-- The state with a change to the core in focus. -/
def State.on (s : State) (f : Core → Core) : State := { s with core := f s.core }

/-- The state with new memory. -/
def State.withMem (s : State) (f : Memory → Memory) : State := { s with mem := f s.mem }

/-- Core `c` of the domain; a core that is not listed is as after reset. -/
def State.getCore (s : State) (c : Nat) : Core :=
  if s.core.addr.toNat = c then s.core else agetD s.others c (Core.idle (BitVec.ofNat 23 c))

/-- The state with core `c` in focus. -/
def State.focus (s : State) (c : Nat) : State :=
  if s.core.addr.toNat = c then s
  else { s with core := s.getCore c, others := aset (adel s.others c) s.core.addr.toNat s.core }

/-- An operation done at core `c`. -/
def State.at (s : State) (c : Nat) (f : State → State) : State :=
  (f (s.focus c)).focus s.core.addr.toNat

/-- A change to core `c`. -/
def State.modCore (s : State) (c : Nat) (f : Core → Core) : State :=
  if s.core.addr.toNat = c then s.on f else { s with others := aset s.others c (f (s.getCore c)) }

/-- The name of the thread a core runs: launch number and core. Operations in flight belong to a thread, and find its
context whether it runs or is saved (R369). -/
def Core.thread (c : Core) : Nat := c.info.num * 2 ^ 23 + c.addr.toNat

/-- The core address in a thread's name. -/
def threadCore (k : Nat) : Nat := k % 2 ^ 23

/-- The context of a thread: its core while that runs the launch, else the saved one. -/
def State.getThread (s : State) (k : Nat) : Option Core :=
  let c := s.getCore (threadCore k)
  if c.thread = k then some c else aget s.saved k

/-- An operation done at a thread, on its core or on its saved context; nothing if it has ended (R369). -/
def State.atThread (s : State) (k : Nat) (f : State → State) : State :=
  if (s.getCore (threadCore k)).thread = k then s.at (threadCore k) f
  else match aget s.saved k with
    | none => s
    | some c =>
      let t := f { s with core := c }
      { t with core := s.core, saved := aset t.saved k t.core }

/-- The next number for a free value, and the state past it. -/
def State.fresh (s : State) : Nat × State := (s.tick, { s with tick := s.tick + 1 })

/-- Package `p` of a core address. -/
def pkgOf (c : Nat) : Nat := c / 2 ^ 11 % 2 ^ 11

/-- Freti die of a core address. -/
def dieOf (c : Nat) : Nat := c / 2 ^ 8 % 8

/-- Row of a core address. -/
def rowOf (c : Nat) : Nat := c / 16 % 16

/-- Column of a core address. -/
def colOf (c : Nat) : Nat := c % 16

/-- Is it the address of a memory core or service core (R20)? -/
def isMemCore (c : Nat) : Bool := decide (c / 2 ^ 22 % 2 = 1)

/-- Is it the address of a memory core proper (R20, R296)? -/
def isChannelCore (c : Nat) : Bool := isMemCore c && decide (rowOf c < 2)

/-- The address of a tile core. -/
def tileAddr (pkg die row col : Nat) : Nat := pkg * 2 ^ 11 + die * 2 ^ 8 + row * 16 + col

/-- The package's state. -/
def State.getPkg (s : State) (p : Nat) : Package := agetD s.pkgs p Package.reset

/-- A change to a package. -/
def State.modPkg (s : State) (p : Nat) (f : Package → Package) : State :=
  { s with pkgs := aset s.pkgs p (f (s.getPkg p)) }

/-- Is a Freti die present and out of reset (R394, R396)? -/
def State.dieLive (s : State) (p die : Nat) : Bool :=
  (s.getPkg p).diePresent.getLsbD die && !(s.getPkg p).dieReset.getLsbD die

/-- Does the domain have this core (R143, R383, R394)? Each die has the rows its package reports; a memory core has
its stack and channel; a service core stands at ROW 0x8 to 0xB, COL 0xF. -/
def State.coreExists (s : State) (c : Nat) : Bool :=
  let p := s.getPkg (pkgOf c)
  decide (c < 2 ^ 23) && p.diePresent.getLsbD (dieOf c) &&
    if isMemCore c then
      (decide (rowOf c < 2) && p.stackPresent.getLsbD (2 * dieOf c + rowOf c) &&
        decide (colOf c < (p.channels.toList.getD (2 * dieOf c + rowOf c) 0).toNat)) ||
      (decide (8 ≤ rowOf c ∧ rowOf c < 12) && decide (colOf c = 15))
    else decide (rowOf c < (p.rows.toList.getD (dieOf c) 0).toNat)

/-- An event engine. -/
def State.engine (s : State) (eng : Nat) : Engine := agetD s.engines eng Engine.reset

/-- A change to an event engine. -/
def State.modEngine (s : State) (eng : Nat) (f : Engine → Engine) : State :=
  { s with engines := aset s.engines eng (f (s.engine eng)) }

/-! ## Reaching another package (R409, R411) -/

/-- The pod of a package (R230, R409). -/
def podOf (p : Nat) : Nat := p / 16

/-- The live paths from a package to a pod, one bit each (R409). -/
def Package.livePaths (p : Package) (pod : Nat) : BitVec 4 := agetD p.paths pod 0xF

/-- Is the package asleep: its ports are down (R425)? -/
def Package.asleep (p : Package) : Bool := decide (p.power = .packageSleep)

/-- Can package `p` reach package `q` (R411)? -/
def State.reaches (s : State) (p q : Nat) : Bool :=
  p == q || ((s.getPkg p).livePaths (podOf q) != 0 && !(s.getPkg q).asleep)

/-- The dies that traffic passes from die `a` to die `b` through a die-column (R385). -/
def dieRoute (a b col : Nat) : List Nat :=
  let up := (List.range (b / 2 - a / 2)).map fun i => 2 * (a / 2 + 1 + i) + col
  let down := (List.range (a / 2 - b / 2)).map fun i => 2 * (a / 2 - 1 - i) + col
  [a] ++ (if a % 2 = col then [] else [a / 2 * 2 + col]) ++ up ++ down ++ (if b % 2 = col then [] else [b])

/-- A direction of a neighbour link by number: the links in the order of R384, each with the direction towards the
higher die number first (DESIGN CHOICE, notes/assumptions/37.md). -/
def linkDir (a b : Nat) : Nat :=
  if a / 2 = b / 2 then 2 * (a / 2) + (if a < b then 0 else 1)
  else 2 * (4 + min a b) + (if a < b then 0 else 1)

/-- The route of R385, or the other die-column where a die on it is absent or in reset (R394, R396). -/
def State.linkRoute (s : State) (p a b : Nat) : List Nat :=
  let r := dieRoute a b (b % 2)
  let ok := r.all fun d => d == a || d == b || s.dieLive p d
  let r1 := if ok then r else dieRoute a b (1 - b % 2)
  (r1.zip (r1.drop 1)).map fun (x, y) => linkDir x y

/-- Is a link direction up: at least 64 live lanes (R394)? -/
def Package.linkUp (p : Package) (l : Nat) : Bool := decide (64 ≤ agetD p.lanes l 512)

/-- Is there a live route, both ways, between two dies of a package (R379, R385)? -/
def State.routeUp (s : State) (p a b : Nat) : Bool :=
  (s.linkRoute p a b ++ s.linkRoute p b a).all (s.getPkg p).linkUp

/-- Is the link of a stack up, both ways? -/
def Package.stackUp (p : Package) (k : Nat) : Bool := p.linkUp (20 + 2 * k) && p.linkUp (21 + 2 * k)

/-- Does a gateway die run (R393, R394, R396)? -/
def Package.gatewayLive (p : Package) (g : Nat) : Bool :=
  p.gateways.getLsbD g && !p.gwReset.getLsbD g && !p.failed.contains (.gateway g)

/-- The gateway dies that run. -/
def Package.gatewayMask (p : Package) : BitVec 4 :=
  (List.range 4).foldl (fun m g => if p.gatewayLive g then m ||| BitVec.twoPow 4 g else m) 0

/-- Can a die reach its gateway: the gateway runs and their link is up, both ways? -/
def Package.gatewayUp (p : Package) (d : Nat) : Bool :=
  p.gatewayLive (d / 2) && p.linkUp (52 + 2 * d) && p.linkUp (53 + 2 * d)

/-- The cluster of a tile core on its die (R144). -/
def clusterOf (c : Nat) : Nat := 4 * (rowOf c / 2) + colOf c / 4

/-- Quadrant of a core (R144). -/
def quadOf (c : Nat) : Nat := 2 * (rowOf c / 8) + colOf c / 8

/-- Is a core, or an engine of its cluster, powered and running (R425)? -/
def Package.powered (p : Package) (c : Nat) : Bool :=
  !p.offMask.getLsbD (dieOf c * 32 + clusterOf c) && !p.retMask.getLsbD (dieOf c) && !p.asleep

/-- The stack on whose base die a memory core stands. -/
def stackOfCore (c : Nat) : Nat := 2 * dieOf c + rowOf c

/-- Is a core's way onto its die up: a memory core's leads over its stack's link? -/
def State.coreUp (s : State) (c : Nat) : Bool := !isMemCore c || (s.getPkg (pkgOf c)).stackUp (stackOfCore c)

/-- Can one core reach another (R379, R411)? -/
def State.coresReach (s : State) (a b : Nat) : Bool :=
  s.reaches (pkgOf a) (pkgOf b) && (a == b || (s.coreUp a && s.coreUp b &&
    if pkgOf a = pkgOf b then s.routeUp (pkgOf a) (dieOf a) (dieOf b)
    else (s.getPkg (pkgOf a)).gatewayUp (dieOf a) && (s.getPkg (pkgOf b)).gatewayUp (dieOf b)))

/-! ## Registers -/

/-- `g[i]`: `g0` reads as zero (R9). -/
def Core.g (c : Core) (i : BitVec 5) : Word := if i = 0 then 0 else c.regs.g.get i.toFin

/-- `g[i] := x`: a write to `g0` is discarded (R9). -/
def Core.setG (c : Core) (i : BitVec 5) (x : Word) : Core :=
  if i = 0 then c else { c with regs := { c.regs with g := c.regs.g.set i.toNat x i.isLt } }

/-- `v[i]` (R9). -/
def Core.v (c : Core) (i : BitVec 5) : VReg := c.regs.v.get i.toFin

/-- `v[i] := x` (R9). -/
def Core.setV (c : Core) (i : BitVec 5) (x : VReg) : Core :=
  { c with regs := { c.regs with v := c.regs.v.set i.toNat x i.isLt } }

/-- `m[i]`: `m0` reads as all ones (R9). -/
def Core.m (c : Core) (i : BitVec 3) : Word := if i = 0 then BitVec.allOnes 64 else c.regs.m.get i.toFin

/-- `m[i] := x`: a write to `m0` is discarded (R9). -/
def Core.setM (c : Core) (i : BitVec 3) (x : Word) : Core :=
  if i = 0 then c else { c with regs := { c.regs with m := c.regs.m.set i.toNat x i.isLt } }

/-- The pc set. -/
def Core.setPc (c : Core) (a : LAddr) : Core := { c with regs := { c.regs with pc := a } }

/-- A change to the control registers. -/
def Core.modCtl (c : Core) (f : Ctl → Ctl) : Core := { c with ctl := f c.ctl }

/-- A change to STATUS. -/
def Core.modStatus (c : Core) (f : Status → Status) : Core :=
  c.modCtl fun k => { k with status := f k.status }

/-- `g[i]` of the core in focus. -/
def State.g (s : State) (i : BitVec 5) : Word := s.core.g i

/-- `v[i]` of the core in focus. -/
def State.v (s : State) (i : BitVec 5) : VReg := s.core.v i

/-- `m[i]` of the core in focus. -/
def State.m (s : State) (i : BitVec 3) : Word := s.core.m i

/-- The pc of the core in focus. -/
def State.pc (s : State) : LAddr := s.core.regs.pc

/-- `g[i] := x` at the core in focus. -/
def State.setG (s : State) (i : BitVec 5) (x : Word) : State := s.on (·.setG i x)

/-- `v[i] := x` at the core in focus. -/
def State.setV (s : State) (i : BitVec 5) (x : VReg) : State := s.on (·.setV i x)

/-- `m[i] := x` at the core in focus. -/
def State.setM (s : State) (i : BitVec 3) (x : Word) : State := s.on (·.setM i x)

/-- The pc of the core in focus set. -/
def State.setPc (s : State) (a : LAddr) : State := s.on (·.setPc a)

/-- pc := pc + 4. -/
def State.adv (s : State) : State := s.setPc (s.pc + 4)

/-- Is the core in focus in supervisor mode? -/
def State.priv (s : State) : Bool := s.core.ctl.status.priv

/-- `SetFlags` of R33: FSTAT := FSTAT OR f. -/
def State.setFlags (s : State) (f : BitVec 6) : State := s.on (·.modCtl fun k => { k with fstat := k.fstat ||| f })

/-- The core in focus waits. -/
def State.waiting (s : State) (w : WaitState) : State := s.on fun c => { c with wait := w }

/-- The core in focus waits no longer. -/
def State.resumed (s : State) : State := s.on fun c => { c with wait := .no }

/-- `Wrap(x, 64)` of R33, for an integer. -/
def wrap64 (x : Int) : Word := BitVec.ofInt 64 x

/-! ## Cause codes (R359) -/

namespace Cause
/-- ILLEGAL. -/
abbrev illegal : BitVec 8 := 0x01
/-- PRIVILEGE. -/
abbrev privilege : BitVec 8 := 0x02
/-- LIMIT. -/
abbrev limit : BitVec 8 := 0x03
/-- LOCAL_BOUNDS. -/
abbrev localBounds : BitVec 8 := 0x04
/-- ALIGN. -/
abbrev align : BitVec 8 := 0x05
/-- BOUNDS. -/
abbrev bounds : BitVec 8 := 0x06
/-- RANGE_LOCK. -/
abbrev rangeLock : BitVec 8 := 0x07
/-- FRAME. -/
abbrev frame : BitVec 8 := 0x08
/-- SVC. -/
abbrev svc : BitVec 8 := 0x09
/-- SOFT. -/
abbrev soft : BitVec 8 := 0x0A
/-- BREAK. -/
abbrev brk : BitVec 8 := 0x0B
/-- RANGE. -/
abbrev range : BitVec 8 := 0x10
/-- RESIDENCY. -/
abbrev residency : BitVec 8 := 0x11
/-- MEMORY. -/
abbrev memory : BitVec 8 := 0x12
/-- GUARD. -/
abbrev guard : BitVec 8 := 0x13
/-- COPY_REQ. -/
abbrev copyReq : BitVec 8 := 0x14
/-- FORMAT. -/
abbrev format : BitVec 8 := 0x15
/-- MTX_CHECK. -/
abbrev mtxCheck : BitVec 8 := 0x16
/-- EVENT. -/
abbrev event : BitVec 8 := 0x17
/-- TEAM_OP. -/
abbrev teamOp : BitVec 8 := 0x18
/-- OUTBUF_FULL. -/
abbrev outbufFull : BitVec 8 := 0x19
/-- MSG_KIND. -/
abbrev msgKind : BitVec 8 := 0x20
/-- FORMAT_MISMATCH. -/
abbrev formatMismatch : BitVec 8 := 0x21
/-- RX_WATCHDOG. -/
abbrev rxWatchdog : BitVec 8 := 0x22
/-- BARRIER. -/
abbrev barrier : BitVec 8 := 0x23
/-- SLOT. -/
abbrev slot : BitVec 8 := 0x24
/-- PLAN_MISMATCH. -/
abbrev planMismatch : BitVec 8 := 0x25
/-- UNCORR. -/
abbrev uncorr : BitVec 8 := 0x28
/-- PREEMPT. -/
abbrev preempt : BitVec 8 := 0x40
/-- RESUME. -/
abbrev resume : BitVec 8 := 0x41
end Cause

/-- What a failing check raises: a cause and its EINFO. -/
abbrev Trap := BitVec 8 × Nat

/-! ## A core's role in a gang (R145 to R147, R118) -/

/-- The members a core leads. -/
def Core.members (c : Core) : List (Nat × Nat) :=
  match c.gang.role with
  | .leader ms => ms
  | _ => []

/-- Is the core a follower? -/
def Core.follows (c : Core) : Bool :=
  match c.gang.role with
  | .follower _ _ => true
  | _ => false

/-- A member that has left is no longer led; a leader left with nobody is alone. -/
def Gang.drop (g : Gang) (c : Nat) : Gang :=
  match g.role with
  | .leader ms =>
    let ms' := ms.filter (·.1 != c)
    if ms'.isEmpty then { g with role := .alone, begun := none } else { g with role := .leader ms' }
  | _ => g

/-- The leader's end of the gang reaches each follower behind the steps it has still to execute (R118, R146). -/
def State.tellLeave (s : State) (g : GangStep) : List (Nat × Nat) → State
  | [] => s
  | (c, _) :: r =>
    (s.modCore c fun k => { k with gang := { k.gang with stream := k.gang.stream ++ [g] } }).tellLeave g r

/-- A follower that leaves stands alone, with nothing of the leader's stream. -/
def Gang.alone (g : Gang) : Gang := { g with role := .alone, stream := [], begun := none }

/-- The core in focus leaves its gang: a follower is removed; a leader dissolves it, by `split` or otherwise (R118, R114,
R191). -/
def State.leaveGangBy (s : State) (g : GangStep) : State :=
  match s.core.gang.role with
  | .alone => s
  | .follower l _ =>
    (s.modCore l fun k => { k with gang := k.gang.drop s.core.addr.toNat }).on fun c => { c with gang := c.gang.alone }
  | .leader ms => (s.tellLeave g ms).on fun c => { c with gang := { c.gang with role := .alone, begun := none } }

/-- The core in focus leaves its gang. -/
def State.leaveGang (s : State) : State := s.leaveGangBy .leave

/-- A follow request still travelling is withdrawn (R190). -/
def State.withdrawFollow (s : State) : State :=
  { s.on fun c => { c with gang := { c.gang with asked := none } } with
    follows := s.follows.filter (·.1 != s.core.addr.toNat) }

/-! ## Taking a trap and returning from one (R28, R113) -/

/-- A double trap: the thread ends, its census entry records DOUBLE and the cause (R28, R360). -/
def State.doubleTrap (s : State) (cause : BitVec 8) : State :=
  s.leaveGang.withdrawFollow.on fun c =>
    { c with run := .endedFault, wait := .no, census := { c.census with double := true, cause := cause } }

/-- A saturating counter counts one more. -/
def satInc {n : Nat} (x : BitVec n) : BitVec n := if x = BitVec.allOnes n then x else x + 1

/-- A saturating counter counts `n` more. -/
def satAdd {n : Nat} (x : BitVec n) (k : Nat) : BitVec n := BitVec.ofNat n (min (2 ^ n - 1) (x.toNat + k))

/-- A saturating counter by key counts one more. -/
def countAt (l : List (Nat × BitVec 32)) (k : Nat) : List (Nat × BitVec 32) := aset l k (satInc (agetD l k 0))

/-- The registers that an entry writes (R28), the event latch it sets (R115) and the census fields (R382). -/
def Core.enterTrap (c : Core) (cause : BitVec 8) (info : Word) (late intr : Bool) (seq : BitVec 16)
    (resume : LAddr) : Core :=
  { c with
    ctl := { c.ctl with
      epc := resume, ecause := BitVec.ofBool intr ++ BitVec.ofBool late ++ cause, einfo := info, eseq := seq
      status := { c.ctl.status with
        ppriv := c.ctl.status.priv, pie := c.ctl.status.ie, priv := true, ie := false } }
    regs := { c.regs with pc := c.ctl.evec }
    latch := true, wait := .no
    rtab := { c.rtab with
      miss := none, notFound := false
      resn := if cause = Cause.residency then satInc c.rtab.resn else c.rtab.resn }
    census := { c.census with cause := cause, handler := c.census.handler + 1 } }

/-- `TakeTrap` of R28, at the core in focus. -/
def State.takeTrap (s : State) (cause : BitVec 8) (info : Nat) (late intr : Bool) (seq : BitVec 16)
    (resume : LAddr) : State :=
  if s.core.ctl.status.priv && !s.core.ctl.status.ie && !late && !intr then s.doubleTrap cause
  else s.leaveGang.withdrawFollow.on (·.enterTrap cause (BitVec.ofNat 64 info) late intr seq resume)

/-- `Trap(cause, info)` of R33: a precise trap. An uncorrectable error is counted, and in a team it asks for a rollback
instead of trapping (R379, R380). -/
def State.trap (s : State) (t : Trap) : State :=
  if t.1 = Cause.uncorr then
    let s1 := s.on fun c => { c with faults := { c.faults with lsue := satInc c.faults.lsue } }
    if s.core.ctl.status.ckpt then s1.on fun c => { c with team := { c.team with rollback := true } }
    else s1.takeTrap t.1 t.2 false false 0 s.pc
  else s.takeTrap t.1 t.2 false false 0 s.pc

/-- Trap return (R113), without its privilege check. Bits [1:0] of pc are zero (R9), those of EPC are not taken (DEDUCED,
notes/assumptions/56.md). -/
def Core.returnTrap (c : Core) : Core :=
  { c with
    ctl := { c.ctl with status := { c.ctl.status with priv := c.ctl.status.ppriv, ie := c.ctl.status.pie } }
    regs := { c.regs with pc := c.ctl.epc &&& ~~~3 }
    latch := true
    census := { c.census with handler := c.census.handler - 1 } }

/-- An instruction whose checks gave `t`: the trap, or its effect. -/
def State.checked (s : State) (t : Option Trap) (done : State) : Out :=
  match t with
  | some t => .next (s.trap t)
  | none => .next done

/-- `Privileged()` of R33, as a check. -/
def State.privCheck (s : State) : Option Trap := if s.priv then none else some (Cause.privilege, 0)

/-- `VCheck` of R33 over the v registers an instruction names, in the order given: d, a, b, c, the second of an f32 pair
after its first. Which number EINFO gives when several fail, the spec settles for RFRM only (R22; DESIGN CHOICE,
notes/assumptions/30.md). -/
def State.vcheck (s : State) : List (BitVec 5) → Option Trap
  | [] => none
  | i :: r =>
    if !s.priv && decide (s.core.ctl.vlim.toNat ≤ i.toNat) then some (Cause.limit, i.toNat) else s.vcheck r

/-! ## The local store -/

/-- The key of a byte of a core's store, or of its image while its context is saved (R24, R369). -/
def Core.localKey (c : Core) (a : Nat) : Nat :=
  if c.image then keyImage c.thread a else keyLocal c.addr.toNat a

/-- Do the spans share a byte? -/
def overlap (a n b m : Nat) : Bool := decide (max a b < min (a + n) (b + m))

/-- Does a span of the list share a byte with `a` to `a + n - 1`? -/
def spansHit (l : List Span) (a n : Nat) : Bool := l.any fun (x : Span) => overlap x.lo x.len a n

/-- The bytes a binding locks: its stamp array, and its window while it is not held (R242). -/
def Binding.hits (b : Binding) (a n : Nat) : Bool :=
  overlap b.stamps (4 * (b.len / 512)) a n ||
    match b.state with
    | .heldS | .heldX => false
    | _ => overlap b.window b.len a n

/-- `LockHit` of R33: the spans of pending operations, of armed `ttrecv`, of bindings, and of a team member's undo log
(R242, R196, R372). -/
def Core.lockHit (c : Core) (a n : Nat) : Bool :=
  c.ops.any (fun (o : Op) => spansHit o.lread a n || spansHit o.lwrite a n) ||
  (match c.sync.phase with
    | some p => p.armed.any fun (r : ArmedRecv) => overlap r.dst (64 * r.beats) a n
    | none => false) ||
  c.binds.toList.any (fun b => match b with
    | some b => b.hits a n
    | none => false) ||
  (c.ctl.status.ckpt && overlap c.info.undobase c.info.undo a n)

/-- The kinds of local access (R33). -/
inductive LKind where
  | load
  | store
  | fetch
deriving DecidableEq, Repr

/-- The tests of `LocalCheck` before the range-lock test, with the alignment unit `u`, under a mode and an LSLIM
(R33, R333). -/
def spanCheck (priv : Bool) (lslim : LAddr) (a n u : Nat) : Option Trap :=
  if 0x180000 < a + n then some (Cause.localBounds, a)
  else if a % u ≠ 0 then some (Cause.align, a)
  else if !priv && decide (lslim.toNat < a + n) then some (Cause.limit, a)
  else none

/-- `LocalCheck` of R33. -/
def State.localCheck (s : State) (a n : Nat) (k : LKind) : Option Trap :=
  match spanCheck s.priv s.core.ctl.lslim a n n with
  | some t => some t
  | none => if k ≠ .fetch ∧ s.core.lockHit a n then some (Cause.rangeLock, a) else none

/-- A span without the keys `k` to `k + n - 1`. -/
def Span.carve (p : Span) (k n : Nat) : List Span :=
  if overlap p.lo p.len k n then
    (if p.lo < k then [({ lo := p.lo, len := k - p.lo } : Span)] else []) ++
      if k + n < p.lo + p.len then [{ lo := k + n, len := p.lo + p.len - (k + n) }] else []
  else [p]

/-- Does a resource that has failed hold the byte at a key (R393)? -/
def State.brokenByte (s : State) (k : Nat) : Bool :=
  let off := k % 2 ^ 90
  match k / 2 ^ 90 with
  | 0 =>
    let c := off / 2 ^ 21
    decide (c < 2 ^ 22) && (s.getPkg (pkgOf c)).coreBroken (dieOf c) (rowOf c) (colOf c)
  | 1 => (s.getPkg (dpaPkg off)).stackedBroken (BitVec.ofNat 2 (off / 2 ^ 52)) (dpaLocal off)
  | 3 =>
    let e := off / 2 ^ 20
    (s.getPkg (e / 256)).engineBroken (e / 32 % 8) (e % 32)
  | _ => false

/-- Has any resource failed that is not repaired? -/
def State.anyBroken (s : State) : Bool := s.pkgs.any fun x => x.2.failed.any x.2.broken

/-- Does a resource that has failed hold one of `n` bytes? -/
def State.brokenHit (s : State) (k n : Nat) : Bool := s.anyBroken && (List.range n).any fun i => s.brokenByte (k + i)

/-- Does an uncorrectable error stand in these bytes (R379)? -/
def State.poisonHit (s : State) (k n : Nat) : Bool := spansHit s.poison k n || s.brokenHit k n

/-- The errors among `n` bytes from a key up, each with what it has in common with them (R379). -/
def State.poisonIn (s : State) (k n : Nat) : List Span :=
  ((s.poison.filter fun (p : Span) => overlap p.lo p.len k n).map fun (p : Span) =>
    ({ lo := max p.lo k, len := min (p.lo + p.len) (k + n) - max p.lo k } : Span)) ++
  if s.anyBroken then ((List.range n).filter fun i => s.brokenByte (k + i)).map fun i => { lo := k + i, len := 1 } else []

/-- The first poisoned byte among `n` bytes from a key up, as an offset (R379). -/
def State.poisonAt (s : State) (k n : Nat) : Option Nat :=
  match (s.poisonIn k n).map fun (p : Span) => p.lo - k with
  | [] => none
  | x :: xs => some (xs.foldl min x)

/-- The errors of some bytes are gone with them: what other bytes a span covers keep theirs. -/
def State.dropPoison (s : State) (k n : Nat) : State :=
  { s with poison := s.poison.flatMap (·.carve k n) }

/-- The first local byte of a read that holds an uncorrectable error (R379). -/
def State.readError (s : State) (a n : Nat) : Option Nat := (s.poisonAt (s.core.localKey a) n).map (a + ·)

/-- The check of a thread's read: `LocalCheck`, then UNCORR (R33, R379). -/
def State.loadCheck (s : State) (a n : Nat) : Option Trap :=
  match s.localCheck a n .load with
  | some t => some t
  | none => if s.poisonHit (s.core.localKey a) n then some (Cause.uncorr, a) else none

/-- The bytes of the store of the core in focus. -/
def State.localBytes (s : State) (a n : Nat) : List Byte := s.mem.bytes (s.core.localKey a) n

/-- `LocalRead` of R33. -/
def State.localRead (s : State) (a n : Nat) : Nat := s.mem.read (s.core.localKey a) n

/-- The aligned 64-byte blocks that bytes `a` to `a + n - 1` touch. -/
def blocksOf (a n : Nat) : List Nat :=
  if n = 0 then [] else (List.range ((a + n - 1) / 64 - a / 64 + 1)).map (a / 64 + ·)

/-- Is the block one whose prior bytes a team member's log takes at this write (R372)? -/
def Core.logsBlock (c : Core) (b : Nat) : Bool :=
  decide (64 * b < c.ctl.lslim.toNat) &&
    !(decide (c.info.undobase ≤ 64 * b) && decide (64 * b < c.info.undobase + c.info.undo)) &&
    !c.team.logged.contains b

/-- The undo records of the blocks that a write touches, in order (R372). -/
def State.logBlocks (s : State) : List Nat → State
  | [] => s
  | b :: r =>
    if s.core.logsBlock b then
      let i := s.core.team.logCount
      if 72 * (i + 1) ≤ s.core.info.undo then
        let rec_ := natLe 8 (64 * b) ++ s.localBytes (64 * b) 64
        ({ s.on fun c => { c with team := { c.team with logCount := i + 1, logged := b :: c.team.logged } } with
           mem := s.mem.writeBytes (s.core.localKey (s.core.info.undobase + 72 * i)) rec_ }).logBlocks r
      else (s.on fun c => { c with team := { c.team with recoverable := false } }).logBlocks r
    else s.logBlocks r

/-- The prior bytes of a write go to the undo log of a team member (R372). -/
def State.logWrite (s : State) (a n : Nat) : State :=
  if s.core.ctl.status.ckpt then s.logBlocks (blocksOf a n) else s

/-- The write bits of the 512-byte sub-blocks that bytes `a` to `a + n - 1` touch (R33). -/
def touchBits (a n : Nat) : BitVec 3072 :=
  if n = 0 ∨ 0x180000 ≤ a then 0
  else BitVec.ofNat 3072 ((2 ^ ((a + n - 1) / 512 - a / 512 + 1) - 1) * 2 ^ (a / 512))

/-- Bytes written to the store of the core in focus, with the undo log but without write bits. An uncorrectable error goes
only where one write covers the whole of it (DESIGN CHOICE, notes/assumptions/32.md). -/
def State.rawWrite (s : State) (a : Nat) (xs : List Byte) : State :=
  let t := s.logWrite a xs.length
  { t with mem := t.mem.writeBytes (t.core.localKey a) xs, poison := t.poison.filter fun (p : Span) =>
      !(decide (t.core.localKey a ≤ p.lo) && decide (p.lo + p.len ≤ t.core.localKey a + xs.length)) }

/-- Bytes written by `LocalWrite` of R33: they set the write bits of the sub-blocks touched. -/
def State.localWriteBytes (s : State) (a : Nat) (xs : List Byte) : State :=
  (s.rawWrite a xs).on fun c => { c with wbits := c.wbits ||| touchBits a xs.length }

/-- `LocalWrite` of R33. -/
def State.localWrite (s : State) (a n x : Nat) : State := s.localWriteBytes a (natLe n x)

/-- Bytes written by the core and seen by its own later fetches or not, until `ifence` (R26): the fetch buffer keeps
what it holds. The event latch is set where a completion word lands (R115). -/
def State.setLatch (s : State) : State := s.on fun c => { c with latch := true }

/-! ## Ring entries and late faults (R30, R31) -/

/-- The ring slot of a sequence number. -/
def slotOf (seq : BitVec 16) : Nat := seq.toNat % 64

/-- The entry of a sequence number. -/
def Core.entry (c : Core) (seq : BitVec 16) : RingEntry :=
  c.ring[slotOf seq]'(Nat.mod_lt _ (by decide))

/-- A change to the entry of a sequence number. -/
def Core.modEntry (c : Core) (seq : BitVec 16) (f : RingEntry → RingEntry) : Core :=
  { c with ring := c.ring.set (slotOf seq) (f (c.entry seq)) (Nat.mod_lt _ (by decide)) }

/-- The operation leaves the pending list; its spans go with it (R242). -/
def Core.dropOp (c : Core) (seq : BitVec 16) : Core := { c with ops := c.ops.filter (·.seq != seq) }

/-- An operation ends: its pending entry takes its outcome. One that runs on after a rollback has no entry, and its
outcome is dropped (R377). -/
def Core.settle (c : Core) (seq : BitVec 16) (f : RingEntry → RingEntry) : Core :=
  (if (c.entry seq).state = .pending ∧ (c.entry seq).seq = seq then c.modEntry seq f else c).dropOp seq

/-- The operation is squashed (R31, R366). -/
def Core.squash (c : Core) (seq : BitVec 16) : Core := c.settle seq fun e => { e with state := .squashed }

/-- The entry becomes faulted and its late fault pending; the latch is set (R31, R115). -/
def State.markFaulted (s : State) (seq : BitVec 16) (cause : BitVec 8) (info : Nat) : State :=
  (s.on (·.settle seq fun (e : RingEntry) =>
    { e with state := .faulted, cause := cause, einfo := BitVec.ofNat 64 info, untaken := true })).setLatch

/-- `LateFault` of R33. An uncorrectable error of a store is counted, and in a team it asks for a rollback instead
(R379, R380). -/
def State.lateFault (s : State) (seq : BitVec 16) (cause : BitVec 8) (info : Nat) : State :=
  if cause = Cause.uncorr then
    let s1 := s.on fun c => { c with faults := { c.faults with lsue := satInc c.faults.lsue } }
    if s.core.ctl.status.ckpt then
      s1.on fun c => { c.squash seq with team := { c.team with rollback := true } }
    else s1.markFaulted seq cause info
  else s.markFaulted seq cause info

/-- Does an uncorrectable error stand in a slot of the dispatch ring (R379)? -/
def Core.ringError (c : Core) (slot : Nat) : Bool := c.ringBad.getLsbD slot

/-- A slot has been written: an error that stood there goes. -/
def Core.ringClean (c : Core) (slot : Nat) : Core := { c with ringBad := c.ringBad &&& ~~~(BitVec.twoPow 64 slot) }

/-- An engine reports its operation done (R31). An error in the pending entry, which it meets here, is the operation's late
fault with EINFO the slot (R379; DESIGN CHOICE, notes/assumptions/38.md). -/
def State.opDone (s : State) (seq : BitVec 16) : State :=
  if s.core.ringError (slotOf seq) ∧ (s.core.entry seq).state = .pending ∧ (s.core.entry seq).seq = seq then
    (s.on (·.ringClean (slotOf seq))).lateFault seq Cause.uncorr (slotOf seq)
  else s.on (·.settle seq fun e => { e with state := .done })

/-- Does an accumulator hold an uncorrectable error (R379)? -/
def Core.accError (c : Core) (n : BitVec 2) : Bool := c.accBad.getLsbD n.toNat

/-- Does the shadow of an accumulator hold one (R379)? -/
def Core.shadowError (c : Core) (n : BitVec 2) : Bool := c.accBad.getLsbD (4 + n.toNat)

/-- An accumulator has been written: an error that stood there goes. -/
def Core.accClean (c : Core) (n : BitVec 2) : Core := { c with accBad := c.accBad &&& ~~~(BitVec.twoPow 8 n.toNat) }

/-- The shadow of an accumulator has been written. -/
def Core.shadowClean (c : Core) (n : BitVec 2) : Core :=
  { c with accBad := c.accBad &&& ~~~(BitVec.twoPow 8 (4 + n.toNat)) }

/-- An operation that reads an accumulator or a shadow with an uncorrectable error: late UNCORR with EINFO 0x100 and its number, or in
a team a rollback request (R379, R380). -/
def State.accFault (s : State) (seq : BitVec 16) (n : BitVec 2) : State :=
  let s1 := s.on fun c => { c with faults := { c.faults with accue := satInc c.faults.accue } }
  if s.core.ctl.status.ckpt then s1.on fun c => { c.squash seq with team := { c.team with rollback := true } }
  else s1.markFaulted seq Cause.uncorr (0x100 + n.toNat)

/-- Is some entry of the ring pending? -/
def Core.anyPending (c : Core) : Bool := c.ring.toList.any fun (e : RingEntry) => decide (e.state = .pending)

/-- The faulted entry whose late fault is taken first: sequence numbers count from the oldest pending entry, that is,
from the one farthest behind DRNEXT (R29). -/
def Core.lateFaultEntry (c : Core) : Option RingEntry :=
  (c.ring.toList.filter (·.untaken)).foldl (fun best (e : RingEntry) =>
    match best with
    | none => some e
    | some b => if (c.ctl.drnext - b.seq).toNat < (c.ctl.drnext - e.seq).toNat then some e else some b) none

/-- Values that an operation takes from the control registers at dispatch (R110). -/
def Core.attach (c : Core) : Attach :=
  { fmta := c.ctl.fmta, fmtb := c.ctl.fmtb, scla := c.ctl.scla, sclb := c.ctl.sclb, cbook := c.ctl.cbook,
    topx := c.ctl.status.topx, rm := c.ctl.status.rm, deal := c.ctl.deal,
    lslim := c.ctl.lslim, seen := c.view.seen }

end Sys2Proof.Machine
end

