-- ==== Sys2Proof/Machine/Scopes.lean ====
section
/-!
DEFINITION. Sys2Proof/Machine/Scopes.lean: agents, scopes and their instances (R229, R230), when a release and an acquire
meet (R235), and the words that other agents write into a thread's local store as releases (R289, R405).
-/

namespace Sys2Proof.Machine

/-! ## Agents and scopes (R229, R230) -/

/-- The scope sys (R230). -/
abbrev scopeSys : Nat := 0xB

/-- The package an agent belongs to. -/
def Agent.pkg : Agent → Option Nat
  | .thread k | .engine k => some (pkgOf (threadCore k))
  | .curator t => some (t / 16)
  | .registrar p | .host p => some p
  | .beyond => none

/-- Is it a host? -/
def Agent.isHost : Agent → Bool
  | .host _ => true
  | _ => false

/-- The thread that an agent is, or acts for. -/
def Agent.thread? : Agent → Option Nat
  | .thread k | .engine k => some k
  | _ => none

/-- The tile core an agent is, or acts for. -/
def Agent.tile? (a : Agent) : Option Nat :=
  match a.thread? with
  | some k => if isMemCore (threadCore k) then none else some (threadCore k)
  | none => none

/-- The stack, numbered over the domain, of a curator or of a memory core with its operations. -/
def Agent.stack? : Agent → Option Nat
  | .thread k | .engine k =>
    let c := threadCore k
    if isMemCore c then some (pkgOf c * 16 + stackOfCore c) else none
  | .curator t => some t
  | _ => none

/-- A die, numbered over the domain. -/
def dieKey (c : Nat) : Nat := pkgOf c * 8 + dieOf c

/-- The stack instance: the tile cores of a die, with the memory cores and curators of its two stacks. -/
def inStackScope (die : Nat) (b : Agent) : Bool :=
  b.tile?.any (dieKey · == die) || b.stack?.any (· / 2 == die)

/-- The instances of the scopes from pkg on, which depend on the package alone. -/
def inWideScope (scope p : Nat) (b : Agent) : Bool :=
  match scope with
  | 7 => b.pkg == some p && !b.isHost
  | 8 => b.pkg == some p
  | 9 => b.pkg.any fun q => podOf q == podOf p
  | 10 => b.pkg.isSome
  | _ => true

/-- The core that leads a thread's gang, with the thread's launch: the thread's own when it is alone. -/
def State.gangHead (s : State) (k : Nat) : Nat :=
  match s.getThread k with
  | some c => match c.gang.role with
    | .follower l _ => c.info.num * 2 ^ 23 + l
    | _ => k
  | none => k

/-- The instance of a tile core's thread, from core to stack. -/
def State.inTileScope (s : State) (scope k : Nat) (b : Agent) : Bool :=
  let c := threadCore k
  match scope with
  | 0 => b == .thread k
  | 1 => b.thread? == some k
  | 2 => b.thread?.any fun j => s.gangHead j == s.gangHead k
  | 3 => b.tile?.any fun d => dieKey d == dieKey c && clusterOf d == clusterOf c
  | 4 => b.tile?.any fun d => dieKey d == dieKey c && quadOf d == quadOf c
  | 5 => b.tile?.any (dieKey · == dieKey c)
  | _ => inStackScope (dieKey c) b

/-- The instance of a memory core's thread, from core to stack. -/
def inMemScope (scope k : Nat) (b : Agent) : Bool :=
  let t := pkgOf (threadCore k) * 16 + stackOfCore (threadCore k)
  match scope with
  | 0 => b == .thread k
  | 1 | 2 | 3 | 4 => b.thread? == some k
  | 5 => b.stack? == some t
  | _ => inStackScope (t / 2) b

/-- Does agent `b` lie in agent `a`'s instance of a scope (R230)? -/
def State.inScope (s : State) (scope : Nat) (a b : Agent) : Bool :=
  match a with
  | .thread k | .engine k =>
    if 7 ≤ scope then inWideScope scope (pkgOf (threadCore k)) b
    else if isMemCore (threadCore k) then inMemScope scope k b
    else s.inTileScope scope k b
  | .curator t =>
    if 7 ≤ scope then inWideScope scope (t / 16) b
    else if scope = 6 then inStackScope (t / 2) b
    else b.stack? == some t
  | .registrar p => if 7 ≤ scope then inWideScope scope p b else b == a
  | .host p => inWideScope (max 8 scope) p b
  | .beyond => decide (11 ≤ scope)

/-- Does each of a release at one scope and an acquire at another lie in the other's instance (R235)? -/
def State.scopesMeet (s : State) (a : Agent) (sa : Nat) (b : Agent) (sb : Nat) : Bool :=
  s.inScope sa a b && s.inScope sb b a

/-- Numbers joined to a list, each once. -/
def joinIds (xs ys : List Nat) : List Nat := xs.filter (!ys.contains ·) ++ ys

/-! ## Acquiring (R235, R236) -/

/-- The agent that the core in focus runs. -/
def State.agent (s : State) : Agent := .thread s.core.thread

/-- What the releases among `caught` publish to the thread in focus by an acquire at a scope (R235, R236). -/
def State.acquired (s : State) (scope : Nat) (caught : List Nat) : List Nat :=
  (s.order.rels.filter fun (r : Release) =>
    caught.contains r.id && s.scopesMeet r.writer r.scope s.agent scope).flatMap (·.pub)

/-! ## Words that other agents write into a local store (R289, R405) -/

/-- The scope domain (R230). -/
abbrev scopeDomain : Nat := 0xA

/-- A word written into a thread's store enters the releases. -/
def State.wordRelease (s : State) (w : Agent) (scope : Nat) (pub : List Nat) (x : LocalWord) : State :=
  let o := s.order
  let r : Release := { id := o.next, writer := w, scope := scope, span := { lo := 0, len := 0 }, pub := pub, word := some x }
  { s with order := { o with rels := r :: o.rels, next := o.next + 1 } }

/-- The releases whose words a local read of `n` bytes from `a` up by the thread in focus covers: while the store holds a
word's bytes, its read counts as one of that write (DESIGN CHOICE, notes/assumptions/69.md). -/
def State.wordsAt (s : State) (a n : Nat) : List Release :=
  s.order.rels.filter fun (r : Release) => match r.word with
    | some x => x.thread == s.core.thread && decide (a ≤ x.addr) && decide (x.addr + x.bytes.length ≤ a + n) &&
        s.mem.bytes (s.core.localKey x.addr) x.bytes.length == x.bytes
    | none => false

/-- A local read has been performed: the completion words of other cores' copies that it covers are acquired, at the scope
of their release; any other word waits for a `fence.acq` (R238, R289, R405). -/
def State.heard (s : State) (a n : Nat) : State :=
  let rs := s.wordsAt a n
  let now := rs.filter fun (r : Release) => r.writer.thread?.isSome
  s.on fun c => { c with view := { c.view with
    seen := joinIds (s.acquired scopeDomain (now.map (·.id))) c.view.seen
    caught := joinIds (rs.map (·.id)) c.view.caught } }

end Sys2Proof.Machine
end

