-- ==== Sys2Proof/Machine/Number.lean ====
section
/-!
DEFINITION. Sys2Proof/Machine/Number.lean: number formats, exact values, `RoundToFormat` with its flags, stochastic
rounding and the block scale (R35 to R53), over exact arithmetic: a magnitude is a quotient or a square root of
integers scaled by a power of two, and is rounded once.
-/

namespace Sys2Proof.Machine

/-! ## Exact values -/

/-- A floating-point value as read from a code (R37): a NaN, an infinity, or sign and `mant * 2 ^ exp`. -/
inductive FVal where
  | nan (signalling : Bool)
  | inf (neg : Bool)
  | fin (neg : Bool) (mant : Nat) (exp : Int)
deriving DecidableEq, Repr

/-- An exact magnitude: `n / d * 2 ^ e`, or the square root of `n * 2 ^ e`. -/
inductive Mag where
  | ratio (n d : Nat) (e : Int)
  | root (n : Nat) (e : Int)
deriving DecidableEq, Repr

/-- The exact result of an operation, before it is rounded. -/
inductive XVal where
  | nan
  | inf (neg : Bool)
  | fin (neg : Bool) (m : Mag)
deriving DecidableEq, Repr

/-- `x * 2 ^ k` for a `k` of either sign, as numerator and denominator. -/
def scale2 (x : Nat) (k : Int) : Nat × Nat := (x * 2 ^ k.toNat, 2 ^ (-k).toNat)

/-- The integer square root by bits, from bit `k - 1` down. -/
def isqrtBits (n : Nat) : Nat → Nat → Nat
  | 0, r => r
  | k + 1, r => isqrtBits n k (if (r + 2 ^ k) * (r + 2 ^ k) ≤ n then r + 2 ^ k else r)

/-- ⌊√n⌋. -/
def isqrt (n : Nat) : Nat := isqrtBits n (Nat.log2 n / 2 + 1) 0

/-- ⌊m × 2^k⌋, and whether anything was cut off. -/
def Mag.floorAt (m : Mag) (k : Int) : Nat × Bool :=
  match m with
  | .ratio n d e =>
    let (a, b) := scale2 n (e + k)
    (a / (b * d), a % (b * d) != 0)
  | .root n e =>
    let (a, b) := scale2 n (e + 2 * k)
    let r := isqrt (a / b)
    (r, r * r * b != a)

/-- Is the magnitude zero? -/
def Mag.isZero : Mag → Bool
  | .ratio n _ _ => n == 0
  | .root n _ => n == 0

/-- ⌊log₂ m⌋ of a magnitude that is not zero (`E(y)` of R51). -/
def Mag.log2 : Mag → Int
  | .ratio n d e =>
    let l : Int := (Nat.log2 n : Int) - Nat.log2 d
    let (a, b) := scale2 n (-l)
    (if d * b ≤ a then l else l - 1) + e
  | .root n e => ((Nat.log2 n : Int) + e) / 2

/-! ## Formats -/

/-- A floating-point format: field widths, bias, and whether the top exponent code is read with special values
(R37, R38). -/
structure Fmt where
  e : Nat
  m : Nat
  bias : Nat
  special : Bool
deriving DecidableEq, Repr

/-- Bits of a code. -/
def Fmt.width (f : Fmt) : Nat := 1 + f.e + f.m

/-- The formats of R38 by the code of R17; the narrow ones are read as TOPX selects. Codes above 0x8 do not occur. -/
def fmtOf (code : Nat) (topx : Bool) : Fmt :=
  match code with
  | 0 => { e := 11, m := 52, bias := 1023, special := true }
  | 1 => { e := 8, m := 23, bias := 127, special := true }
  | 2 => { e := 8, m := 7, bias := 127, special := true }
  | 3 => { e := 5, m := 10, bias := 15, special := true }
  | 4 => { e := 4, m := 3, bias := 7, special := !topx }
  | 5 => { e := 5, m := 2, bias := 15, special := !topx }
  | 6 => { e := 2, m := 3, bias := 1, special := !topx }
  | 7 => { e := 3, m := 2, bias := 3, special := !topx }
  | _ => { e := 2, m := 1, bias := 1, special := !topx }

/-- FP64. -/
abbrev fp64 : Fmt := fmtOf 0 false
/-- FP32. -/
abbrev fp32 : Fmt := fmtOf 1 false
/-- BF16. -/
abbrev bf16 : Fmt := fmtOf 2 false
/-- FP16. -/
abbrev fp16 : Fmt := fmtOf 3 false

/-- The exponent of the subnormal grid: 1 - B - M. -/
def Fmt.umin (f : Fmt) : Int := 1 - (f.bias : Int) - f.m

/-- The code of the largest finite magnitude (R38). -/
def Fmt.maxCode (f : Fmt) : Nat :=
  if f.special then (2 ^ f.e - 1) * 2 ^ f.m - 1 else 2 ^ (f.e + f.m) - 1

/-- The sign bit in place. -/
def Fmt.signed (f : Fmt) (neg : Bool) (c : Nat) : Nat := if neg then 2 ^ (f.e + f.m) + c else c

/-- The code of an infinity (R41). -/
def Fmt.infCode (f : Fmt) (neg : Bool) : Nat := f.signed neg ((2 ^ f.e - 1) * 2 ^ f.m)

/-- The canonical quiet NaN (R41). -/
def Fmt.nanCode (f : Fmt) : Nat := (2 ^ f.e - 1) * 2 ^ f.m + 2 ^ (f.m - 1)

/-- The value of a code (R37). -/
def Fmt.decode (f : Fmt) (c : Nat) : FVal :=
  let neg := decide (c / 2 ^ (f.e + f.m) % 2 = 1)
  let e := c / 2 ^ f.m % 2 ^ f.e
  let m := c % 2 ^ f.m
  if e = 0 then .fin neg m f.umin
  else if e = 2 ^ f.e - 1 ∧ f.special then
    if m = 0 then .inf neg else .nan (decide (m < 2 ^ (f.m - 1)))
  else .fin neg (2 ^ f.m + m) (f.umin + e - 1)

/-- The exact value times 2^k. -/
def FVal.scaled (x : FVal) (k : Int) : FVal :=
  match x with
  | .fin s m e => .fin s m (e + k)
  | y => y

/-! ## Flags (R14) -/

/-- NV. -/
abbrev flagNV : BitVec 6 := 1
/-- DZ. -/
abbrev flagDZ : BitVec 6 := 2
/-- OF. -/
abbrev flagOF : BitVec 6 := 4
/-- UF. -/
abbrev flagUF : BitVec 6 := 8
/-- NX. -/
abbrev flagNX : BitVec 6 := 16
/-- SCLAMP. -/
abbrev flagSCLAMP : BitVec 6 := 32

/-- A flag or none. -/
def flagIf (b : Bool) (f : BitVec 6) : BitVec 6 := if b then f else 0

/-! ## Rounding modes (R43) -/

/-- RNE. -/
abbrev rmRNE : BitVec 3 := 0
/-- RTZ. -/
abbrev rmRTZ : BitVec 3 := 1
/-- RUP. -/
abbrev rmRUP : BitVec 3 := 2
/-- RDN. -/
abbrev rmRDN : BitVec 3 := 3
/-- SR. -/
abbrev rmSR : BitVec 3 := 4

/-- Does rounding go up to the neighbour farther from zero? `q` is the magnitude in units of 2^-34 of the grid, cut
off; `sticky` says that something was cut; `draw` is the draw of R47. -/
def roundsUp (rm : BitVec 3) (neg : Bool) (draw : Nat) (q : Nat) (sticky : Bool) : Bool :=
  let frac := q % 2 ^ 34
  let inexact := frac != 0 || sticky
  match rm.toNat with
  | 0 => decide (2 ^ 33 < frac) || (frac == 2 ^ 33 && (sticky || q / 2 ^ 34 % 2 == 1))
  | 1 => false
  | 2 => inexact && !neg
  | 3 => inexact && neg
  | _ => inexact && decide (2 ^ 32 - frac / 4 ≤ draw)

/-- A magnitude rounded to the grid 2^u: the integer in units of it, and whether the value changed. -/
def Mag.roundAt (m : Mag) (u : Int) (rm : BitVec 3) (neg : Bool) (draw : Nat) : Nat × Bool :=
  let (q, st) := m.floorAt (34 - u)
  (q / 2 ^ 34 + (roundsUp rm neg draw q st).toNat, q % 2 ^ 34 != 0 || st)

/-- The code that an overflow gives (R42, R44 step 3). -/
def Fmt.overflow (f : Fmt) (rm : BitVec 3) (neg : Bool) : Nat :=
  if !f.special then f.signed neg f.maxCode
  else match rm.toNat with
    | 1 => f.signed neg f.maxCode
    | 2 => if neg then f.signed neg f.maxCode else f.infCode neg
    | 3 => if neg then f.infCode neg else f.signed neg f.maxCode
    | _ => f.infCode neg

/-- `RoundToFormat` of R44, with the draw that mode SR takes: the code and the flags. -/
def Fmt.round (f : Fmt) (rm : BitVec 3) (draw : Nat) (x : XVal) : Nat × BitVec 6 :=
  match x with
  | .nan => if f.special then (f.nanCode, 0) else (0, flagNV)
  | .inf neg => if f.special then (f.infCode neg, 0) else (f.signed neg f.maxCode, flagOF ||| flagNX)
  | .fin neg m =>
    if m.isZero then (f.signed neg 0, 0)
    else
      let u := max (m.log2 - f.m) f.umin
      let (a, inexact) := m.roundAt u rm neg draw
      let code := (u - f.umin).toNat * 2 ^ f.m + a
      if f.maxCode < code then (f.overflow rm neg, flagOF ||| flagNX)
      else (f.signed neg code, flagIf inexact flagNX ||| flagIf (inexact && decide (code < 2 ^ f.m)) flagUF)

/-! ## Exact operations (R41, R45) -/

/-- An exact result and the flags the operation itself raises. -/
abbrev XRes := XVal × BitVec 6

/-- The value itself: a NaN operand gives a NaN, with NV when it is signalling (R41). -/
def FVal.exact : FVal → XRes
  | .nan s => (.nan, flagIf s flagNV)
  | .inf n => (.inf n, 0)
  | .fin n m e => (.fin n (.ratio m 1 e), 0)

/-- The sign inverted. -/
def FVal.neg : FVal → FVal
  | .nan s => .nan s
  | .inf n => .inf (!n)
  | .fin n m e => .fin (!n) m e

/-- Is it a signalling NaN? -/
def FVal.isSNaN : FVal → Bool
  | .nan s => s
  | _ => false

/-- Is it a NaN? -/
def FVal.isNaN : FVal → Bool
  | .nan _ => true
  | _ => false

/-- Is it an infinity? -/
def FVal.isInf : FVal → Bool
  | .inf _ => true
  | _ => false

/-- Is it a zero? -/
def FVal.isZero : FVal → Bool
  | .fin _ m _ => m == 0
  | _ => false

/-- The sign. -/
def FVal.isNeg : FVal → Bool
  | .nan _ => false
  | .inf n => n
  | .fin n _ _ => n

/-- The finite value as an integer in units of 2^u, for `u` at most its exponent; 0 for the others. -/
def FVal.intAt (x : FVal) (u : Int) : Int :=
  match x with
  | .fin n m e => (if n then -1 else 1) * ((m * 2 ^ (e - u).toNat : Nat) : Int)
  | _ => 0

/-- The exponent of a finite value. -/
def FVal.expo : FVal → Int
  | .fin _ _ e => e
  | _ => 0

/-- An exact sum of finite terms as a result: a zero takes the sign of R45. -/
def sumResult (ts : List FVal) (rm : BitVec 3) : XVal :=
  let u : Int := ts.foldl (fun (a : Int) (t : FVal) => min a t.expo) 0
  let n : Int := ts.foldl (fun (a : Int) (t : FVal) => a + t.intAt u) 0
  if n = 0 then
    let neg := ts.all (fun t => t.isZero && t.isNeg) || (!(ts.all fun t => t.isZero && !t.isNeg) && rm == rmRDN)
    .fin neg (.ratio 0 1 0)
  else .fin (decide (n < 0)) (.ratio n.natAbs 1 u)

/-- An exact sum of terms: NaNs, then infinities of both signs, then infinities, then the finite sum (R45, R56). A quiet
NaN beside infinities of both signs raises no NV, which the spec leaves open (DESIGN CHOICE, notes/assumptions/20.md). -/
def sumX (ts : List FVal) (rm : BitVec 3) : XRes :=
  if ts.any FVal.isNaN then (.nan, flagIf (ts.any FVal.isSNaN) flagNV)
  else if (ts.any fun t => t.isInf && t.isNeg) && (ts.any fun t => t.isInf && !t.isNeg) then (.nan, flagNV)
  else if ts.any FVal.isInf then (.inf (ts.any fun t => t.isInf && t.isNeg), 0)
  else (sumResult ts rm, 0)

/-- Is the product 0 × ∞? -/
def invalidProduct (a b : FVal) : Bool := (a.isZero && b.isInf) || (a.isInf && b.isZero)

/-- An exact product; 0 × ∞ gives a NaN, which `invalidProduct` tells apart. -/
def mulF (a b : FVal) : FVal :=
  match a, b with
  | .nan s, .nan t => .nan (s || t)
  | .nan s, _ => .nan s
  | _, .nan t => .nan t
  | .inf n, .fin p m _ => if m = 0 then .nan true else .inf (n != p)
  | .fin p m _, .inf n => if m = 0 then .nan true else .inf (n != p)
  | .inf n, .inf p => .inf (n != p)
  | .fin n m e, .fin p k f => .fin (n != p) (m * k) (e + f)

/-- a × b. -/
def mulX (a b : FVal) : XRes := (mulF a b).exact

/-- a / b (R45). -/
def divX (a b : FVal) : XRes :=
  match a, b with
  | .nan s, y => (.nan, flagIf (s || y.isSNaN) flagNV)
  | x, .nan t => (.nan, flagIf (x.isSNaN || t) flagNV)
  | .inf _, .inf _ => (.nan, flagNV)
  | .inf n, .fin p _ _ => (.inf (n != p), 0)
  | .fin n _ _, .inf p => (.fin (n != p) (.ratio 0 1 0), 0)
  | .fin n m e, .fin p k f =>
    if k = 0 then (if m = 0 then (.nan, flagNV) else (.inf (n != p), flagDZ))
    else (.fin (n != p) (.ratio m k (e - f)), 0)

/-- √a (R45, R128). -/
def sqrtX (a : FVal) : XRes :=
  match a with
  | .nan s => (.nan, flagIf s flagNV)
  | .inf true => (.nan, flagNV)
  | .inf false => (.inf false, 0)
  | .fin n m e =>
    if m = 0 then (.fin n (.ratio 0 1 0), 0)
    else if n then (.nan, flagNV)
    else (.fin false (.root m e), 0)

/-- a × b + c (R131): 0 × ∞ is invalid whatever c holds. -/
def fmaX (a b c : FVal) (rm : BitVec 3) : XRes :=
  if invalidProduct a b then (.nan, flagNV) else sumX [mulF a b, c] rm

/-- An integer as an exact value. -/
def intX (n : Int) : XVal := .fin (decide (n < 0)) (.ratio n.natAbs 1 0)

/-- Is a < b, for values that are no NaN; the zeros are equal. -/
def FVal.lt (a b : FVal) : Bool :=
  match a, b with
  | .inf n, .inf p => n && !p
  | .inf n, _ => n
  | _, .inf p => !p
  | x, y => let u := min x.expo y.expo; decide (x.intAt u < y.intAt u)

/-- Is a = b, for values that are no NaN; the zeros are equal. -/
def FVal.same (a b : FVal) : Bool := !a.lt b && !b.lt a

/-! ## The generator and a run of roundings (R47 to R49) -/

/-- `SRDraw` of R48: the draw and the new state. -/
def srDraw (s : Word) : BitVec 32 × Word :=
  let s0 := if s = 0 then 0x9E3779B97F4A7C15 else s
  let s1 := s0 ^^^ (s0 <<< 13)
  let s2 := s1 ^^^ (s1 >>> 7)
  let s3 := s2 ^^^ (s2 <<< 17)
  (s3.extractLsb' 32 32, s3)

/-- What an instruction that rounds carries along: the generator and the flags raised so far. -/
structure Rnd where
  seed : Word
  flags : BitVec 6
deriving DecidableEq, Repr

/-- A draw that mode SR takes; another mode takes none. -/
def Rnd.draw (r : Rnd) (rm : BitVec 3) : Nat × Rnd :=
  if rm = rmSR then ((srDraw r.seed).1.toNat, { r with seed := (srDraw r.seed).2 }) else (0, r)

/-- Flags raised. -/
def Rnd.raise (r : Rnd) (f : BitVec 6) : Rnd := { r with flags := r.flags ||| f }

/-- One evaluation of `RoundToFormat` (R44, R47): it takes its draw, and its flags and those of the operation are
raised. -/
def Rnd.round (r : Rnd) (f : Fmt) (rm : BitVec 3) (x : XRes) : Nat × Rnd :=
  let (d, r1) := r.draw rm
  let (c, fl) := f.round rm d x.1
  (c, r1.raise (x.2 ||| fl))

/-! ## Conversion to an integer type (R36) -/

/-- The lowest and highest value of an integer type. -/
def intRange (signed : Bool) (w : Nat) : Int × Int :=
  if signed then (-(2 ^ (w - 1) : Nat), (2 ^ (w - 1) : Nat) - 1) else (0, (2 ^ w : Nat) - 1)

/-- A value converted to an integer type of `w` bits (R36), under a rounding mode and its draw. -/
def toInt (signed : Bool) (w : Nat) (rm : BitVec 3) (draw : Nat) (x : FVal) : Nat × BitVec 6 :=
  let (lo, hi) := intRange signed w
  let code := fun (n : Int) => (n % (2 ^ w : Nat)).toNat
  match x with
  | .nan _ => (0, flagNV)
  | .inf neg => (code (if neg then lo else hi), flagNV)
  | .fin neg m e =>
    let (a, inexact) := (Mag.ratio m 1 e).roundAt 0 rm neg draw
    let n : Int := if neg then -(a : Int) else a
    if n < lo then (code lo, flagNV)
    else if hi < n then (code hi, flagNV)
    else (code n, flagIf inexact flagNX)

/-! ## Block scales (R50, R51) -/

/-- The exponent an E8M0 code stands for; 0xFF, the E8M0 NaN, is told apart by its user (R50). -/
def e8m0 (c : Nat) : Int := (c : Int) - 127

/-- A narrow element under its block scale (R50). -/
def mxDecode (f : Fmt) (c : Nat) (scale : Nat) : FVal :=
  if scale = 255 then .nan false else (f.decode c).scaled (e8m0 scale)

/-- `EMax` of R51: the exponent of the largest finite magnitude. -/
def Fmt.emax (f : Fmt) : Int := (if f.special then 2 ^ f.e - 2 else 2 ^ f.e - 1 : Nat) - (f.bias : Int)

/-- The largest magnitude among values, as mantissa and exponent. -/
def maxAbs : List FVal → FVal
  | [] => .fin false 0 0
  | x :: r =>
    let y := maxAbs r
    let x' := if x.isNeg then x.neg else x
    if y.lt x' then x' else y

/-- The elements of a block under its exponent `e` (the loop of R51). -/
def mxElems (f : Fmt) (e : Int) (rm : BitVec 3) : List FVal → Rnd → List Nat × Rnd
  | [], r => ([], r)
  | x :: xs, r =>
    let y := x.scaled (-e)
    let a := if y.isNeg then y.neg else y
    let (q, r1) :=
      if (f.decode f.maxCode).lt a then (f.signed y.isNeg f.maxCode, (r.draw rm).2.raise flagNX)
      else r.round f rm y.exact
    let (qs, r2) := mxElems f e rm xs r1
    (q :: qs, r2)

/-- `MXScale` of R51: the scale code and the element codes. -/
def mxScale (f : Fmt) (rm : BitVec 3) (vs : List FVal) (r : Rnd) : Nat × List Nat × Rnd :=
  if vs.any (fun v => v.isNaN || v.isInf) then (255, vs.map (fun _ => 0), r.raise flagNV)
  else
    match maxAbs vs with
    | .fin _ m x =>
      if m = 0 then (0, vs.map (fun _ => 0), r)
      else
        let e := (Mag.ratio m 1 x).log2 - f.emax
        if e < -127 then
          let (q, r1) := mxElems f (-127) rmRNE vs (r.raise flagSCLAMP)
          (0, q, r1)
        else
          let (q, r1) := mxElems f e rm vs r
          ((e + 127).toNat, q, r1)
    | _ => (255, vs.map (fun _ => 0), r.raise flagNV)

/-! ## Codebook weights (R52, R53) -/

/-- `CbWeight` of R53 before its scale: weight `j` of an index, from the 2 KiB table `row * 8 + k ↦ byte`. -/
def cbWeight (table : Nat → Byte) (topx : Bool) (index j : Nat) : FVal :=
  let k := if index % 2 = 1 then 7 - j else j
  let mag := (fmtOf 4 topx).decode ((table (8 * (index / 256 % 256) + k)).toNat % 128)
  let par := (List.range 7).foldl (fun a i => a + index / 2 ^ (i + 1) % 2) 0 % 2
  let neg := if j < 7 then decide (index / 2 ^ (j + 1) % 2 = 1) else decide (par = 1)
  match mag with
  | .nan s => .nan s
  | .inf _ => .inf neg
  | .fin _ m e => .fin neg m e

/-! ## Packed narrow elements (R40) -/

/-- Element `i` of an array of `w`-bit codes held in a number: narrow codes lie at bit `w * i` (R40). -/
def codeAt (x w i : Nat) : Nat := bitsAt x (w * i) w

/-- Codes of `w` bits laid side by side, the first lowest (R40). -/
def packCodes (w : Nat) : List Nat → Nat
  | [] => 0
  | c :: cs => c % 2 ^ w + 2 ^ w * packCodes w cs

/-! ## The reduction tree (R57) -/

/-- One level of the tree: neighbours added and rounded, from left to right. -/
def treeLevel (f : Fmt) (rm : BitVec 3) : List FVal → Rnd → List FVal × Rnd
  | a :: b :: r, x =>
    let (c, x1) := x.round f rm (sumX [a, b] rm)
    let (cs, x2) := treeLevel f rm r x1
    (f.decode c :: cs, x2)
  | l, x => (l, x)

/-- The levels of the tree, `k` of them. -/
def treeLevels (f : Fmt) (rm : BitVec 3) : Nat → List FVal → Rnd → List FVal × Rnd
  | 0, l, x => (l, x)
  | k + 1, l, x =>
    let (l1, x1) := treeLevel f rm l x
    treeLevels f rm k l1 x1

end Sys2Proof.Machine
end

