-- ==== Sys2Proof/Machine/Operands.lean ====
section
/-!
DEFINITION. Sys2Proof/Machine/Operands.lean: the operand forms: immediates and their extension (R60, R62), local
addresses (R101, R139, R141), branch targets (R62), the off-core address (R75), and the elements of vector registers
with their masks (R122, R123).
-/

namespace Sys2Proof.Machine

/-! ## Immediates and addresses -/

/-- A sign-extended immediate (R60). -/
def immS {n : Nat} (i : BitVec n) : Word := i.signExtend 64

/-- A zero-extended immediate (R62). -/
def immZ {n : Nat} (i : BitVec n) : Word := i.setWidth 64

/-- The addend of `limh`: imm16 in bits 31:16, sign-extended from bit 31 (R62). -/
def immHigh (i : BitVec 16) : Word := (i ++ (0 : BitVec 16)).signExtend 64

/-- The address of an I-format local access (R101, R102). -/
def State.addrI (s : State) (a : BitVec 5) (i : BitVec 16) : Nat := (s.g a + immS i).toNat

/-- The address of an M-format vector access, its offset scaled by 64 (R139). -/
def State.addrM (s : State) (a : BitVec 5) (o : BitVec 13) : Nat := (s.g a + 64 * immS o).toNat

/-- The off-core virtual address of LDX and STX (R75). -/
def State.addrX (s : State) (a b : BitVec 5) : Word := s.g a + s.g b

/-- A branch target pc + 4 × offset, as an unbounded integer (R62). -/
def branchTarget {n : Nat} (pc : LAddr) (o : BitVec n) : Int := pc.toNat + 4 * o.toInt

/-- The check of a taken branch's target (R62). -/
def targetCheck (t : Int) : Option Trap :=
  if t < 0 ∨ 0x17FFFC < t then some (Cause.localBounds, (wrap64 t).toNat) else none

/-- The pc of a checked target. -/
def targetPc (t : Int) : LAddr := BitVec.ofInt 21 t

/-! ## Elements (R122, R123) -/

/-- The width in bits of a width code (R70). -/
def widthOf (w : BitVec 2) : Nat := 8 * 2 ^ w.toNat

/-- el(x, i) of R122. -/
def el (x : VReg) (w i : Nat) : Nat := bitsAt x.toNat (w * i) w

/-- The `n`-bit number read as two's complement (`SignExtend` of R33). -/
def sext (x n : Nat) : Int := if x % 2 ^ n < 2 ^ (n - 1) then (x % 2 ^ n : Nat) else (x % 2 ^ n : Nat) - (2 ^ n : Nat)

/-- `Wrap(x, n)` of R33. -/
def wrapN (x : Int) (n : Nat) : Nat := (x % (2 ^ n : Nat)).toNat

/-- sel(x, i) of R122. -/
def sel (x : VReg) (w i : Nat) : Int := sext (el x w i) w

/-- Is element `i` of width `w` active under a mask (R10, R123)? -/
def active (mask : Word) (w i : Nat) : Bool := mask.toNat.testBit (w * i / 8)

/-- A register from its elements of width `w`, the first lowest. -/
def ofEls (w : Nat) (xs : List Nat) : VReg := BitVec.ofNat 512 (packCodes w xs)

/-- The elements of a register. -/
def elsOf (x : VReg) (w : Nat) : List Nat := (List.range (512 / w)).map (el x w)

/-- A register whose active elements are `f i`, the others as they were (R123). -/
def mapEls (old : VReg) (mask : Word) (w : Nat) (f : Nat → Nat) : VReg :=
  ofEls w ((List.range (512 / w)).map fun i => if active mask w i then f i else el old w i)

/-- The 64 bytes of a register, lane 0 first (R9). -/
def lanes (x : VReg) : List Byte := natLe 64 x.toNat

/-- A register from its 64 bytes. -/
def ofLanes (xs : List Byte) : VReg := BitVec.ofNat 512 (leNat xs)

end Sys2Proof.Machine
end

