-- ==== Sys2Proof/Machine/Flags.lean ====
section
/-!
DEFINITION. Sys2Proof/Machine/Flags.lean: how an instruction's flags reach FSTAT and its draws SRSEED (R14, R46, R49),
the dynamic rounding mode (R13, R124), and the tests and flags of the comparisons (R132).
-/

namespace Sys2Proof.Machine

/-- The rounding in force for VFLT and VFMA: STATUS.RM (R124). -/
def State.rm (s : State) : BitVec 3 := s.core.ctl.status.rm

/-- What an instruction that rounds starts with: the generator, no flag. -/
def State.rnd (s : State) : Rnd := { seed := s.core.ctl.srseed, flags := 0 }

/-- The draws and flags of an instruction land in SRSEED and FSTAT in one step (R46, R49). -/
def State.putRnd (s : State) (r : Rnd) : State :=
  s.on (·.modCtl fun k => { k with srseed := r.seed, fstat := k.fstat ||| r.flags })

/-- A rounding field of VCVT: DYN is the mode in STATUS.RM (R43). -/
def State.rmField (s : State) (r : BitVec 3) : BitVec 3 := if r = 7 then s.rm else r

/-- The conditions of VCMP (R132). -/
inductive Cond where
  | eq
  | ne
  | lt
  | le
  | gt
  | ge
  | un
deriving DecidableEq, Repr

/-- A test of integers (R132). -/
def Cond.int (c : Cond) (a b : Int) : Bool :=
  match c with
  | .eq => decide (a = b)
  | .ne => decide (a ≠ b)
  | .lt => decide (a < b)
  | .le => decide (a ≤ b)
  | .gt => decide (b < a)
  | .ge => decide (b ≤ a)
  | .un => false

/-- A test of floating-point values: with a NaN only `ne` and `un` hold (R132). -/
def Cond.float (c : Cond) (a b : FVal) : Bool :=
  if a.isNaN || b.isNaN then
    match c with
    | .ne | .un => true
    | _ => false
  else
    match c with
    | .eq => a.same b
    | .ne => !a.same b
    | .lt => a.lt b
    | .le => !b.lt a
    | .gt => b.lt a
    | .ge => !a.lt b
    | .un => false

/-- The flag of a test of floating-point values (R132). -/
def Cond.flag (c : Cond) (a b : FVal) : BitVec 6 :=
  match c with
  | .eq | .ne | .un => flagIf (a.isSNaN || b.isSNaN) flagNV
  | _ => flagIf (a.isNaN || b.isNaN) flagNV

end Sys2Proof.Machine
end

