-- ==== Sys2Proof/Machine/IntOps.lean ====
section
/-!
DEFINITION. Sys2Proof/Machine/IntOps.lean: INT, the immediate majors, SHIFTI, MULDIV, BITS and ADDR (R94 to R100).
Each meaning writes the value the table of its rule gives and goes on to the next instruction.
-/

namespace Sys2Proof.Machine

/-- An instruction that writes one g register and goes on. -/
def State.result (s : State) (d : BitVec 5) (x : Word) : Out := .next (s.setG d x).adv

/-- 1 or 0. -/
def bit1 (b : Bool) : Word := if b then 1 else 0

/-- A sign-extended 32-bit result. -/
def sx32 (x : BitVec 32) : Word := x.signExtend 64

/-- The low 32 bits. -/
def lo32 (x : Word) : BitVec 32 := x.setWidth 32

/-- An integer held to the signed range of 64 bits (R35). -/
def sat64 (x : Int) : Word := wrap64 (max (-2 ^ 63) (min (2 ^ 63 - 1) x))

/-! ## INT (R94) -/

/-- `add`. -/
def execAdd (d a b : BitVec 5) (s : State) : Out := s.result d (s.g a + s.g b)
/-- `sub`. -/
def execSub (d a b : BitVec 5) (s : State) : Out := s.result d (s.g a - s.g b)
/-- `and`. -/
def execAnd (d a b : BitVec 5) (s : State) : Out := s.result d (s.g a &&& s.g b)
/-- `or`. -/
def execOr (d a b : BitVec 5) (s : State) : Out := s.result d (s.g a ||| s.g b)
/-- `xor`. -/
def execXor (d a b : BitVec 5) (s : State) : Out := s.result d (s.g a ^^^ s.g b)
/-- `andn`. -/
def execAndn (d a b : BitVec 5) (s : State) : Out := s.result d (s.g a &&& ~~~s.g b)
/-- `orn`. -/
def execOrn (d a b : BitVec 5) (s : State) : Out := s.result d (s.g a ||| ~~~s.g b)
/-- `xnor`. -/
def execXnor (d a b : BitVec 5) (s : State) : Out := s.result d (~~~(s.g a ^^^ s.g b))
/-- `sll`. -/
def execSll (d a b : BitVec 5) (s : State) : Out := s.result d (s.g a <<< ((s.g b).toNat % 64))
/-- `srl`. -/
def execSrl (d a b : BitVec 5) (s : State) : Out := s.result d (s.g a >>> ((s.g b).toNat % 64))
/-- `sra`: toward −∞. -/
def execSra (d a b : BitVec 5) (s : State) : Out := s.result d ((s.g a).sshiftRight ((s.g b).toNat % 64))
/-- `rol`. -/
def execRol (d a b : BitVec 5) (s : State) : Out := s.result d ((s.g a).rotateLeft ((s.g b).toNat % 64))
/-- `ror`. -/
def execRor (d a b : BitVec 5) (s : State) : Out := s.result d ((s.g a).rotateRight ((s.g b).toNat % 64))
/-- `slt`. -/
def execSlt (d a b : BitVec 5) (s : State) : Out := s.result d (bit1 ((s.g a).slt (s.g b)))
/-- `sltz`. -/
def execSltz (d a b : BitVec 5) (s : State) : Out := s.result d (bit1 ((s.g a).ult (s.g b)))
/-- `min`. -/
def execMin (d a b : BitVec 5) (s : State) : Out := s.result d (if (s.g a).slt (s.g b) then s.g a else s.g b)
/-- `max`. -/
def execMax (d a b : BitVec 5) (s : State) : Out := s.result d (if (s.g a).slt (s.g b) then s.g b else s.g a)
/-- `minz`. -/
def execMinz (d a b : BitVec 5) (s : State) : Out := s.result d (if (s.g a).ult (s.g b) then s.g a else s.g b)
/-- `maxz`. -/
def execMaxz (d a b : BitVec 5) (s : State) : Out := s.result d (if (s.g a).ult (s.g b) then s.g b else s.g a)
/-- `add.w`. -/
def execAddW (d a b : BitVec 5) (s : State) : Out := s.result d (sx32 (lo32 (s.g a) + lo32 (s.g b)))
/-- `sub.w`. -/
def execSubW (d a b : BitVec 5) (s : State) : Out := s.result d (sx32 (lo32 (s.g a) - lo32 (s.g b)))
/-- `sll.w`. -/
def execSllW (d a b : BitVec 5) (s : State) : Out := s.result d (sx32 (lo32 (s.g a) <<< ((s.g b).toNat % 32)))
/-- `srl.w`. -/
def execSrlW (d a b : BitVec 5) (s : State) : Out := s.result d (sx32 (lo32 (s.g a) >>> ((s.g b).toNat % 32)))
/-- `sra.w`. -/
def execSraW (d a b : BitVec 5) (s : State) : Out :=
  s.result d (sx32 ((lo32 (s.g a)).sshiftRight ((s.g b).toNat % 32)))
/-- `add.sat`. -/
def execAddSat (d a b : BitVec 5) (s : State) : Out := s.result d (sat64 ((s.g a).toInt + (s.g b).toInt))
/-- `sub.sat`. -/
def execSubSat (d a b : BitVec 5) (s : State) : Out := s.result d (sat64 ((s.g a).toInt - (s.g b).toInt))
/-- `seq`. -/
def execSeq (d a b : BitVec 5) (s : State) : Out := s.result d (bit1 (s.g a == s.g b))
/-- `sne`. -/
def execSne (d a b : BitVec 5) (s : State) : Out := s.result d (bit1 (s.g a != s.g b))

/-! ## The immediate majors (R95) -/

/-- `addi`. -/
def execAddi (d a : BitVec 5) (i : BitVec 16) (s : State) : Out := s.result d (s.g a + immS i)
/-- `andi`. -/
def execAndi (d a : BitVec 5) (i : BitVec 16) (s : State) : Out := s.result d (s.g a &&& immZ i)
/-- `ori`. -/
def execOri (d a : BitVec 5) (i : BitVec 16) (s : State) : Out := s.result d (s.g a ||| immZ i)
/-- `xori`. -/
def execXori (d a : BitVec 5) (i : BitVec 16) (s : State) : Out := s.result d (s.g a ^^^ immZ i)
/-- `limh`. -/
def execLimh (d a : BitVec 5) (i : BitVec 16) (s : State) : Out := s.result d (s.g a + immHigh i)
/-- `slti`. -/
def execSlti (d a : BitVec 5) (i : BitVec 16) (s : State) : Out := s.result d (bit1 ((s.g a).slt (immS i)))
/-- `sltiz`. -/
def execSltiz (d a : BitVec 5) (i : BitVec 16) (s : State) : Out := s.result d (bit1 ((s.g a).ult (immS i)))

/-! ## SHIFTI (R96) -/

/-- `slli`. -/
def execSlli (d a : BitVec 5) (n : BitVec 6) (s : State) : Out := s.result d (s.g a <<< n.toNat)
/-- `srli`. -/
def execSrli (d a : BitVec 5) (n : BitVec 6) (s : State) : Out := s.result d (s.g a >>> n.toNat)
/-- `srai`. -/
def execSrai (d a : BitVec 5) (n : BitVec 6) (s : State) : Out := s.result d ((s.g a).sshiftRight n.toNat)
/-- `rori`. -/
def execRori (d a : BitVec 5) (n : BitVec 6) (s : State) : Out := s.result d ((s.g a).rotateRight n.toNat)
/-- `slli.w`. -/
def execSlliW (d a : BitVec 5) (n : BitVec 6) (s : State) : Out := s.result d (sx32 (lo32 (s.g a) <<< (n.toNat % 32)))
/-- `srli.w`. -/
def execSrliW (d a : BitVec 5) (n : BitVec 6) (s : State) : Out := s.result d (sx32 (lo32 (s.g a) >>> (n.toNat % 32)))
/-- `srai.w`. -/
def execSraiW (d a : BitVec 5) (n : BitVec 6) (s : State) : Out :=
  s.result d (sx32 ((lo32 (s.g a)).sshiftRight (n.toNat % 32)))

/-! ## MULDIV (R97) -/

/-- The high 64 bits of a product, as an integer. -/
def highWord (x : Int) : Word := wrap64 (x / 2 ^ 64)

/-- The signed quotient of `div`: truncated, all ones for a zero divisor; −2^63 / −1 wraps to itself. -/
def divS {n : Nat} (a b : BitVec n) : BitVec n := if b = 0 then BitVec.allOnes n else a.sdiv b

/-- The unsigned quotient: all ones for a zero divisor. -/
def divU {n : Nat} (a b : BitVec n) : BitVec n := if b = 0 then BitVec.allOnes n else a / b

/-- The signed remainder, with the sign of the dividend: the dividend for a zero divisor. -/
def remS {n : Nat} (a b : BitVec n) : BitVec n := if b = 0 then a else a.srem b

/-- The unsigned remainder: the dividend for a zero divisor. -/
def remU {n : Nat} (a b : BitVec n) : BitVec n := if b = 0 then a else a % b

/-- `mul`. -/
def execMul (d a b : BitVec 5) (s : State) : Out := s.result d (s.g a * s.g b)
/-- `mulh`. -/
def execMulh (d a b : BitVec 5) (s : State) : Out := s.result d (highWord ((s.g a).toInt * (s.g b).toInt))
/-- `mulhz`. -/
def execMulhz (d a b : BitVec 5) (s : State) : Out := s.result d (highWord ((s.g a).toNat * (s.g b).toNat))
/-- `mulhsz`. -/
def execMulhsz (d a b : BitVec 5) (s : State) : Out := s.result d (highWord ((s.g a).toInt * (s.g b).toNat))
/-- `div`. -/
def execDiv (d a b : BitVec 5) (s : State) : Out := s.result d (divS (s.g a) (s.g b))
/-- `divz`. -/
def execDivz (d a b : BitVec 5) (s : State) : Out := s.result d (divU (s.g a) (s.g b))
/-- `rem`. -/
def execRem (d a b : BitVec 5) (s : State) : Out := s.result d (remS (s.g a) (s.g b))
/-- `remz`. -/
def execRemz (d a b : BitVec 5) (s : State) : Out := s.result d (remU (s.g a) (s.g b))
/-- `mul.w`. -/
def execMulW (d a b : BitVec 5) (s : State) : Out := s.result d (sx32 (lo32 (s.g a) * lo32 (s.g b)))
/-- `div.w`. -/
def execDivW (d a b : BitVec 5) (s : State) : Out := s.result d (sx32 (divS (lo32 (s.g a)) (lo32 (s.g b))))
/-- `divz.w`. -/
def execDivzW (d a b : BitVec 5) (s : State) : Out := s.result d (sx32 (divU (lo32 (s.g a)) (lo32 (s.g b))))
/-- `rem.w`. -/
def execRemW (d a b : BitVec 5) (s : State) : Out := s.result d (sx32 (remS (lo32 (s.g a)) (lo32 (s.g b))))
/-- `remz.w`. -/
def execRemzW (d a b : BitVec 5) (s : State) : Out := s.result d (sx32 (remU (lo32 (s.g a)) (lo32 (s.g b))))

/-! ## BITS (R98, R99) -/

/-- `Bits(A, pos + len - 1, pos)` with `l` = len − 1. -/
def fieldOf (x : Word) (p l : BitVec 6) : Nat := bitsAt x.toNat p.toNat (l.toNat + 1)

/-- `ext`. -/
def execExt (d a : BitVec 5) (p l : BitVec 6) (s : State) : Out :=
  s.result d (wrap64 (sext (fieldOf (s.g a) p l) (l.toNat + 1)))
/-- `extz`. -/
def execExtz (d a : BitVec 5) (p l : BitVec 6) (s : State) : Out :=
  s.result d (BitVec.ofNat 64 (fieldOf (s.g a) p l))
/-- `ins`: the one BITS form that reads d. -/
def execIns (d a : BitVec 5) (p l : BitVec 6) (s : State) : Out :=
  let mask : Word := BitVec.ofNat 64 ((2 ^ (l.toNat + 1) - 1) * 2 ^ p.toNat)
  s.result d ((s.g d &&& ~~~mask) ||| ((s.g a <<< p.toNat) &&& mask))

/-- The number of zero bits above the highest one bit among the low `n` bits. -/
def leadingZeros (x : Nat) : Nat → Nat
  | 0 => 0
  | n + 1 => if x.testBit n then 0 else leadingZeros x n + 1

/-- The number of zero bits from bit `i` up to the lowest one bit, of the `n` bits there. -/
def trailingZeros (x i : Nat) : Nat → Nat
  | 0 => 0
  | n + 1 => if x.testBit i then 0 else trailingZeros x (i + 1) n + 1

/-- The number of one bits among the low `n` bits. -/
def popCount (x : Nat) : Nat → Nat
  | 0 => 0
  | n + 1 => popCount x n + (x.testBit n).toNat

/-- `clz`. -/
def execClz (d a : BitVec 5) (s : State) : Out := s.result d (BitVec.ofNat 64 (leadingZeros (s.g a).toNat 64))
/-- `ctz`. -/
def execCtz (d a : BitVec 5) (s : State) : Out := s.result d (BitVec.ofNat 64 (trailingZeros (s.g a).toNat 0 64))
/-- `popc`. -/
def execPopc (d a : BitVec 5) (s : State) : Out := s.result d (BitVec.ofNat 64 (popCount (s.g a).toNat 64))
/-- `rev8`. -/
def execRev8 (d a : BitVec 5) (s : State) : Out :=
  s.result d (BitVec.ofNat 64 (leNat (natLe 8 (s.g a).toNat).reverse))
/-- `revb`. -/
def execRevb (d a : BitVec 5) (s : State) : Out := s.result d (s.g a).reverse

/-! ## ADDR (R100) -/

/-- `adda`. -/
def execAdda (d a b : BitVec 5) (n : BitVec 6) (s : State) : Out := s.result d (s.g a + s.g b <<< n.toNat)
/-- `suba`. -/
def execSuba (d a b : BitVec 5) (n : BitVec 6) (s : State) : Out := s.result d (s.g a - s.g b <<< n.toNat)
/-- `chkb`. -/
def execChkb (a b : BitVec 5) (s : State) : Out :=
  s.checked (if s.g b ≤ s.g a then some (Cause.bounds, (s.g a).toNat) else none) s.adv
/-- `chkr`. -/
def execChkr (d a b : BitVec 5) (s : State) : Out :=
  s.checked (if s.g d < s.g a ∨ s.g b ≤ s.g d then some (Cause.bounds, (s.g d).toNat) else none) s.adv
/-- `aligna`. -/
def execAligna (d a : BitVec 5) (n : BitVec 6) (s : State) : Out :=
  s.result d (BitVec.ofNat 64 (((s.g a).toNat + 2 ^ n.toNat - 1) / 2 ^ n.toNat * 2 ^ n.toNat))

end Sys2Proof.Machine
end

