-- ==== Sys2Proof/Machine/LoadStore.lean ====
section
/-!
DEFINITION. Sys2Proof/Machine/LoadStore.lean: the scalar loads and stores of the local store (R101, R102).
-/

namespace Sys2Proof.Machine

/-- A local load of `n` bytes, sign- or zero-extended (R101); it acquires the words of other agents that it reads (R289). -/
def State.localLoad (s : State) (signed : Bool) (n : Nat) (d a : BitVec 5) (i : BitVec 16) : Out :=
  let addr := s.addrI a i
  let x := s.localRead addr n
  s.checked (s.loadCheck addr n)
    ((s.heard addr n).setG d (if signed then wrap64 (sext x (8 * n)) else BitVec.ofNat 64 x)).adv

/-- A local store of the low `n` bytes of g[d] (R102). -/
def State.localStore (s : State) (n : Nat) (d a : BitVec 5) (i : BitVec 16) : Out :=
  let addr := s.addrI a i
  s.checked (s.localCheck addr n .store) (s.localWrite addr n (s.g d).toNat).adv

/-- `ld.b`. -/
def execLdB (d a : BitVec 5) (i : BitVec 16) (s : State) : Out := s.localLoad true 1 d a i
/-- `ld.h`. -/
def execLdH (d a : BitVec 5) (i : BitVec 16) (s : State) : Out := s.localLoad true 2 d a i
/-- `ld.w`. -/
def execLdW (d a : BitVec 5) (i : BitVec 16) (s : State) : Out := s.localLoad true 4 d a i
/-- `ld.d`. -/
def execLdD (d a : BitVec 5) (i : BitVec 16) (s : State) : Out := s.localLoad false 8 d a i
/-- `ld.bz`. -/
def execLdBz (d a : BitVec 5) (i : BitVec 16) (s : State) : Out := s.localLoad false 1 d a i
/-- `ld.hz`. -/
def execLdHz (d a : BitVec 5) (i : BitVec 16) (s : State) : Out := s.localLoad false 2 d a i
/-- `ld.wz`. -/
def execLdWz (d a : BitVec 5) (i : BitVec 16) (s : State) : Out := s.localLoad false 4 d a i
/-- `st.b`. -/
def execStB (d a : BitVec 5) (i : BitVec 16) (s : State) : Out := s.localStore 1 d a i
/-- `st.h`. -/
def execStH (d a : BitVec 5) (i : BitVec 16) (s : State) : Out := s.localStore 2 d a i
/-- `st.w`. -/
def execStW (d a : BitVec 5) (i : BitVec 16) (s : State) : Out := s.localStore 4 d a i
/-- `st.d`. -/
def execStD (d a : BitVec 5) (i : BitVec 16) (s : State) : Out := s.localStore 8 d a i

end Sys2Proof.Machine
end

