-- ==== Sys2Proof/Machine/Branch.lean ====
section
/-!
DEFINITION. Sys2Proof/Machine/Branch.lean: branches, jumps and the counted loop (R62, R82, R104, R105, R119).
-/

namespace Sys2Proof.Machine

/-- A conditional branch: a target is checked only when the branch is taken (R62, R104). -/
def State.branch {n : Nat} (s : State) (taken : Bool) (o : BitVec n) : Out :=
  let t := branchTarget s.pc o
  if taken then s.checked (targetCheck t) (s.setPc (targetPc t)) else .next s.adv

/-- `beqz`. -/
def execBeqz (a : BitVec 5) (o : BitVec 16) (s : State) : Out := s.branch (s.g a == 0) o
/-- `bnez`. -/
def execBnez (a : BitVec 5) (o : BitVec 16) (s : State) : Out := s.branch (s.g a != 0) o
/-- `bltz`. -/
def execBltz (a : BitVec 5) (o : BitVec 16) (s : State) : Out := s.branch ((s.g a).slt 0) o
/-- `bgez`. -/
def execBgez (a : BitVec 5) (o : BitVec 16) (s : State) : Out := s.branch (!(s.g a).slt 0) o
/-- `bgtz`. -/
def execBgtz (a : BitVec 5) (o : BitVec 16) (s : State) : Out := s.branch (BitVec.slt 0 (s.g a)) o
/-- `blez`. -/
def execBlez (a : BitVec 5) (o : BitVec 16) (s : State) : Out := s.branch (!BitVec.slt 0 (s.g a)) o
/-- `beq`. -/
def execBeq (a b : BitVec 5) (o : BitVec 13) (s : State) : Out := s.branch (s.g a == s.g b) o
/-- `bne`. -/
def execBne (a b : BitVec 5) (o : BitVec 13) (s : State) : Out := s.branch (s.g a != s.g b) o
/-- `blt`. -/
def execBlt (a b : BitVec 5) (o : BitVec 13) (s : State) : Out := s.branch ((s.g a).slt (s.g b)) o
/-- `bge`. -/
def execBge (a b : BitVec 5) (o : BitVec 13) (s : State) : Out := s.branch (!(s.g a).slt (s.g b)) o
/-- `blo`. -/
def execBlo (a b : BitVec 5) (o : BitVec 13) (s : State) : Out := s.branch ((s.g a).ult (s.g b)) o
/-- `bhs`. -/
def execBhs (a b : BitVec 5) (o : BitVec 13) (s : State) : Out := s.branch (!(s.g a).ult (s.g b)) o

/-- The return address pc + 4. -/
def State.link (s : State) : Word := (s.pc + 4).setWidth 64

/-- `j`. -/
def execJ (o : BitVec 26) (s : State) : Out := s.branch true o

/-- `jl`: writes g1 after its target is checked. -/
def execJl (o : BitVec 26) (s : State) : Out :=
  let t := branchTarget s.pc o
  s.checked (targetCheck t) ((s.setG 1 s.link).setPc (targetPc t))

/-- The checks of `jr` and `jlr` (R105). -/
def jumpCheck (t : Word) : Option Trap :=
  if 0x180000 ≤ t.toNat then some (Cause.localBounds, t.toNat)
  else if t.toNat % 4 ≠ 0 then some (Cause.align, t.toNat)
  else none

/-- `jr`. -/
def execJr (a : BitVec 5) (s : State) : Out :=
  s.checked (jumpCheck (s.g a)) (s.setPc ((s.g a).setWidth 21))

/-- `jlr`: the old value of g[a] is the target. -/
def execJlr (a : BitVec 5) (s : State) : Out :=
  s.checked (jumpCheck (s.g a)) ((s.setG 1 s.link).setPc ((s.g a).setWidth 21))

/-- `loop`: the counter is written even when the taken target traps (R82, R119). -/
def execLoop (o : BitVec 16) (a : BitVec 5) (s : State) : Out :=
  let x := s.g a - 1
  (s.setG a x).branch (x != 0) o

end Sys2Proof.Machine
end

