-- ==== Sys2Proof/Machine/VecInt.lean ====
section
/-!
DEFINITION. Sys2Proof/Machine/VecInt.lean: integer vector arithmetic (R126, R127).
-/

namespace Sys2Proof.Machine

/-- A vector form on element pairs: `f w A B` for each active element (R126). -/
def State.vecInt (s : State) (d a b : BitVec 5) (m : BitVec 3) (w : Nat) (f : Nat → Nat → Nat → Nat) : Out :=
  s.checked (s.vcheck [d, a, b])
    (s.setV d (mapEls (s.v d) (s.m m) w fun i => f w (el (s.v a) w i) (el (s.v b) w i))).adv

/-- `f` on the elements read as signed, wrapped. -/
def signedEl (f : Int → Int → Int) (w A B : Nat) : Nat := wrapN (f (sext A w) (sext B w)) w

/-- An integer held to the range of a type of `w` bits, as a code (R35). -/
def satEl (signed : Bool) (w : Nat) (x : Int) : Nat :=
  wrapN (max (intRange signed w).1 (min (intRange signed w).2 x)) w

/-- A bitwise form, byte by byte (R123). -/
def State.vecBit (s : State) (d a b : BitVec 5) (m : BitVec 3) (f : VReg → VReg → VReg) : Out :=
  s.checked (s.vcheck [d, a, b])
    (s.setV d (mapEls (s.v d) (s.m m) 8 fun i => el (f (s.v a) (s.v b)) 8 i)).adv

/-- `vadd`. -/
def execVadd (d a b : BitVec 5) (m : BitVec 3) (w : BitVec 2) (s : State) : Out :=
  s.vecInt d a b m (widthOf w) fun w A B => (A + B) % 2 ^ w
/-- `vsub`. -/
def execVsub (d a b : BitVec 5) (m : BitVec 3) (w : BitVec 2) (s : State) : Out :=
  s.vecInt d a b m (widthOf w) fun w A B => (A + (2 ^ w - B)) % 2 ^ w
/-- `vadds`, signed. -/
def execVaddsSigned (d a b : BitVec 5) (m : BitVec 3) (w : BitVec 2) (s : State) : Out :=
  s.vecInt d a b m (widthOf w) fun w A B => satEl true w (sext A w + sext B w)
/-- `vadds`, unsigned. -/
def execVaddsUnsigned (d a b : BitVec 5) (m : BitVec 3) (w : BitVec 2) (s : State) : Out :=
  s.vecInt d a b m (widthOf w) fun w A B => satEl false w (A + B)
/-- `vsubs`, signed. -/
def execVsubsSigned (d a b : BitVec 5) (m : BitVec 3) (w : BitVec 2) (s : State) : Out :=
  s.vecInt d a b m (widthOf w) fun w A B => satEl true w (sext A w - sext B w)
/-- `vsubs`, unsigned. -/
def execVsubsUnsigned (d a b : BitVec 5) (m : BitVec 3) (w : BitVec 2) (s : State) : Out :=
  s.vecInt d a b m (widthOf w) fun w A B => satEl false w ((A : Int) - B)
/-- `vmul`. -/
def execVmul (d a b : BitVec 5) (m : BitVec 3) (w : BitVec 2) (s : State) : Out :=
  s.vecInt d a b m (widthOf w) fun w A B => A * B % 2 ^ w
/-- `vmulh`, signed. -/
def execVmulhSigned (d a b : BitVec 5) (m : BitVec 3) (w : BitVec 2) (s : State) : Out :=
  s.vecInt d a b m (widthOf w) fun w A B => wrapN (sext A w * sext B w / (2 ^ w : Nat)) w
/-- `vmulh`, unsigned. -/
def execVmulhUnsigned (d a b : BitVec 5) (m : BitVec 3) (w : BitVec 2) (s : State) : Out :=
  s.vecInt d a b m (widthOf w) fun w A B => A * B / 2 ^ w
/-- `vmin`, signed. -/
def execVminSigned (d a b : BitVec 5) (m : BitVec 3) (w : BitVec 2) (s : State) : Out :=
  s.vecInt d a b m (widthOf w) (signedEl min)
/-- `vmin`, unsigned. -/
def execVminUnsigned (d a b : BitVec 5) (m : BitVec 3) (w : BitVec 2) (s : State) : Out :=
  s.vecInt d a b m (widthOf w) fun _ A B => min A B
/-- `vmax`, signed. -/
def execVmaxSigned (d a b : BitVec 5) (m : BitVec 3) (w : BitVec 2) (s : State) : Out :=
  s.vecInt d a b m (widthOf w) (signedEl max)
/-- `vmax`, unsigned. -/
def execVmaxUnsigned (d a b : BitVec 5) (m : BitVec 3) (w : BitVec 2) (s : State) : Out :=
  s.vecInt d a b m (widthOf w) fun _ A B => max A B
/-- `vand`: the width bits change nothing (R73). -/
def execVand (d a b : BitVec 5) (m : BitVec 3) (_ : BitVec 2) (s : State) : Out := s.vecBit d a b m fun x y => x &&& y
/-- `vor`. -/
def execVor (d a b : BitVec 5) (m : BitVec 3) (_ : BitVec 2) (s : State) : Out := s.vecBit d a b m fun x y => x ||| y
/-- `vxor`. -/
def execVxor (d a b : BitVec 5) (m : BitVec 3) (_ : BitVec 2) (s : State) : Out := s.vecBit d a b m fun x y => x ^^^ y
/-- `vandn`. -/
def execVandn (d a b : BitVec 5) (m : BitVec 3) (_ : BitVec 2) (s : State) : Out :=
  s.vecBit d a b m fun x y => x &&& ~~~y
/-- `vsll`. -/
def execVsll (d a b : BitVec 5) (m : BitVec 3) (w : BitVec 2) (s : State) : Out :=
  s.vecInt d a b m (widthOf w) fun w A B => A * 2 ^ (B % w) % 2 ^ w
/-- `vsrl`. -/
def execVsrl (d a b : BitVec 5) (m : BitVec 3) (w : BitVec 2) (s : State) : Out :=
  s.vecInt d a b m (widthOf w) fun w A B => A / 2 ^ (B % w)
/-- `vsra`. -/
def execVsra (d a b : BitVec 5) (m : BitVec 3) (w : BitVec 2) (s : State) : Out :=
  s.vecInt d a b m (widthOf w) fun w A B => wrapN (sext A w / (2 ^ (B % w) : Nat)) w
/-- `vabs`: the most negative value returns itself. -/
def execVabs (d a : BitVec 5) (m : BitVec 3) (w : BitVec 2) (s : State) : Out :=
  s.checked (s.vcheck [d, a])
    (s.setV d (mapEls (s.v d) (s.m m) (widthOf w) fun i =>
      wrapN (sel (s.v a) (widthOf w) i).natAbs (widthOf w))).adv

/-- The sum of the active elements (R127). -/
def sumActive (x : VReg) (mask : Word) (w : Nat) : Nat :=
  (List.range (512 / w)).foldl (fun t i => if active mask w i then t + el x w i else t) 0

/-- `vsum`: the mask selects the sources; element 0 receives the sum, the others zero (R127). -/
def execVsum (d a b : BitVec 5) (m : BitVec 3) (w : BitVec 2) (s : State) : Out :=
  s.checked (s.vcheck [d, a, b])
    (s.setV d (BitVec.ofNat 512
      ((el (s.v b) (widthOf w) 0 + sumActive (s.v a) (s.m m) (widthOf w)) % 2 ^ widthOf w))).adv

end Sys2Proof.Machine
end

