-- ==== Sys2Proof/Machine/VecFlt.lean ====
section
/-!
DEFINITION. Sys2Proof/Machine/VecFlt.lean: floating-point vector arithmetic, fused multiply-add and the reductions
(R124, R128 to R131).
-/

namespace Sys2Proof.Machine

/-- Elements made one after the other, each with the roundings it takes: an inactive element keeps its old code, draws
nothing and raises nothing (R46, R49, R123). -/
def rndEls (act : Nat → Bool) (old : Nat → Nat) (f : Nat → Rnd → Nat × Rnd) : List Nat → Rnd → List Nat × Rnd
  | [], r => ([], r)
  | i :: is, r =>
    let (c, r1) := if act i then f i r else (old i, r)
    let (cs, r2) := rndEls act old f is r1
    (c :: cs, r2)

/-- A vector form on `w`-bit codes that rounds: the elements land in v[d], the draws and flags in SRSEED and FSTAT. -/
def State.vecRnd (s : State) (regs : List (BitVec 5)) (d : BitVec 5) (m : BitVec 3) (w : Nat)
    (f : Nat → Rnd → Nat × Rnd) : Out :=
  let (cs, r) := rndEls (active (s.m m) w) (el (s.v d) w) f (List.range (512 / w)) s.rnd
  s.checked (s.vcheck regs) ((s.setV d (ofEls w cs)).putRnd r).adv

/-- The float types of VFLT (R70). -/
def fltType (t : BitVec 3) : Fmt := fmtOf t.toNat false

/-- The types of VFMA in the order of fn3 (R73). -/
def fmaType (t : BitVec 2) : Fmt :=
  match t.toNat with
  | 0 => fp64
  | 1 => fp32
  | 2 => fp16
  | _ => bf16

/-- Element `i` of a register as a value of a format. -/
def flt (f : Fmt) (x : VReg) (i : Nat) : FVal := f.decode (el x f.width i)

/-- A form with two operands that rounds each element once (R128). -/
def State.vecFlt2 (s : State) (d a b : BitVec 5) (m t : BitVec 3) (op : FVal → FVal → XRes) : Out :=
  let f := fltType t
  s.vecRnd [d, a, b] d m f.width fun i r => r.round f s.rm (op (flt f (s.v a) i) (flt f (s.v b) i))

/-- A form that returns a code without rounding (R124). -/
def State.vecPick (s : State) (regs : List (BitVec 5)) (d : BitVec 5) (m t : BitVec 3)
    (op : Nat → Nat × BitVec 6) : Out :=
  s.vecRnd regs d m (fltType t).width fun i r => ((op i).1, r.raise (op i).2)

/-- `vfadd`. -/
def execVfadd (d a b : BitVec 5) (m t : BitVec 3) (s : State) : Out :=
  s.vecFlt2 d a b m t fun x y => sumX [x, y] s.rm
/-- `vfsub`. -/
def execVfsub (d a b : BitVec 5) (m t : BitVec 3) (s : State) : Out :=
  s.vecFlt2 d a b m t fun x y => sumX [x, y.neg] s.rm
/-- `vfmul`. -/
def execVfmul (d a b : BitVec 5) (m t : BitVec 3) (s : State) : Out := s.vecFlt2 d a b m t mulX
/-- `vfdiv`. -/
def execVfdiv (d a b : BitVec 5) (m t : BitVec 3) (s : State) : Out := s.vecFlt2 d a b m t divX
/-- `vfsqrt`. -/
def execVfsqrt (d a : BitVec 5) (m t : BitVec 3) (s : State) : Out :=
  let f := fltType t
  s.vecRnd [d, a] d m f.width fun i r => r.round f s.rm (sqrtX (flt f (s.v a) i))

/-- Does −0 stand before +0, or is a < b (R129)? -/
def fltBefore (x y : FVal) : Bool := x.lt y || (x.same y && x.isNeg && !y.isNeg)

/-- The operand that `vfmin` or `vfmax` returns, and its flag (R129). -/
def pickMinMax (f : Fmt) (least : Bool) (cx cy : Nat) : Nat × BitVec 6 :=
  let x := f.decode cx
  let y := f.decode cy
  let fl := flagIf (x.isSNaN || y.isSNaN) flagNV
  if x.isNaN && y.isNaN then (f.nanCode, fl)
  else if x.isNaN then (cy, fl)
  else if y.isNaN then (cx, fl)
  else (if fltBefore x y == least then cx else cy, fl)

/-- `vfmin`. -/
def execVfmin (d a b : BitVec 5) (m t : BitVec 3) (s : State) : Out :=
  let f := fltType t
  s.vecPick [d, a, b] d m t fun i => pickMinMax f true (el (s.v a) f.width i) (el (s.v b) f.width i)
/-- `vfmax`. -/
def execVfmax (d a b : BitVec 5) (m t : BitVec 3) (s : State) : Out :=
  let f := fltType t
  s.vecPick [d, a, b] d m t fun i => pickMinMax f false (el (s.v a) f.width i) (el (s.v b) f.width i)

/-- A code with its sign bit set as asked; a NaN gives the canonical NaN (R128). -/
def signOp (f : Fmt) (sign : Bool → Bool) (c : Nat) : Nat × BitVec 6 :=
  let x := f.decode c
  if x.isNaN then (f.nanCode, flagIf x.isSNaN flagNV)
  else (f.signed (sign x.isNeg) (c % 2 ^ (f.e + f.m)), 0)

/-- `vfabs`. -/
def execVfabs (d a : BitVec 5) (m t : BitVec 3) (s : State) : Out :=
  let f := fltType t
  s.vecPick [d, a] d m t fun i => signOp f (fun _ => false) (el (s.v a) f.width i)
/-- `vfneg`. -/
def execVfneg (d a : BitVec 5) (m t : BitVec 3) (s : State) : Out :=
  let f := fltType t
  s.vecPick [d, a] d m t fun i => signOp f (!·) (el (s.v a) f.width i)

/-- The identity of a sum under a rounding mode: +0 under RDN, −0 otherwise (R57). -/
def sumIdentity (rm : BitVec 3) : FVal := .fin (rm != rmRDN) 0 0

/-- A sum reduction from elements of `src` into `dst`: the tree of R57, then the initial value (R130). -/
def State.vecReduce (s : State) (d a b : BitVec 5) (m : BitVec 3) (src dst : Fmt) : Out :=
  let n := 512 / src.width
  let l0 := (List.range n).map fun i => if active (s.m m) src.width i then flt src (s.v a) i else sumIdentity s.rm
  let (root, r1) := treeLevels dst s.rm (Nat.log2 n) l0 s.rnd
  let (c, r2) := r1.round dst s.rm (sumX [root.headD (sumIdentity s.rm), flt dst (s.v b) 0] s.rm)
  s.checked (s.vcheck [d, a, b]) ((s.setV d (BitVec.ofNat 512 c)).putRnd r2).adv

/-- `vfsum`. -/
def execVfsum (d a b : BitVec 5) (m t : BitVec 3) (s : State) : Out :=
  s.vecReduce d a b m (fltType t) (fltType t)
/-- `vfsumw`: FP64 from FP32, FP32 from BF16 and FP16 (R130). -/
def execVfsumw (d a b : BitVec 5) (m t : BitVec 3) (s : State) : Out :=
  s.vecReduce d a b m (fltType t) (if t = 1 then fp64 else fp32)

/-- A fused form: a × b + c, or a × b − c (R131). -/
def State.vecFma (s : State) (d a b c : BitVec 5) (m : BitVec 3) (t : BitVec 2) (sub : Bool) : Out :=
  let f := fmaType t
  s.vecRnd [d, a, b, c] d m f.width fun i r =>
    let z := flt f (s.v c) i
    r.round f s.rm (fmaX (flt f (s.v a) i) (flt f (s.v b) i) (if sub then z.neg else z) s.rm)

/-- `vfma`. -/
def execVfma (d a b c : BitVec 5) (m : BitVec 3) (t : BitVec 2) (s : State) : Out := s.vecFma d a b c m t false
/-- `vfms`. -/
def execVfms (d a b c : BitVec 5) (m : BitVec 3) (t : BitVec 2) (s : State) : Out := s.vecFma d a b c m t true

end Sys2Proof.Machine
end

