-- ==== Sys2Proof/Machine/VecCmp.lean ====
section
/-!
DEFINITION. Sys2Proof/Machine/VecCmp.lean: vector comparisons and mask operations (R132, R133).
-/

namespace Sys2Proof.Machine

/-- The width of an element type code (R70). -/
def elemWidth (t : BitVec 4) : Nat := if t.toNat < 8 then 8 * 2 ^ (t.toNat % 4) else (fmtOf (t.toNat - 8) false).width

/-- A test on two codes of an element type, with its flag (R132). -/
def elemTest (c : Cond) (t : BitVec 4) (x y : Nat) : Bool × BitVec 6 :=
  let w := elemWidth t
  if t.toNat < 4 then (c.int (sext x w) (sext y w), 0)
  else if t.toNat < 8 then (c.int x y, 0)
  else
    let f := fmtOf (t.toNat - 8) false
    (c.float (f.decode x) (f.decode y), c.flag (f.decode x) (f.decode y))

/-- A comparison: all the mask bits of each active element take its outcome (R132). -/
def State.vecCmp (s : State) (c : Cond) (d : BitVec 3) (a b : BitVec 5) (m : BitVec 3) (t : BitVec 4) : Out :=
  let w := elemWidth t
  let test := fun i => elemTest c t (el (s.v a) w i) (el (s.v b) w i)
  let bits := (List.range 64).map fun k =>
    if active (s.m m) w (8 * k / w) then (test (8 * k / w)).1 else (s.m d).toNat.testBit k
  let fl := (List.range (512 / w)).foldl (fun (f : BitVec 6) i =>
    if active (s.m m) w i then f ||| (test i).2 else f) 0
  s.checked (s.vcheck [a, b])
    ((s.setM d (BitVec.ofNat 64 (packCodes 1 (bits.map Bool.toNat)))).setFlags fl).adv

/-- `vcmp.eq`. -/
def execVcmpEq (d : BitVec 3) (a b : BitVec 5) (m : BitVec 3) (t : BitVec 4) (s : State) : Out := s.vecCmp .eq d a b m t
/-- `vcmp.ne`. -/
def execVcmpNe (d : BitVec 3) (a b : BitVec 5) (m : BitVec 3) (t : BitVec 4) (s : State) : Out := s.vecCmp .ne d a b m t
/-- `vcmp.lt`. -/
def execVcmpLt (d : BitVec 3) (a b : BitVec 5) (m : BitVec 3) (t : BitVec 4) (s : State) : Out := s.vecCmp .lt d a b m t
/-- `vcmp.le`. -/
def execVcmpLe (d : BitVec 3) (a b : BitVec 5) (m : BitVec 3) (t : BitVec 4) (s : State) : Out := s.vecCmp .le d a b m t
/-- `vcmp.gt`. -/
def execVcmpGt (d : BitVec 3) (a b : BitVec 5) (m : BitVec 3) (t : BitVec 4) (s : State) : Out := s.vecCmp .gt d a b m t
/-- `vcmp.ge`. -/
def execVcmpGe (d : BitVec 3) (a b : BitVec 5) (m : BitVec 3) (t : BitVec 4) (s : State) : Out := s.vecCmp .ge d a b m t
/-- `vcmp.un`. -/
def execVcmpUn (d : BitVec 3) (a b : BitVec 5) (m : BitVec 3) (t : BitVec 4) (s : State) : Out := s.vecCmp .un d a b m t

/-- A mask operation that writes a mask register and goes on (R133). -/
def State.maskResult (s : State) (d : BitVec 3) (x : Word) : Out := .next (s.setM d x).adv

/-- `mand`. -/
def execMand (d a b : BitVec 3) (s : State) : Out := s.maskResult d (s.m a &&& s.m b)
/-- `mor`. -/
def execMor (d a b : BitVec 3) (s : State) : Out := s.maskResult d (s.m a ||| s.m b)
/-- `mxor`. -/
def execMxor (d a b : BitVec 3) (s : State) : Out := s.maskResult d (s.m a ^^^ s.m b)
/-- `mandn`. -/
def execMandn (d a b : BitVec 3) (s : State) : Out := s.maskResult d (s.m a &&& ~~~s.m b)
/-- `mnot`. -/
def execMnot (d a : BitVec 3) (s : State) : Out := s.maskResult d (~~~s.m a)
/-- `mfromg`. -/
def execMfromg (d : BitVec 3) (a : BitVec 5) (s : State) : Out := s.maskResult d (s.g a)
/-- `mtog`. -/
def execMtog (d : BitVec 5) (a : BitVec 3) (s : State) : Out := s.result d (s.m a)
/-- `mpop`. -/
def execMpop (d : BitVec 5) (a : BitVec 3) (s : State) : Out := s.result d (BitVec.ofNat 64 (popCount (s.m a).toNat 64))

end Sys2Proof.Machine
end

