-- ==== Sys2Proof/Machine/VecCvt.lean ====
section
/-!
DEFINITION. Sys2Proof/Machine/VecCvt.lean: conversions, element by element and by MX blocks (R71, R134 to R136).
-/

namespace Sys2Proof.Machine

/-- A type of VCVT: an integer type, or a floating-point or narrow format by the code of R17 (R71). -/
inductive CvtType where
  | int (signed : Bool) (w : Nat)
  | flt (code : Nat)
deriving DecidableEq, Repr

/-- The type of a conversion code (R71). -/
def cvtType (c : BitVec 4) : CvtType :=
  match c.toNat with
  | 0 => .int true 8
  | 1 => .int true 16
  | 2 => .int true 32
  | 3 => .int true 64
  | 4 => .int false 8
  | 5 => .int false 32
  | 6 => .int false 64
  | 7 => .flt 8
  | 8 => .flt 0
  | 9 => .flt 1
  | 10 => .flt 2
  | 11 => .flt 3
  | 12 => .flt 4
  | 13 => .flt 5
  | 14 => .flt 6
  | _ => .flt 7

/-- Its width (R134). -/
def CvtType.width : CvtType → Nat
  | .int _ w => w
  | .flt c => (fmtOf c false).width

/-- One element converted (R135): every evaluation takes its draw under SR, a conversion to an integer too
(R49, notes/assumptions/13.md). -/
def cvtEl (src dst : CvtType) (topx : Bool) (rm : BitVec 3) (c : Nat) (r : Rnd) : Nat × Rnd :=
  match src, dst with
  | .int sg w, .flt k => r.round (fmtOf k topx) rm (intX (if sg then sext c w else c), 0)
  | .flt j, .flt k => r.round (fmtOf k topx) rm ((fmtOf j topx).decode c).exact
  | .flt j, .int sg w =>
    let (d, r1) := r.draw rm
    let (n, fl) := toInt sg w rm d ((fmtOf j topx).decode c)
    (n, r1.raise fl)
  | .int _ _, .int _ w => (c % 2 ^ w, r)

/-- `vcvt`, element by element (R134): the bits above the converted elements are zero, whatever the mask holds. -/
def execVcvtEl (d a : BitVec 5) (r m : BitVec 3) (x t : BitVec 4) (s : State) : Out :=
  let src := cvtType t
  let dst := cvtType x
  let step := max (max src.width dst.width) 8
  let (cs, rn) := rndEls (fun i => (s.m m).toNat.testBit (i * step / 8)) (el (s.v d) dst.width)
    (fun i q => cvtEl src dst s.core.ctl.status.topx (s.rmField r) (el (s.v a) src.width i) q)
    (List.range (512 / step)) s.rnd
  s.checked (s.vcheck [d, a]) ((s.setV d (ofEls dst.width cs)).putRnd rn).adv

/-- The format of a floating-point or narrow conversion code; integer codes do not occur here (R71). -/
def cvtFmt (c : BitVec 4) (topx : Bool) : Fmt :=
  match cvtType c with
  | .flt k => fmtOf k topx
  | .int _ _ => fp32

/-- The v registers of a pair when the type is f32 (R136). -/
def cvtRegs (c : BitVec 4) (r : BitVec 5) : List (BitVec 5) := if c = 9 then [r, r + 1] else [r]

/-- `vcvt`, MX pack (R136). -/
def execVcvtPack (d a : BitVec 5) (r : BitVec 3) (x t : BitVec 4) (s : State) : Out :=
  let topx := s.core.ctl.status.topx
  let src := cvtFmt t topx
  let dst := cvtFmt x topx
  let vals := ((cvtRegs t a).flatMap fun v => (elsOf (s.v v) src.width).map src.decode)
  let (sc, q, rn) := mxScale dst (s.rmField r) vals s.rnd
  s.checked (s.vcheck (d :: cvtRegs t a))
    ((s.setV d (BitVec.ofNat 512 (packCodes dst.width q + sc * 2 ^ 256))).putRnd rn).adv

/-- One element of an unpacked block: under a scale of 0xFF the canonical NaN without a flag (R136). -/
def unpackEl (src dst : Fmt) (rm : BitVec 3) (sc : Nat) (c : Nat) (r : Rnd) : Nat × Rnd :=
  r.round dst rm (mxDecode src c sc).exact

/-- `vcvt`, MX unpack (R136). -/
def execVcvtUnpack (d a : BitVec 5) (r : BitVec 3) (x t : BitVec 4) (s : State) : Out :=
  let topx := s.core.ctl.status.topx
  let src := cvtFmt t topx
  let dst := cvtFmt x topx
  let sc := el (s.v a) 8 32
  let (cs, rn) := rndEls (fun _ => true) (fun _ => 0)
    (fun i q => unpackEl src dst (s.rmField r) sc (el (s.v a) src.width i) q) (List.range 32) s.rnd
  let n := 512 / dst.width
  let lo := s.setV d (ofEls dst.width (cs.take n))
  s.checked (s.vcheck (cvtRegs x d ++ [a]))
    (((if x = 9 then lo.setV (d + 1) (ofEls dst.width (cs.drop n)) else lo).putRnd rn)).adv

end Sys2Proof.Machine
end

