-- ==== Sys2Proof/Machine/VecPerm.lean ====
section
/-!
DEFINITION. Sys2Proof/Machine/VecPerm.lean: permutations (R137, R138).
-/

namespace Sys2Proof.Machine

/-- A permutation: active element `i` becomes `f w i` (R137). -/
def State.vecPerm (s : State) (regs : List (BitVec 5)) (d : BitVec 5) (m : BitVec 3) (w : Nat) (f : Nat → Nat) : Out :=
  s.checked (s.vcheck regs) (s.setV d (mapEls (s.v d) (s.m m) w f)).adv

/-- `vperm`. -/
def execVperm (d a b : BitVec 5) (m : BitVec 3) (w : BitVec 2) (s : State) : Out :=
  let w := widthOf w
  s.vecPerm [d, a, b] d m w fun i => el (s.v a) w (el (s.v b) w i % (512 / w))
/-- `vbcast`. -/
def execVbcast (d a : BitVec 5) (m : BitVec 3) (w : BitVec 2) (s : State) : Out :=
  s.vecPerm [d] d m (widthOf w) fun _ => (s.g a).toNat % 2 ^ widthOf w
/-- `vdup`. -/
def execVdup (d a b : BitVec 5) (m : BitVec 3) (w : BitVec 2) (s : State) : Out :=
  let w := widthOf w
  s.vecPerm [d, a, b] d m w fun _ => el (s.v a) w (el (s.v b) w 0 % (512 / w))
/-- `vmov`: by byte; the width bits change nothing (R73, R123). -/
def execVmov (d a : BitVec 5) (m : BitVec 3) (_ : BitVec 2) (s : State) : Out :=
  s.vecPerm [d, a] d m 8 fun i => el (s.v a) 8 i
/-- `vzip`. -/
def execVzip (d a b : BitVec 5) (m : BitVec 3) (w : BitVec 2) (s : State) : Out :=
  let w := widthOf w
  s.vecPerm [d, a, b] d m w fun i => if i % 2 = 0 then el (s.v a) w (i / 2) else el (s.v b) w ((i - 1) / 2)
/-- `vunzip`. -/
def execVunzip (d a b : BitVec 5) (m : BitVec 3) (w : BitVec 2) (s : State) : Out :=
  let w := widthOf w
  let n := 512 / w
  s.vecPerm [d, a, b] d m w fun i => if i < n / 2 then el (s.v a) w (2 * i) else el (s.v b) w (2 * i - n)
/-- `vslide`: elements beyond either end read as 0. -/
def execVslide (d a b : BitVec 5) (m : BitVec 3) (w : BitVec 2) (s : State) : Out :=
  let w := widthOf w
  s.vecPerm [d, a] d m w fun i =>
    let j : Int := i + (s.g b).toInt
    if 0 ≤ j ∧ j < (512 / w : Nat) then el (s.v a) w j.toNat else 0

/-- The BOUNDS test of `vins` and `vext` (R138). -/
def State.elemCheck (s : State) (b : BitVec 5) (w : Nat) : Option Trap :=
  if 512 / w ≤ (s.g b).toNat then some (Cause.bounds, (s.g b).toNat) else none

/-- `vins`. -/
def execVins (d a b : BitVec 5) (w : BitVec 2) (s : State) : Out :=
  let w := widthOf w
  s.checked ((s.vcheck [d]).or (s.elemCheck b w))
    (s.setV d (ofEls w ((List.range (512 / w)).map fun i =>
      if i = (s.g b).toNat then (s.g a).toNat % 2 ^ w else el (s.v d) w i))).adv
/-- `vext`. -/
def execVext (d a b : BitVec 5) (w : BitVec 2) (s : State) : Out :=
  let w := widthOf w
  s.checked ((s.vcheck [a]).or (s.elemCheck b w))
    (s.setG d (BitVec.ofNat 64 (el (s.v a) w ((s.g b).toNat % (512 / w))))).adv

/-- `vcompress`: the active elements close up, zeros follow (R137). -/
def execVcompress (d a : BitVec 5) (m : BitVec 3) (w : BitVec 2) (s : State) : Out :=
  let w := widthOf w
  let xs := ((List.range (512 / w)).filter (active (s.m m) w)).map (el (s.v a) w)
  s.checked (s.vcheck [d, a]) (s.setV d (ofEls w xs)).adv

/-- The elements of `vexpand`: each active one takes the next source element. -/
def expandEls (act : Nat → Bool) (old src : Nat → Nat) : List Nat → Nat → List Nat
  | [], _ => []
  | i :: is, k => if act i then src k :: expandEls act old src is (k + 1) else old i :: expandEls act old src is k

/-- `vexpand` (R137). -/
def execVexpand (d a : BitVec 5) (m : BitVec 3) (w : BitVec 2) (s : State) : Out :=
  let w := widthOf w
  s.checked (s.vcheck [d, a])
    (s.setV d (ofEls w (expandEls (active (s.m m) w) (el (s.v d) w) (el (s.v a) w) (List.range (512 / w)) 0))).adv

end Sys2Proof.Machine
end

