-- ==== Sys2Proof/Machine/VecMem.lean ====
section
/-!
DEFINITION. Sys2Proof/Machine/VecMem.lean: vector loads and stores, strided, gathered and scattered (R139 to R141).
-/

namespace Sys2Proof.Machine

/-- The reads of some elements of `n` bytes performed: the words of other agents that they read are acquired (R289). -/
def State.hearEls (s : State) (addr : Nat → Nat) (n : Nat) (is : List Nat) : State :=
  is.foldl (fun t i => t.heard (addr i) n) s

/-- The aligned 8-byte groups of a register all of whose bytes are active: each is one atomic access (R140, R231). -/
def wholeWords (mask : Word) : List Nat := (List.range 8).filter fun i => (List.range 8).all fun j => mask.getLsbD (8 * i + j)

/-- `vld`: the checks cover all 64 bytes, whatever the mask holds (R139). UNCORR (R379) counts as one of them, so that the
result does not depend on the mask, and gives the address of the access (DESIGN CHOICE, notes/assumptions/31.md). -/
def execVld (d a : BitVec 5) (m : BitVec 3) (o : BitVec 13) (s : State) : Out :=
  let addr := s.addrM a o
  let x := ofLanes (s.localBytes addr 64)
  s.checked ((s.vcheck [d]).or (s.loadCheck addr 64))
    ((s.hearEls (fun i => addr + 8 * i) 8 (wholeWords (s.m m))).setV d (mapEls (s.v d) (s.m m) 8 fun k => el x 8 k)).adv

/-- Bytes of a register stored where their mask bit is set, from lane `k` up (R139). -/
def State.storeLanes (s : State) (addr : Nat) (mask : Word) : Nat → List Byte → State
  | _, [] => s
  | k, x :: xs =>
    (if mask.toNat.testBit k then s.localWriteBytes (addr + k) [x] else s).storeLanes addr mask (k + 1) xs

/-- `vst` (R139). -/
def execVst (d a : BitVec 5) (m : BitVec 3) (o : BitVec 13) (s : State) : Out :=
  let addr := s.addrM a o
  s.checked ((s.vcheck [d]).or (s.localCheck addr 64 .store)) (s.storeLanes addr (s.m m) 0 (lanes (s.v d))).adv

/-- The first failing check among the addresses of the active elements (R141). -/
def State.checkEach (chk : Nat → Option Trap) : List Nat → Option Trap
  | [] => none
  | a :: as => (chk a).or (State.checkEach chk as)

/-- The addresses of the active elements, with their indices (R141). -/
def activeAddrs (mask : Word) (w : Nat) (addr : Nat → Nat) : List (Nat × Nat) :=
  ((List.range (512 / w)).filter (active mask w)).map fun i => (i, addr i)

/-- An uncorrectable error met by a read of the store (R379). -/
def State.uncorrCheck (s : State) (a n : Nat) : Option Trap :=
  if s.poisonHit (s.core.localKey a) n then some (Cause.uncorr, a) else none

/-- A load of elements at their own addresses: every `LocalCheck` comes before the first read (R141). -/
def State.vecGather (s : State) (regs : List (BitVec 5)) (d : BitVec 5) (m : BitVec 3) (w : Nat)
    (addr : Nat → Nat) : Out :=
  let as := (activeAddrs (s.m m) w addr).map (·.2)
  s.checked ((s.vcheck regs).or ((State.checkEach (fun a => s.localCheck a (w / 8) .load) as).or
      (State.checkEach (fun a => s.uncorrCheck a (w / 8)) as)))
    ((s.hearEls addr (w / 8) ((List.range (512 / w)).filter (active (s.m m) w))).setV d
      (mapEls (s.v d) (s.m m) w fun i => s.localRead (addr i) (w / 8))).adv

/-- Elements written in increasing index (R141, second pass). -/
def State.scatterEls (s : State) (x : VReg) (w : Nat) : List (Nat × Nat) → State
  | [] => s
  | (i, a) :: r => (s.localWrite a (w / 8) (el x w i)).scatterEls x w r

/-- A store of elements to their own addresses (R141). -/
def State.vecScatter (s : State) (regs : List (BitVec 5)) (d : BitVec 5) (m : BitVec 3) (w : Nat)
    (addr : Nat → Nat) : Out :=
  let as := activeAddrs (s.m m) w addr
  s.checked ((s.vcheck regs).or (State.checkEach (fun a => s.localCheck a (w / 8) .store) (as.map (·.2))))
    (s.scatterEls (s.v d) w as).adv

/-- The address of element `i` of a strided access. -/
def State.strideAddr (s : State) (a b : BitVec 5) (i : Nat) : Nat := (s.g a + BitVec.ofNat 64 i * s.g b).toNat

/-- The address of element `i` of a gather or scatter, its offset read unsigned. -/
def State.gatherAddr (s : State) (a b : BitVec 5) (w i : Nat) : Nat := (s.g a + BitVec.ofNat 64 (el (s.v b) w i)).toNat

/-- `vlds`. -/
def execVlds (d a b : BitVec 5) (m : BitVec 3) (w : BitVec 2) (s : State) : Out :=
  s.vecGather [d] d m (widthOf w) (s.strideAddr a b)
/-- `vsts`. -/
def execVsts (d a b : BitVec 5) (m : BitVec 3) (w : BitVec 2) (s : State) : Out :=
  s.vecScatter [d] d m (widthOf w) (s.strideAddr a b)
/-- `vgath`. -/
def execVgath (d a b : BitVec 5) (m : BitVec 3) (w : BitVec 2) (s : State) : Out :=
  s.vecGather [d, b] d m (widthOf w) (s.gatherAddr a b (widthOf w))
/-- `vscat`. -/
def execVscat (d a b : BitVec 5) (m : BitVec 3) (w : BitVec 2) (s : State) : Out :=
  s.vecScatter [d, b] d m (widthOf w) (s.gatherAddr a b (widthOf w))

end Sys2Proof.Machine
end

