-- ==== Sys2Proof/Machine/Ctrl.lean ====
section
/-!
DEFINITION. Sys2Proof/Machine/Ctrl.lean: the control registers and their access instructions (R11 to R23, R27, R30,
R107, R108, R148, R149, R293, R328, R381).
-/

namespace Sys2Proof.Machine

/-! ## Reading -/

/-- STATUS.GANG (R12). -/
def Role.code : Role → Nat
  | .alone => 0
  | .leader _ => 1
  | .follower _ _ => 2

/-- STATUS as a word (R12): SEQ is 1 while a repeat frame runs (R78). -/
def Core.statusWord (c : Core) : Word :=
  let t := c.ctl.status
  BitVec.ofNat 64 (t.priv.toNat + 2 * t.ie.toNat + 4 * t.pie.toNat + 8 * t.topx.toNat + 16 * t.rm.toNat +
    128 * t.preempt.toNat + 256 * t.ckpt.toNat + 512 * c.gang.role.code + 2048 * c.frame.isSome.toNat +
    4096 * t.ppriv.toNat)

/-- STATE of a ring entry as a code (R30). -/
def RingState.code : RingState → Nat
  | .empty => 0
  | .pending => 1
  | .done => 2
  | .faulted => 3
  | .squashed => 4

/-- A ring entry as DRENT shows it (R30). -/
def RingEntry.word (e : RingEntry) : Word :=
  BitVec.ofNat 64 (e.seq.toNat + 2 ^ 21 * e.sub.toNat + 2 ^ 26 * e.major.toNat + 2 ^ 32 * e.pc.toNat +
    2 ^ 53 * e.state.code + 2 ^ 56 * e.cause.toNat)

/-- TSTAT of a package (R328). -/
def Package.tstat (p : Package) : Word :=
  BitVec.ofNat 64 (p.mag.toNat + 2 ^ 32 * p.steps.toNat + 2 ^ 62 * p.back.toNat + 2 ^ 63 * p.sync.toNat)

/-- A control register as read (R11). Numbers that R11 does not assign are refused before. -/
def State.readCr (s : State) (n : Nat) : Word :=
  let k := s.core.ctl
  if n = 0x000 then s.core.statusWord
  else if n = 0x001 then k.fstat.setWidth 64
  else if n = 0x002 then k.srseed
  else if n = 0x008 then k.fmta
  else if n = 0x009 then k.fmtb
  else if n = 0x00A then k.scla.setWidth 64
  else if n = 0x00B then k.sclb.setWidth 64
  else if n = 0x00C then k.cbook.setWidth 64
  else if n = 0x010 then s.core.addr.setWidth 64
  else if n = 0x011 then k.pid.setWidth 64
  else if n = 0x018 then k.lslim.setWidth 64
  else if n = 0x019 then k.vlim.setWidth 64
  else if n = 0x01A then k.blim.setWidth 64
  else if n = 0x01B then k.clim.setWidth 64
  else if n = 0x020 then k.epc.setWidth 64
  else if n = 0x021 then k.ecause.setWidth 64
  else if n = 0x022 then k.einfo
  else if n = 0x023 then k.eseq.setWidth 64
  else if n = 0x024 then k.evec.setWidth 64
  else if n = 0x025 then k.escratch
  else if n = 0x028 then k.drnext.setWidth 64
  else if n = 0x029 then k.drsel.setWidth 64
  else if n = 0x02A then (s.core.ring.get k.drsel.toFin).word
  else if n = 0x030 then BitVec.ofNat 64 (s.clk - s.core.resetAt)
  else if 0x040 ≤ n ∧ n < 0x050 then k.brect.toList.getD (n - 0x040) 0
  else if 0x050 ≤ n ∧ n < 0x054 then k.domain.toList.getD (n - 0x050) 0
  else if n = 0x058 then k.rxwatch.setWidth 64
  else if n = 0x060 then k.deal.setWidth 64
  else if n = 0x068 then (s.getPkg (pkgOf s.core.addr.toNat)).tstat
  else 0

/-! ## Writing -/

/-- A bit of a word. -/
def bitOf (x : Word) (i : Nat) : Bool := x.getLsbD i

/-- STATUS with a value written: RO fields keep their values (R12, R13). -/
def Status.write (t : Status) (x : Word) : Status :=
  { t with
    ppriv := bitOf x 12, preempt := bitOf x 7, rm := x.extractLsb' 4 3, topx := bitOf x 3, pie := bitOf x 2
    ie := bitOf x 1, priv := bitOf x 0 }

/-- Would a write change a field marked PRIV (R13)? -/
def Status.changesPriv (t : Status) (x : Word) : Bool :=
  t.ppriv != bitOf x 12 || t.preempt != bitOf x 7 || t.pie != bitOf x 2 || t.ie != bitOf x 1 || t.priv != bitOf x 0

/-- The clamp of a limit register on the whole value written (R23). -/
def clampTo (lo hi : Nat) (x : Word) : Nat := max lo (min hi x.toNat)

/-- The operand-format registers keep PITCH, MX and FMT (R16). -/
def fmtMask : Word := 0xFFFF001F

/-- EVEC: a value outside the bay is clamped to its start, bits [1:0] read as zero (R27). The test is on the whole
value written (DEDUCED, notes/assumptions/14.md). -/
def evecOf (x : Word) : LAddr :=
  if 0x17C000 ≤ x.toNat ∧ x.toNat < 0x180000 then BitVec.ofNat 21 (x.toNat / 4 * 4) else 0x17C000

/-- RXWATCH: a value below 0x400 is clamped to it (R381). -/
def rxwatchOf (x : Word) : BitVec 32 := if x.toNat % 2 ^ 32 < 0x400 then 0x400 else x.setWidth 32

/-- A control register written, field by field as its map allows (R108); RO registers ignore the write. -/
def Core.writeCr (c : Core) (n : Nat) (x : Word) : Core :=
  c.modCtl fun k =>
    if n = 0x000 then { k with status := k.status.write x }
    else if n = 0x001 then { k with fstat := x.setWidth 6 }
    else if n = 0x002 then { k with srseed := x }
    else if n = 0x008 then { k with fmta := x &&& fmtMask }
    else if n = 0x009 then { k with fmtb := x &&& fmtMask }
    else if n = 0x00A then { k with scla := x.setWidth 21 }
    else if n = 0x00B then { k with sclb := x.setWidth 21 }
    else if n = 0x00C then { k with cbook := x.setWidth 4 }
    else if n = 0x018 then { k with lslim := BitVec.ofNat 21 (clampTo 0x40 0x17C000 x / 64 * 64) }
    else if n = 0x019 then { k with vlim := BitVec.ofNat 6 (clampTo 1 32 x) }
    else if n = 0x01A then { k with blim := BitVec.ofNat 5 (clampTo 0 16 x) }
    else if n = 0x01B then { k with clim := BitVec.ofNat 5 (clampTo 0 16 x) }
    else if n = 0x020 then { k with epc := x.setWidth 21 }
    else if n = 0x021 then { k with ecause := x.setWidth 10 }
    else if n = 0x022 then { k with einfo := x }
    else if n = 0x023 then { k with eseq := x.setWidth 16 }
    else if n = 0x024 then { k with evec := evecOf x }
    else if n = 0x025 then { k with escratch := x }
    else if n = 0x029 then { k with drsel := x.setWidth 6 }
    else if n = 0x058 then { k with rxwatch := rxwatchOf x }
    else if n = 0x060 then { k with deal := x.setWidth 24 }
    else k

/-! ## The access instructions (R107) -/

/-- The numbers whose U column is RW (R11). -/
def userWrites (n : Nat) : Bool := decide (n ≤ 0x002) || (decide (0x008 ≤ n) && decide (n ≤ 0x00C)) || n == 0x060

/-- The numbers whose U column is — (R11). -/
def userHidden (n : Nat) : Bool := (decide (0x020 ≤ n) && decide (n ≤ 0x025)) || n == 0x029 || n == 0x02A

/-- The checks of a CTRL form (R107), with `x` the value a write would store. -/
def State.ctrlCheck (s : State) (word : BitVec 32) (n : BitVec 12) (write : Option Word) : Option Trap :=
  if !crAssigned n then some (Cause.illegal, word.toNat)
  else match write with
    | none => if !s.priv && userHidden n.toNat then some (Cause.privilege, 0) else none
    | some x =>
      if !s.priv && !userWrites n.toNat then some (Cause.privilege, 0)
      else if n = 0 ∧ !s.priv ∧ s.core.ctl.status.changesPriv x then some (Cause.privilege, 0)
      else if n = 0 ∧ 5 ≤ (x.extractLsb' 4 3).toNat then some (Cause.illegal, word.toNat)
      else none

/-- A read of a control register meets an error in the ring slot that DRENT shows: UNCORR with EINFO the slot (R379;
DESIGN CHOICE, notes/assumptions/38.md). -/
def State.crError (s : State) (n : BitVec 12) : Option Trap :=
  if n = 0x02A ∧ s.core.ringError s.core.ctl.drsel.toNat then some (Cause.uncorr, s.core.ctl.drsel.toNat) else none

/-- `crr`. -/
def execCrr (d : BitVec 5) (n : BitVec 12) (s : State) : Out :=
  s.checked ((s.ctrlCheck (ctrlWord 0 d 0 n) n none).or (s.crError n)) (s.setG d (s.readCr n.toNat)).adv

/-- `crw`. -/
def execCrw (a : BitVec 5) (n : BitVec 12) (s : State) : Out :=
  s.checked (s.ctrlCheck (ctrlWord 1 0 a n) n (some (s.g a))) (s.on (·.writeCr n.toNat (s.g a))).adv

/-- `crs`: bits set in one indivisible step, the old value returned. -/
def execCrs (d a : BitVec 5) (n : BitVec 12) (s : State) : Out :=
  let old := s.readCr n.toNat
  let x := old ||| s.g a
  s.checked (s.ctrlCheck (ctrlWord 2 d a n) n (some x) |>.or (s.crError n)) ((s.on (·.writeCr n.toNat x)).setG d old).adv

/-- `crc`: bits cleared in one indivisible step, the old value returned. -/
def execCrc (d a : BitVec 5) (n : BitVec 12) (s : State) : Out :=
  let old := s.readCr n.toNat
  let x := old &&& ~~~s.g a
  s.checked (s.ctrlCheck (ctrlWord 3 d a n) n (some x) |>.or (s.crError n)) ((s.on (·.writeCr n.toNat x)).setG d old).adv

end Sys2Proof.Machine
end

