-- ==== Sys2Proof/Machine/Msg.lean ====
section
/-!
DEFINITION. Sys2Proof/Machine/Msg.lean: messages and channels (R162 to R164, R176 to R182).
-/

namespace Sys2Proof.Machine

/-! ## Queues -/

/-- The units a message takes in the receive queue (R162). -/
def Msg.units (m : Msg) : Nat := if m.v then 5 else 1

/-- Free units of the receive queue (R162). -/
def Core.freeUnits (c : Core) : Nat := 512 - (c.msgs.queue.map Msg.units).sum

/-- The messages of channel `n`. -/
def Core.channel (c : Core) (n : Nat) : List Msg := c.msgs.queue.filter (·.chan == n)

/-- A list without its first element that satisfies a test. -/
def dropFirst {α : Type} (f : α → Bool) : List α → List α
  | [] => []
  | x :: xs => if f x then xs else x :: dropFirst f xs

/-- The head of channel `n` removed; its units are free at once (R179). -/
def Core.popChannel (c : Core) (n : Nat) : Core :=
  { c with msgs := { c.msgs with queue := dropFirst (·.chan == n) c.msgs.queue } }

/-- The cores of the domain that are listed, live and saved. -/
def State.allCores (s : State) : List Core := s.core :: (s.others.map (·.2) ++ s.saved.map (·.2))

/-- The messages of some senders that wait in the mesh: every message that has not entered its channel, those on their
way and those that a team holds among them, which the spec does not settle (R162, R182; DESIGN CHOICE,
notes/assumptions/64.md). -/
def State.inMesh (s : State) (from_ : Nat → Bool) : Nat :=
  (s.mesh.filter fun (m : Msg) => from_ m.src).length +
    (s.allCores.map fun c => ((c.msgs.iface ++ c.msgs.held).filter fun (m : Msg) => from_ m.src).length).sum

/-- A thread's messages that wait in the mesh (R182). -/
def State.waitingOf (s : State) (src : Nat) : Nat := s.inMesh (· == src)

/-- A core's messages that wait in the mesh, whichever of its threads sent them (R162, R177). -/
def State.coreWaiting (s : State) (c : Nat) : Nat := s.inMesh fun k => threadCore k == c

/-- The LIMIT check of a channel number (R21). -/
def State.chanCheck (s : State) (n : BitVec 4) : Option Trap :=
  if !s.priv && decide (s.core.ctl.clim.toNat ≤ n.toNat) then some (Cause.limit, n.toNat) else none

/-- The check of a core address in a register (R177, R190). -/
def addrCheck (x : Word) : Option Trap := if x.toNat / 2 ^ 23 ≠ 0 then some (Cause.bounds, x.toNat) else none

/-- Does a core run a thread: one that has not ended, stopped for pre-emption or for a debugger included (R164)? -/
def Core.alive (c : Core) : Bool :=
  match c.run with
  | .running | .preemptHalt | .haltDebug => true
  | _ => false

/-- A discarded message counted at its sender's thread (R164, R178). -/
def State.countLost (s : State) (src : Nat) : State :=
  s.atThread src (·.on fun c => { c with msgs := { c.msgs with undeliv := satInc c.msgs.undeliv } })

/-- Messages that are discarded, each counted at its sender's thread. -/
def State.loseMsgs (s : State) (l : List Msg) : State := l.foldl (fun t (m : Msg) => t.countLost m.src) s

/-- The messages that wait at the interface of the core in focus are discarded, because its thread ends (R164). -/
def State.dropWaiting (s : State) : State :=
  (s.on fun c => { c with msgs := { c.msgs with iface := [], held := [] } }).loseMsgs (s.core.msgs.iface ++ s.core.msgs.held)

/-! ## The outbound buffer of a team member (R373) -/

/-- Bytes an entry holds (R373). -/
def OutOp.bytes : OutOp → Nat
  | .stx _ _ _ _ _ _ _ _ _ _ => 32
  | .send m => if m.v then 96 else 32
  | .grel _ _ => 16
  | .place _ => 16

/-- Free bytes of the outbound buffer of 32 KiB. -/
def Core.outFree (c : Core) : Nat :=
  32768 - ((c.team.committed ++ c.team.outbuf).map OutOp.bytes).sum

/-- OUTBUF_FULL when an entry of `n` bytes would overfill the buffer (R373). -/
def State.outCheck (s : State) (n : Nat) : Option Trap :=
  if s.core.ctl.status.ckpt && decide (s.core.outFree < n) then some (Cause.outbufFull, s.core.outFree) else none

/-- An entry appended to the outbound buffer. -/
def State.outPush (s : State) (o : OutOp) : State :=
  s.on fun c => { c with team := { c.team with outbuf := c.team.outbuf ++ [o] } }

/-- TEAM_OP for an instruction that a team member may not execute; EINFO is its word (R335, R373). -/
def State.teamCheck (s : State) (word : BitVec 32) : Option Trap :=
  if s.core.ctl.status.ckpt then some (Cause.teamOp, word.toNat) else none

/-! ## Sending (R177) -/

/-- The message that `send` or `send.v` forms (R177). -/
def State.message (s : State) (a : BitVec 5) (v : Bool) (data : BitVec 512) (t : BitVec 1) (n : BitVec 4) : Msg :=
  { src := s.core.thread, dst := (s.g a).toNat, chan := n.toNat, v := v, data := data, nt := t == 1,
    topx := s.core.ctl.status.topx, pid := s.core.ctl.pid }

/-- A message leaves: into the mesh, or in a team into the outbound buffer; a core with four messages waiting
stalls (R177, R373). -/
def State.sendMsg (s : State) (m : Msg) : State :=
  if s.core.ctl.status.ckpt then (s.outPush (.send m)).adv
  else if 4 ≤ s.coreWaiting s.core.addr.toNat then s.waiting .other
  else { s with mesh := s.mesh ++ [m] }.adv

/-- `send`. -/
def execSend (a b : BitVec 5) (t : BitVec 1) (n : BitVec 4) (s : State) : Out :=
  s.checked ((s.chanCheck n).or ((addrCheck (s.g a)).or (s.outCheck 32)))
    (s.sendMsg (s.message a false ((s.g b).setWidth 512) t n))

/-- `send.v`. Where the v register and the channel both reach their limits, the spec does not say which number EINFO gives;
the v register's is reported here, and by `recv.v` and `recv.t.v` (DESIGN CHOICE, notes/assumptions/25.md). -/
def execSendV (a b : BitVec 5) (t : BitVec 1) (n : BitVec 4) (s : State) : Out :=
  s.checked ((s.vcheck [b]).or ((s.chanCheck n).or ((addrCheck (s.g a)).or (s.outCheck 96))))
    (s.sendMsg (s.message a true (s.v b) t n))

/-! ## Receiving (R179 to R182) -/

/-- The checks on the message at the head of a channel (R179). -/
def State.msgCheck (s : State) (m : Msg) (v : Bool) (raw : BitVec 1) (n : BitVec 4) : Option Trap :=
  if m.v != v then some (Cause.msgKind, n.toNat + 256 * m.v.toNat)
  else if raw = 0 ∧ m.nt ∧ m.topx ≠ s.core.ctl.status.topx then
    some (Cause.formatMismatch, n.toNat + 256 * m.topx.toNat)
  else none

/-- The core waits in a receive on channel `n`: the watchdog counts from the clk at which it began (R180), and the
census shows the channel (R382). -/
def State.waitRecv (s : State) (n : BitVec 4) : State :=
  let since := match s.core.wait with
    | .recv k t => if k = n.toNat then t else s.clk
    | _ => s.clk
  s.on fun c => { c with wait := .recv n.toNat since, census := { c.census with chan := n } }

/-- A receive that waits: `take` is what a message does to the registers. -/
def State.recvWith (s : State) (lim : Option Trap) (v : Bool) (raw : BitVec 1) (n : BitVec 4)
    (take : State → Msg → State) : Out :=
  match s.core.channel n.toNat with
  | [] => s.checked lim (s.waitRecv n)
  | m :: _ => s.checked (lim.or (s.msgCheck m v raw n)) (take (s.on (·.popChannel n.toNat)) m).adv

/-- `recv`. -/
def execRecv (d : BitVec 5) (r : BitVec 1) (n : BitVec 4) (s : State) : Out :=
  s.recvWith (s.chanCheck n) false r n fun t m => t.setG d (m.data.setWidth 64)

/-- `recv.v`. -/
def execRecvV (d : BitVec 5) (r : BitVec 1) (n : BitVec 4) (s : State) : Out :=
  s.recvWith ((s.vcheck [d]).or (s.chanCheck n)) true r n fun t m => t.setV d m.data

/-- `recv.t`: never waits; the status register is written after the data (R181). -/
def execRecvT (d a : BitVec 5) (r : BitVec 1) (n : BitVec 4) (s : State) : Out :=
  match s.core.channel n.toNat with
  | [] => s.checked (s.chanCheck n) ((s.setG d (BitVec.allOnes 64)).setG a (BitVec.allOnes 64)).adv
  | m :: _ => s.checked ((s.chanCheck n).or (s.msgCheck m false r n))
      (((s.on (·.popChannel n.toNat)).setG d (m.data.setWidth 64)).setG a 0).adv

/-- `recv.t.v`: an empty channel leaves v[d] unchanged (R181). -/
def execRecvTV (d a : BitVec 5) (r : BitVec 1) (n : BitVec 4) (s : State) : Out :=
  let lim := (s.vcheck [d]).or (s.chanCheck n)
  match s.core.channel n.toNat with
  | [] => s.checked lim (s.setG a (BitVec.allOnes 64)).adv
  | m :: _ => s.checked (lim.or (s.msgCheck m true r n))
      (((s.on (·.popChannel n.toNat)).setV d m.data).setG a 0).adv

/-- The message status (R182). -/
def State.msgStatus (s : State) (n : Nat) : Word :=
  BitVec.ofNat 64 (s.core.msgs.undeliv.toNat * 2 ^ 32 + s.waitingOf s.core.thread % 8 * 2 ^ 26 +
    s.core.freeUnits * 2 ^ 16 + (s.core.channel n).length)

/-- `msgst`. -/
def execMsgst (d : BitVec 5) (n : BitVec 4) (s : State) : Out :=
  s.checked (s.chanCheck n) (s.setG d (s.msgStatus n.toNat)).adv

/-! ## The events of the mesh -/

/-- An event that names a core by its address, or a thread by its name (for a saved context, R369). -/
def State.atAgent (s : State) (c : Nat) (f : State → State) : State :=
  if c < 2 ^ 23 then s.at c f else s.atThread c f

/-- The thread that takes a message: the one that runs on the destination, else a saved one of the same process
(R164); none on a die whose cores have run no thread since its reset (R396). -/
def State.receiver (s : State) (m : Msg) : Option Nat :=
  let c := s.getCore m.dst
  let quiet := !isMemCore m.dst && (s.getPkg (pkgOf m.dst)).dieQuiet.getLsbD (dieOf m.dst)
  if m.dst < 2 ^ 23 ∧ s.coreExists m.dst ∧ !(isMemCore m.dst && !isChannelCore m.dst) ∧ !quiet then
    if c.alive && c.ctl.pid == m.pid then some c.thread
    else ((s.saved.map (·.2)).find? fun k => k.addr.toNat == m.dst && k.ctl.pid == m.pid).map Core.thread
  else none

/-- The barrier that sets CKPT for a core (R371). -/
def Core.teamRect (c : Core) : Option Word := c.ctl.brect.toList.find? fun x => bitOf x 47 && bitOf x 46

/-- The first message at the interface enters its channel when the queue has room, and the latch is set; at a core whose
thread has ended all that wait are undeliverable (R162, R164, R115). -/
def State.enterChannel (s : State) : State :=
  if !s.core.alive then s.dropWaiting else
  match s.core.msgs.iface with
  | [] => s
  | m :: r =>
    if m.units ≤ s.core.freeUnits then
      (s.on fun c => { c with msgs := { c.msgs with queue := c.msgs.queue ++ [m], iface := r } }).setLatch
    else s

/-- MESSAGE_ENTERS_CHANNEL. -/
def execMessageEntersChannel (c : Nat) (s : State) : Out := .next (s.atAgent c State.enterChannel)

/-- RX_WATCHDOG: a receive that has waited on an empty channel for the period of RXWATCH traps; time does not pass that clk
before it has (R180). -/
def State.rxExpire (s : State) : State :=
  match s.core.run, s.core.wait with
  | .running, .recv n since =>
    if s.core.ctl.rxwatch.toNat ≤ s.clk - since ∧ s.core.channel n = [] then
      (s.on fun c => { c with
        census := { c.census with wd := true, chan := BitVec.ofNat 4 n }
        faults := { c.faults with rxwd := satInc c.faults.rxwd } }).trap (Cause.rxWatchdog, n)
    else s
  | _, _ => s

/-- RX_WATCHDOG. -/
def execRxWatchdog (c : Nat) (s : State) : Out := .next (s.at c State.rxExpire)

end Sys2Proof.Machine
end

