-- ==== Sys2Proof/Machine/GangOps.lean ====
section
/-!
DEFINITION. Sys2Proof/Machine/GangOps.lean: gangs (R144 to R147, R189 to R192).
-/

namespace Sys2Proof.Machine

/-- Position within the cluster (R144). -/
def posOf (c : Nat) : Nat := 4 * (rowOf c % 2) + colOf c % 4

/-- Do two clusters of a die share an edge, or are they the same (R144)? -/
def clustersMeet (x y : Nat) : Bool :=
  (x / 4 == y / 4 && decide (x % 4 ≤ y % 4 + 1 ∧ y % 4 ≤ x % 4 + 1)) ||
  (x % 4 == y % 4 && decide (x / 4 ≤ y / 4 + 1 ∧ y / 4 ≤ x / 4 + 1))

/-- May a leader at `l` be followed from `c` by place: the same die, the same or an adjacent cluster (R190)? -/
def nearLeader (c l : Nat) : Bool :=
  !isMemCore l && pkgOf l == pkgOf c && dieOf l == dieOf c && clustersMeet (clusterOf c) (clusterOf l)

/-- The lowest index of 1 to 7 that no member has (R191). -/
def freeIndex (ms : List (Nat × Nat)) : Nat :=
  ((List.range 8).drop 1).find? (fun i => !ms.any (·.2 == i)) |>.getD 7

/-- The conditions 2 to 5 of R190 on a leader and a core that would follow it, in their order. -/
def leaderRefusal (l f : Core) : Option Word :=
  if l.follows then some 2
  else if !(l.alive && l.info.num == f.info.num && l.ctl.pid == f.ctl.pid) then some 3
  else if 7 ≤ l.members.length then some 4
  else if f.gang.role ≠ .alone then some 5
  else none

/-- The conditions under which the core executing `follow` sends no request: the status of the first that fails (R190). Those
on the leader are tested again when it takes the request. -/
def State.followRefusal (s : State) (l : Nat) : Option Word :=
  if !nearLeader s.core.addr.toNat l then some 1
  else if l = s.core.addr.toNat then some 2
  else leaderRefusal (s.getCore l) s.core

/-- `follow`: a request travels to the leader, and the core waits (R190). -/
def execFollow (d a : BitVec 5) (s : State) : Out :=
  let l := (s.g a).toNat
  match s.core.gang.asked with
  | some _ => .next (s.waiting .task)
  | none =>
    match s.followRefusal l with
    | some code => s.checked (addrCheck (s.g a)) (s.setG d code).adv
    | none => s.checked (addrCheck (s.g a))
        ({ (s.setG d 0).on fun c => { c with gang := { c.gang with asked := some (l, d) } } with
          follows := s.follows ++ [(s.core.addr.toNat, l)] }.waiting .task)

/-- A follower joins: its pc is the leader's, and it executes the leader's stream from here (R146, R190). -/
def State.join (s : State) (l f : Nat) : State :=
  let ms := (s.getCore l).members
  let i := freeIndex ms
  let pc := (s.getCore l).regs.pc
  (s.modCore l fun c => { c with gang := { c.gang with role := .leader (c.members ++ [(f, i)]) } }).modCore f
    fun c => { c.setPc pc with
      gang := { role := .follower l i, stream := [], begun := none, size := ms.length + 2, asked := none }
      wait := .no, fbuf := none }

/-- Does a leader stand at a boundary where it takes requests: outside a frame, and in the middle of no word (R190)? One
that has ended answers at once; one that has stopped for pre-emption or for a debugger takes none till it goes on. -/
def Core.takesFollows (c : Core) : Bool :=
  match c.run with
  | .running => c.frame.isNone && c.outst.isNone && decide (c.wait = .no)
  | .preemptHalt | .haltDebug => false
  | _ => true

/-- FOLLOW_REQUEST_TAKEN: the leader takes the request at a boundary outside a frame; a leader that has ended
answers 3, one that is a follower 2 (R190). -/
def execFollowRequestTaken (leader follower : Nat) (s : State) : Out :=
  let l := s.getCore leader
  let f := s.getCore follower
  if s.follows.contains (follower, leader) ∧ (l.takesFollows ∨ (leaderRefusal l f).isSome) then
    let t := { s with follows := s.follows.erase (follower, leader) }
    match f.gang.asked with
    | none => .next t
    | some (_, d) =>
      match leaderRefusal l f with
      | some code => .next (t.modCore follower fun c =>
          let c1 := c.setG d code
          { c1.setPc (c1.regs.pc + 4) with gang := { c1.gang with asked := none }, wait := .no })
      | none => .next (t.join leader follower)
  else .next s

/-- `split`: a gang dissolves, and every member goes on after it; a core that is alone goes on (R191). -/
def execSplit (s : State) : Out := .next (s.leaveGangBy .split).adv

/-- The gang status of a core (R191); a follower's size is that at the word it executes. -/
def State.gangStatus (s : State) : Word :=
  let c := s.core
  match c.gang.role with
  | .alone => BitVec.ofNat 64 (1 + c.addr.toNat * 2 ^ 32)
  | .leader ms => BitVec.ofNat 64 (ms.length + 1 + 1 * 2 ^ 8 + c.addr.toNat * 2 ^ 32)
  | .follower l i => BitVec.ofNat 64 (c.gang.size + i * 16 + 2 * 2 ^ 8 + l * 2 ^ 32)

/-- `gangst`. -/
def execGangst (d : BitVec 5) (s : State) : Out := s.result d s.gangStatus

end Sys2Proof.Machine
end

