-- ==== Sys2Proof/Machine/Range.lean ====
section
/-!
DEFINITION. Sys2Proof/Machine/Range.lean: range entries, the lookup in core tables and station catalogues, and the
checks of `RangeLookup` (R206 to R219, R272).
-/

namespace Sys2Proof.Machine

/-! ## Entries (R208 to R211) -/

/-- The kinds of access of `RangeLookup` (R212); `engineBoth` is the engine access that needs RD and W (R275). -/
inductive AccKind where
  | threadRead
  | threadWrite
  | threadAtomic
  | engineRead
  | engineWrite
  | engineBoth
  | codeRead
deriving DecidableEq, Repr

/-- Is it a thread kind? -/
def AccKind.isThread : AccKind → Bool
  | .threadRead | .threadWrite | .threadAtomic => true
  | _ => false

/-- KIND private (R209). -/
abbrev kindPrivate : BitVec 3 := 0
/-- KIND guarded (R209). -/
abbrev kindGuarded : BitVec 3 := 1
/-- KIND sync (R209). -/
abbrev kindSync : BitVec 3 := 2
/-- KIND stream (R209). -/
abbrev kindStream : BitVec 3 := 3
/-- KIND io (R209). -/
abbrev kindIo : BitVec 3 := 4

/-- An entry from its 64 bytes (R208). -/
def RangeEntry.ofBits (x : BitVec 512) : RangeEntry :=
  { base := x.extractLsb' 0 64, limit := x.extractLsb' 64 64, offset := x.extractLsb' 128 64
    e := x.getLsbD 195, x := x.getLsbD 194, w := x.getLsbD 193, rd := x.getLsbD 192
    place := x.extractLsb' 204 2, hord := x.getLsbD 203, kind := x.extractLsb' 200 3
    pid := x.extractLsb' 208 16, resmap := x.extractLsb' 256 64 }

/-- An entry as 64 bytes (R208). -/
def RangeEntry.bits (r : RangeEntry) : BitVec 512 :=
  BitVec.ofNat 512 (r.base.toNat + r.limit.toNat * 2 ^ 64 + r.offset.toNat * 2 ^ 128 +
    (r.rd.toNat + 2 * r.w.toNat + 4 * r.x.toNat + 8 * r.e.toNat) * 2 ^ 192 +
    (r.kind.toNat + 8 * r.hord.toNat + 16 * r.place.toNat) * 2 ^ 200 + r.pid.toNat * 2 ^ 208 +
    r.resmap.toNat * 2 ^ 256)

/-- Does the entry contain an address? -/
def RangeEntry.contains (r : RangeEntry) (va : Nat) : Bool := decide (r.base.toNat ≤ va) && decide (va < r.limit.toNat)

/-- The size S of a sixty-fourth (R211). -/
def RangeEntry.cut (r : RangeEntry) : Nat := 64 * ((r.limit.toNat - r.base.toNat + 4095) / 4096)

/-- The DPA of an address (R212): Wrap(va + OFFSET, 52). -/
def RangeEntry.pa (r : RangeEntry) (va : Nat) : Nat := (va + r.offset.toNat) % 2 ^ 52

/-- Does the package-local span lie in a window that admits the kind; windows of stacks that are absent admit nothing
(R207, R210, R221)? The window of a stack that reports fewer than 16 channels stays whole, every byte of it apart (DESIGN
CHOICE, notes/assumptions/58.md). -/
def windowOk (p : Package) (r : RangeEntry) (lo n : Nat) : Bool :=
  if r.kind = kindIo then
    (decide (0x18000000000 ≤ lo ∧ lo + n ≤ 0x1C000000000) || decide (0x1C000000000 ≤ lo ∧ lo + n ≤ 0x20000000000)) &&
      r.place == 0
  else decide (lo + n ≤ stackedSize) &&
    if r.place = 0 then decide (lo / homeWindow = (lo + n - 1) / homeWindow) && p.hasStack (lo / homeWindow)
    else (List.range 16).all fun k =>
      p.hasStack k || !decide (lo < (k + 1) * homeWindow ∧ k * homeWindow < lo + n)

/-- Is the entry well-formed by R210, but for overlap? `p` is the package its DPAs name. -/
def RangeEntry.wf (r : RangeEntry) (pkgs : Nat → Package) : Bool :=
  let z := r.limit.toNat - r.base.toNat
  let lo : Int := r.base.toNat + r.offset.toInt
  r.base.toNat % 64 == 0 && decide (r.base.toNat < r.limit.toNat) && decide (r.limit.toNat ≤ 2 ^ 60) &&
    r.limit.toNat % 64 == 0 && r.offset.toNat % 64 == 0 && decide (r.kind.toNat < 5) && r.place != 3 &&
    (!r.hord || r.kind == kindIo) && decide (0 ≤ lo ∧ lo + z ≤ 2 ^ 52) &&
    lo.toNat / 2 ^ 41 == (lo.toNat + z - 1) / 2 ^ 41 && windowOk (pkgs (lo.toNat / 2 ^ 41)) r (lo.toNat % 2 ^ 41) z

/-- The bits that R208 reserves, and those that must be zero in BASE, LIMIT and OFFSET, are zero. -/
def entryReserved (x : BitVec 512) : Bool :=
  x.extractLsb' 196 4 == 0 && x.extractLsb' 206 2 == 0 && x.extractLsb' 224 32 == 0 && x.extractLsb' 320 192 == 0

/-- Do two entries overlap? -/
def RangeEntry.overlaps (r q : RangeEntry) : Bool :=
  decide (r.base.toNat < q.limit.toNat) && decide (q.base.toNat < r.limit.toNat)

/-! ## The checks of `RangeLookup` (R212) -/

/-- `RangeFault(reason, x)` (R212). -/
def rangeFault (reason x : Nat) : Trap := (Cause.range, x % 2 ^ 60 + 2 ^ 60 * reason)

/-- A translation: DPA, placement, kind, HORD, and the BASE of its entry. -/
structure Xlat where
  pa : Nat
  place : BitVec 2
  kind : BitVec 3
  hord : Bool
  base : Nat
deriving DecidableEq, Repr

/-- The translation of an address by an entry. -/
def RangeEntry.xlat (r : RangeEntry) (va : Nat) : Xlat :=
  { pa := r.pa va, place := r.place, kind := r.kind, hord := r.hord, base := r.base.toNat }

/-- The permission test of R212. -/
def AccKind.permitted (k : AccKind) (r : RangeEntry) : Bool :=
  match k with
  | .threadRead | .engineRead => r.rd
  | .threadWrite | .engineWrite => r.w
  | .threadAtomic | .engineBoth => r.rd && r.w
  | .codeRead => r.x

/-- The first sixty-fourth of an access that is not resident (R211, R212). -/
def RangeEntry.missingPart (r : RangeEntry) (va n : Nat) : Option Nat :=
  let lo := (va - r.base.toNat) / r.cut
  let hi := (va + n - 1 - r.base.toNat) / r.cut
  ((List.range (hi - lo + 1)).map (lo + ·)).find? fun j => !r.resmap.getLsbD j

/-- The checks of R212 on an access that an entry contains. -/
def RangeEntry.check (r : RangeEntry) (va : Nat) (k : AccKind) (n : Nat) : Option Trap :=
  if r.limit.toNat < va + n then some (rangeFault 6 va)
  else if k.isThread ∧ r.e then some (rangeFault 4 va)
  else if k.isThread ∧ r.kind = kindGuarded then some (rangeFault 8 va)
  else if !k.permitted r then some (rangeFault 2 va)
  else if k = .threadAtomic ∧ r.kind ≠ kindPrivate ∧ r.kind ≠ kindSync then some (rangeFault 5 va)
  else (r.missingPart va n).map fun j => (Cause.residency, r.base.toNat + j * r.cut)

/-! ## Core tables (R214 to R216) -/

/-- The station of a core (R214), numbered over the domain. -/
def stationOf (c : Nat) : Nat :=
  pkgOf c * 64 + dieOf c * 8 + if isMemCore c then 4 * rowOf c + colOf c / 4 else clusterOf c / 4

/-- The catalogue of a station. -/
def State.catalogue (s : State) (k : Nat) : List CatEntry := agetD s.stations k []

/-- A change to a catalogue. -/
def State.modCatalogue (s : State) (k : Nat) (f : List CatEntry → List CatEntry) : State :=
  { s with stations := aset s.stations k (f (s.catalogue k)) }

/-- Accesses of a thread in use on the range with a BASE: outstanding and posted accesses, ordered stores, buffered
stores of a team member, and pending operations (R216). -/
def State.usesOf (s : State) (c : Core) (base : Nat) : Nat :=
  (match c.outst with
    | some o => if o.uses = base then 1 else 0
    | none => 0) +
  (c.ops.filter fun (o : Op) => o.uses.contains base).length +
  (s.posted.filter fun (p : Posted) => p.core == c.thread && p.uses == some base).length +
  (s.ordered.filter fun (p : OrdStore) => p.core == c.thread && p.uses == some base).length +
  ((c.team.committed ++ c.team.outbuf).filter fun o => match o with
    | .stx _ _ _ _ _ _ _ _ b _ => b == base
    | _ => false).length

/-- Bindings held, each of which occupies a table entry (R214). -/
def Core.bindCount (c : Core) : Nat := (c.binds.toList.filter Option.isSome).length

/-- The entry of a table that translates an address: one that is not draining (R216). -/
def Core.tableFind (c : Core) (va : Nat) : Option TableEntry :=
  c.rtab.entries.find? fun (t : TableEntry) =>
    t.state != .drain && t.entry.pid == c.ctl.pid && t.entry.contains va

/-- The table with the entry of a BASE most recently used. -/
def Core.touch (c : Core) (base : Nat) : Core :=
  let here := fun (t : TableEntry) => t.entry.base.toNat == base && t.state != .drain
  { c with rtab := { c.rtab with
      entries := c.rtab.entries.filter here ++ c.rtab.entries.filter (fun t => !here t) } }

/-- Drops the last element that satisfies a test. -/
def dropLast {α : Type} (f : α → Bool) (l : List α) : List α := (dropFirst f l.reverse).reverse

/-- Room made for one more entry: a free place, or the least recently used VALID entry with no access in use; none
while every entry is in use (R215). -/
def State.tableRoom (s : State) : Option Core :=
  let c := s.core
  let free := fun (t : TableEntry) => t.state == .valid && s.usesOf c t.entry.base.toNat == 0
  if c.rtab.entries.length + c.bindCount < 32 then some c
  else if c.rtab.entries.any free then
    some { c with rtab := { c.rtab with entries := dropLast free c.rtab.entries } }
  else none

/-- An entry installed in the table of the core in focus (R216). -/
def State.fill (s : State) (e : RangeEntry) (moving : Bool) : Option State :=
  match s.tableRoom with
  | none => none
  | some c =>
    let t : TableEntry := { entry := e, state := if moving then .moving else .valid }
    some (s.on fun _ => { c with rtab := { c.rtab with entries := t :: c.rtab.entries } })

/-- What a station's lookup answers (R217). -/
inductive StationAns where
  | absent
  | wait
  | hit (e : CatEntry)
deriving DecidableEq, Repr

/-- A lookup at a station: an entry that changes makes it wait; of several overlapping entries a free one is found
(R217, R222). -/
def State.stationFind (s : State) (k : Nat) (pid : BitVec 16) (va : Nat) : StationAns × State :=
  let ms := (s.catalogue k).filter fun (e : CatEntry) => e.entry.pid == pid && e.entry.contains va
  if ms.any (·.state == .changing) then (.wait, s)
  else match ms with
    | [] => (.absent, s)
    | [e] => (.hit e, s)
    | e :: r =>
      let (n, t) := s.fresh
      (.hit ((e :: r).getD (Config.freeNat n % (r.length + 1)) e), t)

/-- The range entry that the core's table or station gives for an address. -/
def State.entryFor (s : State) (va : Nat) : Option RangeEntry :=
  match s.core.tableFind va with
  | some t => some t.entry
  | none => match (s.stationFind (stationOf s.core.addr.toNat) s.core.ctl.pid va).1 with
    | .hit e => some e.entry
    | _ => none

/-- The holder is added to the mask of an entry (R214). -/
def addHolder (pid : BitVec 16) (base : Word) (c : Nat) (l : List CatEntry) : List CatEntry :=
  l.map fun (e : CatEntry) =>
    if e.entry.pid = pid ∧ e.entry.base = base ∧ !e.holders.contains c then { e with holders := c :: e.holders } else e

/-- A table miss goes to the station; a hit is installed and the core becomes a holder. `none` while it waits; the
inner `none` when no entry is found (R214, R217). -/
def State.stationFill (s : State) (va : Nat) : Option (Option RangeEntry × State) :=
  let k := stationOf s.core.addr.toNat
  match s.stationFind k s.core.ctl.pid va with
  | (.wait, _) => none
  | (.absent, t) => some (none, t)
  | (.hit e, t) =>
    match t.fill e.entry (e.state == .moving) with
    | none => none
    | some t1 => some (some e.entry, t1.modCatalogue k (addHolder e.entry.pid e.entry.base s.core.addr.toNat))

/-- A miss is counted; whether it read the catalogue from memory is free (R215, R272). -/
def State.countMiss (s : State) : State :=
  let (n, t) := s.fresh
  t.on fun c => { c with rtab := { c.rtab with
    tmiss := satInc c.rtab.tmiss, cmiss := if Config.freeBool n then satInc c.rtab.cmiss else c.rtab.cmiss } }

/-- How a translation ends: done, waiting (with the state in which it waits), or faulting. -/
inductive XlatRes where
  | ok (x : Xlat) (s : State)
  | wait (s : State)
  | fault (t : Trap) (s : State)
deriving DecidableEq, Repr

/-- A translation by a table entry (R216). -/
def State.xlatBy (s : State) (t : TableEntry) (va : Nat) (k : AccKind) (n : Nat) : XlatRes :=
  if t.state = .moving then .wait s
  else match t.entry.check va k n with
    | some f => .fault f s
    | none => .ok (t.entry.xlat va) (s.on (·.touch t.entry.base.toNat))

/-- `RangeLookup` for the scalar pipeline: a miss waits for STATION_LOOKUP (R212, R214). -/
def State.threadXlat (s : State) (va : Word) (k : AccKind) (n : Nat) : XlatRes :=
  if va.toNat / 2 ^ 60 ≠ 0 then .fault (rangeFault 1 va.toNat) s
  else match s.core.tableFind va.toNat with
    | some t => s.xlatBy t va.toNat k n
    | none =>
      if s.core.rtab.miss = some va then
        if s.core.rtab.notFound then .fault (rangeFault 0 va.toNat) s else .wait s
      else .wait (s.countMiss.on fun c => { c with rtab := { c.rtab with miss := some va, notFound := false } })

/-- The entry of the table that translates an address for an engine operation: also one that drains or moves, if the
operation uses it already (R216). -/
def Core.engineFind (c : Core) (held : List Nat) (va : Nat) : Option TableEntry :=
  match c.rtab.entries.find? fun (t : TableEntry) =>
      held.contains t.entry.base.toNat && t.entry.pid == c.ctl.pid && t.entry.contains va with
  | some t => some { t with state := .valid }
  | none => c.tableFind va

/-- `RangeLookup` for an engine operation of the core in focus that uses the entries with the bases `held` (R212,
R214). -/
def State.engineXlat (s : State) (held : List Nat) (va : Word) (k : AccKind) (n : Nat) : XlatRes :=
  if va.toNat / 2 ^ 60 ≠ 0 then .fault (rangeFault 1 va.toNat) s
  else match s.core.engineFind held va.toNat with
    | some t => s.xlatBy t va.toNat k n
    | none =>
      match s.countMiss.stationFill va.toNat with
      | none => .wait s
      | some (none, t) => .fault (rangeFault 0 va.toNat) t
      | some (some _, t) =>
        match t.core.tableFind va.toNat with
        | some e => t.xlatBy e va.toNat k n
        | none => .wait t

/-- STATION_LOOKUP at the core in focus: the miss of its thread access is answered (R214). -/
def State.answerMiss (s : State) : State :=
  match s.core.rtab.miss with
  | none => s
  | some va =>
    if s.core.rtab.notFound then s
    else match s.stationFill va.toNat with
      | none => s
      | some (none, t) => t.on fun c => { c with rtab := { c.rtab with notFound := true } }
      | some (some _, t) => t.on fun c => { c with rtab := { c.rtab with miss := none, notFound := false } }

/-- STATION_LOOKUP. -/
def execStationLookup (c : Nat) (s : State) : Out := .next (s.at c State.answerMiss)

end Sys2Proof.Machine
end

