-- ==== Sys2Proof/Machine/Weak.lean ====
section
/-!
DEFINITION. Sys2Proof/Machine/Weak.lean: the order of accesses to off-core bytes (R228 to R238): what a read may
return, what a write leaves behind, releases and acquires, and fences. Every write is performed in one step and its number
is its place in the coherence order of its bytes; a read of a thread or of an engine operation returns any write that is
not older than one visible to it. What this leaves out of the orders that R232 and R233 allow stands in
notes/assumptions/10.md.
-/

namespace Sys2Proof.Machine

/-! ## Events -/

/-- Does an event write the byte at a key? -/
def WEvent.covers (e : WEvent) (k : Nat) : Bool := decide (e.key ≤ k) && decide (k < e.key + e.old.length)

/-- The events that write one of `n` bytes from a key up, newest first. -/
def Order.touching (o : Order) (k n : Nat) : List WEvent :=
  o.events.filter fun (e : WEvent) => overlap e.key e.old.length k n

/-- The first number past the events of a list that are visible. -/
def seenFloor (seen : List Nat) (es : List WEvent) : Nat :=
  es.foldl (fun m (e : WEvent) => if seen.contains e.id then max m (e.id + 1) else m) 0

/-! ## What a read returns (R231, R233, R237) -/

/-- A cut between `low` and `top`: the oldest of the given events that the read does not see, or `top`. -/
def freeCutOf (tick key low top : Nat) (es : List WEvent) : Nat :=
  let us := es.filter fun (e : WEvent) => decide (low ≤ e.id) && decide (e.id < top)
  if us.isEmpty then top
  else match Config.freeCut tick key % (us.length + 1) with
    | 0 => top
    | j + 1 => (us.map (·.id)).getD j top

/-- Do two events write a byte in common? -/
def WEvent.meets (e f : WEvent) : Bool := overlap e.key e.old.length f.key f.old.length

/-- Those of the given events, newest first, that a read atomic as a unit must see: the visible ones, and every unit event
that stands before such a one at some byte (R231, R237). -/
def mustSee (seen : List Nat) (es : List WEvent) : List WEvent :=
  es.foldl (fun acc e => if seen.contains e.id || (e.unit && acc.any (·.meets e)) then e :: acc else acc) []

/-- The unit events, oldest first, that such a read does not see: each one is chosen by itself, and with it go those that
come after it at some byte (R231, R233). -/
def State.unseenUnits (s : State) (seen : List Nat) (es : List WEvent) : List WEvent :=
  let must := (mustSee seen es).map (·.id)
  (es.filter (·.unit)).reverse.foldl (fun acc e =>
    if must.contains e.id then acc
    else if acc.any (·.meets e) || Config.freeCut s.tick (2 ^ 256 + e.id) % 2 == 1 then acc ++ [e] else acc) []

/-- The cut of byte `i` in a read of `n` bytes from a key up by an agent to which `seen` is visible: it sees the events
below. A read that is atomic as a unit sees each unit event wholly or not at all (R231); every other event, and every
event for any other read, is chosen byte by byte. -/
def State.cutAt (s : State) (seen : List Nat) (unit : Bool) (k n i : Nat) : Nat :=
  let es := s.order.touching k n
  let here := es.filter (·.covers (k + i))
  let shut := if unit then (s.unseenUnits seen es).filter (·.covers (k + i)) else []
  let top := (shut.map (·.id)).headD s.order.next
  let whole := here.filter fun (e : WEvent) => unit && e.unit && decide (e.id < top)
  let low := max (seenFloor seen here) (seenFloor (whole.map (·.id)) whole)
  freeCutOf s.tick (k + i) low top (here.filter fun (e : WEvent) => !(unit && e.unit))

/-- The event whose byte a read of the key with a cut returns; none for the initial contents (R228). -/
def State.eventAt (s : State) (cut k : Nat) : Option WEvent :=
  s.order.events.find? fun (e : WEvent) => decide (e.id < cut) && e.covers k

/-- The byte that a read of the key with a cut returns: what the oldest event not seen has overwritten. -/
def State.byteSeen (s : State) (cut k : Nat) : Byte :=
  match (s.order.events.filter fun (e : WEvent) => decide (cut ≤ e.id) && e.covers k).getLast? with
  | some e => e.old.getD (k - e.key) 0
  | none => s.mem.byte k

/-- The bytes that a read returns, by the cut of each. -/
def State.bytesSeen (s : State) (cut : Nat → Nat) (k n : Nat) : List Byte :=
  if (s.order.touching k n).isEmpty then s.mem.bytes k n else (List.range n).map fun i => s.byteSeen (cut i) (k + i)

/-- The state past the free choices of a read: none is drawn where no event writes the bytes. -/
def State.drewCuts (s : State) (k n : Nat) : State :=
  if (s.order.touching k n).isEmpty then s else { s with tick := s.tick + 1 }

/-! ## Acquiring (R235 to R238) -/

/-- Does a read with the given cuts read a release: every byte the release wrote, each from the release itself or from a
chain of atomics that begins at it (R235)? -/
def State.catches (s : State) (cut : Nat → Nat) (k n : Nat) (r : Release) : Bool :=
  r.word.isNone && decide (k ≤ r.span.lo) && decide (r.span.lo + r.span.len ≤ k + n) && (List.range r.span.len).all fun j =>
    match s.eventAt (cut (r.span.lo + j - k)) (r.span.lo + j) with
    | some e => (e.heads.getD (r.span.lo + j - e.key) []).contains r.id
    | none => false

/-- A thread sees more events. -/
def Core.see (c : Core) (ids : List Nat) : Core := { c with view := { c.view with seen := joinIds ids c.view.seen } }

/-- A thread's read of `n` bytes from a key up has been performed: the events it returned become visible, the releases it
read wait for a `fence.acq`, and an acquire synchronises with them at once (R236, R238). -/
def State.observe (s : State) (cut : Nat → Nat) (k n : Nat) (acq : Option Nat) : State :=
  if (s.order.touching k n).isEmpty then s
  else
    let ids := (List.range n).filterMap fun i => (s.eventAt (cut i) (k + i)).map (·.id)
    let caught := (s.order.rels.filter (s.catches cut k n)).map (·.id)
    let gains := match acq with
      | some t => s.acquired t caught
      | none => []
    (s.on fun c => { (c.see (joinIds gains ids)) with
      view := { (c.see (joinIds gains ids)).view with caught := joinIds caught c.view.caught } }).drewCuts k n

/-! ## Releasing (R236, R238, R240, R241) -/

/-- The events of `seen` that a release by an agent at a scope publishes: those whose writer lies in its instance
(R236). -/
def State.publish (s : State) (a : Agent) (scope : Nat) (seen : List Nat) : List Nat :=
  seen.filter fun id => s.order.events.any fun (e : WEvent) => e.id == id && s.inScope scope a e.writer

/-- How a write stands in the order: its writer with the number of its operation or next dispatch, whether it is atomic
as a unit, the scopes it releases at with what it publishes there, and, for an atomic, whether it continues the chains of
the writes it reads (R235). -/
structure WStand where
  writer : Agent
  seq : BitVec 16
  unit : Bool
  rels : List (Nat × List Nat)
  chains : Bool
deriving DecidableEq, Repr

/-- A plain write of an agent. -/
def WStand.plain (a : Agent) : WStand := { writer := a, seq := 0, unit := false, rels := [], chains := false }

/-- A write of `n` bytes from a key up enters the order, before its bytes are stored. -/
def State.record (s : State) (w : WStand) (pkg k n : Nat) : State :=
  let o := s.order
  let rs := w.rels.zipIdx.map fun x =>
    ({ id := o.next + 1 + x.2, writer := w.writer, scope := x.1.1, span := { lo := k, len := n }, pub := x.1.2
       word := none } : Release)
  let chain := fun (i : Nat) => if w.chains then
      match s.eventAt o.next (k + i) with
      | some e => e.heads.getD (k + i - e.key) []
      | none => []
    else []
  let e : WEvent :=
    { id := o.next, writer := w.writer, seq := w.seq, pkg := pkg, key := k, unit := w.unit, old := s.mem.bytes k n
      heads := (List.range n).map fun i => rs.map (·.id) ++ chain i }
  { s with order := { o with events := e :: o.events, rels := rs ++ o.rels, next := o.next + 1 + rs.length } }

/-- The events recorded since a number. -/
def Order.since (o : Order) (n : Nat) : List Nat := ((o.events.filter fun (e : WEvent) => decide (n ≤ e.id)).map (·.id))

/-- The thread in focus sees its own writes, those recorded since a number (R236). -/
def State.seeOwn (s : State) (n : Nat) : State := s.on (·.see (s.order.since n))

/-- The standing of a write of the thread in focus: a release at a scope or none, beside what its earlier fences give
it (R238). -/
def State.stands (s : State) (unit : Bool) (rel : Option Nat) (chains : Bool) : WStand :=
  { writer := s.agent, seq := s.core.ctl.drnext, unit := unit, chains := chains
    rels := (match rel with
      | some t => [(t, s.publish s.agent t s.core.view.seen)]
      | none => []) ++ s.core.view.standing }

/-- The events of the issuing core that an ordered store publishes: its earlier writes to the package (R240). -/
def State.orderedPub (s : State) (o : OrdStore) : List Nat :=
  (s.order.events.filter fun (e : WEvent) => e.pkg == o.pkg && match e.writer with
    | .thread k => k == o.core && decide (e.id < o.bound)
    | .engine k => k == o.core && decide ((o.mark - e.seq - 1).toNat < 2 ^ 15)
    | _ => false).map (·.id)

/-- A host write's service core and whether its range has HORD, as the number its event keeps (R241). -/
def hostTag (svc : Nat) (hord : Bool) : BitVec 16 := BitVec.ofNat 16 (2 * svc + hord.toNat)

/-- The posted writes that precede a host write in its order: those of its service core, and for a HORD write every
other HORD write (R241). -/
def State.hostPub (s : State) (pkg svc : Nat) (hord : Bool) : List Nat :=
  (s.order.events.filter fun (e : WEvent) => e.writer == .host pkg &&
    (e.seq.toNat / 2 == svc || (hord && e.seq.getLsbD 0))).map (·.id)

/-! ## Guards (R258) -/

/-- The writes that thread `k` issued before it dispatched operation `seq`. -/
def State.ownBefore (s : State) (k : Nat) (seq : BitVec 16) : List Nat :=
  (s.order.events.filter fun (e : WEvent) => e.writer == .thread k && decide ((seq - e.seq).toNat < 2 ^ 15)).map (·.id)

/-- A release of a guard publishes: an exclusive one to every later grant, a shared one to the next exclusive grant. -/
def State.guardPublish (s : State) (gk : Nat) (exclusive : Bool) (pub : List Nat) : State :=
  let o := s.order
  { s with order :=
      if exclusive then { o with guardX := aset o.guardX gk (joinIds pub (agetD o.guardX gk [])) }
      else { o with guardS := aset o.guardS gk (joinIds pub (agetD o.guardS gk [])) } }

/-- A grant to the thread in focus acquires what the guard's releases have published. -/
def State.guardAcquire (s : State) (gk : Nat) (exclusive : Bool) : State :=
  let o := s.order
  let t := s.on (·.see (agetD o.guardX gk []))
  if exclusive then
    { t.on (·.see (agetD o.guardS gk [])) with
      order := { o with guardX := aset o.guardX gk (joinIds (agetD o.guardS gk []) (agetD o.guardX gk []))
                        guardS := adel o.guardS gk } }
  else t

/-! ## Fences (R238) -/

/-- `fence.acq` at a scope: the releases that earlier reads read are acquired now. -/
def State.fenceAcq (s : State) (scope : Nat) : State := s.on (·.see (s.acquired scope s.core.view.caught))

/-- `fence.rel` at a scope: later writes release what is visible here. -/
def State.fenceRel (s : State) (scope : Nat) : State :=
  let x := (scope, s.publish s.agent scope s.core.view.seen)
  s.on fun c => { c with view := { c.view with standing := x :: c.view.standing.filter (·.1 != scope) } }

/-- What the full fences before this one make visible: those of the scope whose agent and this one lie in each other's
instance. -/
def State.fullGains (s : State) (scope : Nat) : List Nat :=
  (s.order.fulls.filter fun (f : FullFence) => f.scope == scope && s.scopesMeet f.agent scope s.agent scope).flatMap
    fun f => s.publish f.agent scope f.seen

/-- `fence.full` at a scope: both, and its place in the total order of the scope's full fences. -/
def State.fenceFull (s : State) (scope : Nat) : State :=
  let t := s.fenceAcq scope
  let u := t.on (·.see (t.fullGains scope))
  let v := u.fenceRel scope
  { v with order := { v.order with fulls := { agent := v.agent, scope := scope, seen := v.core.view.seen } :: v.order.fulls } }

/-! ## Ordered stores that are held (R232, R236, R240) -/

/-- Does the thread in focus have an ordered store that is held? Its releases wait until there is none, so that they
publish its write (R236; DEDUCED, notes/assumptions/12.md). -/
def State.holdsOrdered (s : State) : Bool := s.ordered.any fun (o : OrdStore) => o.core == s.core.thread

/-- Does a held ordered store of the thread in focus write one of these bytes? Its later accesses to them wait, so that
they come after it in coherence order (R232; DEDUCED, notes/assumptions/12.md). -/
def State.orderedHit (s : State) (place : BitVec 2) (pa n : Nat) : Bool :=
  s.ordered.any fun (o : OrdStore) => o.core == s.core.thread && o.place == place && overlap o.dpa o.n pa n

/-- What is visible to an engine operation of the thread in focus: what was visible to the thread at its dispatch, and
what the thread's engine operations have written (R237, R244). -/
def State.engineSeen (s : State) (o : Op) : List Nat :=
  joinIds ((s.order.events.filter fun (e : WEvent) => e.writer == .engine s.core.thread).map (·.id)) o.att.seen

/-- An engine operation of the thread in focus has ended: the thread sees what it wrote (R243, R244). -/
def State.seeOp (s : State) (seq : BitVec 16) : State :=
  s.on (·.see ((s.order.events.filter fun (e : WEvent) => e.writer == .engine s.core.thread && e.seq == seq).map (·.id)))

/-- How a write of an engine operation of the thread in focus stands; a reduction reads and writes each element in one
event (R287). -/
def State.engineStand (s : State) (o : Op) (reduces : Bool) : WStand :=
  { writer := .engine s.core.thread, seq := o.seq, unit := false, rels := [], chains := reduces }

/-- Does the thread in focus have an ordered store that is held and was issued before operation `seq`? -/
def State.heldBefore (s : State) (seq : BitVec 16) : Bool :=
  s.ordered.any fun (o : OrdStore) => o.core == s.core.thread && decide ((seq - o.mark).toNat < 2 ^ 15)

/-- Does a held ordered store, issued before an operation of thread `k` was dispatched, write a byte that the
operation reaches through the same virtual addresses (R243)? -/
def State.orderedBefore (s : State) (k : Nat) (o : Op) : Bool :=
  s.ordered.any fun (x : OrdStore) => x.core == k && decide ((o.seq - x.mark).toNat < 2 ^ 15) &&
    (spansHit o.oread x.va.toNat x.n || spansHit o.owrite x.va.toNat x.n)

end Sys2Proof.Machine
end

