-- ==== Sys2Proof/Machine/Windows.lean ====
section
/-!
DEFINITION. Sys2Proof/Machine/Windows.lean: what a domain physical address names: stacked memory, host memory, the
command window, the launch-queue window and the scale-out window (R207, R400 to R402, R406, R407, R415), and the paths
a remote write takes (R409 to R411).
-/

namespace Sys2Proof.Machine

/-- What a package-local address names (R207, R401). -/
inductive Target where
  | stacked
  | host (off : Nat)
  | command (off : Nat)
  | queue (off : Nat)
  | scaleOut (slot off : Nat)
  | reserved
deriving DecidableEq, Repr

/-- The target of a DPA (R207, R401). -/
def targetOf (pa : Nat) : Target :=
  let m := dpaLocal pa
  if m < stackedSize then .stacked
  else if 0x18000000000 ≤ m ∧ m < 0x1C000000000 then .host (m - 0x18000000000)
  else if 0x1C000000000 ≤ m ∧ m < 0x1C000010000 then .command (m - 0x1C000000000)
  else if 0x1C000400000 ≤ m ∧ m < 0x1C000800000 then .queue (m - 0x1C000400000)
  else if 0x1E000000000 ≤ m ∧ m < 0x20000000000 then
    .scaleOut ((m - 0x1E000000000) / 0x2000000) ((m - 0x1E000000000) % 0x2000000)
  else .reserved

/-- The end of the window that a package-local address lies in: an access run is cut there (R207, R401). -/
def windowEnd (m : Nat) : Nat :=
  if m < stackedSize then stackedSize
  else if m < 0x18000000000 then 0x18000000000
  else if m < 0x1C000000000 then 0x1C000000000
  else if m < 0x1C000010000 then 0x1C000010000
  else if m < 0x1C000400000 then 0x1C000400000
  else if m < 0x1C000800000 then 0x1C000800000
  else if m < 0x1E000000000 then 0x1E000000000
  else m / 0x2000000 * 0x2000000 + 0x2000000

/-! ## Paths (R408 to R411) -/

/-- The permits queued on a path at the `n`th choice: how full the ports stand is a matter of timing, and free (R408;
notes/assumptions/50.md). -/
def queuedPermits (n i : Nat) : Nat := Config.freeNat (2 ^ 72 + 4 * n + i)

/-- The path of a list with the fewest queued permits, the lowest numbered of several. -/
def fewestQueued (n : Nat) : List Nat → Nat
  | [] => 0
  | [i] => i
  | i :: r => if queuedPermits n i ≤ queuedPermits n (fewestQueued n r) then i else fewestQueued n r

/-- The live path to a package with the fewest queued permits (R409). -/
def State.choosePath (s : State) (p q : Nat) : Nat × State :=
  let live := (List.range 4).filter fun i => ((s.getPkg p).livePaths (podOf q)).getLsbD i
  if live.length ≤ 1 then (live.headD 0, s) else (fewestQueued s.tick live, s.fresh.2)

/-- Is path 0 between two packages live, both ways: the one that exchange beats and the sideband of global barriers take
(R409, R412)? -/
def State.sideband (s : State) (p q : Nat) : Bool :=
  p == q || (((s.getPkg p).livePaths (podOf q)).getLsbD 0 && ((s.getPkg q).livePaths (podOf p)).getLsbD 0 &&
    !(s.getPkg p).asleep && !(s.getPkg q).asleep)

/-- The counter a remote write of a core is counted on: IN 0, HOST 1, SO 2, FAB0 to FAB3 from 3 (R409). -/
def State.counterOf (s : State) (c pa : Nat) : Nat × State :=
  if dpaPkg pa = pkgOf c then
    match targetOf pa with
    | .host _ => (1, s)
    | .scaleOut _ _ => (2, s)
    | _ => (0, s)
  else
    let (i, t) := s.choosePath (pkgOf c) (dpaPkg pa)
    (3 + i, t)

/-! ## The command window (R402) -/

/-- CMDSTAT (R402). -/
def CmdSlot.stat (c : CmdSlot) : Word :=
  BitVec.ofNat 64 (c.busy.toNat * 2 ^ 63 + c.done.toNat * 2 ^ 32 + c.result.toNat)

/-- A read of the command window at an offset. -/
def Package.cmdRead (p : Package) (off : Nat) : Word :=
  if off < 0x800 ∧ off % 0x80 = 0x48 then ((p.slots.toList.getD (off / 0x80) CmdSlot.reset)).stat else 0

/-- The agents a slot accepts: slots 0 to 7 only the host and firmware of PID 0 (R402). -/
def slotAccepts (k : Nat) (host : Bool) (pid : BitVec 16) : Bool := host || decide (8 ≤ k) || pid == 0

/-- A descriptor with bytes written from an offset; those past its end are not its own. -/
def descWrite (desc : BitVec 512) (off : Nat) (ys : List Byte) : BitVec 512 :=
  let xs := natLe 64 desc.toNat
  BitVec.ofNat 512 (leNat (xs.take off ++ ys.take (64 - off) ++ xs.drop (off + ys.length)))

/-- The slot with a command taken: the doorbell takes the descriptor. -/
def CmdSlot.ring (c : CmdSlot) (host : Bool) (pid : BitVec 16) : CmdSlot :=
  { c with busy := true, pid := pid, host := host, taken := c.desc }

/-- Bytes written within a slot: to the descriptor, and to the doorbell, where any write rings it; a doorbell rung while
BUSY is ignored, and so is a write to any other offset. -/
def CmdSlot.write (c : CmdSlot) (off : Nat) (host : Bool) (pid : BitVec 16) (xs : List Byte) : CmdSlot :=
  let c1 := if off < 0x40 then { c with desc := descWrite c.desc off xs } else c
  if overlap off xs.length 0x40 8 && !c.busy then c1.ring host pid else c1

/-- Bytes written to slot `k` of the command window by an agent that it accepts. -/
def Package.slotWrite (p : Package) (k off : Nat) (host : Bool) (pid : BitVec 16) (xs : List Byte) : Package :=
  if h : k < 16 then
    if slotAccepts k host pid then { p with slots := p.slots.set k ((p.slots[k]).write off host pid xs) } else p
  else p

/-- Bytes written to the command window, slot by slot (R402). -/
def Package.cmdWrite (p : Package) (off : Nat) (host : Bool) (pid : BitVec 16) (xs : List Byte) : Package :=
  (List.range 16).foldl (fun p k =>
    let lo := max off (0x80 * k)
    let ys := (xs.drop (lo - off)).take (0x80 * (k + 1) - lo)
    if overlap off xs.length (0x80 * k) 0x80 then p.slotWrite k (lo - 0x80 * k) host pid ys else p) p

/-! ## The launch-queue window (R406, R407) -/

/-- A queue of a package. -/
def Package.queue (p : Package) (q : Nat) : Option LQueue := p.queues.find? (·.num == q)

/-- QSTAT (R406). -/
def Package.qstat (p : Package) (q : Nat) : Word :=
  let d := (agetD p.dropped q 0).toNat
  match p.queue q with
  | none => BitVec.ofNat 64 (d * 2 ^ 32)
  | some u => BitVec.ofNat 64 (2 ^ 48 + d * 2 ^ 32 + u.records.length * 2 ^ 16 + (u.cap - u.records.length))

/-- A byte of the launch-queue window: QSTAT at +0x40 of a page, else 0 (R406). -/
def Package.queueByte (p : Package) (off : Nat) : Byte :=
  let r := off % 4096
  if 0x40 ≤ r ∧ r < 0x48 then BitVec.ofNat 8 ((p.qstat (off / 4096)).toNat / 2 ^ (8 * (r - 0x40))) else 0

/-- A read of the launch-queue window. -/
def Package.queueRead (p : Package) (off n : Nat) : List Byte := (List.range n).map fun i => p.queueByte (off + i)

/-- A write to RECORD that is discarded (R407). -/
def Package.dropRecord (p : Package) (q : Nat) : Package :=
  { p with dropped := aset p.dropped q (satInc (agetD p.dropped q 0)) }

/-- A record appended to a queue; its arrival returns an idle package to run (R425). -/
def Package.appendRecord (p : Package) (q : Nat) (x : BitVec 512) : Package :=
  { p with
    power := if p.power = .idle then .run else p.power
    queues := p.queues.map fun (u : LQueue) => if u.num = q then { u with records := u.records ++ [x] } else u }

/-- A 64-byte write to RECORD (R407). -/
def Package.recordWrite (p : Package) (q : Nat) (host : Bool) (pid : BitVec 16) (x : BitVec 512) : Package :=
  match p.queue q with
  | none => p.dropRecord q
  | some u =>
    if u.records.length < u.cap ∧ (host ∨ u.pid = pid) then p.appendRecord q x else p.dropRecord q

/-- A write of `n` bytes, at most a page, to the launch-queue window that is no 64-byte write to RECORD: it is discarded
and counted at each queue whose RECORD it touches, elsewhere ignored (R406, R407). -/
def Package.queueWrite (p : Package) (off n : Nat) : Package :=
  let p1 := if off % 4096 < 0x40 then p.dropRecord (off / 4096) else p
  if off / 4096 < (off + n - 1) / 4096 then p1.dropRecord ((off + n - 1) / 4096) else p1

/-! ## Scale-out (R415) -/

/-- A slot of the scale-out window, if it is valid. -/
def Package.soSlot (p : Package) (n : Nat) : Option SoSlot := p.soSlots.find? (·.num == n)

/-- The key of the byte at offset `y` of a valid slot. -/
def SoSlot.byteKey (x : SoSlot) (y : Nat) : Nat := keyScaleOut x.endpoint.toNat ((x.remote.toNat + y) % 2 ^ 64)

/-! ## Accesses to a translated address (R259, R260, R400, R401, R415) -/

/-- The key of the bytes at a DPA, where they are plain bytes: stacked memory, host memory, a valid scale-out slot. -/
def State.offKey (s : State) (pa : Nat) (place : BitVec 2) : Option Nat :=
  match targetOf pa with
  | .stacked => some (keyOff place.toNat pa)
  | .host off => some (keyHost (dpaPkg pa) (((s.getPkg (dpaPkg pa)).hwbase.toNat + off) % 2 ^ 64))
  | .scaleOut n y => ((s.getPkg (dpaPkg pa)).soSlot n).map (·.byteKey y)
  | _ => none

/-- The keys of `n` bytes at a DPA in their order: bytes of stacked memory follow each other. -/
def State.offBytes (s : State) (pa : Nat) (place : BitVec 2) (n : Nat) : List Byte :=
  match s.offKey pa place with
  | some k => s.mem.bytes k n
  | none => List.replicate n 0

/-- Bytes written from a key up as one access in the order; an error that stood there goes. -/
def State.keyWrite (s : State) (w : WStand) (pkg k : Nat) (xs : List Byte) : State :=
  { s.record w pkg k xs.length with
    mem := s.mem.writeBytes k xs
    poison := s.poison.filter fun (p : Span) => !(decide (k ≤ p.lo) && decide (p.lo + p.len ≤ k + xs.length)) }

/-- Bytes written at a DPA, where they are plain bytes. -/
def State.offWriteBytes (s : State) (w : WStand) (pa : Nat) (place : BitVec 2) (xs : List Byte) : State :=
  match s.offKey pa place with
  | some k => s.keyWrite w (dpaPkg pa) k xs
  | none => s

/-- The registrar's own writes. -/
def State.registrarOwn (s : State) (pkg : Nat) : List Nat :=
  (s.order.events.filter fun (e : WEvent) => e.writer == .registrar pkg).map (·.id)

/-- What a release of the registrar at scope sys publishes: its own earlier writes, and `pub` (R236, R405, R428). -/
def State.registrarStand (s : State) (pkg : Nat) (unit : Bool) (pub : List Nat) : WStand :=
  { writer := .registrar pkg, seq := 0, unit := unit, rels := [(scopeSys, joinIds pub (s.registrarOwn pkg))], chains := false }

/-- Is the address in host memory, whose link stands on gateway die 0 (R390, R400)? -/
def isHostAddr (pa : Nat) : Bool :=
  match targetOf pa with
  | .host _ => true
  | _ => false

/-- Is the address in the scale-out window (R415)? -/
def isScaleOut (pa : Nat) : Bool :=
  match targetOf pa with
  | .scaleOut _ _ => true
  | _ => false

/-- The gateway dies on which traffic for a target may end: that of the host link for host memory; for a scale-out slot those
of its port mask, where bit g names the port of gateway die g (R390, R414, R415; DEDUCED, notes/assumptions/51.md); any for
the other windows and for an invalid slot, whose accesses are refused past this test. -/
def State.endGateways (s : State) (pa : Nat) : List Nat :=
  match targetOf pa with
  | .host _ => [0]
  | .scaleOut n _ => match (s.getPkg (dpaPkg pa)).soSlot n with
    | some x => (List.range 4).filter (x.ports.getLsbD ·)
    | none => List.range 4
  | _ => List.range 4

/-- Has the bring-up of a package ended (R421)? -/
def State.isUp (s : State) (p : Nat) : Bool := decide ((s.getPkg p).upAt ≤ s.ns)

/-- Is a window open to accesses: the command and launch-queue windows are from the end of bring-up on (R421)? -/
def State.windowUp (s : State) (pa : Nat) : Bool :=
  match targetOf pa with
  | .command _ | .queue _ => s.isUp (dpaPkg pa)
  | _ => true

/-- Can a die reach a gateway die of its package: over the route of R385 to the gateway's die in its own die-column, and that
die's link (R384, R385; DESIGN CHOICE, notes/assumptions/70.md)? -/
def State.toGateway (s : State) (p d g : Nat) : Bool :=
  s.routeUp p d (2 * g + d % 2) && (s.getPkg p).gatewayUp (2 * g + d % 2)

/-- Can a core reach stack `k` of package `q`: over the route of R385 and the stack's link within its package; else over its
gateway's link and, in the other package, the link of the gateway of the stack's die and the stack's (R384, R385, R388,
R396; DESIGN CHOICE, notes/assumptions/70.md)? -/
def State.reachesStack (s : State) (c q k : Nat) : Bool :=
  if q = pkgOf c then
    (isMemCore c && stackOfCore c == k) || (s.coreUp c && s.routeUp q (dieOf c) (k / 2) && (s.getPkg q).stackUp k)
  else s.coreUp c && (s.getPkg (pkgOf c)).gatewayUp (dieOf c) && (s.getPkg q).gatewayUp (k / 2) && (s.getPkg q).stackUp k

/-- Can a core reach the memory or window at a DPA (R379, R384, R385, R411)? -/
def State.reachesAt (s : State) (c pa : Nat) (place : BitVec 2) : Bool :=
  let q := dpaPkg pa
  s.reaches (pkgOf c) q && s.windowUp pa &&
    if targetOf pa = .stacked then s.reachesStack c q ((s.getPkg q).placeOf place (dpaLocal pa)).1
    else s.coreUp c && (s.endGateways pa).any fun g =>
      if q = pkgOf c then s.toGateway q (dieOf c) g
      else (s.getPkg (pkgOf c)).gatewayUp (dieOf c) && (s.getPkg q).gatewayLive g

/-- Can a core reach all of an access of at most 64 bytes, which at most one boundary of windows, slots or granules cuts? -/
def State.reachesSpan (s : State) (c pa : Nat) (place : BitVec 2) (n : Nat) : Bool :=
  s.reachesAt c pa place && s.reachesAt c (pa + n - 1) place

/-- How a thread reads off-core bytes: by its visibility (R236, R237), or, as an atomic does, the newest (R232); and
whether the read is atomic as a unit (R231). -/
structure RMode where
  latest : Bool
  unit : Bool
deriving DecidableEq, Repr

/-- The cut of each byte of a read by the thread in focus. -/
def State.cuts (s : State) (m : RMode) (k n : Nat) : Nat → Nat :=
  if m.latest then fun _ => s.order.next else s.cutAt s.core.view.seen m.unit k n

/-- The parts of an access of at most 64 bytes, cut where one window ends (R207, R401). -/
def accessParts (pa n : Nat) : List (Nat × Nat) :=
  let room := windowEnd (dpaLocal pa) - dpaLocal pa
  if n ≤ room then [(pa, n)] else [(pa, room), (pa + room, n - room)]

/-- A read within one window. -/
def State.readPart (s : State) (place : BitVec 2) (m : RMode) (x : Nat × Nat) : Except (BitVec 4) (List Byte) :=
  let p := s.getPkg (dpaPkg x.1)
  match targetOf x.1 with
  | .command off => if x.2 = 8 ∧ off % 8 = 0 then .ok (natLe 8 (p.cmdRead off).toNat) else .error 3
  | .queue off => .ok (p.queueRead off x.2)
  | .reserved => .error 3
  | _ =>
    match s.offKey x.1 place with
    | none => .error 3
    | some k =>
      if s.poisonHit k x.2 then .error 0
      else .ok (if m.latest then s.mem.bytes k x.2 else s.bytesSeen (s.cuts m k x.2) k x.2)

/-- The bytes of several parts, or the reason of the first that fails. -/
def joinParts : List (Except (BitVec 4) (List Byte)) → Except (BitVec 4) (List Byte)
  | [] => .ok []
  | .error e :: _ => .error e
  | .ok x :: r =>
    match joinParts r with
    | .ok y => .ok (x ++ y)
    | .error e => .error e

/-- What a read of `n` bytes at a DPA by a thread returns, or the MEMORY reason (R260): unreachable, poisoned, refused
by a device window. -/
def State.readAt (s : State) (c pa : Nat) (place : BitVec 2) (n : Nat) (m : RMode) : Except (BitVec 4) Nat :=
  if !s.reachesSpan c pa place n then .error 1
  else match joinParts ((accessParts pa n).map (s.readPart place m)) with
    | .ok x => .ok (leNat x)
    | .error e => .error e

/-- The state after such a read: what it returned has become visible, an acquire at a scope has synchronised. -/
def State.observeAt (s : State) (pa : Nat) (place : BitVec 2) (n : Nat) (m : RMode) (acq : Option Nat) : State :=
  (accessParts pa n).foldl (fun t x => match t.offKey x.1 place with
    | some k => t.observe (s.cuts m k x.2) k x.2 acq
    | none => t) s

/-- An uncorrectable error met in stacked memory is counted at its stack (R380). -/
def State.countSymbol (s : State) (pa : Nat) (place : BitVec 2) : State :=
  match targetOf pa with
  | .stacked => s.modPkg (dpaPkg pa) fun p =>
      { p with symue := countAt p.symue (p.placeOf place (dpaLocal pa)).1 }
  | _ => s

/-- A thread's read that ended with a MEMORY reason: reason 0 is counted (R379, R380). -/
def State.countRead (s : State) (reason : BitVec 4) (pa : Nat) (place : BitVec 2) : State :=
  if reason = 0 then s.countSymbol pa place else s

/-- A write within one window: the state after it, or `none` when the target cannot perform it (R260, R401). -/
def State.writePart (s : State) (w : WStand) (place : BitVec 2) (pid : BitVec 16) (pa : Nat) (xs : List Byte) :
    Option State :=
  let q := dpaPkg pa
  match targetOf pa with
  | .command off =>
    if xs.length = 8 ∧ off % 8 = 0 then some (s.modPkg q (·.cmdWrite off false pid xs)) else none
  | .queue off => some (s.modPkg q (·.queueWrite off xs.length))
  | .reserved => none
  | _ => (s.offKey pa place).map fun _ => s.offWriteBytes w pa place xs

/-- Bytes written part by part; a write that one part cannot perform is lost whole. -/
def State.writeParts (s : State) (w : WStand) (place : BitVec 2) (pid : BitVec 16) (xs : List Byte) :
    List (Nat × Nat) → Option State
  | [] => some s
  | x :: r => (s.writePart w place pid x.1 (xs.take x.2)).bind fun t => t.writeParts w place pid (xs.drop x.2) r

/-- A write of `n` bytes at a DPA by a thread: the state after it, or `none` when the target cannot perform it
(R260, R401, R411). -/
def State.writeAt (s : State) (w : WStand) (c pa : Nat) (place : BitVec 2) (pid : BitVec 16) (n x : Nat) : Option State :=
  if !s.reachesSpan c pa place n then none else s.writeParts w place pid (natLe n x) (accessParts pa n)

/-! ## Host posted writes (R241) -/

/-- A posted write of the host performed. -/
def State.performHost (s : State) (w : HostWrite) : State :=
  s.offWriteBytes { writer := .host w.pkg, seq := hostTag w.svc w.hord, unit := false, chains := false
                    rels := [(scopeSys, s.hostPub w.pkg w.svc w.hord)] } w.dpa w.place w.data

/-- The pending writes of a package performed in their order, up to the last one that satisfies a test. -/
def State.drainHost (s : State) (pkg : Nat) (f : HostWrite → Bool) : List HostWrite → State
  | [] => s
  | w :: l =>
    if w.pkg = pkg ∧ (w :: l).any (fun (x : HostWrite) => x.pkg == pkg && f x) then
      ({ s.performHost w with hostWrites := s.hostWrites.erase w } : State).drainHost pkg f l
    else s.drainHost pkg f l

/-- An ordered store to a range with HORD comes after the host's HORD writes to the package that have arrived (R241,
R263). -/
def State.afterHost (s : State) (pkg : Nat) (hord : Bool) : State :=
  if hord then s.drainHost pkg (·.hord) s.hostWrites else s

/-- What such a store publishes of the host's writes (R241). -/
def State.hordRels (s : State) (pkg : Nat) (hord : Bool) : List (Nat × List Nat) :=
  if hord then [(scopeSys, s.hostPub pkg 32 true)] else []

/-! ## Path counters (R240, R263, R409) -/

/-- A path counter changed. -/
def Paths.addCnt (p : Paths) (i n : Nat) : Paths :=
  { p with cnt := if h : i < 7 then p.cnt.set i (p.cnt[i] + BitVec.ofNat 32 n) else p.cnt }

/-- A path counter falls. -/
def Paths.subCnt (p : Paths) (i n : Nat) : Paths :=
  { p with cnt := if h : i < 7 then p.cnt.set i (p.cnt[i] - BitVec.ofNat 32 n) else p.cnt }

/-- Failed writes are counted, saturating (R409). -/
def Paths.addFailed (p : Paths) (i n : Nat) : Paths :=
  { p with failed := if h : i < 7 then
      p.failed.set i (satAdd p.failed[i] n) else p.failed }

/-- Writes issued to a package are counted (R263). -/
def Paths.addPkg (p : Paths) (q n : Nat) : Paths :=
  { p with perPkg := aset p.perPkg q (agetD p.perPkg q 0 + BitVec.ofNat 32 n) }

/-- A change to the path counters of the core in focus. -/
def State.modPaths (s : State) (f : Paths → Paths) : State := s.on fun c => { c with paths := f c.paths }

end Sys2Proof.Machine
end

