-- ==== Sys2Proof/Machine/OffCore.lean ====
section
/-!
DEFINITION. Sys2Proof/Machine/OffCore.lean: LDX, STX, ATOM and FENCE, and the events that answer them (R239, R240,
R259 to R267, R400, R409, R410). An access of a thread is performed when it issues (notes/assumptions/10.md); what a load
may return, and what releases and acquires publish, is Weak.lean's.
-/

namespace Sys2Proof.Machine

/-- The ordering of an access (R259). -/
inductive Ord where
  | plain
  | acq
  | rel
  | of
  | ar
deriving DecidableEq, Repr

/-- `HeldWindow` of R259: the local address of a held window, and whether the hold is exclusive. -/
def Core.heldWindow (c : Core) (va n : Nat) : Option (Nat × Bool) :=
  c.binds.toList.findSome? fun b => match b with
    | some b =>
      if b.regionVa ≤ va ∧ va + n ≤ b.regionVa + b.len then
        match b.state with
        | .heldS => some (b.window + (va - b.regionVa), false)
        | .heldX => some (b.window + (va - b.regionVa), true)
        | _ => none
      else none
    | none => none

/-- `OffLockHit` of R259. -/
def Core.offLockHit (c : Core) (va n : Nat) : Bool :=
  c.ops.any fun (o : Op) => spansHit o.oread va n || spansHit o.owrite va n

/-- Where an off-core access goes. -/
inductive Access where
  | inWindow (addr : Nat)
  | remote (x : Xlat)
deriving DecidableEq, Repr

/-- How the checks of an off-core access end. -/
inductive AccRes where
  | ok (a : Access) (s : State)
  | wait (s : State)
  | fault (t : Trap) (s : State)
deriving DecidableEq, Repr

/-- The checks of `OffCoreAccess` in a held window (R259). -/
def State.windowCheck (s : State) (va n : Nat) (k : AccKind) (ord : Ord) (h : Nat × Bool) : Option Trap :=
  if k = .threadAtomic then some (rangeFault 5 va)
  else if k = .threadWrite ∧ !h.2 then some (rangeFault 2 va)
  else if ord ≠ .plain ∧ va % n ≠ 0 then some (Cause.align, va)
  else if s.core.lockHit h.1 n then some (Cause.rangeLock, va)
  else if k = .threadRead ∧ s.poisonHit (s.core.localKey h.1) n then some (Cause.uncorr, h.1)
  else none

/-- `OffCoreAccess` of R259. -/
def State.offCoreAccess (s : State) (va : Word) (n : Nat) (k : AccKind) (ord : Ord) : AccRes :=
  match s.core.heldWindow va.toNat n with
  | some h =>
    match s.windowCheck va.toNat n k ord h with
    | some t => .fault t s
    | none => .ok (.inWindow h.1) s
  | none =>
    match s.threadXlat va k n with
    | .wait t => .wait t
    | .fault f t => .fault f t
    | .ok x t =>
      if (x.kind = kindSync ∨ ord ≠ .plain ∨ k = .threadAtomic) ∧ va.toNat % n ≠ 0 then .fault (Cause.align, va.toNat) t
      else if t.core.offLockHit va.toNat n then .fault (Cause.rangeLock, va.toNat) t
      else .ok (.remote x) t

/-- An access whose checks have ended goes on with `k`. -/
def AccRes.run (r : AccRes) (k : Access → State → State) : Out :=
  match r with
  | .ok a s => .next (k a s)
  | .wait s => .next (s.waiting .other)
  | .fault t s => .next (s.trap t)

/-! ## Loads -/

/-- The value a load of `n` bytes gives its register (R262). -/
def loadExt (zero : Bool) (n x : Nat) : Word := if zero then BitVec.ofNat 64 x else wrap64 (sext x (8 * n))

/-- A byte that a team member's outbound buffer holds for a place, the newest (R261). -/
def Core.buffered (c : Core) (pa : Nat) (place : BitVec 2) : Option Byte :=
  (c.team.committed ++ c.team.outbuf).foldl (fun b o => match o with
    | .stx _ n x _ q pl _ _ _ _ =>
      if pl = place ∧ q ≤ pa ∧ pa < q + n then some ((natLe n x.toNat).getD (pa - q) 0) else b
    | _ => b) none

/-- What was read, with the buffered bytes of a team member over it (R261). -/
def State.overlay (s : State) (pa : Nat) (place : BitVec 2) (n x : Nat) : Nat :=
  if s.core.ctl.status.ckpt then
    leNat ((natLe n x).zipIdx.map fun (b, i) => (s.core.buffered (pa + i) place).getD b)
  else x

/-- A load or atomic has been performed; its data is on the way (R260). -/
def State.outstand (s : State) (d : BitVec 5) (va : Word) (data : Word) (flags : BitVec 6)
    (reason : Option (BitVec 4)) (host so : Bool) (base : Nat) : State :=
  let o : Outstanding :=
    { d := d, va := va, data := data, flags := flags, reason := reason, answered := !host, so := so, since := s.clk,
      uses := base }
  (s.on fun c => { c with outst := some o }).waiting .other

/-- How a load of a range reads: by the thread's visibility, as a unit in a sync range (R231, R237). -/
def loadMode (kind : BitVec 3) : RMode := { latest := false, unit := kind == kindSync }

/-- A load of off-core bytes that its checks let through: performed, its data on the way. -/
def State.loadOff (s : State) (d : BitVec 5) (va : Word) (z : BitVec 1) (n : Nat) (acq : Option Nat) (x : Xlat) : State :=
  match s.readAt s.core.addr.toNat x.pa x.place n (loadMode x.kind) with
  | .error r => (s.countRead r x.pa x.place).outstand d va 0 0 (some r) false false x.base
  | .ok v => (s.observeAt x.pa x.place n (loadMode x.kind) acq).outstand d va
      (loadExt (z == 1) n (s.overlay x.pa x.place n v)) 0 none (isHostAddr x.pa) (isScaleOut x.pa) x.base

/-- A load (R262): a held window answers at once, another place when its data returns; one that reaches bytes of an
ordered store of the thread that is held waits for it (R232). -/
def State.ldx (s : State) (d a b : BitVec 5) (z : BitVec 1) (sz : BitVec 2) (ord : Ord) (acq : Option Nat) : Out :=
  let n := 2 ^ sz.toNat
  let va := s.addrX a b
  if s.core.outst.isSome then .next (s.waiting .other)
  else (s.offCoreAccess va n .threadRead ord).run fun acc t =>
    match acc with
    | .inWindow addr => (t.setG d (loadExt (z == 1) n (t.localRead addr n))).adv
    | .remote x => if t.orderedHit x.place x.pa n then t.waiting .other else t.loadOff d va z n acq x

/-- `ldx`: on a plain load the scope has no effect (R262). -/
def execLdx (d a b : BitVec 5) (z : BitVec 1) (sz : BitVec 2) (_ : BitVec 4) (s : State) : Out :=
  s.ldx d a b z sz .plain none

/-- `ldx.acq`: the read acquires at its scope (R234). -/
def execLdxAcq (d a b : BitVec 5) (z : BitVec 1) (sz : BitVec 2) (p : BitVec 4) (s : State) : Out :=
  s.ldx d a b z sz .acq (some p.toNat)

/-- Failed accesses counted in the fault status (R260). -/
def Core.countFailures (c : Core) (n : Nat) : Core :=
  { c with faults := { c.faults with memfail := satAdd c.faults.memfail n } }

/-- MEMORY with its reason (R260). -/
def memoryTrap (va : Word) (reason : Nat) : Trap := (Cause.memory, va.toNat % 2 ^ 60 + 2 ^ 60 * reason)

/-- The load or atomic in progress ends: its register is written, or MEMORY is raised and it is not (R260). -/
def State.finishLoad (s : State) (o : Outstanding) : State :=
  let t := s.on fun c => { c with outst := none, wait := .no }
  match o.reason with
  | some r => (t.on (·.countFailures 1)).trap (memoryTrap o.va r.toNat)
  | none => ((t.setG o.d o.data).setFlags o.flags).adv

/-- LOAD_DATA_RETURN at the core in focus. -/
def State.dataReturn (s : State) : State :=
  match s.core.outst with
  | some o => if o.answered then s.finishLoad o else s
  | none => s

/-- LOAD_DATA_RETURN. -/
def execLoadDataReturn (c : Nat) (s : State) : Out := .next (s.at c State.dataReturn)

/-- MEMORY_RESPONSE_TIMEOUT at the core in focus: no response within 2^22 clk (R260). -/
def State.responseTimeout (s : State) : State :=
  match s.core.outst with
  | some o => if 2 ^ 22 ≤ s.clk - o.since then s.finishLoad { o with reason := some 2 } else s
  | none => s

/-- MEMORY_RESPONSE_TIMEOUT: a response that arrives later is discarded. -/
def execMemoryResponseTimeout (c : Nat) (s : State) : Out := .next (s.at c State.responseTimeout)

/-- HOST_READ_COMPLETION: a read of host memory completes, or fails with reason 3 (R400). -/
def State.hostCompletion (ok : Bool) (s : State) : State :=
  match s.core.outst with
  | some o => if o.answered then s else s.finishLoad (if ok then o else { o with reason := some 3 })
  | none => s

/-- HOST_READ_COMPLETION. -/
def execHostReadCompletion (c : Nat) (ok : Bool) (s : State) : Out := .next (s.at c (State.hostCompletion ok))

/-! ## Stores -/

/-- Writes of a thread's copies to a package that have been issued and not yet settled, of the copies that satisfy a
test (R240, R410). -/
def State.copiesOwed (s : State) (k q : Nat) (f : Op → Bool) : Nat :=
  ((match s.getThread k with
    | some c => c.ops
    | none => []).map fun (o : Op) => match o.body with
      | .copy r => if !r.moved && f o then ((r.pkgs.filter fun (x : Nat × Nat) => x.1 == q).map fun (x : Nat × Nat) => x.2).sum else 0
      | _ => 0).sum

/-- Writes of a core to a package that have been issued and not yet settled: those of copies that have not moved, and
ordered stores that are held (R240, R410). -/
def State.unsettled (s : State) (k q : Nat) : Nat :=
  s.copiesOwed k q (fun _ => true) + (s.ordered.filter fun (o : OrdStore) => o.core == k && o.pkg == q).length

/-- The count D of the ordering point for a core and package (R410). -/
def State.settled (s : State) (k q : Nat) : BitVec 32 :=
  (match s.getThread k with
    | some c => agetD c.paths.perPkg q 0
    | none => 0) - BitVec.ofNat 32 (s.unsettled k q)

/-- May an ordered store be performed: the count it carries has been reached, and every write of the core to the package
issued before it has settled (R240, R410; DEDUCED, notes/assumptions/12.md)? -/
def State.orderedReady (s : State) (o : OrdStore) : Bool :=
  o.since.isSome && decide ((s.settled o.core o.pkg - o.carried).toNat < 2 ^ 31) &&
    s.copiesOwed o.core o.pkg (fun p => decide ((o.mark - p.seq - 1).toNat < 2 ^ 15)) == 0 &&
    !(s.ordered.any fun (p : OrdStore) => p.core == o.core && p.pkg == o.pkg && decide (p.bound < o.bound))

/-- A write whose acknowledgement is on the way (R239). -/
def State.onTheWay (s : State) (p : Posted) : State := { s with posted := s.posted ++ [p] }

/-- Does an ordered store go to a gateway: that of the destination package for the source package (R410)? -/
def OrdStore.at (o : OrdStore) (q g : Nat) : Bool := o.pkg == q && pkgOf (threadCore o.core) % 4 == g

/-- How many ordered stores a gateway holds. -/
def State.heldAt (s : State) (q g : Nat) : Nat :=
  (s.ordered.filter fun (o : OrdStore) => o.at q g && o.since.isSome).length

/-- A gateway that holds fewer than 256 takes the first that waits for it in the fabric (R410). -/
def State.admitOrdered (s : State) (q g : Nat) : State :=
  if s.heldAt q g < 256 then
    match s.ordered.findIdx? fun (o : OrdStore) => o.at q g && o.since.isNone with
    | some i => { s with ordered := s.ordered.modify i fun (o : OrdStore) => { o with since := some s.clk } }
    | none => s
  else s

/-- An ordered store reaches its ordering point, or waits in the fabric for it (R240, R410). -/
def State.hold (s : State) (o : OrdStore) : State :=
  ({ s with ordered := s.ordered ++ [o] } : State).admitOrdered o.pkg (pkgOf (threadCore o.core) % 4)

/-- An ordered store leaves its ordering point, and the next one enters (R410). -/
def State.unhold (s : State) (i : Nat) (o : OrdStore) : State :=
  ({ s with ordered := s.ordered.eraseIdx i } : State).admitOrdered o.pkg (pkgOf (threadCore o.core) % 4)

/-- A posted write issued on a counter: performed, or failed at its target (R239, R260, R409); whether the endpoint of a
scale-out slot reports a failure is free (R415). -/
def State.post (s : State) (w : WStand) (pa : Nat) (place : BitVec 2) (n x base : Nat) : State :=
  let c := s.core.addr.toNat
  let (i, t0) := s.counterOf c pa
  let (f, t) := if isScaleOut pa then t0.fresh else (0, t0)
  let t1 := t.modPaths fun p => (p.addCnt i 1).addPkg (dpaPkg pa) 1
  let done := if isScaleOut pa && Config.freeBool f then none
    else (t1.writeAt w c pa place t1.core.ctl.pid n x).map (·.seeOwn s.order.next)
  let t2 := done.getD (t1.on (·.countFailures 1))
  t2.onTheWay { core := t2.core.thread, n := 1, path := i, pkg := dpaPkg pa, failed := done.isNone, uses := some base }

/-- An ordered store to another package travels with its count to the ordering point, which holds it (R240, R263). -/
def State.postOrdered (s : State) (x : Xlat) (scope n : Nat) (va v : Word) : State :=
  let c := s.core.addr.toNat
  let q := dpaPkg x.pa
  let (i, t) := s.counterOf c x.pa
  let carried := agetD t.core.paths.perPkg q 0
  let t1 := t.modPaths fun p => (p.addCnt i 1).addPkg q 1
  { t1.hold { core := t1.core.thread, path := i, pkg := q, place := x.place, dpa := x.pa, n := n, data := v,
              carried := carried, since := none, uses := some x.base, va := va, kind := x.kind, scope := scope,
              hord := x.hord, mark := t1.core.ctl.drnext, bound := t1.order.next, standing := t1.core.view.standing } with
    order := { t1.order with next := t1.order.next + 1 } }

/-- A store leaves the core (R262, R263): `stx.of` within the package acts as `stx.rel`, and to a range with HORD it keeps
the order of R241 besides. `rel` is the scope of a store
that releases or is ordered. -/
def State.sendStore (s : State) (x : Xlat) (ord : Ord) (n : Nat) (va v : Word) (rel : Option Nat) : State :=
  if ord = .of ∧ dpaPkg x.pa ≠ pkgOf s.core.addr.toNat ∧ s.reachesAt s.core.addr.toNat x.pa x.place then
    s.postOrdered x (rel.getD 0) n va v
  else
    let hord := ord = .of && x.hord
    let t := s.afterHost (dpaPkg x.pa) hord
    let w := t.stands (x.kind == kindSync) rel false
    t.post { w with rels := w.rels ++ t.hordRels (dpaPkg x.pa) hord } x.pa x.place n v.toNat x.base

/-- Must a store of the thread in focus wait for an ordered store of its own that is held: for one to the same bytes
(R232), and for any if it releases (R236)? -/
def State.storeWaits (s : State) (x : Xlat) (ord : Ord) (n : Nat) : Bool :=
  s.orderedHit x.place x.pa n ||
    ((ord = .rel || (ord = .of && dpaPkg x.pa == pkgOf s.core.addr.toNat)) && s.holdsOrdered)

/-- A store (R262): into a held window, to memory, or into a team member's outbound buffer (R261, R373). -/
def State.stx (s : State) (d a b : BitVec 5) (sz : BitVec 2) (ord : Ord) (rel : Option Nat) : Out :=
  let n := 2 ^ sz.toNat
  let va := s.addrX a b
  let v := s.g d
  match s.offCoreAccess va n .threadWrite ord with
  | .ok (.inWindow addr) t => .next (t.localWrite addr n v.toNat).adv
  | .ok (.remote x) t =>
    if t.core.ctl.status.ckpt then
      t.checked (t.outCheck 32)
        (t.outPush (.stx va n v (ord = .of) x.pa x.place x.kind x.hord x.base rel)).adv
    else if t.storeWaits x ord n then .next (t.waiting .other)
    else .next (t.sendStore x ord n va v rel).adv
  | .wait t => .next (t.waiting .other)
  | .fault f t => .next (t.trap f)

/-- `stx`. -/
def execStx (d a b : BitVec 5) (sz : BitVec 2) (_ : BitVec 4) (s : State) : Out := s.stx d a b sz .plain none
/-- `stx.rel`: the write releases at its scope (R234). -/
def execStxRel (d a b : BitVec 5) (sz : BitVec 2) (p : BitVec 4) (s : State) : Out := s.stx d a b sz .rel (some p.toNat)
/-- `stx.of`: its scope decides which acquirers R240 covers (R263). -/
def execStxOf (d a b : BitVec 5) (sz : BitVec 2) (p : BitVec 4) (s : State) : Out := s.stx d a b sz .of (some p.toNat)

/-- WRITE_ACKNOWLEDGEMENT: the counter of the write falls; a failed one is counted (R409). -/
def execWriteAcknowledgement (i : Nat) (s : State) : Out :=
  match s.posted[i]? with
  | none => .next s
  | some p =>
    .next ({ s with posted := s.posted.eraseIdx i }.atThread p.core (·.modPaths fun q =>
      let q1 := q.subCnt p.path p.n
      if p.failed then q1.addFailed p.path p.n else q1))

/-- ORDERED_STORE_RELEASE: the store is performed once the writes it counts have settled (R410). -/
def execOrderedStoreRelease (i : Nat) (s : State) : Out :=
  match s.ordered[i]? with
  | none => .next s
  | some o =>
    if s.orderedReady o then
      let t := (s.unhold i o).afterHost o.pkg o.hord
      let pid := match s.getThread o.core with
        | some c => c.ctl.pid
        | none => 0
      let w : WStand :=
        { writer := .thread o.core, seq := o.mark, unit := o.kind == kindSync, chains := false
          rels := (o.scope, t.orderedPub o) :: o.standing }
      let done := (t.writeAt w (threadCore o.core) o.dpa o.place pid o.n o.data.toNat).map fun u =>
        u.atThread o.core (·.seeOwn t.order.next)
      let t1 := done.getD (t.atThread o.core (·.on (·.countFailures 1)))
      .next (t1.onTheWay { core := o.core, n := 1, path := o.path, pkg := o.pkg, failed := done.isNone, uses := o.uses })
    else .next s

/-- ORDERED_STORE_TIMEOUT: a store held for 2^24 clk is discarded, reported as failed (R410), and counted in the fault status
(R260). -/
def execOrderedStoreTimeout (i : Nat) (s : State) : Out :=
  match s.ordered[i]? with
  | none => .next s
  | some o =>
    if o.since.any fun t => decide (2 ^ 24 ≤ s.clk - t) then
      .next (((s.unhold i o).atThread o.core (·.on (·.countFailures 1))).onTheWay
        { core := o.core, n := 1, path := o.path, pkg := o.pkg, failed := true, uses := o.uses })
    else .next s

/-! ## Atomics (R264) -/

/-- The word of an ATOM form (R75). -/
def atomWord (op : Nat) (d a b : BitVec 5) (r s : BitVec 1) (p : BitVec 4) : BitVec 32 :=
  mkWord 0x2F d a b (BitVec.ofNat 11 ((r.toNat * 16 + op) * 64 + (2 + s.toNat) * 16 + p.toNat))

/-- An atomic reads the newest write of each byte, and its bytes together (R228, R231, R232). -/
def atomMode : RMode := { latest := true, unit := true }

/-- The two halves of an atomic at its location, in one step: its read becomes visible, an `.ar` one acquires and then
releases at its scope, and its write continues the chains it read (R234, R235). -/
def State.atomWrite (s : State) (x : Xlat) (n : Nat) (xs : List Byte) (ar : Option Nat) : State :=
  let t := s.observeAt x.pa x.place n atomMode ar
  (t.offWriteBytes (t.stands true ar true) x.pa x.place xs).seeOwn t.order.next

/-- An atomic: `f` gives the new value from the old one, the operand and the expected value, with the flags; `zero`
says that a 4-byte old value is zero-extended (R264). -/
def State.atom (s : State) (op : Nat) (d a b : BitVec 5) (r sz : BitVec 1) (p : BitVec 4) (zero : Bool)
    (f : Nat → Nat → Nat → Nat × BitVec 6) : Out :=
  let n := if sz = 0 then 4 else 8
  let va := s.g a
  if s.core.outst.isSome then .next (s.waiting .other)
  else match s.teamCheck (atomWord op d a b r sz p) with
  | some t => .next (s.trap t)
  | none => (s.offCoreAccess va n .threadAtomic (if r = 1 then .ar else .plain)).run fun acc t =>
    match acc with
    | .inWindow _ => t
    | .remote x =>
      if t.orderedHit x.place x.pa n || (r == 1 && t.holdsOrdered) then t.waiting .other
      else match t.readAt t.core.addr.toNat x.pa x.place n atomMode with
      | .error e => (t.countRead e x.pa x.place).outstand d va 0 0 (some e) false false x.base
      | .ok old =>
        let (new, fl) := f old ((s.g b).toNat % 2 ^ (8 * n)) ((s.g d).toNat % 2 ^ (8 * n))
        (t.atomWrite x n (natLe n new) (if r = 1 then some p.toNat else none)).outstand d va (loadExt zero n old) fl none
          false false x.base

/-- An atomic on words that sets no flag. -/
def atomOp (f : Nat → Nat → Nat) : Nat → Nat → Nat → Nat × BitVec 6 := fun x y _ => (f x y, 0)

/-- An atomic on signed values of `n` bytes. -/
def atomSigned (sz : BitVec 1) (f : Int → Int → Int) : Nat → Nat → Nat → Nat × BitVec 6 := fun x y _ =>
  let w := if sz = 0 then 32 else 64
  (wrapN (f (sext x w) (sext y w)) w, 0)

/-- `atom.add`. -/
def execAtomAdd (d a b : BitVec 5) (r sz : BitVec 1) (p : BitVec 4) (s : State) : Out :=
  s.atom 0 d a b r sz p false (atomSigned sz (· + ·))
/-- `atom.and`. -/
def execAtomAnd (d a b : BitVec 5) (r sz : BitVec 1) (p : BitVec 4) (s : State) : Out :=
  s.atom 1 d a b r sz p false (atomOp (· &&& ·))
/-- `atom.or`. -/
def execAtomOr (d a b : BitVec 5) (r sz : BitVec 1) (p : BitVec 4) (s : State) : Out :=
  s.atom 2 d a b r sz p false (atomOp (· ||| ·))
/-- `atom.xor`. -/
def execAtomXor (d a b : BitVec 5) (r sz : BitVec 1) (p : BitVec 4) (s : State) : Out :=
  s.atom 3 d a b r sz p false (atomOp (· ^^^ ·))
/-- `atom.min`. -/
def execAtomMin (d a b : BitVec 5) (r sz : BitVec 1) (p : BitVec 4) (s : State) : Out :=
  s.atom 4 d a b r sz p false (atomSigned sz min)
/-- `atom.max`. -/
def execAtomMax (d a b : BitVec 5) (r sz : BitVec 1) (p : BitVec 4) (s : State) : Out :=
  s.atom 5 d a b r sz p false (atomSigned sz max)
/-- `atom.minz`. -/
def execAtomMinz (d a b : BitVec 5) (r sz : BitVec 1) (p : BitVec 4) (s : State) : Out :=
  s.atom 6 d a b r sz p true (atomOp min)
/-- `atom.maxz`. -/
def execAtomMaxz (d a b : BitVec 5) (r sz : BitVec 1) (p : BitVec 4) (s : State) : Out :=
  s.atom 7 d a b r sz p true (atomOp max)
/-- `atom.swap`. -/
def execAtomSwap (d a b : BitVec 5) (r sz : BitVec 1) (p : BitVec 4) (s : State) : Out :=
  s.atom 8 d a b r sz p false (atomOp fun _ y => y)
/-- `atom.cas`: a comparison that fails writes the old value back. -/
def execAtomCas (d a b : BitVec 5) (r sz : BitVec 1) (p : BitVec 4) (s : State) : Out :=
  s.atom 9 d a b r sz p false fun x y e => (if x = e then y else x, 0)
/-- `atom.fadd`: always with RNE. -/
def execAtomFadd (d a b : BitVec 5) (r sz : BitVec 1) (p : BitVec 4) (s : State) : Out :=
  s.atom 10 d a b r sz p true fun x y _ =>
    let f := if sz = 0 then fp32 else fp64
    let e := sumX [f.decode x, f.decode y] rmRNE
    let (c, fl) := f.round rmRNE 0 e.1
    (c, e.2 ||| fl)

/-! ## Fences (R265 to R267) -/

/-- `fence.acq`: what earlier reads have read is acquired (R238). -/
def execFenceAcq (p : BitVec 4) (s : State) : Out := .next (s.fenceAcq p.toNat).adv

/-- `fence.rel`: later writes of the thread release at the scope (R238); a held ordered store is waited for, so that the
publication holds its write. -/
def execFenceRel (p : BitVec 4) (s : State) : Out :=
  .next (if s.holdsOrdered then s.waiting .other else (s.fenceRel p.toNat).adv)

/-- `fence.full`: both, in the one order of the scope's full fences (R238). -/
def execFenceFull (p : BitVec 4) (s : State) : Out :=
  .next (if s.holdsOrdered then s.waiting .other else (s.fenceFull p.toNat).adv)

/-- The sum of the failed-write counts (R267). -/
def Paths.failures (p : Paths) : Nat := (p.failed.toList.map BitVec.toNat).sum

/-- `fence.ack`: waits until every path counter reads zero, and then acts as a `fence.full.sys`; failed writes are then
reported and cleared (R239, R267). -/
def execFenceAck (s : State) : Out :=
  let p := s.core.paths
  if p.cnt.toList.any (· != 0) then .next (s.waiting .other)
  else
    let t := s.fenceFull scopeSys
    if p.failures = 0 then .next t.adv
    else .next ((t.modPaths fun q => { q with failed := Vector.replicate 7 0 }).trap
      (Cause.memory, 4 * 2 ^ 60 + p.failures))

end Sys2Proof.Machine
end

