-- ==== Sys2Proof/Machine/Ring.lean ====
section
/-!
DEFINITION. Sys2Proof/Machine/Ring.lean: dispatch through the ring (R30, R31, R332), the spans of pending operations and
the order among those that conflict (R242, R244).
-/

namespace Sys2Proof.Machine

/-- What the slot of the next dispatch answers (R30, R31). -/
inductive SlotAns where
  | free
  | stall
  | double (cause : BitVec 8)
deriving DecidableEq, Repr

/-- The slot of the next dispatch: a pending entry, or a faulted one whose late fault has not been taken, stalls it; the
latter ends the thread while IE = 0 (R31). An operation that runs on after a rollback keeps its slot (R377). -/
def Core.slotAnswer (c : Core) : SlotAns :=
  let e := c.entry c.ctl.drnext
  if e.state = .pending ∨ c.ops.any (fun (o : Op) => slotOf o.seq == slotOf c.ctl.drnext) then .stall
  else if e.untaken then if c.ctl.status.ie then .stall else .double e.cause
  else .free

/-- The spans of an operation and the range entries it uses (R242, R216). -/
structure OpSpans where
  lread : List Span
  lwrite : List Span
  oread : List Span
  owrite : List Span
  uses : List Nat
deriving DecidableEq, Repr

/-- No span. -/
def OpSpans.none : OpSpans := { lread := [], lwrite := [], oread := [], owrite := [], uses := [] }

/-- The ring entry of an operation dispatched at a pc (R30). -/
def RingEntry.ofDispatch (pc : LAddr) (major sub : Nat) (seq : BitVec 16) : RingEntry :=
  { cause := 0, state := .pending, pc := pc, major := BitVec.ofNat 6 major, sub := BitVec.ofNat 5 sub, seq := seq,
    einfo := 0, untaken := false }

/-- `Dispatch(op)` of R30 once the slot is free, with the spans and values attached (R242, R110). -/
def Core.dispatch (c : Core) (major sub : Nat) (x : OpSpans) (body : OpBody) : Core :=
  let seq := c.ctl.drnext
  let o : Op :=
    { seq := seq, started := false, lread := x.lread, lwrite := x.lwrite, oread := x.oread, owrite := x.owrite,
      uses := x.uses, att := c.attach, body := body }
  let c1 := (c.ringClean (slotOf seq)).modEntry seq fun _ => RingEntry.ofDispatch c.regs.pc major sub seq
  { c1.modCtl (fun k => { k with drnext := seq + 1 }) with ops := c1.ops ++ [o] }

/-- A dispatched form whose checks gave `t`, with its queue full or not: it traps, waits, or goes on with `go`, which
dispatches (R332). -/
def State.dispatched (s : State) (t : Option Trap) (full : Bool) (go : State) : Out :=
  match t with
  | some t => .next (s.trap t)
  | none =>
    if full then .next (s.waiting .other)
    else match s.core.slotAnswer with
      | .stall => .next (s.waiting .other)
      | .double c => .next (s.doubleTrap c)
      | .free => .next go

/-- The sequence number the next dispatch will get, as a register value. -/
def State.seqWord (s : State) : Word := s.core.ctl.drnext.setWidth 64

/-- A dispatch that writes its sequence number to g[d] and goes on. -/
def State.dispatchTo (s : State) (major sub : Nat) (d : BitVec 5) (x : OpSpans) (body : OpBody) : State :=
  ((s.on (·.dispatch major sub x body)).setG d s.seqWord).adv

/-- A pending operation. -/
def Core.op (c : Core) (seq : BitVec 16) : Option Op := c.ops.find? (·.seq == seq)

/-- A change to a pending operation. -/
def Core.modOp (c : Core) (seq : BitVec 16) (f : Op → Op) : Core :=
  { c with ops := c.ops.map fun (o : Op) => if o.seq = seq then f o else o }

/-- Do two lists of spans share a byte? -/
def spansMeet (l r : List Span) : Bool := l.any fun (x : Span) => spansHit r x.lo x.len

/-- Do two operations conflict: a span that one writes overlaps a span that the other reads or writes (R244)? -/
def Op.conflicts (o p : Op) : Bool :=
  spansMeet o.lwrite (p.lread ++ p.lwrite) || spansMeet p.lwrite o.lread ||
  spansMeet o.owrite (p.oread ++ p.owrite) || spansMeet p.owrite o.oread

/-- Does an operation wait for an earlier one of its core that conflicts (R244)? -/
def Core.blocked (c : Core) (o : Op) : Bool :=
  (c.ops.takeWhile (·.seq != o.seq)).any (·.conflicts o)

/-- Are the results of the operations that run on for the thread in focus discarded: a cancellation has stopped it (R360)? -/
def State.discards (s : State) : Bool := decide (s.core.run = .cancelled)

/-- Result bytes of an engine operation land in the store of its core (R360). -/
def State.resultBytes (s : State) (a : Nat) (xs : List Byte) : State :=
  if s.discards then s else s.localWriteBytes a xs

/-- Bytes and then the completion word of an engine operation land in the store of its core; the latch is set (R244,
R115). -/
def State.completionWord (s : State) (a : Nat) (x : Word) : State :=
  if s.discards then s else (s.localWrite a 8 x.toNat).setLatch

end Sys2Proof.Machine
end

