-- ==== Sys2Proof/Machine/RangeOps.lean ====
section
/-!
DEFINITION. Sys2Proof/Machine/RangeOps.lean: the range instructions and the steps by which stations, holders, the
coordinator and the conservator carry them out (R222 to R226, R268 to R273).
-/

namespace Sys2Proof.Machine

/-! ## The instructions (R268, R269) -/

/-- Is the form a supervisor form? -/
def RangeForm.supervisor : RangeForm → Bool
  | .rprobe | .rstat => false
  | _ => true

/-- Does g[a] name an operand block? -/
def RangeForm.hasBlock : RangeForm → Bool
  | .rload | .rres | .rcompact => true
  | _ => false

/-- The sub field of a form. -/
def RangeForm.sub : RangeForm → Nat
  | .rload => 0
  | .rprobe => 1
  | .rsplit => 2
  | .rmerge => 3
  | .rinv => 4
  | .rres => 5
  | .rcompact => 6
  | .rstat => 7

/-- A range instruction (R268). -/
def State.rangeInstr (s : State) (form : RangeForm) (d a b : BitVec 5) : Out :=
  let res := (s.g b).toNat
  let blk := (s.g a).toNat
  let c1 := if form.supervisor then s.privCheck else none
  let c2 := s.localCheck res 64 .store
  let c3 := if form.hasBlock then s.loadCheck blk 64 else none
  let block : BitVec 512 := if form.hasBlock then BitVec.ofNat 512 (s.localRead blk 64) else 0
  let va : Word := if form.hasBlock then block.setWidth 64 else s.g a
  s.dispatched (c1.or (c2.or c3)) false
    (s.dispatchTo 0x31 form.sub d { OpSpans.none with lwrite := [{ lo := res, len := 64 }] }
      (.range form va block res false))

/-- `rload`. -/
def execRload (d a b : BitVec 5) (s : State) : Out := s.rangeInstr .rload d a b
/-- `rprobe`. -/
def execRprobe (d a b : BitVec 5) (s : State) : Out := s.rangeInstr .rprobe d a b
/-- `rsplit`. -/
def execRsplit (d a b : BitVec 5) (s : State) : Out := s.rangeInstr .rsplit d a b
/-- `rmerge`. -/
def execRmerge (d a b : BitVec 5) (s : State) : Out := s.rangeInstr .rmerge d a b
/-- `rinv`. -/
def execRinv (d a b : BitVec 5) (s : State) : Out := s.rangeInstr .rinv d a b
/-- `rres`. -/
def execRres (d a b : BitVec 5) (s : State) : Out := s.rangeInstr .rres d a b
/-- `rcompact`. -/
def execRcompact (d a b : BitVec 5) (s : State) : Out := s.rangeInstr .rcompact d a b
/-- `rstat`: its a field is zero. -/
def execRstat (d b : BitVec 5) (s : State) : Out := s.rangeInstr .rstat d 0 b

/-! ## The result block (R268, R270, R271) -/

/-- CODE (R271). -/
abbrev codeOk : Nat := 0
/-- MALFORMED. -/
abbrev codeMalformed : Nat := 1
/-- OVERLAP. -/
abbrev codeOverlap : Nat := 2
/-- FULL. -/
abbrev codeFull : Nat := 3
/-- NOTFOUND. -/
abbrev codeNotFound : Nat := 4
/-- INCOMPATIBLE. -/
abbrev codeIncompatible : Nat := 5
/-- BOUND. -/
abbrev codeBound : Nat := 6
/-- ABANDONED. -/
abbrev codeAbandoned : Nat := 9

/-- The operation of sequence number `seq` of the thread in focus ends: its result bytes, the status word, and its ring
entry; an abandoned one is faulted with RANGE reason 9. -/
def State.rangeDone (s : State) (seq : BitVec 16) (va : Word) (res code resetAck : Nat) (body : List Byte) : State :=
  let bytes := if code = codeOk then body.take 0x38 ++ List.replicate (0x38 - body.length) 0
    else List.replicate 0x38 0
  let t := (s.resultBytes res bytes).completionWord (res + 0x38)
    (BitVec.ofNat 64 (2 ^ 63 + min resetAck 0xFFFF * 2 ^ 32 + code))
  if code = codeAbandoned then t.lateFault seq Cause.range (rangeFault 9 va.toNat).2 else t.opDone seq

/-- The bytes 0x00 to 0x27 of an entry. -/
def RangeEntry.result (e : RangeEntry) : List Byte := (natLe 64 e.bits.toNat).take 0x28

/-! ## What an operation does to the entries (R224, R269) -/

/-- The RESMAP of a new entry from old ones: every old sixty-fourth that overlaps the new one is resident (R224). -/
def newResmap (olds : List RangeEntry) (lo hi : Nat) : Word :=
  let cut := 64 * ((hi - lo + 4095) / 4096)
  let bit := fun (j : Nat) => olds.all fun (o : RangeEntry) =>
    let a := max (lo + j * cut) o.base.toNat
    let b := min (min (lo + (j + 1) * cut) hi) o.limit.toNat
    if a < b then (o.missingPart a (b - a)).isNone else true
  BitVec.ofNat 64 (((List.range 64).map fun j => if bit j then 2 ^ j else 0).sum)

/-- The two entries of a split. -/
def RangeEntry.split (e : RangeEntry) (p : Word) : List RangeEntry :=
  [{ e with limit := p, resmap := newResmap [e] e.base.toNat p.toNat },
   { e with base := p, resmap := newResmap [e] p.toNat e.limit.toNat }]

/-- The entry of a merge. -/
def RangeEntry.merge (e f : RangeEntry) : RangeEntry :=
  { e with limit := f.limit, resmap := newResmap [e, f] e.base.toNat f.limit.toNat }

/-- May the two be merged (R224)? -/
def RangeEntry.compatible (e f : RangeEntry) : Bool :=
  e.offset == f.offset && e.kind == f.kind && e.hord == f.hord && e.place == f.place && e.rd == f.rd && e.w == f.w &&
    e.x == f.x && e.e == f.e && e.limit == f.base

/-- The bytes of an operand block that `rres` and `rcompact` reserve are zero (R269). -/
def blockReserved (x : BitVec 512) (keep : Nat) : Bool :=
  x.extractLsb' 64 (8 * keep - 64) == 0 && x.toNat / 2 ^ (8 * keep + 64) == 0

/-- Does the guarded range hold the region span of a binding in the package, or for `rcompact` the region of a guard that
has bindings anywhere (R226, R271)? -/
def State.rangeBound (s : State) (pkg : Nat) (form : RangeForm) (e : RangeEntry) : Bool :=
  (e.kind == kindGuarded && (s.allCores.filter fun c => pkgOf c.addr.toNat == pkg && c.ctl.pid == e.pid).any fun c =>
    c.binds.toList.any fun b => match b with
      | some b => e.contains b.regionVa
      | none => false) ||
  (form == .rcompact && e.kind == kindGuarded && s.curators.any fun (_, g) =>
    !g.bindings.isEmpty && g.rplace == e.place &&
      overlap g.region g.len (e.pa e.base.toNat) (e.limit.toNat - e.base.toNat))

/-- What an operation is to do: refuse, complete at once with a result, or give notice. -/
inductive RangePlan where
  | refuse (code : Nat)
  | same (e : RangeEntry)
  | go (olds news : List RangeEntry) (setOnly : Bool)
deriving DecidableEq, Repr

/-- The plan of a changing form on the entry it resolved to, before the tests for bindings and room (R224, R269). -/
def State.rangePlan (s : State) (form : RangeForm) (va : Word) (block : BitVec 512) (e : RangeEntry) : RangePlan :=
  let st := stationOf s.core.addr.toNat
  match form with
  | .rsplit => if va.toNat % 64 ≠ 0 ∨ va = e.base then .refuse codeMalformed else .go [e] (e.split va) false
  | .rmerge =>
    match (s.catalogue st).find? fun (f : CatEntry) => f.entry.pid == e.pid && f.entry.base == e.limit with
    | none => .refuse codeNotFound
    | some f =>
      if !e.compatible f.entry then .refuse codeIncompatible
      else if !(e.merge f.entry).wf s.getPkg then .refuse codeMalformed
      else .go [e, f.entry] [e.merge f.entry] false
  | .rres =>
    let m : Word := block.extractLsb' 256 64
    let n : RangeEntry := { e with resmap := m }
    if !blockReserved block 0x20 then .refuse codeMalformed
    else if m = e.resmap then .same n
    else .go [e] [n] (m &&& e.resmap == e.resmap)
  | .rcompact =>
    let nb : Word := block.extractLsb' 128 64
    let old := e.pa e.base.toNat
    let n : RangeEntry := { e with offset := nb - e.base }
    if !blockReserved block 0x10 ∨ nb.toNat / 2 ^ 41 ≠ old / 2 ^ 41 ∨ nb.toNat % 64 ≠ 0 ∨ nb.toNat = old ∨
        !n.wf s.getPkg then .refuse codeMalformed
    else .go [e] [n] false
  | _ => .go [e] [] false

/-- Would the operation overfill a catalogue of 16,384 entries (R224)? -/
def State.rangeFull (s : State) (pkg : Nat) (pid : BitVec 16) (olds news : List RangeEntry) : Bool :=
  (List.range 64).any fun k =>
    let l := s.catalogue (64 * pkg + k)
    let hit := (l.filter fun (x : CatEntry) => x.entry.pid == pid && olds.any (·.base == x.entry.base)).length
    decide (0 < hit ∧ 16384 < l.length - hit + news.length)

/-- The die of the coordinating station of a PID: that of station PID mod 64, or the next die that runs (R222). -/
def State.coordinatorDie (s : State) (pkg : Nat) (pid : BitVec 16) : Nat :=
  let d := pid.toNat % 64 / 8
  (((List.range 8).map fun i => (d + i) % 8).find? (s.dieLive pkg)).getD d

/-- The operation reaches its coordinator and is marked as sent (R222). -/
def State.rangeSubmit (s : State) (seq : BitVec 16) (form : RangeForm) (va : Word) (block : BitVec 512) (res : Nat)
    (olds news : List RangeEntry) (setOnly : Bool) (old : RangeEntry) : State :=
  let r : RangeOp :=
    { core := s.core.thread, seq := seq, pkg := pkgOf s.core.addr.toNat, pid := s.core.ctl.pid, form := form,
      setOnly := setOnly, bases := olds.map (·.base), news := news, old := old,
      coord := s.coordinatorDie (pkgOf s.core.addr.toNat) s.core.ctl.pid, was := [], asked := [], owed := [],
      resetAck := 0, phase := .notices, res := res }
  let t := s.on (·.modOp seq fun o => { o with started := true, body := .range form va block res true })
  { t with rops := t.rops ++ [r] }

/-- A changing form at its station: resolved, refused, or sent on (R269, R271). -/
def State.rangeChange (s : State) (seq : BitVec 16) (form : RangeForm) (va : Word) (block : BitVec 512) (res : Nat) :
    State :=
  let pkg := pkgOf s.core.addr.toNat
  let pid := s.core.ctl.pid
  if s.rops.any fun (r : RangeOp) => r.pkg == pkg && r.pid == pid then s
  else match s.stationFind (stationOf s.core.addr.toNat) pid va.toNat with
    | (.wait, _) => s
    | (.absent, t) => t.rangeDone seq va res codeNotFound 0 []
    | (.hit c, t) =>
      match t.rangePlan form va block c.entry with
      | .refuse code => t.rangeDone seq va res code 0 []
      | .same e => t.rangeDone seq va res codeOk 0 e.result
      | .go olds news setOnly =>
        if olds.any (t.rangeBound pkg form) then t.rangeDone seq va res codeBound 0 []
        else if t.rangeFull pkg pid olds news then t.rangeDone seq va res codeFull 0 []
        else t.rangeSubmit seq form va block res olds news setOnly c.entry

/-- `rload` at its station (R215, R269). -/
def State.rangeInstall (s : State) (seq : BitVec 16) (va : Word) (block : BitVec 512) (res : Nat) : State :=
  let k := stationOf s.core.addr.toNat
  let e : RangeEntry := { RangeEntry.ofBits block with pid := s.core.ctl.pid }
  let l := s.catalogue k
  if !(entryReserved block && e.wf s.getPkg) then s.rangeDone seq va res codeMalformed 0 []
  else if l.any fun (x : CatEntry) => x.entry.pid == e.pid && x.entry.overlaps e then
    s.rangeDone seq va res codeOverlap 0 []
  else if 16384 ≤ l.length then s.rangeDone seq va res codeFull 0 []
  else (s.modCatalogue k fun l => l ++ [{ entry := e, state := .present, holders := [] }]).rangeDone
    seq va res codeOk 0 e.result

/-- `rprobe`: the core's table, else the station (R269). -/
def State.rangeProbe (s : State) (seq : BitVec 16) (va : Word) (res : Nat) : State :=
  match s.core.tableFind va.toNat with
  | some t => s.rangeDone seq va res codeOk 0 t.entry.result
  | none =>
    match s.stationFind (stationOf s.core.addr.toNat) s.core.ctl.pid va.toNat with
    | (.wait, _) => s
    | (.absent, t) => t.rangeDone seq va res codeNotFound 0 []
    | (.hit e, t) => t.rangeDone seq va res codeOk 0 e.entry.result

/-- The snapshot of `rstat` (R272). -/
def State.rangeStats (s : State) : List Byte :=
  let c := s.core
  let count := fun (k : TableState) => (c.rtab.entries.filter (·.state == k)).length
  [BitVec.ofNat 8 (count .valid), BitVec.ofNat 8 (count .drain), BitVec.ofNat 8 (count .moving),
   BitVec.ofNat 8 c.bindCount] ++ natLe 4 c.rtab.tmiss.toNat ++ natLe 4 c.rtab.cmiss.toNat ++
    natLe 4 (s.catalogue (stationOf c.addr.toNat)).length ++ natLe 4 c.rtab.resn.toNat

/-- STATION_RANGE_REQUEST at the thread in focus: its oldest range operation that has not been sent reaches the station
(R268: the operations of one core reach it in issue order). -/
def State.rangeRequest (s : State) : State :=
  let next := s.core.ops.find? fun (o : Op) => match o.body with
    | .range _ _ _ _ sent => !sent
    | _ => false
  match next with
  | none => s
  | some o =>
    if s.core.blocked o then s
    else match o.body with
      | .range .rload va block res _ => s.rangeInstall o.seq va block res
      | .range .rprobe va _ res _ => s.rangeProbe o.seq va res
      | .range .rstat va _ res _ => s.rangeDone o.seq va res codeOk 0 s.rangeStats
      | .range form va block res _ => s.rangeChange o.seq form va block res
      | _ => s

/-- STATION_RANGE_REQUEST. -/
def execStationRangeRequest (c : Nat) (s : State) : Out := .next (s.atAgent c State.rangeRequest)

/-! ## Notices (R216, R217, R222) -/

/-- Does an entry match a notice? -/
def RangeOp.hits (r : RangeOp) (pid : BitVec 16) (base : Word) : Bool := r.pid == pid && r.bases.contains base

/-- The operation of a package and PID in progress. -/
def State.rangeOp (s : State) (pkg pid : Nat) : Option RangeOp :=
  s.rops.find? fun (r : RangeOp) => r.pkg == pkg && r.pid.toNat == pid

/-- A change to an operation in progress. -/
def State.modRangeOp (s : State) (r : RangeOp) (f : RangeOp → RangeOp) : State :=
  { s with rops := s.rops.map fun (q : RangeOp) => if q.pkg = r.pkg ∧ q.pid = r.pid then f q else q }

/-- What a notice does to a matching entry of a catalogue (R217, R225). -/
def RangeOp.mark (r : RangeOp) (e : CatEntry) : CatEntry :=
  if r.setOnly then
    { e with entry := { e.entry with resmap := e.entry.resmap ||| (r.news.map (·.resmap)).foldl (· ||| ·) 0 } }
  else { e with state := if r.form = .rcompact then .moving else .changing }

/-- Entries leave the table of the core in focus: at once, or as DRAIN once no access uses them (R216). -/
def State.dropEntries (s : State) (f : TableEntry → Bool) : State :=
  let left := fun (t : TableEntry) =>
    if !f t then some t
    else if s.usesOf s.core t.entry.base.toNat = 0 then none else some { t with state := .drain }
  s.on fun c => { c with rtab := { c.rtab with entries := c.rtab.entries.filterMap left } }

/-- The matching entries leave the tables of some cores. -/
def State.dropAt (s : State) (r : RangeOp) (cs : List Nat) : State :=
  cs.foldl (fun t c => t.at c (·.dropEntries fun (e : TableEntry) => r.hits e.entry.pid e.entry.base)) s

/-- What a notice does to a matching entry of a core's table (R216). -/
def RangeOp.markTable (r : RangeOp) (t : TableEntry) : TableEntry :=
  if r.setOnly then
    { t with entry := { t.entry with resmap := t.entry.resmap ||| (r.news.map (·.resmap)).foldl (· ||| ·) 0 } }
  else { t with state := if r.form = .rcompact then .moving else .drain }

/-- The tables of some cores take a change whose acknowledgement the reset gives in their station's place: entries that
stay are marked, the others leave (R216, R223). -/
def State.tellAt (s : State) (r : RangeOp) (cs : List Nat) : State :=
  let here := fun (t : TableEntry) => r.hits t.entry.pid t.entry.base
  if r.setOnly ∨ r.form = .rcompact then
    cs.foldl (fun t c => t.at c (·.on fun k => { k with rtab := { k.rtab with
      entries := k.rtab.entries.map fun t => if here t then r.markTable t else t } })) s
  else s.dropAt r cs

/-- A notice at a station: its matching entries are marked, with what they held (R217, R225). -/
def State.noticeAt (s : State) (r : RangeOp) (station : Nat) (hits : List CatEntry) (f : RangeOp → RangeOp) : State :=
  (s.modCatalogue (64 * r.pkg + station) fun l =>
    l.map fun e => if r.hits e.entry.pid e.entry.base then r.mark e else e).modRangeOp r fun q =>
      f { q with asked := station :: q.asked, was := q.was ++ hits.map fun (e : CatEntry) => (station, e.entry.resmap) }

/-- RANGE_NOTICE: the coordinator's notice reaches a station, which marks its matching entries and sends the notice on
to their holders. The reset acknowledges for a station of a die in reset, whose catalogue is kept (R396) and is marked as
any other, and for the memory cores it serves (R223). -/
def execRangeNotice (pkg pid station : Nat) (s : State) : Out :=
  match s.rangeOp pkg pid with
  | none => .next s
  | some r =>
    if 64 ≤ station ∨ r.asked.contains station ∨ r.phase ≠ .notices then .next s
    else
      let hits := (s.catalogue (64 * r.pkg + station)).filter fun (e : CatEntry) => r.hits e.entry.pid e.entry.base
      let holders := (hits.flatMap (·.holders)).eraseDups
      if (s.getPkg pkg).dieReset.getLsbD (station / 8) then
        .next ((s.tellAt r (holders.filter (isMemCore ·))).noticeAt r station hits fun q =>
          { q with resetAck := q.resetAck + 1 })
      else .next (s.noticeAt r station hits fun q => { q with owed := q.owed ++ holders.map fun c => (station, c) })

/-- A notice at a holder, the core in focus: its entry is marked, and once no access uses it the entry leaves (or
stays MOVING) and the holder acknowledges (R216). -/
def State.holderStep (s : State) (r : RangeOp) : State :=
  let here := fun (t : TableEntry) => r.hits t.entry.pid t.entry.base
  let busy := !r.setOnly && (s.core.rtab.entries.filter here).any fun t => s.usesOf s.core t.entry.base.toNat != 0
  let t1 := s.on fun c => { c with rtab := { c.rtab with
    entries := c.rtab.entries.map fun t => if here t then r.markTable t else t } }
  if busy then t1
  else
    let t2 := if r.setOnly ∨ r.form = .rcompact then t1
      else t1.on fun c => { c with rtab := { c.rtab with entries := c.rtab.entries.filter fun t => !here t } }
    t2.modRangeOp r fun q => { q with owed := q.owed.filter fun (x : Nat × Nat) => x.2 != s.core.addr.toNat }

/-- HOLDER_ACKNOWLEDGE: the first operation that waits for the core; where none does, entries that still drain after an
abandoned one leave when no access uses them (R216). -/
def execHolderAcknowledge (c : Nat) (s : State) : Out :=
  match s.rops.find? fun (r : RangeOp) => r.owed.any (·.2 == c) with
  | none => .next (s.at c (·.dropEntries (·.state == .drain)))
  | some r => .next (s.at c (·.holderStep r))

/-! ## Applying (R222 to R226) -/

/-- Have all 64 stations acknowledged? -/
def RangeOp.acked (r : RangeOp) : Bool :=
  decide (r.phase = .notices) && (List.range 64).all (r.asked.contains ·) && r.owed.isEmpty

/-- The operation leaves its coordinator and its ring entry ends. The virtual address that an abandoned one reports is the
BASE of the range (DESIGN CHOICE, notes/assumptions/65.md). -/
def State.rangeFinish (s : State) (r : RangeOp) (code : Nat) : State :=
  let t : State := { s with rops := s.rops.filter fun (q : RangeOp) => !(q.pkg == r.pkg && q.pid == r.pid) }
  t.atThread r.core (·.rangeDone r.seq r.old.base r.res code r.resetAck
    (match r.news with
      | [] => r.old.result
      | e :: _ => e.result))

/-- A catalogue with the new entries in place of those that match (R222). -/
def RangeOp.apply (r : RangeOp) (l : List CatEntry) : List CatEntry :=
  if l.any fun (e : CatEntry) => r.hits e.entry.pid e.entry.base then
    l.filter (fun (e : CatEntry) => !r.hits e.entry.pid e.entry.base) ++
      r.news.map fun n => ({ entry := n, state := .present, holders := [] } : CatEntry)
  else l

/-- A change to every catalogue of a package. -/
def State.modStations (s : State) (pkg : Nat) (f : List CatEntry → List CatEntry) : State :=
  { s with stations := s.stations.map fun (k, l) => if k / 64 = pkg then (k, f l) else (k, l) }

/-- COORDINATOR_APPLY: the new entries are installed alike at every station that holds a matching one; a residency-set
operation only completes (R222, R225). -/
def execCoordinatorApply (pkg pid : Nat) (s : State) : Out :=
  match s.rangeOp pkg pid with
  | none => .next s
  | some r =>
    if !r.acked || r.form == .rcompact then .next s
    else .next ((if r.setOnly then s else s.modStations pkg r.apply).rangeFinish r codeOk)

/-- The keys of a run of bytes at two DPAs of one placement, cut where a window of either ends: source key, target key and
length. A place that is no plain byte has no key. The fuel bounds the windows met. -/
def State.moveRuns (s : State) (place : BitVec 2) (src dst n : Nat) : Nat → List (Option Nat × Option Nat × Nat)
  | 0 => []
  | fuel + 1 =>
    if n = 0 then []
    else
      let room := fun (a : Nat) => windowEnd (dpaLocal a) - dpaLocal a
      let m := min n (min (room src) (room dst))
      (s.offKey src place, s.offKey dst place, m) :: s.moveRuns place (src + m) (dst + m) (n - m) fuel

/-- A run of a moved range: the target bytes take the source's as they were in memory `m0`, with its errors, or become
undefined; what stood there in the order of accesses is past. -/
def State.moveRun (m0 : State) (id : Nat) (resident : Bool) (s : State) (x : Option Nat × Option Nat × Nat) : State :=
  match x with
  | (src, some dst, n) =>
    let bad := match src with
      | some k => (m0.poisonIn k n).map fun (p : Span) => ({ p with lo := p.lo - k + dst } : Span)
      | none => []
    let m := match src with
      | some k => if resident then s.mem.copyFrom m0.mem k dst n else s.mem.undefine dst n id
      | none => s.mem.undefine dst n id
    { s with
      mem := m
      poison := (s.dropPoison dst n).poison ++ if resident then bad else []
      order := { s.order with events := s.order.events.filter fun (e : WEvent) => !overlap e.key e.old.length dst n } }
  | _ => s

/-- One sixty-fourth of a moved range, taken from the state as it was; a part that is not resident becomes undefined at
the new span (R226). -/
def State.movePart (m0 : State) (id : Nat) (e : RangeEntry) (dst : Nat) (s : State) (j : Nat) : State :=
  let off := j * e.cut
  let n := min e.cut (e.limit.toNat - e.base.toNat - off)
  if e.limit.toNat - e.base.toNat ≤ off then s
  else (s.moveRuns e.place (e.pa e.base.toNat + off) (dst + off) n (n / 0x1000000 + 16)).foldl
    (m0.moveRun id (e.resmap.getLsbD j)) s

/-- CONSERVATOR_COPY: the resident sixty-fourths are copied to the new span, every byte with its old value (R226). -/
def execConservatorCopy (pkg pid : Nat) (s : State) : Out :=
  match s.rangeOp pkg pid with
  | none => .next s
  | some r =>
    if !r.acked || r.form != .rcompact then .next s
    else
      let dst := match r.news with
        | e :: _ => e.pa e.base.toNat
        | [] => 0
      let (id, t) := s.fresh
      .next (((List.range 64).foldl (s.movePart id r.old dst) t).modRangeOp r fun q => { q with phase := .copied })

/-- RETARGET: the new OFFSET reaches every station and every holder, which go on (R216, R217, R226). -/
def State.retargetCores (s : State) (r : RangeOp) (off : Word) : State :=
  let fix := fun (c : Core) => { c with rtab := { c.rtab with
    entries := c.rtab.entries.map fun (t : TableEntry) =>
      if r.hits t.entry.pid t.entry.base ∧ t.state = .moving then
        ({ entry := { t.entry with offset := off }, state := .valid } : TableEntry)
      else t } }
  let here := fun (c : Core) => if pkgOf c.addr.toNat = r.pkg then fix c else c
  { s with core := here s.core, others := s.others.map fun (k, c) => (k, here c) }

/-- RETARGET. -/
def execRetarget (pkg pid : Nat) (s : State) : Out :=
  match s.rangeOp pkg pid with
  | none => .next s
  | some r =>
    match r.phase, r.news with
    | .copied, n :: _ =>
      let put := fun (e : CatEntry) =>
        if r.hits e.entry.pid e.entry.base then ({ entry := n, state := .present, holders := e.holders } : CatEntry) else e
      .next (((s.modStations pkg (·.map put)).retargetCores r n.offset).rangeFinish r codeOk)
    | _, _ => .next s

end Sys2Proof.Machine
end

