-- ==== Sys2Proof/Machine/Guard.lean ====
section
/-!
DEFINITION. Sys2Proof/Machine/Guard.lean: the guard instructions, bindings, and the steps of curators and suppliers
(R245 to R258, R274 to R278).
-/

namespace Sys2Proof.Machine

/-! ## The instructions (R274) -/

/-- The sub field of a form. -/
def GuardForm.sub : GuardForm → Nat
  | .gbind => 0
  | .gunbind => 1
  | .gacqS => 2
  | .gacqX => 3
  | .grel => 4
  | .gtryS => 5
  | .gtryX => 6
  | .gflush => 7
  | .gstat => 8

/-- The word of a GUARD form. -/
def guardWord (form : GuardForm) (d a b : BitVec 5) : BitVec 32 :=
  mkWord 0x32 d a b (BitVec.ofNat 11 (64 * form.sub))

/-- A binding of the core in focus. -/
def Core.binding (c : Core) (num : Nat) : Option Binding := c.binds.toList.getD num none

/-- A change to a binding. -/
def Core.setBinding (c : Core) (num : Nat) (b : Option Binding) : Core :=
  { c with binds := if h : num < 8 then c.binds.set num b else c.binds }

/-- A window of `len` bytes with its stamp array, as spans. -/
def windowSpans (window stamps len : Nat) : List Span :=
  [{ lo := window, len := len }, { lo := stamps, len := 4 * (len / 512) }]

/-- The spans of a guard operation: the window and the stamp array of its binding, or of a `gbind` of its number that is
still pending (R276). -/
def Core.guardSpans (c : Core) (num : Nat) : OpSpans :=
  let held := match c.binding num with
    | some b => windowSpans b.window b.stamps b.len
    | none => []
  let coming := c.ops.flatMap fun (o : Op) => match o.body with
    | .guard .gbind n _ _ _ => if n = num then o.lwrite else []
    | _ => []
  { OpSpans.none with lwrite := held ++ coming }

/-- The key of a guard. -/
def guardKey (place : BitVec 2) (dpa : Nat) : Nat := place.toNat * 2 ^ 52 + dpa

/-- An active guard. -/
def State.guard (s : State) (gk : Nat) : Option Guard := aget s.curators gk

/-- LEN of the guard that a descriptor names: the curator's, or that of its object; 0 where no range maps it. -/
def State.bindLen (s : State) (x : BitVec 512) : Nat :=
  let va := x.toNat % 2 ^ 64
  match s.entryFor va with
  | none => 0
  | some e => match s.guard (guardKey e.place (e.pa va)) with
    | some g => g.len
    | none => min 0x100000 (s.mem.read (keyOff e.place.toNat (e.pa va + 8)) 4)

/-- The spans of a `gbind`: the window and the stamp array that its descriptor names (R242, R276). -/
def State.bindSpans (s : State) (x : BitVec 512) : OpSpans :=
  { OpSpans.none with
    lwrite := windowSpans (x.extractLsb' 128 21).toNat (x.extractLsb' 160 21).toNat (s.bindLen x) }

/-- The checks that a checkpointed team adds (R373). -/
def State.guardTeamCheck (s : State) (form : GuardForm) (d a b : BitVec 5) : Option Trap :=
  match form with
  | .gbind | .gunbind | .gflush => s.teamCheck (guardWord form d a b)
  | .grel => s.outCheck 16
  | _ => none

/-- A place in program order for a team member's `grel` in the outbound buffer (R373). -/
def State.keepPlace (s : State) (form : GuardForm) : State :=
  if form = .grel ∧ s.core.ctl.status.ckpt then s.outPush (.place s.core.ctl.drnext) else s

/-- A guard instruction (R274); the outbound buffer keeps a place for a team member's `grel` from here on (R373). -/
def State.guardInstr (s : State) (form : GuardForm) (d a b : BitVec 5) : Out :=
  let x := (s.g a).toNat
  let c1 := if form = .gbind then s.loadCheck x 64 else if 8 ≤ x then some (Cause.bounds, x) else none
  let c2 := if b = 0 then none else s.localCheck (s.g b).toNat 8 .store
  let desc : BitVec 512 := if form = .gbind then BitVec.ofNat 512 (s.localRead x 64) else 0
  let num := if form = .gbind then (desc.extractLsb' 192 3).toNat else x
  let status := if b = 0 then none else some (s.g b).toNat
  let spans := if form = .gbind then s.bindSpans desc else s.core.guardSpans num
  s.dispatched (c1.or (c2.or (s.guardTeamCheck form d a b))) false
    ((s.keepPlace form).dispatchTo 0x32 form.sub d spans (.guard form num desc status false))

/-- `gbind`. -/
def execGbind (d a b : BitVec 5) (s : State) : Out := s.guardInstr .gbind d a b
/-- `gunbind`. -/
def execGunbind (d a b : BitVec 5) (s : State) : Out := s.guardInstr .gunbind d a b
/-- `gacq.s`. -/
def execGacqS (d a b : BitVec 5) (s : State) : Out := s.guardInstr .gacqS d a b
/-- `gacq.x`. -/
def execGacqX (d a b : BitVec 5) (s : State) : Out := s.guardInstr .gacqX d a b
/-- `grel`. -/
def execGrel (d a b : BitVec 5) (s : State) : Out := s.guardInstr .grel d a b
/-- `gtry.s`. -/
def execGtryS (d a b : BitVec 5) (s : State) : Out := s.guardInstr .gtryS d a b
/-- `gtry.x`. -/
def execGtryX (d a b : BitVec 5) (s : State) : Out := s.guardInstr .gtryX d a b
/-- `gflush`. -/
def execGflush (d a b : BitVec 5) (s : State) : Out := s.guardInstr .gflush d a b
/-- `gstat`. -/
def execGstat (d a b : BitVec 5) (s : State) : Out := s.guardInstr .gstat d a b

/-! ## The status word (R277) -/

/-- CODE OK. -/
abbrev gOk : Nat := 0
/-- CODE STATE. -/
abbrev gState : Nat := 1
/-- CODE ACTIVATE. -/
abbrev gActivate : Nat := 2
/-- CODE INUSE. -/
abbrev gInuse : Nat := 3
/-- CODE MISMATCH. -/
abbrev gMismatch : Nat := 4
/-- CODE WINDOW. -/
abbrev gWindow : Nat := 5
/-- CODE BUSY. -/
abbrev gBusy : Nat := 6
/-- CODE UNBOUND. -/
abbrev gUnbound : Nat := 7

/-- STATE of a binding (R277). -/
def BindState.code : BindState → Nat
  | .bound => 1
  | .acquiring _ => 2
  | .heldS => 3
  | .heldX => 4

/-- The status word of a binding number after an operation. -/
def Core.guardStatus (c : Core) (num code : Nat) (lost renum : Bool) : Word :=
  let base := 2 ^ 63 + lost.toNat * 2 ^ 62 + renum.toNat * 2 ^ 61 + code * 2 ^ 48
  match c.binding num with
  | some b => BitVec.ofNat 64 (base + b.lep.toNat * 2 ^ 40 + b.state.code * 2 ^ 32 + b.last.toNat)
  | none => BitVec.ofNat 64 base

/-- A guard operation of the thread in focus ends: its status word, or without one a late fault for a refusal, and its
ring entry (R274). -/
def State.guardDone (s : State) (seq : BitVec 16) (num : Nat) (status : Option Nat) (code : Nat)
    (lost renum : Bool) : State :=
  match status with
  | some a => (s.completionWord a (s.core.guardStatus num code lost renum)).opDone seq
  | none => if code = gOk ∨ code = gBusy then s.opDone seq else s.lateFault seq Cause.guard code

/-- Where a pending guard operation reports. -/
def Core.guardStatusAddr (c : Core) (seq : BitVec 16) : Option Nat :=
  match c.op seq with
  | some o => match o.body with
    | .guard _ _ _ st _ => st
    | _ => none
  | none => none

/-- A guard operation named by thread, number and sequence ends. -/
def State.guardEnd (s : State) (core num : Nat) (seq : BitVec 16) (code : Nat) (lost renum : Bool) : State :=
  s.atThread core fun t => t.guardDone seq num (t.core.guardStatusAddr seq) code lost renum

/-! ## The curator -/

/-- A change to an active guard. -/
def State.modGuard (s : State) (gk : Nat) (f : Guard → Guard) : State :=
  match s.guard gk with
  | some g => { s with curators := aset s.curators gk (f g) }
  | none => s

/-- The curator of a guard key: package and stack (R219, R245). -/
def State.curatorOf (s : State) (gk : Nat) : Nat × Nat :=
  let dpa := gk % 2 ^ 52
  (dpaPkg dpa, ((s.getPkg (dpaPkg dpa)).placeOf (BitVec.ofNat 2 (gk / 2 ^ 52)) (dpaLocal dpa)).1)

/-- A guard message on its way. -/
def State.gsend (s : State) (m : GuardMsg) : State := { s with gmsgs := s.gmsgs ++ [m] }

/-- Does a span lie in stacked memory (R207)? -/
def inStacked (dpa n : Nat) : Bool := decide (dpaLocal dpa + n ≤ stackedSize)

/-- A guard from its object of 64 bytes, unless activation is refused (R245). A region, stamp array or length that
breaks the alignment of R245 is refused with those out of range (DEDUCED, notes/assumptions/22.md). -/
def Guard.ofObject (place : BitVec 2) (dpa : Nat) (x : BitVec 512) : Option Guard :=
  let f := fun (lo n : Nat) => (x.toNat / 2 ^ lo) % 2 ^ n
  let g : Guard :=
    { dpa := dpa, place := place, rplace := x.extractLsb' 52 2, region := f 0 52, len := f 64 32, hstamp := f 128 52,
      relcnt := x.extractLsb' 256 32, hcnt := x.extractLsb' 288 32, epoch := x.extractLsb' 320 8, steps := [],
      state := .idle, queue := [], lastX := none, bindings := [], holders := [] }
  if f 54 10 = 0 ∧ f 96 32 = 0 ∧ f 180 12 = 0 ∧ f 192 64 = 0 ∧ f 328 184 = 0 ∧ g.rplace ≠ 3 ∧
      g.region % 512 = 0 ∧ g.hstamp % 64 = 0 ∧ g.len % 512 = 0 ∧ 512 ≤ g.len ∧ g.len ≤ 0x100000 ∧
      inStacked g.region g.len ∧ inStacked g.hstamp (4 * (g.len / 512)) ∧ g.hcnt.toNat ≤ g.relcnt.toNat then some g
  else none

/-- The guard that a first or later binding counts at (R245); `none` where activation is refused. -/
def State.activate (s : State) (place : BitVec 2) (dpa : Nat) : Option Guard :=
  let gk := guardKey place dpa
  match s.guard gk with
  | some g => some g
  | none =>
    if 65536 ≤ (s.curators.filter fun (k, _) => s.curatorOf k == s.curatorOf gk).length then none
    else Guard.ofObject place dpa (BitVec.ofNat 512 (s.mem.read (keyOff place.toNat dpa) 64))

/-- Has a step of the given cause been taken since epoch `e` (R255, R257)? -/
def Guard.since (g : Guard) (e : BitVec 8) (loss : Bool) : Bool := (g.steps.take (g.epoch - e).toNat).contains loss

/-- The epoch rises for a cause. -/
def Guard.step (g : Guard) (loss : Bool) : Guard :=
  { g with epoch := g.epoch + 1, steps := (loss :: g.steps).take 255 }

/-- The loss step (R255): home becomes the supplier. -/
def Guard.lossStep (g : Guard) : Guard := { g.step true with relcnt := g.hcnt, lastX := none }

/-- The message that serves a request: a grant at once, a forward to the supplier, or a write-back (R252, R253). -/
def Guard.answer (g : Guard) (gk : Nat) (r : GuardReq) : GuardMsg :=
  match r.kind with
  | .flush => .writeBack gk r.core r.num r.seq false
  | _ =>
    if r.last ≠ 0 ∧ r.lep = g.epoch ∧ r.last = g.relcnt then .grant gk r g.relcnt g.epoch false false
    else .forward gk r g.lastX

/-- The guard with a request served (R253). -/
def Guard.served (g : Guard) (r : GuardReq) : Guard :=
  match r.kind with
  | .exclusive => { g with state := .excl, holders := (r.core, r.num) :: g.holders }
  | .shared =>
    let n := match g.state with
      | .shared n => n
      | _ => 0
    { g with state := .shared (n + 1), holders := (r.core, r.num) :: g.holders }
  | .flush =>
    let n := match g.state with
      | .shared n => n
      | _ => 0
    { g with state := .shared (n + 1) }

/-- The binding of a served request acquires: a `gtry` leaves BOUND only here (R276). -/
def State.acquires (s : State) (r : GuardReq) : State :=
  match r.kind with
  | .flush => s
  | k => s.atThread r.core (·.on fun c => match c.binding r.num with
    | some b => c.setBinding r.num (some { b with state := .acquiring (k == .exclusive) })
    | none => c)

/-- A request served. -/
def State.gServe (s : State) (gk : Nat) (r : GuardReq) : State :=
  match s.guard gk with
  | some g => ((s.modGuard gk (·.served r)).gsend (g.answer gk r)).acquires r
  | none => s

/-- Can a request be served at once (R253)? -/
def Guard.canServe (g : Guard) (k : ReqKind) : Bool :=
  match g.state with
  | .idle => true
  | .shared _ => k != .exclusive && g.queue.isEmpty
  | .excl => false

/-- The requests that an idle curator serves from its queue: an exclusive head alone, or the shared ones up to the
first exclusive (R253). -/
def headRequests : List GuardReq → List GuardReq
  | [] => []
  | r :: rs => if r.kind = .exclusive then [r] else r :: rs.takeWhile (·.kind != .exclusive)

/-- The queue served (R253). -/
def State.serveQueue (s : State) (gk : Nat) : State :=
  match s.guard gk with
  | none => s
  | some g =>
    let rs := headRequests g.queue
    rs.foldl (fun t r => t.gServe gk r) (s.modGuard gk fun g => { g with queue := g.queue.drop rs.length })

/-- The curator of a guard, as an agent (R229). -/
def State.curatorAgent (s : State) (gk : Nat) : Agent := .curator ((s.curatorOf gk).1 * 16 + (s.curatorOf gk).2)

/-- A curator that is idle with no binding left writes bytes 0x20 to 0x2F of the object and forgets the guard (R245,
R253). -/
def State.tidy (s : State) (gk : Nat) : State :=
  match s.guard gk with
  | none => s
  | some g =>
    if g.bindings.isEmpty ∧ g.state = .idle then
      let xs := natLe 4 g.relcnt.toNat ++ natLe 4 g.hcnt.toNat ++ natLe 8 g.epoch.toNat
      ({ s with curators := adel s.curators gk, mem := s.mem.zero (keyHome gk 0) g.len } : State).offWriteBytes (.plain (s.curatorAgent gk)) (g.dpa + 0x20) g.place xs
    else s

/-- A hold, or a served flush, ends: the curator counts it and serves its queue when idle (R253). -/
def State.gCount (s : State) (gk : Nat) : State :=
  match s.guard gk with
  | none => s
  | some g =>
    match g.state with
    | .shared (n + 2) => s.modGuard gk fun g => { g with state := .shared (n + 1) }
    | _ => ((s.modGuard gk fun g => { g with state := .idle }).serveQueue gk).tidy gk

/-- A hold of a binding ends at the curator. -/
def Guard.unhold (g : Guard) (core num : Nat) : Guard := { g with holders := g.holders.erase (core, num) }

/-! ## Releases (R251, R257) -/

/-- The stamp writes of an exclusive release: count `r` for the sub-blocks of `dirty`, at the thread in focus. -/
def State.stampAll (s : State) (stamps r : Nat) : List Nat → State
  | [] => s
  | i :: l => (s.rawWrite (stamps + 4 * i) (natLe 4 r)).stampAll stamps r l

/-- The sub-blocks of a window whose write bit is set (R251). -/
def Core.dirty (c : Core) (b : Binding) : List Nat :=
  (List.range (b.len / 512)).filter fun i => c.wbits.getLsbD (b.window / 512 + i)

/-- The write bits of a window cleared (R249). -/
def Core.cleanWindow (c : Core) (b : Binding) : Core := { c with wbits := c.wbits &&& ~~~touchBits b.window b.len }

/-- The core's side of an exclusive release: the changed sub-blocks (every one after a renumbering) are stamped with the
new count, and the window's bytes are kept as those of that release, for the copies that are sent of it (R251, R252,
R257). -/
def State.stampRelease (s : State) (num : Nat) (b : Binding) (renum : Bool) (r : BitVec 32) : State :=
  let which := if renum then List.range (b.len / 512) else s.core.dirty b
  let t := s.stampAll b.stamps r.toNat which
  (t.withMem fun m => m.copy (t.core.localKey b.window) (keyCopy t.core.thread num 0) b.len).on fun c =>
    (c.cleanWindow b).setBinding num (some { b with last := r })

/-- A shared release forgets the copy of a window that has changed (R251). -/
def Core.sharedRelease (c : Core) (num : Nat) (b : Binding) : Core :=
  (c.cleanWindow b).setBinding num (some { b with state := .bound, last := if (c.dirty b).isEmpty then b.last else 0 })

/-- A binding of the thread in focus released (R251, R256, R257). -/
def State.releaseAt (s : State) (num : Nat) (exclusive abort renum : Bool) (r : BitVec 32) : State :=
  match s.core.binding num with
  | none => s
  | some b =>
    if abort then s.on fun c => (c.cleanWindow b).setBinding num (some { b with state := .bound })
    else if exclusive then s.stampRelease num { b with state := .bound } renum r
    else s.on (·.sharedRelease num b)

/-- A release of a team member that leaves its outbound buffer, at the thread in focus: its core's side of a shared one
was done when it entered the buffer (R276). -/
def State.releaseLater (s : State) (num : Nat) (exclusive renum : Bool) (r : BitVec 32) : State :=
  match s.core.binding num with
  | some b => if exclusive then s.stampRelease num b renum r else s
  | none => s

/-- The curator's side of a release: the count, the renumbering at its end, the last holder, and the loss step of a
shared holder that changed its copy (R251, R257). The last holder is recorded as a thread and its binding number, so that
two bindings of one guard at one core count apart (DESIGN CHOICE, notes/assumptions/67.md). -/
def Guard.release (g : Guard) (core num : Nat) (exclusive abort dirty : Bool) : Guard :=
  if abort then g
  else if exclusive then
    if g.relcnt = 0xFFFFFFFF then { g.step false with relcnt := 1, hcnt := 0, lastX := some (core, num) }
    else { g with relcnt := g.relcnt + 1, lastX := some (core, num) }
  else if dirty && g.lastX == some (core, num) then g.lossStep
  else g

/-- Has the window of a thread's binding a write bit set? -/
def State.windowDirty (s : State) (core num : Nat) : Bool :=
  match s.getThread core with
  | some c => match c.binding num with
    | some b => !(c.dirty b).isEmpty
    | none => false
  | none => false

/-- A release that has reached the curator (R251, R253, R256), with what it publishes (R258); `later` tells, for one that
leaves a team member's outbound buffer, whether its window had changed. -/
def State.gReleaseBy (s : State) (gk core num : Nat) (abort : Bool) (pub : List Nat) (later : Option Bool) : State :=
  match s.guard gk with
  | none => s
  | some g =>
    if !g.holders.contains (core, num) then s
    else
      let exclusive := g.state == .excl
      let renum := g.relcnt == 0xFFFFFFFF
      let g1 := (g.release core num exclusive abort (later.getD (s.windowDirty core num))).unhold core num
      let t : State := { s with curators := aset s.curators gk g1 }
      let t1 := if abort then t else t.guardPublish gk exclusive pub
      (t1.atThread core fun u => match later with
        | none => u.releaseAt num exclusive abort renum g1.relcnt
        | some _ => u.releaseLater num exclusive renum g1.relcnt).gCount gk

/-- A release at the curator. -/
def State.gRelease (s : State) (gk core num : Nat) (abort : Bool) (pub : List Nat) : State :=
  s.gReleaseBy gk core num abort pub none

/-- What the release operation `seq` of a thread publishes: the writes visible to the thread at its dispatch (R251,
R258). -/
def State.releasePub (s : State) (core : Nat) (seq : BitVec 16) : List Nat :=
  joinIds (s.ownBefore core seq) (((s.getThread core).bind (·.op seq)).elim [] (·.att.seen))

/-! ## Copies of sub-blocks (R247, R252, R254) -/

/-- One sub-block at a supplier: its bytes and stamp. -/
structure SubBlock where
  idx : Nat
  stamp : Nat
  data : List Byte
deriving DecidableEq, Repr

/-- The sub-blocks of the copy that a thread's binding holds, as they were at its last exclusive release (R252). -/
def State.copyBlocks (s : State) (c : Core) (num : Nat) (b : Binding) : List SubBlock :=
  (List.range (b.len / 512)).map fun i =>
    { idx := i, stamp := s.mem.read (c.localKey (b.stamps + 4 * i)) 4
      data := s.mem.bytes (keyCopy c.thread num (512 * i)) 512 }

/-- Bytes that another agent writes into the store of the thread in focus: those in the window of a binding are undefined
until its next delivery (R248). -/
def State.foreignWrite (s : State) (a : Nat) (xs : List Byte) : State :=
  let parts := s.core.binds.toList.filterMap fun b => b.bind fun (b : Binding) =>
    if overlap b.window b.len a xs.length then
      let lo := max a b.window
      some ({ lo := lo, len := min (a + xs.length) (b.window + b.len) - lo } : Span)
    else none
  parts.foldl (fun t (x : Span) =>
    let (id, u) := t.fresh
    u.withMem (·.undefine (u.core.localKey x.lo) x.len id)) (s.localWriteBytes a xs)

/-- The sub-blocks at home, as activation found them and write-backs left them: what another range writes to the region
meanwhile never reaches a holder (R254). A stamp read at home counts as at most HCNT (R247). -/
def State.homeBlocks (s : State) (g : Guard) : List SubBlock :=
  (List.range (g.len / 512)).map fun i =>
    { idx := i, stamp := min (s.mem.read (keyOff g.rplace.toNat (g.hstamp + 4 * i)) 4) g.hcnt.toNat
      data := s.mem.bytes (keyHome (guardKey g.place g.dpa) (512 * i)) 512 }

/-- Sub-blocks delivered into the window and stamps of a binding of the thread in focus: no write bit is set (R249,
R252). -/
def State.deliver (s : State) (b : Binding) : List SubBlock → State
  | [] => s
  | x :: l => ((s.rawWrite (b.window + 512 * x.idx) x.data).rawWrite (b.stamps + 4 * x.idx)
      (natLe 4 x.stamp)).deliver b l

/-- The supplier's copy, if it can still serve: its binding stands and its package is reached (R255). -/
def State.supplierCopy (s : State) (gk : Nat) (p : Nat × Nat) : Option (Core × Binding) :=
  match s.getThread p.1 with
  | none => none
  | some c =>
    match c.binding p.2 with
    | none => none
    | some b =>
      if guardKey b.place b.guard = gk ∧ s.reaches (dpaPkg (gk % 2 ^ 52)) (pkgOf c.addr.toNat) then some (c, b) else none

/-- A sub-block written home with its stamp, and into what home supplies (R254). -/
def State.homeWrite (s : State) (w : WStand) (g : Guard) (x : SubBlock) : State :=
  ((s.offWriteBytes w (g.region + 512 * x.idx) g.rplace x.data).offWriteBytes w (g.hstamp + 4 * x.idx) g.rplace
    (natLe 4 x.stamp)).withMem (·.writeBytes (keyHome (guardKey g.place g.dpa) (512 * x.idx)) x.data)

/-- The newer sub-blocks that a write-back takes from a supplier (R254). -/
def State.newerBlocks (s : State) (g : Guard) (num : Nat) (cb : Core × Binding) : List SubBlock :=
  (s.copyBlocks cb.1 num cb.2).filter fun (x : SubBlock) => decide (g.hcnt.toNat < x.stamp)

/-- A write-back: every sub-block whose stamp exceeds HCNT goes home, and HCNT := RELCNT; a supplier that cannot serve is
a loss, and home as the supplier has nothing to write (R253, R254, R255). -/
def State.gWriteBack (s : State) (gk : Nat) : State :=
  match s.guard gk with
  | none => s
  | some g =>
    match g.lastX with
    | none => s
    | some p => match s.supplierCopy gk p with
      | some cb =>
        ((s.newerBlocks g p.2 cb).foldl (fun t x => t.homeWrite (.plain (.engine p.1)) g x) s).modGuard gk
          fun g => { g with hcnt := g.relcnt }
      | none => s.modGuard gk (·.lossStep)

/-! ## Bindings that end (R250, R254, R256) -/

/-- A binding leaves the core, and the copy kept of it goes. -/
def State.unbindCore (s : State) (num : Nat) : State :=
  match s.core.binding num with
  | some b => (s.withMem (·.zero (keyCopy s.core.thread num 0) b.len)).on (·.setBinding num none)
  | none => s

/-- A binding leaves the curator's count and the core (R250, R253). -/
def State.uncount (s : State) (gk core num : Nat) : State :=
  ((s.modGuard gk fun g => { g with bindings := g.bindings.filter (· != (core, num)) }).atThread core
    (·.unbindCore num)).tidy gk

/-- Does a forward that this binding must serve still travel? -/
def State.owesForward (s : State) (core num : Nat) : Bool :=
  s.gmsgs.any fun m => match m with
    | .forward _ _ sup => sup == some (core, num)
    | _ => false

/-- The write-back of the last exclusive holder that unbinds: home becomes the supplier (R254). -/
def State.unbindHome (s : State) (gk core num : Nat) : State :=
  match s.guard gk with
  | some g =>
    if g.lastX = some (core, num) then (s.gWriteBack gk).modGuard gk fun g => { g with lastX := none } else s
  | none => s

/-- `gunbind` as a thread that ends by `done` performs it, for one binding (R254). -/
def State.unbindNow (s : State) (core num : Nat) (b : Binding) : State :=
  let gk := guardKey b.place b.guard
  let seen := (s.getThread core).elim [] (·.view.seen)
  ((s.gRelease gk core num false seen).unbindHome gk core num).uncount gk core num

/-- A binding of a thread that ended otherwise is taken down: an abort release, then the uncounting, then the loss step if
the guard is still active (R256). -/
def State.takeDown (s : State) (core num : Nat) (b : Binding) : State :=
  let gk := guardKey b.place b.guard
  let t := (s.gRelease gk core num true []).uncount gk core num
  match t.guard gk with
  | some g => if g.lastX = some (core, num) then t.modGuard gk (·.lossStep) else t
  | none => t

/-- Every binding of a thread ended by `f`, in binding order; one that still acquires waits for its grant (R256). -/
def State.endBindings (s : State) (core : Nat) (f : State → Nat → Nat → Binding → State) : State :=
  (List.range 8).foldl (fun t num => match (t.getThread core).bind (·.binding num) with
    | some b => match b.state with
      | .acquiring _ => t
      | _ => f t core num b
    | none => t) s

/-- Has the thread ended other than by `done`? -/
def Core.endedBadly (c : Core) : Bool :=
  match c.run with
  | .halted | .endedFault | .cancelled => true
  | _ => false

/-! ## `gbind` (R275) -/

/-- How the checks of `gbind` end: a code, a late fault, waiting, or the binding. -/
inductive BindRes where
  | code (n : Nat) (s : State)
  | fault (t : Trap) (s : State)
  | wait (s : State)
  | ok (b : Binding) (g : Guard) (s : State)
deriving DecidableEq, Repr

/-- Reserved bits and alignment of a descriptor (R275, check 1). -/
def descOk (x : BitVec 512) : Bool :=
  let f := fun (lo n : Nat) => (x.toNat / 2 ^ lo) % 2 ^ n
  f 0 6 == 0 && f 128 9 == 0 && f 149 11 == 0 && f 160 6 == 0 && f 181 11 == 0 && f 195 5 == 0 && f 200 312 == 0

/-- Does the window or stamp array of the new binding overlap the other or those of another binding, or reach LSLIM
(R275, check 5)? -/
def Core.windowClash (c : Core) (lslim window stamps len : Nat) : Bool :=
  let n := 4 * (len / 512)
  decide (lslim < window + len) || decide (lslim < stamps + n) || overlap window len stamps n ||
    c.binds.toList.any fun b => match b with
      | some b => overlap b.window b.len window len || overlap b.stamps (4 * (b.len / 512)) window len ||
          overlap b.window b.len stamps n || overlap b.stamps (4 * (b.len / 512)) stamps n
      | none => false

/-- Check 4 and 5 of R275, with the guard known. -/
def State.bindRegion (s : State) (x : BitVec 512) (gx : Xlat) (g : Guard) (lslim : Nat) : BindRes :=
  let f := fun (lo n : Nat) => (x.toNat / 2 ^ lo) % 2 ^ n
  let va := f 64 64
  match s.engineXlat [] (BitVec.ofNat 64 va) .engineRead 1 with
  | .wait t => .wait t
  | .fault t s1 => .fault t s1
  | .ok y s1 =>
    match s1.core.tableFind va with
    | none => .wait s1
    | some e =>
      if y.kind ≠ kindGuarded ∨ e.entry.limit.toNat < va + g.len ∨ y.pa ≠ g.region ∨ y.place ≠ g.rplace then
        .code gMismatch s1
      else match e.entry.missingPart va g.len with
      | some j => .fault (Cause.residency, e.entry.base.toNat + j * e.entry.cut) s1
      | none =>
        if s1.core.windowClash lslim (f 128 21) (f 160 21) g.len then .code gWindow s1
        else match s1.tableRoom with
        | none => .wait s1
        | some c => .ok
            { guard := gx.pa, place := gx.place, regionVa := va, region := g.region, rplace := g.rplace, len := g.len,
              window := f 128 21, stamps := f 160 21, last := 0, lep := 0, state := .bound, fresh := false }
            g (s1.on fun _ => c)

/-- A change to the state that the checks leave. -/
def BindRes.on (r : BindRes) (f : State → State) : BindRes :=
  match r with
  | .code n s => .code n (f s)
  | .fault t s => .fault t (f s)
  | .wait s => .wait (f s)
  | .ok b g s => .ok b g (f s)

/-- A saved context keeps no table entries (R215). -/
def Core.closeTable (c : Core) : Core := if c.image then { c with rtab := { c.rtab with entries := [] } } else c

/-- The checks of R275 in order; a guard object with no live route to it is unreachable, MEMORY reason 1 (R379). -/
def State.bindChecks (s : State) (x : BitVec 512) (num lslim : Nat) : BindRes :=
  let gva : Word := x.setWidth 64
  if !descOk x then .code gWindow s
  else if (s.core.binding num).isSome then .code gInuse s
  else match s.engineXlat [] gva .engineBoth 64 with
  | .wait t => .wait t
  | .fault t s1 => .fault t s1
  | .ok gx s1 =>
    if gx.kind ≠ kindSync then .fault (rangeFault 5 gva.toNat) s1
    else if !s1.reachesAt s1.core.addr.toNat gx.pa gx.place then .fault (memoryTrap gva 1) s1
    else match s1.activate gx.place gx.pa with
    | none => .code gActivate s1
    | some g => s1.bindRegion x gx g lslim

/-- The checks of a `gbind` of the thread in focus. -/
def State.bindCheck (s : State) (x : BitVec 512) (num lslim : Nat) : BindRes :=
  (s.bindChecks x num lslim).on (·.on (·.closeTable))

/-- What home supplies of a guard that this binding activates: its region as it stands (R254). -/
def State.homeKept (s : State) (gk : Nat) (g : Guard) : State :=
  if (s.guard gk).isSome then s
  else s.withMem fun m => m.copy (keyOff g.rplace.toNat g.region) (keyHome gk 0) g.len

/-- The binding is made and counted at the curator (R250). -/
def State.bindMade (s : State) (num : Nat) (b : Binding) (g : Guard) : State :=
  let gk := guardKey b.place b.guard
  let g1 : Guard := { g with bindings := g.bindings ++ [(s.core.thread, num)] }
  let t := s.homeKept gk g
  ({ t with curators := aset t.curators gk g1 } : State).on (·.setBinding num (some b))

/-- Is another guard operation of the binding pending behind `seq`? -/
def Core.laterOn (c : Core) (seq : BitVec 16) (num : Nat) : Bool :=
  c.ops.any fun (p : Op) => p.seq != seq && match p.body with
    | .guard _ n _ _ _ => n == num
    | _ => false

/-- `gbind` at its start; a wait keeps what its lookups have fetched (R217), and a thread that has ended badly keeps no
binding once its operations on it have run (R256). -/
def State.startBind (s : State) (seq : BitVec 16) (num : Nat) (x : BitVec 512) (status : Option Nat)
    (lslim : Nat) : State :=
  match s.bindCheck x num lslim with
  | .wait t => t
  | .code n t => t.guardDone seq num status n false false
  | .fault f t => t.lateFault seq f.1 f.2
  | .ok b g t =>
    let t1 := (t.bindMade num b g).guardDone seq num status gOk false false
    if t1.core.endedBadly ∧ !t1.core.laterOn seq num then t1.takeDown t1.core.thread num b else t1

/-! ## GUARD_OPERATION_START (R274, R276) -/

/-- The operation is under way. -/
def Core.guardSent (c : Core) (seq : BitVec 16) : Core :=
  c.modOp seq fun (o : Op) => { o with started := true }

/-- A form on a binding whose state permits it. -/
def State.startOn (s : State) (seq : BitVec 16) (form : GuardForm) (num : Nat) (b : Binding) : State :=
  let gk := guardKey b.place b.guard
  let k := s.core.thread
  let t := s.on (·.guardSent seq)
  let ask := fun (kind : ReqKind) (try_ : Bool) => t.gsend (.request gk
    { core := k, num := num, seq := seq, kind := kind, last := b.last, lep := b.lep } try_)
  let acquiring := fun (x : Bool) (u : State) =>
    u.on (·.setBinding num (some { b with state := .acquiring x }))
  match form with
  | .gunbind => t.gsend (.unbind gk k num seq)
  | .gacqS => acquiring false (ask .shared false)
  | .gacqX => acquiring true (ask .exclusive false)
  | .gtryS => ask .shared true
  | .gtryX => ask .exclusive true
  | .gflush => ask .flush false
  | .grel => t.gsend (.release gk k num (some seq) false)
  | _ => s

/-- The place that a team member's `grel` holds in the outbound buffer filled, or given up (R373). -/
def Core.fillPlace (c : Core) (seq : BitVec 16) (l : List OutOp) : Core :=
  { c with team := { c.team with outbuf := c.team.outbuf.flatMap fun o => if o = .place seq then l else [o] } }

/-- A guard operation that is refused: a team member's `grel` gives up its place (R274, R373). -/
def State.guardRefused (s : State) (seq : BitVec 16) (num : Nat) (status : Option Nat) (code : Nat) : State :=
  (s.on (·.fillPlace seq [])).guardDone seq num status code false false

/-- A team member's `grel`: its release enters the outbound buffer at its place, and the binding is BOUND from here on
(R276); one whose place a rollback has discarded releases nothing. -/
def State.startBufferedRelease (s : State) (seq : BitVec 16) (num : Nat) (status : Option Nat) (b : Binding) : State :=
  let t := if !s.core.team.outbuf.contains (.place seq) then s
    else if b.state = .heldX then s.on fun c => (c.fillPlace seq [.grel num []]).setBinding num (some { b with state := .bound })
    else s.on fun c => (c.fillPlace seq [.grel num (c.dirty b)]).sharedRelease num b
  t.guardDone seq num status gOk false false

/-- A release that leaves the outbound buffer of the thread in focus (R375, R258). -/
def State.releaseBuffered (s : State) (num : Nat) (dirty : List Nat) : State :=
  match s.core.binding num with
  | some b => s.gReleaseBy (guardKey b.place b.guard) s.core.thread num false s.core.view.seen (some !dirty.isEmpty)
  | none => s

/-- Is the form permitted in a state (R276)? -/
def GuardForm.permitted (f : GuardForm) (b : BindState) : Bool :=
  let held := b == .heldS || b == .heldX
  match f with
  | .gunbind => held || b == .bound
  | .grel => held
  | .gstat => true
  | _ => b == .bound

/-- Does the form release, if the binding is held? -/
def GuardForm.releases (f : GuardForm) : Bool := f == .grel || f == .gunbind

/-- A guard operation of the thread in focus starts, once no earlier one of its binding is pending and none of the
operations before it conflicts (R244, R274); one that releases, once the ordered stores before it have been performed
(R251, R236). -/
def State.startGuard (s : State) (seq : BitVec 16) : State :=
  match s.core.op seq with
  | none => s
  | some o =>
    match o.body with
    | .guard form num x status _ =>
      let before := (s.core.ops.takeWhile (·.seq != seq)).any fun (p : Op) => match p.body with
        | .guard _ n _ _ _ => n == num
        | _ => false
      if o.started ∨ before ∨ s.core.blocked o ∨ (form.releases ∧ s.heldBefore seq) then s
      else if form = .gbind then s.startBind seq num x status o.att.lslim.toNat
      else match s.core.binding num with
      | none => s.guardRefused seq num status (if form = .gstat then gOk else gUnbound)
      | some b =>
        if form = .gstat then s.guardDone seq num status gOk false false
        else if !form.permitted b.state then s.guardRefused seq num status gState
        else if form = .grel ∧ s.core.ctl.status.ckpt then s.startBufferedRelease seq num status b
        else s.startOn seq form num b
    | _ => s

/-- GUARD_OPERATION_START. -/
def execGuardOperationStart (c seq : Nat) (s : State) : Out :=
  .next (s.atAgent c (·.startGuard (BitVec.ofNat 16 seq)))

/-! ## The events at curators and suppliers -/

/-- A guard message taken off its way. -/
def State.gtake (s : State) (i : Nat) : State := { s with gmsgs := s.gmsgs.eraseIdx i }

/-- Is there a live route between a thread's core and the curator of a guard (R385)? -/
def State.curatorWay (s : State) (gk core : Nat) : Bool :=
  s.reachesAt (threadCore core) (gk % 2 ^ 52) (BitVec.ofNat 2 (gk / 2 ^ 52))

/-- Is there a live route between a thread's core and the region of a guard at home: every channel that holds some of it
sends its own (R252)? -/
def State.homeWay (s : State) (g : Guard) (core : Nat) : Bool :=
  (List.range (g.len / 256)).all fun i => s.reachesAt (threadCore core) (g.region + 256 * i) g.rplace

/-- Is there a live route between the supplier of a guard and a thread's core? -/
def State.supplyWay (s : State) (gk : Nat) (g : Guard) (sup : Option (Nat × Nat)) (core : Nat) : Bool :=
  match sup with
  | some p => if g.lastX = sup ∧ (s.supplierCopy gk p).isSome then s.coresReach (threadCore p.1) (threadCore core)
    else s.homeWay g core
  | none => s.homeWay g core

/-- Is the way of a guard message live? One whose way is not waits until it is (DESIGN CHOICE, notes/assumptions/24.md). -/
def State.guardWay (s : State) (m : GuardMsg) : Bool :=
  match m with
  | .request gk r _ => s.curatorWay gk r.core
  | .forward gk r sup => (s.guard gk).all fun g => s.supplyWay gk g sup r.core
  | .grant gk r relcnt epoch _ _ =>
    if r.last ≠ 0 ∧ r.lep = epoch ∧ r.last = relcnt then s.curatorWay gk r.core
    else (s.guard gk).all fun g => s.supplyWay gk g g.lastX r.core
  | .release gk core _ _ _ => s.curatorWay gk core
  | .unbind gk core _ _ => s.curatorWay gk core
  | .writeBack gk _ _ _ _ => (s.guard gk).all fun g => g.lastX.all fun p =>
    (s.supplierCopy gk p).isNone || s.homeWay g p.1

/-- CURATOR_REQUEST: the request is served at once, queued, or for a `gtry` answered BUSY (R252, R253, R276). -/
def execCuratorRequest (i : Nat) (s : State) : Out :=
  match s.gmsgs[i]? with
  | some (.request gk r try_) =>
    let t := s.gtake i
    if !s.guardWay (.request gk r try_) then .next s
    else match t.guard gk with
    | none => .next (t.guardEnd r.core r.num r.seq gUnbound false false)
    | some g =>
      if g.canServe r.kind then .next (t.gServe gk r)
      else if try_ then .next (t.guardEnd r.core r.num r.seq gBusy false false)
      else .next (t.modGuard gk fun g => { g with queue := g.queue ++ [r] })
  | _ => .next s

/-- The sub-blocks a request is sent: those newer than its copy, or all (R252). -/
def Guard.wanted (g : Guard) (r : GuardReq) (l : List SubBlock) : List SubBlock :=
  if r.last = 0 ∨ r.lep ≠ g.epoch then l else l.filter fun (x : SubBlock) => decide (r.last.toNat < x.stamp)

/-- An uncorrectable error in the stamp array that the supplier reads, or under a sub-block that it is to send: in its own
store UNCORR with the local address, at home MEMORY with REGION (R379). -/
def State.supplyError (s : State) (g : Guard) (copy : Option (Core × Binding)) (xs : List SubBlock) : Option Trap :=
  match copy with
  | some (c, b) =>
    ((s.poisonAt (c.localKey b.stamps) (4 * (b.len / 512))).map fun o => (Cause.uncorr, b.stamps + o)).or
      (xs.findSome? fun (x : SubBlock) =>
        (s.poisonAt (c.localKey (b.window + 512 * x.idx)) 512).map fun o => (Cause.uncorr, b.window + 512 * x.idx + o))
  | none =>
    if s.poisonHit (keyOff g.rplace.toNat g.hstamp) (4 * (g.len / 512)) ∨
        (xs.any fun (x : SubBlock) => s.poisonHit (keyOff g.rplace.toNat (g.region + 512 * x.idx)) 512) then
      some (Cause.memory, g.region)
    else none

/-- A supply that failed: the acquire is a late fault, the binding BOUND without a copy, and the hold ends at the
curator (DESIGN CHOICE, notes/assumptions/23.md). -/
def State.supplyFailed (s : State) (gk : Nat) (r : GuardReq) (t : Trap) : State :=
  ((s.modGuard gk (·.unhold r.core r.num)).atThread r.core fun u => (u.on fun c => match c.binding r.num with
    | some b => c.setBinding r.num (some { b with state := .bound, last := 0 })
    | none => c).lateFault r.seq t.1 t.2).gCount gk

/-- The grant that follows the sub-blocks (R252, R255, R257): a request that held no copy learns of no loss. -/
def Guard.grantFor (g : Guard) (gk : Nat) (r : GuardReq) : GuardMsg :=
  .grant gk r g.relcnt g.epoch (r.last != 0 && g.since r.lep true) (r.last != 0 && g.since r.lep false)

/-- A supplier with the binding that holds its copy. -/
abbrev Supplier := Core × Nat × Binding

/-- SUPPLIER_FORWARD with the supplier known: its sub-blocks land in the requester's window, and the grant follows. -/
def State.supply (s : State) (gk : Nat) (r : GuardReq) (g : Guard) (copy : Option Supplier) : State :=
  let all := match copy with
    | some (c, n, b) => s.copyBlocks c n b
    | none => s.homeBlocks g
  let xs := g.wanted r all
  match s.supplyError g (copy.map fun x => (x.1, x.2.2)) xs with
  | some t => (if copy.isNone then s.countSymbol g.region g.rplace else s).supplyFailed gk r t
  | none =>
    (s.atThread r.core fun u => match u.core.binding r.num with
      | some b => if u.discards then u else u.deliver b xs
      | none => u).gsend (g.grantFor gk r)

/-- SUPPLIER_FORWARD: forwards that reach one supplier are served in arrival order; where the supplier cannot serve,
the curator takes the loss step and home serves; home serves too once a loss step has been taken (R251, R252, R255). -/
def execSupplierForward (i : Nat) (s : State) : Out :=
  match s.gmsgs[i]? with
  | some (.forward gk r sup) =>
    let earlier := (s.gmsgs.take i).any fun m => match m with
      | .forward _ _ q => q == sup && sup.isSome
      | _ => false
    if earlier || !s.guardWay (.forward gk r sup) then .next s
    else
      let t := s.gtake i
      match t.guard gk, sup with
      | none, _ => .next t
      | some g, none => .next (t.supply gk r g none)
      | some g, some p =>
        if g.lastX ≠ sup then .next (t.supply gk r g none)
        else match t.supplierCopy gk p with
        | some (c, b) => .next (t.supply gk r g (some (c, p.2, b)))
        | none => .next ((t.modGuard gk (·.lossStep)).supply gk r g.lossStep none)
  | _ => .next s

/-- GRANT_ARRIVAL at the thread in focus: the binding is held, with clean write bits, and the thread acquires what the
guard's releases have published (R249, R250, R258). -/
def State.granted (s : State) (gk : Nat) (r : GuardReq) (relcnt : BitVec 32) (epoch : BitVec 8) (lost renum : Bool) : State :=
  match s.core.binding r.num with
  | none => s
  | some b =>
    let b1 : Binding := { b with
      state := if r.kind = .exclusive then .heldX else .heldS, last := relcnt, lep := epoch, fresh := true }
    (((s.guardAcquire gk (r.kind == .exclusive)).on fun c =>
      (c.cleanWindow b).setBinding r.num (some b1)).setLatch).guardDone r.seq r.num
      (s.core.guardStatusAddr r.seq) gOk lost renum

/-- GRANT_ARRIVAL: the grant of a thread that has ended badly is given an abort release (R250, R256). -/
def execGrantArrival (i : Nat) (s : State) : Out :=
  match s.gmsgs[i]? with
  | some (.grant gk r relcnt epoch lost renum) =>
    let t := (s.gtake i).atThread r.core (·.granted gk r relcnt epoch lost renum)
    if !s.guardWay (.grant gk r relcnt epoch lost renum) then .next s
    else match t.getThread r.core with
    | some c =>
      if c.endedBadly ∧ !c.laterOn r.seq r.num then
        match c.binding r.num with
        | some b => .next (t.takeDown r.core r.num b)
        | none => .next t
      else .next t
    | none => .next t
  | _ => .next s

/-- An unbinding at the curator: the hold is released, and the last exclusive holder's copy goes home first (R250,
R254). -/
def State.gUnbind (s : State) (gk core num : Nat) (seq : BitVec 16) : State :=
  let t := s.gRelease gk core num false (s.releasePub core seq)
  match t.guard gk with
  | some g =>
    if g.lastX = some (core, num) then t.gsend (.writeBack gk core num seq true)
    else (t.uncount gk core num).guardEnd core num seq gOk false false
  | none => t.guardEnd core num seq gUnbound false false

/-- CURATOR_RELEASE: a release, or an unbinding, reaches the curator. -/
def execCuratorRelease (i : Nat) (s : State) : Out :=
  match s.gmsgs[i]? with
  | some (.release gk core num seq abort) =>
    if !s.guardWay (.release gk core num seq abort) then .next s
    else
      let t := (s.gtake i).gRelease gk core num abort (seq.elim [] (s.releasePub core))
      match seq with
      | some q => .next (t.guardEnd core num q gOk false false)
      | none => .next t
  | some (.unbind gk core num seq) =>
    .next (if s.guardWay (.unbind gk core num seq) then (s.gtake i).gUnbind gk core num seq else s)
  | _ => .next s

/-- An uncorrectable error in the supplier's window under what a write-back takes (R379). -/
def State.writeBackError (s : State) (gk : Nat) : Option Trap :=
  (s.guard gk).bind fun g => g.lastX.bind fun p => (s.supplierCopy gk p).bind fun cb =>
    s.supplyError g (some cb) (s.newerBlocks g p.2 cb)

/-- A write-back that met an error of storage: a late fault of its operation. Nothing goes home; for an unbinding the
copy is lost (DESIGN CHOICE, notes/assumptions/23.md). -/
def State.writeBackFailed (s : State) (gk core num : Nat) (seq : BitVec 16) (unbind : Bool) (t : Trap) : State :=
  let u := if unbind then (s.modGuard gk (·.lossStep)).uncount gk core num else s.gCount gk
  u.atThread core (·.lateFault seq t.1 t.2)

/-- WRITE_BACK: a flush waits until the supplier holds the guard in neither mode; an unbinding copy has first served
what was forwarded to it (R253, R254). -/
def execWriteBack (i : Nat) (s : State) : Out :=
  match s.gmsgs[i]? with
  | some (.writeBack gk core num seq unbind) =>
    if !s.guardWay (.writeBack gk core num seq unbind) then .next s
    else match s.guard gk with
    | none => .next ((s.gtake i).guardEnd core num seq gUnbound false false)
    | some g =>
      let held := g.lastX.any fun p => g.holders.contains p
      if (if unbind then s.owesForward core num else held) then .next s
      else match s.writeBackError gk with
      | some t => .next ((s.gtake i).writeBackFailed gk core num seq unbind t)
      | none =>
        if unbind then
          .next ((((s.gtake i).unbindHome gk core num).uncount gk core num).guardEnd core num seq gOk false false)
        else .next ((((s.gtake i).gWriteBack gk).gCount gk).guardEnd core num seq gOk false false)
  | _ => .next s

end Sys2Proof.Machine
end

