-- ==== Sys2Proof/Machine/Copy.lean ====
section
/-!
DEFINITION. Sys2Proof/Machine/Copy.lean: copy requests, their checks at dispatch, and the COPY and LSTR instructions
(R283 to R286, R291, R293, R294, R336 to R340, R352, R353).
-/

namespace Sys2Proof.Machine

/-! ## The fields of a request (R283) -/

/-- Bits `lo` to `lo + n - 1` of a word. -/
def fld (x : Word) (lo n : Nat) : Nat := x.toNat / 2 ^ lo % 2 ^ n

/-- SKIND. -/
def CopyOp.skind (r : CopyOp) : Nat := fld r.w0 61 3
/-- SRC. -/
def CopyOp.src (r : CopyOp) : Nat := fld r.w0 0 61
/-- DKIND. -/
def CopyOp.dkind (r : CopyOp) : Nat := fld r.w1 61 3
/-- DST. -/
def CopyOp.dst (r : CopyOp) : Nat := fld r.w1 0 61
/-- SSIDE. -/
def CopyOp.sside (r : CopyOp) : Nat := fld r.w2 63 1
/-- STRIDE in bytes. -/
def CopyOp.stride (r : CopyOp) : Nat := 64 * fld r.w2 48 15
/-- ROWB in bytes. -/
def CopyOp.rowb (r : CopyOp) : Nat := 64 * fld r.w2 32 16
/-- LEN in bytes. -/
def CopyOp.len (r : CopyOp) : Nat := if fld r.w2 0 32 = 0 then 2 ^ 32 else fld r.w2 0 32
/-- TRIG. -/
def CopyOp.trigBit (r : CopyOp) : Bool := bitOf r.w3 48
/-- CVAL. -/
def CopyOp.cval (r : CopyOp) : Nat := fld r.w3 32 16
/-- DIST. -/
def CopyOp.dist (r : CopyOp) : Bool := bitOf r.w3 31
/-- CONV. -/
def CopyOp.conv (r : CopyOp) : Nat := fld r.w3 27 4
/-- RED. -/
def CopyOp.red (r : CopyOp) : Nat := fld r.w3 24 3
/-- MBX. -/
def CopyOp.mbx (r : CopyOp) : Bool := bitOf r.w3 23
/-- CWD. -/
def CopyOp.cwd (r : CopyOp) : Bool := bitOf r.w3 22
/-- CWE. -/
def CopyOp.cwe (r : CopyOp) : Bool := bitOf r.w3 21
/-- CWADDR. -/
def CopyOp.cwaddr (r : CopyOp) : Nat := fld r.w3 0 21

/-- Is the request dealt: DIST, or an `ldeal` (R294, R352)? -/
def CopyOp.isDealt (r : CopyOp) : Bool := r.dist

/-- The source and destination bytes of a super-block under CONV (R288); 1 and 1 without one. -/
def convSizes (conv : Nat) : Nat × Nat :=
  match conv with
  | 1 => (1600, 4096)
  | 2 => (1600, 4096)
  | 3 => (1088, 4096)
  | 4 => (2112, 4096)
  | 5 => (2112, 4096)
  | 6 => (4096, 2112)
  | 7 => (4096, 2112)
  | _ => (1, 1)

/-- Bytes of the destination stream (R288). -/
def CopyOp.dlen (r : CopyOp) : Nat := r.len / (convSizes r.conv).1 * (convSizes r.conv).2

/-- Bytes of the reduce element (R287). -/
def redSize (red : Nat) : Nat :=
  match red with
  | 2 => 2
  | 3 => 8
  | _ => 4

/-- The span in bytes from the first to the last byte of a side of `n` bytes (R284, R286). -/
def CopyOp.extent (r : CopyOp) (dst : Bool) (n : Nat) : Nat :=
  if r.rowb ≠ 0 ∧ (r.sside = 1) = dst then r.stride * (n / r.rowb - 1) + r.rowb else n

/-- The rows of a side: stream offset, address and length of each (R284). -/
def CopyOp.rows (r : CopyOp) (dst : Bool) (a n : Nat) : List (Nat × Nat × Nat) :=
  if r.rowb ≠ 0 ∧ (r.sside = 1) = dst then
    (List.range (n / r.rowb)).map fun i => (r.rowb * i, a + r.stride * i, r.rowb)
  else [(0, a, n)]

/-- The local address of a side. -/
def localOf (x : Nat) : Nat := x % 2 ^ 21

/-- The core address of a remote local side. -/
def remoteOf (x : Nat) : Nat := x / 2 ^ 21 % 2 ^ 23

/-! ## Dealing (R293, R294) -/

/-- Block size in bytes. -/
def dealBlock (d : BitVec 24) : Nat := 64 * (d.toNat % 256)
/-- CSTRIDE. -/
def dealStride (d : BitVec 24) : Nat := d.toNat / 256 % 256
/-- CYCLE. -/
def dealCycle (d : BitVec 24) : Nat := if d.toNat / 65536 = 0 then 256 else d.toNat / 65536

/-- The blocks of a dealt stream of `n` bytes: stream offset, group index, local address and length. With CSTRIDE = 0
every block follows the one before it, whatever CYCLE holds (R294, last sentence; DEDUCED, notes/assumptions/16.md). -/
def dealBlocks (d : BitVec 24) (base j0 n : Nat) : List (Nat × Nat × Nat × Nat) :=
  let k := dealBlock d
  let row := fun (b : Nat) => if dealStride d = 0 then b else b / dealCycle d
  if k = 0 then []
  else (List.range ((n + k - 1) / k)).map fun b =>
    (b * k, j0 + b % dealCycle d * dealStride d, base + row b * k, min k (n - b * k))

/-- Cores in the group of a thread (R170). -/
def LaunchInfo.groupSize (i : LaunchInfo) : Nat := i.grows * i.gcols

/-- The core with a group index in the group of a core (R170). -/
def Core.groupCore (c : Core) (j : Nat) : Nat :=
  tileAddr (pkgOf c.addr.toNat) (dieOf c.addr.toNat) (c.info.row0 + j / c.info.gcols) (c.info.col0 + j % c.info.gcols)

/-- The bounding span of the blocks that fall to an index, if any (R285). -/
def dealtSpan (l : List (Nat × Nat × Nat × Nat)) (j : Nat) : Option Span :=
  match l.filter fun x => x.2.1 == j with
  | [] => none
  | x :: xs =>
    let lo := xs.foldl (fun a y => min a y.2.2.1) x.2.2.1
    let hi := xs.foldl (fun a y => max a (y.2.2.1 + y.2.2.2)) (x.2.2.1 + x.2.2.2)
    some { lo := lo, len := hi - lo }

/-! ## The checks at dispatch (R285, R352) -/

/-- The bits that the layout of a kind leaves unused are zero (R283); `dealt` keeps J0. -/
def sideOk (kind x : Nat) (dealt : Bool) : Bool :=
  match kind with
  | 0 => x / 2 ^ 60 == 0
  | 4 => x / 2 ^ 60 == 0
  | 1 => x / 2 ^ 21 == 0 || (dealt && x / 2 ^ 40 == 0 && x / 2 ^ 21 % 2 ^ 11 == 0)
  | 2 => x / 2 ^ 44 == 0
  | 3 => x == 0
  | _ => x / 2 ^ 53 == 0 && x / 2 ^ 23 % 2 ^ 9 == 0

/-- Reason 1 of R285: a reserved field or code, or an unused field, is not zero. -/
def CopyOp.reserved (r : CopyOp) : Bool :=
  [3, 5, 6, 7].contains r.skind || [4, 6, 7].contains r.dkind || fld r.w3 49 15 != 0 || r.red == 7 ||
    decide (7 < r.conv) || (r.rowb == 0 && (r.stride != 0 || r.sside != 0)) || (r.cwd && r.dkind != 2) ||
    (!r.cwe && (r.cwd || r.cwaddr != 0 || (!r.mbx && r.cval != 0))) ||
    !sideOk r.skind r.src false || !sideOk r.dkind r.dst (r.dist && r.dkind == 1)

/-- The restrictions of R352 on the LSTR forms. -/
def CopyOp.outsideForm (r : CopyOp) : Bool :=
  match r.form with
  | .cpy => false
  | .ldtile => r.skind != 0 || r.dkind != 2 || decide (5 < r.conv) || r.red != 0 || r.trigBit || r.dist
  | .sttile => r.skind != 2 || r.dkind != 0 || !([0, 6, 7].contains r.conv) || r.red != 0 || r.trigBit || r.dist
  | .ldeal => r.skind != 0 || r.dkind != 2 || decide (5 < r.conv) || r.red != 0 || r.trigBit || !r.dist

/-- The reason with which R285 refuses a request. A zero BLOCK refuses an `ldeal` too (notes/assumptions/26.md). -/
def State.copyReason (s : State) (r : CopyOp) : Option Nat :=
  let c := s.core.addr.toNat
  let e := redSize r.red
  let deal := s.core.ctl.deal
  let j0 := fld r.w1 32 8
  let mem := fun (kind x : Nat) => kind == 2 && isMemCore (remoteOf x)
  if r.reserved || r.outsideForm then some 1
  else if r.rowb ≠ 0 ∧ (r.len % r.rowb ≠ 0 ∨ (r.sside = 1 ∧ r.stride < r.rowb)) then some 2
  else if r.conv ≠ 0 ∧ (r.rowb ≠ 0 ∨ r.len % (convSizes r.conv).1 ≠ 0) then some 3
  else if r.red ≠ 0 ∧ s.core.ctl.status.preempt then some 4
  else if r.red ≠ 0 ∧ (r.conv ≠ 0 ∨ r.dist ∨ r.trigBit ∨ r.dkind = 3 ∨ r.dkind = 5 ∨ r.len % e ≠ 0 ∨
      r.src % e ≠ 0 ∨ r.dst % e ≠ 0) then some 5
  else if r.dist ∧ r.form = .cpy ∧ (r.dkind ≠ 1 ∨ dealBlock deal = 0 ∨ r.len % 64 ≠ 0 ∨
      s.core.info.groupSize ≤ j0 + (dealCycle deal - 1) * dealStride deal) then some 6
  else if r.form = .ldeal ∧ dealBlock deal = 0 then some 6
  else if ((mem r.skind r.src || mem r.dkind r.dst) && !s.priv) || (r.dkind == 3 && isMemCore c) then some 7
  else if r.dkind = 5 ∧ (r.red ≠ 0 ∨ r.conv ≠ 0 ∨ r.dist ∨ fld r.w1 32 21 % 4 ≠ 0 ∨ 0x17C000 ≤ fld r.w1 32 21 ∨
      !isChannelCore (r.dst % 2 ^ 23) ∨ pkgOf (r.dst % 2 ^ 23) ≠ pkgOf c ∨ !s.coreExists (r.dst % 2 ^ 23)) then some 8
  else none

/-- `LocalCheck` without its range-lock test, under the mode and LSLIM of the core in focus (R333). -/
def State.engineCheck (s : State) (a n u : Nat) : Option Trap := spanCheck s.priv s.core.ctl.lslim a n u

/-- The own-local span of the destination under a DEAL, if there is one (R285). -/
def State.ownDst (s : State) (deal : BitVec 24) (r : CopyOp) : Option Span :=
  if r.dkind ≠ 1 then none
  else if r.dist then
    dealtSpan (dealBlocks deal (localOf r.dst) (fld r.w1 32 8) r.dlen) s.core.info.index
  else some { lo := localOf r.dst, len := r.extent true r.dlen }

/-- LOCAL_BOUNDS of a remote span that does not end at or below the bay (R285). -/
def remoteCheck (remote : Bool) (a n : Nat) : Option Trap :=
  if remote ∧ 0x17C000 < a + n then some (Cause.localBounds, a) else none

/-- The checks of R285 in order. -/
def State.copyCheck (s : State) (r : CopyOp) : Option Trap :=
  match s.copyReason r with
  | some n => some (Cause.copyReq, n)
  | none =>
    let src := localOf r.src
    let dst := localOf r.dst
    let c1 := if r.skind = 1 then s.engineCheck src (r.extent false r.len) 1 else none
    let c2 := match s.ownDst s.core.ctl.deal r with
      | some x => s.engineCheck x.lo x.len 1
      | none => none
    let c3 := if r.cwe ∧ !r.cwd then s.engineCheck r.cwaddr 8 8 else none
    let c4 := remoteCheck (r.skind == 2) src (r.extent false r.len)
    let c5 := remoteCheck (r.dkind == 2 && !r.isDealt) dst (r.extent true r.dlen)
    let c6 := remoteCheck r.cwd r.cwaddr 8
    c1.or (c2.or (c3.or (c4.or (c5.or c6))))

/-! ## Spans and counts (R286, R409) -/

/-- Does a remote local side name the issuer's own store? -/
def State.namesSelf (s : State) (kind x : Nat) : Bool := kind == 2 && remoteOf x == s.core.addr.toNat

/-- The spans of a request under a DEAL, those of a remote side that names the own store among them (R242, R286). -/
def State.copySpans (s : State) (deal : BitVec 24) (r : CopyOp) : OpSpans :=
  let near := r.skind == 1 || s.namesSelf r.skind r.src
  let src : List Span := [{ lo := if near then localOf r.src else r.src % 2 ^ 60, len := r.extent false r.len }]
  let own := match s.ownDst deal r with
    | some x => [x]
    | none => if s.namesSelf r.dkind r.dst && !r.isDealt then [{ lo := localOf r.dst, len := r.extent true r.dlen }] else []
  { OpSpans.none with
    lread := if near then src else []
    oread := if r.skind = 0 ∨ r.skind = 4 then src else []
    lwrite := own ++ if r.cwe ∧ (!r.cwd ∨ s.namesSelf r.dkind r.dst) then [{ lo := r.cwaddr, len := 8 }] else []
    owrite := if r.dkind = 0 then [{ lo := r.dst % 2 ^ 60, len := r.extent true r.dlen }] else [] }

/-- Aligned 64-byte blocks that a span touches. -/
def blockCount (a n : Nat) : Nat := (blocksOf a n).length

/-- The thread whose store a remote local side names (R292, R369): a memory core, or the thread of the issuer's PID that
runs or is saved there. -/
def State.storeOwner (s : State) (pid : BitVec 16) (c : Nat) : Option Nat :=
  if isMemCore c then if s.coreExists c && isChannelCore c then some (s.getCore c).thread else none
  else
    let k := s.getCore c
    if s.coreExists c && k.alive && k.ctl.pid == pid then some k.thread
    else ((s.saved.map (·.2)).find? fun (q : Core) => q.addr.toNat == c && q.ctl.pid == pid).map Core.thread

/-- The thread that runs group index `j` of the group that a core's thread belongs to (R294). -/
def Core.groupThread (c : Core) (j : Nat) : Nat :=
  if c.info.groupSize ≤ j then 0 else c.info.num * 2 ^ 23 + c.groupCore j

/-- The core whose group a dealt request is dealt over, with J0 (R294, R352). -/
def State.dealGroup (s : State) (r : CopyOp) : Option (Core × Nat) :=
  if r.form = .ldeal then
    ((s.storeOwner s.core.ctl.pid (remoteOf r.dst)).bind s.getThread).map fun c => (c, c.info.index)
  else some (s.core, fld r.w1 32 8)

/-- The writes of dealt blocks outside the own store, block by block (R352, R409). -/
def State.dealWrites (s : State) (deal : BitVec 24) (r : CopyOp) : Nat :=
  match s.dealGroup r with
  | some (c, j0) => (((dealBlocks deal (localOf r.dst) j0 r.dlen).filter
      fun x => c.groupThread x.2.1 != s.core.thread).map fun x => blockCount x.2.2.1 x.2.2.2).sum
  | none => ((dealBlocks deal (localOf r.dst) 0 r.dlen).map fun x => blockCount x.2.2.1 x.2.2.2).sum

/-- The writes that a request counts: the aligned 64-byte blocks of its destination outside its own store (R239,
R409). -/
def State.copyWrites (s : State) (deal : BitVec 24) (r : CopyOp) : Nat :=
  if r.isDealt then s.dealWrites deal r
  else match r.dkind with
  | 0 => ((r.rows true (r.dst % 2 ^ 60) r.dlen).map fun x => blockCount x.2.1 x.2.2).sum
  | 2 => if remoteOf r.dst = s.core.addr.toNat then 0
    else ((r.rows true (localOf r.dst) r.dlen).map fun x => blockCount x.2.1 x.2.2).sum
  | _ => 0

/-- Where the first byte of a destination lies: its DPA, if an entry of the core's table or station gives one. The
counter of a copy is that of this byte (notes/assumptions/27.md). -/
def State.firstDpa (s : State) (r : CopyOp) : Nat :=
  let va := r.dst % 2 ^ 60
  let home := pkgOf s.core.addr.toNat * 2 ^ 41
  match r.dkind with
  | 0 => (s.entryFor va).elim home (·.pa va)
  | 2 => pkgOf (remoteOf r.dst) * 2 ^ 41
  | _ => home

/-- The writes of a run of virtual addresses, range by range, with the package of each; bytes that no entry translates
count for the own package (notes/assumptions/27.md). The fuel bounds the ranges met. -/
def State.runWrites (s : State) (va n : Nat) : Nat → List (Nat × Nat)
  | 0 => []
  | fuel + 1 =>
    if n = 0 then []
    else match s.entryFor va with
    | none => [(pkgOf s.core.addr.toNat, blockCount va n)]
    | some e =>
      let m := min n (e.limit.toNat - va)
      (dpaPkg (e.pa va), blockCount va m) :: s.runWrites (va + m) (n - m) fuel

/-- How many writes of a request go to each package (R240, R263). -/
def State.copyPkgs (s : State) (r : CopyOp) (total : Nat) : List (Nat × Nat) :=
  if r.dkind = 0 then (r.rows true (r.dst % 2 ^ 60) r.dlen).flatMap fun x => s.runWrites x.2.1 x.2.2 (x.2.2 / 64 + 2)
  else [(dpaPkg (s.firstDpa r), total)]

/-- Writes issued to several packages are counted (R263). -/
def Paths.addPkgs (p : Paths) (l : List (Nat × Nat)) : Paths := l.foldl (fun q x => q.addPkg x.1 x.2) p

/-- The request with its counts under a DEAL, and the state with them counted and the path chosen (R286, R409). -/
def State.countCopy (s : State) (deal : BitVec 24) (r : CopyOp) : CopyOp × State :=
  let n := s.copyWrites deal r
  if n = 0 then ({ r with pkg := pkgOf s.core.addr.toNat }, s)
  else
    let pa := s.firstDpa r
    let ps := s.copyPkgs r n
    let (i, t) := s.counterOf s.core.addr.toNat pa
    ({ r with path := i, pkg := dpaPkg pa, pkgs := ps, counted := n }, t.modPaths fun p => (p.addCnt i n).addPkgs ps)

/-! ## Dispatch (R336, R352) -/

/-- The request words in four registers from `a` up. A request dispatched while the port is stopped, before the fault
that stopped it is taken, waits for the port to reopen (R313). -/
def State.copyRequest (s : State) (form : CopyForm) (a : BitVec 3) : CopyOp :=
  let g := fun (i : Nat) => s.g (BitVec.ofNat 5 (4 * a.toNat + i))
  let w3 := g 3
  let held := s.core.mtx.portStopped && match s.core.mtx.portFault with
    | some q => (s.core.entry q).seq == q && ((s.core.entry q).untaken || (s.core.entry q).state == .pending)
    | none => false
  { form := form, w0 := g 0, w1 := g 1, w2 := g 2, w3 := w3, trig := if bitOf w3 48 then .waiting else .free,
    path := 0, pkg := 0, pkgs := [], counted := 0, moved := false, fed := 0, portHeld := held,
    bad := none }

/-- Copies of the core that hold a slot: dispatched and not started (R291). -/
def Core.copySlots (c : Core) (lstr : Bool) : Nat :=
  (c.ops.filter fun (o : Op) => match o.body with
    | .copy r => !o.started && (r.form != .cpy) == lstr
    | _ => false).length

/-- A copy counted and dispatched, its sequence number written to `d`. -/
def State.copyDispatch (s : State) (major sub : Nat) (d : BitVec 5) (r : CopyOp) : State :=
  let (r1, t) := s.countCopy s.core.ctl.deal r
  t.dispatchTo major sub d (s.copySpans s.core.ctl.deal r) (.copy r1)

/-- `cpy` and `cpy.w` (R336). -/
def State.cpy (s : State) (wait : Bool) (d : BitVec 5) (a : BitVec 3) (b : BitVec 5) : Out :=
  let r := s.copyRequest .cpy a
  let sub := if wait then 1 else 0
  let word := mkWord 0x33 d (a ++ (0 : BitVec 2)) b (BitVec.ofNat 11 (64 * sub))
  let team := if r.dkind = 1 ∨ r.dkind = 3 then none else s.teamCheck word
  let chk := (s.copyCheck r).or team
  if chk.isNone ∧ !wait ∧ 16 ≤ s.core.copySlots false then .next (s.setG d 1).adv
  else s.dispatched chk (decide (16 ≤ s.core.copySlots false)) ((s.copyDispatch 0x33 sub b r).setG d 0)

/-- `cpy`. -/
def execCpy (d : BitVec 5) (a : BitVec 3) (b : BitVec 5) (s : State) : Out := s.cpy false d a b
/-- `cpy.w`. -/
def execCpyW (d : BitVec 5) (a : BitVec 3) (b : BitVec 5) (s : State) : Out := s.cpy true d a b

/-- An LSTR copy form (R352): 4 loader places. -/
def State.lstr (s : State) (form : CopyForm) (sub : Nat) (d : BitVec 5) (a : BitVec 3) : Out :=
  let r := s.copyRequest form a
  s.dispatched (s.copyCheck r) (decide (4 ≤ s.core.copySlots true)) (s.copyDispatch 0x38 sub d r)

/-- `ldtile`. -/
def execLdtile (d : BitVec 5) (a : BitVec 3) (s : State) : Out := s.lstr .ldtile 0 d a
/-- `sttile`. -/
def execSttile (d : BitVec 5) (a : BitVec 3) (s : State) : Out := s.lstr .sttile 1 d a
/-- `ldeal`. -/
def execLdeal (d : BitVec 5) (a : BitVec 3) (s : State) : Out := s.lstr .ldeal 2 d a

/-- Pending LSTR operations (R353). -/
def Core.lstrPending (c : Core) : Nat :=
  (c.ops.filter fun (o : Op) => match o.body with
    | .copy r => r.form != .cpy
    | _ => false).length

/-- `lswait` (R353). -/
def execLswait (d a : BitVec 5) (s : State) : Out :=
  let n := s.core.lstrPending
  if (s.g a).toNat < n then .next (s.waiting .other) else .next (s.setG d (BitVec.ofNat 64 n)).adv

/-! ## The pipeline forms (R337 to R340) -/

/-- Is the copy waiting for a trigger (R337)? -/
def Op.awaitsTrigger (o : Op) : Bool :=
  match o.body with
  | .copy r => r.trig == .waiting || r.trig == .armed
  | _ => false

/-- The snapshot of `cpyst` (R337). -/
def Core.copyStatus (c : Core) : Word :=
  let outw := min 0xFFFF (c.paths.cnt.toList.map BitVec.toNat).sum
  BitVec.ofNat 64 ((c.ops.filter Op.awaitsTrigger).length * 2 ^ 32 + outw * 2 ^ 16 + c.mail.length * 2 ^ 8 +
    (16 - c.copySlots false))

/-- `cpyst`. -/
def execCpyst (d : BitVec 5) (s : State) : Out := .next (s.setG d s.core.copyStatus).adv

/-- `deal` (R338). -/
def execDeal (d a : BitVec 5) (s : State) : Out :=
  let x := s.g a
  s.checked (if x.toNat / 2 ^ 24 ≠ 0 then some (Cause.bounds, x.toNat) else none)
    ((s.on (·.modCtl fun k => { k with deal := x.setWidth 24 })).setG d (s.core.ctl.deal.setWidth 64)).adv

/-- `waitw` (R339): `LocalCheck` without its range-lock test; its return acquires (R289). -/
def execWaitw (a b : BitVec 5) (s : State) : Out :=
  let x := (s.g a).toNat
  let poison := if s.poisonHit (s.core.localKey x) 8 then some (Cause.uncorr, x) else none
  s.checked ((s.engineCheck x 8 8).or poison)
    (if BitVec.ofNat 64 (s.localRead x 8) = s.g b then (s.heard x 8).adv else s.waiting .other)

/-- `waitw.seq` (R339). -/
def execWaitwSeq (d b : BitVec 5) (s : State) : Out :=
  let x := s.g b
  let q : BitVec 16 := x.setWidth 16
  let e := s.core.entry q
  let here := e.seq = q ∧ e.state ≠ .empty
  s.checked (if x.toNat / 2 ^ 16 ≠ 0 then some (Cause.bounds, x.toNat) else none)
    (if here ∧ e.state = .pending then s.waiting .other
    else (s.setG d (if here then BitVec.ofNat 64 e.state.code else 0)).adv)

/-- `waitm` (R340). -/
def execWaitm (d : BitVec 5) (s : State) : Out :=
  if s.core.mail.isEmpty then .next (s.waiting .other) else .next (s.setG d (BitVec.ofNat 64 s.core.mail.length)).adv

/-- `mbxrd` (R340). -/
def execMbxrd (d a : BitVec 5) (s : State) : Out :=
  let x := (s.g a).toNat
  s.checked (s.localCheck x 16 .store) (match s.core.mail with
    | [] => (s.setG d 0).adv
    | r :: rs => (((s.localWrite x 16 r.toNat).on fun c => { c with mail := rs }).setG d
        (BitVec.ofNat 64 (rs.length + 1))).adv)

end Sys2Proof.Machine
end

