-- ==== Sys2Proof/Machine/CopyRun.lean ====
section
/-!
DEFINITION. Sys2Proof/Machine/CopyRun.lean: how copies run: conversion and reduction, translation of both sides, the
start, completion and fault of a request, the mailbox, and squashing (R284, R287 to R295, R313). The bytes of a copy
move when it completes, those of a stream-port copy as room comes (notes/assumptions/11.md).
-/

namespace Sys2Proof.Machine

/-! ## Conversion and reduction (R287, R288) -/

/-- The narrow format of a conversion. -/
def convFmt (conv : Nat) (topx : Bool) : Fmt :=
  match conv with
  | 1 => fmtOf 6 topx
  | 2 => fmtOf 7 topx
  | 3 => fmtOf 8 topx
  | 4 => fmtOf 4 topx
  | 6 => fmtOf 4 topx
  | _ => fmtOf 5 topx

/-- List `xs` in pieces of `n`. -/
def chunks {α : Type} (n : Nat) (xs : List α) : List (List α) :=
  if n = 0 then [] else (List.range (xs.length / n)).map fun i => (xs.drop (i * n)).take n

/-- A super-block expanded to BF16 (R288): the product of code and scale, rounded with RNE. -/
def expandBlock (f : Fmt) (xs : List Byte) (r : Rnd) : List Byte × Rnd :=
  let l := 4 * f.width
  (List.range 64).foldl (fun (acc : List Byte × Rnd) i =>
    let codes := leNat ((xs.drop (i * l)).take l)
    let scale := (xs.getD (64 * l + i) 0).toNat
    (List.range 32).foldl (fun (acc : List Byte × Rnd) j =>
      let (c, r1) := acc.2.round bf16 rmRNE (mxDecode f (codeAt codes f.width j) scale).exact
      (acc.1 ++ natLe 2 c, r1)) acc) ([], r)

/-- A BF16 super-block compressed (R288): each block by `MXScale` with RNE. -/
def compressBlock (f : Fmt) (xs : List Byte) (r : Rnd) : List Byte × Rnd :=
  let (cs, ss, r2) := (chunks 64 xs).foldl (fun (acc : List Byte × List Byte × Rnd) b =>
    let vs := (chunks 2 b).map fun e => bf16.decode (leNat e)
    let (sc, qs, r1) := mxScale f rmRNE vs acc.2.2
    (acc.1 ++ qs.map (BitVec.ofNat 8 ·), acc.2.1 ++ [BitVec.ofNat 8 sc], r1)) ([], [], r)
  (cs ++ ss, r2)

/-- The destination stream of source bytes, with the flags raised. -/
def convert (conv : Nat) (topx : Bool) (xs : List Byte) : List Byte × BitVec 6 :=
  if conv = 0 then (xs, 0)
  else
    let f := convFmt conv topx
    let (ys, r) := (chunks (convSizes conv).1 xs).foldl (fun (acc : List Byte × Rnd) b =>
      let (y, r1) := if conv < 6 then expandBlock f b acc.2 else compressBlock f b acc.2
      (acc.1 ++ y, r1)) ([], { seed := 0, flags := 0 })
    (ys, r.flags)

/-- The new value of a reduced element and its flags (R287). -/
def reduceElem (red old src : Nat) : Nat × BitVec 6 :=
  let add := fun (f : Fmt) =>
    let e := sumX [f.decode old, f.decode src] rmRNE
    let (c, fl) := f.round rmRNE 0 e.1
    (c, e.2 ||| fl)
  match red with
  | 1 => add fp32
  | 2 => add bf16
  | 3 => add fp64
  | 4 => ((old + src) % 2 ^ 32, 0)
  | 5 => pickMinMax fp32 false old src
  | _ => pickMinMax fp32 true old src

/-- Bytes combined element by element with what stands at the destination. -/
def reduceBytes (red : Nat) (old src : List Byte) : List Byte × BitVec 6 :=
  if red = 0 then (src, 0)
  else
    let n := redSize red
    ((chunks n old).zip (chunks n src)).foldl (fun (acc : List Byte × BitVec 6) x =>
      let (c, fl) := reduceElem red (leNat x.1) (leNat x.2)
      (acc.1 ++ natLe n c, acc.2 ||| fl)) ([], 0)

/-! ## Where bytes lie -/

/-- A place that bytes are moved to or from: a thread's local store, off-core memory, or the stream port. -/
inductive Where where
  | store (k a : Nat)
  | off (pa : Nat) (place : BitVec 2)
  | port
deriving DecidableEq, Repr

/-- A run of the stream: its offset, its length, its place, and the BASE of the range entry that translated it. -/
structure Piece where
  off : Nat
  n : Nat
  at_ : Where
  base : Option Nat
deriving DecidableEq, Repr

/-- How a side resolves: waiting for a translation, with the state in which it waits, or the pieces up to the first
failure. -/
inductive SideRes where
  | wait (s : State)
  | ok (ps : List Piece) (bad : Option (Nat × Trap)) (s : State)
deriving DecidableEq, Repr

/-- How a side of a copy is read or written: the range entries it holds in use, its kind of access, whether it reduces,
and the source offset and reason of a read that has failed. -/
structure SideCtx where
  held : List Nat
  kind : AccKind
  red : Bool
  bad : Option (Nat × BitVec 4)
deriving DecidableEq, Repr

/-- The length of the run at a DPA, of at most `n` bytes, whose 256-byte granules a core all reaches or all fails to reach
(R219, R379, R385). -/
def State.sameReach (s : State) (pa : Nat) (place : BitVec 2) (n : Nat) : Nat :=
  let r := fun (a : Nat) => s.reachesAt s.core.addr.toNat a place
  let whole := (List.range 16).all fun k =>
    s.reachesStack s.core.addr.toNat (dpaPkg pa) k || !(s.getPkg (dpaPkg pa)).hasStack k
  if place = 0 ∨ whole then n
  else (((List.range ((pa % 256 + n - 1) / 256)).map fun i => 256 * (i + 1) - pa % 256).find?
    fun o => r (pa + o) != r pa).getD n

/-- What keeps a copy from touching bytes at a DPA (R260, R292, R401): unreachable or closed places, and for a read, as a
reduction makes of its destination too, an error of storage (R379). The answer is the failing offset and its cause. -/
def State.placeFault (s : State) (va pa : Nat) (place : BitVec 2) (n : Nat) (write red : Bool) : Option (Nat × Trap) :=
  let no := fun (reason : Nat) => some (0, memoryTrap (BitVec.ofNat 64 va) reason)
  let closed := match targetOf pa with
    | .command _ => true
    | .queue _ => !write
    | .reserved => true
    | .scaleOut i _ => !write && ((s.getPkg (dpaPkg pa)).soSlot i).isNone
    | _ => false
  if closed then no 3
  else if write && !(red && s.reachesAt s.core.addr.toNat pa place) then none
  else if !s.reachesAt s.core.addr.toNat pa place then no 1
  else match s.offKey pa place with
  | some k => (s.poisonAt k n).map fun o => (o, memoryTrap (BitVec.ofNat 64 (va + o)) 0)
  | none => none

/-- May a read at a DPA end with a reason that its target reports: of host memory 2 and 3 (R400), of a scale-out endpoint
also 1 (R415)? -/
def targetReports (pa : Nat) (reason : BitVec 4) : Bool :=
  match targetOf pa with
  | .host _ => reason == 2 || reason == 3
  | .scaleOut _ _ => reason == 1 || reason == 2 || reason == 3
  | _ => false

/-- The failure that the target of a run of `n` source bytes from `off` up has reported, if it has. -/
def SideCtx.reported (c : SideCtx) (va pa n off : Nat) : Option (Nat × Trap) :=
  c.bad.bind fun x =>
    if off ≤ x.1 ∧ x.1 < off + n ∧ targetReports pa x.2 then
      some (x.1 - off, memoryTrap (BitVec.ofNat 64 (va + (x.1 - off))) x.2.toNat)
    else none

/-- The earlier of two failures. -/
def firstFault (a b : Option (Nat × Trap)) : Option (Nat × Trap) :=
  match a, b with
  | some x, some y => some (if x.1 ≤ y.1 then x else y)
  | some x, none => some x
  | none, y => y

/-- The pieces of a run of virtual addresses, range by range in increasing order (R292); a reduction needs a kind that
admits it (R287). The fuel bounds the runs met. -/
def State.xlatRun (s : State) (c : SideCtx) (va n off : Nat) : Nat → SideRes
  | 0 => .ok [] none s
  | fuel + 1 =>
    if n = 0 then .ok [] none s
    else match s.engineXlat c.held (BitVec.ofNat 64 va) c.kind 1 with
    | .wait s1 => .wait s1
    | .fault t s1 => .ok [] (some (off, t)) s1
    | .ok x s1 =>
      match s1.core.engineFind c.held va with
      | none => .wait s1
      | some e =>
        let write := c.kind == .engineWrite
        let room := min (e.entry.limit.toNat - va) (windowEnd (dpaLocal x.pa) - dpaLocal x.pa)
        let m := s1.sameReach x.pa x.place (min n room)
        if c.red ∧ x.kind ≠ kindPrivate ∧ x.kind ≠ kindSync then .ok [] (some (off, rangeFault 5 va)) s1
        else
          let gap := (e.entry.missingPart va m).map fun j =>
            let b := e.entry.base.toNat + j * e.entry.cut
            (b - va, ((Cause.residency, b) : Trap))
          let stop := firstFault gap (firstFault (s1.placeFault va x.pa x.place m write c.red) (c.reported va x.pa m off))
          let piece := fun (l : Nat) => if l = 0 then [] else
            [({ off := off, n := l, at_ := .off x.pa x.place, base := some x.base } : Piece)]
          match stop with
          | some (o, t) => .ok (piece o) (some (off + o, t)) s1
          | none =>
            if m = n then .ok (piece m) none s1
            else match s1.xlatRun c (va + m) (n - m) (off + m) fuel with
            | .wait s2 => .wait s2
            | .ok ps bad s2 => .ok (piece m ++ ps) bad s2

/-- The pieces of the rows of a side that is a virtual address. -/
def State.xlatRows (s : State) (c : SideCtx) : List (Nat × Nat × Nat) → SideRes
  | [] => .ok [] none s
  | (off, va, n) :: r =>
    match s.xlatRun c va n off (n / 64 + 2) with
    | .wait s1 => .wait s1
    | .ok ps (some b) s1 => .ok ps (some b) s1
    | .ok ps none s1 =>
      match s1.xlatRows c r with
      | .wait s2 => .wait s2
      | .ok qs bad s2 => .ok (ps ++ qs) bad s2

/-- Can the core in focus reach the store of a thread (R379, R385)? -/
def State.storeReach (s : State) (t : Nat) : Bool := s.coresReach s.core.addr.toNat (threadCore t)

/-- The first error of storage under pieces that lie in threads' stores and that the core in focus reaches (R379). -/
def State.storeError (s : State) (ps : List Piece) : Option (Nat × Trap) :=
  ps.findSome? fun (p : Piece) => match p.at_ with
    | .store t a =>
      if s.storeReach t then
        (s.getThread t).bind fun c => (s.poisonAt (c.localKey a) p.n).map fun o => (p.off + o, ((Cause.uncorr, a + o) : Trap))
      else none
    | _ => none

/-- The pieces of the rows of a side in a thread's store. A read, and a reduction of its destination, stops at an error of
storage (R379); a read from a core that no live route reaches fails at once, with the local address for a va (DESIGN CHOICE,
notes/assumptions/17.md). -/
def State.storeRows (s : State) (t : Nat) (write red : Bool) (rows : List (Nat × Nat × Nat)) : SideRes :=
  let ps := rows.map fun x => ({ off := x.1, n := x.2.2, at_ := .store t x.2.1, base := none } : Piece)
  let bad := if !write ∧ !s.storeReach t then rows.head?.map fun x => (x.1, memoryTrap (BitVec.ofNat 64 x.2.1) 1)
    else if write ∧ !red then none
    else s.storeError ps
  .ok ps bad s

/-- COPY_REQ with EINFO 16: a remote side names no thread of the issuer's PID, or an index outside its group (R292,
R352). It moves no byte. -/
def noTarget : Trap := (Cause.copyReq, 16)

/-- The pieces of a dealt destination, or the failure that stops it before its first byte (R294, R352). -/
def State.dealSide (s : State) (r : CopyOp) (a : Attach) : SideRes :=
  match s.dealGroup r with
  | none => .ok [] (some (0, noTarget)) s
  | some (c, j0) =>
    let bs := dealBlocks a.deal (localOf r.dst) j0 r.dlen
    match bs.find? fun x => decide (0x17C000 < x.2.2.1 + x.2.2.2) with
    | some x => .ok [] (some (0, (Cause.localBounds, x.2.2.1))) s
    | none =>
      if bs.any fun x => decide (c.info.groupSize ≤ x.2.1) then .ok [] (some (0, noTarget)) s
      else
        let ps := bs.map fun x =>
          ({ off := x.1, n := x.2.2.2, at_ := .store (c.groupThread x.2.1) x.2.2.1, base := none } : Piece)
        .ok ps (if r.red = 0 then none else s.storeError ps) s

/-- The source of an operation that is a request. -/
def State.srcSide (s : State) (o : Op) (r : CopyOp) : SideRes :=
  let c : SideCtx :=
    { held := o.uses, kind := if r.skind = 4 then .codeRead else .engineRead, red := false, bad := r.bad }
  match r.skind with
  | 1 => s.storeRows s.core.thread false false (r.rows false (localOf r.src) r.len)
  | 2 => match s.storeOwner s.core.ctl.pid (remoteOf r.src) with
    | some k => s.storeRows k false false (r.rows false (localOf r.src) r.len)
    | none => .ok [] (some (0, noTarget)) s
  | _ => s.xlatRows c (r.rows false (r.src % 2 ^ 60) r.len)

/-- The destination of an operation that is a request. -/
def State.dstSide (s : State) (o : Op) (r : CopyOp) : SideRes :=
  if r.isDealt then s.dealSide r o.att
  else match r.dkind with
  | 0 => s.xlatRows { held := o.uses, kind := .engineWrite, red := r.red != 0, bad := none }
      (r.rows true (r.dst % 2 ^ 60) r.dlen)
  | 1 => s.storeRows s.core.thread true (r.red != 0) (r.rows true (localOf r.dst) r.dlen)
  | 3 => .ok [{ off := 0, n := r.dlen, at_ := .port, base := none }] none s
  | _ => match s.storeOwner s.core.ctl.pid (remoteOf r.dst) with
    | some k => s.storeRows k true (r.red != 0) (r.rows true (localOf r.dst) r.dlen)
    | none => .ok [] (some (0, noTarget)) s

/-! ## Moving bytes -/

/-- The bytes of a piece as they stand. -/
def State.pieceBytes (s : State) (p : Piece) : List Byte :=
  match p.at_ with
  | .store k a => match s.getThread k with
    | some c => s.mem.bytes (c.localKey a) p.n
    | none => List.replicate p.n 0
  | .off pa place => s.offBytes pa place p.n
  | .port => []

/-- The bytes of a source piece, and the state past the choices of reading them: those of off-core memory as an engine
operation to which `seen` is visible may read them (R237). -/
def State.readPiece (s : State) (seen : List Nat) (p : Piece) : List Byte × State :=
  match p.at_ with
  | .off pa place => match s.offKey pa place with
    | some k => (s.bytesSeen (s.cutAt seen false k p.n) k p.n, s.drewCuts k p.n)
    | none => (List.replicate p.n 0, s)
  | _ => (s.pieceBytes p, s)

/-- The stream of a source. -/
def State.gather (s : State) (seen : List Nat) : List Piece → List Byte × State
  | [] => ([], s)
  | p :: ps =>
    let x := s.readPiece seen p
    let y := x.2.gather seen ps
    (x.1 ++ y.1, y.2)

/-- A copy write to the launch-queue window (R407): a record from one request of LEN 64, else discarded and counted. -/
def Package.copyToQueue (p : Package) (off : Nat) (pid : BitVec 16) (one : Bool) (xs : List Byte) : Package :=
  if one ∧ off % 4096 = 0 ∧ xs.length = 64 then p.recordWrite (off / 4096) false pid (BitVec.ofNat 512 (leNat xs))
  else (blocksOf off xs.length).foldl (fun q b => if b % 64 = 0 then q.dropRecord (b / 64) else q) p

/-- Is the path that a copy of the core in focus chose at its dispatch live, for writes to package `q` (R409)? -/
def State.pathUp (s : State) (r : CopyOp) (q : Nat) : Bool :=
  q == pkgOf s.core.addr.toNat || decide (r.path < 3) ||
    ((s.getPkg (pkgOf s.core.addr.toNat)).livePaths (podOf q)).getLsbD (r.path - 3)

/-- Do a copy's writes at a DPA arrive: their target is reached, on the path chosen at dispatch (R409, R411)? -/
def State.writesReach (s : State) (r : CopyOp) (pa : Nat) (place : BitVec 2) : Bool :=
  s.reachesAt s.core.addr.toNat pa place && s.pathUp r (dpaPkg pa)

/-- Do a copy's writes to the store of a thread arrive (R379, R409)? -/
def State.storeTakes (s : State) (r : CopyOp) (k : Nat) : Bool := s.storeReach k && s.pathUp r (pkgOf (threadCore k))

/-- Does the endpoint of a scale-out slot report a failure for the writes of operation `o` at an offset of its stream? That
is the endpoint's affair, and free (R415). -/
def State.endpointFails (s : State) (o : Op) (pa off : Nat) : Bool :=
  isScaleOut pa && Config.freeBool (2 ^ 90 + ((s.clk * 2 ^ 64 + s.core.thread) * 2 ^ 16 + o.seq.toNat) * 2 ^ 32 + off)

/-- Bytes that an operation of the thread in focus writes to a piece, with the flags of a reduction; in the store of
another thread they are another agent's (R248). -/
def State.putPiece (s : State) (o : Op) (r : CopyOp) (p : Piece) (xs : List Byte) : BitVec 6 × State :=
  let (ys, fl) := reduceBytes r.red (s.pieceBytes { p with n := xs.length }) xs
  match p.at_ with
  | .port => (0, s)
  | .store k a =>
    if k = s.core.thread then (fl, s.localWriteBytes a ys)
    else if s.storeTakes r k then (fl, s.atThread k (·.foreignWrite a ys))
    else (0, s)
  | .off pa place =>
    if !s.writesReach r pa place ∨ s.endpointFails o pa p.off then (0, s)
    else match targetOf pa with
    | .queue off => (0, s.modPkg (dpaPkg pa) (·.copyToQueue off s.core.ctl.pid (r.len == 64 && r.conv == 0) xs))
    | _ => (fl, s.offWriteBytes (s.engineStand o (r.red != 0)) pa place ys)

/-- The stream laid over the pieces of a destination, up to its length, with the flags of a reduction. -/
def State.putAll (s : State) (o : Op) (r : CopyOp) (xs : List Byte) : List Piece → BitVec 6 × State
  | [] => (0, s)
  | p :: ps =>
    let x := s.putPiece o r p ((xs.drop p.off).take p.n)
    let y := x.2.putAll o r xs ps
    (x.1 ||| y.1, y.2)

/-- Does a write to the piece fail at its target (R411, R415)? -/
def State.pieceFails (s : State) (o : Op) (r : CopyOp) (p : Piece) : Bool :=
  match p.at_ with
  | .off pa place => !s.writesReach r pa place || s.endpointFails o pa p.off || match targetOf pa with
    | .scaleOut i _ => ((s.getPkg (dpaPkg pa)).soSlot i).isNone
    | _ => false
  | .store k _ => !s.storeTakes r k
  | .port => false

/-- The writes of the first `k` bytes of a destination that the issuer counts, and how many of them fail. -/
def State.piecesWrites (s : State) (o : Op) (r : CopyOp) (k : Nat) (ps : List Piece) : Nat × Nat :=
  ps.foldl (fun (acc : Nat × Nat) p =>
    let l := min p.n (k - p.off)
    let n := match p.at_ with
      | .store t a => if t = s.core.thread then 0 else blockCount a l
      | .off pa _ => blockCount pa l
      | .port => 0
    (acc.1 + n, acc.2 + if s.pieceFails o r p then n else 0)) (0, 0)

/-! ## The end of a request (R289, R290) -/

/-- A post waits for its mailbox (R290). -/
def State.postMail (s : State) (p : Post) : State := { s with posts := s.posts ++ [p] }

/-- The record of a copy or loader call (R290). -/
def copyRecord (seq : BitVec 16) (code : BitVec 8) (kind : Nat) (value : Nat) : BitVec 128 :=
  BitVec.ofNat 128 (seq.toNat + code.toNat * 2 ^ 16 + kind * 2 ^ 24 + value % 2 ^ 64 * 2 ^ 64)

/-- Bytes moved: the request waits for nothing but its mailbox post. -/
def Core.markMoved (c : Core) (seq : BitVec 16) : Core :=
  c.modOp seq fun (o : Op) => match o.body with
    | .copy r => { o with body := .copy { r with moved := true } }
    | _ => o

/-- The range entries that an operation has in use from here on (R216). -/
def Core.holdRanges (c : Core) (seq : BitVec 16) (ps : List Piece) : Core :=
  c.modOp seq fun (o : Op) => { o with uses := (ps.filterMap (·.base)).eraseDups }

/-- The end of a request, with cause 0 or a fault: the mailbox post first when MBX = 1, then the ring entry (R289). -/
def State.endCopy (s : State) (seq : BitVec 16) (r : CopyOp) (t : Option Trap) : State :=
  let kind := if r.dkind = 5 then 1 else 0
  if r.mbx then
    let rec_ := match t with
      | some t => copyRecord seq t.1 kind t.2
      | none => copyRecord seq 0 kind r.cval
    (s.on (·.markMoved seq)).postMail { target := s.core.thread, record := rec_, src := .copy s.core.thread seq }
  else match t with
  | some t => s.lateFault seq t.1 t.2
  | none => s.opDone seq

/-- A word that an agent writes into the store of the thread in focus, as a release that publishes `pub` (R248, R289). -/
def State.foreignWord (s : State) (w : Agent) (scope : Nat) (pub : List Nat) (a : Nat) (xs : List Byte) : State :=
  (s.foreignWrite a xs).wordRelease w scope pub { thread := s.core.thread, addr := a, bytes := xs }

/-- The completion word of a copy of the thread in focus in the store of thread `k`: a release at scope pkg, or domain on
another package, of what is visible to the operation; it sets the latch (R115, R236, R289). -/
def State.wordAway (s : State) (o : Op) (r : CopyOp) (k : Nat) : State :=
  let scope := if pkgOf (threadCore k) = pkgOf s.core.addr.toNat then 7 else scopeDomain
  let pub := s.publish (.engine s.core.thread) scope (s.engineSeen o)
  s.atThread k fun t =>
    (t.foreignWord (.engine s.core.thread) scope pub r.cwaddr (natLe 8 (BitVec.ofNat 64 r.cval).toNat)).setLatch

/-- The completion word of a request, in the issuer's store or the destination core's (R289). -/
def State.copyWord (s : State) (o : Op) (r : CopyOp) : State :=
  if !r.cwe then s
  else if r.cwd then
    match s.storeOwner s.core.ctl.pid (remoteOf r.dst) with
    | some k =>
      if k = s.core.thread then s.completionWord r.cwaddr (BitVec.ofNat 64 r.cval)
      else if s.storeTakes r k then s.wordAway o r k
      else s
    | none => s
  else s.completionWord r.cwaddr (BitVec.ofNat 64 r.cval)

/-- Failed writes of the core in focus counted in the fault status (R260). -/
def State.countFailed (s : State) (n : Nat) : State := if n = 0 then s else s.on (·.countFailures n)

/-- Counted writes that are never issued: withdrawn, or reported as failed (R286). -/
def State.withdraw (s : State) (r : CopyOp) (n : Nat) (failed : Bool) : State :=
  if n = 0 then s
  else (s.countFailed (if failed then n else 0)).modPaths fun p =>
    let q := p.subCnt r.path n
    if failed then q.addFailed r.path n else q

/-- Writes of a copy that were issued, `x.1` of them with `x.2` failed at their target: their acknowledgements are on the
way (R239, R409). -/
def State.answerWrites (s : State) (r : CopyOp) (x : Nat × Nat) : State :=
  let way := fun (t : State) (n : Nat) (f : Bool) => if n = 0 then t else t.onTheWay
    { core := t.core.thread, n := n, path := r.path, pkg := r.pkg, failed := f, uses := none }
  way (way (s.countFailed x.2) (x.1 - x.2) false) x.2 true

/-- Do the first `n` bytes of the port hold some that request `seq` placed? -/
def portHas (seq : BitVec 16) : Nat → List PortSeg → Bool
  | _, [] => false
  | n, x :: r => decide (0 < n) && (x.seq == seq || portHas seq (n - x.data.length) r)

/-- A copy to the stream port that faults stops the port and discards its bytes; the other pending port requests wait for
it to reopen. The request itself, squashed before its post and re-issued whole (R366), reopens it (R313). -/
def Core.stopPort (c : Core) (seq : BitVec 16) : Core :=
  let hold := fun (o : Op) => match o.body with
    | .copy r => if r.dkind = 3 ∧ o.seq ≠ seq then { o with body := .copy { r with portHeld := true } } else o
    | _ => o
  let reading := match c.mtx.run with
    | some x => portHas seq x.portBytes c.mtx.port
    | none => false
  let back := if reading then c.mtx.run.map (·.seq) else none
  let park := fun (o : Op) => match o.body with
    | .mma acc rm u st hb ha a b d _ =>
      if back = some o.seq then { o with started := false, body := .mma acc rm u st hb ha a b d true } else o
    | _ => o
  { c with
    ops := c.ops.map fun o => park (hold o)
    mtx := { c.mtx with
      port := c.mtx.port.filter fun (x : PortSeg) => x.seq != seq
      portStopped := true, portFault := some seq
      run := if reading then none else c.mtx.run } }

/-- A request fails: `issued` of its counted writes were issued; the others are reported as failed (R286, R289,
R292). -/
def State.failCopy (s : State) (seq : BitVec 16) (r : CopyOp) (issued : Nat × Nat) (t : Trap) : State :=
  let t1 := s.withdraw r (r.counted - issued.1) true
  let t2 := if r.dkind = 3 then t1.on (·.stopPort seq) else t1
  ((t2.answerWrites r issued).seeOp seq).endCopy seq r (some t)

/-! ## COPY_START (R244, R291, R292, R294, R297, R313) -/

/-- The copy that an operation is. -/
def Op.copy? (o : Op) : Option CopyOp :=
  match o.body with
  | .copy r => some r
  | _ => none

/-- The copy engine that serves a core: its cluster's, or the memory core's own (R291, R296). -/
def Core.copyEngine (c : Core) : Nat :=
  let a := c.addr.toNat
  if isMemCore a then a else tileAddr (pkgOf a) (dieOf a) 0 0 + clusterOf a

/-- The cores that one engine serves. -/
def State.engineCores (s : State) (e : Nat) : List Core := s.allCores.filter fun (k : Core) => k.copyEngine == e

/-- Copies that an engine transfers now (R291). -/
def State.transferring (s : State) (e : Nat) : Nat :=
  ((s.engineCores e).map fun k => (k.ops.filter fun (o : Op) => match o.copy? with
    | some r => o.started && !r.moved && r.form == .cpy && r.dkind != 5
    | none => false).length).sum

/-- May a request start in its queue: none before it in issue order waits, save one that the stopped port holds, and the
port takes one request at a time (R291, R295, R313)? -/
def Core.copyTurn (c : Core) (o : Op) (r : CopyOp) : Bool :=
  let lstr := r.form != .cpy
  let earlier := (c.ops.takeWhile (·.seq != o.seq)).any fun (p : Op) => match p.copy? with
    | some q => !p.started && (q.form != .cpy) == lstr && !(c.mtx.portStopped && q.portHeld && q.dkind == 3)
    | none => false
  let port := r.dkind != 3 ||
    (!(c.mtx.portStopped && r.portHeld) && !c.ops.any fun (p : Op) => match p.copy? with
      | some q => q.dkind == 3 && p.started
      | none => false)
  !earlier && port && (r.trig == .free || r.trig == .released)

/-- The port reopens for the request that starts (R313). -/
def Core.reopenPort (c : Core) (r : CopyOp) : Core :=
  if r.dkind = 3 ∧ c.mtx.portStopped then
    let free := fun (o : Op) => match o.body with
      | .copy q => { o with body := .copy { q with portHeld := false } }
      | _ => o
    { c with ops := c.ops.map free, mtx := { c.mtx with portStopped := false, portFault := none } }
  else c

/-- A started operation. -/
def Core.markStarted (c : Core) (seq : BitVec 16) : Core := c.modOp seq fun (o : Op) => { o with started := true }

/-- A loader call enters its memory core's call queue of 16 (R297). -/
def State.callLoader (s : State) (seq : BitVec 16) (r : CopyOp) (a : Attach) : State :=
  let m := r.dst % 2 ^ 23
  if 16 ≤ (s.getCore m).calls.length then s
  else
    let call : LoaderCall :=
      { caller := s.core.thread, seq := seq, w0 := r.w0, w2 := r.w2, entry := BitVec.ofNat 21 (fld r.w1 32 21),
        pid := s.core.ctl.pid, topx := a.topx, rm := a.rm }
    ((s.on (·.markStarted seq)).modCore m fun c => { c with calls := c.calls ++ [call] })

/-- What stops a request before its first byte: its dealt targets and remote cores (R292, R294). -/
def State.startFault (s : State) (r : CopyOp) (a : Attach) : Option Trap :=
  let remote := fun (kind x : Nat) => kind = 2 ∧ (s.storeOwner s.core.ctl.pid (remoteOf x)).isNone
  if remote r.skind r.src ∨ (remote r.dkind r.dst) then some noTarget
  else if r.isDealt then
    match s.dealSide r a with
    | .ok _ (some (0, t)) _ => some t
    | _ => none
  else none

/-- Has a copy of a core nothing left to wait for in its queue (R243, R244, R291)? -/
def State.copyReady (s : State) (c : Core) (o : Op) (r : CopyOp) : Bool :=
  !o.started && !c.blocked o && c.copyTurn o r && !s.orderedBefore c.thread o

/-- Is it the turn of the core in focus at its engine, which takes one request in turn from each core queue that has one
ready (R291)? -/
def State.engineTurn (s : State) : Bool :=
  let e := s.core.copyEngine
  let last := agetD s.copyPos e 0
  let after := fun (a : Nat) => (a + 2 ^ 23 - last - 1) % 2 ^ 23
  (s.engineCores e).all fun (k : Core) =>
    decide (after s.core.addr.toNat ≤ after k.addr.toNat) || !k.ops.any fun (o : Op) => match o.copy? with
      | some r => r.form == .cpy && r.dkind != 5 && s.copyReady k o r
      | none => false

/-- COPY_START at the thread in focus. -/
def State.startCopy (s : State) (seq : BitVec 16) : State :=
  match s.core.op seq with
  | none => s
  | some o =>
    match o.copy? with
    | none => s
    | some r =>
      let e := s.core.copyEngine
      if !s.copyReady s.core o r then s
      else if r.dkind = 5 then s.callLoader seq r o.att
      else if r.form = .cpy ∧ (4 ≤ s.transferring e ∨ !s.engineTurn) then s
      else
        let t : State := if r.form = .cpy then { s with copyPos := aset s.copyPos e s.core.addr.toNat } else s
        match s.startFault r o.att with
        | some f => t.failCopy seq r (0, 0) f
        | none => t.on fun c => (c.reopenPort r).markStarted seq

/-- COPY_START. -/
def execCopyStart (c seq : Nat) (s : State) : Out := .next (s.atAgent c (·.startCopy (BitVec.ofNat 16 seq)))

/-! ## COPY_COMPLETE and COPY_FAULT (R289, R292, R295) -/

/-- How both sides of a started request resolve: waiting for a translation, or their pieces with the first failure. -/
inductive SidesRes where
  | wait (s : State)
  | ok (ps qs : List Piece) (bad : Option (Nat × Trap)) (s : State)
deriving DecidableEq, Repr

/-- Both sides of a started request; the failure is in source order (R292). -/
def State.sides (s : State) (o : Op) (r : CopyOp) : SidesRes :=
  match s.srcSide o r with
  | .wait s1 => .wait s1
  | .ok ps bad1 s1 =>
    match s1.dstSide o r with
    | .wait s2 => .wait s2
    | .ok qs bad2 s2 =>
      let back := fun (x : Nat × Trap) => (x.1 / (convSizes r.conv).2 * (convSizes r.conv).1, x.2)
      .ok ps qs (firstFault bad1 (bad2.map back)) s2

/-- Room in the stream port of 4 KiB (R295). -/
def Core.portRoom (c : Core) : Nat := 4096 - (c.mtx.port.map fun (x : PortSeg) => x.data.length).sum

/-- The next bytes of a stream-port request enter the port as far as there is room; how many of its bytes have. -/
def State.feedPort (s : State) (seq : BitVec 16) (fed : Nat) (xs : List Byte) : Nat × State :=
  let ys := (xs.drop fed).take s.core.portRoom
  let put := fun (c : Core) => { c with mtx := { c.mtx with port := c.mtx.port ++ [{ seq := seq, data := ys, bad := false }] } }
  (fed + ys.length, (if ys.isEmpty then s else s.on put).on fun c => c.modOp seq fun (o : Op) => match o.body with
    | .copy r => { o with body := .copy { r with fed := fed + ys.length } }
    | _ => o)

/-- The last byte has been written, `failed` of the writes at no target: acknowledgements are on their way, then
completion word, post and entry. The word lets the thread see the bytes; without one the end does (R244, R289). -/
def State.completeCopy (s : State) (seq : BitVec 16) (r : CopyOp) (failed : Nat) : State :=
  let t := (s.answerWrites r (r.counted, failed)).on (·.markMoved seq)
  let t := match t.core.op seq with
    | some o => t.copyWord o r
    | none => t
  (if r.cwe ∨ !r.mbx then t.seeOp seq else t).endCopy seq r none

/-- COPY_COMPLETE for a request to the stream port: the bytes there is room for enter it, and the last completes it. -/
def State.feedCopy (s : State) (o : Op) (r : CopyOp) (ps : List Piece) (xs : List Byte) (fl : BitVec 6)
    (bad : Option (Nat × Trap)) : State :=
  let (fed, t) := s.feedPort o.seq r.fed xs
  let t1 := t.on (·.holdRanges o.seq ps)
  if bad.isNone ∧ r.dlen ≤ fed then (t1.setFlags fl).completeCopy o.seq { r with fed := fed } 0 else t1

/-- COPY_COMPLETE at the thread in focus: the bytes move; a request to the port moves what there is room for. -/
def State.finishCopy (s : State) (seq : BitVec 16) : State :=
  match s.core.op seq with
  | none => s
  | some o =>
    match o.copy? with
    | none => s
    | some r =>
      if !o.started ∨ r.moved ∨ r.dkind = 5 then s
      else match s.sides o r with
      | .wait t => t
      | .ok ps qs bad t =>
        let (ss, t0) := t.gather (s.engineSeen o) ps
        let (xs, fl) := convert r.conv o.att.topx ss
        if r.dkind = 3 then t0.feedCopy o r ps xs fl bad
        else if bad.isSome then s
        else
          let (fl1, t1) := t0.putAll o r xs qs
          (((t1.setFlags (fl ||| fl1)).on (·.holdRanges seq (ps ++ qs))).completeCopy seq r
            (t.piecesWrites o r r.dlen qs).2)

/-- COPY_COMPLETE. -/
def execCopyComplete (c seq : Nat) (s : State) : Out := .next (s.atAgent c (·.finishCopy (BitVec.ofNat 16 seq)))

/-- The first `k` bytes of a destination. -/
def cutPieces (k : Nat) (ps : List Piece) : List Piece :=
  (ps.filter fun (p : Piece) => decide (p.off < k)).map fun (p : Piece) => { p with n := min p.n (k - p.off) }

/-- A request that stops part-way: the bytes before a free point of its stream have been written (R242, R289), without
the flags of a completion (R15); the writes issued and failed. -/
def State.partialMove (s : State) (o : Op) (r : CopyOp) (ps qs : List Piece) (limit : Nat) : (Nat × Nat) × State :=
  let (n, t) := s.fresh
  let (ss, t0) := t.gather (s.engineSeen o) ps
  let (xs, _) := convert r.conv o.att.topx ss
  let k := Config.freeNat n % (min limit xs.length + 1)
  if r.dkind = 3 then ((0, 0), t)
  else (t.piecesWrites o r k qs, (t0.putAll o r (xs.take k) (cutPieces k qs)).2)

/-- A failure that is an error of stacked memory is counted at its stack (R380). -/
def State.countCopyError (s : State) (t : Trap) : State :=
  if t.1 = Cause.memory ∧ t.2 / 2 ^ 60 = 0 then
    match s.core.tableFind t.2 with
    | some e => let x := e.entry.xlat t.2; s.countSymbol x.pa x.place
    | none => s
  else s

/-- COPY_FAULT at the thread in focus: the first failure stops the transfer (R292). -/
def State.faultCopy (s : State) (seq : BitVec 16) : State :=
  match s.core.op seq with
  | none => s
  | some o =>
    match o.copy? with
    | none => s
    | some r =>
      if !o.started ∨ r.moved ∨ r.dkind = 5 then s
      else match s.sides o r with
      | .ok ps qs (some (off, t)) s1 =>
        let limit := off / (convSizes r.conv).1 * (convSizes r.conv).2
        let (n, s2) := if t = noTarget ∧ off = 0 then ((0, 0), s1) else s1.partialMove o r ps qs limit
        (s2.countCopyError t).failCopy seq r n t
      | .ok _ _ none _ => s
      | .wait t => t

/-- COPY_FAULT. -/
def execCopyFault (c seq : Nat) (s : State) : Out := .next (s.atAgent c (·.faultCopy (BitVec.ofNat 16 seq)))

/-! ## MAILBOX_POST (R290) -/

/-- What follows a post that has entered its mailbox: the entry of its copy becomes done or faulted (R289). -/
def State.afterPost (s : State) (p : Post) : State :=
  match p.src with
  | .engine _ => s
  | .copy k seq =>
    let code : BitVec 8 := p.record.extractLsb' 16 8
    s.atThread k fun t =>
      if code = 0 then (t.seeOp seq).opDone seq else t.lateFault seq code (p.record.extractLsb' 64 64).toNat

/-- Does a post go to the agent: a thread by name, or whatever runs on a core? -/
def Post.goesTo (p : Post) (c thread : Nat) : Bool := p.target == c || p.target == thread

/-- A post whose thread is gone is dropped, a fire record with a count in RECLOST (R324). -/
def State.dropPost (s : State) (p : Post) : State :=
  let t : State := { s with posts := s.posts.erase p }
  match p.src with
  | .engine e => t.modEngine e fun x => { x with reclost := satInc x.reclost }
  | .copy _ _ => t

/-- MAILBOX_POST: the first post for the core enters its mailbox of 32 records when there is room. -/
def execMailboxPost (c : Nat) (s : State) : Out :=
  let k := if c < 2 ^ 23 then (s.getCore c).thread else c
  match s.getThread k, s.posts.find? (·.goesTo c k) with
  | none, some p => .next (s.dropPost p)
  | some q, some p =>
    if q.mail.length < 32 then
      .next ((({ s with posts := s.posts.erase p } : State).atThread k
        fun t => (t.on fun x => { x with mail := x.mail ++ [p.record] }).setLatch).afterPost p)
    else .next s
  | _, _ => .next s

/-! ## Squashing (R286, R331, R351, R366) -/

/-- The triggers armed for a copy are gone (R331). -/
def State.disarm (s : State) (k : Nat) (seq : BitVec 16) : State :=
  { s with triggers := s.triggers.map fun (u, l) => (u, l.filter fun (t : Trigger) => match t.act with
      | .release c q => !(c == k && q == seq)
      | _ => true) }

/-- The port without the bytes of a request that lie past its first `n`, those that a started step reads (R295). -/
def cutPort (seq : BitVec 16) : Nat → List PortSeg → List PortSeg
  | _, [] => []
  | n, x :: r =>
    let y : PortSeg := if x.seq = seq then { x with data := x.data.take n } else x
    (if y.data.isEmpty then [] else [y]) ++ cutPort seq (n - x.data.length) r

/-- The port bytes that the started step of a core reads. -/
def Core.portRead (c : Core) : Nat :=
  match c.mtx.run with
  | some q => q.portBytes
  | none => 0

/-- What a copy of the thread in focus has written when it is squashed: a transfer part-way leaves a free part of its
bytes (R242). -/
def State.squashBytes (s : State) (o : Op) (r : CopyOp) : (Nat × Nat) × State :=
  if o.started ∧ !r.moved then
    match s.sides o r with
    | .ok ps qs bad s1 => s1.partialMove o r ps qs
        (match bad with
          | some (off, _) => off / (convSizes r.conv).1 * (convSizes r.conv).2
          | none => r.dlen)
    | .wait t => ((0, 0), t)
  else ((0, 0), s)

/-- A copy of the thread in focus squashed: the writes it will never issue are withdrawn, its trigger disarmed, its post
taken back, and its port bytes that no started step reads discarded (R286, R289, R295). -/
def State.squashCopy (s : State) (o : Op) (r : CopyOp) : State :=
  let (n, t) := s.squashBytes o r
  let t1 := if r.moved then t else (t.withdraw r (r.counted - n.1) false).answerWrites r n
  let t2 : State := { t1 with posts := t1.posts.filter (·.src != .copy s.core.thread o.seq) }
  (((t2.seeOp o.seq).on fun c => c.squash o.seq).on fun c => { c with mtx := { c.mtx with
    port := cutPort o.seq c.portRead c.mtx.port } }).disarm s.core.thread o.seq

/-- The copies that no trigger will release are squashed, but no loader call (R114, R201, R297, R351, R375). -/
def State.squashUntriggered (s : State) : State :=
  s.core.ops.foldl (fun t (o : Op) => match o.copy? with
    | some r => if r.trig = .waiting ∧ r.dkind ≠ 5 then t.squashCopy o r else t
    | none => t) s

end Sys2Proof.Machine
end

