-- ==== Sys2Proof/Machine/Sys.lean ====
section
/-!
DEFINITION. Sys2Proof/Machine/Sys.lean: the system instructions (R111 to R117, R367, R377), and the treatment of the
pending operations of a core that is pre-empted (R366).
-/

namespace Sys2Proof.Machine

/-! ## Squashing for pre-emption (R366, R367) -/

/-- A matrix operation. -/
def OpBody.isMatrix : OpBody → Bool
  | .mma .. | .mzero _ | .mlda .. | .msta .. | .mfmt .. | .mcbld .. => true
  | _ => false

/-- Is the operation squashed at the PREEMPT entry (R366)? -/
def Op.squashable (o : Op) : Bool :=
  match o.body with
  | .copy r => r.dkind != 5
  | b => b.isMatrix && !o.started

/-- The value of the trigger armed for a copy of a thread. -/
def State.triggerValue (s : State) (k : Nat) (seq : BitVec 16) : Option Word :=
  (s.triggers.flatMap (·.2)).findSome? fun (t : Trigger) => match t.act with
    | .release c q => if c = k ∧ q = seq then some t.value else none
    | _ => none

/-- The operation as it is kept: as at its dispatch, with its request words and attached values (R366). -/
def Op.asKept (o : Op) : Op :=
  match o.body with
  | .copy r =>
    let r1 : CopyOp := { r with
      trig := if r.trig = .armed then .waiting else r.trig, counted := 0, pkgs := [], moved := false, fed := 0
      bad := none }
    { o with started := false, uses := [], body := .copy r1 }
  | _ => { o with started := false }

/-- A matrix operation that has not started is squashed; its read of the port goes with it. -/
def State.squashMatrix (s : State) (o : Op) : State := s.on (·.squash o.seq)

/-- One pending operation at PREEMPT: squashed and kept, with the value of its trigger, or left to run on (R366). -/
def State.keepOp (s : State) (o : Op) : State :=
  if !o.squashable then s
  else
    let v := s.triggerValue s.core.thread o.seq
    let t := match o.body with
      | .copy r => s.squashCopy o r
      | _ => s.squashMatrix o
    t.on fun c => { c with
      kept := c.kept ++ [o.asKept]
      keptTrig := match v with
        | some x => c.keptTrig ++ [(o.seq, x)]
        | none => c.keptTrig }

/-- The pending operations of the core in focus at PREEMPT, in issue order (R366). -/
def State.keepOps (s : State) : State := s.core.ops.foldl State.keepOp s

/-- Has a matrix operation started that has not completed? -/
def Core.matrixRuns (c : Core) : Bool := c.ops.any fun (o : Op) => o.started && o.body.isMatrix

/-! ## SVC, TRAP, BRK (R111, R112) -/

/-- `svc`. -/
def execSvc (c : BitVec 11) (s : State) : Out := .next (s.trap (Cause.svc, c.toNat))

/-- `trap`. -/
def execTrap (c : BitVec 11) (s : State) : Out := .next (s.trap (Cause.soft, c.toNat))

/-- The record that `brk` writes in the trace state (R424). -/
def State.traceRec (s : State) (p : Package) (code : BitVec 11) : TraceRec :=
  { pc := s.pc, code := code, core := s.core.addr
    regs := if p.security ≠ .opened ∧ Config.tokenPid p.tokenReg s.core.ctl.pid then some s.core.regs.g else none }

/-- `brk`: a trap with debug off; a record in the trace state; in the halt state the core stops, its pc at the `brk`
(R424). -/
def execBrk (c : BitVec 11) (s : State) : Out :=
  let p := s.getPkg (pkgOf s.core.addr.toNat)
  match p.debug with
  | .off => .next (s.trap (Cause.brk, c.toNat))
  | .trace =>
    .next (s.modPkg (pkgOf s.core.addr.toNat) fun q => { q with trace := q.trace ++ [s.traceRec p c] }).adv
  | .halt => .next (s.leaveGang.withdrawFollow.on fun c => { c with run := .haltDebug, wait := .no })

/-! ## ERET (R113) -/

/-- `eret`. -/
def execEret (s : State) : Out := s.checked s.privCheck (s.on Core.returnTrap)

/-! ## HALT (R114, R367, R377) -/

/-- Is a `halt` executed here a pre-emption halt: ECAUSE shows INTR and PREEMPT (R367)? -/
def Core.preemptsHere (c : Core) : Bool :=
  c.ctl.ecause.getLsbD 9 && c.ctl.ecause.setWidth 8 == Cause.preempt

/-- Is a `halt` executed here a rollback request (R377)? -/
def Core.rollsBackHere (c : Core) : Bool := c.ctl.status.ckpt && c.ctl.ecause.getLsbD 8

/-- The core stops; EPC holds the address of the `halt` (R114). -/
def Core.stop (c : Core) (how : RunState) : Core :=
  { c with run := how, wait := .no, ctl := { c.ctl with epc := c.regs.pc } }

/-- A pre-emption halt waits for the started matrix operations only; what was dispatched since the entry is squashed
and kept (R367). -/
def State.haltPreempted (s : State) : State :=
  let t := s.keepOps
  if t.core.matrixRuns then t.waiting .other
  else t.on fun c =>
    { c.stop .preemptHalt with faults := { c.faults with preempts := satInc c.faults.preempts } }

/-- The debug state of the package of the core in focus (R424). -/
def State.debugHere (s : State) : Debug := (s.getPkg (pkgOf s.core.addr.toNat)).debug

/-- A `halt` that ends the thread: it waits until no ring entry is pending; the bindings are then taken down (R114,
R256). In the halt debug state the core stops and stays resumable, so its thread has not ended (R114, R172). -/
def State.haltThread (s : State) : State :=
  let t := s.squashUntriggered
  if t.core.anyPending || !t.core.team.committed.isEmpty then t.waiting (.draining true)
  else if s.debugHere = .halt then t.on (·.stop .haltDebug)
  else
    let t1 := t.dropWaiting.on (·.stop .halted)
    t1.endBindings t1.core.thread State.takeDown

/-- `halt` past its privilege check. -/
def State.haltNow (s : State) : State :=
  let t := s.leaveGang
  if t.core.preemptsHere then t.haltPreempted
  else if t.core.rollsBackHere then
    (t.on fun c => { c with team := { c.team with rollback := true } }).waiting .other
  else t.haltThread

/-- `halt`. -/
def execHalt (s : State) : Out := s.checked s.privCheck s.haltNow

/-! ## WFE, IFENCE, YIELD (R115 to R117) -/

/-- `wfe`. -/
def execWfe (s : State) : Out :=
  if s.core.latch then .next (s.on fun c => { c with latch := false }).adv else .next (s.waiting .event)

/-- `ifence`: the fetch buffer is discarded; in a follower it has no effect. -/
def execIfence (s : State) : Out :=
  .next (if s.core.follows then s else s.on fun c => { c with fbuf := none }).adv

/-- `yield`: the boundary after it is a safe point. -/
def execYield (s : State) : Out := .next (s.on fun c => { c with yielded := true }).adv

/-- DEBUG_RESUME: a core stopped in the halt debug state by `brk` or `halt` is resumable (R114, R424); where it goes on the
spec does not say, and here it is the address after the one its pc then holds (DESIGN CHOICE, notes/assumptions/29.md). -/
def execDebugResume (c : Nat) (s : State) : Out :=
  .next (s.at c fun t =>
    if t.core.run = .haltDebug then (t.on fun k => { k with run := .running }).adv else t)

end Sys2Proof.Machine
end

