-- ==== Sys2Proof/Machine/Matrix.lean ====
section
/-!
DEFINITION. Sys2Proof/Machine/Matrix.lean: the matrix instructions and their checks at dispatch: formats, shapes, tile
spans and unfolding descriptors (R16 to R18, R54, R298, R300 to R309, R341 to R343).
-/

namespace Sys2Proof.Machine

/-! ## Formats and shapes (R17, R18, R54, R300, R301) -/

/-- Bits of an operand element by format code; a `cb2` weight counts 2 (R300). -/
def opBits (code : Nat) : Nat :=
  match code with
  | 0 => 64
  | 1 => 32
  | 2 => 16
  | 3 => 16
  | 6 => 6
  | 7 => 6
  | 8 => 4
  | 9 => 2
  | _ => 8

/-- K of a format (R300). -/
def opK (code : Nat) : Nat :=
  match opBits code with
  | 64 => 8
  | 32 => 8
  | 16 => 32
  | 8 => 64
  | _ => 128

/-- The accumulator formats (R54). -/
inductive AccFmt where
  | f64
  | f32
  | i32
deriving DecidableEq, Repr

/-- The accumulator format of a pair; `none` where the pair is not permitted (R54). -/
def pairAcc (a b : Nat) : Option AccFmt :=
  if a = 0 ∧ b = 0 then some .f64
  else if a = 1 ∧ b = 1 then some .f32
  else if 2 ≤ a ∧ a ≤ 9 ∧ 2 ≤ b ∧ b ≤ 9 then some .f32
  else if (a = 10 ∨ a = 11) ∧ (b = 10 ∨ b = 11) then some .i32
  else none

/-- The format code of an operand register (R16). -/
def fmtCode (x : Word) : Nat := x.toNat % 16
/-- MX (R16). -/
def fmtMx (x : Word) : Bool := bitOf x 4
/-- PITCH in bytes (R16). -/
def fmtPitch (x : Word) : Nat := 64 * (x.toNat / 2 ^ 16 % 2 ^ 16)

/-- Is a code reserved, or MX set with a format that admits none (R18)? -/
def fmtBad (x : Word) : Bool :=
  decide (12 ≤ fmtCode x) || (fmtMx x && (decide (fmtCode x < 4) || decide (10 ≤ fmtCode x)))

/-- The shape of a step: accumulator, rows of A, K, and the row lengths (R300, R301). -/
structure StepShape where
  acc : AccFmt
  rows : Nat
  k : Nat
  la : Nat
  lb : Nat
deriving DecidableEq, Repr

/-- The shape that attached codes give, or the FORMAT case 1 or 2 (R309). -/
def stepShape (t : Attach) : Except Nat StepShape :=
  let a := fmtCode t.fmta
  let b := fmtCode t.fmtb
  if fmtBad t.fmta || fmtBad t.fmtb then .error 1
  else match pairAcc a b with
  | none => .error 2
  | some f =>
    let k := min (opK a) (opK b)
    .ok { acc := f, rows := if f = .f64 then 8 else 16, k := k, la := k * opBits a / 8, lb := k * opBits b / 8 }

/-- Where a step takes its operands from (R76). -/
structure StepForm where
  unfold : Bool
  stream : Bool
  holdB : Bool
  holdA : Bool
deriving DecidableEq, Repr

/-- Is a pitch too small for a row read from the local store (R301)? -/
def pitchBad (t : Attach) (f : StepForm) (h : StepShape) : Bool :=
  let small := fun (p l : Nat) => p != 0 && decide (p < l)
  (!f.holdA && !f.unfold && small (fmtPitch t.fmta) h.la) || (!f.holdB && !f.stream && small (fmtPitch t.fmtb) h.lb)

/-- The shape, unless FORMAT case 1, 2 or 6 shows at dispatch (R341). -/
def dispatchShape (t : Attach) (f : StepForm) : Option StepShape :=
  match stepShape t with
  | .ok h => if pitchBad t f h then none else some h
  | .error _ => none

/-- TileSpan (R341). -/
def tileSpan (pitch l rows : Nat) : Nat := if pitch = 0 then rows * l else pitch * (rows - 1) + l

/-- Bytes of a scale array (R302). -/
def scaleLen (rows k : Nat) : Nat := rows * k / 32

/-! ## Unfolding descriptors (R304, R305) -/

/-- A field of a descriptor: `n` bits from byte `off`. -/
def descField (x : BitVec 512) (off n : Nat) : Nat := bitsAt x.toNat (8 * off) n

/-- Bytes of a tensor element. -/
def tensorElem (t : Attach) : Nat := opBits (fmtCode t.fmta) / 8

/-- Bytes of the tensor. -/
def tensorLen (t : Attach) (x : BitVec 512) : Nat :=
  descField x 4 16 * descField x 6 16 * descField x 8 16 * tensorElem t

/-- May the format be unfolded (R304)? -/
def unfoldFmt (t : Attach) : Bool := [1, 2, 3, 4, 5, 10, 11].contains (fmtCode t.fmta) && !fmtMx t.fmta

/-- Does a descriptor keep R304 and R305 under the attached format? -/
def unfoldOk (t : Attach) (x : BitVec 512) : Bool :=
  let one16 := fun (off : Nat) => decide (1 ≤ descField x off 8) && decide (descField x off 8 ≤ 16)
  unfoldFmt t && descField x 0 32 / 2 ^ 21 == 0 && descField x 0x16 16 == 0 && descField x 0x20 256 == 0 &&
    ([4, 6, 8, 10, 12].all fun off => descField x off 16 != 0) && ([14, 15, 16, 17, 18, 19].all one16) &&
    descField x 0 21 % tensorElem t == 0 && decide (descField x 0 21 + tensorLen t x ≤ 0x180000)

/-! ## The checks and spans of `mma` (R303, R341) -/

/-- The checks of the A operand and its spans. -/
def State.spansA (s : State) (f : StepForm) (a : Nat) : Option Trap × List Span :=
  let t := s.core.attach
  if f.holdA then (none, [])
  else if f.unfold then
    let x : BitVec 512 := BitVec.ofNat 512 (s.localRead a 64)
    let c := s.engineCheck a 64 64
    if unfoldOk t x then
      (c.or (s.engineCheck (descField x 0 21) (tensorLen t x) (tensorElem t)),
        [{ lo := a, len := 64 }, { lo := descField x 0 21, len := tensorLen t x }])
    else (c, [{ lo := a, len := 64 }])
  else
    let n := match dispatchShape t f with
      | some h => tileSpan (fmtPitch t.fmta) h.la h.rows
      | none => 64
    (s.engineCheck a n 64, [{ lo := a, len := n }])

/-- The check of the B operand and its span. -/
def State.spansB (s : State) (f : StepForm) (b : Nat) : Option Trap × List Span :=
  let t := s.core.attach
  if f.holdB || f.stream then (none, [])
  else
    let n := match dispatchShape t f with
      | some h => tileSpan (fmtPitch t.fmtb) h.lb 16
      | none => 64
    (s.engineCheck b n 64, [{ lo := b, len := n }])

/-- The scale arrays that a step reads from the local store (R302, R303). -/
def scaleSpans (t : Attach) (f : StepForm) : List Span :=
  match dispatchShape t f with
  | none => []
  | some h =>
    (if fmtMx t.fmta && !f.holdA && !f.unfold then [{ lo := t.scla.toNat, len := scaleLen h.rows h.k }] else []) ++
    if fmtMx t.fmtb && !f.holdB && !f.stream then [{ lo := t.sclb.toNat, len := scaleLen 16 h.k }] else []

/-- The precise checks of `mma` in order (R341). -/
def State.mmaCheck (s : State) (f : StepForm) (a b : Nat) : Option Trap := (s.spansA f a).1.or (s.spansB f b).1

/-- The spans of an `mma` (R303). -/
def State.mmaSpans (s : State) (f : StepForm) (a b : Nat) : OpSpans :=
  { OpSpans.none with lread := (s.spansA f a).2 ++ (s.spansB f b).2 ++ scaleSpans s.core.attach f }

/-- The step form of an `mma` word. -/
def stepForm (u v w x : BitVec 1) : StepForm :=
  { unfold := u == 1, stream := v == 1, holdB := w == 1, holdA := x == 1 }

/-- The tile step that an `mma` dispatches; it takes the descriptor with it (R304). -/
def State.mmaBody (s : State) (c : BitVec 2) (f : StepForm) (r : BitVec 2) (a b : Nat) : OpBody :=
  .mma c r f.unfold f.stream f.holdB f.holdA a b
    (if f.unfold then BitVec.ofNat 512 (s.localRead a 64) else 0) false

/-- Places of the matrix queue that are taken (R298). -/
def Core.matrixPlaces (c : Core) : Nat := (c.ops.filter fun (o : Op) => o.body.isMatrix).length

/-- An operation of major MTX: it stalls at a full queue of 8, and writes no register (R298, R334). -/
def State.matrixOp (s : State) (sub : Nat) (t : Option Trap) (x : OpSpans) (body : OpBody) : Out :=
  s.dispatched t (decide (8 ≤ s.core.matrixPlaces)) (s.dispatchTo 0x34 sub 0 x body)

/-- `mma`. -/
def execMma (c : BitVec 2) (a b : BitVec 5) (r : BitVec 2) (u v w x : BitVec 1) (s : State) : Out :=
  let f := stepForm u v w x
  let pa := (s.g a).toNat
  let pb := (s.g b).toNat
  s.matrixOp 0 (s.mmaCheck f pa pb) (s.mmaSpans f pa pb) (s.mmaBody c f r pa pb)

/-! ## The other forms (R342, R343) -/

/-- A read span of the local store. -/
def readSpan (a n : Nat) : OpSpans := { OpSpans.none with lread := [{ lo := a, len := n }] }
/-- A written span of the local store. -/
def writeSpan (a n : Nat) : OpSpans := { OpSpans.none with lwrite := [{ lo := a, len := n }] }

/-- `mzero`. -/
def execMzero (c : BitVec 2) (s : State) : Out := s.matrixOp 1 none OpSpans.none (.mzero c)

/-- `mlda`. -/
def execMlda (c : BitVec 2) (a : BitVec 5) (s : State) : Out :=
  let x := (s.g a).toNat
  s.matrixOp 2 (s.engineCheck x 1024 64) (readSpan x 1024) (.mlda c x)

/-- `msta`. -/
def execMsta (c : BitVec 2) (a : BitVec 5) (s : State) : Out :=
  let x := (s.g a).toNat
  s.matrixOp 3 (s.engineCheck x 1024 64) (writeSpan x 1024) (.msta c x)

/-- Bytes of an element of a source reading (R343). -/
def mfmtSrcSize (src : BitVec 2) : Nat := if src = 1 then 8 else 4

/-- Bytes of an element of a destination code (R343). -/
def mfmtDstSize (dst : BitVec 4) : Nat :=
  match dst.toNat with
  | 0x9 => 4
  | 0xA => 2
  | 0xB => 2
  | 0x1 => 2
  | _ => 1

/-- Bytes that `mfmt` writes. -/
def mfmtLen (src : BitVec 2) (dst : BitVec 4) : Nat := 1024 / mfmtSrcSize src * mfmtDstSize dst

/-- `mfmt`: `s` is the source reading, `r` the rounding, `t` the destination. -/
def execMfmt (c : BitVec 2) (a : BitVec 5) (src r : BitVec 2) (t : BitVec 4) (s : State) : Out :=
  let x := (s.g a).toNat
  let n := mfmtLen src t
  s.matrixOp 4 (s.engineCheck x n 64) (writeSpan x n) (.mfmt c src r t x)

/-- `mcbld`. -/
def execMcbld (a b : BitVec 5) (s : State) : Out :=
  let x := (s.g a).toNat
  let n := (s.g b).toNat
  let word := mkWord 0x34 0 a b (BitVec.ofNat 11 (64 * 5))
  let chk := if 3 < n then some (Cause.bounds, n) else (s.engineCheck x 2048 64).or (s.teamCheck word)
  s.matrixOp 5 chk (readSpan x 2048) (.mcbld x n)

end Sys2Proof.Machine
end

