-- ==== Sys2Proof/Machine/MatrixRun.lean ====
section
/-!
DEFINITION. Sys2Proof/Machine/MatrixRun.lean: how the matrix unit performs operations: what a step reads when it
starts, its exact sums and single rounding, its completion, checksum mismatches and replay, and the other operations
(R19, R55, R56, R299 to R313, R342, R343).
-/

namespace Sys2Proof.Machine

/-! ## Operands (R301 to R307) -/

/-- The number of a cluster over the domain, which names its matrix unit and its event engine (R144). -/
def unitOf (c : Nat) : Nat := pkgOf c * 256 + dieOf c * 32 + clusterOf c

/-- A byte of a codebook table of a cluster (R53). -/
def State.tableByte (s : State) (unit table i : Nat) : Byte := s.mem.byte (keyBook unit (table * 2048 + i))

/-- A value under an E8M0 scale code (R50). The NaN of scale 0xFF is quiet whatever the element is: R136 says so of an
unpacking, and of a tile step nothing is said (DESIGN CHOICE, notes/assumptions/21.md). -/
def scaleBy (x : FVal) (c : Nat) : FVal := if c = 255 then .nan false else x.scaled (e8m0 c)

/-- An integer as an exact term. -/
def FVal.ofInt (n : Int) : FVal := .fin (decide (n < 0)) n.natAbs 0

/-- Element `k` of a packed row of an operand, without its scale (R40, R53, R301). -/
def rowElem (fmt : Nat) (topx : Bool) (table : Nat → Byte) (row k : Nat) : FVal :=
  match fmt with
  | 9 => cbWeight table topx (bitsAt row (16 * (k / 8)) 16) (k % 8)
  | 10 => FVal.ofInt (sext (codeAt row 8 k) 8)
  | 11 => FVal.ofInt (codeAt row 8 k)
  | f => (fmtOf f topx).decode (codeAt row (opBits f) k)

/-- Row `r` of an operand, decoded exactly (R50, R53, R302). -/
def OperandBuf.row (o : OperandBuf) (topx : Bool) (table : Nat → Byte) (r : Nat) : List FVal :=
  let fmt := o.fmt.toNat
  let l := o.k * opBits fmt / 8
  let row := leNat ((o.data.drop (r * l)).take l)
  (List.range o.k).map fun k =>
    let y := rowElem fmt topx table row k
    if o.mx then scaleBy y (o.scales.getD (r * (o.k / 32) + k / 32) 0).toNat else y

/-- Rows of a tile in the local store, packed. -/
def State.tileRows (s : State) (a pitch l rows : Nat) : List Byte :=
  (List.range rows).flatMap fun r => s.localBytes (a + (if pitch = 0 then l else pitch) * r) l

/-- One element of an unfolded tile, as bytes: of the tensor, or zero from the padding (R305). -/
def State.unfoldElem (s : State) (t : Attach) (x : BitVec 512) (i k : Nat) : List Byte :=
  let f := descField x
  let e := tensorElem t
  let p := f 0x18 32 + i
  let q := f 0x1C 32 + k
  let c := f 8 16
  let kw := f 15 8
  let zero := List.replicate e (0 : Byte)
  if f 10 16 * f 12 16 ≤ p ∨ f 14 8 * kw * c ≤ q then zero
  else
    let y : Int := ((p / f 12 16 * f 16 8 + q / (kw * c) * f 18 8 : Nat) : Int) - (f 20 8 : Nat)
    let z : Int := ((p % f 12 16 * f 17 8 + q % (kw * c) / c * f 19 8 : Nat) : Int) - (f 21 8 : Nat)
    if y < 0 ∨ (f 4 16 : Nat) ≤ y ∨ z < 0 ∨ (f 6 16 : Nat) ≤ z then zero
    else s.localBytes (f 0 21 + ((y.toNat * f 6 16 + z.toNat) * c + q % c) * e) e

/-- An unfolded tile, packed. -/
def State.unfoldRows (s : State) (t : Attach) (x : BitVec 512) (k : Nat) : List Byte :=
  (List.range 16).flatMap fun i => (List.range k).flatMap fun j => s.unfoldElem t x i j

/-- The bytes of the stream port, its head first. -/
def Core.portBytes (c : Core) : List Byte := c.mtx.port.flatMap (·.data)

/-- Bytes that a streamed step takes from the port (R306). -/
def streamNeed (t : Attach) (h : StepShape) : Nat :=
  16 * h.lb + if fmtMx t.fmtb then scaleLen 16 h.k else 0

/-- Bytes of the port that a step takes: none unless it streams. -/
def portNeed (t : Attach) (f : StepForm) (h : StepShape) : Nat := if f.stream then streamNeed t h else 0

/-- The A operand that a step uses (R301, R302, R305, R307). -/
def State.operandA (s : State) (t : Attach) (f : StepForm) (h : StepShape) (a : Nat) (x : BitVec 512) :
    Option OperandBuf :=
  if f.holdA then s.core.mtx.bufA
  else some
    { data := if f.unfold then s.unfoldRows t x h.k else s.tileRows a (fmtPitch t.fmta) h.la h.rows
      scales := if fmtMx t.fmta then s.localBytes t.scla.toNat (scaleLen h.rows h.k) else []
      fmt := BitVec.ofNat 4 (fmtCode t.fmta), mx := fmtMx t.fmta, k := h.k, table := t.cbook.extractLsb' 0 2 }

/-- The B operand that a step uses (R301, R302, R306, R307). -/
def State.operandB (s : State) (t : Attach) (f : StepForm) (h : StepShape) (b : Nat) : Option OperandBuf :=
  if f.holdB then s.core.mtx.bufB
  else
    let xs := s.core.portBytes
    let local_ := if fmtMx t.fmtb then s.localBytes t.sclb.toNat (scaleLen 16 h.k) else []
    some
      { data := if f.stream then xs.take (16 * h.lb) else s.tileRows b (fmtPitch t.fmtb) h.lb 16
        scales := if f.stream then (xs.take (streamNeed t h)).drop (16 * h.lb) else local_
        fmt := BitVec.ofNat 4 (fmtCode t.fmtb), mx := fmtMx t.fmtb, k := h.k, table := t.cbook.extractLsb' 2 2 }

/-! ## The sums (R55, R56, R311) -/

/-- Bytes of an accumulator element. -/
def AccFmt.size (f : AccFmt) : Nat := if f = .f64 then 8 else 4

/-- An accumulator element as it stands. -/
def accElem (f : AccFmt) (t : Tile) (n : Nat) : Nat := bitsAt t.toNat (8 * f.size * n) (8 * f.size)

/-- One element of a step: the exact sum of the accumulator and the products, rounded once. -/
def stepElem (f : AccFmt) (rm : BitVec 3) (old : Nat) (a b : List FVal) : Nat × BitVec 6 :=
  let ps := (a.zip b).map fun (x, y) => mulF x y
  match f with
  | .i32 => (wrapN (ps.foldl (fun n p => n + p.intAt 0) (sext old 32)) 32, 0)
  | _ =>
    let g := if f = .f64 then fp64 else fp32
    let e := sumX (g.decode old :: ps) rm
    let (c, fl) := g.round rm 0 e.1
    (c, e.2 ||| fl)

/-- The tile of a step and its flags. -/
def stepTile (h : StepShape) (rm : BitVec 3) (old : Tile) (rowA rowB : Nat → List FVal) : Tile × BitVec 6 :=
  let bs := (List.range 16).map rowB
  let es := (List.range h.rows).flatMap fun i =>
    let a := rowA i
    bs.zipIdx.map fun (b, j) => stepElem h.acc rm (accElem h.acc old (16 * i + j)) a b
  (BitVec.ofNat 8192 (packCodes (8 * h.acc.size) (es.map (·.1))), es.foldl (fun fl e => fl ||| e.2) 0)

/-! ## Starting a step (R19, R299, R309, R311) -/

/-- A pending tile step, taken apart. -/
structure StepOp where
  acc : BitVec 2
  rm : BitVec 2
  form : StepForm
  a : Nat
  b : Nat
  desc : BitVec 512
  parked : Bool
deriving DecidableEq, Repr

/-- The tile step of an operation. -/
def Op.step? (o : Op) : Option StepOp :=
  match o.body with
  | .mma acc rm u v w x a b desc parked =>
    some { acc := acc, rm := rm, form := { unfold := u, stream := v, holdB := w, holdA := x }, a := a, b := b,
           desc := desc, parked := parked }
  | _ => none

/-- Does a held operand differ from what the step samples (R309, case 4)? -/
def heldDiffers (x : Word) (k : Nat) (o : Option OperandBuf) : Bool :=
  match o with
  | some b => b.fmt.toNat != fmtCode x || b.mx != fmtMx x || b.k != k
  | none => false

/-- The lowest FORMAT case of a step that has a shape (R309). -/
def Core.formatCase (c : Core) (t : Attach) (p : StepOp) (h : StepShape) : Option Nat :=
  let f := p.form
  if (f.holdA && c.mtx.bufA.isNone) || (f.holdB && c.mtx.bufB.isNone) then some 3
  else if (f.holdA && heldDiffers t.fmta h.k c.mtx.bufA) || (f.holdB && heldDiffers t.fmtb h.k c.mtx.bufB) then some 4
  else if f.unfold && !unfoldOk t p.desc then some 5
  else if pitchBad t f h then some 6
  else none

/-- The check of the scale arrays when the step starts (R19), under the mode and the LSLIM as they stand then, since a
helper reads state at the point of its call (R34; DEDUCED, notes/assumptions/18.md). -/
def State.scaleCheck (s : State) (t : Attach) (f : StepForm) : Option Trap :=
  (scaleSpans t f).findSome? fun (x : Span) => spanCheck s.priv s.core.ctl.lslim x.lo x.len 1

/-- Do the first `n` bytes of the stream port hold an uncorrectable error (R379)? -/
def portPoison : Nat → List PortSeg → Bool
  | _, [] => false
  | n, x :: r => decide (0 < n) && (x.bad || portPoison (n - x.data.length) r)

/-- Are the port bytes that a step takes all there (R306)? -/
def Core.portReady (c : Core) (o : Op) (p : StepOp) : Bool :=
  match stepShape o.att with
  | .ok h => decide (portNeed o.att p.form h ≤ c.portBytes.length)
  | .error _ => true

/-- The late fault with which a step does not execute (R19, R309, R379). An error in its port bytes, which have no address,
is reported with EINFO 0 (DESIGN CHOICE, notes/assumptions/38.md). -/
def State.stepFault (s : State) (o : Op) (p : StepOp) : Option Trap :=
  match stepShape o.att with
  | .error n => some (Cause.format, n)
  | .ok h =>
    match s.core.formatCase o.att p h with
    | some n => some (Cause.format, n)
    | none => ((s.scaleCheck o.att p.form).or
        ((o.lread.findSome? fun (x : Span) => s.readError x.lo x.len).map fun a => (Cause.uncorr, a))).or
        (if s.core.portReady o p ∧ portPoison (portNeed o.att p.form h) s.core.mtx.port then some (Cause.uncorr, 0) else none)

/-- The first matrix operation of a core in issue order (R298). -/
def Core.matrixHead (c : Core) : Option Op := c.ops.find? (·.body.isMatrix)

/-- The step at the head of a core's queue, when it can start (R244, R298, R306). -/
def State.readyStep (s : State) (parked : Bool) : Option (Op × StepOp) :=
  match s.core.matrixHead with
  | none => none
  | some o =>
    match o.step? with
    | none => none
    | some p =>
      if o.started ∨ s.core.mtx.run.isSome ∨ s.core.blocked o ∨ p.parked ≠ parked then none
      else if (s.stepFault o p).isSome ∨ s.core.portReady o p then some (o, p)
      else none

/-- The accumulator tile of a core. -/
def Core.accTile (c : Core) (n : BitVec 2) : Tile := c.mtx.acc.get n.toFin

/-- The run of a step: its operands are read, and its result is formed from them (R303, R310, R311). -/
def State.runStep (s : State) (o : Op) (p : StepOp) (h : StepShape) : Option MtxRun :=
  let unit := unitOf s.core.addr.toNat
  match s.operandA o.att p.form h p.a p.desc, s.operandB o.att p.form h p.b with
  | some a, some b =>
    let (tile, fl) := stepTile h (p.rm.setWidth 3) (s.core.accTile p.acc)
      (a.row o.att.topx (s.tableByte unit a.table.toNat)) (b.row o.att.topx (s.tableByte unit b.table.toNat))
    some { seq := o.seq, acc := p.acc, result := tile, flags := fl, bufA := some a, bufB := some b,
           portBytes := portNeed o.att p.form h, reran := false }
  | _, _ => none

/-- A step that has been chosen starts, or faults (R19, R309, R311, R379). -/
def State.startStep (s : State) (o : Op) (p : StepOp) : State :=
  match s.stepFault o p with
  | some t => s.lateFault o.seq t.1 t.2
  | none =>
    if s.core.accError p.acc then s.accFault o.seq p.acc
    else match stepShape o.att with
    | .error _ => s
    | .ok h =>
      match s.runStep o p h with
      | none => s
      | some r => s.on fun c =>
          let c1 := (c.modOp o.seq fun (q : Op) => { q with started := true }).shadowClean p.acc
          let tile := c.accTile p.acc
          { c1 with mtx := { c1.mtx with
              shadow := c1.mtx.shadow.set p.acc.toNat tile p.acc.isLt, run := some r } }

/-- The core at a position of a cluster (R144). -/
def clusterCore (unit pos : Nat) : Nat :=
  let cl := unit % 32
  tileAddr (unit / 256) (unit / 32 % 8) (2 * (cl / 4) + pos / 4) (4 * (cl % 4) + pos % 4)

/-- Can a core of a cluster start a step? -/
def State.canStart (s : State) (unit pos : Nat) : Bool :=
  ((s.focus (clusterCore unit pos)).readyStep false).isSome

/-- The position served next by the weighted round robin: the one being served while its weight lasts, else the next
in increasing position (R299). -/
def State.nextServed (s : State) (unit : Nat) : Option Nat :=
  let u := agetD s.units unit { pos := 7, left := 0 }
  if 0 < u.left ∧ s.canStart unit u.pos then some u.pos
  else match (List.range 8).filter (s.canStart unit) with
    | [] => none
    | x :: xs => some (((x :: xs).find? (u.pos < ·)).getD x)

/-- The round robin after a position is served. -/
def State.serve (s : State) (unit pos : Nat) : State :=
  let u := agetD s.units unit { pos := 7, left := 0 }
  let left := if 0 < u.left ∧ u.pos = pos then u.left - 1 else (s.getCore (clusterCore unit pos)).info.weight - 1
  { s with units := aset s.units unit { pos := pos, left := left } }

/-- TILE_STEP_START. -/
def execTileStepStart (eng : Nat) (s : State) : Out :=
  match s.nextServed eng with
  | none => .next s
  | some pos =>
    .next ((s.serve eng pos).at (clusterCore eng pos) fun t => match t.readyStep false with
      | some (o, p) => t.startStep o p
      | none => t)

/-- STREAMED_STEP_REPLAY: a parked step runs whole once the port is open again and holds its bytes (R313). -/
def execStreamedStepReplay (c : Nat) (s : State) : Out :=
  .next (s.at c fun t => match t.readyStep true with
    | some (o, p) => if t.core.mtx.portStopped then t else t.startStep o { p with parked := false }
    | none => t)

/-! ## Completion (R311, R312) -/

/-- The first `n` bytes leave the port. -/
def dropPort : Nat → List PortSeg → List PortSeg
  | _, [] => []
  | n, x :: r => if x.data.length ≤ n then dropPort (n - x.data.length) r else { x with data := x.data.drop n } :: r

/-- A tile of a core set. -/
def Core.setAcc (c : Core) (n : BitVec 2) (t : Tile) : Core :=
  { c with mtx := { c.mtx with acc := c.mtx.acc.set n.toNat t n.isLt } }

/-- The tile restored from its shadow (R311). -/
def Core.restoreAcc (c : Core) (n : BitVec 2) : Core := c.setAcc n (c.mtx.shadow.get n.toFin)

/-- The run is over; its port bytes stay. -/
def Core.dropRun (c : Core) : Core := { c with mtx := { c.mtx with run := none } }

/-- The port bytes of a run leave, and the run is over: it completes, or faults with MTX_CHECK (R295, R312). -/
def Core.endRun (c : Core) (r : MtxRun) : Core :=
  { c with mtx := { c.mtx with port := dropPort r.portBytes c.mtx.port, run := none } }

/-- A step completes: tile, buffers, flags, entry. -/
def State.stepDone (s : State) (r : MtxRun) : State :=
  ((s.on fun c =>
    let c1 := ((c.setAcc r.acc r.result).accClean r.acc).endRun r
    { c1 with mtx := { c1.mtx with bufA := r.bufA, bufB := r.bufB } }).setFlags r.flags).opDone r.seq

/-- One more rerun is counted (R312, R380). -/
def Core.countRerun (c : Core) : Core :=
  { c with faults := { c.faults with mtxrerun := satInc c.faults.mtxrerun } }

/-- A second mismatch: the tile is restored and the step faults (R312). -/
def State.stepFails (s : State) (r : MtxRun) : State :=
  (s.on fun c =>
    let c1 := (c.restoreAcc r.acc).endRun r
    { c1 with faults := { c1.faults with mtxfail := satInc c1.faults.mtxfail } }).lateFault r.seq Cause.mtxCheck
    r.acc.toNat

/-- The end of a run in which `n` checksum mismatches arise: none completes it, the first reruns it whole, a second
fails it (R312); a restore that meets an error in the shadow faults it with UNCORR (R379), which takes nothing from the port (R295). -/
def State.stepEnds (s : State) (n : Nat) : State :=
  match s.core.mtx.run with
  | none => s
  | some r =>
    if n = 0 then s.stepDone r
    else if s.core.shadowError r.acc then (s.on Core.dropRun).accFault r.seq r.acc
    else if r.reran then s.stepFails r
    else
      let t := s.on fun c => { (c.restoreAcc r.acc).countRerun with mtx := { (c.restoreAcc r.acc).mtx with
        run := some { r with reran := true } } }
      if n = 1 then t else t.stepFails r

/-- Has the matrix unit of a core's cluster failed: its checksums then never match (R393; notes/assumptions/73.md)? -/
def State.unitFails (s : State) (c : Nat) : Bool := s.anyBroken && (s.getPkg (pkgOf c)).unitBroken (dieOf c) (clusterOf c)

/-- TILE_STEP_COMPLETE. -/
def execTileStepComplete (c mismatches : Nat) (s : State) : Out :=
  .next (s.at c (·.stepEnds (if s.unitFails c then 2 else mismatches)))

/-! ## The other operations (R310, R342, R343) -/

/-- The destination format of `mfmt` that is a float (R343). -/
def mfmtFloat (dst : BitVec 4) (topx : Bool) : Fmt :=
  match dst.toNat with
  | 0x9 => fp32
  | 0xA => bf16
  | 0xB => fp16
  | 0xC => fmtOf 4 topx
  | _ => fmtOf 5 topx

/-- One element converted (R343). -/
def mfmtElem (src : BitVec 2) (dst : BitVec 4) (rm : BitVec 3) (topx : Bool) (x : Nat) : Nat × BitVec 6 :=
  if src = 2 then
    let w := 8 * mfmtDstSize dst
    let (lo, hi) := intRange (dst != 4) w
    (wrapN (max lo (min hi (sext x 32))) w, 0)
  else
    let e := ((if src = 1 then fp64 else fp32).decode x).exact
    let (c, fl) := (mfmtFloat dst topx).round rm 0 e.1
    (c, e.2 ||| fl)

/-- A converted tile: its bytes and flags. -/
def mfmtTile (t : Tile) (src : BitVec 2) (dst : BitVec 4) (rm : BitVec 3) (topx : Bool) : List Byte × BitVec 6 :=
  let n := mfmtSrcSize src
  let es := (List.range (1024 / n)).map fun i => mfmtElem src dst rm topx (bitsAt t.toNat (8 * n * i) (8 * n))
  (es.flatMap fun e => natLe (mfmtDstSize dst) e.1, es.foldl (fun fl e => fl ||| e.2) 0)

/-- Does a step that has started in a cluster use a codebook table (R310)? -/
def State.tableInUse (s : State) (unit table : Nat) : Bool :=
  (List.range 8).any fun pos => match (s.getCore (clusterCore unit pos)).mtx.run with
    | some r =>
      let uses := fun (o : Option OperandBuf) => match o with
        | some b => b.fmt == 9 && b.table.toNat == table
        | none => false
      uses r.bufA || uses r.bufB
    | none => false

/-- A read of the store that an operation makes: an error in it is its late fault (R379). -/
def State.engineRead (s : State) (seq : BitVec 16) (a n : Nat) (k : List Byte → State) : State :=
  match s.readError a n with
  | some x => s.lateFault seq Cause.uncorr x
  | none => k (s.localBytes a n)

/-- A matrix operation other than a step, performed. -/
def State.performMatrix (s : State) (o : Op) : State :=
  match o.body with
  | .mzero acc => (s.on fun c => (c.setAcc acc 0).accClean acc).opDone o.seq
  | .mlda acc a => s.engineRead o.seq a 1024 fun xs =>
      (s.on fun c => (c.setAcc acc (BitVec.ofNat 8192 (leNat xs))).accClean acc).opDone o.seq
  | .msta acc a =>
    if s.core.accError acc then s.accFault o.seq acc
    else (s.resultBytes a (natLe 1024 (s.core.accTile acc).toNat)).opDone o.seq
  | .mfmt acc src rm dst a =>
    if s.core.accError acc then s.accFault o.seq acc
    else
      let (xs, fl) := mfmtTile (s.core.accTile acc) src dst (rm.setWidth 3) o.att.topx
      ((s.resultBytes a xs).setFlags fl).opDone o.seq
  | .mcbld a table =>
    let unit := unitOf s.core.addr.toNat
    if s.tableInUse unit table then s
    else s.engineRead o.seq a 2048 fun xs =>
      (s.withMem (·.writeBytes (keyBook unit (table * 2048)) xs)).opDone o.seq
  | _ => s

/-- MATRIX_OPERATION_PERFORM at the core in focus: the operation at the head of its queue, unless an earlier one that
conflicts is pending (R244, R298). -/
def State.matrixPerform (s : State) : State :=
  match s.core.matrixHead with
  | some o => if s.core.blocked o then s else s.performMatrix o
  | none => s

/-- MATRIX_OPERATION_PERFORM. -/
def execMatrixOperationPerform (c : Nat) (s : State) : Out := .next (s.at c State.matrixPerform)

end Sys2Proof.Machine
end

