-- ==== Sys2Proof/Machine/Frame.lean ====
section
/-!
DEFINITION. Sys2Proof/Machine/Frame.lean: fetching a word (R26) and repeat frames: capture, renaming and replay (R22,
R77 to R81).
-/

namespace Sys2Proof.Machine

/-! ## Fetching (R26) -/

/-- The fetch buffer filled with the block of an address. -/
def State.fillFetch (s : State) (a : Nat) : State :=
  let blk := a / 64 * 64
  let x : BitVec 512 := BitVec.ofNat 512 (s.localRead blk 64)
  s.on fun c => { c with fbuf := some (BitVec.ofNat 21 blk, x) }

/-- The word at an address: from the fetch buffer or the store where the buffer holds its block, whole either way
(notes/assumptions/8.md), else from the store, which fills the buffer. -/
def State.fetchWord (s : State) (a : Nat) : BitVec 32 × State :=
  let new : BitVec 32 := BitVec.ofNat 32 (s.localRead a 4)
  match s.core.fbuf with
  | none => (new, s.fillFetch a)
  | some (blk, x) =>
    if blk.toNat ≠ a / 64 * 64 then (new, s.fillFetch a)
    else
      let old : BitVec 32 := BitVec.ofNat 32 (bitsAt x.toNat (8 * (a % 64)) 32)
      if old = new then (new, s)
      else
        let (n, t) := s.fresh
        if Config.freeBool n then (old, t) else (new, t.fillFetch a)

/-- The checks of a fetch (R26, R33, R379). -/
def State.fetchCheck (s : State) (a : Nat) : Option Trap :=
  match s.localCheck a 4 .fetch with
  | some t => some t
  | none => if s.poisonHit (s.core.localKey a) 4 then some (Cause.uncorr, a) else none

/-! ## Capturable instructions and their renaming (R77, R78) -/

/-- The strides of a replay, already multiplied by its number (R78). -/
structure Rename where
  sd : BitVec 5
  sa : BitVec 5
  sb : BitVec 5
  sc : BitVec 5
deriving DecidableEq, Repr

/-- The renaming of replay `k` of a frame. -/
def Frame.rename (f : Frame) (k : Nat) : Rename :=
  let x : BitVec 5 := BitVec.ofNat 5 k
  { sd := x * f.sd, sa := x * f.sa, sb := x * f.sb, sc := x * f.sc }

/-- A vd field renamed. -/
def Rename.d (r : Rename) (x : BitVec 5) : BitVec 5 := x + r.sd
/-- A va field renamed. -/
def Rename.a (r : Rename) (x : BitVec 5) : BitVec 5 := x + r.sa
/-- A vb field renamed. -/
def Rename.b (r : Rename) (x : BitVec 5) : BitVec 5 := x + r.sb
/-- A vc field renamed. -/
def Rename.c (r : Rename) (x : BitVec 5) : BitVec 5 := x + r.sc

/-- An instruction as replay `q` executes it: its v fields renamed; `none` for one that is not capturable (R77, R78). -/
def replayVec (q : Rename) (i : Instr) (s : State) : Option Out :=
  match i with
  | .vadd d a b m w => some (execVadd (q.d d) (q.a a) (q.b b) m w s)
  | .vsub d a b m w => some (execVsub (q.d d) (q.a a) (q.b b) m w s)
  | .vaddsSigned d a b m w => some (execVaddsSigned (q.d d) (q.a a) (q.b b) m w s)
  | .vaddsUnsigned d a b m w => some (execVaddsUnsigned (q.d d) (q.a a) (q.b b) m w s)
  | .vsubsSigned d a b m w => some (execVsubsSigned (q.d d) (q.a a) (q.b b) m w s)
  | .vsubsUnsigned d a b m w => some (execVsubsUnsigned (q.d d) (q.a a) (q.b b) m w s)
  | .vmul d a b m w => some (execVmul (q.d d) (q.a a) (q.b b) m w s)
  | .vmulhSigned d a b m w => some (execVmulhSigned (q.d d) (q.a a) (q.b b) m w s)
  | .vmulhUnsigned d a b m w => some (execVmulhUnsigned (q.d d) (q.a a) (q.b b) m w s)
  | .vminSigned d a b m w => some (execVminSigned (q.d d) (q.a a) (q.b b) m w s)
  | .vminUnsigned d a b m w => some (execVminUnsigned (q.d d) (q.a a) (q.b b) m w s)
  | .vmaxSigned d a b m w => some (execVmaxSigned (q.d d) (q.a a) (q.b b) m w s)
  | .vmaxUnsigned d a b m w => some (execVmaxUnsigned (q.d d) (q.a a) (q.b b) m w s)
  | .vand d a b m w => some (execVand (q.d d) (q.a a) (q.b b) m w s)
  | .vor d a b m w => some (execVor (q.d d) (q.a a) (q.b b) m w s)
  | .vxor d a b m w => some (execVxor (q.d d) (q.a a) (q.b b) m w s)
  | .vandn d a b m w => some (execVandn (q.d d) (q.a a) (q.b b) m w s)
  | .vsll d a b m w => some (execVsll (q.d d) (q.a a) (q.b b) m w s)
  | .vsrl d a b m w => some (execVsrl (q.d d) (q.a a) (q.b b) m w s)
  | .vsra d a b m w => some (execVsra (q.d d) (q.a a) (q.b b) m w s)
  | .vabs d a m w => some (execVabs (q.d d) (q.a a) m w s)
  | .vsum d a b m w => some (execVsum (q.d d) (q.a a) (q.b b) m w s)
  | .vfadd d a b m t => some (execVfadd (q.d d) (q.a a) (q.b b) m t s)
  | .vfsub d a b m t => some (execVfsub (q.d d) (q.a a) (q.b b) m t s)
  | .vfmul d a b m t => some (execVfmul (q.d d) (q.a a) (q.b b) m t s)
  | .vfdiv d a b m t => some (execVfdiv (q.d d) (q.a a) (q.b b) m t s)
  | .vfsqrt d a m t => some (execVfsqrt (q.d d) (q.a a) m t s)
  | .vfmin d a b m t => some (execVfmin (q.d d) (q.a a) (q.b b) m t s)
  | .vfmax d a b m t => some (execVfmax (q.d d) (q.a a) (q.b b) m t s)
  | .vfabs d a m t => some (execVfabs (q.d d) (q.a a) m t s)
  | .vfneg d a m t => some (execVfneg (q.d d) (q.a a) m t s)
  | .vfsum d a b m t => some (execVfsum (q.d d) (q.a a) (q.b b) m t s)
  | .vfsumw d a b m t => some (execVfsumw (q.d d) (q.a a) (q.b b) m t s)
  | .vfma d a b c m t => some (execVfma (q.d d) (q.a a) (q.b b) (q.c c) m t s)
  | .vfms d a b c m t => some (execVfms (q.d d) (q.a a) (q.b b) (q.c c) m t s)
  | .vcmpEq d a b m t => some (execVcmpEq d (q.a a) (q.b b) m t s)
  | .vcmpNe d a b m t => some (execVcmpNe d (q.a a) (q.b b) m t s)
  | .vcmpLt d a b m t => some (execVcmpLt d (q.a a) (q.b b) m t s)
  | .vcmpLe d a b m t => some (execVcmpLe d (q.a a) (q.b b) m t s)
  | .vcmpGt d a b m t => some (execVcmpGt d (q.a a) (q.b b) m t s)
  | .vcmpGe d a b m t => some (execVcmpGe d (q.a a) (q.b b) m t s)
  | .vcmpUn d a b m t => some (execVcmpUn d (q.a a) (q.b b) m t s)
  | .mand d a b => some (execMand d a b s)
  | .mor d a b => some (execMor d a b s)
  | .mxor d a b => some (execMxor d a b s)
  | .mandn d a b => some (execMandn d a b s)
  | .mnot d a => some (execMnot d a s)
  | .vcvtEl d a r m x t0 => some (execVcvtEl (q.d d) (q.a a) r m x t0 s)
  | .vcvtPack d a r x t0 => some (execVcvtPack (q.d d) (q.a a) r x t0 s)
  | .vcvtUnpack d a r x t0 => some (execVcvtUnpack (q.d d) (q.a a) r x t0 s)
  | .vperm d a b m w => some (execVperm (q.d d) (q.a a) (q.b b) m w s)
  | .vdup d a b m w => some (execVdup (q.d d) (q.a a) (q.b b) m w s)
  | .vmov d a m w => some (execVmov (q.d d) (q.a a) m w s)
  | .vzip d a b m w => some (execVzip (q.d d) (q.a a) (q.b b) m w s)
  | .vunzip d a b m w => some (execVunzip (q.d d) (q.a a) (q.b b) m w s)
  | .vcompress d a m w => some (execVcompress (q.d d) (q.a a) m w s)
  | .vexpand d a m w => some (execVexpand (q.d d) (q.a a) m w s)
  | _ => none

/-- The v registers that replay `q` of an instruction names, in the order vd, va, vb, vc (R22); `none` for one that is
not capturable. -/
def replayRegs (q : Rename) (i : Instr) : Option (List (BitVec 5)) :=
  match i with
  | .vadd d a b _ _ | .vsub d a b _ _ | .vaddsSigned d a b _ _ | .vaddsUnsigned d a b _ _
  | .vsubsSigned d a b _ _ | .vsubsUnsigned d a b _ _ | .vmul d a b _ _ | .vmulhSigned d a b _ _
  | .vmulhUnsigned d a b _ _ | .vminSigned d a b _ _ | .vminUnsigned d a b _ _ | .vmaxSigned d a b _ _
  | .vmaxUnsigned d a b _ _ | .vand d a b _ _ | .vor d a b _ _ | .vxor d a b _ _ | .vandn d a b _ _
  | .vsll d a b _ _ | .vsrl d a b _ _ | .vsra d a b _ _ | .vsum d a b _ _ | .vfadd d a b _ _
  | .vfsub d a b _ _ | .vfmul d a b _ _ | .vfdiv d a b _ _ | .vfmin d a b _ _ | .vfmax d a b _ _
  | .vfsum d a b _ _ | .vfsumw d a b _ _ | .vperm d a b _ _ | .vdup d a b _ _ | .vzip d a b _ _
  | .vunzip d a b _ _ => some [q.d d, q.a a, q.b b]
  | .vabs d a _ _ | .vfsqrt d a _ _ | .vfabs d a _ _ | .vfneg d a _ _ | .vcvtEl d a _ _ _ _
  | .vmov d a _ _ | .vcompress d a _ _ | .vexpand d a _ _ => some [q.d d, q.a a]
  | .vfma d a b c _ _ | .vfms d a b c _ _ => some [q.d d, q.a a, q.b b, q.c c]
  | .vcmpEq _ a b _ _ | .vcmpNe _ a b _ _ | .vcmpLt _ a b _ _ | .vcmpLe _ a b _ _ | .vcmpGt _ a b _ _
  | .vcmpGe _ a b _ _ | .vcmpUn _ a b _ _ => some [q.a a, q.b b]
  | .mand _ _ _ | .mor _ _ _ | .mxor _ _ _ | .mandn _ _ _ | .mnot _ _ => some []
  | .vcvtPack d a _ _ t0 => some (q.d d :: cvtRegs t0 (q.a a))
  | .vcvtUnpack d a _ x _ => some (cvtRegs x (q.d d) ++ [q.a a])
  | _ => none

/-- A captured word: a vector instruction, or an `mma` with its fields. -/
inductive Captured where
  | vec (i : Instr)
  | mma (c : BitVec 2) (a b : BitVec 5) (r : BitVec 2) (u v w x : BitVec 1)

/-- The vector instruction of a word of majors VINT to VPERM, by the decoder's own tables. -/
def captureVec (w : BitVec 32) : Option Instr :=
  let d := wordD w
  let a := wordA w
  let b := wordB w
  let lo := wordLo w
  let i := match wordMajor w with
    | 0x1F => decVint d a b lo
    | 0x20 => decVflt d a b lo
    | 0x21 => decVfma d a b lo
    | 0x22 => decVcmp d a b lo
    | 0x23 => decVcvt d a b lo
    | 0x24 => decVperm d a b lo
    | _ => .error .reservedMajor
  match i with
  | .ok i => if i.wf && (replayRegs { sd := 0, sa := 0, sb := 0, sc := 0 } i).isSome then some i else none
  | .error _ => none

/-- What a word captures; `none` where it is not capturable or would raise ILLEGAL (R77). -/
def capture (w : BitVec 32) : Option Captured :=
  let d := wordD w
  let a := wordA w
  let b := wordB w
  let lo := wordLo w
  if wordMajor w = 0x34 then
    let f := fun (i : Nat) => lo.extractLsb' i 1
    if lo.extractLsb' 6 5 = 0 ∧ d.extractLsb' 2 3 = 0 ∧ mmaOk a b (f 3) (f 2) (f 1) (f 0) then
      some (.mma (d.extractLsb' 0 2) a b (lo.extractLsb' 4 2) (f 3) (f 2) (f 1) (f 0))
    else none
  else (captureVec w).map .vec

/-- The v registers of a captured word in a replay. -/
def Captured.regs (r : Rename) (c : Captured) : List (BitVec 5) :=
  match c with
  | .vec i => (replayRegs r i).getD []
  | .mma .. => []

/-! ## RFRM (R22, R77, R81) -/

/-- Words fetched one after the other. -/
def State.fetchWords (s : State) (a : Nat) : Nat → List (BitVec 32) × State
  | 0 => ([], s)
  | n + 1 =>
    let (w, t) := s.fetchWord a
    let (ws, u) := t.fetchWords (a + 4) n
    (w :: ws, u)

/-- The frame that `rfrm` sets up from its count, stride word and captured words. -/
def Frame.make (t x : Word) (words : List (BitVec 32)) (pc : LAddr) : Frame :=
  { words := words, total := t.toNat, done := 0, sd := x.extractLsb' 0 5, sa := x.extractLsb' 5 5,
    sb := x.extractLsb' 10 5, sc := x.extractLsb' 15 5, at_ := pc }

/-- Step 1 of R77. -/
def frameCheck (t x : Word) : Option Trap :=
  if t = 0 ∨ 4096 < t.toNat then some (Cause.frame, t.toNat)
  else if x.toNat / 2 ^ 20 ≠ 0 then some (Cause.frame, x.toNat)
  else none

/-- Step 2 of R77 over `n` words from an address. -/
def State.framesFetch (s : State) (a n : Nat) : Option Trap :=
  ((List.range n).map fun i => a + 4 * i).findSome? s.fetchCheck

/-- Step 3 of R77. -/
def framesDecode (a : Nat) (ws : List (BitVec 32)) : Option Trap :=
  ws.zipIdx.findSome? fun (w, i) => if (capture w).isNone then some (Cause.frame, a + 4 * i) else none

/-- Step 4 of R77: the VLIM check over the replays in order (R22); replays repeat modulo 32. -/
def State.framesVcheck (s : State) (f : Frame) : Option Trap :=
  s.vcheck ((List.range (min f.total 32)).flatMap fun k => f.words.flatMap fun w =>
    match capture w with
    | some c => c.regs (f.rename k)
    | none => [])

/-- `rfrm` with its captured words known: the frame begins. -/
def State.beginFrame (s t : State) (x y : Word) (ws : List (BitVec 32)) : Out :=
  let f := Frame.make x y ws s.pc
  t.checked ((framesDecode (s.pc.toNat + 4) ws).or (t.framesVcheck f)) (t.on fun c => { c with frame := some f }).adv

/-- `rfrm`. -/
def execRfrm (n : BitVec 4) (a b : BitVec 5) (s : State) : Out :=
  let x := s.g a
  let y := s.g b
  let k := n.toNat + 1
  match (frameCheck x y).or (s.framesFetch (s.pc.toNat + 4) k) with
  | some t => .next (s.trap t)
  | none =>
    let (ws, t) := s.fetchWords (s.pc.toNat + 4) k
    s.beginFrame t x y ws

/-- Step 2 of R77 in a follower: the checks of the captured words' addresses under its own mode and LSLIM, without a
read of its own store (R146). -/
def State.framesCheck (s : State) (a n : Nat) : Option Trap :=
  ((List.range n).map fun i => a + 4 * i).findSome? (s.localCheck · 4 .fetch)

/-- `rfrm` in a follower: it takes the leader's words, checked on its own state; one whose count or stride word differs
leaves the gang and executes its own frame alone (R81, R146). -/
def State.followFrame (s : State) (n : BitVec 4) (a b : BitVec 5) (x y : Word) (ws : List (BitVec 32)) : Out :=
  if s.g a = x ∧ s.g b = y then
    match s.framesCheck (s.pc.toNat + 4) (n.toNat + 1) with
    | some t => .next (s.trap t)
    | none => s.beginFrame s x y ws
  else execRfrm n a b s.leaveGang

/-! ## FRAME_REPLAY (R78, R80) -/

/-- The frame's next captured execution done, at a pc; the frame ends with the last. -/
def State.frameNext (s : State) (f : Frame) : State :=
  let k := f.done + 1
  if f.words.length * f.total ≤ k then
    (s.on fun c => { c with frame := none }).setPc (f.at_ + 4 + 4 * BitVec.ofNat 21 f.words.length)
  else
    (s.on fun c => { c with frame := some { f with done := k } }).setPc
      (f.at_ + 4 + 4 * BitVec.ofNat 21 (k % f.words.length))

/-- A captured `mma`: it takes a sequence number; a check that would trap marks its step faulted at once (R80). `none`
while the sequencer stalls. A slot whose late fault has not been taken stalls it for good: R31 would take that fault
here and R80 holds it to the end of the frame (DESIGN CHOICE, notes/assumptions/19.md). -/
def State.replayMma (s : State) (c : BitVec 2) (a b : BitVec 5) (r : BitVec 2) (f : StepForm) : Option State :=
  let pa := (s.g a).toNat
  let pb := (s.g b).toNat
  let go := s.dispatchTo 0x34 0 0 (s.mmaSpans f pa pb) (s.mmaBody c f r pa pb)
  if 8 ≤ s.core.matrixPlaces then none
  else match s.core.slotAnswer with
  | .stall => none
  | .double x => some (s.doubleTrap x)
  | .free =>
    match s.mmaCheck f pa pb with
    | none => some go
    | some t => some ((s.dispatchTo 0x34 0 0 OpSpans.none (s.mmaBody c f r pa pb)).lateFault s.core.ctl.drnext t.1 t.2)

/-- One captured execution; the flag says that the replay goes on. -/
def State.replayOne (s : State) (f : Frame) : State × Bool :=
  let k := f.done
  let w := f.words.getD (k % f.words.length) 0
  match capture w with
  | none => (s.frameNext f, true)
  | some (.vec i) =>
    match replayVec (f.rename (k / f.words.length)) i s with
    | some (.next t) => (t.frameNext f, true)
    | _ => (s.frameNext f, true)
  | some (.mma c a b r u v w x) =>
    match s.replayMma c a b r (stepForm u v w x) with
    | none => (s.waiting .other, false)
    | some t => if t.core.run = .running then (t.frameNext f, true) else (t, false)

/-- Captured executions up to the end of a replay, at most `n`. -/
def State.replayLoop (s : State) : Nat → State
  | 0 => s
  | n + 1 =>
    match s.core.frame with
    | none => s
    | some f =>
      let (t, go) := s.replayOne f
      if go then t.replayLoop n else t

/-- FRAME_REPLAY: one replay, or the rest of one that stalled. -/
def execFrameReplay (s : State) : Out :=
  match s.core.frame with
  | none => .next s
  | some f => .next (s.resumed.replayLoop (f.words.length - f.done % f.words.length))

end Sys2Proof.Machine
end

