-- ==== Sys2Proof/Machine/Members.lean ====
section
/-!
DEFINITION. Sys2Proof/Machine/Members.lean: who the members of a barrier are and which core decides its release (R148 to
R151, R188, R371, R412), with the fields of a launch record that this takes (R166).
-/

namespace Sys2Proof.Machine

/-! ## Fields -/

/-- `n` bits from byte `off` of a 64-byte record or header. -/
def recField (x : BitVec 512) (off n : Nat) : Nat := descField x off n

/-- GROWS (R166). -/
def Launch.grows (l : Launch) : Nat := recField l.record 0x08 8
/-- GCOLS (R166). -/
def Launch.gcols (l : Launch) : Nat := recField l.record 0x09 8
/-- NGROUPS (R166). -/
def Launch.ngroups (l : Launch) : Nat := recField l.record 0x0A 8
/-- JOINN (R166). -/
def Launch.joinn (l : Launch) : Nat := recField l.record 0x1E 16
/-- JOINTAG (R166). -/
def Launch.jointag (l : Launch) : Nat := recField l.record 0x20 32

/-- BRECT[N]. -/
def Core.brect (c : Core) (n : Nat) : Word := c.ctl.brect.toList.getD n 0
/-- BRECT.VALID (R148). -/
def brValid (x : Word) : Bool := bitOf x 47
/-- BRECT.CKPT. -/
def brCkpt (x : Word) : Bool := bitOf x 46
/-- BRECT.COMM. -/
def brComm (x : Word) : Bool := bitOf x 45
/-- BRECT.DOM. -/
def brDom (x : Word) : Bool := bitOf x 44
/-- BRECT.LEVEL. -/
def brLevel (x : Word) : Nat := bitsAt x.toNat 42 2
/-- BRECT.DIE. -/
def brDie (x : Word) : Nat := bitsAt x.toNat 32 3
/-- BRECT.ROWS. -/
def brRows (x : Word) : Nat := bitsAt x.toNat 16 5
/-- BRECT.COLS. -/
def brCols (x : Word) : Nat := bitsAt x.toNat 8 5
/-- BRECT.ROW0. -/
def brRow0 (x : Word) : Nat := bitsAt x.toNat 4 4
/-- BRECT.COL0. -/
def brCol0 (x : Word) : Nat := bitsAt x.toNat 0 4

/-- DOMAIN[LEVEL] of a core. -/
def Core.domainOf (c : Core) (level : Nat) : Word := c.ctl.domain.toList.getD level 0
/-- DOMAIN.VALID (R149). -/
def domValid (x : Word) : Bool := bitOf x 47
/-- DOMAIN.GLOBAL. -/
def domGlobal (x : Word) : Bool := bitOf x 46

/-! ## Groups and their cores -/

/-- The cores of a rectangle, row-major. -/
def rectCores (pkg die row col rows cols : Nat) : List Nat :=
  (List.range rows).flatMap fun i => (List.range cols).map fun j => tileAddr pkg die (row + i) (col + j)

/-- The cores of a placed group, row-major (R170). -/
def Launch.groupCores (l : Launch) (pkg : Nat) (g : Group) : List Nat :=
  rectCores pkg g.die g.row g.col l.grows l.gcols

/-- The name of the thread that a launch runs on a core. -/
def threadOn (num c : Nat) : Nat := num * 2 ^ 23 + c

/-- A launch of a package by number. -/
def Package.launch (p : Package) (num : Nat) : Option Launch := p.launches.find? (·.num == num)

/-- Is it a record that was refused, and waits for its status to be reported? -/
def Launch.refused (l : Launch) : Bool := l.status != 0 && l.groups.isEmpty

/-- Does a launch run: it has not been refused, and is not pre-empted? -/
def Launch.runs (l : Launch) : Bool := !l.refused && l.state != .preempted

/-- Every placed core of a launch. -/
def Launch.cores (l : Launch) (pkg : Nat) : List Nat := l.groups.flatMap (l.groupCores pkg)

/-- The placed group of a launch with an index. -/
def Launch.group (l : Launch) (k : Nat) : Option Group := l.groups.find? (·.idx == k)

/-! ## Joined packages (R149, R412) -/

/-- The launch of a package that belongs to a core's join: its own, or one of the same JOINN and JOINTAG (R149). -/
def State.joinedOn (s : State) (c : Core) (q : Nat) : Option Launch :=
  if q = pkgOf c.addr.toNat then (s.getPkg q).launch c.info.num
  else (s.getPkg q).launches.find? fun (l : Launch) =>
    l.joinn == c.info.joinn && l.jointag == c.info.jointag && decide (2 ≤ c.info.joinn)

/-- The packages of a core's join, in increasing number. -/
def State.joinPkgs (s : State) (c : Core) : List Nat :=
  (List.range 2048).filter fun q => (s.joinedOn c q).isSome

/-- The packages of a domain; none while the join is not complete. -/
def State.domainPkgs (s : State) (c : Core) (dom : Word) : Option (List Nat) :=
  if domGlobal dom then
    let l := s.joinPkgs c
    if l.length = c.info.joinn then some l else none
  else some [pkgOf c.addr.toNat]

/-- All the values of a list, if each is there. -/
def optAll {α : Type} : List (Option α) → Option (List α)
  | [] => some []
  | x :: xs => match x, optAll xs with
    | some a, some l => some (a :: l)
    | _, _ => none

/-- The member groups of a domain on one package, in increasing number; none while one has not been placed. -/
def Launch.domainGroups (l : Launch) (dom : Word) : Option (List Group) :=
  optAll (((List.range 16).filter fun k => bitOf dom (16 + k)).map l.group)

/-- The member groups of a DOM barrier with their packages and launches. -/
def State.memberGroups (s : State) (c : Core) (dom : Word) : Option (List (Nat × Launch × Group)) :=
  match s.domainPkgs c dom with
  | none => none
  | some qs => (optAll (qs.map fun (q : Nat) => match s.joinedOn c q with
      | some l => (l.domainGroups dom).map fun (gs : List Group) => gs.map fun (g : Group) => (q, l, g)
      | none => none)).map List.flatten

/-- The threads that are members of the barrier a core's BRECT value defines (R188); none while one is not known. -/
def State.members (s : State) (c : Core) (x : Word) : Option (List Nat) :=
  if brDom x then
    (s.memberGroups c (c.domainOf (brLevel x))).map fun (ms : List (Nat × Launch × Group)) =>
      ms.flatMap fun (q, l, g) => (l.groupCores q g).map (threadOn l.num)
  else
    some ((rectCores (pkgOf c.addr.toNat) (brDie x) (brRow0 x) (brCol0 x) (brRows x) (brCols x)).map
      (threadOn c.info.num))

/-- The core that decides the release of the barrier a core's BRECT value defines: the corner of the rectangle, or of
the lowest-numbered member group (R151, R188). -/
def State.decider (s : State) (c : Core) (x : Word) : Option Nat :=
  if brDom x then
    match s.memberGroups c (c.domainOf (brLevel x)) with
    | some ((q, _, g) :: _) => some (tileAddr q g.die g.row g.col)
    | _ => none
  else some (tileAddr (pkgOf c.addr.toNat) (brDie x) (brRow0 x) (brCol0 x))

/-- Clk from the last arrival to the release instant (R151, R412). -/
def State.releaseDelay (s : State) (c : Core) (x : Word) : Nat :=
  if brDom x then
    let dom := c.domainOf (brLevel x)
    let gs := (s.memberGroups c dom).getD []
    if domGlobal dom then
      if (gs.map fun (q, _, _) => podOf q).dedup.length ≤ 1 then 800 else 1600
    else if (gs.map fun (_, _, g) => g.die).dedup.length ≤ 1 then 68 else 300
  else 2 * (brRows x + brCols x) + 4

/-- The threads of a core's team: the members of the barrier with CKPT set (R371). -/
def State.teamOf (s : State) (c : Core) : List Nat :=
  match c.teamRect with
  | some x => (s.members c x).getD []
  | none => []

/-! ## Messages that reach their destination (R164, R178, R374) -/

/-- A message that reaches its destination's interface: undeliverable, and counted at its sender, or held for a team's
next commit unless a member sent it, or queued for its channel (R164, R178, R374). -/
def State.arrive (s : State) (m : Msg) : State :=
  let lost := s.countLost m.src
  match s.receiver m with
  | none => lost
  | some k =>
    match s.getThread k with
    | none => lost
    | some c =>
      if c.ctl.clim.toNat ≤ m.chan ∨ !s.coresReach (threadCore m.src) m.dst then lost
      else
        let member := (s.teamOf c).contains m.src
        s.atThread k (·.on fun c =>
          if c.ctl.status.ckpt && !member then { c with msgs := { c.msgs with held := c.msgs.held ++ [m] } }
          else { c with msgs := { c.msgs with iface := c.msgs.iface ++ [m] } })

/-- MESSAGE_ARRIVAL: the messages of one sender to one channel of one receiver keep their order, so an earlier one
must have arrived (R163). -/
def execMessageArrival (i : Nat) (s : State) : Out :=
  match s.mesh[i]? with
  | none => .next s
  | some m =>
    if (s.mesh.take i).any fun (x : Msg) => x.src == m.src && x.dst == m.dst && x.chan == m.chan then .next s
    else .next ({ s with mesh := s.mesh.eraseIdx i }.arrive m)

end Sys2Proof.Machine
end

