-- ==== Sys2Proof/Machine/Exchange.lean ====
section
/-!
DEFINITION. Sys2Proof/Machine/Exchange.lean: timetabled exchange: plans, phases, beats and their instructions (R154 to
R161, R193 to R199, R386, R387, R413).
-/

namespace Sys2Proof.Machine

/-! ## Plans (R155, R156) -/

/-- A plan entry: `beats` is their number, one more than the field. -/
structure PlanEntry where
  slot : Nat
  beats : Nat
  peer : Nat
  recv : Bool
  clean : Bool
deriving DecidableEq, Repr

/-- The entry in 8 bytes (R156). -/
def PlanEntry.ofNat (x : Nat) : PlanEntry :=
  { slot := bitsAt x 0 16, beats := bitsAt x 24 8 + 1, peer := bitsAt x 32 23, recv := x.testBit 16
    clean := bitsAt x 55 9 == 0 && bitsAt x 17 7 == 0 }

/-- The directory word of plan `k`. -/
def State.planWord (s : State) (k : Nat) : Nat := s.localRead (s.core.info.planbase + 8 + 8 * k) 8

/-- Where the entries of plan `k` start. -/
def State.planStart (s : State) (k : Nat) : Nat := s.core.info.planbase + 64 * bitsAt (s.planWord k) 0 16

/-- COUNT of plan `k`. -/
def State.planCount (s : State) (k : Nat) : Nat := bitsAt (s.planWord k) 16 16

/-- LENGTH of plan `k`. -/
def State.planLength (s : State) (k : Nat) : Nat := bitsAt (s.planWord k) 32 16

/-- Entry `j` of plan `k`, as it stands in the store. -/
def State.planEntry (s : State) (k j : Nat) : PlanEntry := PlanEntry.ofNat (s.localRead (s.planStart k + 8 * j) 8)

/-- The entries of plan `k` that lie in the store. -/
def State.planEntries (s : State) (k : Nat) : List PlanEntry :=
  ((List.range (min (s.planCount k) 4096)).filter fun j => s.planStart k + 8 * j + 8 ≤ 0x180000).map (s.planEntry k)

/-- The plan-set digest that travels with a ballot; 0 where the kernel has no plan area (DESIGN CHOICE,
notes/assumptions/36.md). -/
def State.planDigest (s : State) : BitVec 32 :=
  if s.core.info.plans = 0 then 0 else BitVec.ofNat 32 (s.localRead s.core.info.planbase 4)

/-- May a PEER stand in an entry: a core of this package, or through one of the COMM barriers given, of the join
(R413); in a team it must be a member (R374). -/
def State.peerOk (s : State) (rects : List Word) (peer : Nat) : Bool :=
  let c := s.core
  (pkgOf peer == pkgOf c.addr.toNat ||
    rects.any (fun x => brDom x && brLevel x == 3 && domGlobal (c.domainOf 3)) &&
      (s.joinPkgs c).contains (pkgOf peer)) &&
  (!c.ctl.status.ckpt || (s.teamOf c).any fun k => threadCore k == peer)

/-- The first entry of a list that breaks its plan: `prev` is the SLOT before it, `se` and `re` the first offsets free
for a send and a receive (R156). -/
def State.planScan (s : State) (k : Nat) (rects : List Word) : List Nat → Nat → Nat → Nat → Option Nat
  | [], _, _, _ => none
  | j :: r, prev, se, re =>
    if s.core.ctl.lslim.toNat < s.planStart k + 8 * j + 8 then some j
    else
      let e := s.planEntry k j
      let free := if e.recv then re else se
      if !e.clean || decide (s.planLength k < e.slot + e.beats) || decide (e.slot < free) || decide (e.slot < prev) ||
          !s.peerOk rects e.peer then some j
      else s.planScan k rects r e.slot (if e.recv then se else e.slot + e.beats) (if e.recv then e.slot + e.beats else re)

/-- Does the directory make plan `k` malformed (R156)? -/
def State.directoryBad (s : State) (k : Nat) : Bool :=
  let b := s.core.info.planbase
  bitsAt (s.planWord k) 48 16 != 0 || decide (4096 < s.planCount k) || s.planLength k == 0 ||
    s.localRead (b + 4) 4 != 0 || s.localRead (b + 0x48) 0x38 != 0

/-- The status of plan `k` as `ttplan` gives it (R199). -/
def State.planCheck (s : State) (rects : List Word) (k : Nat) : Nat :=
  if s.core.info.plans ≤ k then 1
  else if s.directoryBad k then 2
  else match s.planScan k rects (List.range (s.planCount k)) 0 0 0 with
  | some j => 2 + 256 * (j + 1)
  | none => 0

/-- The first uncorrectable error in the directory word of plan `k` and its first `n` entries (R379). -/
def State.planReadError (s : State) (k n : Nat) : Option Nat :=
  (s.readError (s.core.info.planbase + 8 + 8 * k) 8).or
    (s.readError (s.planStart k) (min (8 * n) (s.core.ctl.lslim.toNat - s.planStart k)))

/-- The first uncorrectable error in the bytes that a check of plan `k` reads: the directory, then the entries up to the
one that makes it malformed (R199, R379). -/
def State.planError (s : State) (rects : List Word) (k : Nat) : Option Nat :=
  let b := s.core.info.planbase
  let code := s.planCheck rects k
  if code = 1 then none
  else ((s.readError (b + 4) 4).or (s.readError (b + 0x48) 0x38)).or
    (s.planReadError k (if code = 0 then s.planCount k else code / 256))

/-! ## Waiting for a phase -/

/-- Does the core hold an unreleased arrival on a COMM barrier? -/
def Core.commArrival (c : Core) : Bool := c.sync.arr.toList.any fun a => match a with
  | some a => brComm a.rect
  | none => false

/-- A change to the barrier and exchange state. -/
def Core.modSync (c : Core) (f : Sync → Sync) : Core := { c with sync := f c.sync }

/-- A change to the open phase. -/
def Core.modPhase (c : Core) (f : Phase → Phase) : Core := c.modSync fun y => { y with phase := y.phase.map f }

/-! ## COMM and TTPLAN (R198, R199) -/

/-- `comm`: an XCH form is executed alone (R192). -/
def execComm (d : BitVec 5) (r : BitVec 1) (s0 : State) : Out :=
  let s := s0.leaveGang
  let x := s.core.sync.report
  if s.core.sync.phase.isSome || s.core.commArrival then .next (s.waiting .task)
  else s.checked (if r = 0 ∧ bitsAt x.toNat 16 16 ≠ 0 then some (Cause.formatMismatch, x.toNat) else none)
    (s.setG d x).adv

/-- The defined COMM barriers of a core. -/
def Core.commRects (c : Core) : List Word := c.ctl.brect.toList.filter fun x => brValid x && brComm x

/-- `ttplan`: a remote PEER is allowed where a COMM barrier of the core allows it (notes/assumptions/36.md). -/
def execTtplan (d a : BitVec 5) (s0 : State) : Out :=
  let s := s0.leaveGang
  if s.core.sync.phase.isSome then .next (s.waiting .task)
  else
    let k := (s.g a).toNat
    let code := s.planCheck s.core.commRects k
    let t := if code = 0 then s.on (·.modSync fun y => { y with plan := BitVec.ofNat 3 k }) else s
    s.checked ((s.planError s.core.commRects k).map fun a => (Cause.uncorr, a)) (t.setG d (BitVec.ofNat 64 code)).adv

/-! ## TTSEND and TTRECV (R194 to R196) -/

/-- SLOT with its reason (R194). -/
def slotTrap (c reason : Nat) : Trap := (Cause.slot, c + 2 ^ 16 * reason)

/-- The entry of the current plan of a direction with SLOT = c. -/
def State.slotEntry (s : State) (p : Phase) (recv : Bool) (c : Nat) : Option PlanEntry :=
  (s.planEntries p.plan.toNat).find? fun (e : PlanEntry) => e.recv == recv && e.slot == c

/-- UNCORR of a look-up of `ttsend` or `ttrecv` that reads an entry with an uncorrectable error: the entries are read in
their order, up to the one it finds (R199, R379). -/
def State.slotError (s : State) (p : Phase) (recv : Bool) (c : Nat) : Option Trap :=
  let k := p.plan.toNat
  let n := match (s.planEntries k).findIdx? fun (e : PlanEntry) => e.recv == recv && e.slot == c with
    | some i => i + 1
    | none => s.planCount k
  (s.planReadError k n).map fun a => (Cause.uncorr, a)

/-- The checks that `ttsend` and `ttrecv` share, in the order of R195, once the entry is found. -/
def State.slotCheck (s : State) (p : Phase) (recv : Bool) (c : Nat) (x : Word) (e : PlanEntry) : Option Trap :=
  let a := bitsAt x.toNat 0 21
  let n := 64 * e.beats
  if p.used.contains (2 * c + recv.toNat) then some (slotTrap c 3)
  else if bitsAt x.toNat 21 42 ≠ 0 then some (Cause.bounds, x.toNat)
  else if a % 64 ≠ 0 then some (Cause.align, a)
  else match spanCheck s.priv s.core.ctl.lslim a n 64 with
  | some t => some t
  | none =>
    if s.core.lockHit a n then some (Cause.rangeLock, a)
    else if p.t0 + c < s.clk then some (slotTrap c 1)
    else none

/-- Is a trap pending that the release of a COMM barrier left: PLAN_MISMATCH, or BARRIER of such a barrier (R158, R188)? -/
def Core.commCause (c : Core) : Bool := c.sync.relCause.any fun x =>
  x.1 == Cause.planMismatch || (x.1 == Cause.barrier && brComm (c.brect (x.2.toNat % 16)))

/-- The phase of the core in focus that is open now: it closes at T0 + LENGTH (R154). -/
def State.openNow (s : State) : Option Phase :=
  match s.core.sync.phase with
  | some p => if s.clk < p.t0 + p.length ∨ p.sending.isSome then some p else none
  | none => none

/-- `ttsend` or `ttrecv` outside an open phase: it waits for the release of a COMM barrier, or for the trap that such a
release left pending while it waited (R194). -/
def State.noPhase (s : State) (c : Nat) : Out :=
  if s.core.commArrival || (s.core.commCause && decide (s.core.wait = .task)) then .next (s.waiting .task)
  else .next (s.trap (slotTrap c 0))

/-- `ttsend`: the beats leave by EXCHANGE_BEAT_SEND, and the last completes the instruction (R195). -/
def execTtsend (c : BitVec 16) (a : BitVec 5) (s0 : State) : Out :=
  let s := s0.leaveGang
  let x := s.g a
  match s.openNow with
  | none => s.noPhase c.toNat
  | some p =>
    if p.sending.isSome then .next (s.waiting .other)
    else match s.slotEntry p false c.toNat with
    | none => .next (s.trap ((s.slotError p false c.toNat).getD (slotTrap c.toNat 2)))
    | some e =>
      let y : Sending :=
        { slot := c.toNat, beats := e.beats, peer := e.peer, src := bitsAt x.toNat 0 21, nt := bitOf x 63, next := 0 }
      s.checked ((s.slotError p false c.toNat).or (s.slotCheck p false c.toNat x e))
        ((s.on (·.modPhase fun q => { q with used := 2 * c.toNat :: q.used, sending := some y })).waiting .other)

/-- `ttrecv` (R196). -/
def execTtrecv (c : BitVec 16) (a : BitVec 5) (s0 : State) : Out :=
  let s := s0.leaveGang
  let x := s.g a
  match s.openNow with
  | none => s.noPhase c.toNat
  | some p =>
    match s.slotEntry p true c.toNat with
    | none => .next (s.trap ((s.slotError p true c.toNat).getD (slotTrap c.toNat 2)))
    | some e =>
      let y : ArmedRecv :=
        { slot := c.toNat, beats := e.beats, peer := e.peer, dst := bitsAt x.toNat 0 21
          topx := s.core.ctl.status.topx, seen := [] }
      s.checked ((s.slotError p true c.toNat).or (s.slotCheck p true c.toNat x e))
        (s.on (·.modPhase fun q => { q with used := (2 * c.toNat + 1) :: q.used, armed := q.armed ++ [y] })).adv

/-! ## Routes of beats (R383 to R387, R413) -/

/-- |x − y|. -/
def absDiff (x y : Nat) : Nat := max x y - min x y

/-- hops(a, b) (R385). -/
def hops (a b : Nat) : Nat := absDiff (a / 2) (b / 2) + absDiff (a % 2) (b % 2)

/-- Clk from a beat's leaving to its arrival (R386, R413). -/
def beatLatency (src dst : Nat) : Nat :=
  if pkgOf src = pkgOf dst then 6 + 22 * hops (dieOf src) (dieOf dst)
  else if podOf (pkgOf src) = podOf (pkgOf dst) then 370 else 690

/-- The link directions a beat crosses, each with its package and the clk at which it is entered: neighbour links
within a package, the gateways between packages (R386, R413). -/
def State.beatLinks (s : State) (b : Beat) : List (Nat × Nat × Nat) :=
  let p := pkgOf b.src
  let q := pkgOf b.dst
  if p = q then (s.linkRoute p (dieOf b.src) (dieOf b.dst)).zipIdx.map fun (l, i) => (p, l, b.sent + 22 * i)
  else [(p, 100 + dieOf b.src / 2, b.sent), (q, 104 + dieOf b.dst / 2, b.sent + beatLatency b.src b.dst)]

/-- Beats that a link direction carries in a clk: 16, scaled by its live lanes; a gateway carries 16 (R387, R394,
R413). -/
def State.linkCapacity (s : State) (p l : Nat) : Nat :=
  if 100 ≤ l then 16 else 16 * (agetD (s.getPkg p).lanes l 512 / 64) / 8

/-- Does a beat pass the first `i` links of its route? On each the 16 beats of the lowest sender addresses pass
(R387). -/
def State.passes (s : State) : Nat → Beat → Nat → Bool
  | 0, _, _ => true
  | _ + 1, _, 0 => true
  | f + 1, b, i + 1 =>
    s.passes f b i && match (s.beatLinks b)[i]? with
      | none => true
      | some l =>
        let rivals := s.beats.filter fun (q : Beat) => decide (q.src < b.src) &&
          match (s.beatLinks q).findIdx? (· == l) with
          | some j => s.passes f q j
          | none => false
        decide (rivals.length < s.linkCapacity l.1 l.2.1)

/-- Is a beat between packages discarded for want of permits at its port (R408)? The 64 that its class has in reserve always
serve as many beats as are on their way into the gateway, where no global barrier sends its sideband in that class; past
them it depends on the other traffic and on the port taken, and is free (notes/assumptions/50.md). -/
def State.permitShort (s : State) (b : Beat) : Bool :=
  let same := fun (q : Beat) => pkgOf q.dst == pkgOf b.dst && dieOf q.dst / 2 == dieOf b.dst / 2 && pkgOf q.src != pkgOf q.dst
  let here := s.beats.filter fun (q : Beat) =>
    same q && decide (q.sent ≤ b.sent) && decide (b.sent < q.sent + beatLatency q.src q.dst)
  let sideband := s.allCores.any fun (c : Core) => c.ctl.brect.toList.any fun x => brValid x && brDom x && domGlobal (c.domainOf (brLevel x))
  (sideband || decide (64 < here.length)) && Config.freeNat (2 ^ 80 + b.sent * 2 ^ 23 + b.src) % 2 == 1

/-- Can a beat leave one package and enter another: over the links of both gateways and path 0 (R384, R409)? -/
def State.beatCrosses (s : State) (b : Beat) : Bool :=
  let p := pkgOf b.src
  let q := pkgOf b.dst
  p == q || (s.sideband p q && (s.getPkg p).gatewayUp (dieOf b.src) && (s.getPkg q).gatewayUp (dieOf b.dst) &&
    !s.permitShort b)

/-- Does a beat reach its receiver? -/
def State.carried (s : State) (b : Beat) : Bool := s.passes 8 b (s.beatLinks b).length && s.beatCrosses b

/-! ## The events of a phase -/

/-- Is some core behind with a beat that leaves at or before clk `t`? -/
def State.beatsOwed (s : State) (t : Nat) : Bool := s.allCores.any fun (c : Core) => match c.sync.phase with
  | some p => match p.sending with
    | some y => decide (p.t0 + y.slot + y.next ≤ t)
    | none => false
  | none => false

/-- EXCHANGE_BEAT_SEND at the core in focus: the next beat leaves, with the bytes it finds; an uncorrectable error in them
ends the `ttsend` with UNCORR (R195, R379). -/
def State.sendBeat (s : State) : State :=
  match s.core.sync.phase with
  | none => s
  | some p =>
    match p.sending with
    | none => s
    | some y =>
      let t := p.t0 + y.slot + y.next
      if s.clk < t then s
      else if s.poisonHit (s.core.localKey (y.src + 64 * y.next)) 64 then
        (s.on (·.modPhase fun q => { q with sending := none })).trap (Cause.uncorr, y.src + 64 * y.next)
      else
        let b : Beat :=
          { src := s.core.addr.toNat, dst := y.peer, sent := t
            data := BitVec.ofNat 512 (s.localRead (y.src + 64 * y.next) 64)
            topx := s.core.ctl.status.topx, nt := y.nt }
        let last := decide (y.beats ≤ y.next + 1)
        let u := { s.on (·.modPhase fun q => { q with
          sending := if last then none else some { y with next := y.next + 1 } }) with beats := s.beats ++ [b] }
        if last then u.adv.resumed else u

/-- EXCHANGE_BEAT_SEND. -/
def execExchangeBeatSend (c : Nat) (s : State) : Out := .next (s.at c State.sendBeat)

/-- The beat that the core in focus takes from a peer at clk `t`: what the peer put on the crossbar that long before,
whichever core its sender named, over the route to this core (R159). -/
def State.beatAt (s : State) (peer t : Nat) : Option Beat :=
  let c := s.core.addr.toNat
  s.beats.find? fun (b : Beat) =>
    b.src == peer && b.sent + beatLatency peer c == t && s.carried { b with dst := c }

/-- Beat `k` of an armed entry is decided: written, discarded for its format, or missed (R196, R197). -/
def State.takeBeat (s : State) (r : ArmedRecv) (k t : Nat) : State :=
  let mark := fun (w m : Nat) (u : State) => u.on (·.modPhase fun p => { p with
    written := p.written + w, mismatch := p.mismatch + m
    armed := p.armed.map fun (q : ArmedRecv) => if q.slot = r.slot then { q with seen := k :: q.seen } else q })
  match s.beatAt r.peer t with
  | none => mark 0 0 s
  | some b =>
    if b.nt ∧ b.topx ≠ r.topx then mark 0 1 s
    else mark 1 0 (s.localWriteBytes (r.dst + 64 * k) (natLe 64 b.data.toNat))

/-- EXCHANGE_BEAT_RECEIVE at the core in focus. -/
def State.receiveBeat (slot k : Nat) (s : State) : State :=
  match s.core.sync.phase with
  | none => s
  | some p =>
    match p.armed.find? fun (r : ArmedRecv) => r.slot == slot with
    | none => s
    | some r =>
      let t := p.t0 + slot + k
      if r.beats ≤ k ∨ r.seen.contains k ∨ s.clk < t ∨ s.beatsOwed (t - 6) then s else s.takeBeat r k t

/-- EXCHANGE_BEAT_RECEIVE. -/
def execExchangeBeatReceive (c slot k : Nat) (s : State) : Out := .next (s.at c (State.receiveBeat slot k))

/-- Is every armed beat of a phase decided, or without a beat to take? -/
def State.phaseSettled (s : State) (p : Phase) : Bool :=
  p.sending.isNone && !s.beatsOwed (p.t0 + p.length) && p.armed.all fun (r : ArmedRecv) =>
    (List.range r.beats).all fun k => r.seen.contains k || (s.beatAt r.peer (p.t0 + r.slot + k)).isNone

/-- The beats of the receive entries of a plan. -/
def State.planBeats (s : State) (k : Nat) : Nat :=
  (((s.planEntries k).filter (·.recv)).map PlanEntry.beats).sum

/-- The report of a phase that closes (R198). -/
def reportOf (phases : BitVec 8) (plan : BitVec 3) (mismatch missed : Nat) : Word :=
  BitVec.ofNat 64 (phases.toNat * 2 ^ 40 + plan.toNat * 2 ^ 32 + min mismatch 0xFFFF * 2 ^ 16 + min missed 0xFFFF)

/-- The phase of the core in focus ends, if it has one: every beat of a receive entry that was neither written nor
mismatched is missed (R160, R198). -/
def State.endPhase (s : State) : State :=
  match s.core.sync.phase with
  | none => s
  | some p =>
    let missed := s.planBeats p.plan.toNat - p.written - p.mismatch
    let t := s.on (·.modSync fun y => { y with
      phase := none, phases := y.phases + 1, report := reportOf (y.phases + 1) p.plan p.mismatch missed })
    let busy := t.allCores.any fun (c : Core) => c.sync.phase.isSome
    { t with beats := if busy then t.beats else t.beats.filter fun (b : Beat) => t.clk ≤ b.sent + 1000 }

/-- PHASE_CLOSE at the core in focus (R154). -/
def State.closePhase (s : State) : State :=
  match s.core.sync.phase with
  | none => s
  | some p => if s.clk < p.t0 + p.length ∨ !s.phaseSettled p then s else s.endPhase

/-- PHASE_CLOSE. -/
def execPhaseClose (c : Nat) (s : State) : Out := .next (s.at c State.closePhase)

end Sys2Proof.Machine
end

