-- ==== Sys2Proof/Machine/Barrier.lean ====
section
/-!
DEFINITION. Sys2Proof/Machine/Barrier.lean: barriers, votes and their release, and checkpointed teams: commit and
rollback (R148 to R153, R158, R183 to R188, R371 to R378).
-/

namespace Sys2Proof.Machine

/-- BARRIER with its reason (R183). -/
def barrierTrap (n reason : Nat) : Trap := (Cause.barrier, n + 16 * reason)

/-- A barrier number against BLIM (R21). -/
def State.barCheck (s : State) (n : BitVec 4) : Option Trap :=
  if !s.priv && decide (s.core.ctl.blim.toNat ≤ n.toNat) then some (Cause.limit, n.toNat) else none

/-- The core's unreleased arrival on a barrier. -/
def Core.arrivalOn (c : Core) (n : Nat) : Option Arrival := c.sync.arr.toList.getD n none

/-- The arrival on a barrier set. -/
def Core.setArrival (c : Core) (n : Nat) (a : Option Arrival) : Core :=
  c.modSync fun y => { y with arr := if h : n < 16 then y.arr.set n a else y.arr }

/-- The kept result of a vote set. -/
def Core.setVoteRes (c : Core) (n : Nat) (x : Option (LAddr × Word)) : Core :=
  c.modSync fun y => { y with voteRes := if h : n < 16 then y.voteRes.set n x else y.voteRes }

/-- The core waits on a barrier (R152, R382). -/
def State.waitBar (s : State) (n : BitVec 4) (w : WaitState) : State :=
  s.on fun c => { c with wait := w, census := { c.census with bar := n } }

/-! ## Arriving (R184, R186, R375) -/

/-- An unrecoverable fault ends the thread (R172, R201, R375). -/
def State.endFault (s : State) (cause : BitVec 8) : State :=
  s.leaveGang.withdrawFollow.on fun c =>
    { c with run := .endedFault, wait := .no, census := { c.census with cause := cause } }

/-- Does the core hold an unreleased arrival on a COMM barrier other than `n`? -/
def Core.commElsewhere (c : Core) (n : Nat) : Bool :=
  (List.range 16).any fun k => k != n && match c.arrivalOn k with
    | some a => brComm a.rect
    | none => false

/-- The arrival is made: on a COMM barrier with a ballot and the plan-set digest (R158). -/
def State.setArrived (s : State) (n : BitVec 4) (ballot : BitVec 8) (reg : BitVec 5) (own : Bool) : State :=
  let x := s.core.brect n.toNat
  let a : Arrival :=
    { ballot := ballot, reg := reg, digest := if brComm x then s.planDigest else 0, rect := x, at_ := s.clk
      pc := s.pc, own := own }
  s.on fun c => (c.setArrival n.toNat (some a)).setVoteRes n.toNat none

/-- An arrival that waits for its own release: on a CKPT barrier the ring drains first, and a faulted entry is taken as
a late fault, or ends the launch while IE = 0 (R186, R375). -/
def State.arriveOwn (s : State) (n : BitVec 4) (ballot : BitVec 8) (reg : BitVec 5) : State :=
  let go := fun (t : State) => (t.setArrived n ballot reg true).waitBar n (.vote n.toNat reg)
  if brCkpt (s.core.brect n.toNat) then
    let t := s.squashUntriggered
    if t.core.anyPending then t.waiting .task
    else match t.core.lateFaultEntry with
    | some e => if t.core.ctl.status.ie then t.waiting .task else t.endFault e.cause
    | none => go t
  else go s

/-- `arrive` and `vote` past their checks: a flag already set holds them until its release, a released vote that was
interrupted finds its result, and otherwise the core arrives (R152, R186). -/
def State.arriveNow (s : State) (n : BitVec 4) (ballot : BitVec 8) (reg : BitVec 5) (own : Bool) : State :=
  match s.core.arrivalOn n.toNat with
  | some a =>
    if a.own ∧ a.pc = s.pc then s.waitBar n (.vote n.toNat a.reg) else s.waitBar n (.barrier n.toNat)
  | none =>
    match s.core.sync.voteRes.toList.getD n.toNat none with
    | some (pc, x) =>
      if own ∧ pc = s.pc then ((s.on (·.setVoteRes n.toNat none)).setG reg x).adv
      else if own then s.arriveOwn n ballot reg else (s.setArrived n ballot reg false).adv
    | none => if own then s.arriveOwn n ballot reg else (s.setArrived n ballot reg false).adv

/-- The checks of an arrival on a defined barrier; one that reads a DIGEST with an uncorrectable error raises UNCORR (R158,
R379). -/
def State.arriveCheck (s : State) (n : BitVec 4) : Option Trap :=
  let comm := brComm (s.core.brect n.toNat)
  if !brValid (s.core.brect n.toNat) then some (barrierTrap n.toNat 0)
  else if comm && s.core.commElsewhere n.toNat then some (barrierTrap n.toNat 6)
  else if comm && s.core.info.plans != 0 && (s.core.arrivalOn n.toNat).isNone then
    (s.readError s.core.info.planbase 4).map fun a => (Cause.uncorr, a)
  else none

/-- `arrive`: on a COMM barrier its ballot holds the bit of the current plan (R158). -/
def execArrive (n : BitVec 4) (s : State) : Out :=
  let x := s.core.brect n.toNat
  let ballot : BitVec 8 := if brComm x then BitVec.ofNat 8 (2 ^ s.core.sync.plan.toNat) else 0
  s.checked ((s.barCheck n).or (s.arriveCheck n)) (s.arriveNow n ballot 0 (brCkpt x))

/-- `waitb`. -/
def execWaitb (n : BitVec 4) (s : State) : Out :=
  s.checked ((s.barCheck n).or (if brValid (s.core.brect n.toNat) then none else some (barrierTrap n.toNat 0)))
    (if (s.core.arrivalOn n.toNat).isSome then s.waitBar n (.barrier n.toNat) else s.adv)

/-- What `testb` reads (R185). -/
def Core.testBarrier (c : Core) (n : Nat) : Word :=
  BitVec.ofNat 64 ((c.arrivalOn n).isSome.toNat + 2 * (c.sync.phaseBits.getLsbD n).toNat +
    4 * (brValid (c.brect n)).toNat + 8 * (brComm (c.brect n)).toNat)

/-- `testb`. -/
def execTestb (d : BitVec 5) (n : BitVec 4) (s : State) : Out :=
  s.checked (s.barCheck n) (s.setG d (s.core.testBarrier n.toNat)).adv

/-- The checks of `vote` (R186). -/
def State.voteCheck (s : State) (n : BitVec 4) : Option Trap :=
  let x := s.core.brect n.toNat
  if !brValid x then some (barrierTrap n.toNat 0)
  else if !brComm x then some (barrierTrap n.toNat 4)
  else s.arriveCheck n

/-- `vote`: executed alone (R192). -/
def execVote (d a : BitVec 5) (n : BitVec 4) (s0 : State) : Out :=
  let s := s0.leaveGang
  s.checked ((s.barCheck n).or (s.voteCheck n)) (s.arriveNow n ((s.g a).setWidth 8) d true)

/-! ## BDEF (R187, R371) -/

/-- Does a rectangle value lie within the core's group and hold the core (R187)? -/
def Core.rectOk (c : Core) (x : Word) : Bool :=
  let i := c.info.index / c.info.gcols
  let j := c.info.index % c.info.gcols
  decide (1 ≤ brRows x ∧ 1 ≤ brCols x) && decide (brRow0 x + brRows x ≤ c.info.grows) &&
    decide (brCol0 x + brCols x ≤ c.info.gcols) && decide (brRow0 x ≤ i ∧ i < brRow0 x + brRows x) &&
    decide (brCol0 x ≤ j ∧ j < brCol0 x + brCols x)

/-- Reserved bits and DIE of a BRECT value as written (R148, R187). -/
def brReserved (x : Word) : Bool :=
  bitsAt x.toNat 48 16 == 0 && bitsAt x.toNat 32 10 == 0 && bitsAt x.toNat 21 11 == 0 && bitsAt x.toNat 13 3 == 0

/-- Case 2 of R187. -/
def Core.bdefOk (c : Core) (x : Word) : Bool :=
  if !brValid x then x == 0
  else brReserved x &&
    if brDom x then bitsAt x.toNat 0 35 == 0 && domValid (c.domainOf (brLevel x)) else c.rectOk x

/-- The register value of a rectangle whose place is relative to the group (R148, R187). -/
def brAbsolute (x : Word) (die row0 col0 : Nat) : Word :=
  if brValid x && !brDom x then
    BitVec.ofNat 64 (bitsAt x.toNat 35 29 * 2 ^ 35 + die * 2 ^ 32 + bitsAt x.toNat 8 24 * 2 ^ 8 +
      (brRow0 x + row0) % 16 * 16 + (brCol0 x + col0) % 16)
  else x

/-- The checks of `bdef`. -/
def State.bdefCheck (s : State) (n : BitVec 4) (x : Word) : Option Trap :=
  let old := s.core.brect n.toNat
  if (s.core.arrivalOn n.toNat).isSome then some (barrierTrap n.toNat 1)
  else if !s.core.bdefOk x then some (barrierTrap n.toNat 2)
  else if brCkpt x && !s.priv then some (barrierTrap n.toNat 3)
  else if s.core.ctl.status.ckpt && ((brValid old && brCkpt old) || brCkpt x) then some (barrierTrap n.toNat 7)
  else none

/-- BRECT[N] set, and the phase bit of the barrier cleared. -/
def Core.defineBarrier (c : Core) (n : BitVec 4) (x : Word) : Core :=
  (c.modCtl fun k => { k with brect := k.brect.set n.toNat x n.isLt }).modSync fun y =>
    { y with phaseBits := y.phaseBits &&& ~~~BitVec.ofNat 16 (2 ^ n.toNat) }

/-- `bdef`. -/
def execBdef (a : BitVec 5) (n : BitVec 4) (s : State) : Out :=
  let x := s.g a
  let c := s.core
  s.checked ((s.barCheck n).or (s.bdefCheck n x))
    (s.on (·.defineBarrier n (brAbsolute x (dieOf c.addr.toNat) c.info.row0 c.info.col0))).adv

/-! ## Commit and rollback of a team (R375 to R378) -/

/-- An entry that leaves the outbound buffer at its core, as it would issue now (R375); `none` while it waits: a message
for room in the mesh (R177), a store or a release for ordered stores of the thread that are held (R232, R236). -/
def State.performOut (s : State) (o : OutOp) : Option State :=
  match o with
  | .stx va n x ordered pa place kind hord base rel =>
    let a : Xlat := { pa := pa, place := place, kind := kind, hord := hord, base := base }
    let ord : Ord := if ordered then .of else if rel.isSome then .rel else .plain
    if s.storeWaits a ord n then none else some (s.sendStore a ord n va x rel)
  | .send m => if 4 ≤ s.coreWaiting (threadCore m.src) then none else some { s with mesh := s.mesh ++ [m] }
  | .grel num dirty => if s.holdsOrdered then none else some (s.releaseBuffered num dirty)
  | .place _ => some s

/-- The entries that commits are performing, in order, up to the first that waits; at most `n`. -/
def State.drainOut (s : State) : Nat → State
  | 0 => s
  | n + 1 =>
    match s.core.team.committed with
    | [] => s
    | o :: r =>
      match (s.on fun c => { c with team := { c.team with committed := r } }).performOut o with
      | some t => t.drainOut n
      | none => s

/-- All of them. -/
def State.drainAll (s : State) : State := s.drainOut s.core.team.committed.length

/-- The messages at the interface of the core in focus enter their channels, as far as there is room; at most `n`. -/
def State.enterAll (s : State) : Nat → State
  | 0 => s
  | n + 1 => s.enterChannel.enterAll n

/-- The core as its snapshot keeps it: after the `arrive` or `vote` (R375, R376). -/
def Core.snapshot (c : Core) (n : Nat) (a : Arrival) (x : Word) : Core :=
  if c.regs.pc = a.pc + 4 ∧ c.wait = .no then c
  else ({ (c.setG a.reg x).setPc (a.pc + 4) with wait := .no }).setVoteRes n none

/-- The bindings of a core are those of a checkpoint. -/
def Core.bindsOld (c : Core) : Core :=
  { c with binds := c.binds.map fun b => b.map fun (b : Binding) => { b with fresh := false } }

/-- The core in focus commits (R375); an entry of its outbound buffer that must wait leaves after it. -/
def State.commit (s : State) (n : Nat) (a : Arrival) (x : Word) : State :=
  let out := s.core.team.committed ++ s.core.team.outbuf
  let s1 : State := { s with snaps := aset s.snaps s.core.thread (s.core.bindsOld.snapshot n a x) }
  let s2 := (s1.on fun c => { c.bindsOld with team := { Team.reset with committed := out } }).drainAll
  let s3 := s2.on fun c => { c with msgs := { c.msgs with iface := c.msgs.iface ++ c.msgs.held, held := [] } }
  s3.enterAll s3.core.msgs.iface.length

/-- One record of the undo log applied (R377). -/
def State.undo (s : State) (i : Nat) : State :=
  let a := s.core.info.undobase + 72 * i
  let blk := s.localRead a 8 % 2 ^ 21
  (s.dropPoison (s.core.localKey blk) 64).withMem (·.writeBytes (s.core.localKey blk) (s.localBytes (a + 8) 64))

/-- The pending copies and matrix operations of the core squashed; the ring is emptied, and range, guard and event
operations and loader calls run on without an entry (R273, R297, R377). -/
def State.dropRing (s : State) : State :=
  let t := s.core.ops.foldl (fun t (o : Op) => match o.body with
    | .copy r => if r.dkind = 5 then t else t.squashCopy o r
    | b => if b.isMatrix then t.on (·.squash o.seq) else t) s
  t.on fun c => { c with
    ring := Vector.replicate 64 RingEntry.reset, ringBad := 0, outst := none, frame := none
    mtx := { c.mtx with run := none, port := [], portStopped := false, portFault := none } }

/-- What the snapshot gives back (R363, R376): the rest of the core stays as it is. -/
def Core.restore (c k : Core) : Core :=
  { c with
    regs := k.regs
    ctl := { k.ctl with evec := c.ctl.evec, pid := c.ctl.pid, drsel := c.ctl.drsel }
    mtx := { c.mtx with acc := k.mtx.acc, shadow := k.mtx.shadow, bufA := k.mtx.bufA, bufB := k.mtx.bufB }
    accBad := 0
    mail := k.mail, latch := k.latch
    msgs := { c.msgs with queue := k.msgs.queue, undeliv := k.msgs.undeliv }
    sync := { k.sync with phase := none, relCause := c.sync.relCause }
    run := .running, wait := .no, yielded := false, fbuf := none
    team := { Team.reset with replayed := true, committed := c.team.committed }
    faults := { c.faults with rollbacks := satInc c.faults.rollbacks }
    census := { c.census with handler := k.census.handler } }

/-- A binding of the core in focus goes back to the checkpoint: what was granted since is given an abort release and has
no copy; an acquire under way runs on (R377). -/
def State.rollBinding (s : State) (num : Nat) (old : Option Binding) : State :=
  match s.core.binding num, old with
  | some b, some o =>
    let t := if b.fresh then s.gRelease (guardKey b.place b.guard) s.core.thread num true [] else s
    let state : BindState := match b.state with
      | .acquiring x => .acquiring x
      | _ => if b.fresh then .bound else o.state
    t.on (·.setBinding num (some { o with state := state, last := if b.fresh then 0 else o.last, fresh := false }))
  | _, _ => s

/-- The shared releases in the outbound buffer are discarded with it: their windows are as changed as they were before
(R251, R377). -/
def Core.undoReleases (c : Core) : Core :=
  c.team.outbuf.foldl (fun c o => match o with
    | .grel num dirty => match c.binding num with
      | some b => { c with wbits := dirty.foldl (fun w i => w ||| touchBits (b.window + 512 * i) 512) c.wbits }
      | none => c
    | _ => c) c

/-- The core in focus rolls back, in the order of R377. -/
def State.rollCore (s : State) (snap : Core) : State :=
  let s1 := s.leaveGang.withdrawFollow.dropRing.on Core.undoReleases
  let s2 := (List.range s1.core.team.logCount).reverse.foldl State.undo s1
  let s3 := (List.range 8).foldl (fun t num => t.rollBinding num (snap.binding num)) s2
  s3.on (·.restore snap)

/-- Is an uncorrectable error in what the rollback of a core needs: its undo log or its snapshot (R378)? -/
def State.snapError (s : State) (c : Core) : Bool :=
  c.team.snapBad || s.poisonHit (c.localKey c.info.undobase) (72 * c.team.logCount)

/-- The launch of the team ends with FAULT (R378): a member ends its thread. -/
def State.endMember (s : State) : State := s.endFault s.core.census.cause

/-- ROLLBACK (R377, R378): once a member has asked for it and every member stands at a boundary, all roll back and
resume together; a second request before a commit, or one in an unrecoverable superstep, ends the launch. -/
def execRollback (c : Nat) (s : State) : Out :=
  let ks := s.teamOf (s.getCore c)
  let cs := ks.filterMap fun k =>
    let m := s.getCore (threadCore k)
    if m.thread = k ∧ m.alive ∧ m.ctl.status.ckpt then some m else none
  let asked := cs.any (·.team.rollback)
  let ready := (cs.all fun (m : Core) => m.frame.isNone && m.outst.isNone && decide (m.run ≠ .preemptHalt)) &&
    !ks.any fun k => (aget s.saved k).isSome
  if !asked || !ready then .next s
  else if cs.any fun (m : Core) => m.team.replayed || !m.team.recoverable || s.snapError m then
    .next (cs.foldl (fun t (m : Core) => t.at m.addr.toNat State.endMember) s)
  else .next (cs.foldl (fun t (m : Core) => match aget t.snaps m.thread with
    | some k => t.at m.addr.toNat (·.rollCore k)
    | none => t.at m.addr.toNat State.endMember) s)

/-! ## BARRIER_RELEASE (R151, R158, R188) -/

/-- The context of a thread on its core, or after its core was taken by another launch (R201). -/
def State.threadHere (s : State) (k : Nat) : Option Core :=
  let c := s.getCore (threadCore k)
  if c.thread = k ∧ !c.image then some c else aget s.ended k

/-- May an arrival of core `m` stand at the deciding core `d`: the same launch, or one that joins it? -/
def sameJoin (d m : Core) : Bool :=
  if pkgOf d.addr.toNat = pkgOf m.addr.toNat then d.info.num == m.info.num
  else decide (2 ≤ d.info.joinn) && d.info.joinn == m.info.joinn && d.info.jointag == m.info.jointag

/-- The threads whose arrival on barrier `n` stands at a core (R188). -/
def State.arrivedAt (s : State) (d : Core) (n : Nat) : List (Nat × Arrival) :=
  ((s.core :: s.others.map (·.2)) ++ s.ended.map (·.2)).filterMap fun (m : Core) => match m.arrivalOn n with
    | some a =>
      if m.run ≠ .idle ∧ sameJoin d m ∧ s.decider m a.rect = some d.addr.toNat then some (m.thread, a) else none
    | none => none

/-- How a release comes out for all its members: the AND and OR of the ballots, the selected plan, and the cause that
every member takes (R158, R188). -/
structure RelInfo where
  n : Nat
  t0 : Nat
  rect : Word
  andB : BitVec 8
  orB : BitVec 8
  plan : Nat
  cause : Option (BitVec 8 × Word)
deriving DecidableEq, Repr

/-- The lowest bit of a ballot. -/
def lowestBit (x : BitVec 8) : Nat := ((List.range 8).find? fun i => x.getLsbD i).getD 0

/-- The outcome from the arrivals. -/
def relInfo (n t0 : Nat) (rect : Word) (l : List Arrival) : RelInfo :=
  let a := l.foldl (fun x (y : Arrival) => x &&& y.ballot) (BitVec.allOnes 8)
  let o := l.foldl (fun x (y : Arrival) => x ||| y.ballot) 0
  let digests := (l.map Arrival.digest).dedup
  let cause := if l.any fun (y : Arrival) => y.rect != rect then some (Cause.barrier, BitVec.ofNat 64 (n + 80))
    else if brComm rect && (decide (1 < digests.length) || a == 0) then some (Cause.planMismatch, (0 : Word))
    else none
  { n := n, t0 := t0, rect := rect, andB := a, orB := o, plan := lowestBit a, cause := cause }

/-- The result of a vote (R186). -/
def RelInfo.result (r : RelInfo) : Word :=
  BitVec.ofNat 64 (r.andB.toNat + r.orB.toNat * 2 ^ 8 +
    if r.cause.isSome then 2 ^ 19 else r.plan * 2 ^ 16)

/-- A cause delivered by a release is pending (R158). -/
def Core.relPend (c : Core) (x : BitVec 8 × Word) : Core := c.modSync fun y => { y with relCause := y.relCause ++ [x] }

/-- A plan that cannot be read because of an uncorrectable error, met at a release: counted, and in a team a rollback is
asked for (R379, R380). -/
def Core.planLost (c : Core) : Core :=
  { c with
    faults := { c.faults with lsue := satInc c.faults.lsue }
    team := { c.team with rollback := c.ctl.status.ckpt || c.team.rollback } }

/-- A phase opens at the core in focus, or its plan is malformed (R154, R158). One that is still open, of which the spec
does not say what becomes of it, closes here with its report (DESIGN CHOICE, notes/assumptions/35.md). A member whose plan
is malformed takes no part, and keeps the report of its last phase (DESIGN CHOICE, notes/assumptions/57.md); a plan that
holds an uncorrectable error counts as malformed (DESIGN CHOICE, notes/assumptions/68.md). -/
def State.openPhase (s : State) (r : RelInfo) : State :=
  let t := s.endPhase.on (·.modSync fun y => { y with plan := BitVec.ofNat 3 r.plan })
  if (t.planError [r.rect] r.plan).isSome then (t.on Core.planLost).on (·.relPend (Cause.planMismatch, 1))
  else if t.planCheck [r.rect] r.plan = 0 then
    let p : Phase :=
      { t0 := r.t0, length := t.planLength r.plan, plan := BitVec.ofNat 3 r.plan, armed := [], used := [],
        sending := none, written := 0, mismatch := 0 }
    t.on (·.modSync fun y => { y with phase := some p })
  else t.on (·.relPend (Cause.planMismatch, 1))

/-- A core learns the result of its own release: where it waits, the instruction completes; else it is kept for the
re-execution (R186). -/
def Core.takeResult (c : Core) (n : Nat) (a : Arrival) (x : Word) : Core :=
  if !a.own then c
  else match c.wait with
  | .vote m _ => if m = n then { (c.setG a.reg x).setPc (a.pc + 4) with wait := .no } else c.setVoteRes n (some (a.pc, x))
  | _ => c.setVoteRes n (some (a.pc, x))

/-- The release at one core: the flag clears, the phase bit inverts, the latch is set (R152, R115), a phase opens or a
cause is pending, and a vote gets its result. -/
def State.releaseAtCore (r : RelInfo) (a : Arrival) (s : State) : State :=
  let s1 := (s.on fun c => (c.setArrival r.n none).modSync fun y =>
    { y with phaseBits := y.phaseBits ^^^ BitVec.ofNat 16 (2 ^ r.n) }).setLatch
  let s2 := match r.cause with
    | some x => s1.on (·.relPend x)
    | none => if brComm r.rect then s1.openPhase r else s1
  s2.on (·.takeResult r.n a r.result)

/-- The release at one thread; an ended one has nothing to learn. -/
def State.releaseThread (r : RelInfo) (s : State) (x : Nat × Arrival) : State :=
  let c := s.getCore (threadCore x.1)
  if c.thread = x.1 then
    if c.alive then s.at (threadCore x.1) (State.releaseAtCore r x.2)
    else s.modCore (threadCore x.1) (·.setArrival r.n none)
  else match aget s.ended x.1 with
  | some m => { s with ended := aset s.ended x.1 (m.setArrival r.n none) }
  | none => s

/-- A team commits at a release, unless a rollback has been requested (R375). -/
def State.commitTeam (s : State) (r : RelInfo) (l : List (Nat × Arrival)) : State :=
  let asked := l.any fun x => (s.getCore (threadCore x.1)).team.rollback
  if brCkpt r.rect && !asked then
    l.foldl (fun t x => if (t.getCore (threadCore x.1)).thread = x.1 then
      t.at (threadCore x.1) (·.commit r.n x.2 r.result) else t) s
  else s

/-- Does the sideband of a barrier join the packages of its members (R409, R412)? -/
def State.joined (s : State) (ms : List Nat) : Bool :=
  let ps := (ms.map fun k => pkgOf (threadCore k)).eraseDups
  ps.all fun p => ps.all fun q => s.sideband p q

/-- The arrivals that stand at the deciding core of a barrier once every member has arrived, and the release instant
(R151, R188). -/
def State.releaseInstant (s : State) (d : Core) (n : Nat) : Option (List (Nat × Arrival) × Nat) :=
  let x := d.brect n
  if !brValid x || s.decider d x != some d.addr.toNat then none
  else match s.members d x with
  | none => none
  | some ms =>
    let l := s.arrivedAt d n
    let last := (l.filter fun y => ms.contains y.1).foldl (fun t y => max t y.2.at_) 0
    if ms.all (fun k => l.any (·.1 == k)) && s.joined ms then some (l, last + s.releaseDelay d x) else none

/-- The contexts that may decide a release at a core: of the thread that runs or last ran there, and of those whose core
another launch has taken while theirs still runs (R151, R201). -/
def State.deciders (s : State) (c : Nat) : List Core :=
  s.getCore c :: (s.ended.map (·.2)).filter fun (k : Core) => k.addr.toNat == c

/-- Is the release due? The arrivals and the outcome. -/
def State.releaseReady (s : State) (d : Core) (n : Nat) : Option (List (Nat × Arrival) × RelInfo) :=
  (s.releaseInstant d n).bind fun x =>
    if x.2 ≤ s.clk then some (x.1, relInfo n x.2 (d.brect n) (x.1.map (·.2))) else none

/-- BARRIER_RELEASE. -/
def execBarrierRelease (c n : Nat) (s : State) : Out :=
  match (s.deciders c).findSome? (s.releaseReady · n) with
  | none => .next s
  | some (l, r) => .next ((l.foldl (State.releaseThread r) s).commitTeam r l)

end Sys2Proof.Machine
end

