-- ==== Sys2Proof/Machine/Task.lean ====
section
/-!
DEFINITION. Sys2Proof/Machine/Task.lean: `launch`, `done` and `signal` (R200 to R202). The release ordering of
`fence.rel.sys` waits for the thread's ordered stores that are held (notes/assumptions/12.md); what `done` and `signal`
publish goes to the launch they ready (R234).
-/

namespace Sys2Proof.Machine

/-- The word of a TASK form (R200). -/
def taskWord (d a b : BitVec 5) (sub : Nat) : BitVec 32 := mkWord 0x36 d a b (BitVec.ofNat 11 (64 * sub))

/-! ## LAUNCH -/

/-- What `launch` returns for a queue: 2 where there is none that the thread may use, 1 where it is full, else 0 (R200). -/
def Package.submitCode (p : Package) (q : Nat) (priv : Bool) (pid : BitVec 16) : Nat :=
  match p.queue q with
  | none => 2
  | some u => if !priv && u.pid != pid then 2 else if u.cap ≤ u.records.length then 1 else 0

/-- How `launch` reads its record: by the thread's visibility (R237). -/
def recordMode : RMode := { latest := false, unit := false }

/-- The record at a translated address is read and appended to a queue that takes it, after the release ordering. -/
def State.launchRecord (s : State) (d : BitVec 5) (va : Word) (q : Nat) (x : Xlat) : State :=
  if s.holdsOrdered then s.waiting .other
  else match s.readAt s.core.addr.toNat x.pa x.place 64 recordMode with
  | .error r => (s.countRead r x.pa x.place).trap (memoryTrap va r.toNat)
  | .ok v =>
    (((s.observeAt x.pa x.place 64 recordMode none).modPkg (pkgOf s.core.addr.toNat)
      (·.appendRecord q (BitVec.ofNat 512 v))).setG d 0).adv

/-- `launch` past its operand checks: the address is translated, the queue tested, and only then the record read. -/
def State.launchNow (s : State) (d : BitVec 5) (va : Word) (q : Nat) : Out :=
  match s.threadXlat va .threadRead 64 with
  | .wait t => .next (t.waiting .other)
  | .fault f t => .next (t.trap f)
  | .ok x t =>
    let code := (t.getPkg (pkgOf t.core.addr.toNat)).submitCode q t.priv t.core.ctl.pid
    .next (if code = 0 then t.launchRecord d va q x else (t.setG d (BitVec.ofNat 64 code)).adv)

/-- `launch`. TEAM_OP comes before its own checks, of which R373 says nothing (DESIGN CHOICE, notes/assumptions/63.md). -/
def execLaunch (d a b : BitVec 5) (s : State) : Out :=
  match s.teamCheck (taskWord d a b 0) with
  | some t => .next (s.trap t)
  | none =>
    if 1024 ≤ (s.g b).toNat then .next (s.trap (Cause.bounds, (s.g b).toNat))
    else if (s.g a).toNat % 64 ≠ 0 then .next (s.trap (Cause.align, (s.g a).toNat))
    else s.launchNow d (s.g a) (s.g b).toNat

/-! ## DONE -/

/-- `done` in a team with work of the superstep left (R373). -/
def State.doneTeamCheck (s : State) : Option Trap :=
  if s.core.ctl.status.ckpt && (!s.core.team.outbuf.isEmpty || decide (0 < s.core.team.logCount)) then
    some (Cause.teamOp, (taskWord 0 0 0 1).toNat)
  else none

/-- The loader call that a thread of a memory core serves completes at its caller, with KIND 1 (R289, R297). -/
def State.callDone (s : State) : State :=
  match s.core.info.call with
  | none => s
  | some (k, seq) =>
    (s.atThread k fun t => match (t.core.op seq).bind Op.copy? with
      | some r => t.completeCopy seq r 0
      | none => t).on fun c => { c with info := { c.info with call := none } }

/-- The thread ends by `done`: its messages are discarded (R201). -/
def Core.ended (c : Core) (how : RunState) : Core :=
  { c with run := how, wait := .no, msgs := { c.msgs with queue := [] }, preempt := none }

/-- The first of a thread's bindings whose copy still owes a forward holds the end back (R254). -/
def State.bindsOwe (s : State) : Bool :=
  (List.range 8).any fun n => (s.core.binding n).isSome && s.owesForward s.core.thread n

/-- Does `done` still owe something: an entry of an outbound buffer that a commit is performing, or an ordered store that
is held, which its release ordering publishes (R201, R375)? -/
def State.doneOwes (s : State) : Bool := s.bindsOwe || s.holdsOrdered || !s.core.team.committed.isEmpty

/-- The end of a thread by `done`: its bindings are given up one by one, as by `gunbind` (R256). -/
def State.finishThread (s : State) : State :=
  if s.doneOwes then s.waiting (.draining false)
  else ((s.endBindings s.core.thread State.unbindNow).dropWaiting.on (·.ended .endedDone)).callDone

/-- `done`: executed alone (R192). -/
def execDone (s0 : State) : Out :=
  let s := s0.leaveGang
  match s.doneTeamCheck with
  | some t => .next (s.trap t)
  | none =>
    let t := s.squashUntriggered
    if t.core.anyPending then .next (t.waiting (.draining false))
    else match t.core.lateFaultEntry with
    | some e => .next (if t.core.ctl.status.ie then t.waiting (.draining false) else t.endFault e.cause)
    | none => .next t.finishThread

/-! ## SIGNAL and predecessor counters (R171, R202) -/

/-- A predecessor counter. -/
def Package.counter (p : Package) (i : Nat) : PredCounter :=
  (p.counters.find? (·.idx == i)).getD { idx := i, value := 0, owner := 0, pub := [] }

/-- A predecessor counter set. -/
def Package.setCounter (p : Package) (x : PredCounter) : Package :=
  { p with counters := x :: p.counters.filter (·.idx != x.idx) }

/-- A decrement, with what it publishes; that of a zero counter is counted (R171, R234). -/
def Package.decrement (p : Package) (i : Nat) (pub : List Nat) : Package :=
  let x := p.counter i
  if x.value = 0 then { p with zeroDec := p.zeroDec + 1 }
  else p.setCounter { x with value := x.value - 1, pub := joinIds pub x.pub }

/-- The checks of `signal` (R202, R373), TEAM_OP first (DESIGN CHOICE, notes/assumptions/63.md). -/
def State.signalCheck (s : State) (a : BitVec 5) : Option Trap :=
  let own := pkgOf s.core.addr.toNat
  let i := (s.g a).toNat
  (s.teamCheck (taskWord 0 a 0 2)).or
    ((if 2 ^ 16 ≤ i then some (Cause.bounds, i) else none).or
      (if !s.priv && ((s.getPkg own).counter i).owner != s.core.ctl.pid then some (Cause.privilege, 0) else none))

/-- `signal`. -/
def execSignal (a : BitVec 5) (s : State) : Out :=
  s.checked (s.signalCheck a)
    (if s.holdsOrdered then s.waiting .other
     else (s.modPkg (pkgOf s.core.addr.toNat)
      (·.decrement (s.g a).toNat (s.publish s.agent scopeSys s.core.view.seen))).adv)

end Sys2Proof.Machine
end

