-- ==== Sys2Proof/Machine/Event.lean ====
section
/-!
DEFINITION. Sys2Proof/Machine/Event.lean: the event engine: its bank, populations, queue, integration and firing (R315 to
R326), the domain clock (R327) and the events that reach and leave an engine.
-/

namespace Sys2Proof.Machine

/-! ## The clock and an engine -/

/-- The domain clock of a package in ns (R327). -/
def State.domainClock (s : State) (pkg : Nat) : Word := BitVec.ofNat 64 s.ns + (s.getPkg pkg).clockOff

/-- The package of an engine. -/
def unitPkg (eng : Nat) : Nat := eng / 256

/-- The current tick of an engine (R316). -/
def State.engineTick (s : State) (eng : Nat) : Nat := (s.domainClock (unitPkg eng)).toNat / (s.engine eng).tickns

/-- Is the cluster that holds a tile core present: reported, its die out of reset and its power on (R344, R425)? -/
def State.clusterPresent (s : State) (c : Nat) : Bool :=
  s.coreExists c && !isMemCore c && s.dieLive (pkgOf c) (dieOf c) &&
    !(s.getPkg (pkgOf c)).offMask.getLsbD (dieOf c * 32 + clusterOf c)

/-- Does the engine of a core's cluster run: it is present, and neither its die nor its package stands still (R425)? -/
def State.clusterRuns (s : State) (c : Nat) : Bool := s.clusterPresent c && (s.getPkg (pkgOf c)).powered c

/-- Does the engine of a core's cluster take events: it runs, and a core of its die has run a thread since the die's last reset
(R396)? -/
def State.clusterTakes (s : State) (c : Nat) : Bool :=
  s.clusterRuns c && !(s.getPkg (pkgOf c)).dieQuiet.getLsbD (dieOf c)

/-- Can an event or a record that a core or an engine of one cluster sends reach another core: over the route of R385, and
the gateways' links between packages (R411)? -/
def State.eventReaches (s : State) (a b : Nat) : Bool := s.clusterTakes b && s.coresReach a b

/-- The context of a thread, whether it runs, is saved, or has ended. -/
def State.anyThread (s : State) (k : Nat) : Option Core :=
  match s.getThread k with
  | some c => some c
  | none => aget s.ended k

/-! ## State of the bank (R315) -/

/-- A neuron state. -/
structure NState where
  v : Nat
  last : Nat
  refr : Nat
  fires : Nat
  user : Nat
deriving DecidableEq, Repr

/-- State `i` of an engine's bank; an uncorrectable error makes V the canonical NaN (R379). -/
def State.bankState (s : State) (eng i : Nat) : NState :=
  let x := s.mem.read (keyBank eng (16 * i)) 16
  { v := if s.poisonHit (keyBank eng (16 * i)) 16 then fp32.nanCode else bitsAt x 0 32
    last := bitsAt x 32 48, refr := bitsAt x 80 16, fires := bitsAt x 96 16, user := bitsAt x 112 16 }

/-- The 16 bytes of a state. -/
def NState.bytes (x : NState) : List Byte :=
  natLe 4 x.v ++ natLe 6 x.last ++ natLe 2 x.refr ++ natLe 2 x.fires ++ natLe 2 x.user

/-- An uncorrectable error found in a state is counted, and gone once the state is written (R379, R380). -/
def State.countBank (s : State) (eng i : Nat) : State :=
  if s.poisonHit (keyBank eng (16 * i)) 16 then
    (s.modEngine eng fun e => { e with bankue := satInc e.bankue }).dropPoison (keyBank eng (16 * i)) 16
  else s

/-- State `i` written. -/
def State.putBank (s : State) (eng i : Nat) (x : NState) : State :=
  let t := s.countBank eng i
  { t with mem := t.mem.writeBytes (keyBank eng (16 * i)) x.bytes }

/-! ## Population descriptors (R317) -/

/-- A field of a 32-byte descriptor: `n` bits from byte `off`. -/
def popField (x : Nat) (off n : Nat) : Nat := bitsAt x (8 * off) n

/-- The descriptor of a population as a number. -/
def State.popDesc (s : State) (eng p : Nat) : Nat := s.mem.read (keyPop eng (32 * p)) 32

/-- BASE. -/
def popBase (x : Nat) : Nat := popField x 0x00 16
/-- NM1. -/
def popNm1 (x : Nat) : Nat := popField x 0x02 16
/-- MBX. -/
def popMbx (x : Nat) : Bool := x.testBit 38
/-- FAN. -/
def popFan (x : Nat) : Bool := x.testBit 37
/-- EN. -/
def popEn (x : Nat) : Bool := x.testBit 36
/-- IO. -/
def popIo (x : Nat) : Bool := x.testBit 35
/-- LEAK. -/
def popLeak (x : Nat) : Nat := popField x 0x04 3

/-- The thread that owns a population: (core, launch). -/
def Engine.owner (e : Engine) (p : Nat) : Option (Nat × Nat) := (e.owners.find? (·.1 == p)).map (·.2)

/-- The name of a population's owner. -/
def Engine.ownerThread (e : Engine) (p : Nat) : Nat := match e.owner p with
  | some (c, l) => threadOn l c
  | none => 0

/-! ## Arithmetic (R322, R323) -/

/-- One RNE rounding to FP32: the code and the flags. -/
def round32 (x : XRes) : Nat × BitVec 6 :=
  let (c, f) := fp32.round rmRNE 0 x.1
  (c, f ||| x.2)

/-- A product of two FP32 codes, rounded, with the flags so far. -/
def mul32 (x : Nat × BitVec 6) (y : Nat) : Nat × BitVec 6 :=
  let (c, f) := round32 (mulX (fp32.decode x.1) (fp32.decode y))
  (c, x.2 ||| f)

/-- Entry `i` of leak table `j`. -/
def State.leakEntry (s : State) (eng j i : Nat) : Nat := s.mem.read (keyLeak eng (1024 * j + 4 * i)) 4

/-- `Decay(j, Δ)` (R323): the square and multiply of D[255], then the rest. -/
def State.decay (s : State) (eng j d : Nat) : Nat × BitVec 6 :=
  if d ≤ 255 then (s.leakEntry eng j d, 0)
  else
    let q := d / 255
    let top := s.leakEntry eng j 255
    let p := (List.range (Nat.log2 q)).reverse.foldl (fun (x : Nat × BitVec 6) b =>
      let y := mul32 x x.1
      if q.testBit b then mul32 y top else y) (top, 0)
    if d % 255 = 0 then p else mul32 p (s.leakEntry eng j (d % 255))

/-- Does V reach the threshold (R322)? -/
def reaches32 (v theta : Nat) : Bool :=
  let x := fp32.decode v
  let y := fp32.decode theta
  !x.isNaN && !y.isNaN && !x.lt y

/-- Flags ORed into the engine's FLAGS. -/
def Engine.raise (e : Engine) (f : BitVec 6) : Engine := { e with flags := e.flags ||| f.setWidth 5 }

/-! ## The queue (R318 to R320) -/

/-- POP of an event word. -/
def evPop (w : Word) : Nat := bitsAt w.toNat 16 4
/-- INDEX. -/
def evIndex (w : Word) : Nat := bitsAt w.toNat 0 16
/-- TIME. -/
def evTime (w : Word) : Nat := bitsAt w.toNat 36 27

/-- The tick an event resolves to at a current tick, in 48 bits (R319; notes/assumptions/40.md). -/
def resolveTick (w : Word) (cur : Nat) : Nat :=
  if bitOf w 63 then
    let lo := if cur < 2 ^ 26 then 0 else cur - 2 ^ 26
    (lo + (evTime w + 2 ^ 27 - lo % 2 ^ 27) % 2 ^ 27) % 2 ^ 48
  else (cur + evTime w) % 2 ^ 48

/-- Is the queue full? -/
def Engine.full (e : Engine) : Bool := decide (8192 ≤ e.queue.length)

/-- A resolved event enters the queue at a clk (R320). -/
def Engine.enter (e : Engine) (clk key t : Nat) (w : Word) : Engine :=
  { e with queue := e.queue ++ [{ t := t, clk := clk, key := key, arr := e.arr, w := w }], arr := e.arr + 1 }

/-- A resolved event enters the queue now. -/
def State.enterQueue (s : State) (eng key t : Nat) (w : Word) : State := s.modEngine eng (·.enter s.clk key t w)

/-- Trigger events that wait enter at a clk as there is room, in their order; at most `n` (R330). -/
def Engine.drainOnly (e : Engine) (clk : Nat) : Nat → Engine
  | 0 => e
  | n + 1 =>
    match e.waiting with
    | [] => e
    | (k, t, w) :: r => if e.full then e else ({ e with waiting := r }.enter clk k t w).drainOnly clk n

/-- Trigger events that wait enter as there is room (R330). -/
def State.drainEvents (s : State) (eng : Nat) : State := s.modEngine eng fun e => e.drainOnly s.clk e.waiting.length

/-- Has one of two queued events the lower arrival number: of those that entered in one clk, the one of the lower sender
(R320)? -/
def QEvent.earlier (x y : QEvent) : Bool :=
  decide (x.clk < y.clk) || (x.clk == y.clk &&
    (decide (x.key < y.key) || (x.key == y.key && decide (x.arr < y.arr))))

/-- Does one queued event come before another (R320)? -/
def QEvent.before (x y : QEvent) : Bool := decide (x.t < y.t) || (x.t == y.t && x.earlier y)

/-- The queued event that is delivered next. -/
def Engine.head (e : Engine) : Option QEvent := e.queue.foldl (fun b x => match b with
  | some y => if x.before y then some x else some y
  | none => some x) none

/-! ## EVENT_ARRIVAL -/

/-- The core address of an event's sender: for a fan-out event the lowest of its engine's cluster (DESIGN CHOICE,
notes/assumptions/71.md). -/
def EvMsg.sender (m : EvMsg) : Nat := m.engine.elim (threadCore m.src) (clusterCore · 0)

/-- The key that orders the events entering in one clk: the sender's core address, an engine's own fan-out last
(R320). -/
def EvMsg.key (m : EvMsg) : Nat := m.sender + if m.engine = some m.target then 2 ^ 23 else 0

/-- Have two events one sender, a core or an engine, and one engine as their target (R163, R320)? -/
def EvMsg.sameWay (m x : EvMsg) : Bool := x.engine == m.engine && x.sender == m.sender && x.target == m.target

/-- A fan-out event that is lost is counted at the engine that sent it (R324). -/
def State.countFanLost (s : State) (eng : Option Nat) : State :=
  match eng with
  | some k => s.modEngine k fun e => { e with fanlost := satInc e.fanlost }
  | none => s

/-- EVENT_ARRIVAL: events from one sender to one engine keep their order; at a full queue an event is discarded and
counted; one that cannot be delivered is discarded, and a fan-out event counted (R163, R320, R324, R346). -/
def execEventArrival (i : Nat) (s : State) : Out :=
  match s.evnet[i]? with
  | none => .next s
  | some m =>
    let t : State := { s with evnet := s.evnet.eraseIdx i }
    if (s.evnet.take i).any m.sameWay then .next s
    else if !s.clusterTakes (clusterCore m.target 0) then .next (t.countFanLost m.engine)
    else if (s.engine m.target).full then
      .next (t.modEngine m.target fun e => { e with overflow := satInc e.overflow })
    else .next (t.enterQueue m.target m.key (m.t.getD (resolveTick m.w (s.engineTick m.target))) m.w)

/-! ## Firing (R324) -/

/-- The key of a byte of the owner's local store. -/
def State.ownerKey (s : State) (e : Engine) (p a : Nat) : Nat := match s.getThread (e.ownerThread p) with
  | some c => c.localKey a
  | none => keyLocal (threadCore (e.ownerThread p)) a

/-- An uncorrectable error in what an engine reads of an owner's store for its fan-out: counted at the owner, and as a loss of
the engine (R379, R380; DESIGN CHOICE, notes/assumptions/72.md). -/
def State.fanError (s : State) (eng p : Nat) : State :=
  (s.atThread ((s.engine eng).ownerThread p) (·.on fun c =>
    { c with faults := { c.faults with lsue := satInc c.faults.lsue } })).countFanLost (some eng)

/-- One fan-out entry: it is sent, or not and counted in FANLOST. An entry beyond the store is not sent
(DESIGN CHOICE, notes/assumptions/39.md), and neither is one with an uncorrectable error. -/
def State.fanEntry (eng p t ent : Nat) (s : State) (k : Nat) : State :=
  let e := s.engine eng
  let a := ent + 16 * k
  let lost := s.countFanLost (some eng)
  if 0x180000 < a + 16 then lost
  else if s.poisonHit (s.ownerKey e p a) 16 then s.fanError eng p
  else
    let x := s.mem.read (s.ownerKey e p a) 16
    let w : Word := BitVec.ofNat 64 x
    let c := bitsAt x 64 23
    if bitOf w 63 || x.testBit 87 || bitsAt x 88 40 != 0 || !s.eventReaches (clusterCore eng 0) c then lost
    else { s with evnet := s.evnet ++
      [{ src := e.ownerThread p, engine := some eng, target := unitOf c, w := w, t := some ((t + evTime w) % 2 ^ 48) }] }

/-- The fan-out of state `i`: words r and r + 1 of the FANOFF array bound its entries; with an uncorrectable error in them
nothing is sent (R379; notes/assumptions/72.md). -/
def State.fanOut (s : State) (eng p t i x : Nat) : State :=
  let e := s.engine eng
  let a := popField x 0x18 21 + 4 * (i - popBase x)
  let lo := s.mem.read (s.ownerKey e p a) 4
  let hi := s.mem.read (s.ownerKey e p (a + 4)) 4
  if s.poisonHit (s.ownerKey e p a) 8 then s.fanError eng p
  else (List.range' lo (hi - lo)).foldl (State.fanEntry eng p t (popField x 0x1C 21)) s

/-- The fire record (R290, R324). -/
def fireRecord (eng p t i fires : Nat) : BitVec 128 :=
  BitVec.ofNat 128 (2 * 2 ^ 24 + i * 2 ^ 32 + p * 2 ^ 48 + eng % 256 * 2 ^ 56 + t % 2 ^ 48 * 2 ^ 64 + fires * 2 ^ 112)

/-- The fire record is posted, or dropped and counted (R324, R369, R411). -/
def State.fireMail (s : State) (eng p t i fires x : Nat) : State :=
  let e := s.engine eng
  let c := popField x 0x14 23
  let target := match s.anyThread (e.ownerThread p) with
    | some o => if s.coresReach (clusterCore eng 0) c then s.storeOwner o.ctl.pid c else none
    | none => none
  match target with
  | some k => s.postMail { target := k, record := fireRecord eng p t i fires, src := .engine eng }
  | none => s.modEngine eng fun e => { e with reclost := satInc e.reclost }

/-- `Fire(t, P, s)` of R324. -/
def State.fire (s : State) (eng p t i : Nat) : State :=
  let x := s.popDesc eng p
  let n := s.bankState eng i
  let n1 : NState := { n with
    v := popField x 0x0C 32, last := max n.last t, refr := popField x 0x10 16, fires := min (n.fires + 1) 0xFFFF }
  let s1 := (s.putBank eng i n1).modEngine eng fun e => { e with fired := satInc e.fired }
  let s2 := if popFan x then s1.fanOut eng p t i x else s1
  if popMbx x then s2.fireMail eng p t i n1.fires x else s2

/-! ## Delivery (R321, R322) -/

/-- A counter of late events. -/
def Engine.countLate (e : Engine) (late : Bool) : Engine := if late then { e with late := satInc e.late } else e

/-- `Deliver(t, P, s, w)` of R322. -/
def State.deliverTo (s : State) (eng : Nat) (q : QEvent) : State :=
  let p := evPop q.w
  let i := evIndex q.w
  let x := s.popDesc eng p
  let n := s.bankState eng i
  let w := bf16.decode (bitsAt q.w.toNat 20 16)
  let late := decide (q.t < n.last)
  let s0 := s.modEngine eng (·.countLate late)
  let count := fun (t : State) => t.modEngine eng fun e => { e with deliv := satInc e.deliv }
  let drop := s0.modEngine eng fun e => { e with refdrop := satInc e.refdrop }
  let plain := round32 (sumX [fp32.decode n.v, w] rmRNE)
  if popIo x then
    count ((s0.putBank eng i { n with v := plain.1, last := max n.last q.t }).modEngine eng (·.raise plain.2))
  else if (late && decide (0 < n.refr)) || (!late && decide (q.t < n.last + n.refr)) then drop
  else
    let d := if late then 0 else q.t - (n.last + n.refr)
    let y := if d = 0 then plain
      else
        let k := s.decay eng (popLeak x) d
        let z := round32 (fmaX (fp32.decode n.v) (fp32.decode k.1) w rmRNE)
        (z.1, z.2 ||| k.2)
    let s1 := count ((s0.putBank eng i { n with v := y.1, last := max n.last q.t, refr := 0 }).modEngine eng (·.raise y.2))
    if reaches32 y.1 (popField x 0x08 32) then s1.fire eng p q.t i else s1

/-- An event taken from the queue and delivered, or rejected (R321). -/
def State.deliverEvent (s : State) (eng : Nat) (q : QEvent) : State :=
  let x := s.popDesc eng (evPop q.w)
  let i := evIndex q.w
  let t := s.modEngine eng fun e => { e with queue := e.queue.erase q }
  let u := if popEn x ∧ popBase x ≤ i ∧ i ≤ popBase x + popNm1 x then t.deliverTo eng q
    else t.modEngine eng fun e => { e with reject := satInc e.reject }
  u.drainEvents eng

/-- Is the engine held back by a post that waits (R324)? -/
def State.postHeld (s : State) (eng : Nat) : Bool := s.posts.any (·.src == .engine eng)

/-- EVENT_DELIVERY: the due event of the lowest key (R320), from the clk after that in which it entered on: only then does every
event that entered in one clk have its number (DEDUCED, notes/assumptions/71.md). -/
def execEventDelivery (eng : Nat) (s : State) : Out :=
  match (s.engine eng).head with
  | some q =>
    if q.t ≤ s.engineTick eng ∧ q.clk < s.clk ∧ !s.postHeld eng ∧ s.clusterRuns (clusterCore eng 0) then
      .next (s.deliverEvent eng q)
    else .next s
  | none => .next s

/-! ## Sweeping (R347) -/

/-- One state of a sweep at tick `t`. -/
def State.sweepState (eng p t : Nat) (s : State) (i : Nat) : State :=
  let x := s.popDesc eng p
  let n := s.bankState eng i
  if t < n.last + n.refr then s
  else
    let d := t - (n.last + n.refr)
    let y := if d = 0 then (n.v, (0 : BitVec 6))
      else
        let k := s.decay eng (popLeak x) d
        let z := round32 (mulX (fp32.decode n.v) (fp32.decode k.1))
        (z.1, z.2 ||| k.2)
    let s1 := (s.putBank eng i { n with v := y.1, last := t, refr := 0 }).modEngine eng (·.raise y.2)
    if reaches32 y.1 (popField x 0x08 32) then s1.fire eng p t i else s1

/-- A sweep of a population. -/
def State.sweep (s : State) (eng p : Nat) : State :=
  let x := s.popDesc eng p
  if !popEn x || popIo x then s
  else (List.range' (popBase x) (popNm1 x + 1)).foldl (State.sweepState eng p (s.engineTick eng)) s

end Sys2Proof.Machine
end

