-- ==== Sys2Proof/Machine/EventOps.lean ====
section
/-!
DEFINITION. Sys2Proof/Machine/EventOps.lean: the EVT instructions and their performance by the engine (R344 to R349), the
TIME instructions, time triggers, and steps of the domain clock (R327 to R331, R350, R351).
-/

namespace Sys2Proof.Machine

/-! ## Dispatch (R332, R335, R344) -/

/-- An event operation. -/
def OpBody.isEvent : OpBody → Bool
  | .evcfg .. | .evpost .. | .evsweep _ | .evread .. | .evreadSt _ | .evwrite .. | .evdrain _ | .evdrainPop _ => true
  | _ => false

/-- Places that a core holds in its engine's queue of 8. -/
def Core.eventPlaces (c : Core) : Nat := (c.ops.filter fun (o : Op) => o.body.isEvent).length

/-- The word of an EVT form. -/
def evtWord (d a b : BitVec 5) (sub fl : Nat) : BitVec 32 := mkWord 0x35 d a b (BitVec.ofNat 11 (64 * sub + fl))

/-- An event form past its own checks `t`; every form but `evread` raises TEAM_OP in a team (R335). -/
def State.eventInstr (s : State) (sub : Nat) (d : BitVec 5) (word : Option (BitVec 32)) (t : Option Trap) (x : OpSpans)
    (body : OpBody) : Out :=
  let team := match word with
    | some w => s.teamCheck w
    | none => none
  s.dispatched (team.or t) (decide (8 ≤ s.core.eventPlaces)) (s.dispatchTo 0x35 sub d x body)

/-- BOUNDS for a value above its limit. -/
def limitCheck (x : Word) (limit : Nat) : Option Trap := if limit < x.toNat then some (Cause.bounds, x.toNat) else none

/-- `evcfg` of a kind, with its block. -/
def State.evcfg (s : State) (kind : CfgKind) (fl : Nat) (d a b : BitVec 5) (limit n unit : Nat) : Out :=
  let x := (s.g a).toNat
  s.eventInstr 0 d (some (evtWord d a b 0 fl)) ((limitCheck (s.g b) limit).or (s.engineCheck x n unit)) (readSpan x n)
    (.evcfg kind x (s.g b).toNat)

/-- `evcfg.pop`. -/
def execEvcfgPop (d a b : BitVec 5) (s : State) : Out := s.evcfg .pop 0 d a b 15 32 32
/-- `evcfg.leak`. -/
def execEvcfgLeak (d a b : BitVec 5) (s : State) : Out := s.evcfg .leak 1 d a b 7 1024 64
/-- `evcfg.eng`: its b field is zero. -/
def execEvcfgEng (d a : BitVec 5) (s : State) : Out := s.evcfg .eng 2 d a 0 0 8 8

/-- `evpost`. -/
def execEvpost (d a b : BitVec 5) (s : State) : Out :=
  s.eventInstr 1 d (some (evtWord d a b 1 0)) (if b = 0 then none else addrCheck (s.g b)) OpSpans.none
    (.evpost (s.g a) (if b = 0 then none else some (s.g b).toNat))

/-- `evsweep`. -/
def execEvsweep (d a : BitVec 5) (s : State) : Out :=
  s.eventInstr 2 d (some (evtWord d a 0 2 0)) (limitCheck (s.g a) 15) OpSpans.none (.evsweep (s.g a).toNat)

/-- First state of a span word (R348). -/
def spanFirst (x : Word) : Nat := bitsAt x.toNat 0 16
/-- Number of states of a span word. -/
def spanCount (x : Word) : Nat := bitsAt x.toNat 16 16 + 1
/-- BOUNDS for a span word. -/
def spanWordCheck (x : Word) : Option Trap :=
  if x.toNat / 2 ^ 32 ≠ 0 ∨ 65536 < spanFirst x + spanCount x then some (Cause.bounds, x.toNat) else none

/-- `evread`. -/
def execEvread (d a b : BitVec 5) (s : State) : Out :=
  let x := (s.g a).toNat
  let n := spanCount (s.g b)
  s.eventInstr 3 d none ((spanWordCheck (s.g b)).or (s.engineCheck x (16 * n) 16)) (writeSpan x (16 * n))
    (.evread x (spanFirst (s.g b)) n)

/-- `evread.st`. -/
def execEvreadSt (d a : BitVec 5) (s : State) : Out :=
  let x := (s.g a).toNat
  s.eventInstr 3 d none (s.engineCheck x 64 64) (writeSpan x 64) (.evreadSt x)

/-- `evwrite`. -/
def execEvwrite (d a b : BitVec 5) (s : State) : Out :=
  let x := (s.g a).toNat
  let n := spanCount (s.g b)
  s.eventInstr 4 d (some (evtWord d a b 4 0)) ((spanWordCheck (s.g b)).or (s.engineCheck x (16 * n) 16))
    (readSpan x (16 * n)) (.evwrite x (spanFirst (s.g b)) n)

/-- `evdrain`. -/
def execEvdrain (d : BitVec 5) (s : State) : Out :=
  s.eventInstr 5 d (some (evtWord d 0 0 5 0)) none OpSpans.none (.evdrain none)

/-- `evdrain.pop`. -/
def execEvdrainPop (d a : BitVec 5) (s : State) : Out :=
  s.eventInstr 5 d (some (evtWord d a 0 5 1)) (limitCheck (s.g a) 15) OpSpans.none (.evdrainPop (s.g a).toNat)

/-! ## Time triggers (R330, R351) -/

/-- The set of triggers a core arms in: its engine's, or that of its stack base. -/
def triggerUnit (c : Nat) : Nat :=
  if isMemCore c then 2 ^ 20 + pkgOf c * 16 + 2 * dieOf c + rowOf c else unitOf c

/-- The package of a set of triggers. -/
def triggerPkg (u : Nat) : Nat := if u < 2 ^ 20 then unitPkg u else (u - 2 ^ 20) / 16

/-- How many triggers a set holds. -/
def triggerRoom (u : Nat) : Nat := if u < 2 ^ 20 then 64 else 16

/-- The triggers of a set, in order of arming. -/
def State.triggersOf (s : State) (u : Nat) : List Trigger := agetD s.triggers u []

/-! ## Performance (R344 to R349) -/

/-- Does another running launch own a population (R344)? -/
def State.foreignPop (s : State) (eng : Nat) (c : Core) (p : Nat) : Bool :=
  match (s.engine eng).owner p with
  | some (_, l) => l != c.info.num && ((s.getPkg (unitPkg eng)).launch l).isSome
  | none => false

/-- The refusal of a descriptor, if any (R317, R344). -/
def State.popRefusal (s : State) (eng p lslim x : Nat) : Option Nat :=
  if popField x 0x05 24 ≠ 0 ∨ x.testBit 39 ∨ popField x 0x12 16 ≠ 0 ∨ bitsAt x 183 9 ≠ 0 ∨ bitsAt x 213 11 ≠ 0 ∨
      bitsAt x 245 11 ≠ 0 then some 1
  else if 65535 < popBase x + popNm1 x then some 2
  else if s.foreignPop eng s.core p then some 3
  else if popField x 0x1C 21 % 16 ≠ 0 ∨ popField x 0x18 21 % 4 ≠ 0 ∨
      lslim < popField x 0x18 21 + 4 * (popNm1 x + 2) then some 4
  else if popMbx x ∧ !s.clusterPresent (popField x 0x14 23) then some 5
  else none

/-- The refusal of a `.eng` block. -/
def State.engRefusal (s : State) (eng x : Nat) : Option Nat :=
  if bitsAt x 25 7 ≠ 0 ∨ bitsAt x 33 31 ≠ 0 then some 1
  else if bitsAt x 0 25 = 0 ∨ 0x1000000 < bitsAt x 0 25 then some 2
  else if (List.range 16).any fun p => popEn (s.popDesc eng p) && s.foreignPop eng s.core p then some 3
  else none

/-- The counters of R325 cleared. -/
def Engine.clear (e : Engine) : Engine :=
  { e with deliv := 0, refdrop := 0, late := 0, overflow := 0, reject := 0, fanlost := 0, fired := 0, reclost := 0, flags := 0 }

/-- The owner of a population set. -/
def Engine.own (e : Engine) (p core num : Nat) : Engine :=
  { e with owners := (p, core, num) :: e.owners.filter (·.1 != p) }

/-- A refusal: a late EVENT fault (R344). -/
def State.eventRefused (s : State) (seq : BitVec 16) (reason : Nat) : State := s.lateFault seq Cause.event reason

/-- `evcfg` performed with the block it has read. -/
def State.configure (s : State) (eng : Nat) (o : Op) (kind : CfgKind) (num : Nat) (xs : List Byte) : State :=
  let x := leNat xs
  match kind with
  | .leak => ({ s with mem := s.mem.writeBytes (keyLeak eng (1024 * num)) xs } : State).opDone o.seq
  | .pop => match s.popRefusal eng num o.att.lslim.toNat x with
    | some r => s.eventRefused o.seq r
    | none => (({ s with mem := s.mem.writeBytes (keyPop eng (32 * num)) xs } : State).modEngine eng
        (·.own num s.core.addr.toNat s.core.info.num)).opDone o.seq
  | .eng => match s.engRefusal eng x with
    | some r => s.eventRefused o.seq r
    | none => (s.modEngine eng fun e =>
        { (if x.testBit 32 then e.clear else e) with tickns := bitsAt x 0 25 }).opDone o.seq

/-- Length of the block of a kind. -/
def CfgKind.len : CfgKind → Nat
  | .pop => 32
  | .leak => 1024
  | .eng => 8

/-- Where an event word posted by a thread goes: its own engine, or another's by a core address. -/
def ownTarget (c : Nat) (target : Option Nat) : Bool := match target with
  | none => true
  | some t => !isMemCore t && unitOf t == unitOf c

/-- `evpost` to another engine; one that cannot be delivered is discarded (R346, R396, R411). -/
def State.postAway (s : State) (seq : BitVec 16) (w : Word) (c : Nat) : State :=
  if !s.clusterPresent c then s.eventRefused seq 5
  else if !s.eventReaches s.core.addr.toNat c then s.opDone seq
  else ({ s with evnet := s.evnet ++
    [{ src := s.core.thread, engine := none, target := unitOf c, w := w, t := none }] } : State).opDone seq

/-- The status of an engine (R325). -/
def State.engineStatus (s : State) (eng : Nat) : List Byte :=
  let e := s.engine eng
  natLe 4 e.deliv.toNat ++ natLe 4 e.refdrop.toNat ++ natLe 4 e.late.toNat ++ natLe 4 e.overflow.toNat ++
    natLe 4 e.reject.toNat ++ natLe 4 e.fanlost.toNat ++ natLe 2 e.queue.length ++
    natLe 1 (s.triggersOf eng).length ++ natLe 1 e.flags.toNat ++ natLe 4 e.fired.toNat ++ natLe 4 e.reclost.toNat ++
    List.replicate 28 0

/-- Is a queued event due at or before a tick? -/
def Engine.dueBy (e : Engine) (t : Nat) : Bool := e.queue.any fun (q : QEvent) => decide (q.t ≤ t)

/-- `evdrain` taken up: it completes, or waits with its T0 (R349). -/
def State.startDrain (s : State) (eng : Nat) (o : Op) : State :=
  let t0 := s.engineTick eng
  if (s.engine eng).dueBy t0 then
    s.on fun c => c.modOp o.seq fun (p : Op) => { p with started := true, body := .evdrain (some t0) }
  else s.opDone o.seq

/-- The 16 bytes of a state written whole; an error that stood there goes. -/
def State.setBank (s : State) (eng i : Nat) (xs : List Byte) : State :=
  { s.dropPoison (keyBank eng (16 * i)) 16 with mem := s.mem.writeBytes (keyBank eng (16 * i)) xs }

/-- One of the `n` states that an `evread` or `evwrite` still had to move has been moved: the operation is done with the
last, and else goes on with `rest`, so that deliveries may fall between (R348). -/
def State.movedState (s : State) (seq : BitVec 16) (rest : OpBody) (n : Nat) : State :=
  if n ≤ 1 then s.opDone seq else s.on (·.modOp seq fun (p : Op) => { p with started := true, body := rest })

/-- Has the event operation at the head of the queue of the thread in focus begun to move its states? -/
def Core.movesStates (c : Core) : Bool := (c.ops.find? fun (o : Op) => o.body.isEvent).any fun (o : Op) =>
  o.started && match o.body with
  | .evread .. | .evwrite .. => true
  | _ => false

/-- An event operation of the thread in focus performed, or one state of it moved. -/
def State.performEvent (s : State) (o : Op) : State :=
  let c := s.core.addr.toNat
  let eng := unitOf c
  match o.body with
  | .evcfg kind a num => s.engineRead o.seq a kind.len (s.configure eng o kind num)
  | .evpost w target =>
    if ownTarget c target then
      (s.enterQueue eng c (resolveTick w (s.engineTick eng)) w).opDone o.seq
    else s.postAway o.seq w (target.getD 0)
  | .evsweep p => (s.sweep eng p).opDone o.seq
  | .evread a first n =>
    ((s.resultBytes a (s.bankState eng first).bytes).countBank eng first).movedState o.seq (.evread (a + 16) (first + 1) (n - 1)) n
  | .evreadSt a => (s.resultBytes a (s.engineStatus eng)).opDone o.seq
  | .evwrite a first n => s.engineRead o.seq a (16 * n) fun xs =>
      (s.setBank eng first (xs.take 16)).movedState o.seq (.evwrite (a + 16) (first + 1) (n - 1)) n
  | .evdrain none => s.startDrain eng o
  | .evdrainPop p =>
    if s.foreignPop eng s.core p then s.eventRefused o.seq 3
    else ((s.modEngine eng fun e => { e with queue := e.queue.filter fun (q : QEvent) => evPop q.w != p }).drainEvents
      eng).opDone o.seq
  | _ => s

/-- The event operation of the thread in focus that the engine can perform now: the first in issue order, behind no
conflicting operation, with room for an event it posts here (R344, R346). -/
def State.eventReady (s : State) : Option Op :=
  let c := s.core.addr.toNat
  let eng := unitOf c
  match s.core.ops.find? fun (o : Op) => o.body.isEvent with
  | none => none
  | some o =>
    if s.core.blocked o then none
    else match o.body with
    | .evdrain (some _) => none
    | .evpost _ target =>
      if ownTarget c target && (s.engine eng).full then none else some o
    | _ => some o

/-- Has a position of a cluster an operation that its engine can perform? -/
def State.positionReady (s : State) (eng pos : Nat) : Bool :=
  let c := clusterCore eng pos
  (s.focus c).eventReady.isSome || (s.saved.map (·.2)).any fun (k : Core) =>
    k.addr.toNat == c && ({ s with core := k } : State).eventReady.isSome

/-- EVENT_OPERATION_PERFORM: the cores of a cluster are served in turn by position, and one operation that moves states
goes on until its last (R344, R348). -/
def execEventOperationPerform (c : Nat) (s : State) : Out :=
  let a := threadCore c
  let eng := unitOf a
  let e := s.engine eng
  let first := ((List.range 8).map fun i => (e.pos + i) % 8).find? (s.positionReady eng)
  if first = some (posOf a) then
    let t := s.atAgent c fun t => match t.eventReady with
      | some o => t.performEvent o
      | none => t
    let more : Bool := (if c < 2 ^ 23 then some (t.getCore c) else t.getThread c).any Core.movesStates
    .next (t.modEngine eng fun e => { e with pos := if more = true then posOf a else (posOf a + 1) % 8 })
  else .next s

/-- EVDRAIN_COMPLETE (R349). -/
def execEvdrainComplete (c : Nat) (s : State) : Out :=
  .next (s.atAgent c fun t => match t.core.ops.find? fun (o : Op) => o.body.isEvent with
    | some o => match o.body with
      | .evdrain (some t0) => if (t.engine (unitOf t.core.addr.toNat)).dueBy t0 then t else t.opDone o.seq
      | _ => t
    | none => t)

/-! ## TIME (R350, R351) -/

/-- `rdtime`. -/
def execRdtime (d : BitVec 5) (s : State) : Out := .next (s.setG d (s.domainClock (pkgOf s.core.addr.toNat))).adv

/-- `rdtime.tick`: illegal on a memory core. -/
def execRdtimeTick (d : BitVec 5) (s : State) : Out :=
  let c := s.core.addr.toNat
  s.checked (if isMemCore c then some (Cause.illegal, (mkWord 0x37 d 0 0 1).toNat) else none)
    (s.setG d (BitVec.ofNat 64 (s.engineTick (unitOf c)))).adv

/-- The word of a `tarm` form. -/
def tarmWord (d a b : BitVec 5) (ev : Nat) : BitVec 32 := mkWord 0x37 d a b (BitVec.ofNat 11 (64 + ev))

/-- A trigger armed in the set of the core in focus, or the status that says why not (R351). -/
def State.arm (s : State) (d : BitVec 5) (value : Word) (act : TrigAct) (go : State → State) : State :=
  let u := triggerUnit s.core.addr.toNat
  let l := s.triggersOf u
  if triggerRoom u ≤ l.length then (s.setG d 1).adv
  else ((go { s with triggers := aset s.triggers u (l ++ [{ value := value, act := act }]) }).setG d 0).adv

/-- Does a pending copy with TRIG = 1 that is not armed have this number? -/
def Core.armable (c : Core) (seq : BitVec 16) : Bool := match (c.op seq).bind Op.copy? with
  | some r => r.trig == .waiting
  | none => false

/-- The trigger state of a pending copy set. -/
def Core.setTrig (c : Core) (seq : BitVec 16) (x : TrigState) : Core :=
  c.modOp seq fun (o : Op) => match o.body with
    | .copy r => { o with body := .copy { r with trig := x } }
    | _ => o

/-- `tarm`. -/
def execTarm (d a b : BitVec 5) (s : State) : Out :=
  let seq := (s.g b).setWidth 16
  s.checked (s.teamCheck (tarmWord d a b 0))
    (if s.core.armable seq then
      s.arm d (s.g a) (.release s.core.thread seq) (·.on (·.setTrig seq .armed))
    else (s.setG d 2).adv)

/-- `tarm.ev`: illegal on a memory core. -/
def execTarmEv (d a b : BitVec 5) (s : State) : Out :=
  let w := tarmWord d a b 1
  s.checked ((if isMemCore s.core.addr.toNat then some (Cause.illegal, w.toNat) else none).or (s.teamCheck w))
    (s.arm d (s.g a) (.post (s.g b) s.core.thread) id)

/-- `waitt`. -/
def execWaitt (a : BitVec 5) (s : State) : Out :=
  .next (if (s.g a).toNat ≤ (s.domainClock (pkgOf s.core.addr.toNat)).toNat then s.adv else s.waiting (.time (s.g a)))

/-- WAITT_EXPIRY. -/
def execWaittExpiry (c : Nat) (s : State) : Out :=
  .next (s.at c fun t => match t.core.wait with
    | .time v => if v.toNat ≤ (t.domainClock (pkgOf c)).toNat then t.adv.resumed else t
    | _ => t)

/-- A trigger event at its engine: it enters the queue, or waits behind those that wait, never discarded (R330). -/
def State.triggerPost (s : State) (eng : Nat) (w : Word) (core : Nat) : State :=
  let t := resolveTick w (s.engineTick eng)
  if (s.engine eng).full || !(s.engine eng).waiting.isEmpty then
    s.modEngine eng fun e => { e with waiting := e.waiting ++ [(threadCore core, t, w)] }
  else s.enterQueue eng (threadCore core) t w

/-- The trigger of a set that acts next: the lowest value that the clock has reached, the first armed among equals
(R330). -/
def State.dueTrigger (s : State) (u : Nat) : Option Trigger :=
  let now := s.domainClock (triggerPkg u)
  ((s.triggersOf u).filter fun (t : Trigger) => decide (t.value.toNat ≤ now.toNat)).foldl (fun b (t : Trigger) => match b with
    | some x => if t.value.toNat < x.value.toNat then some t else some x
    | none => some t) none

/-- TRIGGER_FIRE. -/
def execTriggerFire (unit : Nat) (s : State) : Out :=
  match s.dueTrigger unit with
  | none => .next s
  | some x =>
    let t : State := { s with triggers := aset s.triggers unit ((s.triggersOf unit).erase x) }
    match x.act with
    | .release k seq => .next (t.atThread k (·.on (·.setTrig seq .released)))
    | .post w k => .next (t.triggerPost unit w k)

/-! ## Steps of the domain clock (R327 to R329, R331) -/

/-- A step of a package's clock from a value to the one it has now, as TSTAT records it (R328). -/
def State.recordStep (s : State) (pkg : Nat) (old : Word) : State :=
  let x := s.domainClock pkg
  s.modPkg pkg fun p => { p with
    steps := satInc p.steps
    back := decide (x.toNat < old.toNat)
    mag := BitVec.ofNat 32 (min (max x.toNat old.toNat - min x.toNat old.toNat) 0xFFFFFFFF) }

/-- The clock of a package stepped to a new value, with its record (R328). -/
def State.stepClock (s : State) (pkg : Nat) (x : Word) : State :=
  (s.modPkg pkg fun p => { p with clockOff := x - BitVec.ofNat 64 s.ns }).recordStep pkg (s.domainClock pkg)

/-- Time has passed since `old`: a clock that wrapped has made a step to its new value (R327). Packages that are not listed
wrap together. -/
def State.wrapClocks (s old : State) : State :=
  let ks := if s.ns / 2 ^ 64 = old.ns / 2 ^ 64 then s.pkgs.map (·.1) else List.range 2048
  ks.foldl (fun t k => if (s.domainClock k).toNat < (old.domainClock k).toNat then t.recordStep k (old.domainClock k) else t) s

/-- DOMAIN_CLOCK_STEP: a correction of more than 1 µs. -/
def execDomainClockStep (pkg : Nat) (x : BitVec 64) (s : State) : Out :=
  let old := s.domainClock pkg
  if 1000 < max x.toNat old.toNat - min x.toNat old.toNat then .next (s.stepClock pkg x) else .next s

/-- GRANDMASTER_LOCK_CHANGE: TSTAT.SYNC (R328). -/
def execGrandmasterLockChange (pkg : Nat) (lock : Bool) (s : State) : Out :=
  .next (s.modPkg pkg fun p => { p with sync := lock })

end Sys2Proof.Machine
end

