-- ==== Sys2Proof/Machine/Registrar.lean ====
section
/-!
DEFINITION. Sys2Proof/Machine/Registrar.lean: what the registrar reads and checks before it places a launch: the record,
the kernel header, the barrier and preload tables, the segments and the bay image (R89, R90, R148, R166, R167, R169,
R362, R371, R395).
-/

namespace Sys2Proof.Machine

/-! ## Status codes (R172) -/

/-- OK. -/
abbrev stOk : Nat := 0
/-- HEADER. -/
abbrev stHeader : Nat := 1
/-- RECORD. -/
abbrev stRecord : Nat := 2
/-- PRELOAD. -/
abbrev stPreload : Nat := 3
/-- FAULT. -/
abbrev stFault : Nat := 4
/-- HALTED. -/
abbrev stHalted : Nat := 5
/-- CANCELLED. -/
abbrev stCancelled : Nat := 6

/-! ## Fields of a record (R166) -/

/-- KHDR. -/
def recKhdr (x : BitVec 512) : Nat := recField x 0x00 64
/-- Byte 0x0B. -/
def recFlags (x : BitVec 512) : Nat := recField x 0x0B 8
/-- GANG. -/
def recGang (x : BitVec 512) : Bool := (recFlags x).testBit 0
/-- PREEMPT. -/
def recPreempt (x : BitVec 512) : Bool := (recFlags x).testBit 1
/-- CKPT. -/
def recCkpt (x : BitVec 512) : Bool := (recFlags x).testBit 2
/-- PIN. -/
def recPin (x : BitVec 512) : Bool := (recFlags x).testBit 3
/-- DEFER. -/
def recDefer (x : BitVec 512) : Bool := (recFlags x).testBit 4
/-- PINDIE. -/
def recPinDie (x : BitVec 512) : Nat := recField x 0x0C 8
/-- NPRE. -/
def recNpre (x : BitVec 512) : Nat := recField x 0x0D 8
/-- PRED. -/
def recPred (x : BitVec 512) : Nat := recField x 0x0E 16
/-- SUCCn. -/
def recSucc (x : BitVec 512) (n : Nat) : Nat := recField x (0x10 + 2 * n) 16
/-- RECLOC. -/
def recRecloc (x : BitVec 512) : Nat := recField x 0x18 32
/-- D2SIZE. -/
def recD2 (x : BitVec 512) : Nat := recField x 0x1C 8
/-- PRE. -/
def recPre (x : BitVec 512) : Nat := recField x 0x28 64
/-- BARTAB. -/
def recBartab (x : BitVec 512) : Nat := recField x 0x30 64
/-- ARG. -/
def recArg (x : BitVec 512) : Nat := recField x 0x38 64

/-- The limits of R166 that the record alone decides. -/
def recordOk (x : BitVec 512) : Bool :=
  let grows := recField x 0x08 8
  let gcols := recField x 0x09 8
  let n := recField x 0x0A 8
  let joinn := recField x 0x1E 16
  recKhdr x % 64 == 0 && recKhdr x / 2 ^ 60 == 0 && decide (1 ≤ grows ∧ grows ≤ 16) &&
    decide (1 ≤ gcols ∧ gcols ≤ 16) && decide (1 ≤ n ∧ n ≤ 16) && recFlags x / 32 == 0 && decide (recPinDie x < 8) &&
    decide (recNpre x ≤ 4) && recRecloc x % 64 == 0 && decide (1 ≤ recD2 x ∧ recD2 x ≤ 16) && n % recD2 x == 0 &&
    recField x 0x1D 8 == 0 && (joinn == 0 || decide (2 ≤ joinn ∧ joinn ≤ 2048)) && recField x 0x24 32 == 0 &&
    (recNpre x != 0 || recPre x == 0)

/-- The dies a record may be placed on: PINDIE, or those of the queue's mask (R170). -/
def LQueue.placeDies (q : LQueue) (x : BitVec 512) : List Nat :=
  (List.range 8).filter fun d => q.dies.getLsbD d && (!recPin x || d == recPinDie x)

/-! ## Fields of a kernel header (R89) -/

/-- RM. -/
def hdrRm (h : BitVec 512) : Nat := bitsAt (recField h 0x06 16) 1 3
/-- TOPX. -/
def hdrTopx (h : BitVec 512) : Bool := (recField h 0x06 16).testBit 0
/-- ENTRY. -/
def hdrEntry (h : BitVec 512) : Nat := recField h 0x08 32
/-- LSLIM. -/
def hdrLslim (h : BitVec 512) : Nat := recField h 0x0C 32
/-- VLIM. -/
def hdrVlim (h : BitVec 512) : Nat := recField h 0x10 8
/-- BLIM. -/
def hdrBlim (h : BitVec 512) : Nat := recField h 0x11 8
/-- CLIM. -/
def hdrClim (h : BitVec 512) : Nat := recField h 0x12 8
/-- PLANS. -/
def hdrPlans (h : BitVec 512) : Nat := recField h 0x13 8
/-- PLANBASE. -/
def hdrPlanbase (h : BitVec 512) : Nat := recField h 0x14 32
/-- UNDOBASE. -/
def hdrUndobase (h : BitVec 512) : Nat := recField h 0x18 32
/-- UNDO. -/
def hdrUndo (h : BitVec 512) : Nat := recField h 0x1C 32

/-- The registrar accepts the header (R90): it never clamps one. -/
def headerOk (h : BitVec 512) : Bool :=
  let lim := hdrLslim h
  recField h 0x00 32 == 0x4B514C39 && recField h 0x04 16 == 1 && recField h 0x06 16 / 16 == 0 &&
    recField h 0x20 256 == 0 && decide (0x40 ≤ lim ∧ lim ≤ 0x17C000) && lim % 64 == 0 &&
    decide (1 ≤ hdrVlim h ∧ hdrVlim h ≤ 32) && decide (hdrBlim h ≤ 16) && decide (hdrClim h ≤ 16) &&
    decide (hdrRm h ≤ 4) && decide (hdrPlans h ≤ 8) && hdrEntry h % 4 == 0 && decide (hdrEntry h + 4 ≤ lim) &&
    (if hdrPlans h = 0 then hdrPlanbase h == 0
     else hdrPlanbase h % 64 == 0 && decide (hdrPlanbase h + 128 ≤ lim)) &&
    hdrUndo h % 64 == 0 &&
    (if hdrUndo h = 0 then hdrUndobase h == 0
     else hdrUndobase h % 64 == 0 && decide (hdrUndobase h + hdrUndo h ≤ lim))

/-! ## Barrier table and preload table (R148, R167, R371) -/

/-- An entry of the barrier table (R148). An entry with VALID = 0, or one of a domain barrier with a DIE or rectangle field
that is not zero, is refused as the reserved fields are: the rule's list of refusals does not name it (DESIGN CHOICE,
notes/assumptions/34.md). -/
def barEntryOk (grows gcols : Nat) (x : Word) : Bool :=
  brValid x && brReserved x &&
    if brDom x then bitsAt x.toNat 0 35 == 0
    else decide (1 ≤ brRows x ∧ 1 ≤ brCols x) && decide (brRow0 x + brRows x ≤ grows) &&
      decide (brCol0 x + brCols x ≤ gcols)

/-- Does the barrier of an entry hold the core at (i, j) of its group? -/
def barHolds (x : Word) (i j : Nat) : Bool :=
  brDom x || (decide (brRow0 x ≤ i ∧ i < brRow0 x + brRows x) && decide (brCol0 x ≤ j ∧ j < brCol0 x + brCols x))

/-- The rule of R371 on checkpointed teams. -/
def teamsOk (ckpt : Bool) (grows gcols : Nat) (bars : List Word) : Bool :=
  let l := bars.filter brCkpt
  if ckpt then (List.range grows).all fun i => (List.range gcols).all fun j =>
    (l.filter fun x => barHolds x i j).length == 1
  else l.isEmpty

/-- A preload descriptor (R167). -/
structure Preload where
  src : Nat
  dst : Nat
  len : Nat
deriving DecidableEq, Repr

/-- The descriptors of a preload table. -/
def preloads (n : Nat) (xs : List Byte) : List Preload :=
  (List.range n).map fun i =>
    let f := fun (o k : Nat) => leNat ((xs.drop (16 * i + o)).take k)
    { src := f 0 8, dst := f 8 4, len := f 12 4 }

/-- Every segment, the plan area and the record copy lie below LSLIM, and no two of them share a byte (R167). -/
def spansApart (lim : Nat) : List Span → Bool
  | [] => true
  | x :: l => decide (x.lo + x.len ≤ lim) && !spansHit l x.lo x.len && spansApart lim l

/-- The preload table (R167). -/
def preloadsOk (x h : BitVec 512) (l : List Preload) : Bool :=
  let plan : List Span := if hdrPlans h = 0 then [] else [{ lo := hdrPlanbase h, len := 128 }]
  (l.all fun (p : Preload) => p.dst % 64 == 0 && p.len % 64 == 0) &&
    spansApart (hdrLslim h) ({ lo := recRecloc x, len := 64 } :: plan ++ l.map fun (p : Preload) =>
      ({ lo := p.dst, len := p.len } : Span))

/-! ## What the registrar reads (R165, R169, R362, R405) -/

/-- How a read or translation of the registrar ends. -/
inductive RegRes (α : Type) where
  | wait
  | fault
  | ok (x : α) (s : State)

/-- The stations that the registrar asks: those of the queue's dies first, then the others (notes/assumptions/42.md). -/
def regStations (pkg : Nat) (dies : BitVec 8) : List Nat :=
  ((List.range 8).filter (dies.getLsbD ·)).flatMap (fun d => (List.range 8).map fun k => 64 * pkg + 8 * d + k) ++
    (List.range 64).map (64 * pkg + ·)

/-- The entry that translates an address for the registrar. -/
def State.regFind (s : State) (pid : BitVec 16) (va : Nat) : List Nat → StationAns × State
  | [] => (.absent, s)
  | k :: l => match s.stationFind k pid va with
    | (.absent, t) => t.regFind pid va l
    | r => r

/-- The spans of off-core bytes behind `n` bytes from a virtual address, range by range. -/
def State.regSpans (s : State) (pkg : Nat) (q : LQueue) (va n : Nat) (k : AccKind) :
    Nat → RegRes (List (Xlat × Nat))
  | 0 => if n = 0 then .ok [] s else .fault
  | fuel + 1 =>
    if n = 0 then .ok [] s
    else if 2 ^ 60 ≤ va then .fault
    else match s.regFind q.pid va (regStations pkg q.dies) with
    | (.wait, _) => .wait
    | (.absent, _) => .fault
    | (.hit e, t) =>
      if e.state = .moving then .wait
      else
        let m := min n (e.entry.limit.toNat - va)
        match e.entry.check va k m with
        | some _ => .fault
        | none => match t.regSpans pkg q (va + m) (n - m) k fuel with
          | .ok l t1 => .ok ((e.entry.xlat va, m) :: l) t1
          | r => r

/-- Does the registrar of a die run, and reach it: its gateway die is live and their link is up (R384, R390, R396)? -/
def Package.registrarUp (p : Package) (die : Nat) : Bool := p.gatewayUp die

/-- The die whose registrar acts for a queue: the first of its mask that runs (notes/assumptions/42.md). -/
def State.regDie (s : State) (pkg : Nat) (q : LQueue) : Option Nat :=
  (List.range 8).find? fun d => q.dies.getLsbD d && (s.getPkg pkg).registrarUp d

/-- Can the registrar of a queue reach the memory at a DPA: over its gateway's link, the route of R385 and the stack's
link, or over the ports of the package and, in another, the links there (R384, R385, R411)? -/
def State.regWay (s : State) (pkg : Nat) (q : LQueue) (pa : Nat) (place : BitVec 2) : Bool :=
  let p := s.getPkg (dpaPkg pa)
  let k := (p.placeOf place (dpaLocal pa)).1
  s.reaches pkg (dpaPkg pa) && s.windowUp pa &&
    if targetOf pa = .stacked then
      p.stackUp k && if dpaPkg pa = pkg then (s.regDie pkg q).any fun d => s.routeUp pkg d (k / 2) else p.gatewayUp (k / 2)
    else (s.endGateways pa).any p.gatewayLive

/-- Can the registrar reach the bytes, and do they hold no error? An address without plain bytes is refused as a range
fault is (notes/assumptions/42.md). -/
def State.regReaches (s : State) (pkg : Nat) (q : LQueue) (x : Xlat × Nat) : Bool :=
  s.regWay pkg q x.1.pa x.1.place && match s.offKey x.1.pa x.1.place with
    | some k => !s.poisonHit k x.2
    | none => false

/-- Bytes that the registrar reads under the queue's PID. -/
def State.regRead (s : State) (pkg : Nat) (q : LQueue) (va n : Nat) (k : AccKind) : RegRes (List Byte) :=
  match s.regSpans pkg q va n k (n / 64 + 2) with
  | .wait => .wait
  | .fault => .fault
  | .ok l t =>
    if l.all (t.regReaches pkg q) then .ok (l.flatMap fun x => t.offBytes x.1.pa x.1.place x.2) t else .fault

/-! ## The checks before placement (R169, step 1) -/

/-- How the checks on a record end: waiting, a refusal with a status, or the header, the barrier table and the preload
descriptors. -/
inductive RecRes where
  | wait
  | refuse (code : Nat)
  | ok (header : BitVec 512) (bars : List Word) (pre : List Preload) (s : State)

/-- The barrier and preload tables. -/
def State.tablesCheck (s : State) (pkg : Nat) (q : LQueue) (x h : BitVec 512) : RecRes :=
  let blim := hdrBlim h
  if hdrLslim h < recRecloc x + 64 ∨ (blim = 0 ∧ recBartab x ≠ 0) then .refuse stRecord
  else match s.regRead pkg q (recBartab x) (8 * blim) .engineRead with
  | .wait => .wait
  | .fault => .refuse stRecord
  | .ok bs t =>
    let bars := (chunks 8 bs).map fun b => BitVec.ofNat 64 (leNat b)
    let grows := recField x 0x08 8
    let gcols := recField x 0x09 8
    if !(bars.all (barEntryOk grows gcols) && teamsOk (recCkpt x) grows gcols bars) then .refuse stRecord
    else match t.regRead pkg q (recPre x) (16 * recNpre x) .engineRead with
    | .wait => .wait
    | .fault => .refuse stRecord
    | .ok ps t1 =>
      let pre := preloads (recNpre x) ps
      if preloadsOk x h pre then .ok h bars pre t1 else .refuse stRecord

/-- The record, the header and the tables, in the order of R169. -/
def State.recordCheck (s : State) (pkg : Nat) (q : LQueue) (x : BitVec 512) : RecRes :=
  if !recordOk x || (recPin x && !q.dies.getLsbD (recPinDie x)) then .refuse stRecord
  else match s.regRead pkg q (recKhdr x) 64 .engineRead with
  | .wait => .wait
  | .fault => .refuse stHeader
  | .ok hs t =>
    let h : BitVec 512 := BitVec.ofNat 512 (leNat hs)
    if headerOk h then t.tablesCheck pkg q x h else .refuse stHeader

/-! ## What each core is given (R169, step 4) -/

/-- The bay image of a queue, or the resident handler; the image lies in one range with RD and X (R362). -/
def State.bayImage (s : State) (pkg : Nat) (q : LQueue) : RegRes (List Byte) :=
  let va := q.bay.toNat
  if va = 0 then .ok (residentImage ++ List.replicate (bayImageLen - residentImage.length) 0) s
  else match s.regFind q.pid va (regStations pkg q.dies) with
  | (.wait, _) => .wait
  | (.absent, _) => .fault
  | (.hit e, t) =>
    if e.entry.rd ∧ e.entry.x ∧ va + bayImageLen ≤ e.entry.limit.toNat then t.regRead pkg q va bayImageLen .codeRead
    else .fault

/-- The segments, as local addresses with their bytes. -/
def State.segments (s : State) (pkg : Nat) (q : LQueue) : List Preload → RegRes (List (Nat × List Byte))
  | [] => .ok [] s
  | p :: l => match s.regRead pkg q p.src p.len .codeRead with
    | .wait => .wait
    | .fault => .fault
    | .ok xs t => match t.segments pkg q l with
      | .ok r t1 => .ok ((p.dst, xs) :: r) t1
      | r => r

/-- All that each core of a launch is given: the record at RECLOC, the segments, and the bay with its save area. -/
def State.loadOf (s : State) (pkg : Nat) (q : LQueue) (x : BitVec 512) (pre : List Preload) :
    RegRes (List (Nat × List Byte)) :=
  match s.segments pkg q pre with
  | .wait => .wait
  | .fault => .fault
  | .ok segs t => match t.bayImage pkg q with
    | .wait => .wait
    | .fault => .fault
    | .ok bay t1 => .ok ((recRecloc x, natLe 64 x.toNat) :: segs ++ [(bayBase, bay ++ List.replicate saveLen 0)]) t1

end Sys2Proof.Machine
end

