-- ==== Sys2Proof/Machine/Launching.lean ====
section
/-!
DEFINITION. Sys2Proof/Machine/Launching.lean: admission, placement and start of launches (R32, R148, R149, R169 to R174,
R395).
-/

namespace Sys2Proof.Machine

/-! ## Free cores and placement (R170) -/

/-- Is a core held by a group that has been placed and not started? -/
def Package.reserves (p : Package) (pkg c : Nat) : Bool :=
  p.launches.any fun (l : Launch) => l.groups.any fun (g : Group) => !g.started && (l.groupCores pkg g).contains c

/-- Is a core free: live, powered, not held, and with no thread and no pending operation (R170, R172)? -/
def State.coreFree (s : State) (c : Nat) : Bool :=
  let p := s.getPkg (pkgOf c)
  let k := s.getCore c
  s.coreExists c && s.dieLive (pkgOf c) (dieOf c) && p.registrarUp (dieOf c) && p.powered c && !p.reserves (pkgOf c) c && !k.alive && !k.anyPending

/-- Rows that a die reports. -/
def Package.rowsOf (p : Package) (die : Nat) : Nat :=
  if p.diePresent.getLsbD die then (p.rows.toList.getD die 0).toNat else 0

/-- The origins of a die at which a rectangle fits, in row-major order (R170). -/
def Package.origins (p : Package) (die grows gcols : Nat) : List (Nat × Nat) :=
  (List.range (p.rowsOf die + 1 - grows)).flatMap fun r => (List.range (17 - gcols)).map fun c => (r, c)

/-- The first usable origin of the first die that has one (R170). -/
def State.findPlace (s : State) (pkg grows gcols : Nat) (taken : List Nat) : List Nat → Option (Nat × Nat × Nat)
  | [] => none
  | d :: ds =>
    let ok := fun (o : Nat × Nat) =>
      (rectCores pkg d o.1 o.2 grows gcols).all fun c => s.coreFree c && !taken.contains c
    match ((s.getPkg pkg).origins d grows gcols).find? ok with
    | some (r, c) => some (d, r, c)
    | none => s.findPlace pkg grows gcols taken ds

/-- Groups `k` to `k + n - 1` placed one after the other, as far as they can be (R170). -/
def State.placeGroups (s : State) (pkg grows gcols : Nat) (dies : List Nat) (k : Nat) (taken : List Nat) :
    Nat → List Group
  | 0 => []
  | n + 1 =>
    match s.findPlace pkg grows gcols taken dies with
    | none => []
    | some (d, r, c) =>
      { idx := k, die := d, row := r, col := c, started := false } ::
        s.placeGroups pkg grows gcols dies (k + 1) (taken ++ rectCores pkg d r c grows gcols) n

/-- Can the record be placed on the reported dies of its mask at all (R395)? -/
def Package.fits (p : Package) (x : BitVec 512) (dies : List Nat) : Bool :=
  let grows := recField x 0x08 8
  let gcols := recField x 0x09 8
  let room := fun (d : Nat) => p.rowsOf d / grows * (16 / gcols)
  if recGang x then decide (recField x 0x0A 8 ≤ (dies.map room).sum) else dies.any fun d => decide (1 ≤ room d)

/-! ## Which record is next (R171, R173, R174) -/

/-- Is a record ready: its predecessor counter reads zero (R171)? -/
def Package.ready (p : Package) (x : BitVec 512) : Bool := recPred x == 0xFFFF || (p.counter (recPred x)).value == 0

/-- The record of a queue that may be admitted, by position (R173); one whose registrars are all down admits none (R396). -/
def Package.candidate (p : Package) (q : LQueue) : Option Nat :=
  if ((List.range 8).all fun d => !(q.dies.getLsbD d && p.registrarUp d)) then none
  else if q.conc then q.records.findIdx? p.ready
  else match q.records with
  | [] => none
  | x :: _ => if p.ready x ∧ !p.launches.any (·.queue == q.num) then some 0 else none

/-- The lowest-numbered queue that satisfies a test. -/
def lowestQueue (f : LQueue → Bool) (l : List LQueue) : Option LQueue :=
  (l.filter f).foldl (fun b (q : LQueue) => match b with
    | none => some q
    | some r => if q.num < r.num then some q else some r) none

/-- The queue served next: the highest level with a record to take in, and in it by weighted round robin in increasing
queue number (R173, notes/assumptions/43.md). The flag says that a new round begins. -/
def Package.nextQueue (p : Package) : Option (LQueue × Bool) :=
  let l := p.queues.filter fun (q : LQueue) => (p.candidate q).isSome
  let top := l.foldl (fun n (q : LQueue) => max n q.prio) 0
  let level := l.filter fun (q : LQueue) => q.prio == top
  match lowestQueue (fun q => decide (q.served < q.weight)) level with
  | some q => some (q, false)
  | none => (lowestQueue (fun _ => true) level).map fun q => (q, true)

/-- The priority of a launch's queue. -/
def Package.prioOf (p : Package) (l : Launch) : Nat := match p.queue l.queue with
  | some q => q.prio
  | none => 0

/-- Is a launch to stop: cancelled, ended by the reset of a die, or with a core ended by a fault (R360, R396)? -/
def State.stopping (s : State) (pkg : Nat) (l : Launch) : Bool :=
  l.cancelled || l.status != 0 || (l.cores pkg).any fun c => match s.anyThread (threadOn l.num c) with
    | some k => decide (k.run = .endedFault)
    | none => false

/-- The next group of a running launch that has not been placed yet. -/
def State.ungrouped (s : State) (pkg : Nat) (l : Launch) : Bool :=
  decide (l.state = .running) && l.status == 0 && decide (l.groups.length < l.ngroups) && !s.stopping pkg l

/-- The dies of a launch. -/
def Package.launchDies (p : Package) (l : Launch) : List Nat := match p.queue l.queue with
  | some q => q.placeDies l.record
  | none => []

/-- The place of a launch's next group, if there is one now. -/
def State.nextPlace (s : State) (pkg : Nat) (l : Launch) : Option (Nat × Nat × Nat) :=
  if s.ungrouped pkg l then s.findPlace pkg l.grows l.gcols [] ((s.getPkg pkg).launchDies l) else none

/-- Does something go before a record of a priority: a group of a running launch that can be placed now, or a pre-empted
launch of its priority or higher (R170, R174)? A group that can be placed is placed first whatever the record's priority,
and before a pre-empted launch gets its cores back: R170 places it as soon as an origin is usable, and R173 and R174 do not
name it (DESIGN CHOICE, notes/assumptions/33.md). A launch some of whose groups find no origin yet is no head record any
more, and does not stop the admission of others (DESIGN CHOICE, notes/assumptions/59.md). -/
def State.before (s : State) (pkg prio : Nat) : Bool :=
  let p := s.getPkg pkg
  p.launches.any fun (l : Launch) =>
    (s.nextPlace pkg l).isSome || (decide (l.state = .preempted) && decide (prio ≤ p.prioOf l))

/-- A launch number that no launch of the package uses, from `n` on; never 0 (R149, notes/assumptions/44.md). -/
def Package.freeNum (p : Package) (n : Nat) : Nat :=
  ((List.range (p.launches.length + 1)).map fun i => (n + i - 1) % 65535 + 1).find? (fun k =>
    !p.launches.any (·.num == k)) |>.getD n

/-! ## LAUNCH_ADMISSION (R169, steps 1 and 2) -/

/-- A record taken from its queue as a launch; its queue has been served once. -/
def Package.admitRecord (p : Package) (q : LQueue) (i : Nat) (fresh : Bool) (l : Launch) : Package :=
  let round := fun (u : LQueue) => if fresh ∧ u.prio = q.prio then { u with served := 0 } else u
  let take := fun (u : LQueue) =>
    if u.num = q.num then { u with records := u.records.eraseIdx i, served := u.served + 1 } else u
  { p with
    queues := p.queues.map fun u => take (round u)
    launches := p.launches ++ [l]
    nextNum := BitVec.ofNat 16 (l.num % 65535 + 1) }

/-- What the `done` and `signal` that readied a record have published to the cores of its launch (R202, R234). -/
def Package.readyPub (p : Package) (x : BitVec 512) : List Nat :=
  if recPred x = 0xFFFF then [] else (p.counter (recPred x)).pub

/-- The launch that a record makes. -/
def Package.newLaunch (p : Package) (q : LQueue) (x h : BitVec 512) (bars : List Word)
    (load : List (Nat × List Byte)) (groups : List Group) (status : Nat) : Launch :=
  { num := p.freeNum p.nextNum.toNat, queue := q.num, record := x, header := h, bars := bars, load := load,
    groups := groups, state := .running, status := BitVec.ofNat 8 status, cancelled := false, pub := p.readyPub x }

/-- The groups of a record that are placed at its admission: all of them or none with GANG, else the first (R170). -/
def State.firstGroups (s : State) (pkg : Nat) (q : LQueue) (x : BitVec 512) : List Group :=
  let n := recField x 0x0A 8
  let gs := s.placeGroups pkg (recField x 0x08 8) (recField x 0x09 8) (q.placeDies x) 0 []
    (if recGang x then n else 1)
  if recGang x ∧ gs.length < n then [] else gs

/-- The record that a queue may give up, admitted: it becomes a launch that is refused, or one whose first groups are
placed; it stays queued while they find no place. -/
def State.admitRecord (s : State) (pkg : Nat) (q : LQueue) (i : Nat) (fresh : Bool) (x : BitVec 512) : State :=
  let p := s.getPkg pkg
  let refuse := fun (t : State) (code : Nat) =>
    t.modPkg pkg fun p => p.admitRecord q i fresh (p.newLaunch q x 0 [] [] [] code)
  match s.recordCheck pkg q x with
  | .wait => s
  | .refuse code => refuse s code
  | .ok h bars pre t =>
    if !p.fits x (q.placeDies x) then refuse t stRecord
    else
      let gs := t.firstGroups pkg q x
      if gs.isEmpty then s
      else match t.loadOf pkg q x pre with
      | .wait => s
      | .fault => refuse t stPreload
      | .ok load t1 => t1.modPkg pkg fun p => p.admitRecord q i fresh (p.newLaunch q x h bars load gs stOk)

/-- LAUNCH_ADMISSION: queue `q` is the one served next (R173), and nothing goes before it (R174). -/
def execLaunchAdmission (pkg q : Nat) (s : State) : Out :=
  let p := s.getPkg pkg
  match p.nextQueue with
  | none => .next s
  | some (u, fresh) =>
    if u.num ≠ q ∨ s.before pkg u.prio then .next s
    else match p.candidate u with
    | none => .next s
    | some i => match u.records[i]? with
      | none => .next s
      | some x => .next (s.admitRecord pkg u i fresh x)

/-! ## The state at a start (R32, R148, R149) -/

/-- DOMAIN of a level for the cores of group `k` (R149). -/
def Launch.domainWord (l : Launch) (k level : Nat) : Word :=
  let all := 2 ^ l.ngroups - 1
  let d2 := recD2 l.record
  let base := fun (groups npkg : Nat) => 2 ^ 47 + npkg * 2 ^ 32 + groups % 2 ^ 16 * 2 ^ 16 + l.num
  BitVec.ofNat 64 (
    if level = 0 then base (2 ^ k) 1
    else if level = 2 then base ((2 ^ d2 - 1) * 2 ^ (k / d2 * d2)) 1
    else if level = 3 ∧ l.joinn ≠ 0 then base all l.joinn + 2 ^ 46
    else base all 1)

/-- BRECT of barrier `n` for the core at (i, j) of a group: 0 for a rectangle that does not hold the core (R148). -/
def Launch.brectWord (l : Launch) (g : Group) (i j n : Nat) : Word :=
  let x := l.bars.getD n 0
  if n < l.bars.length ∧ barHolds x i j then brAbsolute x g.die g.row g.col else 0

/-- What the thread at (i, j) of a group has from its launch. -/
def Launch.infoOf (l : Launch) (g : Group) (weight i j : Nat) : LaunchInfo :=
  { num := l.num, queue := l.queue, group := g.idx, index := i * l.gcols + j, row0 := g.row, col0 := g.col,
    grows := l.grows, gcols := l.gcols, plans := hdrPlans l.header, planbase := hdrPlanbase l.header,
    undobase := hdrUndobase l.header, undo := hdrUndo l.header, weight := weight, joinn := l.joinn,
    jointag := l.jointag, call := none }

/-- STATUS at a start by launch. -/
def Launch.startStatus (l : Launch) : Status :=
  { Status.reset with
    ie := true, preempt := recPreempt l.record, ckpt := recCkpt l.record, topx := hdrTopx l.header
    rm := BitVec.ofNat 3 (hdrRm l.header) }

/-- The control registers at a start by launch. -/
def Launch.startCtl (l : Launch) (g : Group) (pid : BitVec 16) (i j : Nat) : Ctl :=
  { Ctl.reset with
    status := l.startStatus, pid := pid
    lslim := BitVec.ofNat 21 (hdrLslim l.header), vlim := BitVec.ofNat 6 (hdrVlim l.header)
    blim := BitVec.ofNat 5 (hdrBlim l.header), clim := BitVec.ofNat 5 (hdrClim l.header)
    brect := Vector.ofFn fun (n : Fin 16) => l.brectWord g i j n.val
    domain := Vector.ofFn fun (n : Fin 4) => l.domainWord g.idx n.val }

/-- A core as a thread starts on it: what outlives a thread stays (R9, R20, R249, R380). -/
def Core.fresh (c : Core) : Core :=
  { Core.idle c.addr with resetAt := c.resetAt, faults := c.faults, wbits := c.wbits, calls := c.calls }

/-- The core at (i, j) of a group at its start (R32), which acquires what readied the launch (R234). -/
def Launch.startCore (l : Launch) (g : Group) (q : LQueue) (i j : Nat) (c : Core) : Core :=
  let k : Core :=
    { c.fresh with
      view := { View.reset with seen := l.pub }
      run := .running, ctl := l.startCtl g q.pid i j, info := l.infoOf g q.weight i j
      regs := { Regs.reset with pc := BitVec.ofNat 21 (hdrEntry l.header) } }
  (k.setG 3 (BitVec.ofNat 64 (recRecloc l.record))).setG 4 (BitVec.ofNat 64 (i * l.gcols + j))

/-! ## LAUNCH_START (R169, steps 3 to 5) -/

/-- Bytes that the registrar writes into a core's store; an error that stood there goes. -/
def State.giveBytes (s : State) (c : Nat) (x : Nat × List Byte) : State :=
  let k := keyLocal c x.1
  (s.dropPoison k x.2.length).withMem (·.writeBytes k x.2)

/-- The store of a core at a start: zeroed first outside the open state (R32, R424). -/
def State.giveStore (s : State) (pkg c : Nat) (load : List (Nat × List Byte)) : State :=
  let t : State := if (s.getPkg pkg).security = .opened then s
    else (s.dropPoison (keyLocal c 0) 0x180000).withMem (·.zero (keyLocal c 0) 0x180000)
  load.foldl (fun t x => t.giveBytes c x) t

/-- The context of the thread that ran here before is kept while its own launch still runs (R172). -/
def State.keepEnded (s : State) (pkg c : Nat) : State :=
  let k := s.getCore c
  if k.run ≠ .idle ∧ ((s.getPkg pkg).launch k.info.num).isSome then { s with ended := aset s.ended k.thread k } else s

/-- A core of a die runs a thread again: what is addressed to the die can be delivered (R396). -/
def Package.dieWakes (p : Package) (die : Nat) : Package := { p with dieQuiet := p.dieQuiet &&& ~~~(BitVec.twoPow 8 die) }

/-- The core at position `m` of a group starts. -/
def State.startCore (s : State) (pkg : Nat) (l : Launch) (g : Group) (q : LQueue) (m : Nat) : State :=
  let i := m / l.gcols
  let j := m % l.gcols
  let c := tileAddr pkg g.die (g.row + i) (g.col + j)
  let t := ((((s.keepEnded pkg c).at c State.dropWaiting).giveStore pkg c l.load).modPkg pkg (·.dieWakes g.die)).modCore c
    (l.startCore g q i j)
  if recCkpt l.record then { t with snaps := aset t.snaps (threadOn l.num c) (t.getCore c) } else t

/-- All the cores of a group start. -/
def State.startGroup (pkg : Nat) (l : Launch) (q : LQueue) (s : State) (g : Group) : State :=
  (List.range (l.grows * l.gcols)).foldl (fun t m => t.startCore pkg l g q m) s

/-- A change to a launch. -/
def Package.modLaunch (p : Package) (num : Nat) (f : Launch → Launch) : Package :=
  { p with launches := p.launches.map fun (l : Launch) => if l.num = num then f l else l }

/-- The groups of a list marked as started. -/
def Launch.markStarted (l : Launch) (f : Group → Bool) : Launch :=
  { l with groups := l.groups.map fun (g : Group) => if f g then { g with started := true } else g }

/-- Groups that have been placed start in one clk. -/
def State.startGroups (s : State) (pkg : Nat) (l : Launch) (f : Group → Bool) : State :=
  match (s.getPkg pkg).queue l.queue with
  | none => s
  | some q =>
    let gs := l.groups.filter fun (g : Group) => !g.started && f g
    (gs.foldl (State.startGroup pkg l q) s).modPkg pkg (·.modLaunch l.num (·.markStarted f))

/-- LAUNCH_START: a placed group starts, with GANG every group of the launch; a later group is placed first, once all
before it are (R170). -/
def execLaunchStart (pkg num grp : Nat) (s : State) : Out :=
  match (s.getPkg pkg).launch num with
  | none => .next s
  | some l =>
    if s.stopping pkg l ∨ l.state ≠ .running then .next s
    else match l.group grp with
    | some _ => .next (s.startGroups pkg l fun g => recGang l.record || g.idx == grp)
    | none =>
      if l.groups.length ≠ grp then .next s
      else match s.nextPlace pkg l with
      | none => .next s
      | some (d, r, c) =>
        let l1 : Launch := { l with groups := l.groups ++ [{ idx := grp, die := d, row := r, col := c, started := false }] }
        .next ((s.modPkg pkg (·.modLaunch num fun _ => l1)).startGroups pkg l1 fun g => g.idx == grp)

end Sys2Proof.Machine
end

