-- ==== Sys2Proof/Machine/Ending.lean ====
section
/-!
DEFINITION. Sys2Proof/Machine/Ending.lean: how a launch ends: its cores stop, what it held is given up, its status is
written and its successors are decremented (R171, R172, R256, R317, R331, R360, R405), and loader calls (R297).
-/

namespace Sys2Proof.Machine

/-! ## Stopping a thread (R360, R366) -/

/-- The core in focus stops at a boundary because its launch ends: what can be squashed is squashed, the rest runs on,
and no handler runs. -/
def State.stopThread (how : RunState) (s : State) : State :=
  let t := s.keepOps.leaveGang.withdrawFollow
  t.on fun c => { c with run := how, wait := .no, kept := [], keptTrig := [], preempt := none,
                         frame := none, outst := none, rtab := { c.rtab with miss := none } }

/-- Is the core between instructions? -/
def Core.between (c : Core) : Bool := c.frame.isNone && c.outst.isNone

/-- How a launch that stops leaves its threads: a cancellation discards what their operations still bring (R360). -/
def Launch.stopsAs (l : Launch) : RunState := if l.cancelled then .cancelled else .endedFault

/-- A thread of a launch that stops: on its core between instructions, or in its saved context. One in the halt debug
state waits for its debugger (R172). -/
def State.stopOf (how : RunState) (s : State) (k : Nat) : State :=
  match s.getThread k with
  | none => s
  | some c =>
    if c.run ≠ .haltDebug ∧ c.alive ∧ c.between then s.atThread k (State.stopThread how) else s

/-! ## What ends with a launch -/

/-- Has the thread ended, with no entry of its ring pending (R172)? -/
def Core.finished (c : Core) : Bool :=
  !c.alive && decide (c.run ≠ .idle) && !c.anyPending

/-- The threads of a launch's placed groups that have started. -/
def Launch.threads (l : Launch) (pkg : Nat) : List Nat :=
  ((l.groups.filter (·.started)).flatMap (l.groupCores pkg)).map (threadOn l.num)

/-- The status of a launch whose threads have all ended (R172): a refusal's code; else, of several codes that apply,
CANCELLED before FAULT before HALTED, of which the table gives no order (DESIGN CHOICE, notes/assumptions/60.md). -/
def State.launchCode (s : State) (pkg : Nat) (l : Launch) : Nat :=
  let has := fun (r : RunState) => (l.threads pkg).any fun k => match s.anyThread k with
    | some c => decide (c.run = r)
    | none => false
  if l.status ≠ 0 then l.status.toNat
  else if l.cancelled then stCancelled
  else if has .endedFault then stFault
  else if has .halted then stHalted
  else stOk

/-- Have the guard operations of a thread run, but for acquires that wait for their grant (R256, R278)? -/
def Core.guardsRun (c : Core) : Bool :=
  c.ops.all fun (o : Op) => match o.body with
    | .guard form num _ _ _ => o.started && (form == .gacqS || form == .gacqX) && (c.binding num).any fun b => match b.state with
      | .acquiring _ => true
      | _ => false
    | _ => true

/-- The bindings of a thread that a fault or a cancellation ended are taken down, in binding order, once its guard
operations have run (R256). -/
def State.endThreadBinds (s : State) (k : Nat) : State :=
  match s.getThread k with
  | some c =>
    if (c.run = .endedFault ∨ c.run = .cancelled) ∧ c.guardsRun then s.endBindings k State.takeDown else s
  | none => s

/-- The populations that threads of a launch own are disabled, and their queued events discarded (R317); waiting trigger
events take the room (R330). -/
def State.dropPops (s : State) (ks : List Nat) : State :=
  s.engines.foldl (fun t (x : Nat × Engine) =>
    let mine := (x.2.owners.filter fun o => ks.contains (threadOn o.2.2 o.2.1)).map (·.1)
    if mine.isEmpty then t
    else
      let clear := fun (m : Memory) (p : Nat) =>
        let k := keyPop x.1 (32 * p + 4)
        m.writeBytes k [m.byte k &&& 0xEF]
      (({ t with mem := mine.foldl clear t.mem } : State).modEngine x.1 fun e =>
        { e with
          owners := e.owners.filter fun o => !mine.contains o.1
          queue := e.queue.filter fun (q : QEvent) => !mine.contains (evPop q.w) }).drainEvents x.1) s

/-- The triggers of threads disarmed (R331). -/
def State.dropTriggers (s : State) (ks : List Nat) : State :=
  { s with triggers := s.triggers.map fun (u, l) => (u, l.filter fun (t : Trigger) => match t.act with
      | .release c _ => !ks.contains c
      | .post _ c => !ks.contains c) }

/-- The contexts of threads forgotten; their cores stand idle. -/
def State.forget (s : State) (ks : List Nat) : State :=
  let t : State := { s with
    saved := s.saved.filter fun (x : Nat × Core) => !ks.contains x.1
    snaps := s.snaps.filter fun (x : Nat × Core) => !ks.contains x.1
    ended := s.ended.filter fun (x : Nat × Core) => !ks.contains x.1 }
  ks.foldl (fun t k => if (t.getCore (threadCore k)).thread = k then
    t.modCore (threadCore k) fun c => { c with run := .idle, wait := .no } else t) t

/-! ## The status ring (R405) -/

/-- The status of a launch. -/
def statusBytes (num code seq : Nat) (x : BitVec 512) : List Byte :=
  natLe 2 num ++ natLe 1 code ++ natLe 1 0 ++ natLe 4 seq ++ natLe 8 (recArg x)

/-- Can the registrar of a queue reach a core (R385, R411)? -/
def State.regCore (s : State) (pkg : Nat) (q : LQueue) (c : Nat) : Bool :=
  s.coreUp c &&
    if pkgOf c = pkg then (s.regDie pkg q).any fun d => s.routeUp pkg d (dieOf c)
    else s.reaches pkg (pkgOf c) && (s.getPkg (pkgOf c)).gatewayUp (dieOf c)

/-- The halves of a status written into the store of the thread in focus, each a release at scope sys (R405). -/
def State.statusWords (s : State) (pkg : Nat) (pub : List Nat) (a : Nat) (xs : List Byte) : State :=
  (chunks 8 xs).zipIdx.foldl (fun t x => t.foreignWord (.registrar pkg) scopeSys pub (a + 8 * x.2) x.1) s

/-- A status written into the store of a named core: of the thread of the queue's process that runs or is saved there,
or of a core that runs none; `none` when the core cannot take it (notes/assumptions/45.md). -/
def State.statusLocal (s : State) (pkg : Nat) (q : LQueue) (pub : List Nat) (c a : Nat) (xs : List Byte) : Option State :=
  let k := s.getCore c
  let all := joinIds pub (s.registrarOwn pkg)
  if !s.coreExists c || (isMemCore c && !isChannelCore c) || !s.dieLive (pkgOf c) (dieOf c) || !s.regCore pkg q c ||
      !(s.getPkg (pkgOf c)).powered c || decide (0x17C000 < a + 16) then none
  else match s.storeOwner q.pid c with
  | some t => some (s.atThread t (·.statusWords pkg all a xs))
  | none => if k.alive then none else some (s.at c (·.statusWords pkg all a xs))

/-- Bytes written at a DPA as 8-byte units. -/
def State.writeHalves (s : State) (w : WStand) (x : Xlat) (xs : List Byte) : State :=
  (chunks 8 xs).zipIdx.foldl (fun t y => t.offWriteBytes w (x.pa + 8 * y.2) x.place y.1) s

/-- A status written through a virtual address, as an engine write of the queue's PID: each half is single-copy atomic, and
releases at scope sys what `pub` lists. -/
def State.statusOff (s : State) (pkg : Nat) (q : LQueue) (pub : List Nat) (l : List (Xlat × Nat)) (xs : List Byte) :
    Option State :=
  let w := s.registrarStand pkg true pub
  if l.all fun x => s.regWay pkg q x.1.pa x.1.place && (s.offKey x.1.pa x.1.place).isSome then
    some (l.foldl (fun (acc : State × List Byte) x =>
      (acc.1.writeHalves w x.1 (acc.2.take x.2), acc.2.drop x.2)) (s, xs)).1
  else none

/-- The entry of the status ring, if it can be written; the outer `none` waits for a range that changes. -/
def State.statusWrite (s : State) (pkg : Nat) (q : LQueue) (pub : List Nat) (xs : List Byte) : Option (Option State) :=
  let off := 16 * (q.seq.toNat % q.entries)
  if bitOf q.ring 63 then
    some (s.statusLocal pkg q pub (bitsAt q.ring.toNat 21 23) (bitsAt q.ring.toNat 0 21 + off) xs)
  else match s.regSpans pkg q (q.ring.toNat + off) 16 .engineWrite 3 with
  | .wait => none
  | .fault => some none
  | .ok l t => some (t.statusOff pkg q pub l xs)

/-- The status of an ended launch goes to the ring of its queue; SEQ advances whether or not it is written, and the
MSI-X vector follows a write. -/
def State.reportStatus (s : State) (pkg : Nat) (l : Launch) (code : Nat) (pub : List Nat) : Option State :=
  match (s.getPkg pkg).queue l.queue with
  | none => some s
  | some q =>
    let seq := (q.seq + 1).toNat
    let count := fun (t : State) => t.modPkg pkg fun p =>
      { p with queues := p.queues.map fun (u : LQueue) => if u.num = q.num then { u with seq := q.seq + 1 } else u }
    match s.statusWrite pkg q pub (statusBytes l.num code seq l.record) with
    | none => none
    | some none => some (count s)
    | some (some t) => some ((count t).modPkg pkg fun p =>
        if q.msix = 0xFFFF then p else { p with msix := p.msix ++ [q.msix] })

/-! ## LAUNCH_END (R171, R172) -/

/-- The successors of a launch that ended with OK, decremented with what its cores' `done` published (R171, R234). -/
def Package.successors (p : Package) (x : BitVec 512) (pub : List Nat) : Package :=
  (List.range 4).foldl (fun p n => if recSucc x n = 0xFFFF then p else p.decrement (recSucc x n) pub) p

/-- What the `done` releases of a launch's cores made visible to the registrar (R201, R405). -/
def State.donePub (s : State) (pkg : Nat) (l : Launch) : List Nat :=
  (l.threads pkg).foldl (fun ids k => match s.anyThread k with
    | some c => if c.run = .endedDone then joinIds (s.publish (.thread k) scopeSys c.view.seen) ids else ids
    | none => ids) []

/-- The records that wait for the mailboxes of threads dropped (R324). -/
def State.dropPosts (s : State) (ks : List Nat) : State :=
  (s.posts.filter fun (p : Post) => ks.contains p.target).foldl State.dropPost s

/-- What a launch held is given up. -/
def State.releaseLaunch (s : State) (ks : List Nat) : State :=
  ((((ks.foldl State.endThreadBinds s).dropPops ks).dropTriggers ks).dropPosts ks).forget ks

/-- May the launch end: its groups are all placed, or it stops; every thread has finished; and the registrars of its dies
run (R390)? -/
def State.launchDone (s : State) (pkg : Nat) (l : Launch) : Bool :=
  (l.status != 0 || s.stopping pkg l || (decide (l.groups.length = l.ngroups) && l.groups.all (·.started))) &&
    (l.groups.all fun (g : Group) => (s.getPkg pkg).registrarUp g.die) && (l.threads pkg).all fun k => match s.anyThread k with
      | some c => c.finished
      | none => true

/-- A launch that can end does: the status is reported last (R405). -/
def State.endLaunch (s : State) (pkg : Nat) (l : Launch) : State :=
  if !s.launchDone pkg l then s
  else
    let code := s.launchCode pkg l
    let pub := s.donePub pkg l
    let t := (s.releaseLaunch (l.threads pkg)).modPkg pkg fun p =>
      let p1 := if code = stOk then p.successors l.record pub else p
      { p1 with launches := p1.launches.filter fun (m : Launch) => m.num != l.num }
    (t.reportStatus pkg l code pub).getD s

/-- LAUNCH_END: a launch that stops takes its cores with it; once every thread has ended, it reports its status. -/
def execLaunchEnd (pkg num : Nat) (s : State) : Out :=
  match (s.getPkg pkg).launch num with
  | none => .next s
  | some l =>
    let t := if s.stopping pkg l then (l.threads pkg).foldl (State.stopOf l.stopsAs) s else s
    .next (((l.threads pkg).foldl State.endThreadBinds t).endLaunch pkg l)

/-! ## LOADER_CALL_START (R297) -/

/-- A thread of a memory core that ended otherwise than by `done` fails its call (R297); its bindings are taken down. -/
def State.failCall (s : State) : State :=
  match s.core.info.call with
  | none => s
  | some (k, seq) =>
    (((if s.core.run = .endedFault then s.endBindings s.core.thread State.takeDown else s).dropTriggers
      [s.core.thread]).atThread k fun t => match (t.core.op seq).bind Op.copy? with
        | some r => t.failCopy seq r (0, 0) (Cause.copyReq, 17)
        | none => t).on fun c => { c with info := { c.info with call := none } }

/-- The control registers of a loader thread. -/
def LoaderCall.ctl (x : LoaderCall) : Ctl :=
  { Ctl.reset with
    status := { Status.reset with ie := true, topx := x.topx, rm := x.rm }
    pid := x.pid, lslim := 0x17C000, vlim := 1, blim := 0, clim := 16 }

/-- A memory core as a loader thread starts on it; its range table stays unless the PID differs. Every call has a thread
name of its own. -/
def LoaderCall.start (x : LoaderCall) (n : Nat) (c : Core) : Core :=
  let keep := if c.ctl.pid = x.pid then c.rtab.entries else []
  let k : Core :=
    { c.fresh with
      run := .running, ctl := x.ctl, calls := c.calls.drop 1
      rtab := { RangeTable.reset with entries := keep }
      info := { LaunchInfo.reset with num := 2 ^ 16 + n, call := some (x.caller, x.seq) }
      regs := { Regs.reset with pc := x.entry } }
  (((k.setG 3 (BitVec.ofNat 64 (threadCore x.caller))).setG 4 (x.seq.setWidth 64)).setG 5 x.w0).setG 6 x.w2

/-- The store of a memory core at the start of a loader thread: the bay with its handler (R362), and outside the open
state zero elsewhere (R32). -/
def State.giveBay (s : State) (c : Nat) : State :=
  s.giveStore (pkgOf c) c [(bayBase, residentImage ++ List.replicate (0x4000 - residentImage.length) 0)]

/-- LOADER_CALL_START: a memory core that runs no thread takes its first call. -/
def execLoaderCallStart (c : Nat) (s : State) : Out :=
  let k := s.getCore c
  if k.alive ∨ k.anyPending ∨ !isChannelCore c ∨ !s.coreExists c then .next s
  else
    let s1 := if k.endedBadly then s.at c State.failCall else s
    match (s1.getCore c).calls with
    | [] => .next s1
    | x :: _ =>
      let (n, t) := s1.fresh
      .next ((t.giveBay c).modCore c (x.start n))

end Sys2Proof.Machine
end

