-- ==== Sys2Proof/Machine/Preempt.lean ====
section
/-!
DEFINITION. Sys2Proof/Machine/Preempt.lean: pending events at an instruction boundary, and pre-emption: the request, its
entry, the saved context and the resume (R29, R31, R158, R174, R203, R359, R360, R365 to R370).
-/

namespace Sys2Proof.Machine

/-! ## Events at a boundary (R29, R80, R161, R359, R360) -/

/-- Is a rollback request of its own pending: the member waits for it (R377)? -/
def Core.rollsBack (c : Core) : Bool := c.team.rollback && c.ctl.status.ckpt

/-- May the core in focus take a pending event now: a boundary with IE = 1, outside a frame, a phase and a load in
progress, not in a `wfe`, which completes first, and not before a rollback (R29, R80, R115, R161, R377)? -/
def Core.atBoundary (c : Core) : Bool :=
  decide (c.run = .running ∧ c.wait ≠ .event) && c.ctl.status.ie && !c.rollsBack && c.sync.phase.isNone && c.frame.isNone && c.outst.isNone &&
    c.rtab.miss.isNone

/-- Is the core in the wait of `halt` for its ring, which takes no late fault and no interrupt (R114)? -/
def Core.haltDrains (c : Core) : Bool :=
  match c.wait with
  | .draining halt => halt
  | _ => false

/-- The late fault that is taken now (R29). -/
def Core.dueFault (c : Core) : Option RingEntry := if c.atBoundary && !c.haltDrains then c.lateFaultEntry else none

/-- The late fault of an entry taken: EPC is the first instruction not executed (R27, R31). -/
def State.takeLateFault (s : State) (e : RingEntry) : State :=
  (s.on (·.modEntry e.seq fun (x : RingEntry) => { x with untaken := false })).takeTrap e.cause e.einfo.toNat true false
    e.seq s.pc

/-- LATE_FAULT_TAKEN. -/
def execLateFaultTaken (c : Nat) (s : State) : Out :=
  .next (s.at c fun t => match t.core.dueFault with
    | some e => t.takeLateFault e
    | none => t)

/-- The release-delivered cause that is taken now: late faults go first (R360). -/
def Core.dueCause (c : Core) : Option (BitVec 8 × Word) :=
  if c.atBoundary && !c.haltDrains && c.lateFaultEntry.isNone then c.sync.relCause.head? else none

/-- RELEASE_CAUSE_TAKEN. -/
def execReleaseCauseTaken (c : Nat) (s : State) : Out :=
  .next (s.at c fun t => match t.core.dueCause with
    | some (cause, info) =>
      (t.on (·.modSync fun y => { y with relCause := y.relCause.drop 1 })).takeTrap cause info.toNat false false 0 t.pc
    | none => t)

/-! ## PREEMPT_REQUEST (R174, R365, R404) -/

/-- Bytes of context buffer that a launch needs. -/
def Launch.contextNeed (l : Launch) : Nat := l.grows * l.gcols * l.ngroups * (hdrLslim l.header + 0x20000)

/-- The spans of the context buffer of a queue, if it holds `n` bytes in a private range of the queue's PID (R404). -/
def State.contextSpans (s : State) (pkg : Nat) (q : LQueue) (n : Nat) : Option (List (Xlat × Nat)) :=
  if q.ctxVa.toNat = 0 ∨ q.ctxSize < n then none
  else match s.regSpans pkg q q.ctxVa.toNat n .engineWrite (n / 64 + 2) with
  | .ok l _ => if l.all fun x => x.1.kind == kindPrivate then some l else none
  | _ => none

/-- Does a ready head record of a level above wait for cores of the launch (R173, R174)? -/
def State.waitsFor (s : State) (pkg : Nat) (l : Launch) : Bool :=
  let p := s.getPkg pkg
  match p.nextQueue with
  | none => false
  | some (u, _) =>
    match (p.candidate u).bind fun i => u.records[i]? with
    | none => false
    | some x =>
      let dies := u.placeDies x
      decide (p.prioOf l < u.prio) && (l.groups.any fun (g : Group) => dies.contains g.die) && p.fits x dies &&
        (s.firstGroups pkg u x).isEmpty && match s.recordCheck pkg u x with
          | .ok .. => true
          | _ => false

/-- PREEMPT_REQUEST: a launch with PREEMPT = 1 and JOINN = 0, whose queue has context buffers that no other launch of it
uses, gets a request on each of its cores. -/
def execPreemptRequest (pkg num : Nat) (s : State) : Out :=
  let p := s.getPkg pkg
  match p.launch num with
  | none => .next s
  | some l =>
    match p.queue l.queue with
    | none => .next s
    | some q =>
      let others := p.launches.any fun (m : Launch) => m.queue == l.queue && m.num != num && decide (m.state ≠ .running)
      if l.state = .running ∧ recPreempt l.record ∧ l.joinn = 0 ∧ !s.stopping pkg l ∧ !l.groups.isEmpty ∧
          l.groups.all (·.started) ∧ !others ∧ (s.contextSpans pkg q l.contextNeed).isSome ∧ s.waitsFor pkg l then
        let ask := fun (t : State) (k : Nat) =>
          let c := t.getCore (threadCore k)
          if c.thread = k ∧ c.alive then
            t.modCore (threadCore k) fun c => { c with preempt := some (recDefer l.record), latch := true }
          else t
        .next (((l.threads pkg).foldl ask s).modPkg pkg (·.modLaunch num fun m => { m with state := .preempting }))
      else .next s

/-! ## PREEMPT (R117, R203, R365, R366) -/

/-- Is the core at a place where a deferrable request is delivered: after a `yield`, or in a wait of R203? -/
def Core.safePoint (c : Core) : Bool :=
  c.yielded || match c.wait with
  | .recv _ _ | .barrier _ | .vote _ _ | .task => true
  | .draining halt => !halt && !c.anyPending
  | _ => false

/-- The request that the core takes now: interrupts come after late faults and release-delivered causes (R360). -/
def Core.duePreempt (c : Core) : Option Bool :=
  match c.preempt with
  | some defer =>
    if c.atBoundary && !c.haltDrains && c.lateFaultEntry.isNone && c.sync.relCause.isEmpty && (!defer || c.safePoint)
    then some defer else none
  | none => none

/-- PREEMPT: the pending operations are treated by R366 in the clk of the entry. -/
def execPreempt (c : Nat) (s : State) : Out :=
  .next (s.at c fun t => match t.core.duePreempt with
    | some defer =>
      (t.keepOps.takeTrap Cause.preempt defer.toNat false true 0 t.pc).on fun k => { k with preempt := none }
    | none => t)

/-! ## CONTEXT_SAVE (R368, R369) -/

/-- Spans of the store that a context holds: below LSLIM, and the bay. -/
def Core.contextSpans (c : Core) : List Span :=
  [{ lo := 0, len := c.ctl.lslim.toNat }, { lo := bayBase, len := 0x180000 - bayBase }]

/-- The bytes of some spans moved from one place to another; the old place reads as zero when `clear`. -/
def State.moveSpans (s : State) (src dst : Nat) (clear : Bool) (l : List Span) : State :=
  l.foldl (fun t (x : Span) =>
    let m := t.mem.copy (src + x.lo) (dst + x.lo) x.len
    let bad := (t.poisonIn (src + x.lo) x.len).map fun (p : Span) => ({ p with lo := p.lo - src + dst } : Span)
    let u := t.dropPoison (dst + x.lo) x.len
    { u with mem := if clear then m.zero (src + x.lo) x.len else m, poison := u.poison ++ bad }) s

/-- The context as it is kept: no range table, and the image as its store. -/
def Core.asSaved (c : Core) : Core :=
  { c with image := true, preempt := none, wait := .no, rtab := { c.rtab with entries := [], miss := none } }

/-- The context of the thread on a core saved; the core is free. -/
def State.saveCore (s : State) (k : Nat) : State :=
  let c := threadCore k
  let x := s.getCore c
  if x.thread ≠ k ∨ x.run ≠ .preemptHalt then s
  else
    let t := s.moveSpans (keyLocal c 0) (keyImage k 0) false x.contextSpans
    ({ t with saved := aset t.saved k x.asSaved } : State).modCore c Core.fresh

/-- Bytes of a context buffer become undefined: the layout of a context is not given (notes/assumptions/46.md). -/
def State.spoilBuffer (s : State) (l : List (Xlat × Nat)) : State :=
  l.foldl (fun t x => match t.offKey x.1.pa x.1.place with
    | some k =>
      let (id, u) := t.fresh
      u.withMem (·.undefine k x.2 id)
    | none => t) s

/-- Has a core no exchange phase open, and no release before it that it decides? No context is saved before, so that no
release falls while its members are saved (DESIGN CHOICE, notes/assumptions/62.md). -/
def State.settledSync (s : State) (c : Core) : Bool :=
  c.sync.phase.isNone && (List.range 16).all fun n => (c.arrivalOn n).isNone || (s.releaseInstant c n).isNone

/-- CONTEXT_SAVE: every core of the launch has stopped by a pre-emption halt, or its thread has ended. -/
def execContextSave (pkg num : Nat) (s : State) : Out :=
  let p := s.getPkg pkg
  match p.launch num with
  | none => .next s
  | some l =>
    let ks := l.threads pkg
    let stopped := ks.all fun k => match s.getThread k with
      | some c => decide (c.run = .preemptHalt) || !c.alive
      | none => true
    let some_ := ks.any fun k => match s.getThread k with
      | some c => decide (c.run = .preemptHalt)
      | none => false
    let settled := ks.all fun k => match s.getThread k with
      | some c => s.settledSync c
      | none => true
    if l.state = .preempting ∧ stopped ∧ some_ ∧ settled then
      let spans := ((p.queue l.queue).bind fun q => s.contextSpans pkg q l.contextNeed).getD []
      .next ((ks.foldl State.saveCore (s.spoilBuffer spans)).modPkg pkg
        (·.modLaunch num fun m => { m with state := .preempted }))
    else .next s

/-! ## RESUME (R370) -/

/-- A word of the save area of a core's bay (R363). -/
def State.saved64 (s : State) (c off : Nat) : Word := BitVec.ofNat 64 (s.mem.read (keyLocal c (saveArea + off)) 8)

/-- The registers that a context does not hold: their values are open until the handler restores them
(notes/assumptions/47.md). `n` is the first of 512 numbers of free values. -/
def Core.openRegs (n : Nat) (c : Core) : Core :=
  let w := fun (i : Nat) => Config.freeWord (n + i)
  let v := fun (i : Nat) => BitVec.ofNat 512 (((List.range 8).map fun j =>
    (w (128 + 8 * i + j)).toNat * 2 ^ (64 * j)).sum)
  { c with
    regs := { c.regs with
      g := Vector.ofFn fun (i : Fin 32) => w i.val
      m := Vector.ofFn fun (i : Fin 8) => w (32 + i.val)
      v := Vector.ofFn fun (i : Fin 32) => v i.val }
    ctl := { c.ctl with
      fstat := (w 40).setWidth 6, srseed := w 41, fmta := w 42 &&& fmtMask, fmtb := w 43 &&& fmtMask
      scla := (w 44).setWidth 21, sclb := (w 45).setWidth 21, cbook := (w 46).setWidth 4, deal := (w 47).setWidth 24
      escratch := w 48, drsel := (w 49).setWidth 6 } }

/-- The limits of the save area, as a write sets them (R23, R370), and RXWATCH at its reset value (R381). -/
def Core.withLimits (c : Core) (f : Nat → Word) : Core :=
  let k := (((c.writeCr 0x018 (f 0x1B0)).writeCr 0x019 (f 0x1B8)).writeCr 0x01A (f 0x1C0)).writeCr 0x01B (f 0x1C8)
  k.modCtl fun y => { y with rxwatch := 0x1000000 }

/-- A kept operation dispatched again with its sequence number: its entry is pending once more, and a copy is counted
anew (R286, R370). -/
def State.redispatch (s : State) (o : Op) : State :=
  let (b, t) := match o.body with
    | .copy r =>
      let (r1, t) := s.countCopy o.att.deal r
      (OpBody.copy r1, t)
    | b => (b, s)
  t.on fun c =>
    { c.modEntry o.seq (fun (e : RingEntry) => { e with state := .pending, cause := 0 }) with
      ops := c.ops ++ [{ o with body := b }] }

/-- A kept trigger armed again with its value (R370). -/
def State.rearm (s : State) (x : BitVec 16 × Word) : State :=
  let u := triggerUnit s.core.addr.toNat
  let t : State := { s with
    triggers := aset s.triggers u (s.triggersOf u ++ [{ value := x.2, act := .release s.core.thread x.1 }]) }
  t.on (·.setTrig x.1 .armed)

/-- What the core in focus does before its first instruction (R370, steps 2 to 5); `n` numbers the free values. The handler of
the RESUME entry returns from the PREEMPT entry too (R370, R382). -/
def State.resumeHere (s : State) (n : Nat) : State :=
  let c := s.core
  let f := s.saved64 c.addr.toNat
  let epc : LAddr := (f 0x188).setWidth 21
  let t := s.on fun k => { (k.openRegs n).withLimits f with kept := [], keptTrig := [] }
  let t1 := (c.keptTrig.foldl State.rearm (c.kept.foldl State.redispatch t)).on fun k =>
    { k with census := { k.census with handler := k.census.handler - 1 } }
  t1.takeTrap Cause.resume c.kept.length false true 0 epc

/-- The saved context of a thread put back on its core (R370, step 1), and the core started. -/
def State.resumeCore (s : State) (k : Nat) : State :=
  match aget s.saved k with
  | none => s
  | some x =>
    let c := threadCore k
    let old := s.getCore c
    let t := s.moveSpans (keyImage k 0) (keyLocal c 0) true x.contextSpans
    let back := { x with
      image := false, run := .running, resetAt := old.resetAt, fbuf := none, rtab := { x.rtab with entries := [], miss := none } }
    let t1 := ({ t with saved := adel t.saved k, tick := t.tick + 512 } : State).modCore c fun _ => back
    t1.at c (·.resumeHere t.tick)

/-- Do the trigger units of saved threads have places for the triggers that they keep (R330; DESIGN CHOICE,
notes/assumptions/49.md)? -/
def State.roomToRearm (s : State) (ks : List Nat) : Bool :=
  let need := fun (u : Nat) => ((ks.filter fun k => triggerUnit (threadCore k) == u).map fun k =>
    (aget s.saved k).elim 0 (·.keptTrig.length)).sum
  ks.all fun k =>
    let u := triggerUnit (threadCore k)
    decide ((s.triggersOf u).length + need u ≤ triggerRoom u)

/-- RESUME: every core of the launch is free again, and no record of a higher level goes first (R174): one that may be
admitted holds the resume back even while it waits for other cores (DESIGN CHOICE, notes/assumptions/61.md). -/
def execResume (pkg num : Nat) (s : State) : Out :=
  let p := s.getPkg pkg
  match p.launch num with
  | none => .next s
  | some l =>
    let ks := (l.threads pkg).filter fun k => (aget s.saved k).isSome
    let higher := match p.nextQueue with
      | some (u, _) => decide (p.prioOf l < u.prio)
      | none => false
    if l.state = .preempted ∧ !higher ∧ !s.stopping pkg l ∧ ks.all (fun k => s.coreFree (threadCore k)) ∧ s.roomToRearm ks then
      let wake := fun (t : State) (k : Nat) => t.modPkg pkg (·.dieWakes (dieOf (threadCore k)))
      .next (((ks.foldl (fun t k => wake ((t.keepEnded pkg (threadCore k)).resumeCore k) k) s)).modPkg pkg
        (·.modLaunch num fun m => { m with state := .running }))
    else .next s

end Sys2Proof.Machine
end

