-- ==== Sys2Proof/Machine/Report.lean ====
section
/-!
DEFINITION. Sys2Proof/Machine/Report.lean: the census (R382) and the summary report (R380, R428 to R430).
-/

namespace Sys2Proof.Machine

/-! ## The census (R382) -/

/-- STATE of a census entry. -/
def Core.censusState (c : Core) : Nat :=
  match c.run with
  | .idle => 0
  | .halted | .haltDebug => 6
  | .preemptHalt => 7
  | .endedDone => 8
  | .endedFault | .cancelled => 9
  | .running =>
    if c.team.rollback then 10
    else if 0 < c.census.handler then 5
    else match c.wait with
      | .no => 1
      | .recv _ _ => 2
      | .barrier _ | .vote _ _ => 3
      | _ => 4

/-- The contexts of the threads that running and pre-empted launches have on a core: the one it runs first, then those that
are saved, then those that have ended. -/
def State.censusCores (s : State) (c : Nat) : List Core :=
  let listed := fun (k : Core) => k.addr.toNat == c && decide (k.run ≠ .idle) && ((s.getPkg (pkgOf c)).launch k.info.num).isSome
  (s.getCore c :: s.saved.map (·.2) ++ s.ended.map (·.2)).filter listed

/-- A word of the save area of a context, on its core or in its image (R363). -/
def State.savedWord (s : State) (k : Core) (off : Nat) : Nat := s.mem.read (k.localKey (saveArea + off)) 8

/-- CAUSE: the saved ECAUSE while pre-empted (R363), else the last cause taken. -/
def State.censusCause (s : State) (k : Core) : BitVec 8 :=
  if k.run = .preemptHalt then BitVec.ofNat 8 (s.savedWord k 0x190) else k.census.cause

/-- PC: the saved EPC while pre-empted (R363), else the pc. -/
def State.censusPc (s : State) (k : Core) : LAddr :=
  if k.run = .preemptHalt then BitVec.ofNat 21 (s.savedWord k 0x188) else k.regs.pc

/-- The census entry of core `c` of launch `l` (R382); STATE 0 while no thread of the launch has started there. -/
def State.censusEntry (s : State) (l c : Nat) : BitVec 128 :=
  match (s.censusCores c).find? (·.info.num == l) with
  | none => BitVec.ofNat 128 (c + l * 2 ^ 48)
  | some k => BitVec.ofNat 128 (c + k.census.bar.toNat * 2 ^ 26 + k.census.double.toNat * 2 ^ 30 +
      k.census.wd.toNat * 2 ^ 31 + k.census.chan.toNat * 2 ^ 32 + k.censusState * 2 ^ 36 +
      (s.censusCause k).toNat * 2 ^ 40 + k.info.num * 2 ^ 48 + (s.censusPc k).toNat * 2 ^ 64)

/-! ## Pieces of the report (R428) -/

/-- Bytes laid at an offset of a block. -/
def putAt (off : Nat) (xs : List Byte) (l : List Byte) : List Byte :=
  l.take off ++ xs ++ l.drop (off + xs.length)

/-- A 32-bit field that saturates. -/
def sat32 (n : Nat) : List Byte := natLe 4 (min n (2 ^ 32 - 1))

/-- The counters of a core in the order of R380. -/
def FaultCounts.list (f : FaultCounts) : List Nat :=
  [f.lsce.toNat, f.lsue.toNat, f.accue.toNat, f.mtxrerun.toNat, f.mtxfail.toNat, f.rxwd.toNat, f.preempts.toNat,
   f.rollbacks.toNat]

/-- The cores of a package that are listed. -/
def State.pkgCores (s : State) (pkg : Nat) : List Core :=
  (s.core :: s.others.map (·.2)).filter fun (c : Core) => pkgOf c.addr.toNat == pkg

/-- The package sum of counter `i` of the cores. -/
def State.sumCores (s : State) (pkg i : Nat) : Nat :=
  ((s.pkgCores pkg).map fun (c : Core) => c.faults.list.getD i 0).sum

/-- The sum of counters by key. -/
def sumOf (l : List (Nat × BitVec 32)) : Nat := (l.map fun x => x.2.toNat).sum

/-- 0x0000 to 0x0060: identity, clock and states. -/
def State.reportHead (s : State) (pkg : Nat) : List Byte :=
  let p := s.getPkg pkg
  let sec := match p.security with
    | .opened => 0
    | .sealed => 1
    | .attested => 2
  let dbg := match p.debug with
    | .off => 0
    | .trace => 1
    | .halt => 2
  let pw := match p.power with
    | .run => 0
    | .idle => 1
    | .clusterOff => 2
    | .dieRetention => 3
    | .packageSleep => 4
  natLe 4 0x53514C39 ++ natLe 2 1 ++ natLe 2 (decide (128 < (p.launches.filter (!·.refused)).length)).toNat ++
    natLe 8 (s.domainClock pkg).toNat ++ natLe 8 p.tstat.toNat ++ [BitVec.ofNat 8 sec, BitVec.ofNat 8 dbg,
    BitVec.ofNat 8 pw, BitVec.ofNat 8 p.throttle] ++ natLe 4 pkg ++
    natLe 32 (if p.security = .attested then p.digest.toNat else 0) ++ natLe 32 p.offMask.toNat ++ natLe 1 p.retMask.toNat

/-- 0x0100: what the part reports. -/
def Package.reportParts (p : Package) : List Byte :=
  let row := fun (d : Nat) =>
    if p.diePresent.getLsbD d then (p.rows.toList.getD d 0).toNat + (if p.dieReset.getLsbD d then 128 else 0) else 0
  let chan := fun (k : Nat) => if p.hasStack k then (p.channels.toList.getD k 0).toNat else 0
  let gw := p.gatewayMask
  let links := (List.range 68).map fun l => BitVec.ofNat 8 (agetD p.lanes l 512 / 64)
  let ports := (List.range 4).flatMap fun g => natLe 2 (if p.gatewayLive g ∧ !p.asleep then 36 else 0)
  let pods := (List.range 64).map fun i =>
    BitVec.ofNat 8 ((p.livePaths (2 * i)).toNat + 16 * (p.livePaths (2 * i + 1)).toNat)
  putAt 0xC0 (natLe 4 p.zeroDec.toNat) (putAt 0x80 pods (putAt 0x78 ports (putAt 0x70 (natLe 4 p.hostFail.toNat)
    (putAt 0x20 links (putAt 0x18 (natLe 1 gw.toNat) (putAt 8 ((List.range 16).map fun k => BitVec.ofNat 8 (chan k))
      (putAt 0 ((List.range 8).map fun d => BitVec.ofNat 8 (row d)) (List.replicate 256 0))))))))

/-- 0x0200: sums of the counters of R380 in the table's order, SYMUE per stack, and the selected core's counters. -/
def State.reportCounts (s : State) (pkg : Nat) (core : Option Nat) : List Byte :=
  let p := s.getPkg pkg
  let c := s.sumCores pkg
  let banks := ((s.engines.filter fun x => unitPkg x.1 == pkg).map fun x => x.2.bankue.toNat).sum
  let sums := [c 0, c 1, c 2, banks, c 3, c 4, c 5, c 6, c 7, sumOf p.symce, sumOf p.symue, sumOf p.crcReplay,
    sumOf p.laneSpare].flatMap sat32
  let each := (List.range 16).flatMap fun k => natLe 4 (agetD p.symue k 0).toNat
  let one := match core with
    | some a => (s.getCore a).faults.list.flatMap (natLe 4)
    | none => []
  putAt 0x80 one (putAt 0x40 each (putAt 0 sums (List.replicate 256 0)))

/-- 0x0300: the stations. -/
def State.reportStations (s : State) (pkg : Nat) : List Byte :=
  (List.range 64).flatMap fun k =>
    let n := (s.rops.filter fun (r : RangeOp) => r.pkg == pkg && r.coord * 8 + r.pid.toNat % 8 == k).length
    natLe 2 (s.catalogue (64 * pkg + k)).length ++ natLe 2 n

/-- The stack whose curator serves a guard (R245). -/
def State.curatorStack (s : State) (gk : Nat) : Nat :=
  let pa := gk % 2 ^ 52
  ((s.getPkg (dpaPkg pa)).placeOf (BitVec.ofNat 2 (gk / 2 ^ 52)) (dpaLocal pa)).1

/-- 0x0400: the curators. -/
def State.reportCurators (s : State) (pkg : Nat) : List Byte :=
  (List.range 16).flatMap fun k =>
    let gs := s.curators.filter fun (x : Nat × Guard) => dpaPkg (x.1 % 2 ^ 52) == pkg && s.curatorStack x.1 == k
    natLe 4 gs.length ++ natLe 4 (gs.map fun (x : Nat × Guard) => x.2.queue.length).sum

/-- A launch put in its place by number. -/
def insertLaunch (l : Launch) : List Launch → List Launch
  | [] => [l]
  | m :: r => if l.num ≤ m.num then l :: m :: r else m :: insertLaunch l r

/-- The running and pre-empted launches of a package in increasing number, as the launch table lists them (R429). -/
def Package.listed (p : Package) : List Launch :=
  ((p.launches.filter (!·.refused)).foldr insertLaunch []).take 128

/-- An entry of the launch table (R429). -/
def State.launchEntry (s : State) (pkg : Nat) (l : Launch) : List Byte :=
  let p := s.getPkg pkg
  let held := (l.threads pkg).any fun k => match s.getThread k with
    | some c => decide (c.run = .haltDebug)
    | none => false
  let st := if l.state = .preempted then 1 else if held then 2 else 0
  let pid := match p.queue l.queue with
    | some q => q.pid.toNat
    | none => 0
  let dies := ((List.range 8).map fun d => if l.groups.any (·.die == d) then 2 ^ d else 0).sum
  natLe 2 l.num ++ natLe 2 (l.queue + st * 2 ^ 14) ++ natLe 2 pid ++ natLe 2 (l.cores pkg).eraseDups.length ++ natLe 1 dies ++
    natLe 1 (recFlags l.record) ++ List.replicate 6 0

/-- The word of a queue number. -/
def Package.queueWord (p : Package) (n : Nat) : Nat :=
  match p.queue n with
  | none => 0
  | some q => 2 ^ 31 + q.prio * 2 ^ 25 + (q.weight - 1) * 2 ^ 21 + q.conc.toNat * 2 ^ 20 +
      min 511 q.records.length * 2 ^ 11 + min 2047 (p.launches.filter fun (l : Launch) => l.queue == n && l.runs).length

/-- The word of a core (R430), from the first of its census entries; `plain` says that CAUSE, CHAN and BAR may be shown for a PID. -/
def State.coreWord (s : State) (c : Nat) (plain : BitVec 16 → Bool) : Nat :=
  let p := s.getPkg (pkgOf c)
  if !s.coreExists c then 0
  else match s.censusCores c with
  | [] => 0xFF
  | k :: _ =>
    let show_ := plain k.ctl.pid
    let num := fun (n : Nat) => if show_ then n else 0
    let slot := (p.listed.findIdx? (·.num == k.info.num)).getD 0xFF
    let pend := k.lateFaultEntry.isSome || k.team.rollback
    k.censusState * 2 ^ 28 + num (s.censusCause k).toNat * 2 ^ 20 + num k.census.chan.toNat * 2 ^ 16 +
      num k.census.bar.toNat * 2 ^ 12 + k.census.wd.toNat * 2 ^ 11 + k.census.double.toNat * 2 ^ 10 + pend.toNat * 2 ^ 9 +
      (decide (k.run = .haltDebug)).toNat * 2 ^ 8 + slot

/-- The 16,384 bytes of the report (R428). -/
def State.summaryBytes (s : State) (pkg : Nat) (core : Option Nat) (plain : BitVec 16 → Bool) : List Byte :=
  let p := s.getPkg pkg
  let pad := fun (n : Nat) (xs : List Byte) => xs ++ List.replicate (n - xs.length) 0
  pad 0x100 (s.reportHead pkg) ++ p.reportParts ++ s.reportCounts pkg core ++ pad 0x100 (s.reportStations pkg) ++
    pad 0x100 (s.reportCurators pkg) ++ pad 0xB00 (p.listed.flatMap (s.launchEntry pkg)) ++
    (List.range 1024).flatMap (fun n => natLe 4 (p.queueWord n)) ++
    (List.range 2048).flatMap fun i => natLe 4 (s.coreWord (pkg * 2 ^ 11 + i) plain)

end Sys2Proof.Machine
end

