-- ==== Sys2Proof/Machine/Power.lean ====
section
/-!
DEFINITION. Sys2Proof/Machine/Power.lean: the security, debug and power states and the transitions between them (R423 to
R426), with what becomes undefined or zero when a part loses its power.
-/

namespace Sys2Proof.Machine

/-! ## Contents that are lost (R396, R421, R425) -/

/-- A span of bytes becomes zero, or undefined. -/
def State.lose (s : State) (zero : Bool) (k n : Nat) : State :=
  if zero then (s.withMem (·.zero k n)).dropPoison k n
  else
    let (id, t) := s.fresh
    (t.withMem (·.undefine k n id)).dropPoison k n

/-- An engine whose contents are undefined, TICKNS 1 but (R316); `n` is the first of 2^15 numbers of free values. -/
def openEngine (n : Nat) : Engine :=
  let c := fun (i : Nat) => (Config.freeWord (n + i)).setWidth 32
  let q := fun (i : Nat) =>
    ({ t := Config.freeNat (n + 16 + 2 * i) % 2 ^ 48, clk := 0, key := 0, arr := i, w := Config.freeWord (n + 17 + 2 * i) } : QEvent)
  let l := Config.freeNat (n + 15) % 8193
  { Engine.reset with
    queue := (List.range l).map q, arr := l, deliv := c 0, refdrop := c 1, late := c 2, overflow := c 3, reject := c 4
    fanlost := c 5, fired := c 6, reclost := c 7, flags := (Config.freeWord (n + 8)).setWidth 5 }

/-- The queue of an engine becomes empty, or undefined with the rest of its counters; the count of R380 stays. -/
def State.loseEngine (s : State) (zero : Bool) (eng : Nat) : State :=
  let keep := fun (e : Engine) => { e with bankue := (s.engine eng).bankue }
  if zero then { s with engines := aset s.engines eng (keep Engine.reset) }
  else { s with engines := aset s.engines eng (keep (openEngine s.tick)), tick := s.tick + 2 ^ 15 }

/-- EN cleared in every population descriptor of an engine (R316). -/
def State.disablePops (s : State) (eng : Nat) : State :=
  s.withMem fun m => (List.range 16).foldl (fun m p =>
    let k := keyPop eng (32 * p + 4)
    m.writeBytes k [m.byte k &&& 0xEF]) m

/-- The bank, the queue and the codebook tables of a cluster lost. -/
def State.loseUnit (zero : Bool) (s : State) (u : Nat) : State :=
  ((s.lose zero (keyBank u 0) (2 ^ 20)).lose zero (keyBook u 0) (2 ^ 13)).loseEngine zero u

/-- The tile cores of a cluster. -/
def clusterCores (u : Nat) : List Nat := (List.range 8).map (clusterCore u)

/-- The store of a core lost. -/
def State.loseStore (zero : Bool) (s : State) (c : Nat) : State := s.lose zero (keyLocal c 0) 0x180000

/-- The matrix state of a core zeroed. -/
def State.zeroAcc (s : State) (c : Nat) : State := s.modCore c fun k => { k with mtx := Mtx.reset, accBad := 0 }

/-- The clusters of a mask, as units of a package. -/
def maskUnits (pkg : Nat) (mask : BitVec 256) : List Nat :=
  ((List.range 256).filter (mask.getLsbD ·)).map (256 * pkg + ·)

/-- The units of a die. -/
def dieUnits (pkg d : Nat) : List Nat := (List.range 32).map fun k => 256 * pkg + 32 * d + k

/-- The dies of a mask. -/
def maskDies (mask : BitVec 8) : List Nat := (List.range 8).filter (mask.getLsbD ·)

/-! ## The states by code (R423) -/

/-- Security by code. -/
def secOf (n : Nat) (old : Security) : Option Security :=
  match n with
  | 0 => some .opened
  | 1 => some .sealed
  | 2 => some .attested
  | 0xFF => some old
  | _ => none

/-- Debug by code. -/
def dbgOf (n : Nat) (old : Debug) : Option Debug :=
  match n with
  | 0 => some .off
  | 1 => some .trace
  | 2 => some .halt
  | 0xFF => some old
  | _ => none

/-- Power by code. -/
def pwrOf (n : Nat) (old : Power) : Option Power :=
  match n with
  | 0 => some .run
  | 1 => some .idle
  | 2 => some .clusterOff
  | 3 => some .dieRetention
  | 4 => some .packageSleep
  | 0xFF => some old
  | _ => none

/-- How a combination is entered (R424). -/
inductive Entry where
  | free
  | token
  | never
deriving DecidableEq, Repr

/-- The table of R424. -/
def combination (c : Security) (d : Debug) (p : Power) : Entry :=
  let deep := match p with
    | .dieRetention | .packageSleep => true
    | _ => false
  match c, d with
  | .opened, .halt => if deep then .never else .free
  | .opened, _ => .free
  | .sealed, .off => .free
  | .sealed, .trace => .token
  | .sealed, .halt => if deep then .never else .token
  | .attested, .off => if p = .packageSleep then .never else .free
  | .attested, _ => .never

/-! ## SETSTATE (R423, R425, R426) -/

/-- What a SETSTATE asks for. -/
structure StateCmd where
  sec : Security
  dbg : Debug
  pwr : Power
  setsPwr : Bool
  dies : BitVec 8
  clusters : BitVec 256
  token : BitVec 128
deriving DecidableEq, Repr

/-- The descriptor of a SETSTATE; none for an unused code, or an empty mask where one is needed. -/
def Package.stateCmd (p : Package) (x : BitVec 512) : Option StateCmd :=
  let b := recField x 0x0A 8
  match secOf (recField x 0x08 8) p.security, dbgOf (recField x 0x09 8) p.debug, pwrOf b p.power with
  | some c, some d, some w =>
    if (b = 2 ∧ recField x 0x10 256 = 0) ∨ (b = 3 ∧ recField x 0x0B 8 = 0) then none
    else some { sec := c, dbg := d, pwr := w, setsPwr := b != 0xFF, dies := BitVec.ofNat 8 (recField x 0x0B 8),
                clusters := BitVec.ofNat 256 (recField x 0x10 256), token := BitVec.ofNat 128 (recField x 0x30 128) }
  | _, _, _ => none

/-- Does a command carry the tenant's token: the one it sets itself, when it leaves open (R424)? -/
def Package.tokenOk (p : Package) (c : StateCmd) : Bool := p.security == .opened || c.token == p.token

/-- A transition that R424 or R426 refuses. -/
def State.stateRefused (s : State) (pkg : Nat) (c : StateCmd) : Bool :=
  let p := s.getPkg pkg
  let deep := c.setsPwr && (c.pwr == .dieRetention || c.pwr == .packageSleep)
  (match combination c.sec c.dbg c.pwr with
    | .never => true
    | .token => !p.tokenOk c
    | .free => false) ||
  (p.security != .opened && c.sec == .opened) || (p.security == .opened && c.sec == .attested) ||
  (p.security != .attested && c.sec == .attested && p.debug != .off) ||
  (p.security == .sealed && c.dbg != p.debug && !p.tokenOk c) ||
  (deep && (s.pkgCores pkg).any fun (k : Core) => decide (k.run = .haltDebug))

/-- Does a launch run? One that is pre-empted does not, nor does a record that was refused. -/
def Package.launchRuns (p : Package) : Bool := p.launches.any Launch.runs

/-- Has a running launch a core for which the test holds? -/
def Package.launchOn (p : Package) (pkg : Nat) (f : Nat → Bool) : Bool :=
  p.launches.any fun (l : Launch) => l.runs && (l.cores pkg).any f

/-- A condition of R425 or R426 that does not hold. -/
def State.stateBusy (s : State) (pkg : Nat) (c : StateCmd) : Bool :=
  let p := s.getPkg pkg
  ((c.sec != p.security || (p.security == .sealed && c.dbg != p.debug)) && p.launchRuns) ||
  (c.setsPwr && match c.pwr with
    | .clusterOff => p.launchOn pkg fun a => c.clusters.getLsbD (dieOf a * 32 + clusterOf a)
    | .dieRetention => p.launchOn pkg fun a => c.dies.getLsbD (dieOf a)
    | .packageSleep => p.launchRuns || p.queues.any fun (q : LQueue) => !q.records.isEmpty
    | _ => false)

/-- The security and debug states set (R424): the token of the command becomes the tenant's when the package leaves open;
the processes that it is registered for (notes/assumptions/48.md) and the digest of the attested state are open. -/
def State.setSecurity (s : State) (pkg : Nat) (c : StateCmd) : State :=
  let (n, t) := s.fresh
  let digest : BitVec 256 := BitVec.ofNat 256 (Config.freeNat n)
  t.modPkg pkg fun p =>
    { p with
      token := if p.security = .opened ∧ c.sec ≠ .opened then c.token else p.token
      tokenReg := if p.security = .opened ∧ c.sec ≠ .opened then n else p.tokenReg
      digest := if c.sec = .attested ∧ p.security ≠ .attested then digest else p.digest
      security := c.sec, debug := c.dbg }

/-- The tile cores of a die. -/
def dieTiles (pkg d : Nat) : List Nat := (List.range 256).map (tileAddr pkg d 0 0 + ·)

/-- The memory cores of a stack (R20). -/
def stackCores (pkg k : Nat) : List Nat := (List.range 16).map fun ch => 2 ^ 22 + tileAddr pkg (k / 2) (k % 2) ch

/-- Every core of a package. -/
def packageCores (pkg : Nat) : List Nat :=
  (List.range 8).flatMap (dieTiles pkg) ++ (List.range 16).flatMap (stackCores pkg)

/-- Cores that leave reset now (R32): idle, CYCLE at zero. -/
def State.boot (s : State) (l : List Nat) : State :=
  l.foldl (fun t c => t.modCore c fun _ => { Core.idle (BitVec.ofNat 23 c) with resetAt := s.clk }) s

/-- Contents that are zero after bring-up, the clusters' memories, and those that are undefined, the local stores (R421). -/
def State.freshStores (s : State) (pkg : Nat) : State :=
  (((((s.lose true (keyBank (256 * pkg) 0) (2 ^ 28)).lose true (keyLeak (256 * pkg) 0) (2 ^ 21)).lose true
    (keyPop (256 * pkg) 0) (2 ^ 17)).lose true (keyBook (256 * pkg) 0) (2 ^ 21)).lose false
    (keyLocal (pkg * 2 ^ 11) 0) (2 ^ 32)).lose false (keyLocal (2 ^ 22 + pkg * 2 ^ 11) 0) (2 ^ 32)

/-- The firmware's resident handler in the bays of a package (R421). -/
def State.giveHandlers (s : State) (l : List Nat) : State :=
  s.withMem fun m => l.foldl (fun m c => m.writeBytes (keyLocal c bayBase) residentImage) m

/-- The package leaves sleep (R425): as after step 4 of R421, with stacked memory kept. -/
def State.wake (s : State) (pkg : Nat) : State :=
  let t := s.boot (packageCores pkg)
  let u : State := { t with
    engines := t.engines.filter fun x => unitPkg x.1 != pkg
    units := t.units.filter fun x => x.1 / 256 != pkg }
  ((u.freshStores pkg).giveHandlers (packageCores pkg)).modPkg pkg fun p =>
    { p with sync := false }

/-- A curator whose last exclusive holder lies in a package that it cannot reach takes the loss step (R255, R411). -/
def State.loseUnreached (s : State) : State :=
  let lost := fun (gk : Nat) (g : Guard) => match g.lastX with
    | some p => !s.reaches (dpaPkg (gk % 2 ^ 52)) (pkgOf (threadCore p.1))
    | none => false
  { s with curators := s.curators.map fun x => if lost x.1 x.2 then (x.1, x.2.lossStep) else x }

/-- The effects of entering a power state (R425). -/
def State.setPower (s1 : State) (pkg : Nat) (c : StateCmd) : State :=
  let zero := c.sec != .opened
  let put := fun (t : State) (off : BitVec 256) (ret : BitVec 8) =>
    t.modPkg pkg fun q => { q with power := c.pwr, offMask := off, retMask := ret }
  match c.pwr with
  | .run | .idle => put s1 0 0
  | .clusterOff =>
    let us := maskUnits pkg c.clusters
    put ((us.flatMap clusterCores).foldl (State.loseStore zero) (us.foldl (State.loseUnit zero) s1)) c.clusters 0
  | .dieRetention =>
    let us := (maskDies c.dies).flatMap (dieUnits pkg)
    let cores := us.flatMap clusterCores
    let t := if zero then
        cores.foldl State.zeroAcc (cores.foldl (State.loseStore true) (us.foldl (fun t u => t.lose true (keyBank u 0) (2 ^ 20)) s1))
      else s1
    put t 0 c.dies
  | .packageSleep => (put s1 0 0).loseUnreached

/-- Does a command take the package out of sleep? -/
def Package.leavesSleep (p : Package) (c : StateCmd) : Bool := c.setsPwr && p.asleep && c.pwr != .packageSleep

/-- The command as it is applied: what leaves sleep from attested is sealed (R426). -/
def Package.applied (p : Package) (c : StateCmd) : StateCmd :=
  if p.leavesSleep c && p.security == .attested then { c with sec := .sealed } else c

/-- A SETSTATE that is accepted, applied whole. -/
def State.setState (s : State) (pkg : Nat) (c : StateCmd) : State :=
  let p := s.getPkg pkg
  let t := (if p.leavesSleep c then s.wake pkg else s).setSecurity pkg (p.applied c)
  if c.setsPwr then t.setPower pkg (p.applied c) else t

end Sys2Proof.Machine
end

