-- ==== Sys2Proof/Machine/Host.lean ====
section
/-!
DEFINITION. Sys2Proof/Machine/Host.lean: the host's BARs (R241, R398, R399), records (R407), and the commands of the
command window (R402 to R404, R415, R423, R428).
-/

namespace Sys2Proof.Machine

/-! ## The host link -/

/-- Does the host link answer accesses to the BARs: bring-up is over and the host link's gateway die runs (R390, R396, R421)? -/
def State.hostLink (s : State) (pkg : Nat) : Bool :=
  s.isUp pkg && (s.getPkg pkg).gatewayLive 0

/-- Does it answer accesses outside the command window: the package is awake too (R425)? -/
def State.hostAwake (s : State) (pkg : Nat) : Bool := s.hostLink pkg && !(s.getPkg pkg).asleep

/-- The largest payload and read request of the host link (R397). -/
def maxPayload : Nat := 4096

/-- REGISTER_WRITE: a write to the command window: any bytes by the host through BAR0, in one TLP; eight aligned ones by an
agent of a PID (R401, R402); none before bring-up has ended (R421). -/
def execRegisterWrite (pkg off pid : Nat) (host : Bool) (xs : List (BitVec 8)) (s : State) : Out :=
  let takes := if host then s.hostLink pkg && decide (xs.length ≤ maxPayload)
    else s.isUp pkg && xs.length == 8 && off % 8 == 0
  if takes then .next (s.modPkg pkg (·.cmdWrite off host (if host then 0 else BitVec.ofNat 16 pid) xs)) else .next s

/-! ## The memory window (R241, R399) -/

/-- The service core that performs the host's accesses to an entry, as 4 × die + quadrant (R241). -/
def serviceCore (base : Nat) : Nat := bitsAt base 12 5 ^^^ bitsAt base 17 5

/-- Can the service core perform an access: its die runs, and reaches the stack? -/
def State.serviceUp (s : State) (pkg svc stack : Nat) : Bool :=
  let p := s.getPkg pkg
  s.dieLive pkg (svc / 4) && !p.retMask.getLsbD (svc / 4) && p.gatewayUp (svc / 4) &&
    s.routeUp pkg (svc / 4) (stack / 2) && p.stackUp stack

/-- The DPA of an offset within an entry. -/
def HostEntry.pa (e : HostEntry) (off : Nat) : Nat := (off + e.offset.toNat) % 2 ^ 52

/-- The stacks that hold the `n` bytes at a package-local address. -/
def Package.stacksOf (p : Package) (place : BitVec 2) (m n : Nat) : List Nat :=
  (List.range ((m + n + 255) / 256 - m / 256)).map fun i => (p.placeOf place (256 * (m / 256 + i))).1

/-- The entry that serves an access of `n` bytes, and its DPA: the steps of R399. -/
def State.hostFind (s : State) (pkg off n : Nat) (wr : Bool) : Option (HostEntry × Nat) :=
  let p := s.getPkg pkg
  match p.hostTab.find? fun (e : HostEntry) => decide (e.base ≤ off) && decide (off < e.limit) with
  | none => none
  | some e =>
    let pa := e.pa off
    let ok := (if wr then e.w else e.rd) && decide (off + n ≤ e.limit) &&
      (p.stacksOf e.place (dpaLocal pa) n).all (s.serviceUp pkg (serviceCore e.base))
    if ok then some (e, pa) else none

/-- The host-failure count (R399). -/
def State.hostFails (s : State) (pkg : Nat) : State := s.modPkg pkg fun p => { p with hostFail := satInc p.hostFail }

/-- HOST_WINDOW_READ: a read does not pass an earlier posted write of its service core. A longer request than the link has
is none (R397). -/
def execHostWindowRead (pkg off len : Nat) (s : State) : Out :=
  let answer := fun (t : State) (xs : List Byte) => t.modPkg pkg fun p => { p with hostData := xs }
  if !s.hostAwake pkg ∨ maxPayload < len then .next (answer s [])
  else match s.hostFind pkg off len false with
  | none => .next (answer (s.hostFails pkg) [])
  | some (e, pa) =>
    let t := s.drainHost pkg (fun w => w.svc == serviceCore e.base) s.hostWrites
    match t.offKey pa e.place with
    | some k => if t.poisonHit k len then .next (answer (t.hostFails pkg) []) else .next (answer t (t.mem.bytes k len))
    | none => .next (answer (t.hostFails pkg) [])

/-- HOST_WINDOW_WRITE: a write to an entry with HORD waits at the ordering point, and a plain one behind the writes of
its service core that wait; another is performed at once. -/
def execHostWindowWrite (pkg off : Nat) (xs : List (BitVec 8)) (s : State) : Out :=
  if !s.hostAwake pkg ∨ maxPayload < xs.length then .next s
  else match s.hostFind pkg off xs.length true with
  | none => .next (s.hostFails pkg)
  | some (e, pa) =>
    let w : HostWrite :=
      { pkg := pkg, svc := serviceCore e.base, hord := e.hord, place := e.place, dpa := pa, data := xs }
    if e.hord ∨ s.hostWrites.any (fun (x : HostWrite) => x.pkg == pkg && x.svc == w.svc) then
      .next { s with hostWrites := s.hostWrites ++ [w] }
    else .next (s.performHost w)

/-- The plain writes at the head of a package's pending ones are performed. -/
def State.drainPlain (s : State) (pkg : Nat) : List HostWrite → State
  | [] => s
  | w :: l =>
    if w.pkg ≠ pkg then s.drainPlain pkg l
    else if w.hord then s
    else ({ s.performHost w with hostWrites := s.hostWrites.erase w } : State).drainPlain pkg l

/-- HOST_ORDERED_WRITE_RELEASE: every earlier HORD write has been performed and acknowledged, so the first goes. -/
def execHostOrderedWriteRelease (pkg : Nat) (s : State) : Out :=
  match s.hostWrites.find? (·.pkg == pkg) with
  | none => .next s
  | some w =>
    let t : State := { s.performHost w with hostWrites := s.hostWrites.erase w }
    .next (t.drainPlain pkg t.hostWrites)

/-- A write to the launch-queue window: 64 bytes at RECORD, or one that is discarded (R406, R407). -/
def Package.windowWrite (p : Package) (off : Nat) (host : Bool) (pid : BitVec 16) (xs : List Byte) : Package :=
  if xs.isEmpty then p
  else if off % 4096 = 0 ∧ xs.length = 64 then p.recordWrite (off / 4096) host pid (BitVec.ofNat 512 (leNat xs))
  else p.queueWrite off xs.length

/-- RECORD_WRITE: a write to the launch-queue window, by the host in one TLP or by a device agent in one copy request; one of
the host follows every posted write received before it (R407). -/
def execRecordWrite (pkg off pid : Nat) (host : Bool) (xs : List (BitVec 8)) (s : State) : Out :=
  if 2 ^ 22 < off + xs.length ∨ maxPayload < xs.length ∨ (host ∧ !s.hostAwake pkg) then .next s
  else
    let t := if host then s.drainHost pkg (fun _ => true) s.hostWrites else s
    .next (t.modPkg pkg (·.windowWrite off host (BitVec.ofNat 16 pid) xs))

/-! ## Commands (R402 to R404) -/

/-- OK (R402). -/
abbrev resOk : Nat := 0
/-- MALFORMED. -/
abbrev resMalformed : Nat := 1
/-- NOTPERMITTED. -/
abbrev resNotPermitted : Nat := 2
/-- INUSE. -/
abbrev resInUse : Nat := 3
/-- BUSY. -/
abbrev resBusy : Nat := 4
/-- NOTFOUND. -/
abbrev resNotFound : Nat := 5

/-- The bytes that each command names, as first and last (R403, R415, R423, R428). -/
def commandBytes (code : Nat) : List (Nat × Nat) :=
  match code with
  | 1 => [(0x08, 0x13), (0x18, 0x31), (0x38, 0x3F)]
  | 2 => [(0x08, 0x09)]
  | 3 => [(0x08, 0x0D)]
  | 4 => [(0x08, 0x09)]
  | 5 => [(0x08, 0x12), (0x30, 0x3F)]
  | 6 => [(0x08, 0x0F)]
  | 7 => [(0x08, 0x0F)]
  | 8 => [(0x08, 0x22)]
  | 9 => [(0x08, 0x0B), (0x10, 0x23), (0x28, 0x37)]
  | 10 => [(0x08, 0x0B), (0x10, 0x3F)]
  | _ => []

/-- Is every reserved byte of a descriptor zero? -/
def commandReserved (code : Nat) (x : BitVec 512) : Bool :=
  (List.range 64).all fun i =>
    i == 0 || (commandBytes code).any (fun r => decide (r.1 ≤ i ∧ i ≤ r.2)) || recField x i 8 == 0

/-- The result of a command in its slot (R402). -/
def Package.commandDone (p : Package) (slot code : Nat) : Package :=
  if h : slot < 16 then
    let c := p.slots[slot]
    { p with
      slots := p.slots.set slot { c with busy := false, done := c.done + 1, result := BitVec.ofNat 8 code }
      msix := if slot < 8 then p.msix ++ [slot] else p.msix }
  else p

/-- What a command answers: a result other than OK, or its effect. -/
abbrev CmdRes := Nat × (State → State)

/-- A refusal. -/
def cmdRefuse (code : Nat) : CmdRes := (code, id)

/-- The command of a slot is carried out: `code` is its command code. A descriptor whose code no command has is MALFORMED,
whichever command's turn it is. -/
def State.command (s : State) (pkg slot code : Nat) (run : CmdSlot → BitVec 512 → CmdRes) : Out :=
  let c := (s.getPkg pkg).slots.toList.getD slot CmdSlot.reset
  let x := c.taken
  let k := recField x 0 8
  let unknown := k == 0 || decide (0x0B ≤ k)
  if !c.busy || !(k == code || unknown) then .next s
  else
    let r : CmdRes :=
      if unknown then cmdRefuse resMalformed
      else if 8 ≤ slot ∧ 6 ≤ code then cmdRefuse resNotPermitted
      else if !commandReserved code x then cmdRefuse resMalformed
      else run c x
    let t := if r.1 = resOk then r.2 s else s
    .next (t.modPkg pkg (·.commandDone slot r.1))

/-! ### Queues, counters, launches -/

/-- Is the status-ring word of a QCREATE within its limits? -/
def ringOk (r : Nat) : Bool :=
  if r.testBit 63 then bitsAt r 44 19 == 0 && bitsAt r 0 21 % 16 == 0 else decide (r < 2 ^ 60)

/-- The limits of QCREATE (R403): 2,048 vectors exist (R397). -/
def qcreateOk (x : BitVec 512) : Bool :=
  let vec := recField x 0x30 16
  decide (recField x 0x08 16 ≤ 1023) && decide (recField x 0x0A 8 ≤ 63) &&
    decide (1 ≤ recField x 0x0B 8 ∧ recField x 0x0B 8 ≤ 16) && decide (recField x 0x0C 8 ≤ 1) &&
    decide (1 ≤ recField x 0x0E 16) && decide (1 ≤ recField x 0x10 16 ∧ recField x 0x10 16 ≤ 256) &&
    decide (1 ≤ recField x 0x12 16 ∧ recField x 0x12 16 ≤ 4096) && ringOk (recField x 0x18 64) &&
    decide (recField x 0x20 64 < 2 ^ 60) && (vec == 0xFFFF || decide (vec < 2048)) && recField x 0x38 64 % 64 == 0 && decide (recField x 0x38 64 < 2 ^ 60)

/-- The queue of a QCREATE. -/
def newQueue (x : BitVec 512) : LQueue :=
  { num := recField x 0x08 16, prio := recField x 0x0A 8, weight := recField x 0x0B 8, conc := recField x 0x0C 8 == 1,
    pid := BitVec.ofNat 16 (recField x 0x0E 16), dies := BitVec.ofNat 8 (recField x 0x0D 8), cap := recField x 0x10 16,
    entries := recField x 0x12 16, ring := BitVec.ofNat 64 (recField x 0x18 64),
    ctxVa := BitVec.ofNat 64 (recField x 0x20 64), ctxSize := recField x 0x28 64, msix := recField x 0x30 16,
    bay := BitVec.ofNat 64 (recField x 0x38 64), records := [], seq := 0, served := 0 }

/-- QCREATE. -/
def execQcreate (pkg slot : Nat) (s : State) : Out :=
  s.command pkg slot 1 fun c x =>
    let q := newQueue x
    if !qcreateOk x then cmdRefuse resMalformed
    else if 8 ≤ slot ∧ (q.pid ≠ c.pid ∨ 31 < q.prio) then cmdRefuse resNotPermitted
    else if ((s.getPkg pkg).queue q.num).isSome then cmdRefuse resInUse
    else (resOk, fun t => t.modPkg pkg fun p => { p with queues := p.queues ++ [q] })

/-- QDESTROY. -/
def execQdestroy (pkg slot : Nat) (s : State) : Out :=
  s.command pkg slot 2 fun c x =>
    let p := s.getPkg pkg
    match p.queue (recField x 0x08 16) with
    | none => cmdRefuse resNotFound
    | some q =>
      if 8 ≤ slot ∧ q.pid ≠ c.pid then cmdRefuse resNotPermitted
      else if !q.records.isEmpty || p.launches.any (·.queue == q.num) then cmdRefuse resBusy
      else (resOk, fun t => t.modPkg pkg fun p =>
        { p with queues := p.queues.filter fun (u : LQueue) => u.num != q.num })

/-- CSET. -/
def execCset (pkg slot : Nat) (s : State) : Out :=
  s.command pkg slot 3 fun c x =>
    let i := recField x 0x08 16
    let owner : BitVec 16 := BitVec.ofNat 16 (recField x 0x0C 16)
    let old := ((s.getPkg pkg).counter i).owner
    if 8 ≤ slot ∧ (owner ≠ c.pid ∨ old ≠ c.pid) then cmdRefuse resNotPermitted
    else (resOk, fun t => t.modPkg pkg fun p =>
      p.setCounter { idx := i, value := BitVec.ofNat 16 (recField x 0x0A 16), owner := owner, pub := [] })

/-- CANCEL: the launch ends with CANCELLED; its cores stop at their next boundary (R360). -/
def execCancel (pkg slot : Nat) (s : State) : Out :=
  s.command pkg slot 4 fun c x =>
    let p := s.getPkg pkg
    match p.launch (recField x 0x08 16) with
    | none => cmdRefuse resNotFound
    | some l =>
      let pid := match p.queue l.queue with
        | some q => q.pid
        | none => 0
      if l.status ≠ 0 then cmdRefuse resNotFound
      else if 8 ≤ slot ∧ pid ≠ c.pid then cmdRefuse resNotPermitted
      else (resOk, fun t => t.modPkg pkg (·.modLaunch l.num fun m => { m with cancelled := true }))

/-! ### SUMMARY (R428 to R430) -/

/-- Where the report goes: host memory for the host's slots; for the others 16 KiB of stacked memory under home placement, in
stacks that the package has. -/
def State.summaryKey (s : State) (pkg slot dest : Nat) : Option Nat :=
  if slot < 8 then (if dest + 0x4000 ≤ 2 ^ 64 then some (keyHost pkg dest) else none)
  else if dest + 0x4000 ≤ stackedSize ∧ (s.getPkg pkg).hasStack (dest / homeWindow) ∧
      (s.getPkg pkg).hasStack ((dest + 0x3FFF) / homeWindow) then some (keyOff 0 (pkg * 2 ^ 41 + dest))
  else none

/-- May the report show a launch's CAUSE, CHAN and BAR (R430)? -/
def Package.mayShow (p : Package) (x : BitVec 512) (asker pid : BitVec 16) : Bool :=
  p.security == .opened || BitVec.ofNat 128 (recField x 0x30 128) == p.token || pid == asker

/-- The core that a SUMMARY selects: MALFORMED where no core has the address, or where bits stand beside none. -/
def summaryCore (x : BitVec 512) : Option Nat :=
  let w := recField x 0x10 24
  if w.testBit 23 then some (w % 2 ^ 23) else none

/-- SUMMARY: the write is a release at scope sys. -/
def execSummary (pkg slot : Nat) (s : State) : Out :=
  s.command pkg slot 5 fun c x =>
    let dest := recField x 0x08 64
    let core := summaryCore x
    let fits := match core with
      | some a => s.coreExists a && pkgOf a == pkg
      | none => recField x 0x10 24 == 0
    match s.summaryKey pkg slot dest with
    | none => cmdRefuse resMalformed
    | some k =>
      if !fits then cmdRefuse resMalformed
      else
        let bytes := s.summaryBytes pkg core ((s.getPkg pkg).mayShow x c.pid)
        (resOk, fun t => t.keyWrite (t.registrarStand pkg false []) pkg k bytes)

/-! ### Clock, windows, scale-out, states -/

/-- TSTEP (R327). -/
def execTstep (pkg slot : Nat) (s : State) : Out :=
  s.command pkg slot 6 fun _ x => (resOk, fun t => t.stepClock pkg (BitVec.ofNat 64 (recField x 0x08 64)))

/-- HWIN (R400). -/
def execHwin (pkg slot : Nat) (s : State) : Out :=
  s.command pkg slot 7 fun _ x =>
    let b := recField x 0x08 64
    if b % 4096 ≠ 0 then cmdRefuse resMalformed
    else (resOk, fun t => t.modPkg pkg fun p => { p with hwbase := BitVec.ofNat 64 b })

/-- The entry of a MWIN. -/
def newHostEntry (x : BitVec 512) : HostEntry :=
  let b := recField x 0x21 8
  let m := recField x 0x20 8
  { num := recField x 0x22 8, base := recField x 0x08 64, limit := recField x 0x10 64,
    offset := BitVec.ofNat 64 (recField x 0x18 64), rd := m.testBit 0, w := m.testBit 1,
    place := BitVec.ofNat 2 (b / 16), hord := b.testBit 3 }

/-- Is an entry legal by R399, but for overlap? -/
def hostEntryOk (pkg : Nat) (x : BitVec 512) : Bool :=
  let e := newHostEntry x
  let b := recField x 0x21 8
  let lo : Int := e.base + e.offset.toInt
  let z := e.limit - e.base
  decide (recField x 0x20 8 < 4) && b % 8 == kindIo.toNat && b / 64 == 0 && e.place != 3 && e.base % 64 == 0 &&
    e.limit % 64 == 0 && e.offset.toNat % 64 == 0 && decide (e.base < e.limit) && decide (e.limit < 2 ^ 36) &&
    decide (0 ≤ lo) && lo.toNat / 2 ^ 41 == pkg && decide (lo.toNat % 2 ^ 41 + z ≤ stackedSize)

/-- MWIN. -/
def execMwin (pkg slot : Nat) (s : State) : Out :=
  s.command pkg slot 8 fun _ x =>
    let p := s.getPkg pkg
    let e := newHostEntry x
    let rest := p.hostTab.filter fun (h : HostEntry) => h.num != e.num
    if 64 ≤ e.num then cmdRefuse resMalformed
    else if e.base = 0 ∧ e.limit = 0 then (resOk, fun t => t.modPkg pkg fun p => { p with hostTab := rest })
    else if !hostEntryOk pkg x || rest.any (fun (h : HostEntry) => decide (h.base < e.limit ∧ e.base < h.limit)) then
      cmdRefuse resMalformed
    else (resOk, fun t => t.modPkg pkg fun p => { p with hostTab := e :: rest })

/-- The slot of a SOEP (R415). -/
def newSoSlot (x : BitVec 512) : SoSlot :=
  { num := recField x 0x08 16, service := BitVec.ofNat 2 (recField x 0x0A 8), ports := BitVec.ofNat 8 (recField x 0x0B 8),
    endpoint := BitVec.ofNat 128 (recField x 0x10 128), job := BitVec.ofNat 24 (recField x 0x20 24),
    remote := BitVec.ofNat 64 (recField x 0x28 64), key := BitVec.ofNat 64 (recField x 0x30 64) }

/-- SOEP: with its valid bit clear it makes the slot invalid. -/
def execSoep (pkg slot : Nat) (s : State) : Out :=
  s.command pkg slot 9 fun _ x =>
    let e := newSoSlot x
    let b := recField x 0x0A 8
    if 4096 ≤ e.num ∨ e.service = 3 ∨ 8 ≤ b ∨ recField x 0x23 8 ≠ 0 then cmdRefuse resMalformed
    else (resOk, fun t => t.modPkg pkg fun p =>
      let rest := p.soSlots.filter fun (h : SoSlot) => h.num != e.num
      { p with soSlots := if b.testBit 2 then e :: rest else rest })

/-- SETSTATE (R423). -/
def execSetstate (pkg slot : Nat) (s : State) : Out :=
  s.command pkg slot 10 fun _ x =>
    match (s.getPkg pkg).stateCmd x with
    | none => cmdRefuse resMalformed
    | some k =>
      if s.stateRefused pkg k then cmdRefuse resNotPermitted
      else if s.stateBusy pkg k then cmdRefuse resBusy
      else (resOk, fun t => t.setState pkg k)

end Sys2Proof.Machine
end

