-- ==== Sys2Proof/Machine/Package.lean ====
section
/-!
DEFINITION. Sys2Proof/Machine/Package.lean: resets of a package, a Freti die, a gateway die and a stack base die (R223,
R393, R396, R421, R422), link and path failures (R379, R409, R411), clock throttling (R427), configuration requests
(R421), and the debugger's access to a stopped core (R424).
-/

namespace Sys2Proof.Machine

/-! ## Reset of a Freti die: its cores (R396) -/

/-- A thread name that no thread has. -/
def nobody : Nat := 2 ^ 63

/-- The guard requests of a thread withdrawn: those that travel or wait, and the hold of one that is being granted. -/
def State.withdrawGuards (s : State) (k : Nat) : State :=
  let mine := fun (m : GuardMsg) => match m with
    | .request _ r _ => r.core == k
    | .forward _ r _ => r.core == k
    | .grant _ r _ _ _ _ => r.core == k
    | _ => false
  let t : State := { s with
    gmsgs := s.gmsgs.filter fun m => !mine m
    curators := s.curators.map fun (gk, g) => (gk, { g with queue := g.queue.filter (·.core != k) }) }
  (List.range 8).foldl (fun t num => match (t.getThread k).bind (·.binding num) with
    | some b => match b.state with
      | .acquiring _ =>
        (t.gRelease (guardKey b.place b.guard) k num true []).atThread k (·.on (·.setBinding num (some { b with state := .bound })))
      | _ => t
    | none => t) t

/-- A guard that a core of the die holds takes the loss step (R255). -/
def State.loseHeld (s : State) (_ : Nat) (_ : Nat) (b : Binding) : State :=
  match b.state with
  | .heldS | .heldX => s.modGuard (guardKey b.place b.guard) (·.lossStep)
  | _ => s

/-- The guards of a thread whose die enters reset: held ones take the loss step, and every binding is taken down (R256,
R396). -/
def State.resetGuards (s : State) (k : Nat) : State :=
  ((s.withdrawGuards k).endBindings k State.loseHeld).endBindings k State.takeDown

/-- An undefined mailbox: at most 32 open records (R290). -/
def openMail (n : Nat) : List (BitVec 128) :=
  (List.range (Config.freeNat n % 33)).map fun i => BitVec.ofNat 128 (Config.freeNat (n + 1 + i))

/-- An undefined stream port: at most 4,096 open bytes (R295). -/
def openPort (n : Nat) : List PortSeg :=
  [{ seq := BitVec.ofNat 16 (Config.freeNat (n + 40)), data := (List.range (Config.freeNat (n + 41) % 4097)).map (Config.freeByte n)
     bad := false }]

/-- A core in reset: stopped, its ring without pending entries, and what it held for its thread gone; its mailbox and stream
port hold undefined values, drawn from `n` on, and its store stays. -/
def Core.struck (n : Nat) (c : Core) : Core :=
  let entry := fun (e : RingEntry) => if e.state = .pending then { e with state := .squashed } else e
  { c with
    run := if c.run = .idle then .idle else .endedFault
    ring := c.ring.map entry, ops := [], kept := [], keptTrig := [], frame := none, outst := none, wait := .no
    preempt := none, fbuf := none, mail := openMail n, rtab := RangeTable.reset
    mtx := { c.mtx with bufA := none, bufB := none, port := openPort n, portFault := none, portStopped := false, run := none }
    sync := { c.sync with arr := Vector.replicate 16 none, phase := none, relCause := [] }
    msgs := { c.msgs with queue := [], iface := [], held := [] } }

/-- One core of the die. -/
def State.strike (s : State) (c : Nat) : State :=
  if !s.coreExists c then s
  else
    let t := s.at c fun u => u.leaveGang.withdrawFollow.dropWaiting
    let k := (t.getCore c).thread
    let t1 := if (t.getCore c).run = .idle then t else t.resetGuards k
    let t2 : State := { t1 with
      rops := t1.rops.map fun (r : RangeOp) => if r.core = k then { r with core := nobody } else r }
    { t2.modCore c (Core.struck t2.tick) with tick := t2.tick + 64 }

/-! ## Reset of a Freti die: range operations (R217, R223) -/

/-- The acknowledgements that the reset of a die gives for an operation: those of its cores, and those of its stations. -/
def RangeOp.giveAcks (r : RangeOp) (d : Nat) : RangeOp :=
  let here := fun (x : Nat × Nat) => x.1 / 8 == d || (!isMemCore x.2 && dieOf x.2 == d)
  let given := r.owed.filter here
  let stations := (given.map (·.1)).eraseDups.filter fun k => k / 8 == d
  let cores := given.filter fun x => !isMemCore x.2 && dieOf x.2 == d
  { r with owed := r.owed.filter (fun x => !here x), resetAck := r.resetAck + cores.length + stations.length }

/-- An entry of station `k` as it was before an abandoned operation: one that changes or moves is PRESENT with its holder
mask emptied, one whose residency was set has its own bits back (R217, R223). -/
def RangeOp.revert (r : RangeOp) (k : Nat) (e : CatEntry) : CatEntry :=
  if !r.hits e.entry.pid e.entry.base then e
  else if r.setOnly then match r.was.find? (·.1 == k) with
    | some (_, m) => { e with entry := { e.entry with resmap := m } }
    | none => e
  else if e.state = .present then e
  else { e with state := .present, holders := [] }

/-- The entries of an abandoned operation leave the tables that it had marked, or whose notice is still on its way: their
stations no longer count them as holders (R216, R217; DEDUCED, notes/assumptions/28.md). -/
def State.unmark (s : State) (r : RangeOp) : State :=
  let told := fun (c : Core) => pkgOf c.addr.toNat == r.pkg && (r.owed.any (·.2 == c.addr.toNat) ||
    c.rtab.entries.any fun (t : TableEntry) => r.hits t.entry.pid t.entry.base && t.state != .valid)
  if r.setOnly then s
  else s.dropAt r (((s.core :: s.others.map (·.2)).filter told).map (·.addr.toNat))

/-- An operation whose coordinator's die is struck before step 3, for `rcompact` the retarget, is abandoned; the others are
given the acknowledgements of the die, and the memory cores that its stations served take the change (R223, R226). -/
def State.strikeOp (s : State) (d : Nat) (r : RangeOp) : State :=
  if r.coord = d then
    let back : State := { s with stations := s.stations.map fun (k, l) =>
      if k / 64 = r.pkg then (k, l.map (r.revert (k % 64))) else (k, l) }
    (back.unmark r).rangeFinish r codeAbandoned
  else
    let mems := (r.owed.filter fun (x : Nat × Nat) => x.1 / 8 == d && isMemCore x.2).map (·.2)
    (s.tellAt r mems).modRangeOp r (·.giveAcks d)

/-! ## DIE_RESET (R396, R422) -/

/-- The event engines and matrix units of a die: contents undefined, populations disabled, TICKNS 1. -/
def State.strikeUnit (s : State) (u : Nat) : State :=
  let t := (((s.loseUnit false u).lose false (keyLeak u 0) (2 ^ 13)).lose false (keyPop u 0) (2 ^ 9)).disablePops u
  { t with units := adel t.units u, triggers := adel t.triggers u }

/-- Launches with a core on the die end with FAULT. -/
def Package.failLaunches (p : Package) (d : Nat) : Package :=
  { p with launches := p.launches.map fun (l : Launch) =>
      if l.status = 0 ∧ l.groups.any (·.die == d) then { l with status := BitVec.ofNat 8 stFault } else l }

/-- Reset asserted on a die that runs. -/
def State.assertReset (s : State) (pkg d : Nat) : State :=
  let ops := s.rops.filter fun (r : RangeOp) => r.pkg == pkg
  let t := ops.foldl (fun t r => t.strikeOp d r) s
  let t1 := (dieTiles pkg d).foldl State.strike t
  let t2 := (dieUnits pkg d).foldl State.strikeUnit t1
  t2.modPkg pkg fun p =>
    let q := p.failLaunches d
    { q with dieReset := q.dieReset ||| BitVec.twoPow 8 d, dieQuiet := q.dieQuiet ||| BitVec.twoPow 8 d }

/-- The repair of a die in reset (R393): stores that come to stand under other coordinates hold undefined bytes
(notes/assumptions/52.md). -/
def State.repairDie (s : State) (pkg d : Nat) : State :=
  let p := s.getPkg pkg
  let t := s.modPkg pkg (·.repairDie d)
  if p.dieMoved (p.repairDie d) d then t.lose false (keyLocal (tileAddr pkg d 0 0) 0) (2 ^ 29) else t

/-- The die leaves reset: CYCLE of its cores restarts (R11, R32). -/
def State.releaseReset (s : State) (pkg d : Nat) : State :=
  ((dieTiles pkg d).foldl (fun t c => t.modCore c fun k => { k with resetAt := s.clk }) s).modPkg pkg fun p =>
    { p with dieReset := p.dieReset &&& ~~~(BitVec.twoPow 8 d) }

/-- Is a Freti die present? -/
def State.hasDie (s : State) (pkg d : Nat) : Bool := decide (d < 8) && (s.getPkg pkg).diePresent.getLsbD d

/-- DIE_RESET: firmware asserts reset on a die that runs, and releases one that is in reset (notes/assumptions/52.md). -/
def execDieReset (pkg die : Nat) (s : State) : Out :=
  if !s.hasDie pkg die then .next s
  else if s.dieLive pkg die then .next ((s.assertReset pkg die).repairDie pkg die)
  else .next (s.releaseReset pkg die)

/-- DIE_UNRESPONSIVE_TIMEOUT: a die that has not answered the firmware for 2²⁴ clk is reset (R422). -/
def execDieUnresponsiveTimeout (pkg die : Nat) (s : State) : Out :=
  if s.hasDie pkg die ∧ s.dieLive pkg die then .next ((s.assertReset pkg die).repairDie pkg die) else .next s

/-- GATEWAY_DIE_RESET: the gateway's ports and registrar stop; a second event lets it run again, unless it has failed
(R394). -/
def execGatewayDieReset (pkg gw : Nat) (s : State) : Out :=
  if gw < 4 ∧ (s.getPkg pkg).gateways.getLsbD gw then
    .next (s.modPkg pkg fun p => ({ p with gwReset := p.gwReset ^^^ BitVec.twoPow 4 gw } : Package).repairGateway gw)
  else .next s

/-! ## STACK_BASE_DIE_RESET (R393) -/

/-- A memory core leaves reset idle; the loader calls it ran or had queued fail (R297). -/
def State.resetMemCore (s : State) (c : Nat) : State :=
  if !s.coreExists c then s
  else
    let t := s.at c State.failCall
    let k := (t.getCore c).thread
    let t1 := if (t.getCore c).run = .idle then t else t.resetGuards k
    let t2 := (s.getCore c).calls.foldl (fun (u : State) (x : LoaderCall) => u.atThread x.caller fun v =>
      match (v.core.op x.seq).bind Op.copy? with
      | some r => v.failCopy x.seq r (0, 0) (Cause.copyReq, 17)
      | none => v) t1
    t2.boot [c]

/-! ## PACKAGE_RESET (R421) -/

/-- Write events to a package's memory leave the order: what they wrote is gone. -/
def Order.dropPkg (o : Order) (pkg : Nat) : Order := { o with events := o.events.filter fun (e : WEvent) => e.pkg != pkg }

/-- Everything of a package that stands outside its cores and memory, gone. -/
def State.dropPackage (s : State) (pkg : Nat) : State :=
  let mine := fun (k : Nat) => pkgOf (threadCore k) == pkg
  let act := fun (x : Nat × List Trigger) => triggerPkg x.1 != pkg
  let forgotten := s.curators.filter fun x => dpaPkg (x.1 % 2 ^ 52) == pkg
  { s with
    mem := forgotten.foldl (fun m x => m.zero (keyHome x.1 0) x.2.len) s.mem
    saved := s.saved.filter fun x => !mine x.1
    snaps := s.snaps.filter fun x => !mine x.1
    ended := s.ended.filter fun x => !mine x.1
    stations := s.stations.filter fun x => x.1 / 64 != pkg
    rops := s.rops.filter fun (r : RangeOp) => r.pkg != pkg
    curators := s.curators.filter fun x => dpaPkg (x.1 % 2 ^ 52) != pkg
    units := s.units.filter fun x => x.1 / 256 != pkg
    engines := s.engines.filter fun x => unitPkg x.1 != pkg
    triggers := s.triggers.filter act
    mesh := s.mesh.filter fun (m : Msg) => pkgOf m.src != pkg && pkgOf m.dst != pkg
    evnet := s.evnet.filter fun (m : EvMsg) => pkgOf (threadCore m.src) != pkg
    posts := s.posts.filter fun (m : Post) => pkgOf (threadCore m.target) != pkg
    beats := s.beats.filter fun (m : Beat) => pkgOf m.src != pkg && pkgOf m.dst != pkg
    follows := s.follows.filter fun x => pkgOf x.1 != pkg
    posted := s.posted.filter fun (m : Posted) => !mine m.core
    ordered := s.ordered.filter fun (m : OrdStore) => !mine m.core
    hostWrites := s.hostWrites.filter fun (w : HostWrite) => w.pkg != pkg
    order := s.order.dropPkg pkg }

/-- The stacked memory of a package undefined, under each placement, and what home supplies of a region there (R254). -/
def State.openMemory (s : State) (pkg : Nat) : State :=
  (s.curators.filter fun x => dpaPkg x.2.region == pkg).foldl (fun t x => t.lose false (keyHome x.1 0) x.2.len)
    ((List.range 3).foldl (fun t place => t.lose false (keyOff place (pkg * 2 ^ 41)) stackedSize) s)

/-- The repair of a stack (R393): where its channels change, the bytes of the package's stacked memory are undefined
(notes/assumptions/53.md). -/
def State.repairStack (s : State) (pkg k : Nat) : State :=
  let p := s.getPkg pkg
  let t := s.modPkg pkg (·.repairStack k)
  if channelMap p.repaired k = channelMap (p.repairStack k).repaired k then t
  else (({ t with order := t.order.dropPkg pkg } : State).openMemory pkg)

/-- STACK_BASE_DIE_RESET: the bytes of the stack are kept (notes/assumptions/53.md). -/
def execStackBaseDieReset (pkg stack : Nat) (s : State) : Out :=
  if 16 ≤ stack ∨ !(s.getPkg pkg).hasStack stack then .next s
  else .next (((stackCores pkg stack).foldl State.resetMemCore s).repairStack pkg stack)

/-- The package's own state after reset: the repair assignments are fixed anew, and what the part then reports is kept;
bring-up ends within 2 s (R393, R394, R421). -/
def Package.resetTo (p0 : Package) (upAt : Nat) : Package :=
  let p := p0.repairAll
  { Package.reset with
    failed := p.failed, repaired := p.repaired, rows := p.rows, diePresent := p.diePresent, channels := p.channels
    stackPresent := p.stackPresent, gateways := p.gateways, lanes := p.lanes, laneSpare := p.laneSpare, paths := p.paths
    clockOff := p.clockOff, upAt := upAt }

/-- PACKAGE_RESET. -/
def execPackageReset (pkg : Nat) (s : State) : Out :=
  let live := (List.range 8).filter (s.dieLive pkg)
  let t := live.foldl (fun t d => t.assertReset pkg d) s
  let (n, t1) := ((((t.dropPackage pkg).openMemory pkg).freshStores pkg).giveHandlers (packageCores pkg)).fresh
  let upAt := s.ns + Config.freeNat n % (2 * 10 ^ 9 + 1)
  .next ((t1.boot (packageCores pkg)).modPkg pkg (·.resetTo upAt))

/-- CONFIGURATION_REQUEST: Request Retry Status until bring-up ends. -/
def execConfigurationRequest (pkg : Nat) (s : State) : Out :=
  .next (s.modPkg pkg fun p => { p with cfgRetry := decide (s.ns < p.upAt) })

/-! ## Links, paths and clocks (R379, R380, R409, R427) -/

/-- The number of link directions of a package (R384). -/
def linkCount : Nat := 68

/-- LINK_CRC_REPLAY. -/
def execLinkCrcReplay (pkg link : Nat) (s : State) : Out :=
  if link < linkCount then .next (s.modPkg pkg fun p => { p with crcReplay := countAt p.crcReplay link }) else .next s

/-- The live lanes of a link direction of which `n` lanes are retired: 512 while the 16 spares last, then the largest
multiple of 64 (R392, R394). -/
def lanesAfter (n : Nat) : Nat := min 512 ((528 - n) / 64 * 64)

/-- LANE_RETIRE: a spare takes the lane's place, or the link runs on fewer lanes. -/
def execLaneRetire (pkg link : Nat) (s : State) : Out :=
  if link < linkCount then
    .next (s.modPkg pkg fun p =>
      let c := countAt p.laneSpare link
      { p with laneSpare := c, lanes := aset p.lanes link (lanesAfter (agetD c link 0).toNat) })
  else .next s

/-- A path to a pod goes down or comes back. -/
def Package.setPath (p : Package) (pod path : Nat) (up : Bool) : Package :=
  let m := p.livePaths pod
  let b : BitVec 4 := BitVec.twoPow 4 path
  { p with paths := aset p.paths pod (if up then m ||| b else m &&& ~~~b) }

/-- PATH_DOWN: a curator whose last exclusive holder is no longer reached takes the loss step (R411). -/
def execPathDown (pkg pod path : Nat) (s : State) : Out :=
  if pod < 128 ∧ path < 4 then .next (s.modPkg pkg (·.setPath pod path false)).loseUnreached else .next s

/-- PATH_LIVE. -/
def execPathLive (pkg pod path : Nat) (s : State) : Out :=
  if pod < 128 ∧ path < 4 then .next (s.modPkg pkg (·.setPath pod path true)) else .next s

/-- THERMAL_THROTTLE: the clocks stand some steps of 100 MHz below their rate; the summary report shows it. -/
def execThermalThrottle (pkg steps : Nat) (s : State) : Out :=
  .next (s.modPkg pkg fun p => { p with throttle := steps % 256 })

/-! ## HALT_DEBUG_ACCESS (R424) -/

/-- May the debugger see the core: under sealed only a core of a PID that the token was registered for? -/
def State.debugSees (s : State) : Bool :=
  let p := s.getPkg (pkgOf s.core.addr.toNat)
  p.security == .opened || Config.tokenPid p.tokenReg s.core.ctl.pid

/-- Where the debugger's 64 bytes at a virtual address lie, by the station of the core in focus. -/
def State.debugAddr (s : State) (va : Nat) (wr : Bool) : Option Xlat :=
  match s.stationFind (stationOf s.core.addr.toNat) s.core.ctl.pid va with
  | (.hit e, _) =>
    let x := e.entry.xlat va
    if e.state = .present ∧ (e.entry.check va (if wr then .engineWrite else .engineRead) 64).isNone ∧
        targetOf x.pa = .stacked ∧ s.reachesAt s.core.addr.toNat x.pa x.place then some x else none
  | _ => none

/-- A debugger's read: a register, 64 bytes of the store, or 64 bytes of stacked memory through a range. -/
def State.debugRead (s : State) (what idx : Nat) : BitVec 512 :=
  let i5 : BitVec 5 := BitVec.ofNat 5 idx
  match what with
  | 0 => (s.core.g i5).setWidth 512
  | 1 => s.core.v i5
  | 2 => (s.core.m (BitVec.ofNat 3 idx)).setWidth 512
  | 3 => (s.readCr (idx % 4096)).setWidth 512
  | 4 => if idx + 64 ≤ 0x180000 then BitVec.ofNat 512 (s.localRead idx 64) else 0
  | 5 => match s.debugAddr idx false with
    | some x => BitVec.ofNat 512 (leNat (s.offBytes x.pa x.place 64))
    | none => 0
  | 6 => s.pc.setWidth 512
  | 7 => (s.core.accTile (BitVec.ofNat 2 (idx / 16))).extractLsb' (512 * (idx % 16)) 512
  | _ => 0

/-- 64 bytes of an accumulator written, from byte 64 * `k` on. -/
def Core.setAccPart (c : Core) (n : BitVec 2) (k : Nat) (x : BitVec 512) : Core :=
  let t := c.accTile n
  let m : Tile := (BitVec.allOnes 512).setWidth 8192 <<< (512 * k)
  c.setAcc n ((t &&& ~~~m) ||| (x.setWidth 8192 <<< (512 * k)))

/-- A debugger's write. -/
def State.debugWrite (s : State) (what idx : Nat) (x : BitVec 512) : State :=
  let i5 : BitVec 5 := BitVec.ofNat 5 idx
  match what with
  | 0 => s.setG i5 (x.setWidth 64)
  | 1 => s.setV i5 x
  | 2 => s.setM (BitVec.ofNat 3 idx) (x.setWidth 64)
  | 3 => s.on (·.writeCr (idx % 4096) (x.setWidth 64))
  | 4 => if idx + 64 ≤ 0x180000 then s.localWriteBytes idx (natLe 64 x.toNat) else s
  | 5 => match s.debugAddr idx true with
    | some y => s.offWriteBytes (.plain .beyond) y.pa y.place (natLe 64 x.toNat)
    | none => s
  | 6 => s.setPc (x.setWidth 21 &&& 0x1FFFFC)
  | 7 => s.on (·.setAccPart (BitVec.ofNat 2 (idx / 16)) (idx % 16) x)
  | _ => s

/-- HALT_DEBUG_ACCESS: a debugger at a core in the halt debug state; `what` is 0 for g, 1 for v, 2 for m, 3 for a
control register, 4 for the store, 5 for memory, 6 for the pc, 7 for 64 bytes of an accumulator. A core that it may not see,
or that is not stopped, reads as zero. -/
def execHaltDebugAccess (c what idx : Nat) (wr : Bool) (x : BitVec 512) (s : State) : Out :=
  let pkg := pkgOf c
  if (s.getPkg pkg).debug ≠ .halt then .next s
  else
    let sees := decide ((s.getCore c).run = .haltDebug) && (s.focus c).debugSees
    if wr then .next (if sees then s.at c (·.debugWrite what idx x) else s)
    else
      let v := if sees then (s.focus c).debugRead what idx else 0
      .next (s.modPkg pkg fun p => { p with dbgData := v })

end Sys2Proof.Machine
end

