-- ==== Sys2Proof/Machine/Dispatch.lean ====
section
/-!
DEFINITION. Sys2Proof/Machine/Dispatch.lean: from an instruction or event to its meaning, one arm each.
-/

namespace Sys2Proof.Machine

/-- What an instruction or an event does to a state. -/
def exec (i : Instr) (s : State) : Host.Outcome State Fault Refusal :=
  match i with
  | .add d a b => Sys2Proof.Machine.execAdd d a b s
  | .sub d a b => Sys2Proof.Machine.execSub d a b s
  | .and d a b => Sys2Proof.Machine.execAnd d a b s
  | .or d a b => Sys2Proof.Machine.execOr d a b s
  | .xor d a b => Sys2Proof.Machine.execXor d a b s
  | .andn d a b => Sys2Proof.Machine.execAndn d a b s
  | .orn d a b => Sys2Proof.Machine.execOrn d a b s
  | .xnor d a b => Sys2Proof.Machine.execXnor d a b s
  | .sll d a b => Sys2Proof.Machine.execSll d a b s
  | .srl d a b => Sys2Proof.Machine.execSrl d a b s
  | .sra d a b => Sys2Proof.Machine.execSra d a b s
  | .rol d a b => Sys2Proof.Machine.execRol d a b s
  | .ror d a b => Sys2Proof.Machine.execRor d a b s
  | .slt d a b => Sys2Proof.Machine.execSlt d a b s
  | .sltz d a b => Sys2Proof.Machine.execSltz d a b s
  | .min d a b => Sys2Proof.Machine.execMin d a b s
  | .max d a b => Sys2Proof.Machine.execMax d a b s
  | .minz d a b => Sys2Proof.Machine.execMinz d a b s
  | .maxz d a b => Sys2Proof.Machine.execMaxz d a b s
  | .addW d a b => Sys2Proof.Machine.execAddW d a b s
  | .subW d a b => Sys2Proof.Machine.execSubW d a b s
  | .sllW d a b => Sys2Proof.Machine.execSllW d a b s
  | .srlW d a b => Sys2Proof.Machine.execSrlW d a b s
  | .sraW d a b => Sys2Proof.Machine.execSraW d a b s
  | .addSat d a b => Sys2Proof.Machine.execAddSat d a b s
  | .subSat d a b => Sys2Proof.Machine.execSubSat d a b s
  | .seq d a b => Sys2Proof.Machine.execSeq d a b s
  | .sne d a b => Sys2Proof.Machine.execSne d a b s
  | .addi d a imm => Sys2Proof.Machine.execAddi d a imm s
  | .andi d a imm => Sys2Proof.Machine.execAndi d a imm s
  | .ori d a imm => Sys2Proof.Machine.execOri d a imm s
  | .xori d a imm => Sys2Proof.Machine.execXori d a imm s
  | .limh d a imm => Sys2Proof.Machine.execLimh d a imm s
  | .slti d a imm => Sys2Proof.Machine.execSlti d a imm s
  | .sltiz d a imm => Sys2Proof.Machine.execSltiz d a imm s
  | .slli d a n => Sys2Proof.Machine.execSlli d a n s
  | .srli d a n => Sys2Proof.Machine.execSrli d a n s
  | .srai d a n => Sys2Proof.Machine.execSrai d a n s
  | .rori d a n => Sys2Proof.Machine.execRori d a n s
  | .slliW d a n => Sys2Proof.Machine.execSlliW d a n s
  | .srliW d a n => Sys2Proof.Machine.execSrliW d a n s
  | .sraiW d a n => Sys2Proof.Machine.execSraiW d a n s
  | .mul d a b => Sys2Proof.Machine.execMul d a b s
  | .mulh d a b => Sys2Proof.Machine.execMulh d a b s
  | .mulhz d a b => Sys2Proof.Machine.execMulhz d a b s
  | .mulhsz d a b => Sys2Proof.Machine.execMulhsz d a b s
  | .div d a b => Sys2Proof.Machine.execDiv d a b s
  | .divz d a b => Sys2Proof.Machine.execDivz d a b s
  | .rem d a b => Sys2Proof.Machine.execRem d a b s
  | .remz d a b => Sys2Proof.Machine.execRemz d a b s
  | .mulW d a b => Sys2Proof.Machine.execMulW d a b s
  | .divW d a b => Sys2Proof.Machine.execDivW d a b s
  | .divzW d a b => Sys2Proof.Machine.execDivzW d a b s
  | .remW d a b => Sys2Proof.Machine.execRemW d a b s
  | .remzW d a b => Sys2Proof.Machine.execRemzW d a b s
  | .ext d a p l => Sys2Proof.Machine.execExt d a p l s
  | .extz d a p l => Sys2Proof.Machine.execExtz d a p l s
  | .ins d a p l => Sys2Proof.Machine.execIns d a p l s
  | .clz d a => Sys2Proof.Machine.execClz d a s
  | .ctz d a => Sys2Proof.Machine.execCtz d a s
  | .popc d a => Sys2Proof.Machine.execPopc d a s
  | .rev8 d a => Sys2Proof.Machine.execRev8 d a s
  | .revb d a => Sys2Proof.Machine.execRevb d a s
  | .adda d a b t0 => Sys2Proof.Machine.execAdda d a b t0 s
  | .suba d a b t0 => Sys2Proof.Machine.execSuba d a b t0 s
  | .chkb a b => Sys2Proof.Machine.execChkb a b s
  | .chkr d a b => Sys2Proof.Machine.execChkr d a b s
  | .aligna d a t0 => Sys2Proof.Machine.execAligna d a t0 s
  | .ldB d a imm => Sys2Proof.Machine.execLdB d a imm s
  | .ldH d a imm => Sys2Proof.Machine.execLdH d a imm s
  | .ldW d a imm => Sys2Proof.Machine.execLdW d a imm s
  | .ldD d a imm => Sys2Proof.Machine.execLdD d a imm s
  | .ldBz d a imm => Sys2Proof.Machine.execLdBz d a imm s
  | .ldHz d a imm => Sys2Proof.Machine.execLdHz d a imm s
  | .ldWz d a imm => Sys2Proof.Machine.execLdWz d a imm s
  | .stB d a imm => Sys2Proof.Machine.execStB d a imm s
  | .stH d a imm => Sys2Proof.Machine.execStH d a imm s
  | .stW d a imm => Sys2Proof.Machine.execStW d a imm s
  | .stD d a imm => Sys2Proof.Machine.execStD d a imm s
  | .beqz a o => Sys2Proof.Machine.execBeqz a o s
  | .bnez a o => Sys2Proof.Machine.execBnez a o s
  | .bltz a o => Sys2Proof.Machine.execBltz a o s
  | .bgez a o => Sys2Proof.Machine.execBgez a o s
  | .bgtz a o => Sys2Proof.Machine.execBgtz a o s
  | .blez a o => Sys2Proof.Machine.execBlez a o s
  | .beq a b o => Sys2Proof.Machine.execBeq a b o s
  | .bne a b o => Sys2Proof.Machine.execBne a b o s
  | .blt a b o => Sys2Proof.Machine.execBlt a b o s
  | .bge a b o => Sys2Proof.Machine.execBge a b o s
  | .blo a b o => Sys2Proof.Machine.execBlo a b o s
  | .bhs a b o => Sys2Proof.Machine.execBhs a b o s
  | .j o => Sys2Proof.Machine.execJ o s
  | .jl o => Sys2Proof.Machine.execJl o s
  | .jr a => Sys2Proof.Machine.execJr a s
  | .jlr a => Sys2Proof.Machine.execJlr a s
  | .crr d n => Sys2Proof.Machine.execCrr d n s
  | .crw a n => Sys2Proof.Machine.execCrw a n s
  | .crs d a n => Sys2Proof.Machine.execCrs d a n s
  | .crc d a n => Sys2Proof.Machine.execCrc d a n s
  | .svc c => Sys2Proof.Machine.execSvc c s
  | .eret => Sys2Proof.Machine.execEret s
  | .trap c => Sys2Proof.Machine.execTrap c s
  | .brk c => Sys2Proof.Machine.execBrk c s
  | .halt => Sys2Proof.Machine.execHalt s
  | .wfe => Sys2Proof.Machine.execWfe s
  | .ifence => Sys2Proof.Machine.execIfence s
  | .yield => Sys2Proof.Machine.execYield s
  | .vadd d a b m w => Sys2Proof.Machine.execVadd d a b m w s
  | .vsub d a b m w => Sys2Proof.Machine.execVsub d a b m w s
  | .vaddsSigned d a b m w => Sys2Proof.Machine.execVaddsSigned d a b m w s
  | .vaddsUnsigned d a b m w => Sys2Proof.Machine.execVaddsUnsigned d a b m w s
  | .vsubsSigned d a b m w => Sys2Proof.Machine.execVsubsSigned d a b m w s
  | .vsubsUnsigned d a b m w => Sys2Proof.Machine.execVsubsUnsigned d a b m w s
  | .vmul d a b m w => Sys2Proof.Machine.execVmul d a b m w s
  | .vmulhSigned d a b m w => Sys2Proof.Machine.execVmulhSigned d a b m w s
  | .vmulhUnsigned d a b m w => Sys2Proof.Machine.execVmulhUnsigned d a b m w s
  | .vminSigned d a b m w => Sys2Proof.Machine.execVminSigned d a b m w s
  | .vminUnsigned d a b m w => Sys2Proof.Machine.execVminUnsigned d a b m w s
  | .vmaxSigned d a b m w => Sys2Proof.Machine.execVmaxSigned d a b m w s
  | .vmaxUnsigned d a b m w => Sys2Proof.Machine.execVmaxUnsigned d a b m w s
  | .vand d a b m w => Sys2Proof.Machine.execVand d a b m w s
  | .vor d a b m w => Sys2Proof.Machine.execVor d a b m w s
  | .vxor d a b m w => Sys2Proof.Machine.execVxor d a b m w s
  | .vandn d a b m w => Sys2Proof.Machine.execVandn d a b m w s
  | .vsll d a b m w => Sys2Proof.Machine.execVsll d a b m w s
  | .vsrl d a b m w => Sys2Proof.Machine.execVsrl d a b m w s
  | .vsra d a b m w => Sys2Proof.Machine.execVsra d a b m w s
  | .vabs d a m w => Sys2Proof.Machine.execVabs d a m w s
  | .vsum d a b m w => Sys2Proof.Machine.execVsum d a b m w s
  | .vfadd d a b m t => Sys2Proof.Machine.execVfadd d a b m t s
  | .vfsub d a b m t => Sys2Proof.Machine.execVfsub d a b m t s
  | .vfmul d a b m t => Sys2Proof.Machine.execVfmul d a b m t s
  | .vfdiv d a b m t => Sys2Proof.Machine.execVfdiv d a b m t s
  | .vfsqrt d a m t => Sys2Proof.Machine.execVfsqrt d a m t s
  | .vfmin d a b m t => Sys2Proof.Machine.execVfmin d a b m t s
  | .vfmax d a b m t => Sys2Proof.Machine.execVfmax d a b m t s
  | .vfabs d a m t => Sys2Proof.Machine.execVfabs d a m t s
  | .vfneg d a m t => Sys2Proof.Machine.execVfneg d a m t s
  | .vfsum d a b m t => Sys2Proof.Machine.execVfsum d a b m t s
  | .vfsumw d a b m t => Sys2Proof.Machine.execVfsumw d a b m t s
  | .vfma d a b c m t => Sys2Proof.Machine.execVfma d a b c m t s
  | .vfms d a b c m t => Sys2Proof.Machine.execVfms d a b c m t s
  | .vcmpEq d a b m t => Sys2Proof.Machine.execVcmpEq d a b m t s
  | .vcmpNe d a b m t => Sys2Proof.Machine.execVcmpNe d a b m t s
  | .vcmpLt d a b m t => Sys2Proof.Machine.execVcmpLt d a b m t s
  | .vcmpLe d a b m t => Sys2Proof.Machine.execVcmpLe d a b m t s
  | .vcmpGt d a b m t => Sys2Proof.Machine.execVcmpGt d a b m t s
  | .vcmpGe d a b m t => Sys2Proof.Machine.execVcmpGe d a b m t s
  | .vcmpUn d a b m t => Sys2Proof.Machine.execVcmpUn d a b m t s
  | .mand d a b => Sys2Proof.Machine.execMand d a b s
  | .mor d a b => Sys2Proof.Machine.execMor d a b s
  | .mxor d a b => Sys2Proof.Machine.execMxor d a b s
  | .mandn d a b => Sys2Proof.Machine.execMandn d a b s
  | .mnot d a => Sys2Proof.Machine.execMnot d a s
  | .mfromg d a => Sys2Proof.Machine.execMfromg d a s
  | .mtog d a => Sys2Proof.Machine.execMtog d a s
  | .mpop d a => Sys2Proof.Machine.execMpop d a s
  | .vcvtEl d a r m x t0 => Sys2Proof.Machine.execVcvtEl d a r m x t0 s
  | .vcvtPack d a r x t0 => Sys2Proof.Machine.execVcvtPack d a r x t0 s
  | .vcvtUnpack d a r x t0 => Sys2Proof.Machine.execVcvtUnpack d a r x t0 s
  | .vperm d a b m w => Sys2Proof.Machine.execVperm d a b m w s
  | .vbcast d a m w => Sys2Proof.Machine.execVbcast d a m w s
  | .vdup d a b m w => Sys2Proof.Machine.execVdup d a b m w s
  | .vmov d a m w => Sys2Proof.Machine.execVmov d a m w s
  | .vzip d a b m w => Sys2Proof.Machine.execVzip d a b m w s
  | .vunzip d a b m w => Sys2Proof.Machine.execVunzip d a b m w s
  | .vslide d a b m w => Sys2Proof.Machine.execVslide d a b m w s
  | .vins d a b w => Sys2Proof.Machine.execVins d a b w s
  | .vext d a b w => Sys2Proof.Machine.execVext d a b w s
  | .vcompress d a m w => Sys2Proof.Machine.execVcompress d a m w s
  | .vexpand d a m w => Sys2Proof.Machine.execVexpand d a m w s
  | .vld v a m o => Sys2Proof.Machine.execVld v a m o s
  | .vst v a m o => Sys2Proof.Machine.execVst v a m o s
  | .vlds d a b m w => Sys2Proof.Machine.execVlds d a b m w s
  | .vsts d a b m w => Sys2Proof.Machine.execVsts d a b m w s
  | .vgath d a b m w => Sys2Proof.Machine.execVgath d a b m w s
  | .vscat d a b m w => Sys2Proof.Machine.execVscat d a b m w s
  | .rfrm n a b => Sys2Proof.Machine.execRfrm n a b s
  | .frameReplay => Sys2Proof.Machine.execFrameReplay s
  | .loop o a => Sys2Proof.Machine.execLoop o a s
  | .send a b t n => Sys2Proof.Machine.execSend a b t n s
  | .sendV a b t n => Sys2Proof.Machine.execSendV a b t n s
  | .recv d r n => Sys2Proof.Machine.execRecv d r n s
  | .recvV d r n => Sys2Proof.Machine.execRecvV d r n s
  | .recvT d a r n => Sys2Proof.Machine.execRecvT d a r n s
  | .recvTV d a r n => Sys2Proof.Machine.execRecvTV d a r n s
  | .msgst d n => Sys2Proof.Machine.execMsgst d n s
  | .arrive n => Sys2Proof.Machine.execArrive n s
  | .waitb n => Sys2Proof.Machine.execWaitb n s
  | .testb d n => Sys2Proof.Machine.execTestb d n s
  | .vote d a n => Sys2Proof.Machine.execVote d a n s
  | .bdef a n => Sys2Proof.Machine.execBdef a n s
  | .follow d a => Sys2Proof.Machine.execFollow d a s
  | .split => Sys2Proof.Machine.execSplit s
  | .gangst d => Sys2Proof.Machine.execGangst d s
  | .followRequestTaken leader follower => Sys2Proof.Machine.execFollowRequestTaken leader follower s
  | .comm d r => Sys2Proof.Machine.execComm d r s
  | .ttplan d a => Sys2Proof.Machine.execTtplan d a s
  | .ttsend c a => Sys2Proof.Machine.execTtsend c a s
  | .ttrecv c a => Sys2Proof.Machine.execTtrecv c a s
  | .ldx d a b z t0 p => Sys2Proof.Machine.execLdx d a b z t0 p s
  | .ldxAcq d a b z t0 p => Sys2Proof.Machine.execLdxAcq d a b z t0 p s
  | .loadDataReturn c => Sys2Proof.Machine.execLoadDataReturn c s
  | .memoryResponseTimeout c => Sys2Proof.Machine.execMemoryResponseTimeout c s
  | .stx d a b t0 p => Sys2Proof.Machine.execStx d a b t0 p s
  | .stxRel d a b t0 p => Sys2Proof.Machine.execStxRel d a b t0 p s
  | .stxOf d a b t0 p => Sys2Proof.Machine.execStxOf d a b t0 p s
  | .atomAdd d a b r t0 p => Sys2Proof.Machine.execAtomAdd d a b r t0 p s
  | .atomAnd d a b r t0 p => Sys2Proof.Machine.execAtomAnd d a b r t0 p s
  | .atomOr d a b r t0 p => Sys2Proof.Machine.execAtomOr d a b r t0 p s
  | .atomXor d a b r t0 p => Sys2Proof.Machine.execAtomXor d a b r t0 p s
  | .atomMin d a b r t0 p => Sys2Proof.Machine.execAtomMin d a b r t0 p s
  | .atomMax d a b r t0 p => Sys2Proof.Machine.execAtomMax d a b r t0 p s
  | .atomMinz d a b r t0 p => Sys2Proof.Machine.execAtomMinz d a b r t0 p s
  | .atomMaxz d a b r t0 p => Sys2Proof.Machine.execAtomMaxz d a b r t0 p s
  | .atomSwap d a b r t0 p => Sys2Proof.Machine.execAtomSwap d a b r t0 p s
  | .atomCas d a b r t0 p => Sys2Proof.Machine.execAtomCas d a b r t0 p s
  | .atomFadd d a b r t0 p => Sys2Proof.Machine.execAtomFadd d a b r t0 p s
  | .fenceAcq p => Sys2Proof.Machine.execFenceAcq p s
  | .fenceRel p => Sys2Proof.Machine.execFenceRel p s
  | .fenceFull p => Sys2Proof.Machine.execFenceFull p s
  | .fenceAck => Sys2Proof.Machine.execFenceAck s
  | .rload d a b => Sys2Proof.Machine.execRload d a b s
  | .rprobe d a b => Sys2Proof.Machine.execRprobe d a b s
  | .rsplit d a b => Sys2Proof.Machine.execRsplit d a b s
  | .rmerge d a b => Sys2Proof.Machine.execRmerge d a b s
  | .rinv d a b => Sys2Proof.Machine.execRinv d a b s
  | .rres d a b => Sys2Proof.Machine.execRres d a b s
  | .rcompact d a b => Sys2Proof.Machine.execRcompact d a b s
  | .rstat d b => Sys2Proof.Machine.execRstat d b s
  | .gbind d a b => Sys2Proof.Machine.execGbind d a b s
  | .gunbind d a b => Sys2Proof.Machine.execGunbind d a b s
  | .gacqS d a b => Sys2Proof.Machine.execGacqS d a b s
  | .gacqX d a b => Sys2Proof.Machine.execGacqX d a b s
  | .grel d a b => Sys2Proof.Machine.execGrel d a b s
  | .gtryS d a b => Sys2Proof.Machine.execGtryS d a b s
  | .gtryX d a b => Sys2Proof.Machine.execGtryX d a b s
  | .gflush d a b => Sys2Proof.Machine.execGflush d a b s
  | .gstat d a b => Sys2Proof.Machine.execGstat d a b s
  | .cpy d a b => Sys2Proof.Machine.execCpy d a b s
  | .cpyW d a b => Sys2Proof.Machine.execCpyW d a b s
  | .cpyst d => Sys2Proof.Machine.execCpyst d s
  | .deal d a => Sys2Proof.Machine.execDeal d a s
  | .waitw a b => Sys2Proof.Machine.execWaitw a b s
  | .waitwSeq d b => Sys2Proof.Machine.execWaitwSeq d b s
  | .waitm d => Sys2Proof.Machine.execWaitm d s
  | .mbxrd d a => Sys2Proof.Machine.execMbxrd d a s
  | .mma c a b r u v w x => Sys2Proof.Machine.execMma c a b r u v w x s
  | .mzero c => Sys2Proof.Machine.execMzero c s
  | .mlda c a => Sys2Proof.Machine.execMlda c a s
  | .msta c a => Sys2Proof.Machine.execMsta c a s
  | .mfmt c a t0 r t => Sys2Proof.Machine.execMfmt c a t0 r t s
  | .mcbld a b => Sys2Proof.Machine.execMcbld a b s
  | .evcfgPop d a b => Sys2Proof.Machine.execEvcfgPop d a b s
  | .evcfgLeak d a b => Sys2Proof.Machine.execEvcfgLeak d a b s
  | .evcfgEng d a => Sys2Proof.Machine.execEvcfgEng d a s
  | .evpost d a b => Sys2Proof.Machine.execEvpost d a b s
  | .evsweep d a => Sys2Proof.Machine.execEvsweep d a s
  | .evread d a b => Sys2Proof.Machine.execEvread d a b s
  | .evreadSt d a => Sys2Proof.Machine.execEvreadSt d a s
  | .evwrite d a b => Sys2Proof.Machine.execEvwrite d a b s
  | .evdrain d => Sys2Proof.Machine.execEvdrain d s
  | .evdrainPop d a => Sys2Proof.Machine.execEvdrainPop d a s
  | .launch d a b => Sys2Proof.Machine.execLaunch d a b s
  | .done => Sys2Proof.Machine.execDone s
  | .signal a => Sys2Proof.Machine.execSignal a s
  | .rdtime d => Sys2Proof.Machine.execRdtime d s
  | .rdtimeTick d => Sys2Proof.Machine.execRdtimeTick d s
  | .tarm d a b => Sys2Proof.Machine.execTarm d a b s
  | .tarmEv d a b => Sys2Proof.Machine.execTarmEv d a b s
  | .waitt a => Sys2Proof.Machine.execWaitt a s
  | .ldtile d a => Sys2Proof.Machine.execLdtile d a s
  | .sttile d a => Sys2Proof.Machine.execSttile d a s
  | .ldeal d a => Sys2Proof.Machine.execLdeal d a s
  | .lswait d a => Sys2Proof.Machine.execLswait d a s
  | .lateFaultTaken c => Sys2Proof.Machine.execLateFaultTaken c s
  | .releaseCauseTaken c => Sys2Proof.Machine.execReleaseCauseTaken c s
  | .registerWrite pkg off pid host xs => Sys2Proof.Machine.execRegisterWrite pkg off pid host xs s
  | .barrierRelease c n => Sys2Proof.Machine.execBarrierRelease c n s
  | .phaseClose c => Sys2Proof.Machine.execPhaseClose c s
  | .exchangeBeatSend c => Sys2Proof.Machine.execExchangeBeatSend c s
  | .exchangeBeatReceive c slot k => Sys2Proof.Machine.execExchangeBeatReceive c slot k s
  | .rxWatchdog c => Sys2Proof.Machine.execRxWatchdog c s
  | .messageArrival imm => Sys2Proof.Machine.execMessageArrival imm s
  | .messageEntersChannel c => Sys2Proof.Machine.execMessageEntersChannel c s
  | .launchAdmission pkg q => Sys2Proof.Machine.execLaunchAdmission pkg q s
  | .launchStart pkg num grp => Sys2Proof.Machine.execLaunchStart pkg num grp s
  | .launchEnd pkg num => Sys2Proof.Machine.execLaunchEnd pkg num s
  | .preemptRequest pkg num => Sys2Proof.Machine.execPreemptRequest pkg num s
  | .preempt c => Sys2Proof.Machine.execPreempt c s
  | .contextSave pkg num => Sys2Proof.Machine.execContextSave pkg num s
  | .resume pkg num => Sys2Proof.Machine.execResume pkg num s
  | .rollback c => Sys2Proof.Machine.execRollback c s
  | .copyStart c seq => Sys2Proof.Machine.execCopyStart c seq s
  | .copyComplete c seq => Sys2Proof.Machine.execCopyComplete c seq s
  | .copyFault c seq => Sys2Proof.Machine.execCopyFault c seq s
  | .streamedStepReplay c => Sys2Proof.Machine.execStreamedStepReplay c s
  | .mailboxPost c => Sys2Proof.Machine.execMailboxPost c s
  | .loaderCallStart c => Sys2Proof.Machine.execLoaderCallStart c s
  | .tileStepStart eng => Sys2Proof.Machine.execTileStepStart eng s
  | .tileStepComplete c mismatches => Sys2Proof.Machine.execTileStepComplete c mismatches s
  | .matrixOperationPerform c => Sys2Proof.Machine.execMatrixOperationPerform c s
  | .eventArrival imm => Sys2Proof.Machine.execEventArrival imm s
  | .eventDelivery eng => Sys2Proof.Machine.execEventDelivery eng s
  | .eventOperationPerform c => Sys2Proof.Machine.execEventOperationPerform c s
  | .evdrainComplete c => Sys2Proof.Machine.execEvdrainComplete c s
  | .triggerFire unit => Sys2Proof.Machine.execTriggerFire unit s
  | .waittExpiry c => Sys2Proof.Machine.execWaittExpiry c s
  | .domainClockStep pkg x => Sys2Proof.Machine.execDomainClockStep pkg x s
  | .stationLookup c => Sys2Proof.Machine.execStationLookup c s
  | .stationRangeRequest c => Sys2Proof.Machine.execStationRangeRequest c s
  | .rangeNotice pkg pid station => Sys2Proof.Machine.execRangeNotice pkg pid station s
  | .holderAcknowledge c => Sys2Proof.Machine.execHolderAcknowledge c s
  | .coordinatorApply pkg pid => Sys2Proof.Machine.execCoordinatorApply pkg pid s
  | .conservatorCopy pkg pid => Sys2Proof.Machine.execConservatorCopy pkg pid s
  | .retarget pkg pid => Sys2Proof.Machine.execRetarget pkg pid s
  | .guardOperationStart c seq => Sys2Proof.Machine.execGuardOperationStart c seq s
  | .curatorRequest imm => Sys2Proof.Machine.execCuratorRequest imm s
  | .supplierForward imm => Sys2Proof.Machine.execSupplierForward imm s
  | .grantArrival imm => Sys2Proof.Machine.execGrantArrival imm s
  | .curatorRelease imm => Sys2Proof.Machine.execCuratorRelease imm s
  | .writeBack imm => Sys2Proof.Machine.execWriteBack imm s
  | .writeAcknowledgement imm => Sys2Proof.Machine.execWriteAcknowledgement imm s
  | .orderedStoreRelease imm => Sys2Proof.Machine.execOrderedStoreRelease imm s
  | .orderedStoreTimeout imm => Sys2Proof.Machine.execOrderedStoreTimeout imm s
  | .hostWindowRead pkg off len => Sys2Proof.Machine.execHostWindowRead pkg off len s
  | .hostWindowWrite pkg off xs => Sys2Proof.Machine.execHostWindowWrite pkg off xs s
  | .hostOrderedWriteRelease pkg => Sys2Proof.Machine.execHostOrderedWriteRelease pkg s
  | .hostReadCompletion c ok => Sys2Proof.Machine.execHostReadCompletion c ok s
  | .recordWrite pkg off pid host xs => Sys2Proof.Machine.execRecordWrite pkg off pid host xs s
  | .qcreate pkg slot => Sys2Proof.Machine.execQcreate pkg slot s
  | .qdestroy pkg slot => Sys2Proof.Machine.execQdestroy pkg slot s
  | .cset pkg slot => Sys2Proof.Machine.execCset pkg slot s
  | .cancel pkg slot => Sys2Proof.Machine.execCancel pkg slot s
  | .summary pkg slot => Sys2Proof.Machine.execSummary pkg slot s
  | .tstep pkg slot => Sys2Proof.Machine.execTstep pkg slot s
  | .hwin pkg slot => Sys2Proof.Machine.execHwin pkg slot s
  | .mwin pkg slot => Sys2Proof.Machine.execMwin pkg slot s
  | .soep pkg slot => Sys2Proof.Machine.execSoep pkg slot s
  | .setstate pkg slot => Sys2Proof.Machine.execSetstate pkg slot s
  | .packageReset pkg => Sys2Proof.Machine.execPackageReset pkg s
  | .dieReset pkg die => Sys2Proof.Machine.execDieReset pkg die s
  | .gatewayDieReset pkg gw => Sys2Proof.Machine.execGatewayDieReset pkg gw s
  | .dieUnresponsiveTimeout pkg die => Sys2Proof.Machine.execDieUnresponsiveTimeout pkg die s
  | .linkCrcReplay pkg link => Sys2Proof.Machine.execLinkCrcReplay pkg link s
  | .laneRetire pkg link => Sys2Proof.Machine.execLaneRetire pkg link s
  | .pathDown pkg pod path => Sys2Proof.Machine.execPathDown pkg pod path s
  | .thermalThrottle pkg steps => Sys2Proof.Machine.execThermalThrottle pkg steps s
  | .debugResume c => Sys2Proof.Machine.execDebugResume c s
  | .grandmasterLockChange pkg lock => Sys2Proof.Machine.execGrandmasterLockChange pkg lock s
  | .pathLive pkg pod path => Sys2Proof.Machine.execPathLive pkg pod path s
  | .configurationRequest pkg => Sys2Proof.Machine.execConfigurationRequest pkg s
  | .stackBaseDieReset pkg stack => Sys2Proof.Machine.execStackBaseDieReset pkg stack s
  | .haltDebugAccess c what idx wr x => Sys2Proof.Machine.execHaltDebugAccess c what idx wr x s

end Sys2Proof.Machine
end

