-- ==== Sys2Proof/Machine/Cycle.lean ====
section
/-!
DEFINITION. Sys2Proof/Machine/Cycle.lean: one step of a core: what is taken at the boundary, the fetch, decode and
execution of a word, and a gang's stream (R26, R29, R31, R64, R65, R78, R81, R118, R146, R147, R360).
-/

namespace Sys2Proof.Machine

noncomputable section

/-- What follows a next state. -/
def andThen (o : Out) (f : State → State) : Out :=
  match o with
  | .next s => .next (f s)
  | .fault r => .fault r
  | .refused r => .refused r

/-! ## Decode on this core (R64, R65) -/

/-- The majors that a memory core does not have (R64). -/
def tileOnly (mj : Nat) : Bool :=
  decide (0x1F ≤ mj ∧ mj ≤ 0x28) || [0x2A, 0x2B, 0x2C, 0x34, 0x35].contains mj

/-- Is a major illegal on the core at an address (R64)? -/
def excludedHere (c mj : Nat) : Bool :=
  if isMemCore c then tileOnly mj || (!isChannelCore c && mj == 0x38) else mj == 0x38

/-- The instruction that a word names on the core in focus, or none where it is illegal (R65, check 2). -/
def State.decodeHere (s : State) (w : BitVec 32) : Option Instr :=
  if excludedHere s.core.addr.toNat (wordMajor w) then none else decode? w

/-- The core waits no longer once its pc has moved. -/
def State.settleWait (old : LAddr) (t : State) : State := if t.pc = old then t else t.resumed

/-- A word executed by the core in focus: ILLEGAL, or its meaning. -/
def State.runWord (s : State) (w : BitVec 32) : Out :=
  match s.decodeHere w with
  | none => .next (s.trap (Cause.illegal, w.toNat))
  | some i => andThen (exec i s) (State.settleWait s.pc)

/-! ## The leader's stream (R146) -/

/-- A step pushed to every member that is led. -/
def State.tellMembers (s : State) (g : GangStep) : State :=
  s.core.members.foldl (fun t m => t.modCore m.1 fun k =>
    { k with gang := { k.gang with stream := k.gang.stream ++ [g] } }) s

/-- The word at `pc` stands begun while the core waits in it. -/
def State.markBegun (pc : LAddr) (t : State) : State :=
  t.on fun c => { c with gang := { c.gang with begun := if c.wait = .no then none else some pc } }

/-- What the followers of the core in focus execute: the word it has begun, with its next pc and the gang's size; of an
`rfrm` the frame. A word that it had begun before and still waits in is not pushed again; a core that has left its gang
pushes nothing. -/
def State.pushStep (old : State) (w : BitVec 32) (t : State) : State :=
  if old.core.members.isEmpty ∨ t.core.members.isEmpty ∨ t.core.run ≠ .running then t
  else if old.core.gang.begun = some old.pc then t.markBegun old.pc
  else match old.decodeHere w, t.core.frame with
  | some (.rfrm n a b), some f => t.tellMembers (.frame n a b (old.g a) (old.g b) f.words)
  | _, _ => (t.tellMembers (.word w (if t.core.wait = .no then t.pc else old.pc + 4)
      (old.core.members.length + 1))).markBegun old.pc

/-- Does a follower lag by more than 2 clk: has it more than two steps to execute? -/
def State.membersLag (s : State) : Bool :=
  s.core.members.any fun m => decide (2 < (s.getCore m.1).gang.stream.length)

/-! ## A follower's step (R81, R146, R147) -/

/-- The head of the stream executed. -/
def State.popStep (s : State) : State :=
  s.on fun c => { c with gang := { c.gang with stream := c.gang.stream.drop 1, begun := none } }

/-- After the word at `pc` of the stream: it stands while the follower waits in it; a follower whose next pc differs from
the leader's leaves. -/
def State.afterWord (pc nextPc : LAddr) (t : State) : State :=
  if t.core.gang.role = .alone then t
  else if t.core.wait ≠ .no then t.markBegun pc
  else if t.pc ≠ nextPc then t.popStep.leaveGang
  else t.popStep

/-- A word of the stream: one that the follower had begun, and whose end has moved its pc, is over; any other is executed, in
a gang of the size that the leader saw. -/
def State.followWord (s : State) (w : BitVec 32) (npc : LAddr) (size : Nat) : Out :=
  if s.core.gang.begun.any (· ≠ s.pc) then .next (s.afterWord s.pc npc)
  else
    let t := s.on fun c => { c with gang := { c.gang with size := size } }
    match t.localCheck t.pc.toNat 4 .fetch with
    | some x => .next (t.trap x)
    | none => andThen (t.runWord w) (State.afterWord t.pc npc)

/-- A follower's step: the head of its stream, with the fetch checks on its own state. After a `split` it goes on behind
it (R191). -/
def State.followStep (s : State) : Out :=
  let alone := fun (t : State) => t.on fun c => { c with gang := c.gang.alone }
  match s.core.gang.stream with
  | [] => .next s
  | .leave :: _ => .next (alone s)
  | .split :: _ => .next (alone s).adv
  | .word w npc size :: _ => s.followWord w npc size
  | .frame n a b x y ws :: _ =>
    match s.localCheck s.pc.toNat 4 .fetch with
    | some t => .next (s.trap t)
    | none => andThen (s.followFrame n a b x y ws) fun t => if t.core.gang.role = .alone then t else t.popStep

/-! ## The boundary (R29, R31, R360) -/

/-- How the launch of the core in focus stops its threads, if it stops (R360). -/
def State.launchStops (s : State) : Option RunState :=
  let pkg := pkgOf s.core.addr.toNat
  match (s.getPkg pkg).launch s.core.info.num with
  | some l => if s.stopping pkg l then some l.stopsAs else none
  | none => none

/-- The pending event that the core in focus takes at this boundary, in the order of R360. -/
def State.atBoundary (s : State) : Option Out :=
  let c := s.core
  if c.dueFault.isSome then some (execLateFaultTaken c.addr.toNat s)
  else if c.dueCause.isSome then some (execReleaseCauseTaken c.addr.toNat s)
  else if c.duePreempt.isSome then some (execPreempt c.addr.toNat s)
  else none

/-- The yield has been seen. -/
def State.pastYield (s : State) : State := if s.core.yielded then s.on fun c => { c with yielded := false } else s

/-! ## One step of a core -/

/-- The word at the pc fetched, decoded and executed (R26, R65). -/
def State.fetchStep (s : State) : Out :=
  match s.fetchCheck s.pc.toNat with
  | some t => .next (s.trap t)
  | none =>
    let (w, t) := s.fetchWord s.pc.toNat
    andThen (t.runWord w) (State.pushStep t w)

/-- An instruction of the core in focus: its own fetch, or its leader's stream. A leader waits for members that lag. -/
def State.instrStep (s : State) : Out :=
  match s.core.gang.role with
  | .follower _ _ => s.followStep
  | _ => if s.membersLag then .next s else s.fetchStep

/-- The boundary of the core in focus: the end of its launch, a rollback, a pending event, or an instruction. -/
def State.boundaryStep (s : State) : Out :=
  match s.launchStops with
  | some how => .next (s.stopThread how)
  | none =>
    if s.core.rollsBack then .next s
    else match s.atBoundary with
    | some o => o
    | none => s.pastYield.instrStep

/-- One step of the core in focus: a running frame, a load in progress, the boundary. A core that does not run does
nothing. What a commit has left waiting goes on meanwhile (R375). -/
def State.coreStep (s : State) : Out :=
  let t := if s.core.team.committed.isEmpty then s else s.drainAll
  if t.core.run ≠ .running then .next t
  else if t.core.frame.isSome then execFrameReplay t
  else if t.core.outst.isSome then execLoadDataReturn t.core.addr.toNat t
  else t.boundaryStep

end

end Sys2Proof.Machine
end

