-- ==== Sys2Proof/Machine/Progress.lean ====
section
/-!
DEFINITION. Sys2Proof/Machine/Progress.lean: what moves when the schedule names nothing: after the step of the core in
focus the first event that is enabled comes about, one clk passes, and the focus goes round the cores that run. This is
one order of the many that a schedule can name (DESIGN CHOICE, notes/assumptions/6.md).
-/

namespace Sys2Proof.Machine

/-! ## Events that may be enabled -/

/-- What an operation in progress may do next. -/
def opEvents (k : Nat) (o : Op) : List (State → Out) :=
  let q := o.seq.toNat
  match o.body with
  | .copy _ => [execCopyStart k q, execCopyComplete k q, execCopyFault k q]
  | .range .. => [execStationRangeRequest k]
  | .guard .. => [execGuardOperationStart k q]
  | .mma .. => [execTileStepComplete k 0, execStreamedStepReplay k]
  | .evdrain _ => [execEventOperationPerform k, execEvdrainComplete k]
  | .mzero _ | .mlda .. | .msta .. | .mfmt .. | .mcbld .. => [execMatrixOperationPerform k]
  | _ => [execEventOperationPerform k]

/-- The beats that a core's open phase may take, send or miss, and the end of the phase. -/
def phaseEvents (c : Nat) (p : Phase) : List (State → Out) :=
  [execExchangeBeatSend c] ++
    p.armed.flatMap (fun (r : ArmedRecv) => (List.range r.beats).map fun k => execExchangeBeatReceive c r.slot k) ++
    [execPhaseClose c]

/-- The events of a core that come about at one clk and no other: those of its open phase, the releases of barriers at
which it has arrived, and the end of a receive's wait (R151, R154, R180, R412). -/
def Core.timedEvents (k : Nat) (c : Core) : List (State → Out) :=
  (match c.sync.phase with
    | some p => phaseEvents k p
    | none => []) ++
  ((List.range 16).filter (fun n => (c.arrivalOn n).isSome)).map (execBarrierRelease k) ++
  match c.wait with
  | .recv _ _ => [execRxWatchdog k]
  | _ => []

/-- The other events of one context: `k` names it, by its core's address or as a saved thread. -/
def Core.events (k : Nat) (c : Core) : List (State → Out) :=
  (if c.rtab.miss.isSome then [execStationLookup k] else []) ++
  (match c.outst with
    | some o => if o.answered then [] else [execHostReadCompletion k true]
    | none => []) ++
  (if c.msgs.iface.isEmpty && (c.alive || c.msgs.held.isEmpty) then [] else [execMessageEntersChannel k]) ++
  (if c.team.rollback then [execRollback k] else []) ++
  c.ops.flatMap (opEvents k) ++
  (if c.calls.isEmpty && (c.info.call.isNone || !c.endedBadly) then [] else [execLoaderCallStart k]) ++
  match c.wait with
  | .time _ => [execWaittExpiry k]
  | _ => []

/-- The events of guard message `i`. -/
def guardEvents (i : Nat) : List (State → Out) :=
  [execCuratorRequest i, execSupplierForward i, execGrantArrival i, execCuratorRelease i, execWriteBack i]

/-- The events of a range operation at its coordinator. -/
def RangeOp.events (r : RangeOp) : List (State → Out) :=
  let pid := r.pid.toNat
  ((List.range 64).filter fun k => !r.asked.contains k).map (execRangeNotice r.pkg pid) ++
    r.owed.map (fun x => execHolderAcknowledge x.2) ++
    [execCoordinatorApply r.pkg pid, execConservatorCopy r.pkg pid, execRetarget r.pkg pid]

/-- The command that a busy slot holds. -/
def CmdSlot.events (pkg slot : Nat) (c : CmdSlot) : List (State → Out) :=
  if !c.busy then []
  else match recField c.taken 0 8 with
  | 2 => [execQdestroy pkg slot]
  | 3 => [execCset pkg slot]
  | 4 => [execCancel pkg slot]
  | 5 => [execSummary pkg slot]
  | 6 => [execTstep pkg slot]
  | 7 => [execHwin pkg slot]
  | 8 => [execMwin pkg slot]
  | 9 => [execSoep pkg slot]
  | 10 => [execSetstate pkg slot]
  | _ => [execQcreate pkg slot]

/-- The events of a launch. -/
def Launch.events (pkg : Nat) (l : Launch) : List (State → Out) :=
  (List.range l.ngroups).map (execLaunchStart pkg l.num) ++
    [execLaunchEnd pkg l.num, execContextSave pkg l.num, execResume pkg l.num, execPreemptRequest pkg l.num]

/-- The events of a package. -/
def Package.events (pkg : Nat) (p : Package) : List (State → Out) :=
  (p.slots.toList.zipIdx.flatMap fun x => x.1.events pkg x.2) ++ p.launches.flatMap (Launch.events pkg) ++
    (p.queues.filter fun (q : LQueue) => !q.records.isEmpty).map fun q => execLaunchAdmission pkg q.num

/-- The clusters in whose matrix unit a core of the list has a step pending. -/
def mmaUnits (l : List Core) : List Nat :=
  ((l.filter fun (c : Core) => c.ops.any fun (o : Op) => o.body.isMatrix).map fun (c : Core) => unitOf c.addr.toNat).eraseDups

/-- The contexts at which something is bound to a clk: of the cores, and of the ended threads of running launches. -/
def State.timedCores (s : State) : List Core := (s.core :: s.others.map (·.2)) ++ s.ended.map (·.2)

/-- The events that are bound to a clk or to a time of the domain clock. -/
def State.timedEvents (s : State) : List (State → Out) :=
  (s.timedCores.flatMap fun (c : Core) => c.timedEvents c.addr.toNat) ++
    s.triggers.map (fun x => execTriggerFire x.1)

/-- Every event that may be enabled, in the order in which it is tried. -/
def State.candidates (s : State) : List (State → Out) :=
  let cs := s.core :: s.others.map (·.2)
  s.timedEvents ++ (cs.flatMap fun (c : Core) => c.events c.addr.toNat) ++
    (s.saved.flatMap fun x => x.2.events x.1) ++
    (mmaUnits cs).map execTileStepStart ++
    (s.follows.map fun x => execFollowRequestTaken x.2 x.1) ++
    (List.range s.mesh.length).map execMessageArrival ++
    s.posts.map (fun (p : Post) => execMailboxPost p.target) ++
    (List.range s.gmsgs.length).flatMap guardEvents ++
    s.rops.flatMap RangeOp.events ++
    (List.range s.posted.length).map execWriteAcknowledgement ++
    (List.range s.ordered.length).map execOrderedStoreRelease ++
    (List.range s.ordered.length).map execOrderedStoreTimeout ++
    s.hostWrites.map (fun (w : HostWrite) => execHostOrderedWriteRelease w.pkg) ++
    (List.range s.evnet.length).map execEventArrival ++
    s.engines.map (fun x => execEventDelivery x.1) ++
    s.pkgs.flatMap fun x => x.2.events x.1

/-- What an event makes of the state, if it changes something besides the counter of free values. -/
def State.changedBy (s : State) (f : State → Out) : Option State :=
  match f s with
  | .next t => if { t with tick := s.tick } = s then none else some t
  | _ => none

/-- The first event of a list that changes something. -/
def State.firstEvent (s : State) (l : List (State → Out)) : State := (l.findSome? s.changedBy).getD s

/-- One event that is enabled comes about, if there is one. -/
def State.progress (s : State) : State := s.firstEvent s.candidates

/-! ## Time and turns -/

/-- Is an event of this clk, or of a time that the clock has reached, still to come? No time passes before it has. -/
def State.timeHolds (s : State) : Bool := s.timedEvents.any fun f => (s.changedBy f).isSome

/-- The clk at which something is bound to happen at a core. -/
def State.coreDeadlines (s : State) (c : Core) : List Nat :=
  (match c.sync.phase with
    | some p =>
      (match p.sending with
        | some y => [p.t0 + y.slot + y.next]
        | none => []) ++
      p.armed.flatMap (fun (r : ArmedRecv) => (List.range r.beats).map fun k => p.t0 + r.slot + k) ++ [p.t0 + p.length]
    | none => []) ++
  (match c.wait with
    | .recv n since => if c.channel n = [] then [since + c.ctl.rxwatch.toNat] else []
    | _ => []) ++
  ((List.range 16).filter (fun n => (c.arrivalOn n).isSome)).filterMap fun n => (s.releaseInstant c n).map (·.2)

/-- How much time passes when `n` units may: no more than up to the next of some instants. -/
def upTo (now n : Nat) (l : List Nat) : Nat := (l.filter (now < ·)).foldl (fun m d => min m (d - now)) n

/-- The times at which triggers of this domain act, as ns from now on. -/
def State.triggerWaits (s : State) : List Nat :=
  s.triggers.flatMap fun x => x.2.map fun (t : Trigger) => t.value.toNat - (s.domainClock (triggerPkg x.1)).toNat

/-- At most `clk` clks and `ns` nanoseconds pass: no time while something holds it, and none beyond the next instant at which
something is bound to happen. A clock that wraps makes a step (R327). -/
def State.passTime (s : State) (clk ns : Nat) : State :=
  if s.timeHolds then s
  else
    let dc := upTo s.clk clk (s.timedCores.flatMap s.coreDeadlines)
    let dn := upTo 0 ns s.triggerWaits
    ({ s with clk := s.clk + dc, ns := s.ns + dn } : State).wrapClocks s

/-- One clk passes: 0.4 ns (R4, notes/assumptions/7.md). -/
def State.tickClock (s : State) : State := s.passTime 1 (2 * (s.clk + 1) / 5 - 2 * s.clk / 5)

/-- The running core that follows in the order of addresses. -/
def State.nextCore (s : State) : Nat :=
  let here := s.core.addr.toNat
  let up := (s.others.filter fun x => decide (x.2.run = .running)).map (·.1)
  let above := up.filter (here < ·)
  let l := if above.isEmpty then up else above
  l.foldl min (l.headD here)

/-- The focus moves on. -/
def State.rotate (s : State) : State := s.focus s.nextCore

/-- What follows the step of the core in focus when the schedule names nothing. -/
def State.goOn (s : State) : State := s.progress.tickClock.rotate

/-! ## Turns of a schedule, and a word placed for the next step -/

noncomputable section

/-- A read of a copy beyond the package's memory that has not ended fails, from an offset of its source on (R400, R415). -/
def Op.failRead (o : Op) (seq off reason : Nat) : Op :=
  match o.body with
  | .copy r =>
    if o.seq.toNat = seq ∧ !r.moved ∧ r.bad.isNone ∧ 1 ≤ reason ∧ reason ≤ 3 then
      { o with body := .copy { r with bad := some (off, BitVec.ofNat 4 reason) } }
    else o
  | _ => o

/-- A read of a scale-out endpoint in progress ends with an endpoint error or finds the endpoint unreachable (R415). -/
def Outstanding.failRead (o : Outstanding) (reason : Nat) : Outstanding :=
  if o.so ∧ o.reason.isNone ∧ (reason = 1 ∨ reason = 3) then { o with reason := some (BitVec.ofNat 4 reason) } else o

/-- The tile cores that stand in a resource of a package. -/
def Package.coresIn (p : Package) (pkg : Nat) : Resource → List Nat
  | .core d r c => (dieTiles pkg d).filter fun a => p.physCore d (rowOf a) (colOf a) == (r, c)
  | .die d => dieTiles pkg d
  | _ => []

/-- The event engines that stand in a resource of a package. -/
def Package.enginesIn (p : Package) (pkg : Nat) : Resource → List Nat
  | .engine d n => (dieUnits pkg d).filter fun u => p.physCluster d (u % 32) == n
  | .die d => dieUnits pkg d
  | _ => []

/-- Errors in all that a core holds beside its store; its messages and records are discarded and counted (R379). -/
def Core.failed (c : Core) : Core :=
  let n := c.msgs.queue.length + c.mail.length
  { c with
    ringBad := BitVec.allOnes 64, accBad := BitVec.allOnes 8
    mtx := { c.mtx with port := c.mtx.port.map fun (x : PortSeg) => { x with bad := true } }
    team := { c.team with snapBad := c.ctl.status.ckpt || c.team.snapBad }
    msgs := { c.msgs with queue := [] }, mail := []
    faults := { c.faults with lsue := satAdd c.faults.lsue n } }

/-- A resource fails (R393): what it holds shows errors from now on, its bytes until the repair (`State.brokenByte`), and an
engine's queue is discarded and counted. -/
def State.failure (s : State) (pkg : Nat) (r : Resource) : State :=
  let p := s.getPkg pkg
  let t := ((p.coresIn pkg r).filter s.coreExists).foldl (fun t c => t.modCore c Core.failed) s
  let u := (p.enginesIn pkg r).foldl (fun t e =>
    (t.modEngine e fun x => { x with queue := [], bankue := satAdd x.bankue x.queue.length }).drainEvents e) t
  u.modPkg pkg (·.fail r)

/-- An error of storage arises (R379, R380): one in bytes, in an accumulator or its shadow, in a ring slot, in the stream port
or in a snapshot shows when they are read; a message, a record or an event that it hits is discarded and counted. A read
beyond the domain fails, or a resource does (R393). -/
def State.upset (s : State) (u : Upset) : State :=
  let lost := fun (c : Core) => { c with faults := { c.faults with lsue := satInc c.faults.lsue } }
  let core := fun (c : Nat) (f : Core → Core) => if s.coreExists c then s.modCore c f else s
  match u with
  | .bytes key len => { s with poison := s.poison ++ [{ lo := key, len := len }] }
  | .acc c n => core c fun k => { k with accBad := k.accBad ||| BitVec.twoPow 8 (n % 4) }
  | .shadow c n => core c fun k => { k with accBad := k.accBad ||| BitVec.twoPow 8 (4 + n % 4) }
  | .ring c slot => core c fun k => { k with ringBad := k.ringBad ||| BitVec.twoPow 64 (slot % 64) }
  | .port c => core c fun k => match k.mtx.port with
      | [] => k
      | x :: r => { k with mtx := { k.mtx with port := { x with bad := true } :: r } }
  | .snapshot c => core c fun k => { k with team := { k.team with snapBad := k.ctl.status.ckpt || k.team.snapBad } }
  | .message c => core c fun k =>
      if k.msgs.queue.isEmpty then k else lost { k with msgs := { k.msgs with queue := k.msgs.queue.drop 1 } }
  | .record c => core c fun k => if k.mail.isEmpty then k else lost { k with mail := k.mail.drop 1 }
  | .event eng i =>
      if i < (s.engine eng).queue.length then
        (s.modEngine eng fun e => { e with queue := e.queue.eraseIdx i, bankue := satInc e.bankue }).drainEvents eng
      else s
  | .corrected c => core c fun k => { k with faults := { k.faults with lsce := satInc k.faults.lsce } }
  | .symbol pkg stack =>
      if stack < 16 then s.modPkg pkg fun p => { p with symce := countAt p.symce stack } else s
  | .load c reason => core c fun k => { k with outst := k.outst.map (·.failRead reason) }
  | .copy c seq off reason => core c fun k => { k with ops := k.ops.map (·.failRead seq off reason) }
  | .failure pkg r => s.failure pkg r

/-- The turn that the schedule names, with the rest of it left. -/
def State.turn (s : State) (t : Turn) (r : List Turn) : Out :=
  let u : State := { s with sched := r }
  match t with
  | .core c => if s.coreExists c then (u.focus c).coreStep else .fault .noSuchAgent
  | .event i => exec i u
  | .pass clk ns => .next (u.passTime clk ns)
  | .upset x => .next (u.upset x)

/-- The core in focus made ready to fetch: it runs alone, with nothing begun and nothing pending that goes first. -/
def Core.ready (c : Core) : Core :=
  { c with
    run := .running, image := false, frame := none, outst := none, fbuf := none, wait := .no, preempt := none
    yielded := false, gang := Gang.reset, info := { c.info with num := 0 }
    sync := { c.sync with relCause := [], phase := none }, rtab := { c.rtab with miss := none, notFound := false }
    team := { c.team with rollback := false }
    ring := c.ring.map fun (e : RingEntry) => { e with untaken := false } }

/-- A word of `nbits` bits laid at the pc of the core in focus, its bytes little-endian (R59). A word of major 0x38, which
only a memory core has (R64), is laid at memory core 0 of stack 0. -/
def State.placed (s : State) (nbits w : Nat) : State :=
  let x := w % 2 ^ nbits
  let t := if x / 2 ^ 26 % 64 = 0x38 ∧ !isMemCore s.core.addr.toNat then s.focus (2 ^ 22) else s
  let u := t.on Core.ready
  let k := u.core.localKey u.pc.toNat
  { u with sched := [], mem := u.mem.writeBytes k (natLe 4 x),
           poison := u.poison.filter fun (p : Span) => !overlap p.lo p.len k 4 }

end

end Sys2Proof.Machine
end

