-- ==== Sys2Proof/Machine/Step.lean ====
section
/-!
DEFINITION. Sys2Proof/Machine/Step.lean: one step of the part, and the state in which a given word is fetched next.
-/

namespace Sys2Proof.Machine

noncomputable section

/-- One step: what the schedule names, or with nothing named a step of the core in focus and what follows it
(notes/assumptions/6.md). -/
def step (s : State) : Host.Outcome State Fault Refusal :=
  match s.sched with
  | [] => andThen s.coreStep State.goOn
  | t :: r => s.turn t r

/-- `s` with a word stored where `step` fetches next (notes/assumptions/5.md). -/
def State.withFetchWord (s : State) (nbits w : Nat) : State := s.placed nbits w

end

end Sys2Proof.Machine
end

