-- ==== Sys2Proof/Safety.lean ====
section
/-!
DEFINITION. Sys2Proof/Safety.lean: what a safe run is: one that never stops, and the invariant that statements about
steps lean on.
-/

namespace Sys2Proof.Machine

/-- An outcome that goes on. -/
def goesOn (o : Out) : Prop := ∃ t, o = .next t

/-- A turn of a schedule that the domain can take: one that names a core names a core that exists (R143, R383). -/
def State.canTake (s : State) : Turn → Bool
  | .core c => s.coreExists c
  | _ => true

/-- The step about to be taken is one that the domain can take. -/
def State.mayStep (s : State) : Bool :=
  match s.sched with
  | [] => true
  | t :: _ => s.canTake t

/-- A safe run of `n` steps: none of them stops. -/
def State.safeFor : Nat → State → Prop
  | 0, _ => True
  | n + 1, s => ∃ t, step s = .next t ∧ State.safeFor n t

/-- The invariant of every step: memory is in its canonical form. -/
def State.memOk (s : State) : Prop := s.mem.wf = true

end Sys2Proof.Machine
end

