-- ==== Sys2Proof/Certificates/Slice0/Obligations.lean ====
section
/-!
DEFINITION. Sys2Proof/Certificates/Slice0/Obligations.lean: the statements for the provers, from the numbered rules of
spec/. A statement that names the next state whole (t = …) says with it that everything it does not name is unchanged;
the shapes below say it for the states they describe.
-/

namespace Sys2Proof.Claims

open Sys2Proof Sys2Proof.Machine

/-! ## What a step may change -/

/-- The state in which the core in focus has other registers. -/
def withRegs (s : State) (r : Regs) : State := { s with core := { s.core with regs := r } }

/-- The state in which the core in focus has other control registers. -/
def withCtl (s : State) (k : Ctl) : State := { s with core := { s.core with ctl := k } }

/-- From `s` to `t` only `g[d]` may differ, and the pc goes to the next instruction. -/
def onlyG (d : BitVec 5) (s t : State) : Prop :=
  t = withRegs s { s.core.regs with g := t.core.regs.g, pc := s.pc + 4 } ∧ ∀ r, r ≠ d → t.g r = s.g r

/-- From `s` to `t` only `v[d]` may differ, and the pc goes to the next instruction. -/
def onlyV (d : BitVec 5) (s t : State) : Prop :=
  t = withRegs s { s.core.regs with v := t.core.regs.v, pc := s.pc + 4 } ∧ ∀ r, r ≠ d → t.v r = s.v r

/-- From `s` to `t` only the v registers of a list may differ, beside FSTAT and SRSEED, and the pc goes to the next
instruction. -/
def onlyVRounded (l : List (BitVec 5)) (s t : State) : Prop :=
  t = withCtl (withRegs s { s.core.regs with v := t.core.regs.v, pc := s.pc + 4 })
    { s.core.ctl with fstat := t.core.ctl.fstat, srseed := t.core.ctl.srseed } ∧ ∀ r, r ∉ l → t.v r = s.v r

/-- From `s` to `t` only `m[d]` and FSTAT may differ, and the pc goes to the next instruction. -/
def onlyM (d : BitVec 3) (s t : State) : Prop :=
  t = withCtl (withRegs s { s.core.regs with m := t.core.regs.m, pc := s.pc + 4 })
    { s.core.ctl with fstat := t.core.ctl.fstat } ∧ ∀ r, r ≠ d → t.m r = s.m r

/-- From every state that meets `h` the instruction completes, and writes to `g[d]` a value with a property, which `g0`
discards (R9); nothing else changes but the pc. -/
def writesG (i : Instr) (d : BitVec 5) (h : State → Prop) (p : State → Word → Prop) : Prop :=
  ∀ s, h s → ∃ t x, exec i s = .next t ∧ onlyG d s t ∧ p s x ∧ t.g d = if d = 0 then 0 else x

/-- From every state the instruction completes, and writes a value to `g[d]`. -/
def gives (i : Instr) (d : BitVec 5) (x : State → Word) : Prop := writesG i d (fun _ => True) fun s y => y = x s

/-- A register as an unsigned number. -/
def un (s : State) (a : BitVec 5) : Nat := (s.g a).toNat

/-- A register as a signed number. -/
def si (s : State) (a : BitVec 5) : Int := (s.g a).toInt

/-- The low 32 bits of a register as a signed number. -/
def si32 (s : State) (a : BitVec 5) : Int := (BitVec.ofNat 32 (un s a)).toInt

/-- The low 32 bits of a register as an unsigned number. -/
def un32 (s : State) (a : BitVec 5) : Nat := un s a % 2 ^ 32

/-- `Wrap(x, 64)`. -/
def word (x : Int) : Word := BitVec.ofInt 64 x

/-- `Wrap(SignExtend(Wrap(x, 32), 32), 64)`. -/
def word32 (x : Int) : Word := word (BitVec.ofInt 32 x).toInt

/-- 1 if the test holds, else 0. -/
def flag (b : Prop) [Decidable b] : Word := if b then 1 else 0

end Sys2Proof.Claims

open Sys2Proof Sys2Proof.Machine Sys2Proof.Claims

/-! ## Registers (R9) -/

/-- R9: `g0` reads as zero, `m0` reads as all ones, both discard writes, and a write to another register changes it
alone. -/
def Obligations.RegistersOfR9 : Prop :=
  ∀ s : State, s.g 0 = 0 ∧ s.m 0 = BitVec.allOnes 64 ∧
    (∀ (d r : BitVec 5) (x : Word), (s.setG d x).g r = if r = d ∧ d ≠ 0 then x else s.g r) ∧
    (∀ (d r : BitVec 5) (x : VReg), (s.setV d x).v r = if r = d then x else s.v r) ∧
    (∀ (d r : BitVec 3) (x : Word), (s.setM d x).m r = if r = d ∧ d ≠ 0 then x else s.m r) ∧
    (∀ x : Word, s.setG 0 x = s) ∧ (∀ x : Word, s.setM 0 x = s)

/-! ## Integer instructions (R94 to R100) -/

/-- R94: what the INT forms write. -/
def Obligations.IntegerResults : Prop :=
  ∀ d a b : BitVec 5,
    gives (.add d a b) d (fun s => word (un s a + un s b)) ∧
    gives (.sub d a b) d (fun s => word (un s a - un s b)) ∧
    gives (.and d a b) d (fun s => s.g a &&& s.g b) ∧
    gives (.or d a b) d (fun s => s.g a ||| s.g b) ∧
    gives (.xor d a b) d (fun s => s.g a ^^^ s.g b) ∧
    gives (.andn d a b) d (fun s => s.g a &&& ~~~s.g b) ∧
    gives (.orn d a b) d (fun s => s.g a ||| ~~~s.g b) ∧
    gives (.xnor d a b) d (fun s => ~~~(s.g a ^^^ s.g b)) ∧
    gives (.sll d a b) d (fun s => word (un s a * 2 ^ (un s b % 64) : Nat)) ∧
    gives (.srl d a b) d (fun s => word (un s a / 2 ^ (un s b % 64) : Nat)) ∧
    gives (.sra d a b) d (fun s => word (si s a / 2 ^ (un s b % 64))) ∧
    gives (.rol d a b) d (fun s => word (un s a * 2 ^ (un s b % 64) + un s a / 2 ^ (64 - un s b % 64) : Nat)) ∧
    gives (.ror d a b) d (fun s => word (un s a / 2 ^ (un s b % 64) + un s a * 2 ^ (64 - un s b % 64) : Nat)) ∧
    gives (.slt d a b) d (fun s => flag (si s a < si s b)) ∧
    gives (.sltz d a b) d (fun s => flag (un s a < un s b)) ∧
    gives (.min d a b) d (fun s => word (min (si s a) (si s b))) ∧
    gives (.max d a b) d (fun s => word (max (si s a) (si s b))) ∧
    gives (.minz d a b) d (fun s => word (min (un s a) (un s b) : Nat)) ∧
    gives (.maxz d a b) d (fun s => word (max (un s a) (un s b) : Nat)) ∧
    gives (.addW d a b) d (fun s => word32 (un s a + un s b)) ∧
    gives (.subW d a b) d (fun s => word32 (un s a - un s b)) ∧
    gives (.sllW d a b) d (fun s => word32 (un s a * 2 ^ (un s b % 32) : Nat)) ∧
    gives (.srlW d a b) d (fun s => word32 (un32 s a / 2 ^ (un s b % 32) : Nat)) ∧
    gives (.sraW d a b) d (fun s => word (si32 s a / 2 ^ (un s b % 32))) ∧
    gives (.addSat d a b) d (fun s => word (max (-2 ^ 63) (min (2 ^ 63 - 1) (si s a + si s b)))) ∧
    gives (.subSat d a b) d (fun s => word (max (-2 ^ 63) (min (2 ^ 63 - 1) (si s a - si s b)))) ∧
    gives (.seq d a b) d (fun s => flag (un s a = un s b)) ∧
    gives (.sne d a b) d (fun s => flag (un s a ≠ un s b))

/-- R95: what the immediate majors write; `limh` adds imm16 × 2^16 with its sign from bit 31. -/
def Sys2Proof.Claims.ImmediateResults : Prop :=
  ∀ (d a : BitVec 5) (i : BitVec 16),
    gives (.addi d a i) d (fun s => word (un s a + i.toInt)) ∧
    gives (.andi d a i) d (fun s => s.g a &&& BitVec.ofNat 64 i.toNat) ∧
    gives (.ori d a i) d (fun s => s.g a ||| BitVec.ofNat 64 i.toNat) ∧
    gives (.xori d a i) d (fun s => s.g a ^^^ BitVec.ofNat 64 i.toNat) ∧
    gives (.limh d a i) d (fun s => word (un s a + (BitVec.ofNat 32 (i.toNat * 2 ^ 16)).toInt)) ∧
    gives (.slti d a i) d (fun s => flag (si s a < i.toInt)) ∧
    gives (.sltiz d a i) d (fun s => flag (un s a < (word i.toInt).toNat))

/-- R96: a shift by an immediate amount; in a `.w` kind the amount is below 32 in every legal word. -/
def Sys2Proof.Claims.ShiftImmediateResults : Prop :=
  ∀ (d a : BitVec 5) (n : BitVec 6),
    gives (.slli d a n) d (fun s => word (un s a * 2 ^ n.toNat : Nat)) ∧
    gives (.srli d a n) d (fun s => word (un s a / 2 ^ n.toNat : Nat)) ∧
    gives (.srai d a n) d (fun s => word (si s a / 2 ^ n.toNat)) ∧
    gives (.rori d a n) d (fun s => word (un s a / 2 ^ n.toNat + un s a * 2 ^ (64 - n.toNat) : Nat)) ∧
    (n.toNat < 32 →
      gives (.slliW d a n) d (fun s => word32 (un s a * 2 ^ n.toNat : Nat)) ∧
      gives (.srliW d a n) d (fun s => word32 (un32 s a / 2 ^ n.toNat : Nat)) ∧
      gives (.sraiW d a n) d (fun s => word (si32 s a / 2 ^ n.toNat)))

/-- R97: what MULDIV writes, with its values for a zero divisor and for an overflowing quotient. -/
def Sys2Proof.Claims.MultiplyDivideResults : Prop :=
  ∀ d a b : BitVec 5,
    gives (.mul d a b) d (fun s => word (un s a * un s b : Nat)) ∧
    gives (.mulh d a b) d (fun s => word (si s a * si s b / 2 ^ 64)) ∧
    gives (.mulhz d a b) d (fun s => word (un s a * un s b / 2 ^ 64 : Nat)) ∧
    gives (.mulhsz d a b) d (fun s => word (si s a * un s b / 2 ^ 64)) ∧
    gives (.div d a b) d (fun s => if un s b = 0 then BitVec.allOnes 64 else word ((si s a).tdiv (si s b))) ∧
    gives (.divz d a b) d (fun s => if un s b = 0 then BitVec.allOnes 64 else word (un s a / un s b : Nat)) ∧
    gives (.rem d a b) d (fun s =>
      if un s b = 0 then s.g a else word (si s a - si s b * (si s a).tdiv (si s b))) ∧
    gives (.remz d a b) d (fun s => if un s b = 0 then s.g a else word (un s a % un s b : Nat)) ∧
    gives (.mulW d a b) d (fun s => word32 (un s a * un s b : Nat)) ∧
    gives (.divW d a b) d (fun s =>
      if un32 s b = 0 then BitVec.allOnes 64 else word32 ((si32 s a).tdiv (si32 s b))) ∧
    gives (.divzW d a b) d (fun s => if un32 s b = 0 then BitVec.allOnes 64 else word32 (un32 s a / un32 s b : Nat)) ∧
    gives (.remW d a b) d (fun s =>
      if un32 s b = 0 then word (si32 s a) else word (si32 s a - si32 s b * (si32 s a).tdiv (si32 s b))) ∧
    gives (.remzW d a b) d (fun s =>
      if un32 s b = 0 then word (si32 s a) else word32 (un32 s a % un32 s b : Nat))

/-- R98, R99: the bit-field forms, with `l` = len − 1 and pos + len at most 64, and the counts and reversals. -/
def Sys2Proof.Claims.BitFieldResults : Prop :=
  ∀ (d a : BitVec 5) (p l : BitVec 6),
    (p.toNat + l.toNat < 64 →
      gives (.ext d a p l) d (fun s => word (BitVec.ofNat (l.toNat + 1) (un s a / 2 ^ p.toNat)).toInt) ∧
      gives (.extz d a p l) d (fun s => word (un s a / 2 ^ p.toNat % 2 ^ (l.toNat + 1) : Nat)) ∧
      writesG (.ins d a p l) d (fun _ => True) (fun s x => ∀ k, k < 64 → x.getLsbD k =
        if p.toNat ≤ k ∧ k ≤ p.toNat + l.toNat then (s.g a).getLsbD (k - p.toNat) else (s.g d).getLsbD k)) ∧
    gives (.clz d a) d (fun s => if un s a = 0 then 64 else word (63 - Nat.log2 (un s a) : Nat)) ∧
    writesG (.ctz d a) d (fun _ => True) (fun s x => x.toNat ≤ 64 ∧ (∀ k, k < x.toNat → (s.g a).getLsbD k = false) ∧
      (x.toNat = 64 ∨ (s.g a).getLsbD x.toNat = true)) ∧
    gives (.popc d a) d (fun s => word ((List.range 64).countP ((s.g a).getLsbD ·) : Nat)) ∧
    writesG (.rev8 d a) d (fun _ => True) (fun s x => ∀ k, k < 64 →
      x.getLsbD k = (s.g a).getLsbD (8 * (7 - k / 8) + k % 8)) ∧
    writesG (.revb d a) d (fun _ => True) (fun s x => ∀ k, k < 64 → x.getLsbD k = (s.g a).getLsbD (63 - k))

/-- R97 to R99: multiplication, division and bit fields. -/
def Obligations.MultiplyDivideAndBitFields : Prop :=
  Claims.MultiplyDivideResults ∧ Claims.BitFieldResults

/-- R100: the ADDR forms, `chkb` and `chkr` where they do not trap and where they do. -/
def Sys2Proof.Claims.AddressForms : Prop :=
  (∀ (d a b : BitVec 5) (n : BitVec 6),
    gives (.adda d a b n) d (fun s => word (un s a + un s b * 2 ^ n.toNat : Nat)) ∧
    gives (.suba d a b n) d (fun s => word (un s a - (un s b * 2 ^ n.toNat : Nat))) ∧
    gives (.aligna d a n) d (fun s => word ((un s a + (2 ^ n.toNat - 1)) / 2 ^ n.toNat * 2 ^ n.toNat : Nat))) ∧
  ∀ (d a b : BitVec 5) (s : State),
    (un s a < un s b → exec (.chkb a b) s = .next s.adv) ∧
    (un s b ≤ un s a → exec (.chkb a b) s = .next (s.trap (Cause.bounds, un s a))) ∧
    (un s a ≤ un s d → un s d < un s b → exec (.chkr d a b) s = .next s.adv) ∧
    (un s d < un s a ∨ un s b ≤ un s d → exec (.chkr d a b) s = .next (s.trap (Cause.bounds, un s d)))

/-- R95, R96, R100: the immediate forms, the shifts by an immediate and the address forms. -/
def Obligations.ImmediateAndAddressResults : Prop :=
  Claims.ImmediateResults ∧ Claims.ShiftImmediateResults ∧ Claims.AddressForms

/-! ## The local store (R33, R101, R102) -/

namespace Sys2Proof.Claims

open Sys2Proof Sys2Proof.Machine

/-- The address of an I-format local access (R101, R102). -/
def addrOf (s : State) (a : BitVec 5) (i : BitVec 16) : Nat := (word (un s a + i.toInt)).toNat

/-- The first test that `LocalCheck` of R33 fails for a load or a store of `n` bytes. -/
def localFailure (s : State) (a n : Nat) : Option Trap :=
  if 0x180000 < a + n then some (Cause.localBounds, a)
  else if a % n ≠ 0 then some (Cause.align, a)
  else if s.priv = false ∧ s.core.ctl.lslim.toNat < a + n then some (Cause.limit, a)
  else if s.core.lockHit a n = true then some (Cause.rangeLock, a)
  else none

/-- No uncorrectable error stands in the bytes (R379). -/
def intact (s : State) (a n : Nat) : Prop := s.poisonHit (s.core.localKey a) n = false

/-- Byte `a` of the store of the core in focus. -/
def byteAt (s : State) (a : Nat) : Nat := (s.mem.byte (s.core.localKey a)).toNat

/-- `LocalRead(a, n)` of R33. -/
def readAt (s : State) (a n : Nat) : Nat := ((List.range n).map fun k => byteAt s (a + k) * 2 ^ (8 * k)).sum

/-- From `s` to `t` only `g[d]` and what the core in focus has seen of other agents' writes may differ, and the pc goes to the
next instruction; where the read of `n` bytes at `x` covers no word that another agent has written and released, only `g[d]`
(R289, R405; notes/assumptions/69.md). -/
def onlyGHeard (d : BitVec 5) (x n : Nat) (s t : State) : Prop :=
  t = { s with core := { s.core with
    regs := { s.core.regs with g := t.core.regs.g, pc := s.pc + 4 }, view := t.core.view } } ∧
  (s.wordsAt x n = [] → t.core.view = s.core.view) ∧ ∀ r, r ≠ d → t.g r = s.g r

/-- A local load: it reads `n` bytes, or traps as `LocalCheck` says, changing nothing (R101); an uncorrectable error in
the bytes traps after those tests (R379). -/
def loads (i : Instr) (d a : BitVec 5) (imm : BitVec 16) (n : Nat) (x : Nat → Word) : Prop :=
  ∀ s, (localFailure s (addrOf s a imm) n = none → intact s (addrOf s a imm) n →
      ∃ t, exec i s = .next t ∧ onlyGHeard d (addrOf s a imm) n s t ∧
        t.g d = if d = 0 then 0 else x (readAt s (addrOf s a imm) n)) ∧
    (∀ t, localFailure s (addrOf s a imm) n = some t → exec i s = .next (s.trap t)) ∧
    (localFailure s (addrOf s a imm) n = none → ¬ intact s (addrOf s a imm) n →
      exec i s = .next (s.trap (Cause.uncorr, addrOf s a imm)))

/-- The keys of the undo area of a team member (R372). -/
def inUndo (s : State) (k : Nat) : Prop :=
  s.core.ctl.status.ckpt = true ∧ s.core.localKey s.core.info.undobase ≤ k ∧
    k < s.core.localKey s.core.info.undobase + s.core.info.undo

/-- From `s` to `t` the pc goes to the next instruction, and beside it only memory, the write bits, the undo log of a
team member and the record of uncorrectable errors may differ; every byte of memory outside a set of local addresses
and outside the undo area reads as before. -/
def storesOnly (inside : Nat → Prop) (s t : State) : Prop :=
  t = { s with
    mem := t.mem, poison := t.poison
    core := { s.core with
      regs := { s.core.regs with pc := s.pc + 4 }, wbits := t.core.wbits, team := t.core.team } } ∧
  (s.core.ctl.status.ckpt = false → t.core.team = s.core.team) ∧
  ∀ k, (∀ a, inside a → k ≠ s.core.localKey a) → ¬ inUndo s k → t.mem.byte k = s.mem.byte k

/-- From `s` to `t` the bytes from local address `a` up become the low bytes of `x`, `n` of them, and nothing else but
what `storesOnly` names changes. -/
def stored (a n x : Nat) (s t : State) : Prop :=
  storesOnly (fun y => a ≤ y ∧ y < a + n) s t ∧ ∀ k, k < n → byteAt t (a + k) = x / 2 ^ (8 * k) % 2 ^ 8

/-- A local store of the low `n` bytes of `g[d]`, or its trap (R102). -/
def storesLocal (i : Instr) (d a : BitVec 5) (imm : BitVec 16) (n : Nat) : Prop :=
  ∀ s, (localFailure s (addrOf s a imm) n = none →
      ∃ t, exec i s = .next t ∧ stored (addrOf s a imm) n (un s d) s t) ∧
    ∀ t, localFailure s (addrOf s a imm) n = some t → exec i s = .next (s.trap t)

end Sys2Proof.Claims

/-- R101, with `LocalCheck` and `LocalRead` of R33: the local loads. -/
def Sys2Proof.Claims.LocalLoads : Prop :=
  ∀ (d a : BitVec 5) (i : BitVec 16),
    loads (.ldB d a i) d a i 1 (fun x => word (BitVec.ofNat 8 x).toInt) ∧
    loads (.ldH d a i) d a i 2 (fun x => word (BitVec.ofNat 16 x).toInt) ∧
    loads (.ldW d a i) d a i 4 (fun x => word (BitVec.ofNat 32 x).toInt) ∧
    loads (.ldD d a i) d a i 8 (fun x => word x) ∧
    loads (.ldBz d a i) d a i 1 (fun x => word x) ∧
    loads (.ldHz d a i) d a i 2 (fun x => word x) ∧
    loads (.ldWz d a i) d a i 4 (fun x => word x)

/-- R102, with `LocalCheck` and `LocalWrite` of R33: the local stores, and the frame of memory. -/
def Sys2Proof.Claims.LocalStores : Prop :=
  ∀ (d a : BitVec 5) (i : BitVec 16),
    storesLocal (.stB d a i) d a i 1 ∧ storesLocal (.stH d a i) d a i 2 ∧
    storesLocal (.stW d a i) d a i 4 ∧ storesLocal (.stD d a i) d a i 8

/-- R33, R101, R102: the local loads and stores; what a load that covers another agent's word has then seen of that agent's
writes is the model's (notes/assumptions/69.md), and nothing is said of it here. -/
def Obligations.LocalAccess : Prop :=
  Claims.LocalLoads ∧ Claims.LocalStores

/-! ## Branches and jumps (R62, R82, R104, R105) -/

namespace Sys2Proof.Claims

open Sys2Proof Sys2Proof.Machine

/-- The state in which only the pc of the core in focus differs. -/
def pcTo (s : State) (x : Int) : State := withRegs s { s.core.regs with pc := BitVec.ofInt 21 x }

/-- pc + 4 × offset, as an unbounded integer (R62). -/
def target {n : Nat} (s : State) (o : BitVec n) : Int := s.pc.toNat + 4 * o.toInt

/-- A target that a taken branch or jump may have (R62). -/
def inStore (x : Int) : Prop := 0 ≤ x ∧ x ≤ 0x17FFFC

/-- A conditional branch: not taken, taken, and taken with a target outside the store (R62, R104). -/
def branches {n : Nat} (i : Instr) (o : BitVec n) (test : State → Prop) : Prop :=
  ∀ s, (¬ test s → exec i s = .next (pcTo s (s.pc.toNat + 4))) ∧
    (test s → inStore (target s o) → exec i s = .next (pcTo s (target s o))) ∧
    (test s → ¬ inStore (target s o) → exec i s = .next (s.trap (Cause.localBounds, (word (target s o)).toNat)))

end Sys2Proof.Claims

/-- R104: the conditional branches; none writes a register but the pc. -/
def Sys2Proof.Claims.ConditionalBranches : Prop :=
  ∀ (a b : BitVec 5) (o : BitVec 16) (p : BitVec 13),
    branches (.beqz a o) o (fun s => un s a = 0) ∧ branches (.bnez a o) o (fun s => un s a ≠ 0) ∧
    branches (.bltz a o) o (fun s => si s a < 0) ∧ branches (.bgez a o) o (fun s => 0 ≤ si s a) ∧
    branches (.bgtz a o) o (fun s => 0 < si s a) ∧ branches (.blez a o) o (fun s => si s a ≤ 0) ∧
    branches (.beq a b p) p (fun s => un s a = un s b) ∧ branches (.bne a b p) p (fun s => un s a ≠ un s b) ∧
    branches (.blt a b p) p (fun s => si s a < si s b) ∧ branches (.bge a b p) p (fun s => si s b ≤ si s a) ∧
    branches (.blo a b p) p (fun s => un s a < un s b) ∧ branches (.bhs a b p) p (fun s => un s b ≤ un s a)

/-- R105: `j`, `jl`, `jr` and `jlr`, with their checks in order; `jl` and `jlr` write pc + 4 to `g1`, and `jlr g1` jumps
to the old value. -/
def Sys2Proof.Claims.Jumps : Prop :=
  ∀ (o : BitVec 26) (a : BitVec 5),
    branches (.j o) o (fun _ => True) ∧
    (∀ s, inStore (target s o) →
      exec (.jl o) s = .next (pcTo (s.setG 1 (BitVec.ofNat 64 (s.pc + 4).toNat)) (target s o))) ∧
    (∀ s, ¬ inStore (target s o) →
      exec (.jl o) s = .next (s.trap (Cause.localBounds, (word (target s o)).toNat))) ∧
    ∀ s, (un s a < 0x180000 → un s a % 4 = 0 →
        exec (.jr a) s = .next (pcTo s (un s a)) ∧
        exec (.jlr a) s = .next (pcTo (s.setG 1 (BitVec.ofNat 64 (s.pc + 4).toNat)) (un s a))) ∧
      (0x180000 ≤ un s a → exec (.jr a) s = .next (s.trap (Cause.localBounds, un s a)) ∧
        exec (.jlr a) s = .next (s.trap (Cause.localBounds, un s a))) ∧
      (un s a < 0x180000 → un s a % 4 ≠ 0 → exec (.jr a) s = .next (s.trap (Cause.align, un s a)) ∧
        exec (.jlr a) s = .next (s.trap (Cause.align, un s a)))

/-- R82: `loop` writes the counter less one, then branches while it is not zero; the counter is written even where the
target traps (R119). -/
def Sys2Proof.Claims.CountedLoop : Prop :=
  ∀ (o : BitVec 16) (a : BitVec 5) (s : State), a ≠ 0 →
    let t := s.setG a (s.g a - 1)
    (s.g a = 1 → exec (.loop o a) s = .next (pcTo t (s.pc.toNat + 4))) ∧
    (s.g a ≠ 1 → inStore (target s o) → exec (.loop o a) s = .next (pcTo t (target s o))) ∧
    (s.g a ≠ 1 → ¬ inStore (target s o) →
      exec (.loop o a) s = .next (t.trap (Cause.localBounds, (word (target s o)).toNat)))

/-- R62, R82, R104, R105: branches, jumps and the counted loop. -/
def Obligations.BranchesJumpsAndLoop : Prop :=
  Claims.ConditionalBranches ∧ Claims.Jumps ∧ Claims.CountedLoop

/-! ## Control registers (R11 to R13, R23, R27, R107, R108) -/

namespace Sys2Proof.Claims

open Sys2Proof Sys2Proof.Machine

/-- The numbers that R11 assigns. -/
def assigned (n : Nat) : Prop :=
  n ≤ 0x002 ∨ (0x008 ≤ n ∧ n ≤ 0x00C) ∨ n = 0x010 ∨ n = 0x011 ∨ (0x018 ≤ n ∧ n ≤ 0x01B) ∨ (0x020 ≤ n ∧ n ≤ 0x025) ∨
    (0x028 ≤ n ∧ n ≤ 0x02A) ∨ n = 0x030 ∨ (0x040 ≤ n ∧ n ≤ 0x04F) ∨ (0x050 ≤ n ∧ n ≤ 0x053) ∨ n = 0x058 ∨ n = 0x060 ∨
    n = 0x068

/-- The numbers that user mode may not read: the column U is — (R11). -/
def hidden (n : Nat) : Prop := (0x020 ≤ n ∧ n ≤ 0x025) ∨ n = 0x029 ∨ n = 0x02A

/-- The numbers that user mode may write: the column U is RW (R11). -/
def userRw (n : Nat) : Prop := n ≤ 0x002 ∨ (0x008 ≤ n ∧ n ≤ 0x00C) ∨ n = 0x060

/-- May a value be written to STATUS (R13)? Bits 12, 7, 2, 1 and 0 are PRIV, and RM takes no reserved code. -/
def statusMay (s : State) (x : Word) : Prop :=
  (x.extractLsb' 4 3).toNat < 5 ∧
  (s.priv = true ∨ ∀ k, k = 12 ∨ k = 7 ∨ k = 2 ∨ k = 1 ∨ k = 0 → x.getLsbD k = (s.readCr 0).getLsbD k)

/-- May the core in focus write a value to a control register? -/
def mayWrite (s : State) (n : BitVec 12) (x : Word) : Prop :=
  assigned n.toNat ∧ (s.priv = true ∨ userRw n.toNat) ∧ (n.toNat = 0 → statusMay s x)

/-- If the number is DRENT's, the ring slot that it shows holds no uncorrectable error (R379). -/
def slotIntact (s : State) (n : BitVec 12) : Prop := n = 0x02A → s.core.ringError s.core.ctl.drsel.toNat = false

/-- Would a value change a field of STATUS marked PRIV (R12)? -/
def changesPriv (s : State) (x : Word) : Prop :=
  ∃ k, (k = 12 ∨ k = 7 ∨ k = 2 ∨ k = 1 ∨ k = 0) ∧ x.getLsbD k ≠ (s.readCr 0).getLsbD k

/-- An instruction that would write a value to STATUS is refused as R13 says: PRIVILEGE for a field marked PRIV in user mode,
else ILLEGAL for a reserved code in RM. -/
def statusRefused (i : Instr) (s : State) (x : Word) : Prop :=
  (s.priv = false → changesPriv s x → exec i s = .next (s.trap (Cause.privilege, 0))) ∧
  ((s.priv = true ∨ ¬ changesPriv s x) → 5 ≤ (x.extractLsb' 4 3).toNat → ∃ w, exec i s = .next (s.trap (Cause.illegal, w)))

/-- A value held to a range. -/
def clamp (lo hi : Nat) (x : Word) : Word := BitVec.ofNat 64 (max lo (min hi x.toNat))

/-- What a control register reads after a value is written to it, for those that a write reaches (R11 to R17, R19, R27,
R381). -/
def afterWrite (s : State) (n : Nat) (x : Word) : Word :=
  if n = 0x000 then (x &&& 0x10FF) ||| (s.readCr 0 &&& 0x0F00)
  else if n = 0x001 then x &&& 0x3F
  else if n = 0x008 ∨ n = 0x009 then x &&& 0xFFFF001F
  else if n = 0x00A ∨ n = 0x00B ∨ n = 0x020 then x &&& 0x1FFFFF
  else if n = 0x00C then x &&& 0xF
  else if n = 0x018 then clamp 0x40 0x17C000 x &&& ~~~0x3F
  else if n = 0x019 then clamp 1 32 x
  else if n = 0x01A ∨ n = 0x01B then clamp 0 16 x
  else if n = 0x021 then x &&& 0x3FF
  else if n = 0x023 then x &&& 0xFFFF
  else if n = 0x024 then if 0x17C000 ≤ x.toNat ∧ x.toNat < 0x180000 then x &&& ~~~3 else 0x17C000
  else if n = 0x029 then x &&& 0x3F
  else if n = 0x058 then if (x &&& 0xFFFFFFFF).toNat < 0x400 then 0x400 else x &&& 0xFFFFFFFF
  else if n = 0x060 then x &&& 0xFFFFFF
  else if n = 0x002 ∨ n = 0x022 ∨ n = 0x025 then x
  else s.readCr n

/-- From `s` to `t` a value is written to control register `n`, and only control registers and `g[d]` may differ beside
the pc; the other control registers read as before, except DRENT after a write to DRSEL. -/
def wroteCr (n : Nat) (x : Word) (d : BitVec 5) (s t : State) : Prop :=
  t = withCtl (withRegs s { s.core.regs with g := t.core.regs.g, pc := s.pc + 4 }) t.core.ctl ∧
  (∀ r, r ≠ d → t.g r = s.g r) ∧ t.readCr n = afterWrite s n x ∧
  ∀ k, k ≠ n → (n = 0x029 → k ≠ 0x02A) → t.readCr k = s.readCr k

end Sys2Proof.Claims

/-- R107: `crr`, `crw`, `crs` and `crc` where the access is permitted, and the ring slot that a read of DRENT shows holds no
uncorrectable error (R379). -/
def Sys2Proof.Claims.ControlRegisterAccess : Prop :=
  ∀ (d a : BitVec 5) (n : BitVec 12),
    writesG (.crr d n) d (fun s => assigned n.toNat ∧ (s.priv = true ∨ ¬ hidden n.toNat) ∧ slotIntact s n)
      (fun s x => x = s.readCr n.toNat) ∧
    (∀ s, mayWrite s n (s.g a) → ∃ t, exec (.crw a n) s = .next t ∧ wroteCr n.toNat (s.g a) 0 s t) ∧
    (∀ s, mayWrite s n (s.readCr n.toNat ||| s.g a) → slotIntact s n →
      ∃ t, exec (.crs d a n) s = .next t ∧ wroteCr n.toNat (s.readCr n.toNat ||| s.g a) d s t ∧
        t.g d = if d = 0 then 0 else s.readCr n.toNat) ∧
    ∀ s, mayWrite s n (s.readCr n.toNat &&& ~~~s.g a) → slotIntact s n →
      ∃ t, exec (.crc d a n) s = .next t ∧ wroteCr n.toNat (s.readCr n.toNat &&& ~~~s.g a) d s t ∧
        t.g d = if d = 0 then 0 else s.readCr n.toNat

/-- R107, R13: an access that user mode may not make raises PRIVILEGE, an unassigned number ILLEGAL, and a write to STATUS is
refused as R13 says; a read of DRENT whose ring slot holds an uncorrectable error raises UNCORR (R379), with the slot as EINFO
(notes/assumptions/38.md). -/
def Sys2Proof.Claims.ControlRegisterTraps : Prop :=
  ∀ (d a : BitVec 5) (n : BitVec 12) (s : State),
    (¬ assigned n.toNat → ∃ x y z w, exec (.crr d n) s = .next (s.trap (Cause.illegal, x)) ∧
      exec (.crw a n) s = .next (s.trap (Cause.illegal, y)) ∧ exec (.crs d a n) s = .next (s.trap (Cause.illegal, z)) ∧
      exec (.crc d a n) s = .next (s.trap (Cause.illegal, w))) ∧
    (n = 0 → statusRefused (.crw a n) s (s.g a) ∧ statusRefused (.crs d a n) s (s.readCr 0 ||| s.g a) ∧
      statusRefused (.crc d a n) s (s.readCr 0 &&& ~~~s.g a)) ∧
    (n = 0x02A → s.priv = true → ¬ slotIntact s n →
      let e := s.trap (Cause.uncorr, s.core.ctl.drsel.toNat)
      exec (.crr d n) s = .next e ∧ exec (.crs d a n) s = .next e ∧ exec (.crc d a n) s = .next e) ∧
    (assigned n.toNat → s.priv = false →
      (hidden n.toNat → exec (.crr d n) s = .next (s.trap (Cause.privilege, 0))) ∧
      (¬ userRw n.toNat → exec (.crw a n) s = .next (s.trap (Cause.privilege, 0)) ∧
        exec (.crs d a n) s = .next (s.trap (Cause.privilege, 0)) ∧
        exec (.crc d a n) s = .next (s.trap (Cause.privilege, 0))))

/-- R11: where each control register of the trap state, the limits and the identity is read from; R12: the bits of
STATUS, with GANG 0b00 for a core that is alone. -/
def Sys2Proof.Claims.ControlRegisterMap : Prop :=
  ∀ s : State, let k := s.core.ctl
    s.readCr 0x010 = s.core.addr.setWidth 64 ∧ s.readCr 0x011 = k.pid.setWidth 64 ∧
    s.readCr 0x018 = k.lslim.setWidth 64 ∧ s.readCr 0x019 = k.vlim.setWidth 64 ∧ s.readCr 0x01A = k.blim.setWidth 64 ∧
    s.readCr 0x01B = k.clim.setWidth 64 ∧ s.readCr 0x020 = k.epc.setWidth 64 ∧ s.readCr 0x021 = k.ecause.setWidth 64 ∧
    s.readCr 0x022 = k.einfo ∧ s.readCr 0x023 = k.eseq.setWidth 64 ∧ s.readCr 0x024 = k.evec.setWidth 64 ∧
    s.readCr 0x028 = k.drnext.setWidth 64 ∧
    (s.readCr 0).getLsbD 0 = k.status.priv ∧ (s.readCr 0).getLsbD 1 = k.status.ie ∧
    (s.readCr 0).getLsbD 2 = k.status.pie ∧ (s.readCr 0).getLsbD 3 = k.status.topx ∧
    (s.readCr 0).extractLsb' 4 3 = k.status.rm ∧ (s.readCr 0).getLsbD 7 = k.status.preempt ∧
    (s.readCr 0).getLsbD 8 = k.status.ckpt ∧ (s.core.gang.role = .alone → (s.readCr 0).extractLsb' 9 2 = 0) ∧
    (s.readCr 0).getLsbD 11 = s.core.frame.isSome ∧ (s.readCr 0).getLsbD 12 = k.status.ppriv ∧
    (s.readCr 0).extractLsb' 13 51 = 0

/-- R11 to R13, R107, R379: control registers: access, traps and what each reads from. That the clamp of EVEC takes the whole
value written (notes/assumptions/14.md), and the EINFO of an error in a ring slot (notes/assumptions/38.md), are the
model's. -/
def Obligations.ControlRegisters : Prop :=
  Claims.ControlRegisterAccess ∧ Claims.ControlRegisterTraps ∧ Claims.ControlRegisterMap

/-! ## Traps and system instructions (R28, R111 to R117) -/

namespace Sys2Proof.Claims

open Sys2Proof Sys2Proof.Machine

/-- From `s` to `t` the core in focus takes the entry of R28, with EPC at its pc: EPC, ECAUSE, EINFO, ESEQ and STATUS are
written and the pc goes to EVEC; no other register and no byte of memory changes. -/
def entered (s t : State) (ecause : BitVec 10) (info : Word) (seq : BitVec 16) : Prop :=
  t.core.ctl = { s.core.ctl with
    epc := s.pc, ecause := ecause, einfo := info, eseq := seq
    status := { s.core.ctl.status with
      ppriv := s.core.ctl.status.priv, pie := s.core.ctl.status.ie, priv := true, ie := false } } ∧
  t.core.regs = { s.core.regs with pc := s.core.ctl.evec } ∧ t.mem = s.mem ∧ t.core.mtx = s.core.mtx ∧
  t.core.run = s.core.run ∧ t.core.latch = true

end Sys2Proof.Claims

/-- R28, with `Trap` of R33: a precise trap, other than one for an uncorrectable error, takes the entry; in supervisor
mode with IE = 0 it is a double trap, and the core stops. -/
def Obligations.TrapEntry : Prop :=
  ∀ (s : State) (c : BitVec 8) (n : Nat), c ≠ Cause.uncorr →
    let t := s.trap (c, n)
    (s.priv = false ∨ s.core.ctl.status.ie = true →
      entered s t (c.setWidth 10) (BitVec.ofNat 64 n) 0 ∧ t.core.ring = s.core.ring) ∧
    (s.priv = true → s.core.ctl.status.ie = false →
      t.core.run = .endedFault ∧ t.core.ctl = s.core.ctl ∧ t.core.regs = s.core.regs ∧ t.mem = s.mem ∧
      t.core.census.double = true ∧ t.core.census.cause = c)

/-- R111: `svc` and `trap` are precise traps with the code as EINFO; `brk` is one with debug off, leaves a record and
goes on in the trace state, and stops the core in the halt state (R424). -/
def Sys2Proof.Claims.SoftwareTraps : Prop :=
  ∀ (c : BitVec 11) (s : State),
    exec (.svc c) s = .next (s.trap (0x09, c.toNat)) ∧ exec (.trap c) s = .next (s.trap (0x0A, c.toNat)) ∧
    ((s.getPkg (pkgOf s.core.addr.toNat)).debug = .off → exec (.brk c) s = .next (s.trap (0x0B, c.toNat))) ∧
    ((s.getPkg (pkgOf s.core.addr.toNat)).debug = .trace → ∃ r : TraceRec, r.pc = s.pc ∧ r.code = c ∧ r.core = s.core.addr ∧
      exec (.brk c) s = .next (s.modPkg (pkgOf s.core.addr.toNat) fun p => { p with trace := p.trace ++ [r] }).adv) ∧
    ((s.getPkg (pkgOf s.core.addr.toNat)).debug = .halt → ∃ t, exec (.brk c) s = .next t ∧ t.core.run = .haltDebug ∧
      t.core.regs = s.core.regs ∧ t.core.ctl = s.core.ctl ∧ t.mem = s.mem)

/-- R113: `eret` restores PRIV and IE from PPRIV and PIE, which keep their values, and goes to EPC; that bits [1:0] of EPC are not
taken, as those of the pc are zero (R9), is the model's inference (notes/assumptions/56.md); in user mode it raises
PRIVILEGE. -/
def Sys2Proof.Claims.TrapReturn : Prop :=
  ∀ s : State,
    (s.priv = true → ∃ t, exec .eret s = .next t ∧
      t.core.ctl = { s.core.ctl with status := { s.core.ctl.status with
        priv := s.core.ctl.status.ppriv, ie := s.core.ctl.status.pie } } ∧
      t.core.regs = { s.core.regs with pc := BitVec.ofNat 21 (s.core.ctl.epc.toNat / 4 * 4) } ∧ t.mem = s.mem ∧
      t.others = s.others) ∧
    (s.priv = false → exec .eret s = .next (s.trap (Cause.privilege, 0)))

/-- R114: `halt` of a core that is alone, with nothing pending and no binding, outside pre-emption and rollback, stops
it with EPC at the `halt`; in the halt debug state it stops resumable (R424); in user mode it raises PRIVILEGE. -/
def Sys2Proof.Claims.Halt : Prop :=
  ∀ s : State,
    (s.priv = true → s.core.gang.role = .alone → s.core.ops = [] → s.core.anyPending = false →
      s.core.binds = Vector.replicate 8 none → s.core.preemptsHere = false → s.core.rollsBackHere = false →
      s.core.team.committed = [] →
      ∃ t, exec .halt s = .next t ∧ t.core.ctl = { s.core.ctl with epc := s.pc } ∧ t.core.regs = s.core.regs ∧
        t.mem = s.mem ∧ t.core.run = if (s.getPkg (pkgOf s.core.addr.toNat)).debug = .halt then .haltDebug else .halted) ∧
    (s.priv = false → exec .halt s = .next (s.trap (Cause.privilege, 0)))

/-- R111, R113, R114: the software traps, the trap return and the halt. -/
def Obligations.SystemInstructions : Prop :=
  Claims.SoftwareTraps ∧ Claims.TrapReturn ∧ Claims.Halt

/-- R115: `wfe` with the latch set clears it and goes on, else it waits; R116: `ifence` discards the fetch buffer, but in a
follower it has no effect; R117: `yield` marks a safe point. None changes a register or a byte of memory. -/
def Obligations.EventWaitFenceYield : Prop :=
  ∀ s : State,
    (s.core.latch = true → exec .wfe s = .next { s with core := { s.core with
      latch := false, regs := { s.core.regs with pc := s.pc + 4 } } }) ∧
    (s.core.latch = false → exec .wfe s = .next { s with core := { s.core with wait := .event } }) ∧
    (s.core.follows = false → exec .ifence s = .next { s with core := { s.core with
      fbuf := none, regs := { s.core.regs with pc := s.pc + 4 } } }) ∧
    (s.core.follows = true → exec .ifence s = .next (withRegs s { s.core.regs with pc := s.pc + 4 })) ∧
    exec .yield s = .next { s with core := { s.core with
      yielded := true, regs := { s.core.regs with pc := s.pc + 4 } } }


/-! ## Vector instructions (R122 to R141) -/

namespace Sys2Proof.Claims

open Sys2Proof Sys2Proof.Machine

/-- el(x, i) of R122: element `i` of width `w`. -/
def lane (x : VReg) (w i : Nat) : Nat := x.toNat / 2 ^ (w * i) % 2 ^ w

/-- sel(x, i) of R122. -/
def laneS (x : VReg) (w i : Nat) : Int := (BitVec.ofNat w (lane x w i)).toInt

/-- `Wrap(x, w)` of R33. -/
def code (w : Nat) (x : Int) : Nat := (x % 2 ^ w).toNat

/-- Is element `i` of width `w` active (R10, R123)? -/
def laneOn (s : State) (m : BitVec 3) (w i : Nat) : Bool := (s.m m).getLsbD (w * i / 8)

/-- The width of a width code (R70). -/
def width (c : BitVec 2) : Nat := 8 * 2 ^ c.toNat

/-- The first of the v registers named that `VCheck` of R33 refuses; the order of the names, where several fail, is the model's
(notes/assumptions/30.md). -/
def overLimit (s : State) (names : List (BitVec 5)) : Option (BitVec 5) :=
  if s.priv = true then none else names.find? fun r => decide (s.core.ctl.vlim.toNat ≤ r.toNat)

/-- With every v register it names within VLIM the instruction completes and writes `v[d]`, whose new value has a
property; else it traps LIMIT on the first that is not. -/
def writesV (i : Instr) (names : List (BitVec 5)) (d : BitVec 5) (p : State → VReg → Prop) : Prop :=
  ∀ s, (overLimit s names = none → ∃ t, exec i s = .next t ∧ onlyV d s t ∧ p s (t.v d)) ∧
    ∀ r, overLimit s names = some r → exec i s = .next (s.trap (Cause.limit, r.toNat))

/-- Each active element has a value, each inactive one keeps its own (R123). -/
def lanewise (d : BitVec 5) (m : BitVec 3) (w : Nat) (f : State → Nat → Nat) (s : State) (x : VReg) : Prop :=
  ∀ k, k < 512 / w → lane x w k = if laneOn s m w k then f s k else lane (s.v d) w k

/-- Each active element becomes a function of the elements of `v[a]` and `v[b]`, unsigned and signed. -/
def eachPair (i : Instr) (d a b : BitVec 5) (m : BitVec 3) (w : Nat) (f : Nat → Nat → Int → Int → Int) : Prop :=
  writesV i [d, a, b] d (lanewise d m w fun s k =>
    code w (f (lane (s.v a) w k) (lane (s.v b) w k) (laneS (s.v a) w k) (laneS (s.v b) w k)))

/-- Each active byte becomes a function of the bytes of `v[a]` and `v[b]`. -/
def eachByte (i : Instr) (d a b : BitVec 5) (m : BitVec 3) (f : VReg → VReg → VReg) : Prop :=
  writesV i [d, a, b] d (lanewise d m 8 fun s k => lane (f (s.v a) (s.v b)) 8 k)

/-- An integer held between two bounds. -/
def hold (lo hi x : Int) : Int := max lo (min hi x)

end Sys2Proof.Claims

/-- R126, R127: integer vector arithmetic element by element, with `vsum` into element 0; which of several v registers beyond
VLIM a LIMIT trap names is the model's choice (notes/assumptions/30.md). -/
def Obligations.VectorIntegerResults : Prop :=
  ∀ (d a b : BitVec 5) (m : BitVec 3) (c : BitVec 2), let w := width c
    eachPair (.vadd d a b m c) d a b m w (fun x y _ _ => x + y) ∧
    eachPair (.vsub d a b m c) d a b m w (fun x y _ _ => x - y) ∧
    eachPair (.vaddsSigned d a b m c) d a b m w (fun _ _ x y => hold (-2 ^ (w - 1)) (2 ^ (w - 1) - 1) (x + y)) ∧
    eachPair (.vaddsUnsigned d a b m c) d a b m w (fun x y _ _ => hold 0 (2 ^ w - 1) (x + y)) ∧
    eachPair (.vsubsSigned d a b m c) d a b m w (fun _ _ x y => hold (-2 ^ (w - 1)) (2 ^ (w - 1) - 1) (x - y)) ∧
    eachPair (.vsubsUnsigned d a b m c) d a b m w (fun x y _ _ => hold 0 (2 ^ w - 1) (x - y)) ∧
    eachPair (.vmul d a b m c) d a b m w (fun x y _ _ => x * y) ∧
    eachPair (.vmulhSigned d a b m c) d a b m w (fun _ _ x y => x * y / 2 ^ w) ∧
    eachPair (.vmulhUnsigned d a b m c) d a b m w (fun x y _ _ => x * y / 2 ^ w) ∧
    eachPair (.vminSigned d a b m c) d a b m w (fun _ _ x y => min x y) ∧
    eachPair (.vminUnsigned d a b m c) d a b m w (fun x y _ _ => min x y) ∧
    eachPair (.vmaxSigned d a b m c) d a b m w (fun _ _ x y => max x y) ∧
    eachPair (.vmaxUnsigned d a b m c) d a b m w (fun x y _ _ => max x y) ∧
    eachPair (.vsll d a b m c) d a b m w (fun x y _ _ => x * 2 ^ (y % w)) ∧
    eachPair (.vsrl d a b m c) d a b m w (fun x y _ _ => x / 2 ^ (y % w)) ∧
    eachPair (.vsra d a b m c) d a b m w (fun _ y x _ => x / 2 ^ (y % w)) ∧
    eachByte (.vand d a b m c) d a b m (fun x y => x &&& y) ∧
    eachByte (.vor d a b m c) d a b m (fun x y => x ||| y) ∧
    eachByte (.vxor d a b m c) d a b m (fun x y => x ^^^ y) ∧
    eachByte (.vandn d a b m c) d a b m (fun x y => x &&& ~~~y) ∧
    writesV (.vabs d a m c) [d, a] d (lanewise d m w fun s k => code w |laneS (s.v a) w k|) ∧
    writesV (.vsum d a b m c) [d, a, b] d (fun s x => x.toNat =
      (lane (s.v b) w 0 + ((List.range (512 / w)).map fun k => if laneOn s m w k then lane (s.v a) w k else 0).sum)
        % 2 ^ w)

/-- R137: the permutations, with `vcompress` and `vexpand` through the number of active elements below an element. -/
def Sys2Proof.Claims.VectorPermutations : Prop :=
  ∀ (d a b : BitVec 5) (m : BitVec 3) (c : BitVec 2), let w := width c
    let n := 512 / w
    let below := fun (s : State) k => (List.range k).countP (laneOn s m w)
    writesV (.vperm d a b m c) [d, a, b] d (lanewise d m w fun s k => lane (s.v a) w (lane (s.v b) w k % n)) ∧
    writesV (.vbcast d a m c) [d] d (lanewise d m w fun s _ => un s a % 2 ^ w) ∧
    writesV (.vdup d a b m c) [d, a, b] d (lanewise d m w fun s _ => lane (s.v a) w (lane (s.v b) w 0 % n)) ∧
    writesV (.vmov d a m c) [d, a] d (lanewise d m 8 fun s k => lane (s.v a) 8 k) ∧
    writesV (.vzip d a b m c) [d, a, b] d (lanewise d m w fun s k =>
      if k % 2 = 0 then lane (s.v a) w (k / 2) else lane (s.v b) w (k / 2)) ∧
    writesV (.vunzip d a b m c) [d, a, b] d (lanewise d m w fun s k =>
      if 2 * k < n then lane (s.v a) w (2 * k) else lane (s.v b) w (2 * k - n)) ∧
    writesV (.vslide d a b m c) [d, a] d (lanewise d m w fun s k =>
      if 0 ≤ k + si s b ∧ k + si s b < n then lane (s.v a) w (k + si s b).toNat else 0) ∧
    writesV (.vcompress d a m c) [d, a] d (fun s x =>
      (∀ k, k < n → laneOn s m w k = true → lane x w (below s k) = lane (s.v a) w k) ∧
      ∀ j, below s n ≤ j → j < n → lane x w j = 0) ∧
    writesV (.vexpand d a m c) [d, a] d (lanewise d m w fun s k => lane (s.v a) w (below s k))

/-- R138: `vins` and `vext`, and their BOUNDS trap, which the register limit precedes. -/
def Sys2Proof.Claims.VectorElementAccess : Prop :=
  ∀ (d a b : BitVec 5) (c : BitVec 2) (s : State), let w := width c
    (overLimit s [d] = none → un s b < 512 / w → ∃ t, exec (.vins d a b c) s = .next t ∧ onlyV d s t ∧
      ∀ k, k < 512 / w → lane (t.v d) w k = if k = un s b then un s a % 2 ^ w else lane (s.v d) w k) ∧
    (overLimit s [a] = none → un s b < 512 / w → ∃ t, exec (.vext d a b c) s = .next t ∧ onlyG d s t ∧
      t.g d = if d = 0 then 0 else word (lane (s.v a) w (un s b) : Nat)) ∧
    (overLimit s [d] = none → 512 / w ≤ un s b → exec (.vins d a b c) s = .next (s.trap (Cause.bounds, un s b))) ∧
    (overLimit s [a] = none → 512 / w ≤ un s b → exec (.vext d a b c) s = .next (s.trap (Cause.bounds, un s b))) ∧
    (∀ r, overLimit s [d] = some r → exec (.vins d a b c) s = .next (s.trap (Cause.limit, r.toNat))) ∧
    ∀ r, overLimit s [a] = some r → exec (.vext d a b c) s = .next (s.trap (Cause.limit, r.toNat))

/-- R137, R138: permutations and element access; which of several v registers beyond VLIM a LIMIT trap names is the model's
choice (notes/assumptions/30.md). -/
def Obligations.VectorPermutesAndElements : Prop :=
  Claims.VectorPermutations ∧ Claims.VectorElementAccess

/-! ## Floating-point vector instructions (R124, R128 to R131) -/

namespace Sys2Proof.Claims

open Sys2Proof Sys2Proof.Machine

/-- The state of the generator after some draws (R48). -/
def seedAfter : Nat → Word → Word
  | 0, x => x
  | n + 1, x => seedAfter n (srDraw x).2

/-- The draw that comes after `n` others under stochastic rounding; another mode takes none (R47). -/
def drawAt (s : State) (rm : BitVec 3) (n : Nat) : Nat :=
  if rm = rmSR then (srDraw (seedAfter n s.core.ctl.srseed)).1.toNat else 0

/-- FSTAT gains exactly the flags that some event of a set raises (R14, R46). -/
def gains (s t : State) (raised : Nat → Prop) : Prop :=
  ∀ b, b < 6 → (t.core.ctl.fstat.getLsbD b = true ↔ s.core.ctl.fstat.getLsbD b = true ∨ raised b)

/-- An instruction that writes `n` elements of `v[d]` at width `w`, active by `on`: element `k` and its flags are
`res s draw k`, each active element taking its draw under a mode, in increasing index; FSTAT gains the flags and SRSEED
moves past the draws (R46, R49, R124). `fixed` are the modes that never draw. -/
def eachRounded (i : Instr) (names : List (BitVec 5)) (d : BitVec 5) (w n : Nat) (on : State → Nat → Bool)
    (mode : State → BitVec 3) (res : State → Nat → Nat → Nat × BitVec 6) : Prop :=
  ∀ s, (overLimit s names = none → ∃ t, exec i s = .next t ∧ onlyVRounded [d] s t ∧
      (∀ k, k < n → lane (t.v d) w k = if on s k then
        (res s (drawAt s (mode s) ((List.range k).countP (on s))) k).1 else lane (s.v d) w k) ∧
      (∀ k, n ≤ k → k < 512 / w → lane (t.v d) w k = 0) ∧
      gains s t (fun b => ∃ k, k < n ∧ on s k = true ∧
        (res s (drawAt s (mode s) ((List.range k).countP (on s))) k).2.getLsbD b = true) ∧
      t.core.ctl.srseed = if mode s = rmSR then seedAfter ((List.range n).countP (on s)) s.core.ctl.srseed
        else s.core.ctl.srseed) ∧
    ∀ r, overLimit s names = some r → exec i s = .next (s.trap (Cause.limit, r.toNat))

/-- The code and the flags of an exact result rounded to a format (R44), with the flags of the operation. -/
def rounded (f : Fmt) (rm : BitVec 3) (draw : Nat) (x : XRes) : Nat × BitVec 6 :=
  ((f.round rm draw x.1).1, x.2 ||| (f.round rm draw x.1).2)

/-- Element `k` of a register as a value of a format (R37). -/
def fval (f : Fmt) (x : VReg) (k : Nat) : FVal := f.decode (lane x f.width k)

/-- A VFLT or VFMA form that rounds each element in STATUS.RM. -/
def eachFlt (i : Instr) (names : List (BitVec 5)) (d : BitVec 5) (m : BitVec 3) (f : Fmt)
    (op : State → Nat → XRes) : Prop :=
  eachRounded i names d f.width (512 / f.width) (fun s k => laneOn s m f.width k) (fun s => s.core.ctl.status.rm)
    fun s draw k => rounded f s.core.ctl.status.rm draw (op s k)

/-- A VFLT form that returns a code without rounding or drawing. -/
def eachPick (i : Instr) (names : List (BitVec 5)) (d : BitVec 5) (m : BitVec 3) (f : Fmt)
    (op : State → Nat → Nat × BitVec 6) : Prop :=
  eachRounded i names d f.width (512 / f.width) (fun s k => laneOn s m f.width k) (fun _ => rmRNE) fun s _ k => op s k

/-- NV where a condition holds. -/
def nvIf (b : Bool) : BitVec 6 := if b then flagNV else 0

/-- The result of `vfmin` or `vfmax` on two codes (R129). -/
def lesser (f : Fmt) (least : Bool) (x y : Nat) : Nat × BitVec 6 :=
  let a := f.decode x
  let b := f.decode y
  let first := a.lt b || (a.isZero && b.isZero && a.isNeg && !b.isNeg)
  (if a.isNaN && b.isNaN then f.nanCode else if a.isNaN then y else if b.isNaN then x
    else if first then (if least then x else y) else if least then y else x,
   nvIf (a.isSNaN || b.isSNaN))

/-- A number with another sign bit, or the canonical NaN (R128). -/
def resigned (f : Fmt) (x : Nat) (number : Nat) : Nat × BitVec 6 :=
  if (f.decode x).isNaN then (f.nanCode, nvIf (f.decode x).isSNaN) else (number, 0)

/-- The tree of R57: entry `i` of level `n` over level-0 values. -/
def tree (f : Fmt) (rm : BitVec 3) (x : Nat → FVal) : Nat → Nat → FVal
  | 0, i => x i
  | n + 1, i => f.decode (f.round rm 0 (sumX [tree f rm x n (2 * i), tree f rm x n (2 * i + 1)] rm).1).1

/-- A reduction (R130): element 0 has the rounded sum of the tree's root and the initial value in every mode but SR,
where draws enter; the other bits are zero, and only NV, OF, UF and NX may be raised. -/
def reduces (i : Instr) (d a b : BitVec 5) (m : BitVec 3) (src dst : Fmt) : Prop :=
  ∀ s, let rm := s.core.ctl.status.rm
    (overLimit s [d, a, b] = none → ∃ t, exec i s = .next t ∧ onlyVRounded [d] s t ∧
      t.core.ctl.fstat &&& s.core.ctl.fstat = s.core.ctl.fstat ∧
      t.core.ctl.fstat &&& 0x22 = s.core.ctl.fstat &&& 0x22 ∧
      (t.v d).toNat < 2 ^ dst.width ∧
      (rm = rmSR → t.core.ctl.srseed = seedAfter (512 / src.width) s.core.ctl.srseed) ∧
      (rm ≠ rmSR → t.core.ctl.srseed = s.core.ctl.srseed ∧ (t.v d).toNat = (dst.round rm 0 (sumX
        [tree dst rm (fun k => if laneOn s m src.width k then fval src (s.v a) k else .fin (rm != rmRDN) 0 0)
          (Nat.log2 (512 / src.width)) 0, fval dst (s.v b) 0] rm).1).1)) ∧
    ∀ r, overLimit s [d, a, b] = some r → exec i s = .next (s.trap (Cause.limit, r.toNat))

end Sys2Proof.Claims

/-- R128, R129: the floating-point forms element by element, for the four type codes of VFLT. -/
def Sys2Proof.Claims.VectorFloatResults : Prop :=
  ∀ (d a b : BitVec 5) (m c : BitVec 3), c.toNat < 4 →
    let f := fmtOf c.toNat false
    eachFlt (.vfadd d a b m c) [d, a, b] d m f
      (fun s k => sumX [fval f (s.v a) k, fval f (s.v b) k] s.core.ctl.status.rm) ∧
    eachFlt (.vfsub d a b m c) [d, a, b] d m f
      (fun s k => sumX [fval f (s.v a) k, (fval f (s.v b) k).neg] s.core.ctl.status.rm) ∧
    eachFlt (.vfmul d a b m c) [d, a, b] d m f (fun s k => mulX (fval f (s.v a) k) (fval f (s.v b) k)) ∧
    eachFlt (.vfdiv d a b m c) [d, a, b] d m f (fun s k => divX (fval f (s.v a) k) (fval f (s.v b) k)) ∧
    eachFlt (.vfsqrt d a m c) [d, a] d m f (fun s k => sqrtX (fval f (s.v a) k)) ∧
    eachPick (.vfmin d a b m c) [d, a, b] d m f
      (fun s k => lesser f true (lane (s.v a) f.width k) (lane (s.v b) f.width k)) ∧
    eachPick (.vfmax d a b m c) [d, a, b] d m f
      (fun s k => lesser f false (lane (s.v a) f.width k) (lane (s.v b) f.width k)) ∧
    eachPick (.vfabs d a m c) [d, a] d m f (fun s k =>
      resigned f (lane (s.v a) f.width k) (lane (s.v a) f.width k % 2 ^ (f.width - 1))) ∧
    eachPick (.vfneg d a m c) [d, a] d m f (fun s k =>
      resigned f (lane (s.v a) f.width k) ((lane (s.v a) f.width k + 2 ^ (f.width - 1)) % 2 ^ f.width))

/-- R131: the fused forms, with one rounding; 0 × ∞ is invalid whatever the addend holds. -/
def Sys2Proof.Claims.FusedMultiplyAdd : Prop :=
  ∀ (d a b c : BitVec 5) (m : BitVec 3) (k : BitVec 2),
    let f := if k = 0 then fp64 else if k = 1 then fp32 else if k = 2 then fp16 else bf16
    let fused := fun (s : State) n (z : FVal) => let x := fval f (s.v a) n; let y := fval f (s.v b) n
      if (x.isZero && y.isInf) || (x.isInf && y.isZero) then ((.nan, flagNV) : XRes)
      else sumX [mulF x y, z] s.core.ctl.status.rm
    eachFlt (.vfma d a b c m k) [d, a, b, c] d m f (fun s n => fused s n (fval f (s.v c) n)) ∧
    eachFlt (.vfms d a b c m k) [d, a, b, c] d m f (fun s n => fused s n (fval f (s.v c) n).neg)

/-- R130, R57: the reductions, into their own format and into the wider one. -/
def Sys2Proof.Claims.VectorReductions : Prop :=
  ∀ (d a b : BitVec 5) (m c : BitVec 3), c.toNat < 4 →
    reduces (.vfsum d a b m c) d a b m (fmtOf c.toNat false) (fmtOf c.toNat false) ∧
    (c ≠ 0 → reduces (.vfsumw d a b m c) d a b m (fmtOf c.toNat false) (if c = 1 then fp64 else fp32))

/-- R57, R128 to R131: float arithmetic, fused multiply-add and reductions; which of several v registers beyond VLIM a LIMIT
trap names is the model's choice (notes/assumptions/30.md). -/
def Obligations.VectorFloats : Prop :=
  Claims.VectorFloatResults ∧ Claims.FusedMultiplyAdd ∧ Claims.VectorReductions

/-! ## Comparisons and masks (R132, R133) -/

namespace Sys2Proof.Claims

open Sys2Proof Sys2Proof.Machine

/-- The width of an element type code (R70). -/
def typeWidth (t : BitVec 4) : Nat := if t.toNat < 8 then 8 * 2 ^ (t.toNat % 4) else (fmtOf (t.toNat - 8) false).width

/-- A comparison (R132): the mask bits of each active element take its outcome, and NV is set by a NaN, or by a
signalling one where the condition is quiet. -/
def compares (i : Instr) (d : BitVec 3) (a b : BitVec 5) (m : BitVec 3) (t : BitVec 4) (quiet : Bool)
    (int : Int → Int → Bool) (float : FVal → FVal → Bool) (unordered : Bool) : Prop :=
  let w := typeWidth t
  let f := fmtOf (t.toNat - 8) false
  ∀ s, let x := fun k => fval f (s.v a) k
    let y := fun k => fval f (s.v b) k
    let test := fun k =>
      if t.toNat < 4 then int (laneS (s.v a) w k) (laneS (s.v b) w k)
      else if t.toNat < 8 then int (lane (s.v a) w k) (lane (s.v b) w k)
      else if (x k).isNaN || (y k).isNaN then unordered else float (x k) (y k)
    let nv := fun k => decide (8 ≤ t.toNat) &&
      if quiet then (x k).isSNaN || (y k).isSNaN else (x k).isNaN || (y k).isNaN
    (overLimit s [a, b] = none → ∃ u, exec i s = .next u ∧ onlyM d s u ∧
      (d ≠ 0 → ∀ j, j < 64 → (u.m d).getLsbD j =
        if laneOn s m w (8 * j / w) then test (8 * j / w) else (s.m d).getLsbD j) ∧
      gains s u (fun e => e = 0 ∧ ∃ k, k < 512 / w ∧ laneOn s m w k = true ∧ nv k = true)) ∧
    ∀ r, overLimit s [a, b] = some r → exec i s = .next (s.trap (Cause.limit, r.toNat))

/-- A mask operation completes and writes `m[d]`, which `m0` discards (R133). -/
def writesM (i : Instr) (d : BitVec 3) (x : State → Word) : Prop :=
  ∀ s, ∃ t, exec i s = .next t ∧ onlyM d s t ∧ t.core.ctl.fstat = s.core.ctl.fstat ∧
    t.m d = if d = 0 then BitVec.allOnes 64 else x s

end Sys2Proof.Claims

/-- R132: the comparisons; `un` has the float types only. -/
def Sys2Proof.Claims.VectorComparisons : Prop :=
  ∀ (d : BitVec 3) (a b : BitVec 5) (m : BitVec 3) (t : BitVec 4), t.toNat < 12 →
    compares (.vcmpEq d a b m t) d a b m t true (fun x y => decide (x = y)) (fun x y => x.same y) false ∧
    compares (.vcmpNe d a b m t) d a b m t true (fun x y => decide (x ≠ y)) (fun x y => !x.same y) true ∧
    compares (.vcmpLt d a b m t) d a b m t false (fun x y => decide (x < y)) (fun x y => x.lt y) false ∧
    compares (.vcmpLe d a b m t) d a b m t false (fun x y => decide (x ≤ y)) (fun x y => !y.lt x) false ∧
    compares (.vcmpGt d a b m t) d a b m t false (fun x y => decide (y < x)) (fun x y => y.lt x) false ∧
    compares (.vcmpGe d a b m t) d a b m t false (fun x y => decide (y ≤ x)) (fun x y => !x.lt y) false ∧
    (8 ≤ t.toNat → compares (.vcmpUn d a b m t) d a b m t true (fun _ _ => false) (fun _ _ => false) true)

/-- R133: the mask operations. -/
def Sys2Proof.Claims.MaskOperations : Prop :=
  ∀ (d a b : BitVec 3) (x y : BitVec 5),
    writesM (.mand d a b) d (fun s => s.m a &&& s.m b) ∧ writesM (.mor d a b) d (fun s => s.m a ||| s.m b) ∧
    writesM (.mxor d a b) d (fun s => s.m a ^^^ s.m b) ∧ writesM (.mandn d a b) d (fun s => s.m a &&& ~~~s.m b) ∧
    writesM (.mnot d a) d (fun s => ~~~s.m a) ∧ writesM (.mfromg d y) d (fun s => s.g y) ∧
    gives (.mtog x a) x (fun s => s.m a) ∧
    gives (.mpop x a) x (fun s => word ((List.range 64).countP ((s.m a).getLsbD ·) : Nat))

/-- R132, R133: comparisons and mask operations; which of several v registers beyond VLIM a LIMIT trap names is the model's
choice (notes/assumptions/30.md). -/
def Obligations.VectorComparesAndMasks : Prop :=
  Claims.VectorComparisons ∧ Claims.MaskOperations

/-! ## Conversions (R134 to R136) -/

namespace Sys2Proof.Claims

open Sys2Proof Sys2Proof.Machine

/-- The mode of a conversion: DYN is the one in STATUS.RM (R43). -/
def cvtMode (s : State) (r : BitVec 3) : BitVec 3 := if r = 7 then s.core.ctl.status.rm else r

/-- One element converted from a source type to a destination type (R36, R135), with the scale of its block. -/
def converted (src dst : CvtType) (topx : Bool) (rm : BitVec 3) (draw x : Nat) : Nat × BitVec 6 :=
  match src, dst with
  | .int sg w, .flt k =>
    rounded (fmtOf k topx) rm draw (intX (if sg then (BitVec.ofNat w x).toInt else x), 0)
  | .flt j, .flt k => rounded (fmtOf k topx) rm draw ((fmtOf j topx).decode x).exact
  | .flt j, .int sg w => toInt sg w rm draw ((fmtOf j topx).decode x)
  | .int _ _, .int _ w => (x % 2 ^ w, 0)

/-- The v registers that a block of 32 elements of a wide type fills, from one up (R136). -/
def blockRegs (c : BitVec 4) (r : BitVec 5) : List (BitVec 5) := if c = 9 then [r, r + 1] else [r]

/-- The format of a floating-point or narrow conversion code (R71). -/
def cvtFormat (c : BitVec 4) (topx : Bool) : Fmt := fmtOf (if c = 7 then 8 else c.toNat - 8) topx

end Sys2Proof.Claims

/-- R134, R135: `vcvt` element by element. -/
def Sys2Proof.Claims.ElementConversions : Prop :=
  ∀ (d a : BitVec 5) (r m : BitVec 3) (x y : BitVec 4), (Instr.vcvtEl d a r m x y).wf = true →
    let src := cvtType y
    let dst := cvtType x
    let step := max (max src.width dst.width) 8
    eachRounded (.vcvtEl d a r m x y) [d, a] d dst.width (512 / step)
      (fun s k => (s.m m).getLsbD (k * step / 8)) (fun s => cvtMode s r)
      (fun s draw k => converted src dst s.core.ctl.status.topx (cvtMode s r) draw (lane (s.v a) src.width k))

/-- R136, R51: MX pack writes the layout of a block and its scale, all other bits zero. -/
def Sys2Proof.Claims.BlockPack : Prop :=
  ∀ (d a : BitVec 5) (r : BitVec 3) (x y : BitVec 4) (s : State), (Instr.vcvtPack d a r x y).wf = true →
    let topx := s.core.ctl.status.topx
    let src := cvtFormat y topx
    let dst := cvtFormat x topx
    let n := 512 / src.width
    let vals := (List.range 32).map fun k => fval src (s.v (a + BitVec.ofNat 5 (k / n))) (k % n)
    let block := mxScale dst (cvtMode s r) vals s.rnd
    (overLimit s (d :: blockRegs y a) = none → ∃ t, exec (.vcvtPack d a r x y) s = .next t ∧ onlyVRounded [d] s t ∧
      (∀ k, k < 32 → lane (t.v d) dst.width k = (block.2.1)[k]?.getD 0) ∧
      (∀ j, 32 * dst.width ≤ j → j < 256 → (t.v d).getLsbD j = false) ∧ lane (t.v d) 256 1 = block.1 ∧
      t.core.ctl.fstat = s.core.ctl.fstat ||| block.2.2.flags ∧ t.core.ctl.srseed = block.2.2.seed) ∧
    ∀ q, overLimit s (d :: blockRegs y a) = some q → exec (.vcvtPack d a r x y) s = .next (s.trap (Cause.limit, q.toNat))

/-- R136, R50: MX unpack into 32 elements, in `v[d]` or in `v[d]` and `v[d+1]`; a scale of 0xFF makes each the canonical
NaN without a flag. -/
def Sys2Proof.Claims.BlockUnpack : Prop :=
  ∀ (d a : BitVec 5) (r : BitVec 3) (x y : BitVec 4) (s : State), (Instr.vcvtUnpack d a r x y).wf = true →
    let topx := s.core.ctl.status.topx
    let src := cvtFormat y topx
    let dst := cvtFormat x topx
    let rm := cvtMode s r
    let n := 512 / dst.width
    let scale := lane (s.v a) 8 32
    let res := fun k => rounded dst rm (drawAt s rm k) (if scale = 255 then (.nan, 0)
      else ((src.decode (lane (s.v a) src.width k)).scaled ((scale : Int) - 127)).exact)
    (overLimit s (blockRegs x d ++ [a]) = none → ∃ t, exec (.vcvtUnpack d a r x y) s = .next t ∧
      onlyVRounded (blockRegs x d) s t ∧
      (∀ k, k < 32 → lane (t.v (d + BitVec.ofNat 5 (k / n))) dst.width (k % n) = (res k).1) ∧
      gains s t (fun b => ∃ k, k < 32 ∧ (res k).2.getLsbD b = true) ∧
      t.core.ctl.srseed = if rm = rmSR then seedAfter 32 s.core.ctl.srseed else s.core.ctl.srseed) ∧
    ∀ q, overLimit s (blockRegs x d ++ [a]) = some q →
      exec (.vcvtUnpack d a r x y) s = .next (s.trap (Cause.limit, q.toNat))

/-- R50, R51, R134 to R136: the conversions of elements and of blocks. Which of several v registers beyond VLIM a LIMIT trap
names (notes/assumptions/30.md), and that a conversion to an integer under stochastic rounding takes its draw
(notes/assumptions/13.md), are the model's. -/
def Obligations.Conversions : Prop :=
  Claims.ElementConversions ∧ Claims.BlockPack ∧ Claims.BlockUnpack

/-! ## Vector loads and stores (R139, R141) -/

namespace Sys2Proof.Claims

open Sys2Proof Sys2Proof.Machine

/-- The address of a `vld` or `vst` (R139). -/
def addrV (s : State) (a : BitVec 5) (o : BitVec 13) : Nat := (word (un s a + 64 * o.toInt)).toNat

/-- An uncorrectable error met by a thread's read of `n` bytes (R379). -/
def errorAt (s : State) (a n : Nat) : Option Trap :=
  if s.poisonHit (s.core.localKey a) n then some (Cause.uncorr, a) else none

/-- The failure of a thread's read of `n` bytes: that of `LocalCheck`, else an uncorrectable error (R33, R379). -/
def readFailure (s : State) (a n : Nat) : Option Trap := (localFailure s a n).or (errorAt s a n)

/-- The first failure among the addresses of the active elements, in increasing index (R141). -/
def firstFailure (s : State) (m : BitVec 3) (w : Nat) (addr : Nat → Nat) (chk : Nat → Option Trap) : Option Trap :=
  ((List.range (512 / w)).filter (laneOn s m w)).findSome? fun k => chk (addr k)

/-- From `s` to `t` only `v[d]` and what the core in focus has seen of other agents' writes may differ, and the pc goes to the
next instruction; the latter stays too where none of the reads, of `n` bytes each, covers a word that another agent has
written and released (R289, R405; notes/assumptions/69.md). -/
def onlyVHeard (d : BitVec 5) (reads : List Nat) (n : Nat) (s t : State) : Prop :=
  t = { s with core := { s.core with
    regs := { s.core.regs with v := t.core.regs.v, pc := s.pc + 4 }, view := t.core.view } } ∧
  ((∀ x ∈ reads, s.wordsAt x n = []) → t.core.view = s.core.view) ∧ ∀ r, r ≠ d → t.v r = s.v r

/-- A load of elements at their own addresses (R141): every active address passes `LocalCheck` before the first is read. -/
def gathers (i : Instr) (names : List (BitVec 5)) (d : BitVec 5) (m : BitVec 3) (w : Nat)
    (addr : State → Nat → Nat) : Prop :=
  ∀ s, let errors := firstFailure s m w (addr s) fun a => errorAt s a (w / 8)
    let fails := (firstFailure s m w (addr s) fun a => localFailure s a (w / 8)).or errors
    (overLimit s names = none → fails = none → ∃ t, exec i s = .next t ∧
      onlyVHeard d (((List.range (512 / w)).filter (laneOn s m w)).map (addr s)) (w / 8) s t ∧
      lanewise d m w (fun s k => readAt s (addr s k) (w / 8)) s (t.v d)) ∧
    (∀ r, overLimit s names = some r → exec i s = .next (s.trap (Cause.limit, r.toNat))) ∧
    ∀ x, overLimit s names = none → fails = some x → exec i s = .next (s.trap x)

/-- A store of elements to their own addresses (R141): of two active elements at one address the one with the higher
index leaves its value. -/
def scatters (i : Instr) (names : List (BitVec 5)) (d : BitVec 5) (m : BitVec 3) (w : Nat)
    (addr : State → Nat → Nat) : Prop :=
  ∀ s, let fails := firstFailure s m w (addr s) fun a => localFailure s a (w / 8)
    (overLimit s names = none → fails = none → ∃ t, exec i s = .next t ∧
      storesOnly (fun y => ∃ k, k < 512 / w ∧ laneOn s m w k = true ∧ addr s k ≤ y ∧ y < addr s k + w / 8) s t ∧
      ∀ k, k < 512 / w → laneOn s m w k = true →
        (∀ j, k < j → j < 512 / w → laneOn s m w j = true → addr s j ≠ addr s k) →
        readAt t (addr s k) (w / 8) = lane (s.v d) w k) ∧
    (∀ r, overLimit s names = some r → exec i s = .next (s.trap (Cause.limit, r.toNat))) ∧
    ∀ x, overLimit s names = none → fails = some x → exec i s = .next (s.trap x)

end Sys2Proof.Claims

/-- R139: `vld` and `vst`; the checks cover all 64 bytes, and an inactive byte is neither loaded nor written. That an
uncorrectable error under an inactive byte traps too, with the base address, is the model's choice
(notes/assumptions/31.md). -/
def Sys2Proof.Claims.VectorLoadStore : Prop :=
  ∀ (d a : BitVec 5) (m : BitVec 3) (o : BitVec 13) (s : State), let x := addrV s a o
    (overLimit s [d] = none → readFailure s x 64 = none → ∃ t, exec (.vld d a m o) s = .next t ∧ onlyVHeard d [x] 64 s t ∧
      lanewise d m 8 (fun s k => byteAt s (x + k)) s (t.v d)) ∧
    (overLimit s [d] = none → localFailure s x 64 = none → ∃ t, exec (.vst d a m o) s = .next t ∧
      storesOnly (fun y => x ≤ y ∧ y < x + 64 ∧ laneOn s m 8 (y - x) = true) s t ∧
      ∀ k, k < 64 → laneOn s m 8 k = true → byteAt t (x + k) = lane (s.v d) 8 k) ∧
    (∀ r, overLimit s [d] = some r → exec (.vld d a m o) s = .next (s.trap (Cause.limit, r.toNat)) ∧
      exec (.vst d a m o) s = .next (s.trap (Cause.limit, r.toNat))) ∧
    (∀ f, overLimit s [d] = none → readFailure s x 64 = some f → exec (.vld d a m o) s = .next (s.trap f)) ∧
    ∀ f, overLimit s [d] = none → localFailure s x 64 = some f → exec (.vst d a m o) s = .next (s.trap f)

/-- R141: strided, gathered and scattered accesses; no element is accessed unless every active address passes. -/
def Sys2Proof.Claims.VectorStridedGathered : Prop :=
  ∀ (d a b : BitVec 5) (m : BitVec 3) (c : BitVec 2), let w := width c
    let stride := fun (s : State) (k : Nat) => (word (un s a + k * si s b)).toNat
    let offset := fun (s : State) (k : Nat) => (word (un s a + lane (s.v b) w k)).toNat
    gathers (.vlds d a b m c) [d] d m w stride ∧ scatters (.vsts d a b m c) [d] d m w stride ∧
    gathers (.vgath d a b m c) [d, b] d m w offset ∧ scatters (.vscat d a b m c) [d, b] d m w offset

/-- R139, R141: vector loads and stores, contiguous, strided and gathered. Which of several v registers beyond VLIM a LIMIT
trap names (notes/assumptions/30.md), that an error under an inactive byte of a `vld` traps (notes/assumptions/31.md), and what
a load that covers another agent's word has then seen (notes/assumptions/69.md, of which nothing is said here), are the
model's choices. -/
def Obligations.VectorMemory : Prop :=
  Claims.VectorLoadStore ∧ Claims.VectorStridedGathered

/-! ## Repeat frames (R77 to R80) -/

namespace Sys2Proof.Claims

open Sys2Proof Sys2Proof.Machine

/-- The state in which the core in focus has gone on to its next instruction, all else as before. -/
def past (s : State) : State := withRegs s { s.core.regs with pc := s.pc + 4 }

/-- The state in which the core in focus waits, all else as before: its instruction is executed again. -/
def waits (s : State) (w : WaitState) : State := { s with core := { s.core with wait := w } }

/-- The fetch buffer holds nothing, or the bytes that stand in the store (R26). -/
def bufferTrue (s : State) : Prop := ∀ a x, s.core.fbuf = some (a, x) → x = BitVec.ofNat 512 (s.localRead a.toNat 64)

/-- The `n` words from an address up. -/
def wordsAt (s : State) (a n : Nat) : List (BitVec 32) := (List.range n).map fun i => BitVec.ofNat 32 (readAt s (a + 4 * i) 4)

/-- The frame that R77 captures: T from `x`, the strides from `y`. -/
def frameOf (x y : Word) (ws : List (BitVec 32)) (pc : LAddr) : Frame :=
  { words := ws, total := x.toNat, done := 0, sd := BitVec.ofNat 5 y.toNat, sa := BitVec.ofNat 5 (y.toNat / 2 ^ 5),
    sb := BitVec.ofNat 5 (y.toNat / 2 ^ 10), sc := BitVec.ofNat 5 (y.toNat / 2 ^ 15), at_ := pc }

/-- The state after captured execution `k` of a frame: the frame goes on at the next captured word, or ends behind the
last one. -/
def frameStep (f : Frame) (k : Nat) (s : State) : State :=
  let n := f.words.length
  if n * f.total ≤ k + 1 then
    { s with core := { s.core with frame := none, regs := { s.core.regs with pc := f.at_ + 4 + 4 * BitVec.ofNat 21 n } } }
  else
    { s with core := { s.core with
      frame := some { f with done := k + 1 }
      regs := { s.core.regs with pc := f.at_ + 4 + 4 * BitVec.ofNat 21 ((k + 1) % n) } } }

end Sys2Proof.Claims

/-- R77: `rfrm` captures the words after it, or raises FRAME on its count or stride word; the fetch buffer may be
filled. -/
def Sys2Proof.Claims.FrameCapture : Prop :=
  ∀ (n : BitVec 4) (a b : BitVec 5) (s : State),
    let ws := wordsAt s (s.pc.toNat + 4) (n.toNat + 1)
    let f := frameOf (s.g a) (s.g b) ws s.pc
    (1 ≤ un s a → un s a ≤ 4096 → un s b < 2 ^ 20 → bufferTrue s → s.framesFetch (s.pc.toNat + 4) (n.toNat + 1) = none →
      (∀ w ∈ ws, (capture w).isSome = true) →
      (s.priv = true ∨ ∀ k, k < f.total → ∀ w ∈ ws, ∀ c, capture w = some c →
        ∀ r ∈ c.regs (f.rename k), r.toNat < s.core.ctl.vlim.toNat) →
      ∃ t, exec (.rfrm n a b) s = .next t ∧ t = { s with core := { s.core with
        regs := { s.core.regs with pc := s.pc + 4 }, frame := some f, fbuf := t.core.fbuf } }) ∧
    (un s a = 0 ∨ 4096 < un s a → exec (.rfrm n a b) s = .next (s.trap (Cause.frame, un s a))) ∧
    (1 ≤ un s a → un s a ≤ 4096 → 2 ^ 20 ≤ un s b → exec (.rfrm n a b) s = .next (s.trap (Cause.frame, un s b)))

/-- R78: a replay executes the captured vector instructions in order, each with its v fields moved by the number of the
replay times the stride of their role; after the last replay the frame is closed. A replay of vector words within VLIM
completes, and changes no general register and no byte of memory. A frame of one captured `mma` takes the next number of
the ring for it, which its `done` count shows (R80). -/
def Sys2Proof.Claims.FrameReplay : Prop :=
  (∀ (s : State) (f : Frame), s.core.frame = some f → let n := f.words.length
    f.done % n = 0 → f.done < n * f.total →
    (∀ w ∈ f.words, ∃ i, capture w = some (.vec i) ∧ (s.priv = true ∨
      ∀ r ∈ Captured.regs (f.rename (f.done / n)) (.vec i), r.toNat < s.core.ctl.vlim.toNat)) →
    ∃ t, exec .frameReplay s = .next t ∧ t.core.wait = .no ∧ t.mem = s.mem ∧ t.core.regs.g = s.core.regs.g ∧
      t.core.frame = (if n * f.total ≤ f.done + n then none else some { f with done := f.done + n }) ∧
      t.pc = f.at_ + 4 + if n * f.total ≤ f.done + n then 4 * BitVec.ofNat 21 n else 0) ∧
  (∀ (s : State) (f : Frame) (w : BitVec 32) (c : BitVec 2) (a b : BitVec 5) (r : BitVec 2) (u v x y : BitVec 1),
    s.core.frame = some f → f.words = [w] → f.done + 1 < f.total → capture w = some (.mma c a b r u v x y) →
    s.core.run = .running → s.core.matrixPlaces < 8 → (s.core.entry s.core.ctl.drnext).state ≠ .pending →
    (s.core.entry s.core.ctl.drnext).untaken = false →
    (∀ o ∈ s.core.ops, o.seq.toNat % 64 ≠ s.core.ctl.drnext.toNat % 64) →
    ∃ t, exec .frameReplay s = .next t ∧ t.core.frame = some { f with done := f.done + 1 } ∧
      t.core.ctl.drnext = s.core.ctl.drnext + 1 ∧ t.core.wait = .no ∧ t.pc = f.at_ + 4 ∧ t.mem = s.mem) ∧
  (∀ (s : State) (f : Frame) (u : Nat → State), s.core.frame = some f → 0 < f.words.length →
    f.done % f.words.length = 0 → u 0 = { s with core := { s.core with wait := .no } } →
    (∀ j, j < f.words.length → ∃ i x, capture (f.words.getD j 0) = some (.vec i) ∧
      replayVec (f.rename (f.done / f.words.length)) i (u j) = some (.next x) ∧
      u (j + 1) = frameStep f (f.done + j) x ∧ (j + 1 < f.words.length → (u (j + 1)).core.frame.isSome = true)) →
    exec .frameReplay s = .next (u f.words.length)) ∧
  (∀ (f : Frame) (k : Nat), let n := BitVec.ofNat 5 k
    f.rename k = { sd := n * f.sd, sa := n * f.sa, sb := n * f.sb, sc := n * f.sc }) ∧
  ∀ (q : Rename) (d a b c : BitVec 5) (m : BitVec 3) (w : BitVec 2) (t r : BitVec 3) (x y : BitVec 4) (s : State),
    replayVec q (.vadd d a b m w) s = some (exec (.vadd (d + q.sd) (a + q.sa) (b + q.sb) m w) s) ∧
    replayVec q (.vabs d a m w) s = some (exec (.vabs (d + q.sd) (a + q.sa) m w) s) ∧
    replayVec q (.vfadd d a b m t) s = some (exec (.vfadd (d + q.sd) (a + q.sa) (b + q.sb) m t) s) ∧
    replayVec q (.vfma d a b c m w) s = some (exec (.vfma (d + q.sd) (a + q.sa) (b + q.sb) (c + q.sc) m w) s) ∧
    replayVec q (.vcmpEq m a b r y) s = some (exec (.vcmpEq m (a + q.sa) (b + q.sb) r y) s) ∧
    replayVec q (.vcvtEl d a t r x y) s = some (exec (.vcvtEl (d + q.sd) (a + q.sa) t r x y) s) ∧
    replayVec q (.mand m t r) s = some (exec (.mand m t r) s)

/-- R77, R78: repeat frames, captured and replayed. -/
def Obligations.RepeatFrames : Prop :=
  Claims.FrameCapture ∧ Claims.FrameReplay

/-! ## Messages (R162 to R164, R176 to R182) -/

namespace Sys2Proof.Claims

open Sys2Proof Sys2Proof.Machine

/-- May the core use channel `n` (R21)? -/
def channelOk (s : State) (n : BitVec 4) : Prop := s.priv = true ∨ n.toNat < s.core.ctl.clim.toNat

/-- The message that a `send` of the core in focus forms (R177). -/
def messageOf (s : State) (dst : Nat) (n : BitVec 4) (v : Bool) (data : BitVec 512) (nt : BitVec 1) : Msg :=
  { src := s.core.thread, dst := dst, chan := n.toNat, v := v, data := data, nt := decide (nt = 1),
    topx := s.core.ctl.status.topx, pid := s.core.ctl.pid }

/-- The core without the oldest message of channel `n`. -/
def taken (s : State) (n : BitVec 4) : State :=
  { s with core := { s.core with msgs := { s.core.msgs with
    queue := dropFirst (fun x => x.chan == n.toNat) s.core.msgs.queue } } }

/-- A head message that a receive accepts (R179): of its kind, and with its mark of format, unless raw, under the
core's TOPX. -/
def accepts (s : State) (n : BitVec 4) (v : Bool) (raw : BitVec 1) (m : Msg) : Prop :=
  (s.core.channel n.toNat).head? = some m ∧ m.v = v ∧ (raw = 0 → m.nt = true → m.topx = s.core.ctl.status.topx)

end Sys2Proof.Claims

/-- R177: `send` and `send.v` place a message on the network; with four of the core waiting they stall, whichever of its
threads sent them, where every message that has not entered its channel counts as waiting (notes/assumptions/64.md); a team
member's message goes to its outbound buffer, and one for which that has no room raises OUTBUF_FULL (R373); a bad address
raises BOUNDS. -/
def Sys2Proof.Claims.MessageSending : Prop :=
  ∀ (a b : BitVec 5) (t : BitVec 1) (n : BitVec 4) (s : State), channelOk s n →
    let m := messageOf s (un s a) n false (BitVec.ofNat 512 (un s b)) t
    let mv := messageOf s (un s a) n true (s.v b) t
    (un s a < 2 ^ 23 → s.core.ctl.status.ckpt = false → s.coreWaiting s.core.addr.toNat < 4 →
      exec (.send a b t n) s = .next (past { s with mesh := s.mesh ++ [m] }) ∧
      (overLimit s [b] = none → exec (.sendV a b t n) s = .next (past { s with mesh := s.mesh ++ [mv] }))) ∧
    (un s a < 2 ^ 23 → s.core.ctl.status.ckpt = false → 4 ≤ s.coreWaiting s.core.addr.toNat →
      exec (.send a b t n) s = .next (waits s .other) ∧
      (overLimit s [b] = none → exec (.sendV a b t n) s = .next (waits s .other))) ∧
    (un s a < 2 ^ 23 → s.core.ctl.status.ckpt = true → let buffered := fun x => past { s with core := { s.core with
        team := { s.core.team with outbuf := s.core.team.outbuf ++ [.send x] } } }
      (32 ≤ s.core.outFree → exec (.send a b t n) s = .next (buffered m)) ∧
      (96 ≤ s.core.outFree → overLimit s [b] = none → exec (.sendV a b t n) s = .next (buffered mv)) ∧
      (s.core.outFree < 32 → exec (.send a b t n) s = .next (s.trap (Cause.outbufFull, s.core.outFree))) ∧
      (s.core.outFree < 96 → overLimit s [b] = none →
        exec (.sendV a b t n) s = .next (s.trap (Cause.outbufFull, s.core.outFree)))) ∧
    (2 ^ 23 ≤ un s a → exec (.send a b t n) s = .next (s.trap (Cause.bounds, un s a)) ∧
      (overLimit s [b] = none → exec (.sendV a b t n) s = .next (s.trap (Cause.bounds, un s a))))

/-- R179, R181, R182: the receiving forms take the oldest message of their channel, or trap MSG_KIND on one of the other
kind, or FORMAT_MISMATCH on one of a narrow format sent under another TOPX, unless raw; `recv` and `recv.v` wait on an empty
channel, the `.t` forms answer all ones; `msgst` counts. -/
def Sys2Proof.Claims.MessageReceiving : Prop :=
  ∀ (d a : BitVec 5) (r : BitVec 1) (n : BitVec 4) (s : State), channelOk s n →
    (∀ m, accepts s n false r m →
      exec (.recv d r n) s = .next (past ((taken s n).setG d (BitVec.ofNat 64 m.data.toNat))) ∧
      exec (.recvT d a r n) s = .next (past (((taken s n).setG d (BitVec.ofNat 64 m.data.toNat)).setG a 0))) ∧
    (∀ m, accepts s n true r m → overLimit s [d] = none →
      exec (.recvV d r n) s = .next (past ((taken s n).setV d m.data)) ∧
      exec (.recvTV d a r n) s = .next (past (((taken s n).setV d m.data).setG a 0))) ∧
    (∀ m, (s.core.channel n.toNat).head? = some m →
      (m.v = true → exec (.recv d r n) s = .next (s.trap (Cause.msgKind, n.toNat + 256)) ∧
        exec (.recvT d a r n) s = .next (s.trap (Cause.msgKind, n.toNat + 256))) ∧
      (m.v = false → overLimit s [d] = none → exec (.recvV d r n) s = .next (s.trap (Cause.msgKind, n.toNat)) ∧
        exec (.recvTV d a r n) s = .next (s.trap (Cause.msgKind, n.toNat))) ∧
      (r = 0 → m.nt = true → m.topx ≠ s.core.ctl.status.topx →
        let e := s.trap (Cause.formatMismatch, n.toNat + 256 * m.topx.toNat)
        (m.v = false → exec (.recv d r n) s = .next e ∧ exec (.recvT d a r n) s = .next e) ∧
        (m.v = true → overLimit s [d] = none → exec (.recvV d r n) s = .next e ∧ exec (.recvTV d a r n) s = .next e))) ∧
    (s.core.channel n.toNat = [] →
      (∃ t, exec (.recv d r n) s = .next t ∧ t.core.regs = s.core.regs ∧ ∃ k, t.core.wait = .recv n.toNat k) ∧
      (overLimit s [d] = none → ∃ t, exec (.recvV d r n) s = .next t ∧ t.core.regs = s.core.regs ∧
        ∃ k, t.core.wait = .recv n.toNat k) ∧
      exec (.recvT d a r n) s = .next (past ((s.setG d (BitVec.allOnes 64)).setG a (BitVec.allOnes 64))) ∧
      (overLimit s [d] = none → exec (.recvTV d a r n) s = .next (past (s.setG a (BitVec.allOnes 64))))) ∧
    exec (.msgst d n) s = .next (past (s.setG d (word (s.core.msgs.undeliv.toNat * 2 ^ 32 +
      s.waitingOf s.core.thread % 8 * 2 ^ 26 + s.core.freeUnits * 2 ^ 16 + (s.core.channel n.toNat).length : Nat))))

/-- R177, R179, R181, R182: sending and receiving. -/
def Obligations.MessageInstructions : Prop :=
  Claims.MessageSending ∧ Claims.MessageReceiving

/-- R162 to R164, R178, R180: a message that reaches its destination waits at the interface of the thread it is for, or
is counted as undeliverable at its sender; one that reaches a team member from outside the team is held for the next
commit (R374); it enters its channel when the queue has room; a receive that has waited on a channel still empty for the
period of RXWATCH traps. The core acted on is the one in focus. -/
def Obligations.MessageDelivery : Prop :=
  (∀ (i : Nat) (m : Msg) (s : State), s.mesh[i]? = some m →
    (∀ x ∈ s.mesh.take i, ¬ (x.src = m.src ∧ x.dst = m.dst ∧ x.chan = m.chan)) →
    let gone : State := { s with mesh := s.mesh.eraseIdx i }
    (s.receiver m = some s.core.thread → m.chan < s.core.ctl.clim.toNat → s.coresReach (threadCore m.src) m.dst = true →
      exec (.messageArrival i) s = .next { gone with core := { s.core with
        msgs := if s.core.ctl.status.ckpt = true ∧ ¬ m.src ∈ s.teamOf s.core
          then { s.core.msgs with held := s.core.msgs.held ++ [m] }
          else { s.core.msgs with iface := s.core.msgs.iface ++ [m] } } }) ∧
    (s.receiver m = none → m.src = s.core.thread → exec (.messageArrival i) s = .next { gone with core := { s.core with
        msgs := { s.core.msgs with undeliv :=
          if s.core.msgs.undeliv.toNat = 2 ^ 32 - 1 then s.core.msgs.undeliv else s.core.msgs.undeliv + 1 } } })) ∧
  (∀ (m : Msg) (r : List Msg) (s : State), s.core.run = .running → s.core.msgs.iface = m :: r →
    (if m.v then 5 else 1) ≤ s.core.freeUnits →
    exec (.messageEntersChannel s.core.addr.toNat) s = .next { s with core := { s.core with
      latch := true, msgs := { s.core.msgs with queue := s.core.msgs.queue ++ [m], iface := r } } }) ∧
  ∀ (n t0 : Nat) (s : State), s.core.run = .running → s.core.wait = .recv n t0 →
    s.core.ctl.rxwatch.toNat ≤ s.clk - t0 →
    (s.core.channel n ≠ [] → exec (.rxWatchdog s.core.addr.toNat) s = .next s) ∧
    (s.core.channel n = [] → exec (.rxWatchdog s.core.addr.toNat) s = .next (State.trap { s with core := { s.core with
      census := { s.core.census with wd := true, chan := BitVec.ofNat 4 n }
      faults := { s.core.faults with rxwd :=
        if s.core.faults.rxwd.toNat = 2 ^ 32 - 1 then s.core.faults.rxwd else s.core.faults.rxwd + 1 } } }
      (Cause.rxWatchdog, n)))

/-! ## Barriers (R148 to R153, R158, R183 to R188) -/

namespace Sys2Proof.Claims

open Sys2Proof Sys2Proof.Machine

/-- May the core use barrier `n` (R21)? -/
def barrierOk (s : State) (n : BitVec 4) : Prop := s.priv = true ∨ n.toNat < s.core.ctl.blim.toNat

/-- BRECT[n]. -/
def rectOf (s : State) (n : BitVec 4) : Word := s.readCr (0x040 + n.toNat)

/-- An arrival that the core in focus makes now. -/
def arrivalNow (s : State) (n : BitVec 4) (ballot : BitVec 8) (d : BitVec 5) (own : Bool) : Arrival :=
  { ballot := ballot, reg := d, digest := if (rectOf s n).getLsbD 45 then s.planDigest else 0, rect := rectOf s n
    at_ := s.clk, pc := s.pc, own := own }

/-- The state with an arrival on a barrier, and no kept vote. -/
def withArrival (s : State) (n : BitVec 4) (a : Option Arrival) : State :=
  { s with core := { s.core with sync := { s.core.sync with
    arr := s.core.sync.arr.set n.toNat a, voteRes := s.core.sync.voteRes.set n.toNat none } } }

/-- No unreleased arrival on a COMM barrier but on `n` (R183). -/
def onlyComm (s : State) (n : BitVec 4) : Prop :=
  ∀ k a, k ≠ n.toNat → s.core.sync.arr.toList[k]? = some (some a) → a.rect.getLsbD 45 = false

/-- An arrival on a COMM barrier finds no other such barrier awaited, and no uncorrectable error in the DIGEST that it reads
(R158, R183, R379). -/
def commFree (s : State) (n : BitVec 4) : Prop :=
  onlyComm s n ∧ (s.core.info.plans = 0 ∨ intact s s.core.info.planbase 4)

end Sys2Proof.Claims

/-- R152, R183 to R187: the barrier instructions. `arrive` sets the flag and goes on (with the ballot of the current plan
on a COMM barrier, R158), or waits for its own release on a CKPT barrier (R375), or for the release of a flag already
set; `vote` arrives and waits, and a vote already released gets its result; `waitb` goes on while the flag is clear;
`testb` reads the flag; `bdef` sets BRECT[n], for a rectangle with the die and the place of the group added. -/
def Sys2Proof.Claims.BarrierInstructions : Prop :=
  ∀ (d a : BitVec 5) (n : BitVec 4) (s : State), barrierOk s n →
    let x := rectOf s n
    let flag := s.core.sync.arr.toList[n.toNat]?
    (x.getLsbD 47 = true → x.getLsbD 46 = false → (x.getLsbD 45 = true → commFree s n) → flag = some none →
      exec (.arrive n) s = .next (past (withArrival s n (some (arrivalNow s n
        (if x.getLsbD 45 then BitVec.ofNat 8 (2 ^ s.core.sync.plan.toNat) else 0) 0 false))))) ∧
    (x.getLsbD 47 = true → x.getLsbD 46 = true → (x.getLsbD 45 = true → commFree s n) → flag = some none →
      s.core.sync.voteRes.toList[n.toNat]? = some none → s.core.ops = [] → s.core.anyPending = false →
      s.core.lateFaultEntry = none → ∃ t, exec (.arrive n) s = .next t ∧
        t.core.regs = s.core.regs ∧ t.core.wait = .vote n.toNat 0 ∧
        t.core.sync = (withArrival s n (some (arrivalNow s n
          (if x.getLsbD 45 then BitVec.ofNat 8 (2 ^ s.core.sync.plan.toNat) else 0) 0 true))).core.sync) ∧
    (x.getLsbD 47 = true → (x.getLsbD 45 = true → onlyComm s n) → ∀ y, flag = some (some y) →
      ∃ t, exec (.arrive n) s = .next t ∧ t.core.regs = s.core.regs ∧ t.core.sync = s.core.sync ∧ t.core.wait ≠ .no) ∧
    (x.getLsbD 47 = true → x.getLsbD 46 = false → x.getLsbD 45 = true → commFree s n → flag = some none →
      s.core.gang.role = .alone →
      (s.core.sync.voteRes.toList[n.toNat]? = some none → ∃ t, exec (.vote d a n) s = .next t ∧
        t.core.regs = s.core.regs ∧ t.core.wait = .vote n.toNat d ∧
        t.core.sync = (withArrival s n (some (arrivalNow s n (BitVec.ofNat 8 (un s a)) d true))).core.sync) ∧
      ∀ v, s.core.sync.voteRes.toList[n.toNat]? = some (some (s.pc, v)) → exec (.vote d a n) s = .next
        (past (State.setG { s with core := { s.core with sync := { s.core.sync with
          voteRes := s.core.sync.voteRes.set n.toNat none } } } d v))) ∧
    (x.getLsbD 47 = true → flag = some none → exec (.waitb n) s = .next (past s)) ∧
    (x.getLsbD 47 = true → ∀ y, flag = some (some y) → ∃ t, exec (.waitb n) s = .next t ∧
      t.core.wait = .barrier n.toNat ∧ t.core.regs = s.core.regs) ∧
    (x.getLsbD 47 = false → exec (.waitb n) s = .next (s.trap (Cause.barrier, n.toNat)) ∧
      exec (.arrive n) s = .next (s.trap (Cause.barrier, n.toNat))) ∧
    exec (.testb d n) s = .next (past (s.setG d (word ((if flag = some none then 0 else 1) +
      2 * (s.core.sync.phaseBits.getLsbD n.toNat).toNat + 4 * (x.getLsbD 47).toNat + 8 * (x.getLsbD 45).toNat)))) ∧
    (flag = some none → s.core.bdefOk (s.g a) = true → (s.g a).getLsbD 46 = false →
      (s.core.ctl.status.ckpt = true → x.getLsbD 47 = false ∨ x.getLsbD 46 = false) →
      ∃ t, exec (.bdef a n) s = .next t ∧ t = withCtl (past { s with core := { s.core with sync := { s.core.sync with
        phaseBits := t.core.sync.phaseBits } } }) { s.core.ctl with brect := t.core.ctl.brect } ∧
        (∀ k, (t.core.sync.phaseBits.getLsbD k) = if k = n.toNat then false else s.core.sync.phaseBits.getLsbD k) ∧
        (∀ k, k ≠ n → rectOf t k = rectOf s k) ∧
        ((s.g a = 0 ∨ (s.g a).getLsbD 44 = true) → rectOf t n = s.g a) ∧
        ((s.g a).getLsbD 47 = true → (s.g a).getLsbD 44 = false →
          (rectOf t n).extractLsb' 0 4 = (s.g a).extractLsb' 0 4 + BitVec.ofNat 4 s.core.info.col0 ∧
          (rectOf t n).extractLsb' 4 4 = (s.g a).extractLsb' 4 4 + BitVec.ofNat 4 s.core.info.row0 ∧
          (rectOf t n).extractLsb' 8 24 = (s.g a).extractLsb' 8 24 ∧
          (rectOf t n).extractLsb' 32 3 = BitVec.ofNat 3 (dieOf s.core.addr.toNat) ∧
          (rectOf t n).extractLsb' 35 29 = (s.g a).extractLsb' 35 29))

/-- R151, R152, R158, R186, R375, R412: a release is due once every member has arrived and its delay has passed, takes its T0
from the last arrival of a member, and takes effect on all its members in one clk: a member's flag clears, its phase bit inverts, its
latch is set, and where its instruction waits for its own release it gets the AND and OR of the ballots and goes on. -/
def Sys2Proof.Claims.BarrierRelease : Prop :=
  (∀ (c n : Nat) (s : State) (l : List (Nat × Arrival)) (r : RelInfo), s.releaseReady (s.getCore c) n = some (l, r) →
    exec (.barrierRelease c n) s = .next ((l.foldl (State.releaseThread r) s).commitTeam r l) ∧
    r.n = n ∧ r.t0 ≤ s.clk ∧
    (∃ ms, s.members (s.getCore c) ((s.getCore c).brect n) = some ms ∧ (∀ k ∈ ms, ∃ y ∈ l, y.1 = k) ∧
      (∀ y ∈ l, y.1 ∈ ms → y.2.at_ + s.releaseDelay (s.getCore c) ((s.getCore c).brect n) ≤ r.t0) ∧
      (ms ≠ [] → ∃ y ∈ l, y.1 ∈ ms ∧ y.2.at_ + s.releaseDelay (s.getCore c) ((s.getCore c).brect n) = r.t0)) ∧
    (∀ k, k < 8 →
      (r.andB.getLsbD k = true ↔ ∀ y ∈ l, y.2.ballot.getLsbD k = true) ∧
      (r.orB.getLsbD k = true ↔ ∃ y ∈ l, y.2.ballot.getLsbD k = true))) ∧
  (∀ (c : Core) (x : Word) (s : State), brDom x = false →
    s.releaseDelay c x = 2 * ((x.extractLsb' 16 5).toNat + (x.extractLsb' 8 5).toNat) + 4) ∧
  ∀ (s : State) (r : RelInfo) (a : Arrival), r.n < 16 → s.core.run = .running →
    let t := s.releaseThread r (s.core.thread, a)
    t.core.sync.arr.toList[r.n]? = some none ∧
    (∀ k, k < 16 → t.core.sync.phaseBits.getLsbD k = ((s.core.sync.phaseBits.getLsbD k) != decide (k = r.n))) ∧
    t.core.latch = true ∧ t.mem = s.mem ∧ t.core.ctl = s.core.ctl ∧
    (a.own = true → s.core.wait = .vote r.n a.reg → t.core.wait = .no ∧ t.pc = a.pc + 4 ∧
      (∀ k, k ≠ a.reg → t.g k = s.g k) ∧ (a.reg ≠ 0 → t.g a.reg = r.result)) ∧
    (a.own = false → t.core.regs = s.core.regs ∧ t.core.wait = s.core.wait)

/-- R151, R152, R158, R183 to R187, R375: barriers, their instructions and their release. -/
def Obligations.Barriers : Prop :=
  Claims.BarrierInstructions ∧ Claims.BarrierRelease

/-! ## Gangs (R144 to R147, R189 to R192) -/

/-- R190, R191: `follow` refuses a leader that is not near, is the core itself, or cannot be followed as it stands, or sends its
request and waits; a leader in the middle of no word and outside a frame takes it, and the follower's pc is the leader's, or refuses it with
its status; `split` dissolves the gang; `gangst` reads it, a follower the size its leader's word carried. -/
def Obligations.GangInstructions : Prop :=
  (∀ (d a : BitVec 5) (s : State), s.core.gang.asked = none → un s a < 2 ^ 23 →
    (nearLeader s.core.addr.toNat (un s a) = false → exec (.follow d a) s = .next (past (s.setG d 1))) ∧
    (un s a = s.core.addr.toNat → nearLeader s.core.addr.toNat (un s a) = true →
      exec (.follow d a) s = .next (past (s.setG d 2))) ∧
    (∀ x, nearLeader s.core.addr.toNat (un s a) = true → un s a ≠ s.core.addr.toNat →
      leaderRefusal (s.getCore (un s a)) s.core = some x → exec (.follow d a) s = .next (past (s.setG d x))) ∧
    (nearLeader s.core.addr.toNat (un s a) = true → un s a ≠ s.core.addr.toNat →
      leaderRefusal (s.getCore (un s a)) s.core = none →
      let t := s.setG d 0
      exec (.follow d a) s = .next { t with
        follows := s.follows ++ [(s.core.addr.toNat, un s a)]
        core := { t.core with wait := .task, gang := { s.core.gang with asked := some (un s a, d) } } })) ∧
  (∀ (d a : BitVec 5) (s : State),
    (s.core.gang.asked = none → 2 ^ 23 ≤ un s a → exec (.follow d a) s = .next (s.trap (Cause.bounds, un s a))) ∧
    ∀ q, s.core.gang.asked = some q → exec (.follow d a) s = .next (waits s .task)) ∧
  (∀ (l f : Nat) (d : BitVec 5) (m : Nat) (s : State) (x : Word), (f, l) ∈ s.follows →
    (s.getCore f).gang.asked = some (m, d) → leaderRefusal (s.getCore l) (s.getCore f) = some x →
    ∃ t, exec (.followRequestTaken l f) s = .next t ∧ t.follows = s.follows.erase (f, l) ∧ t.mem = s.mem ∧
      (t.getCore f).regs = { ((s.getCore f).setG d x).regs with pc := (s.getCore f).regs.pc + 4 } ∧
      (t.getCore f).wait = .no ∧ (t.getCore f).gang = { (s.getCore f).gang with asked := none }) ∧
  (∀ (l f : Nat) (d : BitVec 5) (m : Nat) (s : State), (f, l) ∈ s.follows → (s.getCore l).run = .running →
    (s.getCore l).frame = none → (s.getCore l).outst = none → (s.getCore l).wait = .no →
    (s.getCore f).gang.asked = some (m, d) → leaderRefusal (s.getCore l) (s.getCore f) = none → l ≠ f →
    ∃ t, exec (.followRequestTaken l f) s = .next t ∧ t.follows = s.follows.erase (f, l) ∧ t.mem = s.mem ∧
      (t.getCore f).regs = { (s.getCore f).regs with pc := (s.getCore l).regs.pc } ∧ (t.getCore f).wait = .no ∧
      (∃ i, (t.getCore f).gang =
          { role := .follower l i, stream := [], begun := none, size := (s.getCore l).members.length + 2, asked := none } ∧
        (t.getCore l).gang.role = .leader ((s.getCore l).members ++ [(f, i)])) ∧
      (t.getCore l).regs = (s.getCore l).regs) ∧
  (∀ s : State, (s.core.gang.role = .alone → exec .split s = .next (past s)) ∧
    ∃ t, exec .split s = .next t ∧ t.core.gang.role = .alone ∧ t.core.regs = { s.core.regs with pc := s.pc + 4 } ∧
      t.core.ctl = s.core.ctl ∧ t.mem = s.mem) ∧
  ∀ (d : BitVec 5) (s : State), ∃ x, exec (.gangst d) s = .next (past (s.setG d x)) ∧
    (s.core.gang.role = .alone → x = word (1 + s.core.addr.toNat * 2 ^ 32 : Nat)) ∧
    (∀ ms, s.core.gang.role = .leader ms → x = word (ms.length + 1 + 2 ^ 8 + s.core.addr.toNat * 2 ^ 32 : Nat)) ∧
    ∀ l i, s.core.gang.role = .follower l i →
      x = word (s.core.gang.size + i * 16 + 2 * 2 ^ 8 + l * 2 ^ 32 : Nat)

/-! ## Timetabled exchange (R154 to R161, R193 to R199) -/

namespace Sys2Proof.Claims

open Sys2Proof Sys2Proof.Machine

/-- The state in which the core in focus has another phase. -/
def withPhase (s : State) (p : Option Phase) : State :=
  { s with core := { s.core with sync := { s.core.sync with phase := p } } }

/-- No phase of the core in focus is open: there is none, or its length is over and no `ttsend` is under way (R154). -/
def closed (s : State) : Prop :=
  ∀ p, s.core.sync.phase = some p → p.t0 + p.length ≤ s.clk ∧ p.sending = none

/-- No trap is pending that the release of a COMM barrier left (R194). -/
def noCommTrap (s : State) : Prop :=
  ∀ x ∈ s.core.sync.relCause, x.1 ≠ Cause.planMismatch ∧
    (x.1 = Cause.barrier → (s.core.brect (x.2.toNat % 16)).getLsbD 45 = false)

/-- No such trap is pending that the instruction waited for. -/
def noneAwaited (s : State) : Prop := noCommTrap s ∨ s.core.wait ≠ .task

/-- What R195 and R196 ask of an entry at offset `c` and of the address word `x` of its instruction. -/
def slotOk (s : State) (p : Phase) (recv : Bool) (c : Nat) (x : Word) (e : PlanEntry) : Prop :=
  let a := x.toNat % 2 ^ 21
  let n := 64 * e.beats
  ¬ (2 * c + recv.toNat) ∈ p.used ∧ x.extractLsb' 21 42 = 0 ∧ a % 64 = 0 ∧ a + n ≤ 0x180000 ∧
  (s.priv = true ∨ a + n ≤ s.core.ctl.lslim.toNat) ∧ s.core.lockHit a n = false ∧ s.clk ≤ p.t0 + c

end Sys2Proof.Claims

/-- R194 to R199: the exchange instructions of a core that is alone. `ttsend` hands its beats to its slot, `ttrecv` arms
its destination, and each raises SLOT without an open phase or an entry, or waits for the release that will open one;
`comm` returns the report of the phase that has closed, `ttplan` makes a well-formed plan current, where a COMM barrier of the
core that spans packages allows a remote PEER (notes/assumptions/36.md). An uncorrectable error in the bytes of the plan that
they read raises UNCORR (R379). -/
def Sys2Proof.Claims.ExchangeInstructions : Prop :=
  ∀ (d a : BitVec 5) (c : BitVec 16) (r : BitVec 1) (s : State), s.core.gang.role = .alone →
    (s.core.sync.phase = none → s.core.commArrival = false →
      (r = 1 ∨ (s.core.sync.report.toNat / 2 ^ 16) % 2 ^ 16 = 0) →
      exec (.comm d r) s = .next (past (s.setG d s.core.sync.report))) ∧
    (s.core.sync.phase = none → s.core.commArrival = false → r = 0 → (s.core.sync.report.toNat / 2 ^ 16) % 2 ^ 16 ≠ 0 →
      exec (.comm d r) s = .next (s.trap (Cause.formatMismatch, s.core.sync.report.toNat))) ∧
    (∀ e, s.core.sync.phase = none → s.planError s.core.commRects (un s a) = some e →
      exec (.ttplan d a) s = .next (s.trap (Cause.uncorr, e))) ∧
    (s.core.sync.phase = none → s.planError s.core.commRects (un s a) = none → ∃ x, exec (.ttplan d a) s = .next (past (State.setG
      (if x = 0 then { s with core := { s.core with sync := { s.core.sync with plan := BitVec.ofNat 3 (un s a) } } } else s)
      d x)) ∧ x = word (s.planCheck s.core.commRects (un s a) : Nat)) ∧
    (s.core.sync.phase ≠ none ∨ s.core.commArrival = true → exec (.comm d r) s = .next (waits s .task)) ∧
    (s.core.sync.phase ≠ none → exec (.ttplan d a) s = .next (waits s .task)) ∧
    (closed s → s.core.commArrival = false → noneAwaited s →
      exec (.ttsend c a) s = .next (s.trap (Cause.slot, c.toNat)) ∧
      exec (.ttrecv c a) s = .next (s.trap (Cause.slot, c.toNat))) ∧
    (closed s → s.core.commArrival = true ∨ ¬ noneAwaited s →
      exec (.ttsend c a) s = .next (waits s .task) ∧ exec (.ttrecv c a) s = .next (waits s .task)) ∧
    ∀ p, s.core.sync.phase = some p → s.clk < p.t0 + p.length →
      (∀ e, s.slotError p false c.toNat = some e → p.sending = none → exec (.ttsend c a) s = .next (s.trap e)) ∧
      (∀ e, s.slotError p true c.toNat = some e → exec (.ttrecv c a) s = .next (s.trap e)) ∧
      (p.sending = none → s.slotEntry p false c.toNat = none → s.slotError p false c.toNat = none →
        exec (.ttsend c a) s = .next (s.trap (Cause.slot, c.toNat + 2 * 2 ^ 16))) ∧
      (s.slotEntry p true c.toNat = none → s.slotError p true c.toNat = none →
        exec (.ttrecv c a) s = .next (s.trap (Cause.slot, c.toNat + 2 * 2 ^ 16))) ∧
      (∀ e, p.sending = none → s.slotEntry p false c.toNat = some e → s.slotError p false c.toNat = none → slotOk s p false c.toNat (s.g a) e →
        let y : Sending :=
          { slot := c.toNat, beats := e.beats, peer := e.peer, src := un s a % 2 ^ 21, nt := (s.g a).getLsbD 63,
            next := 0 }
        exec (.ttsend c a) s = .next (waits (withPhase s (some { p with
          used := 2 * c.toNat :: p.used, sending := some y })) .other)) ∧
      ∀ e, s.slotEntry p true c.toNat = some e → s.slotError p true c.toNat = none → slotOk s p true c.toNat (s.g a) e →
        let y : ArmedRecv :=
          { slot := c.toNat, beats := e.beats, peer := e.peer, dst := un s a % 2 ^ 21, topx := s.core.ctl.status.topx,
            seen := [] }
        exec (.ttrecv c a) s = .next (past (withPhase s (some { p with
          used := (2 * c.toNat + 1) :: p.used, armed := p.armed ++ [y] })))

/-- R154, R159, R160, R195 to R198: at its offset a beat leaves with the 64 bytes it finds, and the last one completes
`ttsend`, which an uncorrectable error in them ends with UNCORR (R379); a beat that arrives for an armed entry is written,
one under another TOPX and marked is counted as mismatched, one that does not come is missed; the phase closes with its
report. The core is the one in focus. -/
def Sys2Proof.Claims.ExchangePhase : Prop :=
  ∀ (s : State) (p : Phase), s.core.sync.phase = some p → let c := s.core.addr.toNat
    (∀ y, p.sending = some y → p.t0 + y.slot + y.next ≤ s.clk → ¬ intact s (y.src + 64 * y.next) 64 →
      exec (.exchangeBeatSend c) s = .next (State.trap (withPhase s (some { p with sending := none }))
        (Cause.uncorr, y.src + 64 * y.next))) ∧
    (∀ y, p.sending = some y → p.t0 + y.slot + y.next ≤ s.clk → intact s (y.src + 64 * y.next) 64 → y.next + 1 < y.beats →
      let b : Beat :=
        { src := c, dst := y.peer, sent := p.t0 + y.slot + y.next,
          data := BitVec.ofNat 512 (s.localRead (y.src + 64 * y.next) 64), topx := s.core.ctl.status.topx, nt := y.nt }
      exec (.exchangeBeatSend c) s = .next { withPhase s (some { p with sending := some { y with next := y.next + 1 } }) with
        beats := s.beats ++ [b] }) ∧
    (∀ y, p.sending = some y → p.t0 + y.slot + y.next ≤ s.clk → intact s (y.src + 64 * y.next) 64 → y.beats ≤ y.next + 1 →
      ∃ t, exec (.exchangeBeatSend c) s = .next t ∧ t.core.sync.phase = some { p with sending := none } ∧
        t.core.regs = { s.core.regs with pc := s.pc + 4 } ∧ t.core.wait = .no ∧ t.beats.length = s.beats.length + 1) ∧
    (∀ q k, p.armed = [q] → k < q.beats → ¬ k ∈ q.seen → p.t0 + q.slot + k ≤ s.clk →
      s.beatsOwed (p.t0 + q.slot + k - 6) = false →
      let mark := fun w m => withPhase s (some { p with
        written := p.written + w, mismatch := p.mismatch + m, armed := [{ q with seen := k :: q.seen }] })
      (s.beatAt q.peer (p.t0 + q.slot + k) = none → exec (.exchangeBeatReceive c q.slot k) s = .next (mark 0 0)) ∧
      ∀ b, s.beatAt q.peer (p.t0 + q.slot + k) = some b →
        (b.nt = true → b.topx ≠ q.topx → exec (.exchangeBeatReceive c q.slot k) s = .next (mark 0 1)) ∧
        (b.nt = false ∨ b.topx = q.topx → ∃ t, exec (.exchangeBeatReceive c q.slot k) s = .next t ∧
          t.core.sync = (mark 1 0).core.sync ∧ t.core.regs = s.core.regs ∧
          (s.core.ctl.status.ckpt = false → t.localBytes (q.dst + 64 * k) 64 = natLe 64 b.data.toNat))) ∧
    (p.t0 + p.length ≤ s.clk → s.phaseSettled p = true → ∃ t, exec (.phaseClose c) s = .next t ∧
      t.core.sync = { s.core.sync with
        phase := none, phases := s.core.sync.phases + 1
        report := word ((s.core.sync.phases + 1).toNat * 2 ^ 40 + p.plan.toNat * 2 ^ 32 +
          min p.mismatch 0xFFFF * 2 ^ 16 + min (s.planBeats p.plan.toNat - p.written - p.mismatch) 0xFFFF : Nat) } ∧
      t.core.regs = s.core.regs ∧ t.mem = s.mem)

/-- R154, R159, R160, R194 to R199, R379: the exchange, its instructions and its phases; the barriers by which `ttplan` allows a
remote PEER are the model's choice (notes/assumptions/36.md). -/
def Obligations.Exchange : Prop :=
  Claims.ExchangeInstructions ∧ Claims.ExchangePhase

/-! ## Off-core accesses (R205 to R216, R239, R240, R259 to R267, R409, R410) -/

namespace Sys2Proof.Claims

open Sys2Proof Sys2Proof.Machine

/-- An access of `n` bytes at `va` that goes off the core: outside every held window, translated by an entry of the core's
table that passes the checks of R212, aligned where it is ordered, atomic or to a sync range, and off every span that
a pending operation holds (R259). -/
def goesOff (s : State) (va : Word) (n : Nat) (k : AccKind) (ordered : Bool) (x : Xlat) : Prop :=
  s.core.heldWindow va.toNat n = none ∧ va.toNat < 2 ^ 60 ∧
  (∃ e, s.core.tableFind va.toNat = some e ∧ e.state ≠ .moving ∧ e.entry.check va.toNat k n = none ∧
    x = e.entry.xlat va.toNat) ∧
  (x.kind = 2 ∨ ordered = true ∨ k = .threadAtomic → va.toNat % n = 0) ∧ s.core.offLockHit va.toNat n = false

/-- The state with the entry that translated the access used last (R215). -/
def used (s : State) (x : Xlat) : State := s.on (·.touch x.base)

/-- A load or atomic has been performed and waits for its data; `g[d]` is not written yet (R260). -/
def awaits (s : State) (d : BitVec 5) (va data : Word) (flags : BitVec 6) (host so : Bool) (base : Nat) : State :=
  let o : Outstanding :=
    { d := d, va := va, data := data, flags := flags, reason := none, answered := !host, so := so, since := s.clk,
      uses := base }
  { s with core := { s.core with wait := .other, outst := some o } }

/-- `n` bytes of stacked memory at a DPA that the core in focus reaches, with the key of the first. -/
def stackedAt (s : State) (pa : Nat) (place : BitVec 2) (n k : Nat) : Prop :=
  targetOf pa = .stacked ∧ dpaLocal pa + n ≤ stackedSize ∧ s.offKey pa place = some k ∧
  s.reachesSpan s.core.addr.toNat pa place n = true

/-- The value of `n` loaded bytes in a register. -/
def extended (zero : Bool) (n x : Nat) : Word := if zero then word x else word (BitVec.ofNat (8 * n) x).toInt

/-- A form that a team member may not execute raises TEAM_OP with its word (R335, R373) once its own checks hold. -/
def teamTraps (i : Instr) (ok : State → Prop) : Prop :=
  ∀ s, ok s → s.core.ctl.status.ckpt = true →
    ∃ w, encode i = some w ∧ exec i s = .next (s.trap (Cause.teamOp, w.toNat))

/-- What an atomic on `w`-bit values does (R264): the new value from the old one, the operand and the value expected. It
reads the newest write of its bytes (R232), its new value is written in the same step, an `.ar` one acquires and then
releases at its scope (R234), and the old value is on its way to `g[d]`. -/
def atomics (i : BitVec 5 → BitVec 5 → BitVec 5 → BitVec 1 → BitVec 1 → BitVec 4 → Instr) (zero : Bool)
    (f : Nat → Nat → Nat → Nat → Nat × BitVec 6) : Prop :=
  (∀ d a b r z p, teamTraps (i d a b r z p) (fun s => s.core.outst = none)) ∧
  ∀ (d a b : BitVec 5) (r z : BitVec 1) (p : BitVec 4) (s : State) (x : Xlat) (k : Nat),
    let n := if z = 0 then 4 else 8
    let old := leNat (s.mem.bytes k n)
    let res := f (8 * n) old (un s b % 2 ^ (8 * n)) (un s d % 2 ^ (8 * n))
    s.core.outst = none → s.core.ctl.status.ckpt = false → goesOff s (s.g a) n .threadAtomic (decide (r = 1)) x →
    stackedAt s x.pa x.place n k → s.poisonHit k n = false → s.orderedHit x.place x.pa n = false → (r = 1 → s.holdsOrdered = false) →
    let u := (used s x).atomWrite x n (natLe n res.1) (if r = 1 then some p.toNat else none)
    exec (i d a b r z p) s = .next (awaits u d (s.g a) (extended zero n old) res.2 false false x.base) ∧
    u.mem = s.mem.writeBytes k (natLe n res.1) ∧ u.core.regs = s.core.regs ∧ u.core.ctl = s.core.ctl

end Sys2Proof.Claims

/-- R262, R260: a load outside every held window is performed at its place and answered later; where no write to its
bytes is recorded, it reads what memory holds; in a held window it answers at once. The events bring the data, the
failure or the timeout; only the data writes `g[d]`, and a failure is counted. A team member sees its own buffered
stores (R261). -/
def Sys2Proof.Claims.OffCoreLoads : Prop :=
  (∀ (d a b : BitVec 5) (z : BitVec 1) (c : BitVec 2) (p : BitVec 4) (s : State), s.core.outst = none →
    let n := 2 ^ c.toNat
    let va := s.g a + s.g b
    (∀ x v, let u := used s x
      let r := loadMode x.kind
      u.readAt s.core.addr.toNat x.pa x.place n r = .ok v → s.orderedHit x.place x.pa n = false →
      let t := fun acq => awaits (u.observeAt x.pa x.place n r acq) d va
        (extended (decide (z = 1)) n (u.overlay x.pa x.place n v)) 0 (isHostAddr x.pa) (isScaleOut x.pa) x.base
      (goesOff s va n .threadRead false x → exec (.ldx d a b z c p) s = .next (t none)) ∧
      (goesOff s va n .threadRead true x → exec (.ldxAcq d a b z c p) s = .next (t (some p.toNat)))) ∧
    (∀ x k, stackedAt s x.pa x.place n k → s.poisonHit k n = false → s.order.touching k n = [] → s.orderedHit x.place x.pa n = false →
      let t := awaits (used s x) d va (extended (decide (z = 1)) n (s.overlay x.pa x.place n (leNat (s.mem.bytes k n)))) 0
        false false x.base
      (goesOff s va n .threadRead false x → exec (.ldx d a b z c p) s = .next t) ∧
      (goesOff s va n .threadRead true x → exec (.ldxAcq d a b z c p) s = .next t)) ∧
    (∀ x, s.orderedHit x.place x.pa n = true → goesOff s va n .threadRead false x →
      exec (.ldx d a b z c p) s = .next (waits (used s x) .other)) ∧
    (∀ h, s.core.heldWindow va.toNat n = some h → s.core.lockHit h.1 n = false → intact s h.1 n →
      let t := past (s.setG d (extended (decide (z = 1)) n (s.localRead h.1 n)))
      exec (.ldx d a b z c p) s = .next t ∧ (va.toNat % n = 0 → exec (.ldxAcq d a b z c p) s = .next t)) ∧
    (s.core.heldWindow va.toNat n = none → 2 ^ 60 ≤ va.toNat →
      exec (.ldx d a b z c p) s = .next (s.trap (Cause.range, va.toNat % 2 ^ 60 + 2 ^ 60)))) ∧
  ∀ (s : State) (o : Outstanding), s.core.outst = some o → let c := s.core.addr.toNat
    let free : State := { s with core := { s.core with outst := none, wait := .no } }
    let counted : State := { free with core := { free.core with faults := { s.core.faults with
      memfail := BitVec.ofNat 32 (min (2 ^ 32 - 1) (s.core.faults.memfail.toNat + 1)) } } }
    let done := past (withCtl (free.setG o.d o.data) { s.core.ctl with fstat := s.core.ctl.fstat ||| o.flags })
    let failed := fun r => counted.trap (Cause.memory, o.va.toNat % 2 ^ 60 + 2 ^ 60 * r)
    (o.answered = true → o.reason = none → exec (.loadDataReturn c) s = .next done) ∧
    (o.answered = true → ∀ r, o.reason = some r → exec (.loadDataReturn c) s = .next (failed r.toNat)) ∧
    (2 ^ 22 ≤ s.clk - o.since → exec (.memoryResponseTimeout c) s = .next (failed 2)) ∧
    (o.answered = false → o.reason = none → exec (.hostReadCompletion c true) s = .next done) ∧
    (o.answered = false → exec (.hostReadCompletion c false) s = .next (failed 3))

/-- R262, R263, R409: a store outside every held window is counted on its path and performed at its place, its
acknowledgement on the way; `stx.of` to another package is held with the count of the writes before it; in a window
held exclusive a store is a local write; a team member's store waits in its outbound buffer (R261). One to bytes that a
held ordered store of the thread writes waits for it, and so does a releasing one for any (notes/assumptions/12.md). -/
def Sys2Proof.Claims.OffCoreStores : Prop :=
  (∀ (d a b : BitVec 5) (c : BitVec 2) (p : BitVec 4) (s : State),
    let n := 2 ^ c.toNat
    let va := s.g a + s.g b
    (∀ x, s.core.ctl.status.ckpt = false → s.orderedHit x.place x.pa n = false →
      let u := used s x
      let done := fun rel => past (u.post (u.stands (decide (x.kind = 2)) rel false) x.pa x.place n (un s d) x.base)
      (goesOff s va n .threadWrite false x → exec (.stx d a b c p) s = .next (done none)) ∧
      (goesOff s va n .threadWrite true x →
        (s.holdsOrdered = false → exec (.stxRel d a b c p) s = .next (done (some p.toNat))) ∧
        (s.holdsOrdered = false → dpaPkg x.pa = pkgOf s.core.addr.toNat → x.hord = false →
          exec (.stxOf d a b c p) s = .next (done (some p.toNat))) ∧
        (dpaPkg x.pa ≠ pkgOf s.core.addr.toNat → s.reachesAt s.core.addr.toNat x.pa x.place = true →
          exec (.stxOf d a b c p) s = .next (past (u.postOrdered x p.toNat n va (s.g d)))) ∧
        (s.holdsOrdered = true → exec (.stxRel d a b c p) s = .next (waits u .other)))) ∧
    (∀ x, s.core.ctl.status.ckpt = false → s.orderedHit x.place x.pa n = true → goesOff s va n .threadWrite false x →
      exec (.stx d a b c p) s = .next (waits (used s x) .other)) ∧
    (∀ x, s.core.ctl.status.ckpt = true → 32 ≤ s.core.outFree →
      let t := fun of rel => past ((used s x).outPush (.stx va n (s.g d) of x.pa x.place x.kind x.hord x.base rel))
      (goesOff s va n .threadWrite false x → exec (.stx d a b c p) s = .next (t false none)) ∧
      (goesOff s va n .threadWrite true x → exec (.stxRel d a b c p) s = .next (t false (some p.toNat)) ∧
        exec (.stxOf d a b c p) s = .next (t true (some p.toNat)))) ∧
    (∀ h, s.core.heldWindow va.toNat n = some (h, true) → s.core.lockHit h n = false →
      exec (.stx d a b c p) s = .next (past (s.localWrite h n (un s d))) ∧
      (va.toNat % n = 0 → exec (.stxRel d a b c p) s = .next (past (s.localWrite h n (un s d))) ∧
        exec (.stxOf d a b c p) s = .next (past (s.localWrite h n (un s d))))) ∧
    (∀ h, s.core.heldWindow va.toNat n = some (h, false) →
      exec (.stx d a b c p) s = .next (s.trap (Cause.range, va.toNat % 2 ^ 60 + 2 * 2 ^ 60)))) ∧
  (∀ (s : State) (w : WStand) (pa : Nat) (place : BitVec 2) (n x base k : Nat), dpaPkg pa = pkgOf s.core.addr.toNat →
    stackedAt s pa place n k →
    let t := s.post w pa place n x base
    let p : Posted := { core := s.core.thread, n := 1, path := 0, pkg := dpaPkg pa, failed := false, uses := some base }
    t.mem = s.mem.writeBytes k (natLe n x) ∧ t.core.paths.cnt = s.core.paths.cnt.set 0 (s.core.paths.cnt[0] + 1) ∧
    t.posted = s.posted ++ [p] ∧ t.core.regs = s.core.regs ∧ t.core.ctl = s.core.ctl) ∧
  ∀ (s : State) (x : Xlat) (scope n : Nat) (va v : Word), let q := dpaPkg x.pa
    let t := s.postOrdered x scope n va v
    t.mem = s.mem ∧ t.core.regs = s.core.regs ∧ t.core.ctl = s.core.ctl ∧ t.ordered.length = s.ordered.length + 1 ∧
    ∃ o ∈ t.ordered, o.core = s.core.thread ∧ o.pkg = q ∧ o.dpa = x.pa ∧ o.n = n ∧ o.data = v ∧ o.scope = scope ∧
      o.carried = agetD s.core.paths.perPkg q 0

/-- R260, R262, R263, R409: loads and stores off the core. That a write is performed, and a load reads, at its issue
(notes/assumptions/10.md), that a store or a load of bytes that a held ordered store of the thread writes waits for it
(notes/assumptions/12.md), and the counter of failed accesses (notes/assumptions/15.md) are the model's. -/
def Obligations.OffCoreAccess : Prop :=
  Claims.OffCoreLoads ∧ Claims.OffCoreStores

/-- R239, R240, R410: an acknowledgement takes its write off the path counter, and counts it where it failed; an ordered
store is performed once the writes it counts have settled, and every earlier one of its core to the package, one to a range
with HORD after the host's earlier writes (R241), and is reported as failed where its target cannot be reached, or after 2^24
clk. The thread of the acknowledgement is that of the core in focus; a failure is counted (notes/assumptions/15.md). -/
def Sys2Proof.Claims.WriteAcknowledgements : Prop :=
  (∀ (i : Nat) (p : Posted) (s : State) (h : p.path < 7), s.posted[i]? = some p → p.core = s.core.thread →
    exec (.writeAcknowledgement i) s = .next { s with
      posted := s.posted.eraseIdx i
      core := { s.core with paths := { s.core.paths with
        cnt := s.core.paths.cnt.set p.path (s.core.paths.cnt[p.path] - BitVec.ofNat 32 p.n)
        failed := if p.failed then s.core.paths.failed.set p.path
          (BitVec.ofNat 32 (min (2 ^ 32 - 1) (s.core.paths.failed[p.path].toNat + p.n))) else s.core.paths.failed } } }) ∧
  ∀ (i : Nat) (o : OrdStore) (s : State), s.ordered[i]? = some o →
    let ack := fun (f : Bool) =>
      ({ core := o.core, n := 1, path := o.path, pkg := o.pkg, failed := f, uses := o.uses } : Posted)
    (o.since.isSome = true → (s.settled o.core o.pkg - o.carried).toNat < 2 ^ 31 →
      s.copiesOwed o.core o.pkg (fun p => decide ((o.mark - p.seq - 1).toNat < 2 ^ 15)) = 0 →
      (∀ p ∈ s.ordered, p.core = o.core → p.pkg = o.pkg → o.bound ≤ p.bound) →
      let u := s.afterHost o.pkg o.hord
      (o.hord = false → u = s) ∧
      (∀ k, targetOf o.dpa = .stacked → dpaLocal o.dpa + o.n ≤ stackedSize → s.offKey o.dpa o.place = some k →
        s.reachesSpan (threadCore o.core) o.dpa o.place o.n = true →
        ∃ t, exec (.orderedStoreRelease i) s = .next t ∧ t.mem = u.mem.writeBytes k (natLe o.n o.data.toNat) ∧
          t.posted = s.posted ++ [ack false] ∧ t.ordered.length + 1 = s.ordered.length ∧
          t.core.regs = s.core.regs ∧ t.core.ctl = s.core.ctl) ∧
      (s.reachesSpan (threadCore o.core) o.dpa o.place o.n = false →
        ∃ t, exec (.orderedStoreRelease i) s = .next t ∧ t.mem = u.mem ∧ t.posted = s.posted ++ [ack true] ∧
          t.ordered.length + 1 = s.ordered.length ∧ t.core.regs = s.core.regs ∧ t.core.ctl = s.core.ctl)) ∧
    (∀ t0, o.since = some t0 → 2 ^ 24 ≤ s.clk - t0 →
      ∃ t, exec (.orderedStoreTimeout i) s = .next t ∧ t.mem = s.mem ∧ t.posted = s.posted ++ [ack true] ∧
        t.ordered.length + 1 = s.ordered.length ∧ t.core.regs = s.core.regs ∧ t.core.ctl = s.core.ctl ∧
        (o.core = s.core.thread → t.core = { s.core with faults := { s.core.faults with
          memfail := BitVec.ofNat 32 (min (2 ^ 32 - 1) (s.core.faults.memfail.toNat + 1)) } }))

/-- R264: the atomics, each with its new value, and the old value for `g[d]`, zero-extended for `minz`, `maxz` and
`fadd`. -/
def Obligations.AtomicOperations : Prop :=
  let s := fun (w x : Nat) => (BitVec.ofNat w x).toInt
  atomics .atomAdd false (fun w x y _ => ((x + y) % 2 ^ w, 0)) ∧
  atomics .atomAnd false (fun _ x y _ => (x &&& y, 0)) ∧ atomics .atomOr false (fun _ x y _ => (x ||| y, 0)) ∧
  atomics .atomXor false (fun _ x y _ => (x ^^^ y, 0)) ∧
  atomics .atomMin false (fun w x y _ => (code w (min (s w x) (s w y)), 0)) ∧
  atomics .atomMax false (fun w x y _ => (code w (max (s w x) (s w y)), 0)) ∧
  atomics .atomMinz true (fun _ x y _ => (min x y, 0)) ∧ atomics .atomMaxz true (fun _ x y _ => (max x y, 0)) ∧
  atomics .atomSwap false (fun _ _ y _ => (y, 0)) ∧
  atomics .atomCas false (fun _ x y e => (if x = e then y else x, 0)) ∧
  atomics .atomFadd true (fun w x y _ =>
    let f := if w = 32 then fp32 else fp64
    rounded f rmRNE 0 (sumX [f.decode x, f.decode y] rmRNE))

/-- R265 to R267, R236, R238: the fences change what is visible to the thread and what its later writes publish, no
register and no byte of memory. `fence.acq` makes visible what the releases its reads have returned published, where
each of the two agents lies in the other's instance of its scope (R235); `fence.rel` leaves a publication at its scope
for the later writes; `fence.rel` and `fence.full` wait while an ordered store of the thread is held
(notes/assumptions/12.md); `fence.ack` waits for the path counters, acts as a `fence.full.sys`, and reports failed writes
with their number. -/
def Sys2Proof.Claims.Fences : Prop :=
  ∀ (p : BitVec 4) (s : State), let failures := (s.core.paths.failed.toList.map BitVec.toNat).sum
    let full := s.fenceFull 11
    let scope := p.toNat
    exec (.fenceAcq p) s = .next (past (s.fenceAcq scope)) ∧
    (s.holdsOrdered = false → exec (.fenceRel p) s = .next (past (s.fenceRel scope)) ∧
      exec (.fenceFull p) s = .next (past (s.fenceFull scope))) ∧
    (s.holdsOrdered = true → exec (.fenceRel p) s = .next (waits s .other) ∧
      exec (.fenceFull p) s = .next (waits s .other)) ∧
    (∀ t, t = s.fenceAcq scope ∨ t = s.fenceRel scope ∨ t = s.fenceFull scope →
      t.core.regs = s.core.regs ∧ t.core.ctl = s.core.ctl ∧ t.mem = s.mem ∧
      ∀ e ∈ s.core.view.seen, e ∈ t.core.view.seen) ∧
    (∀ r ∈ s.order.rels, r.id ∈ s.core.view.caught → s.inScope r.scope r.writer s.agent = true →
      s.inScope scope s.agent r.writer = true → ∀ e ∈ r.pub, e ∈ (s.fenceAcq scope).core.view.seen) ∧
    (scope, s.publish s.agent scope s.core.view.seen) ∈ (s.fenceRel scope).core.view.standing ∧
    ((∀ x ∈ s.core.paths.cnt.toList, x = 0) → failures = 0 → exec .fenceAck s = .next (past full)) ∧
    ((∀ x ∈ s.core.paths.cnt.toList, x = 0) → failures ≠ 0 → exec .fenceAck s = .next (State.trap
      { full with core := { full.core with paths := { s.core.paths with failed := Vector.replicate 7 0 } } }
      (Cause.memory, 4 * 2 ^ 60 + failures))) ∧
    ((∃ x ∈ s.core.paths.cnt.toList, x ≠ 0) → exec .fenceAck s = .next (waits s .other))

/-- R230, R235: the instances of the scopes for the threads of tile cores: at scope core the thread itself, at pkg every
agent of the package but its host, at sys every agent; and a release and an acquire of different packages meet only where
both are of a scope wider than a package: one narrow scope is enough to keep them apart. -/
def Sys2Proof.Claims.Scopes : Prop :=
  ∀ (s : State) (j k : Nat), isMemCore (threadCore j) = false → isMemCore (threadCore k) = false →
    (∀ b, s.inScope 0 (.thread k) b = true ↔ b = .thread k) ∧
    (∀ b, s.inScope 7 (.thread k) b = true ↔ b.pkg = some (pkgOf (threadCore k)) ∧ ∀ p, b ≠ .host p) ∧
    (∀ b, s.inScope 11 (.thread k) b = true) ∧
    (s.scopesMeet (.thread j) 11 (.thread k) 11 = true) ∧
    ∀ x y, ((x < 9 ∧ x ≠ 2) ∨ (y < 9 ∧ y ≠ 2)) → pkgOf (threadCore j) ≠ pkgOf (threadCore k) →
      s.scopesMeet (.thread j) x (.thread k) y = false

/-- R230, R235, R236, R238 to R241, R265 to R267, R410: acknowledgements of writes, scopes and fences. That `fence.rel`,
`fence.full` and a later ordered store wait for the thread's earlier ordered stores (notes/assumptions/12.md), and the counter
of failed accesses (notes/assumptions/15.md), are the model's. -/
def Obligations.AcknowledgementsAndFences : Prop :=
  Claims.WriteAcknowledgements ∧ Claims.Fences ∧ Claims.Scopes

/-! ## Dispatch through the ring (R30, R31, R110, R332, R333) -/

namespace Sys2Proof.Claims

open Sys2Proof Sys2Proof.Machine

/-- The slot of the next dispatch. -/
def nextSlot (s : State) : RingEntry := s.core.entry s.core.ctl.drnext

/-- The slot of the next dispatch is taken: by a pending entry, or by an operation that runs on without one (R31, R377). -/
def slotTaken (s : State) : Prop :=
  (nextSlot s).state = .pending ∨ ∃ o ∈ s.core.ops, o.seq.toNat % 64 = s.core.ctl.drnext.toNat % 64

/-- The state after `Dispatch` (R30): the slot of DRNEXT holds the pending entry with the number, pc, major and sub; the
operation takes its spans and the format registers, TOPX, RM, DEAL and LSLIM of now with it (R110); DRNEXT goes up
by one and `g[d]` gets the number. -/
def afterDispatch (s : State) (major : BitVec 6) (sub : BitVec 5) (d : BitVec 5) (x : OpSpans) (body : OpBody) : State :=
  let q := s.core.ctl.drnext
  let k := s.core.ctl
  let e : RingEntry :=
    { cause := 0, state := .pending, pc := s.pc, major := major, sub := sub, seq := q, einfo := 0, untaken := false }
  let a : Attach :=
    { fmta := k.fmta, fmtb := k.fmtb, scla := k.scla, sclb := k.sclb, cbook := k.cbook, topx := k.status.topx
      rm := k.status.rm, deal := k.deal, lslim := k.lslim, seen := s.core.view.seen }
  let o : Op :=
    { seq := q, started := false, lread := x.lread, lwrite := x.lwrite, oread := x.oread, owrite := x.owrite
      uses := x.uses, att := a, body := body }
  past (State.setG { s with core := { s.core with
    ring := s.core.ring.set (q.toNat % 64) e (Nat.mod_lt _ (by decide)), ops := s.core.ops ++ [o]
    ringBad := s.core.ringBad &&& ~~~BitVec.twoPow 64 (q.toNat % 64)
    ctl := { k with drnext := q + 1 } } } d (word q.toNat))

/-- A form that dispatches: where its checks hold, it waits at a full queue or a taken slot, ends the thread at a slot
whose late fault is untaken while IE = 0, and dispatches otherwise (R31, R332). -/
def dispatches (i : Instr) (ok : State → Prop) (full : State → Prop) (go : State → State) : Prop :=
  ∀ s, ok s →
    (¬ full s → ¬ slotTaken s → (nextSlot s).untaken = false → exec i s = .next (go s)) ∧
    (full s ∨ slotTaken s → exec i s = .next (waits s .other)) ∧
    (¬ full s → ¬ slotTaken s → (nextSlot s).untaken = true → s.core.ctl.status.ie = true →
      exec i s = .next (waits s .other)) ∧
    (¬ full s → ¬ slotTaken s → (nextSlot s).untaken = true → s.core.ctl.status.ie = false →
      ∃ t, exec i s = .next t ∧ t.core.run = .endedFault ∧ t.mem = s.mem)

/-- No queue of its own. -/
def neverFull (_ : State) : Prop := False

/-- The checks of an engine span (R333): bounds, alignment to a unit, and in user mode LSLIM. -/
def engineFailure (s : State) (a n u : Nat) : Option Trap :=
  if 0x180000 < a + n then some (Cause.localBounds, a)
  else if a % u ≠ 0 then some (Cause.align, a)
  else if s.priv = false ∧ s.core.ctl.lslim.toNat < a + n then some (Cause.limit, a)
  else none

/-- One local span. -/
def span (a n : Nat) : List Span := [{ lo := a, len := n }]

/-- A range form that names its range by `g[a]` (R268). -/
def rangeForm (i : Instr) (sup : Bool) (form : RangeForm) (sub : BitVec 5) (d a b : BitVec 5) : Prop :=
  dispatches i (fun s => (sup = true → s.priv = true) ∧ localFailure s (un s b) 64 = none) neverFull
    (fun s => afterDispatch s 0x31 sub d { OpSpans.none with lwrite := span (un s b) 64 }
      (.range form (s.g a) 0 (un s b) false))

/-- A range form with an operand block at `g[a]`, which is read at dispatch (R268, R269). -/
def blockForm (i : Instr) (form : RangeForm) (sub : BitVec 5) (d a b : BitVec 5) : Prop :=
  dispatches i (fun s => s.priv = true ∧ localFailure s (un s b) 64 = none ∧ readFailure s (un s a) 64 = none) neverFull
    (fun s => afterDispatch s 0x31 sub d { OpSpans.none with lwrite := span (un s b) 64 }
      (.range form (word (readAt s (un s a) 8)) (BitVec.ofNat 512 (readAt s (un s a) 64)) (un s b) false))

/-- A guard form on the binding number in `g[a]`, with an optional status word at `g[b]` (R274, R276). -/
def guardForm (i : Instr) (form : GuardForm) (sub : BitVec 5) (team : Bool) (d a b : BitVec 5) : Prop :=
  dispatches i (fun s => un s a < 8 ∧ (b = 0 ∨ localFailure s (un s b) 8 = none) ∧
      (team = true ∨ s.core.ctl.status.ckpt = false)) neverFull
    (fun s => afterDispatch s 0x32 sub d (s.core.guardSpans (un s a))
      (.guard form (un s a) 0 (if b = 0 then none else some (un s b)) false)) ∧
  ∀ s, 8 ≤ un s a → exec i s = .next (s.trap (Cause.bounds, un s a))

/-- A supervisor form raises PRIVILEGE in user mode, before its other checks (R268, R269). -/
def supervisorForm (i : Instr) : Prop := ∀ s, s.priv = false → exec i s = .next (s.trap (Cause.privilege, 0))

/-- The copies of the core that hold a slot of its queue: dispatched and not started (R291, R353). -/
def copyPlaces (s : State) (lstr : Bool) : Nat := s.core.copySlots lstr

/-- Dispatch of a copy: its writes are counted on their path first (R286, R409). -/
def copyGoes (s : State) (major : BitVec 6) (sub d : BitVec 5) (r : CopyOp) : State :=
  let k := s.core.ctl.deal
  afterDispatch (s.countCopy k r).2 major sub d (s.copySpans k r) (.copy (s.countCopy k r).1)

/-- A matrix form, which writes no register and holds a place in the queue of 8 (R298, R334). -/
def matrixForm (i : Instr) (sub : BitVec 5) (ok : State → Prop) (x : State → OpSpans) (body : State → OpBody) : Prop :=
  dispatches i ok (fun s => 8 ≤ s.core.matrixPlaces) (fun s => afterDispatch s 0x34 sub 0 (x s) (body s))

/-- An event form, which holds a place in the queue of 8 (R344). -/
def eventForm (i : Instr) (sub d : BitVec 5) (team : Bool) (ok : State → Prop) (x : State → OpSpans)
    (body : State → OpBody) : Prop :=
  dispatches i (fun s => (team = true ∨ s.core.ctl.status.ckpt = false) ∧ ok s) (fun s => 8 ≤ s.core.eventPlaces)
    (fun s => afterDispatch s 0x35 sub d (x s) (body s))

/-- A span of local bytes that an operation reads. -/
def reads (a n : Nat) : OpSpans := { OpSpans.none with lread := span a n }

/-- A span of local bytes that an operation writes. -/
def writes (a n : Nat) : OpSpans := { OpSpans.none with lwrite := span a n }

end Sys2Proof.Claims

/-- R268, R269: the range instructions: their checks (mode, result block, operand block) and their dispatch. -/
def Sys2Proof.Claims.RangeDispatch : Prop :=
  ∀ d a b : BitVec 5,
    blockForm (.rload d a b) .rload 0 d a b ∧ rangeForm (.rprobe d a b) false .rprobe 1 d a b ∧
    rangeForm (.rsplit d a b) true .rsplit 2 d a b ∧ rangeForm (.rmerge d a b) true .rmerge 3 d a b ∧
    rangeForm (.rinv d a b) true .rinv 4 d a b ∧ blockForm (.rres d a b) .rres 5 d a b ∧
    blockForm (.rcompact d a b) .rcompact 6 d a b ∧ rangeForm (.rstat d b) false .rstat 7 d 0 b ∧
    supervisorForm (.rload d a b) ∧ supervisorForm (.rsplit d a b) ∧ supervisorForm (.rmerge d a b) ∧
    supervisorForm (.rinv d a b) ∧ supervisorForm (.rres d a b) ∧ supervisorForm (.rcompact d a b)

/-- R274 to R276: the guard instructions: their checks and their dispatch, with the window and stamp array of the binding
as their spans; `gbind` reads its descriptor then. A binding number above 7 raises BOUNDS. In a team `gbind`, `gunbind`
and `gflush` raise TEAM_OP, and `grel` takes its place and 16 bytes of the outbound buffer (R373). -/
def Sys2Proof.Claims.GuardDispatch : Prop :=
  ∀ d a b : BitVec 5,
    dispatches (.gbind d a b) (fun s => readFailure s (un s a) 64 = none ∧ (b = 0 ∨ localFailure s (un s b) 8 = none) ∧
        s.core.ctl.status.ckpt = false) neverFull
      (fun s => let x : BitVec 512 := BitVec.ofNat 512 (readAt s (un s a) 64)
        afterDispatch s 0x32 0 d (s.bindSpans x)
          (.guard .gbind (x.extractLsb' 192 3).toNat x (if b = 0 then none else some (un s b)) false)) ∧
    guardForm (.gunbind d a b) .gunbind 1 false d a b ∧ guardForm (.gacqS d a b) .gacqS 2 true d a b ∧
    guardForm (.gacqX d a b) .gacqX 3 true d a b ∧ guardForm (.grel d a b) .grel 4 false d a b ∧
    guardForm (.gtryS d a b) .gtryS 5 true d a b ∧ guardForm (.gtryX d a b) .gtryX 6 true d a b ∧
    guardForm (.gflush d a b) .gflush 7 false d a b ∧ guardForm (.gstat d a b) .gstat 8 true d a b ∧
    dispatches (.grel d a b) (fun s => un s a < 8 ∧ (b = 0 ∨ localFailure s (un s b) 8 = none) ∧
        s.core.ctl.status.ckpt = true ∧ 16 ≤ s.core.outFree) neverFull
      (fun s => afterDispatch { s with core := { s.core with team := { s.core.team with
          outbuf := s.core.team.outbuf ++ [.place s.core.ctl.drnext] } } } 0x32 4 d (s.core.guardSpans (un s a))
        (.guard .grel (un s a) 0 (if b = 0 then none else some (un s b)) false)) ∧
    (∀ s, un s a < 8 → (b = 0 ∨ localFailure s (un s b) 8 = none) → s.core.ctl.status.ckpt = true → s.core.outFree < 16 →
      exec (.grel d a b) s = .next (s.trap (Cause.outbufFull, s.core.outFree))) ∧
    (let status := fun (s : State) => b = 0 ∨ localFailure s (un s b) 8 = none
     teamTraps (.gbind d a b) (fun s => readFailure s (un s a) 64 = none ∧ status s) ∧
     teamTraps (.gunbind d a b) (fun s => un s a < 8 ∧ status s) ∧
     teamTraps (.gflush d a b) (fun s => un s a < 8 ∧ status s)) ∧
    ∀ (s : State) (n : Nat) (y : Binding), s.core.binding n = some y →
      (s.core.guardSpans n).lwrite.take 2 =
        [{ lo := y.window, len := y.len }, { lo := y.stamps, len := 4 * (y.len / 512) }]

/-- R268, R269, R274 to R276: range and guard instructions at their dispatch. -/
def Obligations.RangeAndGuardDispatch : Prop :=
  Claims.RangeDispatch ∧ Claims.GuardDispatch

/-- R285, R336, R352, R353: the copy instructions. `cpy` answers 1 in `g[d]` at a full queue of 16, where `cpy.w` waits; a
memory core's loader forms hold 4 places; a refused request raises COPY_REQ with its reason, and in a team one whose
destination is neither the own store nor the own stream port raises TEAM_OP (R373). -/
def Sys2Proof.Claims.CopyDispatch : Prop :=
  ∀ (d b : BitVec 5) (a : BitVec 3),
    let ok := fun (s : State) (r : CopyOp) => s.copyCheck r = none ∧
      (r.dkind = 1 ∨ r.dkind = 3 ∨ s.core.ctl.status.ckpt = false)
    dispatches (.cpy d a b) (fun s => ok s (s.copyRequest .cpy a) ∧ copyPlaces s false < 16) neverFull
      (fun s => (copyGoes s 0x33 0 b (s.copyRequest .cpy a)).setG d 0) ∧
    dispatches (.cpyW d a b) (fun s => ok s (s.copyRequest .cpy a)) (fun s => 16 ≤ copyPlaces s false)
      (fun s => (copyGoes s 0x33 1 b (s.copyRequest .cpy a)).setG d 0) ∧
    (∀ s, ok s (s.copyRequest .cpy a) → 16 ≤ copyPlaces s false → exec (.cpy d a b) s = .next (past (s.setG d 1))) ∧
    dispatches (.ldtile d a) (fun s => s.copyCheck (s.copyRequest .ldtile a) = none) (fun s => 4 ≤ copyPlaces s true)
      (fun s => copyGoes s 0x38 0 d (s.copyRequest .ldtile a)) ∧
    dispatches (.sttile d a) (fun s => s.copyCheck (s.copyRequest .sttile a) = none) (fun s => 4 ≤ copyPlaces s true)
      (fun s => copyGoes s 0x38 1 d (s.copyRequest .sttile a)) ∧
    dispatches (.ldeal d a) (fun s => s.copyCheck (s.copyRequest .ldeal a) = none) (fun s => 4 ≤ copyPlaces s true)
      (fun s => copyGoes s 0x38 2 d (s.copyRequest .ldeal a)) ∧
    (let away := fun (s : State) => s.copyCheck (s.copyRequest .cpy a) = none ∧
        (s.copyRequest .cpy a).dkind ≠ 1 ∧ (s.copyRequest .cpy a).dkind ≠ 3
     teamTraps (.cpy d a b) away ∧ teamTraps (.cpyW d a b) away) ∧
    ∀ s n,
      (s.copyReason (s.copyRequest .cpy a) = some n → exec (.cpy d a b) s = .next (s.trap (Cause.copyReq, n)) ∧
        exec (.cpyW d a b) s = .next (s.trap (Cause.copyReq, n))) ∧
      (s.copyReason (s.copyRequest .ldtile a) = some n → exec (.ldtile d a) s = .next (s.trap (Cause.copyReq, n))) ∧
      (s.copyReason (s.copyRequest .sttile a) = some n → exec (.sttile d a) s = .next (s.trap (Cause.copyReq, n))) ∧
      (s.copyReason (s.copyRequest .ldeal a) = some n → exec (.ldeal d a) s = .next (s.trap (Cause.copyReq, n)))

/-- R337 to R340, R353: the pipeline forms beside the copies: the snapshot, DEAL swapped, the waits on a word, on a ring
entry, on the mailbox and on loader operations, and the mailbox read. -/
def Sys2Proof.Claims.CopyPipeline : Prop :=
  ∀ (d a b : BitVec 5) (s : State),
    exec (.cpyst d) s = .next (past (s.setG d (word ((s.core.ops.filter Op.awaitsTrigger).length * 2 ^ 32 +
      min 0xFFFF (s.core.paths.cnt.toList.map BitVec.toNat).sum * 2 ^ 16 + s.core.mail.length * 2 ^ 8 +
      (16 - copyPlaces s false) : Nat)))) ∧
    (un s a < 2 ^ 24 → exec (.deal d a) s = .next (past (State.setG
      (withCtl s { s.core.ctl with deal := BitVec.ofNat 24 (un s a) }) d (word s.core.ctl.deal.toNat)))) ∧
    (2 ^ 24 ≤ un s a → exec (.deal d a) s = .next (s.trap (Cause.bounds, un s a))) ∧
    (engineFailure s (un s a) 8 8 = none → intact s (un s a) 8 →
      (readAt s (un s a) 8 = un s b → exec (.waitw a b) s = .next (past (s.heard (un s a) 8)) ∧
        onlyGHeard 0 (un s a) 8 s (past (s.heard (un s a) 8))) ∧
      (readAt s (un s a) 8 ≠ un s b → exec (.waitw a b) s = .next (waits s .other))) ∧
    (un s b < 2 ^ 16 → let q := BitVec.ofNat 16 (un s b);
      let e := s.core.entry q;
      (e.seq = q → e.state = .pending → exec (.waitwSeq d b) s = .next (waits s .other)) ∧
      (e.seq = q → e.state = .done → exec (.waitwSeq d b) s = .next (past (s.setG d 2))) ∧
      (e.seq = q → e.state = .faulted → exec (.waitwSeq d b) s = .next (past (s.setG d 3))) ∧
      (e.seq = q → e.state = .squashed → exec (.waitwSeq d b) s = .next (past (s.setG d 4))) ∧
      (e.seq ≠ q ∨ e.state = .empty → exec (.waitwSeq d b) s = .next (past (s.setG d 0)))) ∧
    (s.core.mail ≠ [] → exec (.waitm d) s = .next (past (s.setG d (word s.core.mail.length)))) ∧
    (s.core.mail = [] → exec (.waitm d) s = .next (waits s .other)) ∧
    (localFailure s (un s a) 16 = none → s.core.mail = [] → exec (.mbxrd d a) s = .next (past (s.setG d 0))) ∧
    (localFailure s (un s a) 16 = none → ∀ x l, s.core.mail = x :: l → ∃ t, exec (.mbxrd d a) s = .next t ∧
      t.core.mail = l ∧ t.g d = (if d = 0 then 0 else word (l.length + 1 : Nat)) ∧ t.pc = s.pc + 4 ∧
      (∀ r, r ≠ d → t.g r = s.g r) ∧ t.core.ctl = s.core.ctl ∧ readAt t (un s a) 16 = x.toNat ∧
      ∀ k, (∀ j, j < 16 → k ≠ s.core.localKey (un s a + j)) → ¬ inUndo s k → t.mem.byte k = s.mem.byte k) ∧
    (let n := s.core.lstrPending;
      (n ≤ un s a → exec (.lswait d a) s = .next (past (s.setG d (word n)))) ∧
      (un s a < n → exec (.lswait d a) s = .next (waits s .other)))

/-- R285, R336 to R340, R352, R353: the copy instructions. -/
def Obligations.CopyInstructions : Prop :=
  Claims.CopyDispatch ∧ Claims.CopyPipeline

/-- R341 to R343: the matrix instructions dispatch with the spans they read and write; `mcbld` raises TEAM_OP in a team
(R335). -/
def Sys2Proof.Claims.MatrixDispatch : Prop :=
  ∀ (c r : BitVec 2) (a b : BitVec 5) (u v w x : BitVec 1) (src : BitVec 2) (t : BitVec 4),
    let f : StepForm := { unfold := u == 1, stream := v == 1, holdB := w == 1, holdA := x == 1 }
    let n := mfmtLen src t
    matrixForm (.mma c a b r u v w x) 0 (fun s => s.mmaCheck f (un s a) (un s b) = none)
      (fun s => s.mmaSpans f (un s a) (un s b)) (fun s => .mma c r (u == 1) (v == 1) (w == 1) (x == 1) (un s a) (un s b)
        (if u = 1 then BitVec.ofNat 512 (readAt s (un s a) 64) else 0) false) ∧
    matrixForm (.mzero c) 1 (fun _ => True) (fun _ => OpSpans.none) (fun _ => .mzero c) ∧
    matrixForm (.mlda c a) 2 (fun s => engineFailure s (un s a) 1024 64 = none) (fun s => reads (un s a) 1024)
      (fun s => .mlda c (un s a)) ∧
    matrixForm (.msta c a) 3 (fun s => engineFailure s (un s a) 1024 64 = none) (fun s => writes (un s a) 1024)
      (fun s => .msta c (un s a)) ∧
    matrixForm (.mfmt c a src r t) 4 (fun s => engineFailure s (un s a) n 64 = none) (fun s => writes (un s a) n)
      (fun s => .mfmt c src r t (un s a)) ∧
    matrixForm (.mcbld a b) 5 (fun s => un s b ≤ 3 ∧ engineFailure s (un s a) 2048 64 = none ∧
        s.core.ctl.status.ckpt = false) (fun s => reads (un s a) 2048) (fun s => .mcbld (un s a) (un s b)) ∧
    teamTraps (.mcbld a b) (fun s => un s b ≤ 3 ∧ engineFailure s (un s a) 2048 64 = none) ∧
    ∀ s, 3 < un s b → exec (.mcbld a b) s = .next (s.trap (Cause.bounds, un s b))

/-- R344 to R349: the event instructions dispatch with the spans they read and write; the forms that change the engine
raise TEAM_OP in a team (R335). -/
def Sys2Proof.Claims.EventDispatch : Prop :=
  ∀ d a b : BitVec 5,
    let first := fun (s : State) => un s b % 2 ^ 16
    let n := fun (s : State) => un s b / 2 ^ 16 % 2 ^ 16 + 1
    let states := fun (s : State) => un s b < 2 ^ 32 ∧ first s + n s ≤ 65536 ∧
      engineFailure s (un s a) (16 * n s) 16 = none
    eventForm (.evcfgPop d a b) 0 d false (fun s => un s b ≤ 15 ∧ engineFailure s (un s a) 32 32 = none)
      (fun s => reads (un s a) 32) (fun s => .evcfg .pop (un s a) (un s b)) ∧
    eventForm (.evcfgLeak d a b) 0 d false (fun s => un s b ≤ 7 ∧ engineFailure s (un s a) 1024 64 = none)
      (fun s => reads (un s a) 1024) (fun s => .evcfg .leak (un s a) (un s b)) ∧
    eventForm (.evcfgEng d a) 0 d false (fun s => engineFailure s (un s a) 8 8 = none)
      (fun s => reads (un s a) 8) (fun s => .evcfg .eng (un s a) 0) ∧
    eventForm (.evpost d a b) 1 d false (fun s => b = 0 ∨ un s b < 2 ^ 23) (fun _ => OpSpans.none)
      (fun s => .evpost (s.g a) (if b = 0 then none else some (un s b))) ∧
    eventForm (.evsweep d a) 2 d false (fun s => un s a ≤ 15) (fun _ => OpSpans.none) (fun s => .evsweep (un s a)) ∧
    eventForm (.evread d a b) 3 d true states (fun s => writes (un s a) (16 * n s))
      (fun s => .evread (un s a) (first s) (n s)) ∧
    eventForm (.evreadSt d a) 3 d true (fun s => engineFailure s (un s a) 64 64 = none) (fun s => writes (un s a) 64)
      (fun s => .evreadSt (un s a)) ∧
    eventForm (.evwrite d a b) 4 d false states (fun s => reads (un s a) (16 * n s))
      (fun s => .evwrite (un s a) (first s) (n s)) ∧
    eventForm (.evdrain d) 5 d false (fun _ => True) (fun _ => OpSpans.none) (fun _ => .evdrain none) ∧
    eventForm (.evdrainPop d a) 5 d false (fun s => un s a ≤ 15) (fun _ => OpSpans.none)
      (fun s => .evdrainPop (un s a)) ∧
    (let any := fun (_ : State) => True
     teamTraps (.evcfgPop d a b) any ∧ teamTraps (.evcfgLeak d a b) any ∧ teamTraps (.evcfgEng d a) any ∧
     teamTraps (.evpost d a b) any ∧ teamTraps (.evsweep d a) any ∧ teamTraps (.evwrite d a b) any ∧
     teamTraps (.evdrain d) any ∧ teamTraps (.evdrainPop d a) any) ∧
    ∀ s, s.core.ctl.status.ckpt = false →
      let bounds := fun i (x : BitVec 5) (limit : Nat) => limit < un s x → exec i s = .next (s.trap (Cause.bounds, un s x))
      bounds (.evsweep d a) a 15 ∧ bounds (.evdrainPop d a) a 15 ∧ bounds (.evcfgPop d a b) b 15 ∧
      bounds (.evcfgLeak d a b) b 7 ∧ bounds (.evpost d a b) b (if b = 0 then 2 ^ 64 else 2 ^ 23 - 1)

/-- R341 to R349: matrix and event instructions at their dispatch. -/
def Obligations.MatrixAndEventDispatch : Prop :=
  Claims.MatrixDispatch ∧ Claims.EventDispatch

/-! ## Time, launch, signal and the end of a thread (R200 to R202, R327, R350, R351) -/

namespace Sys2Proof.Claims

open Sys2Proof Sys2Proof.Machine

/-- The domain clock as the core in focus reads it. -/
def clockOf (s : State) : Word := s.domainClock (pkgOf s.core.addr.toNat)

/-- The triggers of the set that the core in focus arms in. -/
def armedHere (s : State) : List Trigger := s.triggersOf (triggerUnit s.core.addr.toNat)

/-- The state with one more trigger in the set of the core in focus. -/
def withTrigger (s : State) (x : Trigger) : State :=
  { s with triggers := aset s.triggers (triggerUnit s.core.addr.toNat) (armedHere s ++ [x]) }

/-- The thread ends cleanly here but for its ordered stores: alone, nothing pending, no late fault, no binding, no waiting
message, no loader call and no work of a team's superstep. -/
def quiet (s : State) : Prop :=
  s.core.gang.role = .alone ∧ s.core.ops = [] ∧ s.core.anyPending = false ∧ s.core.lateFaultEntry = none ∧
  s.core.binds = Vector.replicate 8 none ∧ s.core.msgs.iface = [] ∧ s.core.msgs.held = [] ∧ s.core.info.call = none ∧
  s.core.ctl.status.ckpt = false ∧ s.core.team.committed = []

end Sys2Proof.Claims

/-- R350, R351: the clock and tick reads, `waitt`, and the trigger forms: 0 armed, 1 a full set, 2 no such copy; in a team
they raise TEAM_OP (R373), and `tarm.ev` is illegal on a memory core. -/
def Sys2Proof.Claims.TimeInstructions : Prop :=
  ∀ (d a b : BitVec 5) (s : State), let u := triggerUnit s.core.addr.toNat;
    exec (.rdtime d) s = .next (past (s.setG d (clockOf s))) ∧
    (isMemCore s.core.addr.toNat = false → let e := s.engine (unitOf s.core.addr.toNat)
      exec (.rdtimeTick d) s = .next (past (s.setG d (word ((clockOf s).toNat / e.tickns : Nat))))) ∧
    (un s a ≤ (clockOf s).toNat → exec (.waitt a) s = .next (past s)) ∧
    ((clockOf s).toNat < un s a → exec (.waitt a) s = .next (waits s (.time (s.g a)))) ∧
    (s.core.ctl.status.ckpt = false → s.core.armable (BitVec.ofNat 16 (un s b)) = true →
      ((armedHere s).length < triggerRoom u → ∃ t, exec (.tarm d a b) s = .next t ∧
        t.triggers = (withTrigger s ⟨s.g a, .release s.core.thread (BitVec.ofNat 16 (un s b))⟩).triggers ∧
        t.core.armable (BitVec.ofNat 16 (un s b)) = false ∧ t.core.regs = (past (s.setG d 0)).core.regs ∧
        t.core.ctl = s.core.ctl ∧ t.mem = s.mem) ∧
      (triggerRoom u ≤ (armedHere s).length → exec (.tarm d a b) s = .next (past (s.setG d 1)))) ∧
    (s.core.ctl.status.ckpt = false → s.core.armable (BitVec.ofNat 16 (un s b)) = false →
      exec (.tarm d a b) s = .next (past (s.setG d 2))) ∧
    teamTraps (.tarm d a b) (fun _ => True) ∧ teamTraps (.tarmEv d a b) (fun u => isMemCore u.core.addr.toNat = false) ∧
    (isMemCore s.core.addr.toNat = true →
      ∃ x, encode (.tarmEv d a b) = some x ∧ exec (.tarmEv d a b) s = .next (s.trap (Cause.illegal, x.toNat))) ∧
    (s.core.ctl.status.ckpt = false → isMemCore s.core.addr.toNat = false →
      ((armedHere s).length < triggerRoom u →
        exec (.tarmEv d a b) s = .next (past (State.setG (withTrigger s ⟨s.g a, .post (s.g b) s.core.thread⟩) d 0))) ∧
      (triggerRoom u ≤ (armedHere s).length → exec (.tarmEv d a b) s = .next (past (s.setG d 1))))

/-- R200: `launch` appends the record it reads to a queue and answers 0; it answers 1 at a full queue and 2 where there is
none, or it is another process's, and then reads no record. R202: `signal` decrements a predecessor counter. R201:
`done` ends a quiet thread, whose messages are discarded. Each waits while an ordered store of the thread is held, as its
release ordering asks (notes/assumptions/12.md). In a team `launch` and `signal` raise TEAM_OP, before their own checks
(notes/assumptions/63.md), and so does `done` with work of the superstep left (R373). -/
def Obligations.TaskInstructions : Prop :=
  (∀ (d a b : BitVec 5), let any := fun (_ : State) => True
    teamTraps (.launch d a b) any ∧ teamTraps (.signal a) any ∧
    teamTraps .done fun s => s.core.gang.role = .alone ∧ (s.core.team.outbuf ≠ [] ∨ 0 < s.core.team.logCount)) ∧
  ∀ (d a b : BitVec 5) (s : State), s.core.ctl.status.ckpt = false → let p := pkgOf s.core.addr.toNat;
    (∀ x, un s b < 1024 → un s a % 64 = 0 → un s a < 2 ^ 60 →
      (∃ e, s.core.tableFind (un s a) = some e ∧ e.state ≠ .moving ∧
        e.entry.check (un s a) .threadRead 64 = none ∧ x = e.entry.xlat (un s a)) → let t := used s x;
      (∀ q, (s.getPkg p).queue (un s b) = some q → (s.priv = true ∨ q.pid = s.core.ctl.pid) → q.records.length < q.cap →
        (s.holdsOrdered = true → exec (.launch d a b) s = .next (waits t .other)) ∧
        ∀ v, s.holdsOrdered = false → t.readAt s.core.addr.toNat x.pa x.place 64 recordMode = .ok v →
          exec (.launch d a b) s = .next (past (((t.observeAt x.pa x.place 64 recordMode none).modPkg p fun y =>
            y.appendRecord (un s b) (BitVec.ofNat 512 v)).setG d 0))) ∧
      (∀ q, (s.getPkg p).queue (un s b) = some q → (s.priv = true ∨ q.pid = s.core.ctl.pid) → q.cap ≤ q.records.length →
        exec (.launch d a b) s = .next (past (t.setG d 1))) ∧
      (((s.getPkg p).queue (un s b) = none ∨ s.priv = false ∧ ∃ q, (s.getPkg p).queue (un s b) = some q ∧
          q.pid ≠ s.core.ctl.pid) → exec (.launch d a b) s = .next (past (t.setG d 2)))) ∧
    (1024 ≤ un s b → exec (.launch d a b) s = .next (s.trap (Cause.bounds, un s b))) ∧
    (un s a < 2 ^ 16 → s.priv = true ∨ ((s.getPkg p).counter (un s a)).owner = s.core.ctl.pid → s.holdsOrdered = true →
      exec (.signal a) s = .next (waits s .other)) ∧
    (un s a < 2 ^ 16 → s.priv = true ∨ ((s.getPkg p).counter (un s a)).owner = s.core.ctl.pid → s.holdsOrdered = false →
      ∃ t, exec (.signal a) s = .next t ∧ t = past { s with pkgs := t.pkgs } ∧
        (((s.getPkg p).counter (un s a)).value ≠ 0 → ((t.getPkg p).counter (un s a)).value =
          ((s.getPkg p).counter (un s a)).value - 1 ∧ (t.getPkg p).zeroDec = (s.getPkg p).zeroDec) ∧
        (((s.getPkg p).counter (un s a)).value = 0 → (t.getPkg p).zeroDec = (s.getPkg p).zeroDec + 1 ∧
          (t.getPkg p).counters = (s.getPkg p).counters)) ∧
    (2 ^ 16 ≤ un s a → exec (.signal a) s = .next (s.trap (Cause.bounds, un s a))) ∧
    (un s b < 1024 → un s a % 64 ≠ 0 → exec (.launch d a b) s = .next (s.trap (Cause.align, un s a))) ∧
    (un s a < 2 ^ 16 → s.priv = false → ((s.getPkg p).counter (un s a)).owner ≠ s.core.ctl.pid →
      exec (.signal a) s = .next (s.trap (Cause.privilege, 0))) ∧
    (quiet s → s.holdsOrdered = true → exec .done s = .next (waits s (.draining false))) ∧
    (quiet s → s.holdsOrdered = false → ∃ t, exec .done s = .next t ∧ t.core.run = .endedDone ∧ t.core.msgs.queue = [] ∧
      t.core.regs = s.core.regs ∧ t.core.ctl = s.core.ctl ∧ t.mem = s.mem)

/-! ## Pending events at a boundary (R28, R29, R31, R158, R360, R365, R366) -/

namespace Sys2Proof.Claims

open Sys2Proof Sys2Proof.Machine

/-- The core in focus is at a boundary at which it takes pending events: IE = 1, no rollback of its team, and outside a frame,
a phase, a load in progress, a `wfe` and the wait of a `halt` (R29, R80, R114, R115, R161, R377). -/
def takesEvents (s : State) : Prop :=
  s.core.run = .running ∧ s.core.rollsBack = false ∧ s.core.wait ≠ .event ∧ s.core.wait ≠ .draining true ∧ s.core.ctl.status.ie = true ∧
  s.core.sync.phase = none ∧ s.core.frame = none ∧ s.core.outst = none ∧ s.core.rtab.miss = none

end Sys2Proof.Claims

/-- R29, R31, R360, R365, R366, R377: a late fault, a release-delivered cause and a pre-emption request are taken by the entry
of R28, in this order of precedence; ECAUSE shows LATE, no mark and INTR. At a pre-emption a matrix operation that has
not started is squashed and kept, and what is not squashable runs on. -/
def Obligations.PendingEvents : Prop :=
  ∀ s : State, takesEvents s → let c := s.core.addr.toNat
    (∀ e, s.core.lateFaultEntry = some e → ∃ t, exec (.lateFaultTaken c) s = .next t ∧
      entered s t (0x100 ||| e.cause.setWidth 10) e.einfo e.seq ∧ (t.core.entry e.seq).untaken = false) ∧
    (s.core.lateFaultEntry = none →
      (∀ cause info rest, s.core.sync.relCause = (cause, info) :: rest →
        ∃ t, exec (.releaseCauseTaken c) s = .next t ∧ entered s t (cause.setWidth 10) info 0 ∧
          t.core.sync.relCause = rest ∧ t.core.ring = s.core.ring) ∧
      ∀ defer, s.core.sync.relCause = [] → s.core.preempt = some defer → (defer = true → s.core.safePoint = true) →
        ((∀ o ∈ s.core.ops, o.squashable = false) → ∃ t, exec (.preempt c) s = .next t ∧
          entered s t 0x240 (if defer then 1 else 0) 0 ∧ t.core.preempt = none ∧ t.core.ops = s.core.ops) ∧
        ∀ o, s.core.ops = [o] → o.body.isMatrix = true → o.started = false → ∃ t, exec (.preempt c) s = .next t ∧
          entered s t 0x240 (if defer then 1 else 0) 0 ∧ t.core.ops = [] ∧ t.core.kept = s.core.kept ++ [o])

/-! ## How copies run (R284, R286, R289 to R292, R297, R313) -/

namespace Sys2Proof.Claims

open Sys2Proof Sys2Proof.Machine

/-- Operation `q` of the core in focus is the copy `r`. -/
def copyAt (s : State) (q : BitVec 16) (o : Op) (r : CopyOp) : Prop := s.core.op q = some o ∧ o.body = .copy r

/-- The slot of `q` holds its pending entry, without an uncorrectable error. -/
def pendingAt (s : State) (q : BitVec 16) : Prop :=
  (s.core.entry q).state = .pending ∧ (s.core.entry q).seq = q ∧ s.core.ringBad.getLsbD (q.toNat % 64) = false

/-- Operation `q` of the core in focus has started. -/
def begun (s : State) (q : BitVec 16) : State :=
  { s with core := { s.core with ops := s.core.ops.map fun p => if p.seq = q then { p with started := true } else p } }

/-- Operation `q` has ended with a late fault. -/
def lateFaulted (t : State) (q : BitVec 16) (f : Trap) : Prop :=
  t.core.op q = none ∧ (t.core.entry q).state = .faulted ∧ (t.core.entry q).cause = f.1 ∧
    (t.core.entry q).einfo = BitVec.ofNat 64 f.2 ∧ (t.core.entry q).untaken = true

/-- Operation `q` has ended without a fault. -/
def doneAt (t : State) (q : BitVec 16) : Prop := t.core.op q = none ∧ (t.core.entry q).state = .done

end Sys2Proof.Claims

/-- R243, R244, R291, R292, R297, R313: a copy whose turn it is in its core's queue and at its engine starts when its
engine transfers fewer than four, and with it a stopped stream port reopens; one whose turn it is not waits; one that
names no thread or lies outside its group faults before its first byte; a loader call enters its memory core's queue of
16. -/
def Obligations.CopyStarts : Prop :=
  ∀ (s : State) (q : BitVec 16) (o : Op) (r : CopyOp), copyAt s q o r → o.started = false → s.core.blocked o = false →
    s.core.copyTurn o r = true → s.orderedBefore s.core.thread o = false →
    let c := s.core.addr.toNat
    let m := r.dst % 2 ^ 23
    let e := s.core.copyEngine
    let u : State := if r.form = .cpy then { s with copyPos := aset s.copyPos e c } else s
    (r.dkind ≠ 5 → r.form = .cpy → 4 ≤ s.transferring e ∨ s.engineTurn = false →
      exec (.copyStart c q.toNat) s = .next s) ∧
    (r.dkind ≠ 5 → (r.form = .cpy → s.transferring e < 4 ∧ s.engineTurn = true) →
      (s.startFault r o.att = none → r.dkind ≠ 3 ∨ s.core.mtx.portStopped = false →
        exec (.copyStart c q.toNat) s = .next (begun u q)) ∧
      (s.startFault r o.att = none → r.dkind = 3 → s.core.mtx.portStopped = true →
        ∃ t, exec (.copyStart c q.toNat) s = .next t ∧
          t.core.mtx = { s.core.mtx with portStopped := false, portFault := none } ∧ t.core.regs = s.core.regs) ∧
      ∀ f, s.startFault r o.att = some f → r.mbx = false → pendingAt s q →
        (f.1 = Cause.uncorr → s.core.ctl.status.ckpt = false) →
        ∃ t, exec (.copyStart c q.toNat) s = .next t ∧ lateFaulted t q f ∧ t.mem = s.mem ∧ t.core.regs = s.core.regs) ∧
    (r.dkind = 5 → m ≠ c → (s.getCore m).calls.length < 16 →
      exec (.copyStart c q.toNat) s = .next { begun s q with others := aset s.others m { s.getCore m with
        calls := (s.getCore m).calls ++ [
          { caller := s.core.thread, seq := q, w0 := r.w0, w2 := r.w2, entry := BitVec.ofNat 21 (r.w1.toNat / 2 ^ 32)
            pid := s.core.ctl.pid, topx := o.att.topx, rm := o.att.rm }] } })

namespace Sys2Proof.Claims

open Sys2Proof Sys2Proof.Machine

/-- The copy `r`, plain and contiguous within the store of its core: no conversion, no reduction, no rows, no record, no
completion word and no counted write. -/
def localCopy (r : CopyOp) : Prop :=
  r.skind = 1 ∧ r.dkind = 1 ∧ r.conv = 0 ∧ r.red = 0 ∧ r.rowb = 0 ∧ r.isDealt = false ∧ r.dlen = r.len ∧
  r.cwe = false ∧ r.mbx = false ∧ r.counted = 0

end Sys2Proof.Claims

/-- R284, R288, R289, R292, R295: a started copy whose sides resolve without a failure completes: the bytes of its source,
converted, are laid over the pieces of its destination, or enter the stream port as far as there is room. A plain copy
within the own store leaves the source bytes at the destination and nothing else changed there; off-core bytes that no
write still in order touches arrive in the own store unchanged; the ring entry becomes done. One whose sides fail stops
at the first failure in source order, with a late fault. That the bytes move in one step at the end, and that of a failed
copy a free part of those before the failure has moved, is the model's (notes/assumptions/11.md). -/
def Obligations.CopyEnds : Prop :=
  (∀ (s : State) (q : BitVec 16) (o : Op) (r : CopyOp), copyAt s q o r → o.started = true → r.moved = false →
    r.dkind ≠ 5 → let c := s.core.addr.toNat
    ∀ ps qs bad t, s.sides o r = .ok ps qs bad t →
      let y := t.gather (s.engineSeen o) ps
      let x := convert r.conv o.att.topx y.1
      let w := y.2.putAll o r x.1 qs
      let p := y.2.feedPort q r.fed x.1
      (bad = none → r.dkind ≠ 3 → exec (.copyComplete c q.toNat) s =
        .next (((w.2.setFlags (x.2 ||| w.1)).on (·.holdRanges q (ps ++ qs))).completeCopy q r
          (t.piecesWrites o r r.dlen qs).2)) ∧
      (bad = none → r.dkind = 3 → r.dlen ≤ p.1 → exec (.copyComplete c q.toNat) s =
        .next (((p.2.on (·.holdRanges q ps)).setFlags x.2).completeCopy q { r with fed := p.1 } 0)) ∧
      (bad = none → r.dkind = 3 → p.1 < r.dlen → exec (.copyComplete c q.toNat) s =
        .next (p.2.on (·.holdRanges q ps))) ∧
      ∀ off f, bad = some (off, f) →
        let cut := off / (convSizes r.conv).1 * (convSizes r.conv).2
        let z := if f = noTarget ∧ off = 0 then ((0, 0), t) else t.partialMove o r ps qs cut
        exec (.copyFault c q.toNat) s = .next ((z.2.countCopyError f).failCopy q r z.1 f)) ∧
  (∀ (s : State) (q : BitVec 16) (o : Op) (r : CopyOp), copyAt s q o r → o.started = true → r.moved = false →
    localCopy r → pendingAt s q → intact s (localOf r.src) r.len → s.core.ctl.status.ckpt = false →
    ∃ t, exec (.copyComplete s.core.addr.toNat q.toNat) s = .next t ∧ doneAt t q ∧
      (∀ k, k < r.len → byteAt t (localOf r.dst + k) = byteAt s (localOf r.src + k)) ∧
      (∀ k, (∀ i, i < r.len → k ≠ s.core.localKey (localOf r.dst + i)) → t.mem.byte k = s.mem.byte k) ∧
      t.core.regs = s.core.regs ∧ t.core.ctl = s.core.ctl ∧ t.core.mtx = s.core.mtx ∧ t.pkgs = s.pkgs) ∧
  (∀ (s : State) (q : BitVec 16) (o : Op) (r : CopyOp), copyAt s q o r → o.started = true → r.moved = false →
    localCopy r → pendingAt s q → s.core.ctl.status.ckpt = false →
    ∀ k, s.poisonAt (s.core.localKey (localOf r.src)) r.len = some k →
      ∃ t, exec (.copyFault s.core.addr.toNat q.toNat) s = .next t ∧ lateFaulted t q (Cause.uncorr, localOf r.src + k) ∧
        t.core.regs = s.core.regs) ∧
  (∀ (t : State) (o : Op) (r : CopyOp) (seen : List Nat) (n a pa k : Nat) (place : BitVec 2) (off : Nat), r.red = 0 →
    t.offKey pa place = some k → t.order.touching k n = [] →
    let x := t.gather seen [{ off := off, n := n, at_ := .off pa place, base := none }]
    let u := x.2.putAll o r x.1 [{ off := 0, n := n, at_ := .store t.core.thread a, base := none }]
    ∀ i, i < n → u.2.mem.byte (t.core.localKey (a + i)) = t.mem.byte (k + i)) ∧
  (∀ (t : State) (q : BitVec 16) (r : CopyOp), r.cwe = false → r.mbx = false → r.counted = 0 → pendingAt t q →
    let u := t.completeCopy q r 0
    doneAt u q ∧ u.mem = t.mem ∧ u.posted = t.posted ∧ u.core.regs = t.core.regs) ∧
  ∀ (t : State) (q : BitVec 16) (r : CopyOp) (n : Nat × Nat) (f : Trap), r.mbx = false → f.1 ≠ Cause.uncorr → pendingAt t q →
    let u := t.failCopy q r n f
    lateFaulted u q f ∧ u.mem = t.mem ∧ u.core.regs = t.core.regs

/-- R290: a post enters the mailbox of its thread, here that of the core in focus, when fewer than 32 records stand in
it, and sets the latch; the entry of the copy that posted it becomes done. R297: a memory core that runs no thread
starts its first loader call, with the caller, its sequence number and the words it passed in `g3` to `g6`. -/
def Obligations.MailboxAndLoaderCalls : Prop :=
  (∀ (s : State) (p : Post), let c := s.core.addr.toNat
    s.posts.find? (·.goesTo c s.core.thread) = some p → s.core.mail.length < 32 →
    let t : State := { s with
      posts := s.posts.erase p, core := { s.core with mail := s.core.mail ++ [p.record], latch := true } }
    (∀ e, p.src = .engine e → exec (.mailboxPost c) s = .next t) ∧
    ∀ q, p.src = .copy s.core.thread q → p.record.extractLsb' 16 8 = 0 → pendingAt s q →
      ∃ u, exec (.mailboxPost c) s = .next u ∧ doneAt u q ∧ u.core.mail = t.core.mail ∧ u.posts = t.posts ∧
        u.mem = s.mem ∧ u.core.regs = s.core.regs) ∧
  ∀ (s : State) (x : LoaderCall) (l : List LoaderCall), let c := s.core.addr.toNat
    isChannelCore c = true → s.coreExists c = true → s.core.alive = false → s.core.endedBadly = false →
    s.core.anyPending = false → s.core.calls = x :: l →
    ∃ t, exec (.loaderCallStart c) s = .next t ∧ t.core.run = .running ∧ t.core.calls = l ∧ t.pc = x.entry ∧
      t.g 3 = word (threadCore x.caller) ∧ t.g 4 = word x.seq.toNat ∧ t.g 5 = x.w0 ∧ t.g 6 = x.w2 ∧
      (∀ i, i ≠ 3 → i ≠ 4 → i ≠ 5 → i ≠ 6 → t.g i = 0) ∧ t.core.ctl.status =
        { Status.reset with ie := true, topx := x.topx, rm := x.rm } ∧ t.core.ctl.pid = x.pid ∧
      t.core.ctl.lslim = 0x17C000 ∧ t.core.ctl.vlim = 1 ∧ t.core.ctl.blim = 0 ∧ t.core.ctl.clim = 16

/-! ## How the matrix unit runs (R298, R299, R310 to R313, R342, R343) -/

/-- R298, R299, R311, R313: the step that is served next starts with the tile of its accumulator shadowed and its result
formed from what it reads then; a parked step starts again once the port is open. -/
def Sys2Proof.Claims.TileStepStarts : Prop :=
  ∀ (s : State) (o : Op) (p : StepOp) (h : StepShape) (r : MtxRun), s.stepFault o p = none → stepShape o.att = .ok h →
    s.runStep o p h = some r → s.core.accBad.getLsbD p.acc.toNat = false →
    let core : Core := { s.core with
      ops := s.core.ops.map fun q => if q.seq = o.seq then { q with started := true } else q
      accBad := s.core.accBad &&& ~~~(BitVec.twoPow 8 (4 + p.acc.toNat))
      mtx := { s.core.mtx with
        shadow := s.core.mtx.shadow.set p.acc.toNat (s.core.mtx.acc.get p.acc.toFin) p.acc.isLt, run := some r } }
    (∀ unit pos, s.nextServed unit = some pos → clusterCore unit pos = s.core.addr.toNat →
      s.readyStep false = some (o, p) →
      ∃ t, exec (.tileStepStart unit) s = .next t ∧ t = { s with core := core, units := t.units } ∧
        (agetD t.units unit { pos := 0, left := 0 }).pos = pos) ∧
    (s.readyStep true = some (o, p) → s.core.mtx.portStopped = false →
      s.runStep o { p with parked := false } h = some r →
      exec (.streamedStepReplay s.core.addr.toNat) s = .next { s with core := core })

/-- R19, R309, R379: a step that is served next and does not execute ends with its late fault, its tile as it was: a
FORMAT case, a failed check of its scale arrays, or an uncorrectable error in what it reads, with 0x100 and the number
for its accumulator. -/
def Sys2Proof.Claims.TileStepFaults : Prop :=
  ∀ (s : State) (unit pos : Nat) (o : Op) (p : StepOp), s.nextServed unit = some pos →
    clusterCore unit pos = s.core.addr.toNat → s.readyStep false = some (o, p) → pendingAt s o.seq →
    s.core.ctl.status.ckpt = false →
    (∀ f, s.stepFault o p = some f → ∃ t, exec (.tileStepStart unit) s = .next t ∧ lateFaulted t o.seq f ∧
      t.core.mtx = s.core.mtx ∧ t.core.regs = s.core.regs ∧ t.mem = s.mem) ∧
    (s.stepFault o p = none → s.core.accBad.getLsbD p.acc.toNat = true → ∃ t, exec (.tileStepStart unit) s = .next t ∧
      lateFaulted t o.seq (Cause.uncorr, 0x100 + p.acc.toNat) ∧ t.core.mtx = s.core.mtx ∧ t.mem = s.mem) ∧
    (∀ n, stepShape o.att = .error n → s.stepFault o p = some (Cause.format, n)) ∧
    ∀ h n, stepShape o.att = .ok h → s.core.formatCase o.att p h = some n → s.stepFault o p = some (Cause.format, n)

/-- R307, R311, R312, R379: a step without a checksum mismatch writes its tile, keeps its operands and raises its flags;
the first mismatch restores the tile and runs it again; a second one restores it and raises MTX_CHECK with the number of
the accumulator; a restore that meets an uncorrectable error in the shadow raises UNCORR instead, and takes nothing from
the port (R295). Every step of a failed matrix unit ends as with two mismatches (R393; notes/assumptions/73.md). -/
def Sys2Proof.Claims.TileStepEnds : Prop :=
  ∀ (s : State) (r : MtxRun), s.core.mtx.run = some r → pendingAt s r.seq →
    let c := s.core.addr.toNat
    let back := s.core.mtx.acc.set r.acc.toNat (s.core.mtx.shadow.get r.acc.toFin) r.acc.isLt
    let port := dropPort r.portBytes s.core.mtx.port
    let bad := s.core.accBad.getLsbD (4 + r.acc.toNat)
    let fails := fun (n : Nat) => ∃ t, exec (.tileStepComplete c n) s = .next t ∧
      lateFaulted t r.seq (Cause.mtxCheck, r.acc.toNat) ∧
      t.core.mtx = { s.core.mtx with acc := back, port := port, run := none } ∧ t.core.ctl = s.core.ctl ∧
      t.core.regs = s.core.regs ∧ t.mem = s.mem
    (s.unitFails c = true → bad = false → ∀ n, fails n) ∧
    (s.unitFails c = false →
    (∃ t, exec (.tileStepComplete c 0) s = .next t ∧ doneAt t r.seq ∧ t.core.mtx = { s.core.mtx with
        acc := s.core.mtx.acc.set r.acc.toNat r.result r.acc.isLt, port := port, run := none
        bufA := r.bufA, bufB := r.bufB } ∧ t.core.ctl = { s.core.ctl with fstat := s.core.ctl.fstat ||| r.flags } ∧
      t.core.regs = s.core.regs ∧ t.mem = s.mem) ∧
    (bad = false → r.reran = false → exec (.tileStepComplete c 1) s = .next { s with core := { s.core with
      mtx := { s.core.mtx with acc := back, run := some { r with reran := true } }
      faults := { s.core.faults with mtxrerun :=
        if s.core.faults.mtxrerun.toNat = 2 ^ 32 - 1 then s.core.faults.mtxrerun else s.core.faults.mtxrerun + 1 } } }) ∧
    (bad = false → r.reran = true → fails 1) ∧ (bad = false → r.reran = false → fails 2) ∧
    (bad = true → s.core.ctl.status.ckpt = false → ∀ n, n = 1 ∨ n = 2 → ∃ t, exec (.tileStepComplete c n) s = .next t ∧
      lateFaulted t r.seq (Cause.uncorr, 0x100 + r.acc.toNat) ∧ t.core.mtx.run = none ∧
      t.core.mtx.port = s.core.mtx.port ∧ t.core.regs = s.core.regs))

/-- R19, R295, R298, R299, R307, R309, R311 to R313, R379, R393: tile steps, their start, the faults with which they do not execute,
and their end. -/
def Obligations.TileSteps : Prop :=
  Claims.TileStepStarts ∧ Claims.TileStepFaults ∧ Claims.TileStepEnds

/-- R53, R310, R342, R343, R379: the other matrix operations, each when it is first in its queue with nothing before it
that conflicts: `mzero` and `mlda` set a tile, `msta` stores one, `mfmt` stores it converted, and `mcbld` sets a codebook
table, once no step uses it; one that reads bytes or an accumulator with an uncorrectable error ends with a late fault. -/
def Obligations.MatrixOperations : Prop :=
  ∀ (s : State) (o : Op), s.core.matrixHead = some o → s.core.blocked o = false → pendingAt s o.seq →
    let c := s.core.addr.toNat
    let x := exec (.matrixOperationPerform c) s
    let tile := fun (n : BitVec 2) => s.core.mtx.acc.get n.toFin
    let holds := fun (n : BitVec 2) => !s.core.accBad.getLsbD n.toNat
    let setTile := fun (t : State) (n : BitVec 2) (y : Tile) =>
      doneAt t o.seq ∧ t.core.mtx = { s.core.mtx with acc := s.core.mtx.acc.set n.toNat y n.isLt } ∧
      t.core.ctl = s.core.ctl ∧ t.core.regs = s.core.regs ∧ t.mem = s.mem
    let stores := fun (t : State) (a : Nat) (ys : List Byte) =>
      doneAt t o.seq ∧ t.core.mtx = s.core.mtx ∧ t.core.regs = s.core.regs ∧
      (∀ k, k < ys.length → byteAt t (a + k) = (ys.getD k 0).toNat) ∧
      ∀ k, (∀ j, j < ys.length → k ≠ s.core.localKey (a + j)) → ¬ inUndo s k → t.mem.byte k = s.mem.byte k
    (∀ n, o.body = .mzero n → ∃ t, x = .next t ∧ setTile t n 0) ∧
    (∀ n a, o.body = .mlda n a →
      (intact s a 1024 → ∃ t, x = .next t ∧ setTile t n (BitVec.ofNat 8192 (readAt s a 1024))) ∧
      (s.core.ctl.status.ckpt = false → ∀ b, s.readError a 1024 = some b →
        ∃ t, x = .next t ∧ lateFaulted t o.seq (Cause.uncorr, b) ∧ t.core.mtx = s.core.mtx)) ∧
    (∀ n a, o.body = .msta n a → holds n = true → s.core.run ≠ .cancelled →
      ∃ t, x = .next t ∧ t.core.ctl = s.core.ctl ∧ stores t a (natLe 1024 (tile n).toNat)) ∧
    (∀ n src rm dst a, o.body = .mfmt n src rm dst a → holds n = true → s.core.run ≠ .cancelled →
      let y := mfmtTile (tile n) src dst (rm.setWidth 3) o.att.topx
      ∃ t, x = .next t ∧ t.core.ctl = { s.core.ctl with fstat := s.core.ctl.fstat ||| y.2 } ∧ stores t a y.1) ∧
    (∀ n a, o.body = .msta n a ∨ (∃ src rm dst, o.body = .mfmt n src rm dst a) → holds n = false →
      s.core.ctl.status.ckpt = false → ∃ t, x = .next t ∧ lateFaulted t o.seq (Cause.uncorr, 0x100 + n.toNat) ∧
        t.mem = s.mem ∧ t.core.ctl = s.core.ctl) ∧
    (∀ a n, o.body = .mcbld a n → s.tableInUse (unitOf c) n = true → x = .next s) ∧
    ∀ a n, o.body = .mcbld a n → intact s a 2048 → s.tableInUse (unitOf c) n = false →
      ∃ t, x = .next t ∧ doneAt t o.seq ∧ t.core.regs = s.core.regs ∧ t.core.mtx = s.core.mtx ∧
        (∀ k, k < 2048 → s.tableByte (unitOf c) n k = s.mem.byte (keyBook (unitOf c) (n * 2048 + k)) ∧
          t.tableByte (unitOf c) n k = s.mem.byte (s.core.localKey (a + k))) ∧
        ∀ k, (∀ j, j < 2048 → k ≠ keyBook (unitOf c) (n * 2048 + j)) → t.mem.byte k = s.mem.byte k

/-! ## The event engine (R315 to R325, R330, R344 to R349) -/

namespace Sys2Proof.Claims

open Sys2Proof Sys2Proof.Machine

/-- The state with an engine changed. -/
def withEngine (s : State) (eng : Nat) (e : Engine) : State := { s with engines := aset s.engines eng e }

/-- A saturating counter of 32 bits counts one more. -/
def countUp (x : BitVec 32) : BitVec 32 := if x.toNat = 2 ^ 32 - 1 then x else x + 1

/-- An engine whose queue an event has entered (R320). -/
def queued (s : State) (eng key t : Nat) (w : Word) : Engine :=
  { s.engine eng with
    queue := (s.engine eng).queue ++ [{ t := t, clk := s.clk, key := key, arr := (s.engine eng).arr, w := w }]
    arr := (s.engine eng).arr + 1 }

/-- The event that an engine delivers next: due, of the lowest tick, the first to arrive among equals, and entered before
this clk, in an engine that runs (R320, R425; notes/assumptions/71.md). -/
def dueFirst (s : State) (eng : Nat) (q : QEvent) : Prop :=
  (s.engine eng).head = some q ∧ q.t ≤ s.engineTick eng ∧ q.clk < s.clk ∧ s.postHeld eng = false ∧
    s.clusterRuns (clusterCore eng 0) = true

/-- Field NM1, EN or IO of the descriptor of an event's population, and whether the event's index is in it (R317, R321). -/
def deliverable (s : State) (eng : Nat) (w : Word) : Prop :=
  let x := s.popDesc eng (evPop w)
  popEn x = true ∧ popBase x ≤ evIndex w ∧ evIndex w ≤ popBase x + popNm1 x

/-- From `s` to `t` the engine delivers `q`: its queue loses `q`, and the first trigger event that waits for the place enters
(R330). The engine, the 16 bytes of one state, errors that stood there, posts and events on their way may differ, and with
a fan-out the fault counters of its owner, which stand in its core or saved context. -/
def delivered (eng : Nat) (q : QEvent) (s t : State) : Prop :=
  let e := s.engine eng; let u := t.engine eng
  t = { s with engines := t.engines, mem := t.mem, poison := t.poison, posts := t.posts, evnet := t.evnet,
               core := t.core, others := t.others, saved := t.saved } ∧
  (popFan (s.popDesc eng (evPop q.w)) = false → t.core = s.core ∧ t.others = s.others ∧ t.saved = s.saved) ∧
  (∀ d, d ≠ eng → t.engine d = s.engine d) ∧
  (∀ k, (∀ j, j < 16 → k ≠ keyBank eng (16 * evIndex q.w + j)) → t.mem.byte k = s.mem.byte k) ∧
  (e.waiting = [] → u.queue = e.queue.erase q ∧ u.waiting = []) ∧
  (∀ k d w r, e.waiting = (k, d, w) :: r → (e.queue.erase q).length = 8191 →
    u.queue = e.queue.erase q ++ [{ t := d, clk := s.clk, key := k, arr := e.arr, w := w }] ∧ u.waiting = r)

/-- The event that the fan-out entry at local address `a` of a population's owner sends at tick `t`: none for an entry that
leaves the store, holds an error or a field that must be zero, or names a core that it cannot reach (R324; notes/assumptions/39.md,
72.md). -/
def fanSent (s : State) (eng p t a : Nat) : Option EvMsg :=
  let key := s.ownerKey (s.engine eng) p a
  let x := s.mem.read key 16
  let c := x / 2 ^ 64 % 2 ^ 23
  if a + 16 ≤ 0x180000 ∧ s.poisonHit key 16 = false ∧ x / 2 ^ 63 % 2 = 0 ∧ x / 2 ^ 87 % 2 ^ 41 = 0 ∧
      s.eventReaches (clusterCore eng 0) c = true then
    some { src := (s.engine eng).ownerThread p, engine := some eng, target := unitOf c, w := BitVec.ofNat 64 x
           t := some ((t + x / 2 ^ 36 % 2 ^ 27) % 2 ^ 48) }
  else none

/-- From `s` to `t` state `i` of a population that fires at tick `now` sends its fan-out: the entries that words `i` and `i + 1`
of its FANOFF array bound, each sent or counted in FANLOST (R324). -/
def fannedOut (eng p i now : Nat) (s t : State) : Prop :=
  let x := s.popDesc eng p; let e := s.engine eng
  let a := popField x 0x18 21 + 4 * (i - popBase x)
  let lo := s.mem.read (s.ownerKey e p a) 4
  let ks := List.range' lo (s.mem.read (s.ownerKey e p (a + 4)) 4 - lo)
  let ms := ks.filterMap fun k => fanSent s eng p now (popField x 0x1C 21 + 16 * k)
  let lost := fun (n : Nat) => ((t.engine eng).fanlost.toNat = min (2 ^ 32 - 1) (e.fanlost.toNat + n))
  if s.poisonHit (s.ownerKey e p a) 8 = true then t.evnet = s.evnet ∧ lost 1
  else t.evnet = s.evnet ++ ms ∧ lost (ks.length - ms.length)

/-- From `s` to `t` the fire record of a population is posted at the core that it names, or dropped and counted in
RECLOST (R290, R324, R369, R411). -/
def mailed (eng p : Nat) (rec_ : BitVec 128) (s t : State) : Prop :=
  let c := popField (s.popDesc eng p) 0x14 23; let e := s.engine eng
  let target := match s.anyThread (e.ownerThread p) with
    | some o => if s.coresReach (clusterCore eng 0) c then s.storeOwner o.ctl.pid c else none
    | none => none
  match target with
  | some k => t.posts = s.posts ++ [{ target := k, record := rec_, src := .engine eng }] ∧ (t.engine eng).reclost = e.reclost
  | none => t.posts = s.posts ∧ (t.engine eng).reclost = countUp e.reclost

end Sys2Proof.Claims

/-- R163, R319, R320, R324, R346, R396: an event that reaches an engine is queued with the tick it resolves to; at a full
queue it is discarded and counted in OVERFLOW, and at a cluster that takes none it is discarded, a fan-out event with a
count in FANLOST; one behind another of its sender to that engine waits. The event delivered next is the one of the
lowest tick, of those the first that entered, and of those that entered in one clk the one of the lowest sender; the
sender of a fan-out event is the lowest core of its engine's cluster (notes/assumptions/71.md). -/
def Sys2Proof.Claims.EventArrivals : Prop :=
  (∀ (s : State) (i : Nat) (m : EvMsg), s.evnet[i]? = some m →
    let t : State := { s with evnet := s.evnet.eraseIdx i }
    let e := s.engine m.target
    let there := s.clusterTakes (clusterCore m.target 0)
    let sender := fun (x : EvMsg) => match x.engine with
      | some e => clusterCore e 0
      | none => threadCore x.src
    let same := fun (x : EvMsg) => sender x = sender m ∧ x.engine = m.engine ∧ x.target = m.target
    ((∃ x ∈ s.evnet.take i, same x) → exec (.eventArrival i) s = .next s) ∧
    ((∀ x ∈ s.evnet.take i, ¬ same x) →
    (there = true → e.queue.length < 8192 → exec (.eventArrival i) s = .next (withEngine t m.target
      (queued s m.target m.key (m.t.getD (resolveTick m.w (s.engineTick m.target))) m.w))) ∧
    (there = true → 8192 ≤ e.queue.length →
      exec (.eventArrival i) s = .next (withEngine t m.target { e with overflow := countUp e.overflow })) ∧
    (there = false → exec (.eventArrival i) s = .next (match m.engine with
      | some k => withEngine t k { s.engine k with fanlost := countUp (s.engine k).fanlost }
      | none => t)))) ∧
  (∀ (e : Engine) (q : QEvent), e.head = some q → q ∈ e.queue ∧ ∀ x ∈ e.queue, q.t < x.t ∨ q.t = x.t ∧ (q.clk < x.clk ∨
    q.clk = x.clk ∧ (q.key < x.key ∨ q.key = x.key ∧ q.arr ≤ x.arr))) ∧
  ∀ (w : Word) (now : Nat), now < 2 ^ 48 - 2 ^ 27 →
    (w.getLsbD 63 = false → resolveTick w now = now + w.toNat / 2 ^ 36 % 2 ^ 27) ∧
    (w.getLsbD 63 = true → resolveTick w now % 2 ^ 27 = w.toNat / 2 ^ 36 % 2 ^ 27 ∧
      now ≤ resolveTick w now + 2 ^ 26 ∧ resolveTick w now < max now (2 ^ 26) + 2 ^ 26)

/-- R320 to R324: the due event of the lowest tick leaves the queue. One whose population is disabled or does not hold
its index counts in REJECT. One before the state's last tick counts as LATE. In an IO population V takes the rounded sum of
itself and the weight; in another, an event that falls into the refractory ticks of its state, or a late one while any are
left, counts in REFDROP; a late one or one at the first tick after them adds its weight, and a later one adds it to V decayed
in one rounding. V that reaches the threshold fires: the state is reset and FIRED counts, the fan-out of a FAN population is
sent (notes/assumptions/39.md, 72.md), and a MBX population's fire record is posted. -/
def Sys2Proof.Claims.EventDeliveries : Prop :=
  ∀ (s : State) (eng : Nat) (q : QEvent), eng < 2 ^ 19 → dueFirst s eng q →
    let p := evPop q.w; let x := s.popDesc eng p
    let i := evIndex q.w
    let n := s.bankState eng i
    let e := s.engine eng
    let w := bf16.decode (q.w.toNat / 2 ^ 20 % 2 ^ 16)
    let v := round32 (sumX [fp32.decode n.v, w] rmRNE)
    let late := q.t < n.last
    let dropped := if late then 0 < n.refr else q.t < n.last + n.refr
    let y := if late ∨ q.t = n.last + n.refr then v
      else
        let k := s.decay eng (popLeak x) (q.t - (n.last + n.refr))
        let z := round32 (fmaX (fp32.decode n.v) (fp32.decode k.1) w rmRNE)
        (z.1, z.2 ||| k.2)
    let last := max n.last q.t % 2 ^ 48
    (¬ deliverable s eng q.w → e.waiting = [] → exec (.eventDelivery eng) s = .next (withEngine s eng { e with
      queue := e.queue.erase q, reject := countUp e.reject })) ∧
    (deliverable s eng q.w → ∃ t, exec (.eventDelivery eng) s = .next t ∧ delivered eng q s t ∧
      let u := t.engine eng
      let takes := fun (z : Nat × BitVec 6) => u.deliv = countUp e.deliv ∧ u.flags = e.flags ||| z.2.setWidth 5 ∧
        u.refdrop = e.refdrop
      let silent := t.evnet = s.evnet ∧ t.posts = s.posts ∧ u.fired = e.fired ∧ u.fanlost = e.fanlost ∧ u.reclost = e.reclost
      u.reject = e.reject ∧ (late → u.late = countUp e.late) ∧ (¬ late → u.late = e.late) ∧
      (popIo x = true → takes v ∧ silent ∧ t.bankState eng i = { n with v := v.1 % 2 ^ 32, last := last }) ∧
      (popIo x = false → dropped → silent ∧ t.mem = s.mem ∧ u.deliv = e.deliv ∧ u.flags = e.flags ∧
        u.refdrop = countUp e.refdrop) ∧
      (popIo x = false → ¬ dropped → takes y ∧
        (reaches32 y.1 (popField x 0x08 32) = false → silent ∧
          t.bankState eng i = { n with v := y.1 % 2 ^ 32, last := last, refr := 0 }) ∧
        (reaches32 y.1 (popField x 0x08 32) = true → u.fired = countUp e.fired ∧
          t.bankState eng i = { v := popField x 0x0C 32, last := last, refr := popField x 0x10 16
                                fires := min (n.fires + 1) 0xFFFF, user := n.user } ∧
          (popFan x = false → t.evnet = s.evnet ∧ u.fanlost = e.fanlost) ∧ (popFan x = true → fannedOut eng p i q.t s t) ∧
          (popMbx x = false → t.posts = s.posts ∧ u.reclost = e.reclost) ∧
          (popMbx x = true → t.core = s.core → t.others = s.others → t.saved = s.saved →
            mailed eng p (fireRecord eng p q.t i (min (n.fires + 1) 0xFFFF)) s t))))

/-- R319 to R322: events that arrive at an engine, and those that it delivers. -/
def Obligations.EventQueue : Prop :=
  Claims.EventArrivals ∧ Claims.EventDeliveries

namespace Sys2Proof.Claims

open Sys2Proof Sys2Proof.Machine

/-- The core in focus holds operation `o`, the next that its engine performs, and no other event operation of it has
begun. -/
def engineTakes (s : State) (o : Op) : Prop :=
  s.eventReady = some o ∧ pendingAt s o.seq ∧
    (s.core.ops.any fun p => p.seq != o.seq && p.body.isEvent && p.started) = false ∧
    ((List.range 8).map fun i => ((s.engine (unitOf s.core.addr.toNat)).pos + i) % 8).find?
      (s.positionReady (unitOf s.core.addr.toNat)) = some (posOf s.core.addr.toNat)

/-- The engine of the core in focus, which serves the next position after it. -/
def servedNext (s : State) (t : State) (e : Engine) : Prop :=
  t.engine (unitOf s.core.addr.toNat) = { e with pos := (posOf s.core.addr.toNat + 1) % 8 }

end Sys2Proof.Claims

/-- R317, R319, R325, R344 to R349, R379: what the engine does with each event operation when it is this core's turn:
`evcfg` sets a leak table, a descriptor or TICKNS, or is refused with its reason; `evpost` queues an event here or sends
it away; `evsweep` sweeps; `evread` and `evwrite` move their states one by one, between which deliveries may fall;
`evread.st` stores the engine's status; `evdrain.pop` discards a population's events; `evdrain` is done when no event due
before it is left, at once or later. -/
def Obligations.EventOperations : Prop :=
  (∀ (s : State) (o : Op), engineTakes s o →
    let c := s.core.addr.toNat
    let eng := unitOf c
    let e := s.engine eng
    let x := exec (.eventOperationPerform c) s
    let goesOn := fun (t : State) (b : OpBody) =>
      (∃ y ∈ t.core.ops, y.seq = o.seq ∧ y.started = true ∧ y.body = b) ∧ (t.engine eng).pos = posOf c
    (∀ a n, o.body = .evcfg .leak a n → intact s a 1024 → ∃ t, x = .next t ∧ doneAt t o.seq ∧ servedNext s t e ∧
      ∀ k, k < 1024 → t.mem.byte (keyLeak eng (1024 * n + k)) = s.mem.byte (s.core.localKey (a + k))) ∧
    (∀ a n, o.body = .evcfg .pop a n → intact s a 32 → let y := readAt s a 32
      (∀ r, s.popRefusal eng n o.att.lslim.toNat y = some r →
        ∃ t, x = .next t ∧ lateFaulted t o.seq (Cause.event, r) ∧ t.mem = s.mem) ∧
      (s.popRefusal eng n o.att.lslim.toNat y = none →
        ∃ t, x = .next t ∧ doneAt t o.seq ∧ t.popDesc eng n = y ∧ (t.engine eng).owner n = some (c, s.core.info.num))) ∧
    (∀ a, o.body = .evcfg .eng a 0 → intact s a 8 → let y := readAt s a 8
      (∀ r, s.engRefusal eng y = some r → ∃ t, x = .next t ∧ lateFaulted t o.seq (Cause.event, r) ∧
        (t.engine eng).tickns = e.tickns) ∧
      (s.engRefusal eng y = none → ∃ t, x = .next t ∧ doneAt t o.seq ∧ (t.engine eng).tickns = y % 2 ^ 25 ∧
        (t.engine eng).queue = e.queue ∧ (t.engine eng).deliv = if y / 2 ^ 32 % 2 = 1 then 0 else e.deliv)) ∧
    (∀ kind a n, o.body = .evcfg kind a n → s.core.ctl.status.ckpt = false → ∀ b, s.readError a kind.len = some b →
      ∃ t, x = .next t ∧ lateFaulted t o.seq (Cause.uncorr, b) ∧ t.mem = s.mem) ∧
    (∀ w d, o.body = .evpost w d → ownTarget c d = true → ∃ t, x = .next t ∧ doneAt t o.seq ∧
      servedNext s t (queued s eng c (resolveTick w (s.engineTick eng)) w) ∧ t.mem = s.mem) ∧
    (∀ w d, o.body = .evpost w (some d) → isMemCore d = true ∨ unitOf d ≠ eng →
      (s.clusterPresent d = true → s.eventReaches c d = true → ∃ t, x = .next t ∧ doneAt t o.seq ∧
        t.evnet = s.evnet ++ [{ src := s.core.thread, engine := none, target := unitOf d, w := w, t := none }]) ∧
      (s.clusterPresent d = true → s.eventReaches c d = false →
        ∃ t, x = .next t ∧ doneAt t o.seq ∧ t.evnet = s.evnet) ∧
      (s.clusterPresent d = false → ∃ t, x = .next t ∧ lateFaulted t o.seq (Cause.event, 5) ∧ t.evnet = s.evnet)) ∧
    (∀ p, o.body = .evsweep p → (popEn (s.popDesc eng p) = false ∨ popIo (s.popDesc eng p) = true →
        ∃ t, x = .next t ∧ doneAt t o.seq ∧ t.mem = s.mem) ∧
      ∀ i, popEn (s.popDesc eng p) = true → popIo (s.popDesc eng p) = false → popBase (s.popDesc eng p) = i →
        popNm1 (s.popDesc eng p) = 0 → let n := s.bankState eng i; let now := s.engineTick eng
        ∃ t, x = .next t ∧ doneAt t o.seq ∧ (now < n.last + n.refr → t.mem = s.mem) ∧
          (now = n.last + n.refr → now < 2 ^ 48 → reaches32 n.v (popField (s.popDesc eng p) 0x08 32) = false →
            (t.bankState eng i).v = n.v ∧ (t.bankState eng i).last = now ∧ (t.bankState eng i).refr = 0)) ∧
    (∀ a i n, o.body = .evread a i n → s.core.run ≠ .cancelled → ∃ t, x = .next t ∧
      (n ≤ 1 → doneAt t o.seq) ∧ (1 < n → goesOn t (.evread (a + 16) (i + 1) (n - 1))) ∧
      (s.poisonHit (keyBank eng (16 * i)) 16 = false →
        ∀ k, k < 16 → t.mem.byte (s.core.localKey (a + k)) = s.mem.byte (keyBank eng (16 * i + k))) ∧
      (s.poisonHit (keyBank eng (16 * i)) 16 = true → readAt t a 4 = fp32.nanCode ∧
        (t.engine eng).bankue = countUp e.bankue)) ∧
    (∀ a, o.body = .evreadSt a → s.core.run ≠ .cancelled → ∃ t, x = .next t ∧ doneAt t o.seq ∧ readAt t a 4 = e.deliv.toNat ∧
      readAt t (a + 4) 4 = e.refdrop.toNat ∧ readAt t (a + 8) 4 = e.late.toNat ∧
      readAt t (a + 12) 4 = e.overflow.toNat ∧ readAt t (a + 16) 4 = e.reject.toNat ∧
      readAt t (a + 20) 4 = e.fanlost.toNat ∧ readAt t (a + 24) 2 = e.queue.length % 2 ^ 16 ∧
      readAt t (a + 26) 1 = (s.triggersOf eng).length % 2 ^ 8 ∧ readAt t (a + 27) 1 = e.flags.toNat ∧ readAt t (a + 28) 4 = e.fired.toNat ∧
      readAt t (a + 32) 4 = e.reclost.toNat) ∧
    (∀ a i n, o.body = .evwrite a i n → 0 < n → intact s a (16 * n) → ∃ t, x = .next t ∧
      (n = 1 → doneAt t o.seq) ∧ (1 < n → goesOn t (.evwrite (a + 16) (i + 1) (n - 1))) ∧
      ∀ k, k < 16 → t.mem.byte (keyBank eng (16 * i + k)) = s.mem.byte (s.core.localKey (a + k))) ∧
    (∀ p, o.body = .evdrainPop p → e.waiting = [] →
      (s.foreignPop eng s.core p = false → ∃ t, x = .next t ∧ doneAt t o.seq ∧
        (t.engine eng).queue = e.queue.filter fun (y : QEvent) => evPop y.w != p) ∧
      (s.foreignPop eng s.core p = true → ∃ t, x = .next t ∧ lateFaulted t o.seq (Cause.event, 3) ∧
        (t.engine eng).queue = e.queue)) ∧
    (o.body = .evdrain none → (e.dueBy (s.engineTick eng) = false → ∃ t, x = .next t ∧ doneAt t o.seq) ∧
      (e.dueBy (s.engineTick eng) = true → ∃ t, x = .next t ∧ ∃ y, t.core.op o.seq = some y ∧
        y.body = .evdrain (some (s.engineTick eng))))) ∧
  ∀ (s : State) (o : Op) (t0 : Nat), (s.core.ops.find? fun (y : Op) => y.body.isEvent) = some o →
    o.body = .evdrain (some t0) → pendingAt s o.seq → (s.engine (unitOf s.core.addr.toNat)).dueBy t0 = false →
    ∃ t, exec (.evdrainComplete s.core.addr.toNat) s = .next t ∧ doneAt t o.seq ∧ t.mem = s.mem ∧ t.core.regs = s.core.regs

/-- R327, R328, R330, R331, R350: a trigger whose value the clock has reached releases its copy, or queues its event, and
a trigger event at a full queue waits; `waitt` ends when the clock reaches its value; a correction of more than 1 µs steps
the clock and is recorded; the lock on the grandmaster shows as SYNC. -/
def Sys2Proof.Claims.TimeEvents : Prop :=
  (∀ (s : State) (u : Nat) (x : Trigger), s.dueTrigger u = some x →
    let t : State := { s with triggers := aset s.triggers u ((s.triggersOf u).erase x) }
    x.value.toNat ≤ (s.domainClock (triggerPkg u)).toNat ∧
    (∀ q, x.act = .release s.core.thread q → exec (.triggerFire u) s = .next { t with core := { s.core with
      ops := s.core.ops.map fun (o : Op) => if o.seq = q then (match o.body with
        | .copy r => { o with body := .copy { r with trig := .released } }
        | _ => o) else o } }) ∧
    ∀ w k, x.act = .post w k → let e := s.engine u
      let now := resolveTick w (s.engineTick u)
      (e.queue.length < 8192 → e.waiting = [] →
        exec (.triggerFire u) s = .next (withEngine t u (queued s u (threadCore k) now w))) ∧
      (8192 ≤ e.queue.length ∨ e.waiting ≠ [] →
        exec (.triggerFire u) s = .next (withEngine t u { e with waiting := e.waiting ++ [(threadCore k, now, w)] }))) ∧
  (∀ (s : State) (v : Word), s.core.wait = .time v → v.toNat ≤ (clockOf s).toNat →
    exec (.waittExpiry s.core.addr.toNat) s = .next { s with core := { s.core with
      wait := .no, regs := { s.core.regs with pc := s.pc + 4 } } }) ∧
  (∀ (s : State) (pkg : Nat) (x : Word), let old := s.domainClock pkg
    1000 < max x.toNat old.toNat - min x.toNat old.toNat →
    ∃ t, exec (.domainClockStep pkg x) s = .next t ∧ t = { s with pkgs := t.pkgs } ∧ t.domainClock pkg = x ∧
      (t.getPkg pkg).back = decide (x.toNat < old.toNat) ∧ (t.getPkg pkg).steps =
        (if ((s.getPkg pkg).steps).toNat = 2 ^ 16 - 1 then (s.getPkg pkg).steps else (s.getPkg pkg).steps + 1) ∧
      (t.getPkg pkg).mag = BitVec.ofNat 32 (min (max x.toNat old.toNat - min x.toNat old.toNat) (2 ^ 32 - 1))) ∧
  ∀ (s : State) (pkg : Nat) (b : Bool), exec (.grandmasterLockChange pkg b) s =
    .next (s.modPkg pkg fun p => { p with sync := b })

/-- R327 to R331, R350, R351: the time instructions, the triggers and the domain clock. -/
def Obligations.Time : Prop :=
  Claims.TimeInstructions ∧ Claims.TimeEvents

/-! ## Range operations (R214 to R217, R222 to R226, R268 to R272) -/

namespace Sys2Proof.Claims

open Sys2Proof Sys2Proof.Machine

/-- The result block of a range operation (R268): 56 bytes, which are zero but for OK, and the status word with the code and
the count of acknowledgements that a reset gave. -/
def resultBlock (t : State) (res code acks : Nat) (bytes : List Byte) : Prop :=
  readAt t (res + 0x38) 8 = 2 ^ 63 + min acks 0xFFFF * 2 ^ 32 + code ∧
  ∀ k, k < 0x38 → byteAt t (res + k) = if code = 0 then (bytes.getD k 0).toNat else 0

/-- The entries of a station's catalogue that translate an address for the core in focus. -/
def foundAt (s : State) (va : Nat) : List CatEntry :=
  (s.catalogue (stationOf s.core.addr.toNat)).filter fun (e : CatEntry) => e.entry.pid == s.core.ctl.pid && e.entry.contains va

/-- The oldest range operation of the core in focus that its station has not seen (R268). -/
def rangeNext (s : State) (o : Op) (form : RangeForm) (va : Word) (block : BitVec 512) (res : Nat) : Prop :=
  (s.core.ops.find? fun (p : Op) => match p.body with
    | .range _ _ _ _ sent => !sent
    | _ => false) = some o ∧ o.body = .range form va block res false ∧ s.core.blocked o = false ∧ pendingAt s o.seq

/-- The residency bits that an operation sets (R225). -/
def bitsSet (r : RangeOp) : Word := match r.news with
  | n :: _ => n.resmap
  | [] => 0

/-- An operation has one new entry if it only sets residency bits (R225). -/
def oneNew (r : RangeOp) : Prop := r.setOnly = true → ∃ n, r.news = [n]

end Sys2Proof.Claims

/-- R212, R214, R216, R217: an access that no entry of the core's table translates waits as a miss, which the core's
station answers: a hit installs the entry and makes the core a holder, an absent address ends in RANGE reason 0, and an
entry that changes makes the lookup wait. -/
def Sys2Proof.Claims.StationLookups : Prop :=
  (∀ (s : State) (va : Word), s.core.rtab.miss = some va → s.core.rtab.notFound = false →
    let c := s.core.addr.toNat
    let k := stationOf c
    (foundAt s va.toNat = [] → exec (.stationLookup c) s = .next { s with core := { s.core with
      rtab := { s.core.rtab with notFound := true } } }) ∧
    (∀ e, foundAt s va.toNat = [e] → e.state ≠ .changing → s.core.rtab.entries.length + s.core.bindCount < 32 →
      exec (.stationLookup c) s = .next { s with
        stations := aset s.stations k (addHolder e.entry.pid e.entry.base c (s.catalogue k))
        core := { s.core with rtab := { s.core.rtab with
          miss := none
          entries := { entry := e.entry, state := if e.state = .moving then .moving else .valid } ::
            s.core.rtab.entries } } }) ∧
    ((∃ e ∈ foundAt s va.toNat, e.state = .changing) → exec (.stationLookup c) s = .next s)) ∧
  ∀ (s : State) (d a b : BitVec 5) (z : BitVec 1) (c : BitVec 2) (p : BitVec 4), let va := s.g a + s.g b
    s.core.outst = none → s.core.heldWindow va.toNat (2 ^ c.toNat) = none → va.toNat < 2 ^ 60 →
    s.core.tableFind va.toNat = none →
      (s.core.rtab.miss = some va → s.core.rtab.notFound = true →
        exec (.ldx d a b z c p) s = .next (s.trap (Cause.range, va.toNat))) ∧
      (s.core.rtab.miss = some va → s.core.rtab.notFound = false → exec (.ldx d a b z c p) s = .next (waits s .other)) ∧
      (s.core.rtab.miss ≠ some va → ∃ t, exec (.ldx d a b z c p) s = .next t ∧ t.core.wait = .other ∧ t.pc = s.pc ∧
        t.core.rtab.miss = some va ∧ t.core.rtab.notFound = false ∧ t.core.regs = s.core.regs ∧ t.mem = s.mem)

/-- R215, R268 to R272: a range operation at its station. `rload` installs a well-formed entry that overlaps none, and
refuses another with MALFORMED, OVERLAP or FULL; `rprobe` answers with the entry that translates, `rstat` with its counts.
The changing forms answer NOTFOUND where no entry translates the address, MALFORMED or INCOMPATIBLE by their own tests,
BOUND where a binding holds a range and FULL where a catalogue has no room, and go to the coordinator with the old and the
new entries else; `rres` without a change answers at once. -/
def Sys2Proof.Claims.StationRequests : Prop :=
  ∀ (s : State) (o : Op) (form : RangeForm) (va : Word) (block : BitVec 512) (res : Nat),
    rangeNext s o form va block res → s.core.ctl.status.ckpt = false → s.core.run ≠ .cancelled →
    let c := s.core.addr.toNat
    let k := stationOf c
    let x := exec (.stationRangeRequest c) s
    let e : RangeEntry := { RangeEntry.ofBits block with pid := s.core.ctl.pid }
    let hit := (s.catalogue k).any fun (y : CatEntry) => y.entry.pid == e.pid && y.entry.overlaps e
    let refused := fun (code : Nat) => ∃ t, x = .next t ∧ doneAt t o.seq ∧ resultBlock t res code 0 [] ∧
      t.rops = s.rops ∧ t.stations = s.stations
    let sent := fun (f : RangeEntry) (olds news : List RangeEntry) (setOnly : Bool) =>
      let bound := olds.any (s.rangeBound (pkgOf c) form)
      let full := s.rangeFull (pkgOf c) s.core.ctl.pid olds news
      (bound = true → refused 6) ∧ (bound = false → full = true → refused 3) ∧
      (bound = false → full = false → ∃ t, x = .next t ∧ t.stations = s.stations ∧ t.mem = s.mem ∧ t.rops = s.rops ++ [
        { core := s.core.thread, seq := o.seq, pkg := pkgOf c, pid := s.core.ctl.pid, form := form, setOnly := setOnly
          bases := olds.map fun (z : RangeEntry) => z.base, news := news, old := f
          coord := s.coordinatorDie (pkgOf c) s.core.ctl.pid, was := [], asked := [], owed := [], resetAck := 0
          phase := .notices, res := res }])
    (form = .rload → ∃ t, x = .next t ∧ doneAt t o.seq ∧
      (entryReserved block = true → e.wf s.getPkg = true → hit = false → (s.catalogue k).length < 16384 →
        t.catalogue k = s.catalogue k ++ [{ entry := e, state := .present, holders := [] }] ∧
        resultBlock t res 0 0 e.result) ∧
      (entryReserved block = false ∨ e.wf s.getPkg = false → t.stations = s.stations ∧ resultBlock t res 1 0 []) ∧
      (entryReserved block = true → e.wf s.getPkg = true → hit = true → t.stations = s.stations ∧ resultBlock t res 2 0 []) ∧
      (entryReserved block = true → e.wf s.getPkg = true → hit = false → 16384 ≤ (s.catalogue k).length →
        t.stations = s.stations ∧ resultBlock t res 3 0 [])) ∧
    (form = .rprobe → ∀ y, s.core.tableFind va.toNat = some y →
      ∃ t, x = .next t ∧ doneAt t o.seq ∧ resultBlock t res 0 0 y.entry.result ∧ t.stations = s.stations) ∧
    (form = .rstat → ∃ t, x = .next t ∧ doneAt t o.seq ∧ readAt t (res + 4) 4 = s.core.rtab.tmiss.toNat ∧
      readAt t (res + 12) 4 = (s.catalogue k).length % 2 ^ 32 ∧ readAt t (res + 0x38) 8 = 2 ^ 63) ∧
    (form ≠ .rload → form ≠ .rprobe → form ≠ .rstat → (∀ r ∈ s.rops, ¬ (r.pkg = pkgOf c ∧ r.pid = s.core.ctl.pid)) →
      (foundAt s va.toNat = [] → refused 4) ∧
      ∀ y, foundAt s va.toNat = [y] → y.state ≠ .changing → let f := y.entry
        (form = .rinv → sent f [f] [] false) ∧
        (form = .rsplit → (va.toNat % 64 ≠ 0 ∨ va = f.base → refused 1) ∧
          (va.toNat % 64 = 0 → va ≠ f.base → sent f [f]
            [{ f with limit := va, resmap := newResmap [f] f.base.toNat va.toNat },
             { f with base := va, resmap := newResmap [f] va.toNat f.limit.toNat }] false)) ∧
        (form = .rmerge →
          ((∀ z ∈ s.catalogue k, ¬ (z.entry.pid = f.pid ∧ z.entry.base = f.limit)) → refused 4) ∧
          ∀ z, ((s.catalogue k).find? fun (w : CatEntry) => w.entry.pid == f.pid && w.entry.base == f.limit) = some z →
            let g := z.entry
            let alike := f.offset = g.offset ∧ f.kind = g.kind ∧ f.hord = g.hord ∧ f.place = g.place ∧ f.rd = g.rd ∧
              f.w = g.w ∧ f.x = g.x ∧ f.e = g.e
            let m : RangeEntry := { f with limit := g.limit, resmap := newResmap [f, g] f.base.toNat g.limit.toNat }
            (¬ alike → refused 5) ∧ (alike → m.wf s.getPkg = false → refused 1) ∧
            (alike → m.wf s.getPkg = true → sent f [f, g] [m] false)) ∧
        (form = .rres → let m : Word := block.extractLsb' 256 64; let n : RangeEntry := { f with resmap := m }
          (blockReserved block 0x20 = false → refused 1) ∧
          (blockReserved block 0x20 = true → m = f.resmap →
            ∃ t, x = .next t ∧ doneAt t o.seq ∧ resultBlock t res 0 0 n.result ∧ t.rops = s.rops ∧ t.stations = s.stations) ∧
          (blockReserved block 0x20 = true → m ≠ f.resmap → sent f [f] [n] (decide (m &&& f.resmap = f.resmap)))) ∧
        (form = .rcompact → let at_ : Word := block.extractLsb' 128 64
          let n : RangeEntry := { f with offset := at_ - f.base }
          let old := f.pa f.base.toNat
          let good := blockReserved block 0x10 = true ∧ at_.toNat / 2 ^ 41 = old / 2 ^ 41 ∧ at_.toNat % 64 = 0 ∧
            at_.toNat ≠ old ∧ n.wf s.getPkg = true
          (¬ good → refused 1) ∧ (good → sent f [f] [n] false)))

/-- R214 to R217, R268 to R272: what a station answers. -/
def Obligations.StationSteps : Prop :=
  Claims.StationLookups ∧ Claims.StationRequests

/-- R216, R217, R222, R223, R225, R226: the steps of a range operation at its coordinator. A notice marks the matching
entries of a station, as CHANGING, as MOVING, or by setting residency bits, and asks their holders; a station of a die in
reset is marked alike, acknowledged for, and counted; a holder marks its entry alike, and acknowledges once no access uses it, at once
where bits are only set; when all have acknowledged, the new entries replace the matching ones alike at every station and
the issuer's entry is done; of a move, the resident bytes are copied first, here within one window, and its retarget then
makes the holders' entries VALID with the new OFFSET. -/
def Obligations.RangeCoordination : Prop :=
  ∀ (s : State) (pkg pid : Nat) (r : RangeOp), s.rangeOp pkg pid = some r → oneNew r →
    (∀ station, station < 64 → station ∉ r.asked → r.phase = .notices → let k := 64 * pkg + station
      let hits := (s.catalogue k).filter fun (e : CatEntry) => r.hits e.entry.pid e.entry.base
      ∃ t q, exec (.rangeNotice pkg pid station) s = .next t ∧ t.rangeOp pkg pid = some q ∧ q.asked = station :: r.asked ∧
        (t.catalogue k = (s.catalogue k).map fun (e : CatEntry) =>
          if r.hits e.entry.pid e.entry.base then
            if r.setOnly then { e with entry := { e.entry with resmap := e.entry.resmap ||| bitsSet r } }
            else { e with state := if r.form = .rcompact then .moving else .changing }
          else e) ∧
        ((s.getPkg pkg).dieReset.getLsbD (station / 8) = true → q.resetAck = r.resetAck + 1 ∧ q.owed = r.owed ∧
          ((∀ e ∈ hits, ∀ c ∈ e.holders, isMemCore c = false) → t.core = s.core ∧ t.others = s.others)) ∧
        ((s.getPkg pkg).dieReset.getLsbD (station / 8) = false → q.resetAck = r.resetAck ∧ t.core = s.core ∧
          t.others = s.others ∧ (∀ x ∈ r.owed, x ∈ q.owed) ∧ ∀ e ∈ hits, ∀ c ∈ e.holders, (station, c) ∈ q.owed)) ∧
    ((s.rops.find? fun (q : RangeOp) => q.owed.any (·.2 == s.core.addr.toNat)) = some r →
      let mine := fun (x : TableEntry) => r.hits x.entry.pid x.entry.base
      let x := exec (.holderAcknowledge s.core.addr.toNat) s
      let marked := s.core.rtab.entries.map fun y => if mine y then
          if r.setOnly then { y with entry := { y.entry with resmap := y.entry.resmap ||| bitsSet r } }
          else { y with state := if r.form = .rcompact then .moving else .drain }
        else y
      (r.setOnly = true ∨ (∀ y ∈ s.core.rtab.entries, mine y = true → s.usesOf s.core y.entry.base.toNat = 0) →
        ∃ t, x = .next t ∧ t = { s with rops := t.rops, core := { s.core with rtab := { s.core.rtab with
          entries := if r.setOnly = true ∨ r.form = .rcompact then marked else marked.filter fun y => !mine y } } } ∧
        ∃ q, t.rangeOp pkg pid = some q ∧ q.owed = r.owed.filter (·.2 != s.core.addr.toNat)) ∧
      (r.setOnly = false → (∃ y ∈ s.core.rtab.entries, mine y = true ∧ s.usesOf s.core y.entry.base.toNat ≠ 0) →
        x = .next { s with core := { s.core with rtab := { s.core.rtab with entries := marked } } })) ∧
    (r.core = s.core.thread → pendingAt s r.seq → r.phase = .notices → (∀ k, k < 64 → k ∈ r.asked) → r.owed = [] →
      (r.setOnly = true → r.form ≠ .rcompact → ∃ t, exec (.coordinatorApply pkg pid) s = .next t ∧ doneAt t r.seq ∧
        t.rangeOp pkg pid = none ∧ t.stations = s.stations) ∧
      (s.core.run ≠ .cancelled → r.form ≠ .rcompact → r.setOnly = false → ∃ t, exec (.coordinatorApply pkg pid) s = .next t ∧ doneAt t r.seq ∧
        t.rangeOp pkg pid = none ∧ readAt t (r.res + 0x38) 8 = 2 ^ 63 + min r.resetAck 0xFFFF * 2 ^ 32 ∧
        t.stations = s.stations.map fun (k, l) => if k / 64 = pkg then (k, r.apply l) else (k, l)) ∧
      (r.form = .rcompact → ∀ n l, r.news = n :: l → ∃ t, exec (.conservatorCopy pkg pid) s = .next t ∧
        t.rangeOp pkg pid = some { r with phase := .copied } ∧
        t = { s with mem := t.mem, poison := t.poison, order := t.order, tick := s.tick + 1, rops := t.rops } ∧
        let len := r.old.limit.toNat - r.old.base.toNat
        let src := r.old.pa r.old.base.toNat
        let dst := n.pa n.base.toNat
        ∀ k j, (∀ i, i < 64 → r.old.resmap.getLsbD i = true) → s.mem.wf = true →
          dpaLocal src + len ≤ windowEnd (dpaLocal src) → dpaLocal dst + len ≤ windowEnd (dpaLocal dst) →
          (∀ i, i < len → s.offKey (src + i) r.old.place = some (k + i) ∧ s.offKey (dst + i) r.old.place = some (j + i)) →
          (∀ u ∈ s.mem.undef, ∀ i, i < len → u.covers (k + i) = false) →
          ∀ i, i < len → t.mem.byte (j + i) = s.mem.byte (k + i))) ∧
    (r.core = s.core.thread → pendingAt s r.seq → r.phase = .copied → pkgOf s.core.addr.toNat = r.pkg →
      ∀ n l, r.news = n :: l → ∃ t, exec (.retarget pkg pid) s = .next t ∧ doneAt t r.seq ∧ t.rangeOp pkg pid = none ∧
        t.core.rtab.entries = s.core.rtab.entries.map fun (x : TableEntry) =>
          if r.hits x.entry.pid x.entry.base ∧ x.state = .moving then
            { entry := { x.entry with offset := n.offset }, state := .valid } else x)

/-! ## Guard operations (R245 to R257, R274 to R278) -/

namespace Sys2Proof.Claims

open Sys2Proof Sys2Proof.Machine

/-- The guard form `o` of the core in focus can start: no earlier one of its binding is pending, no operation before it
conflicts, and no ordered store before one that releases is held (R236, R244, R251, R274). -/
def guardNext (s : State) (q : BitVec 16) (o : Op) (form : GuardForm) (num : Nat) (x : BitVec 512) (st : Option Nat) : Prop :=
  s.core.op q = some o ∧ o.body = .guard form num x st false ∧ o.started = false ∧ s.core.blocked o = false ∧
  pendingAt s q ∧ (∀ p ∈ s.core.ops.takeWhile (·.seq != q), ∀ f y z b, p.body ≠ .guard f num y z b) ∧
  (form = .grel ∨ form = .gunbind → s.heldBefore q = false) ∧ s.core.run ≠ .cancelled

/-- A guard operation ends with a code: in its status word, with the entry done; or without one, where the code refuses,
with a late fault (R274, R277). -/
def guardEnds (t : State) (q : BitVec 16) (num : Nat) (st : Option Nat) (code lost renum : Nat) : Prop :=
  match st with
  | some a => doneAt t q ∧ readAt t a 8 = 2 ^ 63 + lost * 2 ^ 62 + renum * 2 ^ 61 + code * 2 ^ 48 +
      match t.core.binding num with
      | some b => b.lep.toNat * 2 ^ 40 + b.state.code * 2 ^ 32 + b.last.toNat
      | none => 0
  | none => if code = 0 ∨ code = 6 then doneAt t q else lateFaulted t q (Cause.guard, code)

/-- Where a pending guard operation reports. -/
def reportsAt (s : State) (q : BitVec 16) (st : Option Nat) : Prop := s.core.guardStatusAddr q = st

/-- Binding `num` of the core in focus. -/
def bound (s : State) (num : Nat) (b : Binding) : Prop := num < 8 ∧ s.core.binding num = some b

/-- The guard of a binding. -/
def guardOf (b : Binding) : Nat := guardKey b.place b.guard

end Sys2Proof.Claims

/-- R276, R373, R375: a team member's `grel` ends at once: its release enters the outbound buffer at the place that it took
at its dispatch, and the binding is BOUND from here on; a shared one forgets a copy that has changed. One that is refused
gives its place up. -/
def Sys2Proof.Claims.TeamReleases : Prop :=
  ∀ (s : State) (q : BitVec 16) (o : Op) (num : Nat) (x : BitVec 512) (b : Binding),
    guardNext s q o .grel num x none → bound s num b → s.core.ctl.status.ckpt = true →
    let changed := (List.range (b.len / 512)).filter fun i => s.core.wbits.getLsbD (b.window / 512 + i)
    let y := exec (.guardOperationStart s.core.addr.toNat q.toNat) s
    ∀ before after, s.core.team.outbuf = before ++ .place q :: after → OutOp.place q ∉ before → OutOp.place q ∉ after →
    let buffers := fun (t : State) (l : List Nat) => doneAt t q ∧ t.gmsgs = s.gmsgs ∧ t.mem = s.mem ∧
      t.core.team.outbuf = before ++ .grel num l :: after
    (b.state ≠ .heldX → b.state ≠ .heldS → ∃ t, y = .next t ∧ lateFaulted t q (Cause.guard, 1) ∧ t.core.binds = s.core.binds ∧
      t.core.team.outbuf = before ++ after ∧ t.gmsgs = s.gmsgs ∧ t.mem = s.mem) ∧
    (b.state = .heldX → ∃ t, y = .next t ∧ buffers t [] ∧ t.core.binding num = some { b with state := .bound }) ∧
    (b.state = .heldS → ∃ t, y = .next t ∧ buffers t changed ∧
      t.core.binding num = some { b with state := .bound, last := if changed = [] then b.last else 0 })

/-- R274 to R277: the start of a guard operation outside a team: UNBOUND on a free number, STATE where the form is not
permitted, and else a request, release or unbinding on its way to the curator; `gbind` makes the binding that its checks
give, or ends with their code or late fault. -/
def Sys2Proof.Claims.OwnGuardStarts : Prop :=
  ∀ (s : State) (q : BitVec 16) (o : Op) (form : GuardForm) (num : Nat) (x : BitVec 512) (st : Option Nat),
    guardNext s q o form num x st → num < 8 → s.core.ctl.status.ckpt = false →
    let y := exec (.guardOperationStart s.core.addr.toNat q.toNat) s
    (form ≠ .gbind → s.core.binding num = none →
      ∃ t, y = .next t ∧ guardEnds t q num st (if form = .gstat then 0 else 7) 0 0 ∧ t.core.binds = s.core.binds) ∧
    (∀ b, bound s num b → form ≠ .gbind → form.permitted b.state = false →
      ∃ t, y = .next t ∧ guardEnds t q num st 1 0 0 ∧ t.core.binds = s.core.binds ∧ t.gmsgs = s.gmsgs) ∧
    (∀ b, bound s num b → form.permitted b.state = true →
      let ask := fun (kind : ReqKind) (try_ : Bool) => s.gmsgs ++ [GuardMsg.request (guardOf b)
        { core := s.core.thread, num := num, seq := q, kind := kind, last := b.last, lep := b.lep } try_]
      (form = .gstat → ∃ t, y = .next t ∧ guardEnds t q num st 0 0 0 ∧ t.core.binds = s.core.binds ∧ t.gmsgs = s.gmsgs) ∧
      (form = .gacqS → ∃ t, y = .next t ∧ t.gmsgs = ask .shared false ∧
        t.core.binding num = some { b with state := .acquiring false } ∧ t.mem = s.mem) ∧
      (form = .gacqX → ∃ t, y = .next t ∧ t.gmsgs = ask .exclusive false ∧
        t.core.binding num = some { b with state := .acquiring true } ∧ t.mem = s.mem) ∧
      (form = .gtryS → ∃ t, y = .next t ∧ t.gmsgs = ask .shared true ∧ t.core.binds = s.core.binds ∧ t.mem = s.mem) ∧
      (form = .gtryX → ∃ t, y = .next t ∧ t.gmsgs = ask .exclusive true ∧ t.core.binds = s.core.binds ∧ t.mem = s.mem) ∧
      (form = .gflush → ∃ t, y = .next t ∧ t.gmsgs = ask .flush false ∧ t.core.binds = s.core.binds ∧ t.mem = s.mem) ∧
      (form = .grel → ∃ t, y = .next t ∧ t.core.binds = s.core.binds ∧ t.mem = s.mem ∧
        t.gmsgs = s.gmsgs ++ [.release (guardOf b) s.core.thread num (some q) false]) ∧
      (form = .gunbind → ∃ t, y = .next t ∧ t.core.binds = s.core.binds ∧ t.mem = s.mem ∧
        t.gmsgs = s.gmsgs ++ [.unbind (guardOf b) s.core.thread num q])) ∧
    (∀ n t0, form = .gbind → s.bindCheck x num o.att.lslim.toNat = .code n t0 →
      y = .next (t0.guardDone q num st n false false)) ∧
    (∀ f t0, form = .gbind → s.bindCheck x num o.att.lslim.toNat = .fault f t0 → y = .next (t0.lateFault q f.1 f.2)) ∧
    ∀ b g t0, form = .gbind → s.bindCheck x num o.att.lslim.toNat = .ok b g t0 → t0.core.endedBadly = false →
      pendingAt t0 q →
      ∃ t, y = .next t ∧ guardEnds t q num st 0 0 0 ∧ t.core.binding num = some b ∧ t.guard (guardOf b) =
        some { g with bindings := g.bindings ++ [(t0.core.thread, num)] }

/-- R274 to R277, R373: the start of a guard operation, and a release in a team. -/
def Obligations.GuardStarts : Prop :=
  Claims.OwnGuardStarts ∧ Claims.TeamReleases

/-- R249 to R255, R276: the steps of a curator and a supplier, for requests of the thread in focus whose way is live (that
a message without a live way waits is the model's choice, notes/assumptions/24.md). A request is served when the guard is
idle, or shared and wanted shared with nobody waiting; else it waits, and a `gtry` ends with BUSY. A forward to home sends
the sub-blocks that the copy lacks, and the grant follows; a grant makes the binding held with its counts, and its window
clean; an exclusive release raises RELCNT, stamps the changed sub-blocks and records its holder; an unbinding that is not
the last holder's ends the binding; the write-back of a flush sends home what is newer and sets HCNT to RELCNT, and has
nothing to do where home is the supplier. -/
def Obligations.GuardProtocol : Prop :=
  ∀ (s : State) (i gk : Nat) (g : Guard) (num : Nat) (b : Binding), s.guard gk = some g → bound s num b →
    guardOf b = gk → s.core.ctl.status.ckpt = false → s.core.endedBadly = false →
    let rest := s.gmsgs.eraseIdx i
    (∀ m, s.gmsgs[i]? = some m → s.guardWay m = false → ∀ f, f = Instr.curatorRequest i ∨ f = .supplierForward i ∨
      f = .grantArrival i ∨ f = .curatorRelease i ∨ f = .writeBack i → exec f s = .next s) ∧
    (∀ r w, s.gmsgs[i]? = some (.request gk r w) → s.guardWay (.request gk r w) = true → r.core = s.core.thread →
      r.num = num →
      let x := exec (.curatorRequest i) s
      let now := g.state = .idle ∨ (∃ n, g.state = .shared n) ∧ r.kind ≠ .exclusive ∧ g.queue = []
      (now → ∃ t, x = .next t ∧ t.guard gk = some (g.served r) ∧ t.gmsgs = rest ++ [g.answer gk r] ∧ t.mem = s.mem ∧
        t.core.binding num = some (if r.kind = .flush then b else { b with state := .acquiring (r.kind == .exclusive) })) ∧
      (¬ now → w = false → ∃ t, x = .next t ∧ t.guard gk = some { g with queue := g.queue ++ [r] } ∧
        t.gmsgs = rest ∧ t.core = s.core ∧ t.mem = s.mem) ∧
      (¬ now → w = true → pendingAt s r.seq → ∀ st, reportsAt s r.seq st →
        ∃ t, x = .next t ∧ guardEnds t r.seq num st 6 0 0 ∧ t.guard gk = some g ∧ t.gmsgs = rest)) ∧
    (∀ r, s.gmsgs[i]? = some (.forward gk r none) → s.guardWay (.forward gk r none) = true → r.core = s.core.thread →
      r.num = num →
      overlap b.window g.len b.stamps (4 * (g.len / 512)) = false →
      let xs := g.wanted r (s.homeBlocks g)
      s.supplyError g none xs = none → ∃ t, exec (.supplierForward i) s = .next t ∧
        t.gmsgs = rest ++ [g.grantFor gk r] ∧ t.core.binds = s.core.binds ∧ t.core.wbits = s.core.wbits ∧
        ∀ y ∈ xs, readAt t (b.stamps + 4 * y.idx) 4 = y.stamp % 2 ^ 32 ∧
          ∀ k, k < 512 → t.mem.byte (s.core.localKey (b.window + 512 * y.idx + k)) = y.data.getD k 0) ∧
    (∀ r n e lost renum, s.gmsgs[i]? = some (.grant gk r n e lost renum) →
      s.guardWay (.grant gk r n e lost renum) = true → r.core = s.core.thread → r.num = num →
      pendingAt s r.seq → ∀ st, reportsAt s r.seq st →
      ∃ t, exec (.grantArrival i) s = .next t ∧ t.gmsgs = rest ∧ t.core.latch = true ∧
        (st = none → ∀ j, j < b.len / 512 → t.core.wbits.getLsbD (b.window / 512 + j) = false) ∧
        guardEnds t r.seq num st 0 lost.toNat renum.toNat ∧ t.core.binding num = some { b with
          state := if r.kind = .exclusive then .heldX else .heldS, last := n, lep := e, fresh := true }) ∧
    (∀ q, s.gmsgs[i]? = some (.release gk s.core.thread num (some q) false) → s.curatorWay gk s.core.thread = true →
      g.state = .excl → g.queue = [] →
      (s.core.thread, num) ∈ g.holders → g.relcnt.toNat < 2 ^ 32 - 1 → (s.core.thread, num) ∈ g.bindings →
      pendingAt s q → ∀ st, reportsAt s q st →
      ∃ t, exec (.curatorRelease i) s = .next t ∧ guardEnds t q num st 0 0 0 ∧ t.gmsgs = rest ∧
        t.guard gk = some { g with relcnt := g.relcnt + 1, lastX := some (s.core.thread, num), state := .idle
                                   holders := g.holders.erase (s.core.thread, num) } ∧
        t.core.binding num = some { b with state := .bound, last := g.relcnt + 1 } ∧
        (st = none → ∀ j, j < b.len / 512 → readAt t (b.stamps + 4 * j) 4 =
          if s.core.wbits.getLsbD (b.window / 512 + j) then g.relcnt.toNat + 1 else readAt s (b.stamps + 4 * j) 4)) ∧
    (∀ q, s.gmsgs[i]? = some (.unbind gk s.core.thread num q) → s.curatorWay gk s.core.thread = true →
      (s.core.thread, num) ∉ g.holders → g.lastX ≠ some (s.core.thread, num) → pendingAt s q → ∀ st, reportsAt s q st →
      ∃ t, exec (.curatorRelease i) s = .next t ∧ t.gmsgs = rest ∧ t.core.binding num = none ∧
        guardEnds t q num st 0 0 0) ∧
    ∀ q, s.gmsgs[i]? = some (.writeBack gk s.core.thread num q false) → g.queue = [] →
      g.state = .shared 1 → g.bindings ≠ [] → pendingAt s q → ∀ st, reportsAt s q st →
      (g.lastX = none → ∃ t, exec (.writeBack i) s = .next t ∧ guardEnds t q num st 0 0 0 ∧ t.gmsgs = rest ∧
        t.guard gk = some { g with state := .idle } ∧ (st = none → t.mem = s.mem) ∧ t.core.binds = s.core.binds) ∧
      ∀ p cb, g.lastX = some p → p ∉ g.holders → s.supplierCopy gk p = some cb → s.homeWay g p.1 = true →
        let xs := s.newerBlocks g p.2 cb
        s.supplyError g (some cb) xs = none → inStacked g.region g.len = true →
        inStacked g.hstamp (4 * (g.len / 512)) = true → overlap g.region g.len g.hstamp (4 * (g.len / 512)) = false →
        cb.2.len = g.len → g.len % 512 = 0 →
        ∃ t, exec (.writeBack i) s = .next t ∧ guardEnds t q num st 0 0 0 ∧ t.gmsgs = rest ∧
          t.guard gk = some { g with hcnt := g.relcnt, state := .idle } ∧ t.core.binds = s.core.binds ∧
          ∀ y ∈ xs, ∀ k, k < 512 →
            t.mem.byte (keyOff g.rplace.toNat (g.region + 512 * y.idx + k)) = y.data.getD k 0

/-! ## Launches (R32, R89, R90, R148, R149, R165 to R174, R365 to R370, R377, R378, R395, R405) -/

namespace Sys2Proof.Claims

open Sys2Proof Sys2Proof.Machine

/-- From `s` to `t` record `i` of queue `u` of a package has left it and become launch `l`, which takes the next free
number; a new round of the queue's level begins when `fresh`. -/
def admitted (pkg : Nat) (u : LQueue) (fresh : Bool) (i : Nat) (l : Launch) (s t : State) : Prop :=
  let p := s.getPkg pkg
  let once : LQueue → Nat := fun (v : LQueue) => if fresh = true ∧ v.prio = u.prio then 0 else v.served
  t.getPkg pkg = { p with
    launches := p.launches ++ [l], nextNum := BitVec.ofNat 16 (l.num % 65535 + 1)
    queues := p.queues.map fun v =>
      if v.num = u.num then { v with records := v.records.eraseIdx i, served := once v + 1 } else { v with served := once v } }

/-- The launch that a record becomes (R166, R172). -/
def launchOf (p : Package) (u : LQueue) (x h : BitVec 512) (bars : List Word) (load : List (Nat × List Byte))
    (gs : List Group) (code : BitVec 8) : Launch :=
  { num := p.freeNum p.nextNum.toNat, queue := u.num, record := x, header := h, bars := bars, load := load, groups := gs
    state := .running, status := code, cancelled := false, pub := p.readyPub x }

end Sys2Proof.Claims

/-- R165, R166, R169, R170, R173, R395: the record that is served next becomes a launch: refused with its status, or with
its first groups placed; it stays queued while the checks wait or no place is free. A record that breaks R166 is refused
with RECORD. The round robin among the queues of a level (notes/assumptions/43.md), the number that a launch gets
(notes/assumptions/44.md) and what goes before a record (notes/assumptions/33.md, notes/assumptions/59.md) are as the model
reads or chooses them. -/
def Obligations.LaunchAdmission : Prop :=
  ∀ (s : State) (pkg : Nat) (u : LQueue) (fresh : Bool) (i : Nat) (x : BitVec 512), let p := s.getPkg pkg;
    p.nextQueue = some (u, fresh) → s.before pkg u.prio = false → p.candidate u = some i → u.records[i]? = some x →
    let y := exec (.launchAdmission pkg u.num) s
    (∀ code, s.recordCheck pkg u x = .refuse code → code < 256 →
      ∃ t, y = .next t ∧ t = { s with pkgs := t.pkgs } ∧
        admitted pkg u fresh i (launchOf p u x 0 [] [] [] (BitVec.ofNat 8 code)) s t) ∧
    (recordOk x = false → ∃ t, y = .next t ∧ admitted pkg u fresh i (launchOf p u x 0 [] [] [] 2) s t) ∧
    (s.recordCheck pkg u x = .wait → y = .next s) ∧
    ∀ h bars pre t0, s.recordCheck pkg u x = .ok h bars pre t0 →
      (p.fits x (u.placeDies x) = false →
        ∃ t, y = .next t ∧ admitted pkg u fresh i (launchOf p u x 0 [] [] [] 2) s t) ∧
      (p.fits x (u.placeDies x) = true → t0.firstGroups pkg u x = [] → y = .next s) ∧
      ∀ (load : List (Nat × List Byte)) (t1 : State), p.fits x (u.placeDies x) = true → t0.firstGroups pkg u x ≠ [] → t0.loadOf pkg u x pre = .ok load t1 →
        ∃ t, y = .next t ∧ t.mem = s.mem ∧ t.core = s.core ∧
          admitted pkg u fresh i (launchOf p u x h bars load (t0.firstGroups pkg u x) 0) s t

/-- R32, R148, R149, R169, R202, R234: a core starts at ENTRY in user mode with IE = 1, with the fields of its header and
record, RECLOC in `g3`, its index in `g4` and every other register zero, and sees what had readied its launch when it was
admitted; `launchStart`
does so at the core in focus for a launch of one core, and lays its bytes in its store. -/
def Obligations.LaunchStarts : Prop :=
  (∀ (l : Launch) (g : Group) (q : LQueue) (i j : Nat) (c : Core), let k := l.startCore g q i j c;
    k.view.seen = l.pub ∧
    k.run = .running ∧ k.addr = c.addr ∧ k.regs.pc = BitVec.ofNat 21 (hdrEntry l.header) ∧
    k.g 3 = word (recRecloc l.record) ∧ k.g 4 = word (i * l.gcols + j : Nat) ∧
    (∀ r, r ≠ 3 → r ≠ 4 → k.g r = 0) ∧ (∀ r, k.v r = 0) ∧ (∀ r, r ≠ 0 → k.m r = 0) ∧
    k.ctl.status = { Status.reset with
      ie := true, preempt := recPreempt l.record, ckpt := recCkpt l.record, topx := hdrTopx l.header
      rm := BitVec.ofNat 3 (hdrRm l.header) } ∧
    k.ctl.pid = q.pid ∧ k.ctl.lslim = BitVec.ofNat 21 (hdrLslim l.header) ∧
    k.ctl.vlim = BitVec.ofNat 6 (hdrVlim l.header) ∧ k.ctl.blim = BitVec.ofNat 5 (hdrBlim l.header) ∧
    k.ctl.clim = BitVec.ofNat 5 (hdrClim l.header) ∧
    (∀ n, k.ctl.brect.get n = if barHolds (l.bars.getD n 0) i j = true ∧ n.val < l.bars.length then
      brAbsolute (l.bars.getD n 0) g.die g.row g.col else 0) ∧
    (l.num < 2 ^ 16 → g.idx < 16 → k.ctl.domain.get 0 = word (2 ^ 47 + 2 ^ 32 + 2 ^ g.idx * 2 ^ 16 + l.num : Nat)) ∧
    k.ops = [] ∧ k.ring = Vector.replicate 64 RingEntry.reset ∧ k.mail = [] ∧ k.msgs = Msgs.reset ∧ k.gang = Gang.reset) ∧
  ∀ (s : State) (pkg : Nat) (l : Launch) (q : LQueue) (g : Group), (s.getPkg pkg).launch l.num = some l →
    (s.getPkg pkg).queue l.queue = some q → s.stopping pkg l = false → l.state = .running → l.groups = [g] →
    g.started = false → l.grows = 1 → l.gcols = 1 → tileAddr pkg g.die g.row g.col = s.core.addr.toNat →
    ∃ t c, exec (.launchStart pkg l.num g.idx) s = .next t ∧
      t.core = l.startCore g q 0 0 c ∧ c.addr = s.core.addr ∧
      (t.getPkg pkg).launch l.num = some { l with groups := [{ g with started := true }] } ∧
      ∀ r a xs, l.load = r ++ [(a, xs)] → ∀ k, k < xs.length → byteAt t (a + k) = (xs.getD k 0).toNat

/-- R171, R172, R256, R405: the bindings of a launch's threads that a fault or a cancellation ended are taken down once
their guard operations have run; a launch whose groups have ended reports the status of its threads, and decrements its
successors when it is OK; it waits while its status cannot be written yet; its status is 16 bytes in the queue's ring,
here on the core in focus. That CANCELLED goes before FAULT and FAULT before HALTED (notes/assumptions/60.md), and that a
status waits for its core and sets no latch (notes/assumptions/45.md), is the model's. -/
def Obligations.LaunchEnds : Prop :=
  (∀ (s : State) (pkg : Nat) (l : Launch), (s.getPkg pkg).launch l.num = some l →
    s.stopping pkg l = false ∨ l.threads pkg = [] →
    let u := (l.threads pkg).foldl State.endThreadBinds s
    let code := u.launchCode pkg l; let pub := u.donePub pkg l
    ((∀ k ∈ l.threads pkg, ∀ c, s.getThread k = some c → c.run ≠ .endedFault ∧ c.run ≠ .cancelled) → u = s) ∧
    let report := ((u.releaseLaunch (l.threads pkg)).modPkg pkg fun p =>
      let p1 := if code = 0 then p.successors l.record pub else p
      { p1 with launches := p1.launches.filter (·.num != l.num) }).reportStatus pkg l code pub
    (u.launchDone pkg l = false → exec (.launchEnd pkg l.num) s = .next u) ∧
    (u.launchDone pkg l = true → report = none → exec (.launchEnd pkg l.num) s = .next u) ∧
    ∀ t, u.launchDone pkg l = true → report = some t →
      exec (.launchEnd pkg l.num) s = .next t ∧ (t.getPkg pkg).launch l.num = none) ∧
  (∀ (s : State) (pkg : Nat) (l : Launch),
    let ended : RunState → Prop := fun r => ∃ k, k ∈ l.threads pkg ∧ ∃ c, s.anyThread k = some c ∧ c.run = r
    (l.status ≠ 0 → s.launchCode pkg l = l.status.toNat) ∧
    (l.status = 0 → l.cancelled = true → s.launchCode pkg l = 6) ∧
    (l.status = 0 → l.cancelled = false → ended .endedFault → s.launchCode pkg l = 4) ∧
    (l.status = 0 → l.cancelled = false → ¬ ended .endedFault → ended .halted → s.launchCode pkg l = 5) ∧
    (l.status = 0 → l.cancelled = false → ¬ ended .endedFault → ¬ ended .halted → s.launchCode pkg l = 0)) ∧
  (∀ (num code seq : Nat) (x : BitVec 512), num < 2 ^ 16 → code < 2 ^ 8 → seq < 2 ^ 32 →
    leNat (statusBytes num code seq x) = num + code * 2 ^ 16 + seq * 2 ^ 32 + recArg x * 2 ^ 64 ∧
    (statusBytes num code seq x).length = 16) ∧
  ∀ (s : State) (q : LQueue) (pub : List Nat) (a : Nat) (xs : List Byte), let c := s.core.addr.toNat
    s.coreExists c = true → isMemCore c = false → s.dieLive (pkgOf c) (dieOf c) = true →
    s.regCore (pkgOf c) q c = true → s.core.binds = Vector.replicate 8 none →
    (s.getPkg (pkgOf c)).powered c = true → s.core.alive = true → s.core.ctl.pid = q.pid → a + 16 ≤ 0x17C000 →
    xs.length = 16 → ∃ t, s.statusLocal (pkgOf c) q pub c a xs = some t ∧ t.core.latch = s.core.latch ∧
      t.core.regs = s.core.regs ∧ ∀ k, k < 16 → byteAt t (a + k) = (xs.getD k 0).toNat

/-- R174, R365, R368 to R370: a request reaches the running core in focus and sets its latch; the context of a core that
has stopped by a pre-emption halt is saved and the core freed; a resumed thread enters its handler with cause RESUME, the
number of kept operations as EINFO, and EPC from its save area. The model's choices are that a context is kept as an image
beside memory (notes/assumptions/46.md), that a resume first waits for room for its triggers (notes/assumptions/49.md)
and behind a higher head record (notes/assumptions/61.md), and that no context is saved while a release of it is due
(notes/assumptions/62.md). -/
def Obligations.PreemptionAndResume : Prop :=
  (∀ (s : State) (pkg : Nat) (l : Launch) (q : LQueue), let p := s.getPkg pkg
    p.launch l.num = some l → p.queue l.queue = some q → l.state = .running → recPreempt l.record = true → l.joinn = 0 →
    s.stopping pkg l = false → l.groups ≠ [] → (∀ g ∈ l.groups, g.started = true) →
    (∀ m ∈ p.launches, m.queue = l.queue → m.num ≠ l.num → m.state = .running) →
    (s.contextSpans pkg q l.contextNeed).isSome = true → s.waitsFor pkg l = true →
    s.core.thread ∈ l.threads pkg → s.core.alive = true →
    ∃ t, exec (.preemptRequest pkg l.num) s = .next t ∧ t.core = { s.core with
        preempt := some (recDefer l.record), latch := true } ∧
      (t.getPkg pkg).launch l.num = some { l with state := .preempting } ∧ t.mem = s.mem) ∧
  (∀ (s : State) (pkg : Nat) (l : Launch), (s.getPkg pkg).launch l.num = some l → l.state = .preempting →
    l.threads pkg = [s.core.thread] → s.core.run = .preemptHalt → s.settledSync s.core = true →
    ∃ t, exec (.contextSave pkg l.num) s = .next t ∧ t.core.run = .idle ∧ aget t.saved s.core.thread = some { s.core with
        image := true, preempt := none, wait := .no, rtab := { s.core.rtab with entries := [], miss := none } } ∧
      (t.getPkg pkg).launch l.num = some { l with state := .preempted }) ∧
  ∀ (s : State) (pkg : Nat) (l : Launch) (x : Core) (k : Nat), let p := s.getPkg pkg
    p.launch l.num = some l → l.state = .preempted → s.stopping pkg l = false →
    (∀ u f, p.nextQueue = some (u, f) → u.prio ≤ p.prioOf l) →
    (l.threads pkg).filter (fun j => (aget s.saved j).isSome) = [k] → aget s.saved k = some x →
    threadCore k = s.core.addr.toNat → x.addr = s.core.addr → s.coreFree (threadCore k) = true →
    s.roomToRearm [k] = true →
    ∃ t, exec (.resume pkg l.num) s = .next t ∧ t.core.run = .running ∧ t.pc = x.ctl.evec ∧
      t.core.ctl.ecause = 0x241 ∧ t.core.ctl.einfo = word x.kept.length ∧ t.core.ctl.eseq = 0 ∧
      t.core.ctl.epc = BitVec.ofNat 21 (readAt t (0x17F400 + 0x188) 8) ∧ t.core.ctl.status.priv = true ∧
      t.core.ctl.status.ie = false ∧ t.core.kept = [] ∧ aget t.saved k = none

/-- R363, R376 to R378: a member that asks for a rollback in a team of one goes back to its snapshot: registers and control
registers but EVEC, PID and DRSEL, with its ring empty and the rollback counted; a second request before a commit, one in
an unrecoverable superstep, or an uncorrectable error in what it needs ends its thread. -/
def Obligations.TeamRollback : Prop :=
  ∀ s : State, s.teamOf s.core = [s.core.thread] → s.core.alive = true → s.core.ctl.status.ckpt = true →
    s.core.team.rollback = true → s.core.frame = none → s.core.outst = none → s.core.run ≠ .preemptHalt →
    aget s.saved s.core.thread = none → s.core.gang.role = .alone →
    let c := s.core.addr.toNat
    (∀ k, aget s.snaps s.core.thread = some k → s.core.team.replayed = false → s.core.team.recoverable = true →
      s.snapError s.core = false → s.core.ops = [] → s.core.binds = Vector.replicate 8 none →
      ∃ t, exec (.rollback c) s = .next t ∧ t.core.regs = k.regs ∧
        t.core.ctl = { k.ctl with evec := s.core.ctl.evec, pid := s.core.ctl.pid, drsel := s.core.ctl.drsel } ∧
        t.core.run = .running ∧
        t.core.ring = Vector.replicate 64 RingEntry.reset ∧ t.core.team.replayed = true ∧
        t.core.team.rollback = false ∧ t.core.faults.rollbacks = countUp s.core.faults.rollbacks ∧
        (s.core.team.logCount = 0 → t.mem = s.mem)) ∧
    (s.core.team.replayed = true ∨ s.core.team.recoverable = false ∨ s.snapError s.core = true →
      ∃ t, exec (.rollback c) s = .next t ∧ t.core.run = .endedFault ∧ t.core.regs = s.core.regs)

/-! ## The host's windows and commands (R241, R398 to R407, R415, R423 to R426, R428) -/

namespace Sys2Proof.Claims

open Sys2Proof Sys2Proof.Machine

/-- Bytes stand from a key up in one state, and every other byte reads as in another. -/
def laid (k : Nat) (xs : List Byte) (s t : State) : Prop :=
  (∀ i, i < xs.length → t.mem.byte (k + i) = xs.getD i 0) ∧
  ∀ y, (∀ i, i < xs.length → y ≠ k + i) → t.mem.byte y = s.mem.byte y

/-- Slot `k` of a package. -/
def slotAt (s : State) (pkg : Nat) (k : Fin 16) : CmdSlot := (s.getPkg pkg).slots.get k

/-- The state after a command of a slot has been answered with a result (R402). -/
def answered (pkg : Nat) (k : Fin 16) (r : BitVec 8) (s : State) : State :=
  s.modPkg pkg fun p => { p with
    slots := p.slots.set k.val { p.slots.get k with busy := false, done := (p.slots.get k).done + 1, result := r } k.isLt
    msix := if k.val < 8 then p.msix ++ [k.val] else p.msix }

/-- Slot `k` has taken descriptor `x` of a command; a slot of the host, or any slot for the first five commands; and every
byte that the command does not name is zero. -/
def holdsCmd (s : State) (pkg : Nat) (k : Fin 16) (code : Nat) (x : BitVec 512) : Prop :=
  (slotAt s pkg k).busy = true ∧ (slotAt s pkg k).taken = x ∧ x.toNat % 256 = code ∧ (k.val < 8 ∨ code < 6) ∧
  commandReserved code x = true

/-- May a slot act for a process: the host may for all? -/
def actsFor (s : State) (pkg : Nat) (k : Fin 16) (pid : BitVec 16) : Prop := k.val < 8 ∨ pid = (slotAt s pkg k).pid

/-- `n` bytes of a descriptor from `off` up. -/
def bytesAt (x : BitVec 512) (off n : Nat) : Nat := x.toNat / 2 ^ (8 * off) % 2 ^ (8 * n)

end Sys2Proof.Claims

/-- R241, R397 to R399, R402, R406, R407: a write to a slot: its bytes enter the descriptor, and one that reaches the
doorbell takes the descriptor unless the slot is busy; a write of 64 bytes to RECORD, appended or counted as discarded,
and one of another size or place there, which is discarded and counted; and the host's reads, plain writes and ordered
writes of at most 4,096 bytes through its memory window. -/
def Obligations.HostAccesses : Prop :=
  ∀ (s : State) (pkg : Nat), let p := s.getPkg pkg;
    (∀ (k : Fin 16) (o pid : Nat) (host : Bool) (xs : List Byte), (host = true → s.hostLink pkg = true) →
      (host = false → s.isUp pkg = true ∧ xs.length = 8 ∧ o % 8 = 0) → xs ≠ [] → o + xs.length ≤ 0x80 →
      let put := fun (t : State) => exec (.registerWrite pkg (128 * k.val + o) pid host xs) s = .next t ∧
        t = { s with pkgs := t.pkgs }
      let c := slotAt s pkg k
      let rings := o < 0x48 ∧ 0x40 < o + xs.length ∧ c.busy = false
      (host = true ∨ 8 ≤ k.val ∨ pid % 2 ^ 16 = 0 → ∃ t, put t ∧ let d := (slotAt t pkg k).desc
        (∀ i, i < 64 → bytesAt d i 1 = if o ≤ i ∧ i < o + xs.length then (xs.getD (i - o) 0).toNat else bytesAt c.desc i 1) ∧
        (rings → slotAt t pkg k = { c with
          desc := d, busy := true, host := host, pid := if host then 0 else BitVec.ofNat 16 pid, taken := d }) ∧
        (¬ rings → slotAt t pkg k = { c with desc := d })) ∧
      (host = false → k.val < 8 → pid % 2 ^ 16 ≠ 0 → ∃ t, put t ∧ t.getPkg pkg = p)) ∧
    (∀ (q pid o : Nat) (host : Bool) (xs : List Byte), q < 1024 → o < 0x40 → xs ≠ [] → o + xs.length ≤ 4096 →
      (host = true → s.hostAwake pkg = true ∧ s.hostWrites = []) →
      let y := exec (.recordWrite pkg (4096 * q + o) pid host xs) s
      let whole := o = 0 ∧ xs.length = 64
      let x : BitVec 512 := BitVec.ofNat 512 (leNat xs)
      let takes := fun (u : LQueue) => u.records.length < u.cap ∧ (host = true ∨ u.pid = BitVec.ofNat 16 pid)
      (∀ u, whole → p.queue q = some u → takes u →
        ∃ t, y = .next t ∧ (t.getPkg pkg).dropped = p.dropped ∧ (t.getPkg pkg).queues = p.queues.map fun v =>
          if v.num = q then { v with records := v.records ++ [x] } else v) ∧
      (¬ whole ∨ p.queue q = none ∨ (∃ u, p.queue q = some u ∧ ¬ takes u) →
        ∃ t, y = .next t ∧ (t.getPkg pkg).queues = p.queues ∧ ∀ n, agetD (t.getPkg pkg).dropped q 0 = n →
          n.toNat = min 0xFFFF ((agetD p.dropped q 0).toNat + 1))) ∧
    (s.hostAwake pkg = true → s.hostWrites = [] →
      (∀ off n e pa k, n ≤ 4096 → s.hostFind pkg off n false = some (e, pa) → s.offKey pa e.place = some k →
        s.poisonHit k n = false → ∃ t, exec (.hostWindowRead pkg off n) s = .next t ∧ t = { s with pkgs := t.pkgs } ∧
          (t.getPkg pkg).hostData.length = n ∧ ∀ i, i < n → (t.getPkg pkg).hostData.getD i 0 = s.mem.byte (k + i)) ∧
      (∀ off n, n ≤ 4096 → s.hostFind pkg off n false = none → ∃ t, exec (.hostWindowRead pkg off n) s = .next t ∧
        (t.getPkg pkg).hostFail = countUp p.hostFail ∧ (t.getPkg pkg).hostData = [] ∧ t.mem = s.mem) ∧
      (∀ off xs e pa k, xs.length ≤ 4096 → s.hostFind pkg off xs.length true = some (e, pa) →
        s.offKey pa e.place = some k →
        (e.hord = false → ∃ t, exec (.hostWindowWrite pkg off xs) s = .next t ∧
          t = { s with mem := t.mem, poison := t.poison, order := t.order } ∧ laid k xs s t) ∧
        (e.hord = true → exec (.hostWindowWrite pkg off xs) s = .next { s with hostWrites := [
          { pkg := pkg, svc := serviceCore e.base, hord := true, place := e.place, dpa := pa, data := xs }] })) ∧
      ∀ off n wr e pa, s.hostFind pkg off n wr = some (e, pa) →
        e.base ≤ off ∧ off + n ≤ e.limit ∧ pa = (off + e.offset.toNat) % 2 ^ 52 ∧
          (if wr = true then e.w = true else e.rd = true)) ∧
    ∀ w k, s.hostWrites = [w] → w.pkg = pkg → s.offKey w.dpa w.place = some k →
      ∃ t, exec (.hostOrderedWriteRelease pkg) s = .next t ∧ t.hostWrites = [] ∧ t.core = s.core ∧ laid k w.data s t

/-- R402 to R404, R171: the commands on queues, counters and launches, with their results: OK 0, MALFORMED 1, NOTPERMITTED
2, INUSE 3, BUSY 4, NOTFOUND 5. Only a process's own queues, counters and launches, and priorities below 32, are open to a
slot of a device agent. -/
def Obligations.QueueCommands : Prop :=
  ∀ (s : State) (pkg : Nat) (k : Fin 16) (x : BitVec 512), let p := s.getPkg pkg;
    let replies := fun (i : Instr) (r : BitVec 8) => exec i s = .next (answered pkg k r s)
    (holdsCmd s pkg k 1 x → let q := newQueue x; let i := Instr.qcreate pkg k.val
      (qcreateOk x = false → replies i 1) ∧
      (qcreateOk x = true → ¬ (actsFor s pkg k q.pid ∧ (k.val < 8 ∨ q.prio < 32)) → replies i 2) ∧
      (qcreateOk x = true → actsFor s pkg k q.pid → k.val < 8 ∨ q.prio < 32 →
        ((p.queue q.num).isSome = true → replies i 3) ∧
        (p.queue q.num = none → exec i s = .next (answered pkg k 0 (s.modPkg pkg fun p =>
          { p with queues := p.queues ++ [q] })))) ∧
      q.num = bytesAt x 0x08 2 ∧ q.prio = bytesAt x 0x0A 1 ∧ q.weight = bytesAt x 0x0B 1 ∧ q.pid.toNat = bytesAt x 0x0E 2 ∧
      q.dies.toNat = bytesAt x 0x0D 1 ∧ q.cap = bytesAt x 0x10 2 ∧ q.entries = bytesAt x 0x12 2 ∧
      q.ring.toNat = bytesAt x 0x18 8 ∧ q.msix = bytesAt x 0x30 2 ∧ q.records = [] ∧ q.seq = 0) ∧
    (holdsCmd s pkg k 2 x → let n := bytesAt x 0x08 2; let i := Instr.qdestroy pkg k.val
      (p.queue n = none → replies i 5) ∧
      ∀ q, p.queue n = some q → (¬ actsFor s pkg k q.pid → replies i 2) ∧ (actsFor s pkg k q.pid →
        (q.records ≠ [] ∨ (∃ l ∈ p.launches, l.queue = n) → replies i 4) ∧
        (q.records = [] → (∀ l ∈ p.launches, l.queue ≠ n) → exec i s = .next (answered pkg k 0 (s.modPkg pkg fun p =>
          { p with queues := p.queues.filter fun u => u.num ≠ n }))))) ∧
    (holdsCmd s pkg k 3 x → let n := bytesAt x 0x08 2; let o : BitVec 16 := BitVec.ofNat 16 (bytesAt x 0x0C 2)
      let i := Instr.cset pkg k.val
      let may := actsFor s pkg k o ∧ actsFor s pkg k (p.counter n).owner
      (¬ may → replies i 2) ∧ (may → ∃ t, exec i s = .next (answered pkg k 0 t) ∧ t = { s with pkgs := t.pkgs } ∧
        ((t.getPkg pkg).counter n).value.toNat = bytesAt x 0x0A 2 ∧ ((t.getPkg pkg).counter n).owner = o ∧
        ∀ m, m ≠ n → (t.getPkg pkg).counter m = p.counter m)) ∧
    (holdsCmd s pkg k 4 x → let n := bytesAt x 0x08 2; let i := Instr.cancel pkg k.val
      (p.launch n = none → replies i 5) ∧
      ∀ l q, p.launch n = some l → p.queue l.queue = some q → l.status = 0 → (¬ actsFor s pkg k q.pid → replies i 2) ∧
        (actsFor s pkg k q.pid → ∃ t, exec i s = .next (answered pkg k 0 t) ∧ t = { s with pkgs := t.pkgs } ∧
          (t.getPkg pkg).launch n = some { l with cancelled := true })) ∧
    ((slotAt s pkg k).busy = true → (slotAt s pkg k).taken = x → bytesAt x 0 1 = 0 ∨ 10 < bytesAt x 0 1 →
      replies (.qcreate pkg k.val) 1)

/-- R327, R399, R400, R403, R404, R415, R423 to R426, R428: the other commands: SUMMARY writes its report, TSTEP sets the
clock, HWIN the base of the host window, MWIN an entry of it, SOEP a scale-out slot, and SETSTATE the security, debug and
power states. Those from TSTEP on are the host's alone. -/
def Obligations.PackageCommands : Prop :=
  ∀ (s : State) (pkg : Nat) (k : Fin 16) (x : BitVec 512), let p := s.getPkg pkg;
    let replies := fun (i : Instr) (r : BitVec 8) => exec i s = .next (answered pkg k r s)
    let does := fun (i : Instr) (f : Package → Package) => exec i s = .next (answered pkg k 0 (s.modPkg pkg f))
    (holdsCmd s pkg k 5 x → k.val < 8 → let dest := bytesAt x 0x08 8; let i := Instr.summary pkg k.val
      (2 ^ 64 < dest + 0x4000 → replies i 1) ∧
      (dest + 0x4000 ≤ 2 ^ 64 → bytesAt x 0x10 3 = 0 → let ys := s.summaryBytes pkg none (p.mayShow x (slotAt s pkg k).pid)
        ∃ t, exec i s = .next (answered pkg k 0 t) ∧ t = { s with mem := t.mem, poison := t.poison, order := t.order } ∧
          laid (keyHost pkg dest) ys s t)) ∧
    (holdsCmd s pkg k 6 x → ∃ t, exec (.tstep pkg k.val) s = .next (answered pkg k 0 t) ∧ t = { s with pkgs := t.pkgs } ∧
      (t.domainClock pkg).toNat = bytesAt x 0x08 8 ∧ ((t.getPkg pkg).slots = p.slots)) ∧
    (holdsCmd s pkg k 7 x → let b := bytesAt x 0x08 8
      (b % 4096 ≠ 0 → replies (.hwin pkg k.val) 1) ∧
      (b % 4096 = 0 → does (.hwin pkg k.val) fun p => { p with hwbase := BitVec.ofNat 64 b })) ∧
    (holdsCmd s pkg k 8 x → let n := bytesAt x 0x22 1; let i := Instr.mwin pkg k.val
      let rest := fun (p : Package) => p.hostTab.filter fun h => h.num ≠ n
      let base := bytesAt x 0x08 8; let limit := bytesAt x 0x10 8
      (64 ≤ n → replies i 1) ∧
      (n < 64 → base = 0 → limit = 0 → does i fun p => { p with hostTab := rest p }) ∧
      (n < 64 → limit ≠ 0 → hostEntryOk pkg x = false ∨ (∃ h ∈ rest p, h.base < limit ∧ base < h.limit) → replies i 1) ∧
      (n < 64 → limit ≠ 0 → hostEntryOk pkg x = true → (∀ h ∈ rest p, ¬ (h.base < limit ∧ base < h.limit)) →
        does i fun p => { p with hostTab := newHostEntry x :: rest p })) ∧
    (holdsCmd s pkg k 9 x → let n := bytesAt x 0x08 2; let b := bytesAt x 0x0A 1; let i := Instr.soep pkg k.val
      (4096 ≤ n ∨ b % 4 = 3 ∨ 8 ≤ b ∨ bytesAt x 0x23 1 ≠ 0 → replies i 1) ∧
      (n < 4096 → b % 4 ≠ 3 → 4 ≤ b → b < 8 → bytesAt x 0x23 1 = 0 →
        ∃ t, exec i s = .next (answered pkg k 0 t) ∧ t = { s with pkgs := t.pkgs } ∧
          (t.getPkg pkg).soSlot n = some
          { num := n, service := BitVec.ofNat 2 b, ports := BitVec.ofNat 8 (bytesAt x 0x0B 1)
            endpoint := BitVec.ofNat 128 (bytesAt x 0x10 16), job := BitVec.ofNat 24 (bytesAt x 0x20 3)
            remote := BitVec.ofNat 64 (bytesAt x 0x28 8), key := BitVec.ofNat 64 (bytesAt x 0x30 8) }) ∧
      (n < 4096 → b < 3 → bytesAt x 0x23 1 = 0 → ∃ t, exec i s = .next (answered pkg k 0 t) ∧
        (t.getPkg pkg).soSlot n = none)) ∧
    (holdsCmd s pkg k 10 x → let i := Instr.setstate pkg k.val
      (p.stateCmd x = none → replies i 1) ∧
      ∀ c, p.stateCmd x = some c → (s.stateRefused pkg c = true → replies i 2) ∧
        (s.stateRefused pkg c = false → s.stateBusy pkg c = true → replies i 4) ∧
        (s.stateRefused pkg c = false → s.stateBusy pkg c = false →
          let wakes := c.setsPwr = true ∧ p.power = .packageSleep ∧ c.pwr ≠ .packageSleep
          ∃ t, exec i s = .next (answered pkg k 0 t) ∧ (t.getPkg pkg).debug = c.dbg ∧
            (wakes ∧ p.security = .attested → (t.getPkg pkg).security = .sealed) ∧
            (¬ (wakes ∧ p.security = .attested) → (t.getPkg pkg).security = c.sec) ∧
            (t.getPkg pkg).power = (if c.setsPwr then c.pwr else p.power) ∧
            (p.security = .opened → c.sec ≠ .opened → (t.getPkg pkg).token = c.token))) ∧
    ∀ code, 8 ≤ k.val → (slotAt s pkg k).busy = true → (slotAt s pkg k).taken = x → bytesAt x 0 1 = code →
      (code = 6 → replies (.tstep pkg k.val) 2) ∧ (code = 7 → replies (.hwin pkg k.val) 2) ∧
      (code = 8 → replies (.mwin pkg k.val) 2) ∧ (code = 9 → replies (.soep pkg k.val) 2) ∧
      (code = 10 → replies (.setstate pkg k.val) 2)

/-! ## Resets, links and the debugger (R32, R111, R380, R392 to R396, R409, R421, R422, R424, R427) -/

/-- R32, R393, R396, R421, R422: a package reset leaves the package open, with debug off and power run, with no queue,
launch or window, its stations empty and its cores idle, and ends its bring-up within 2 s; the reset of a die ends the
launches on it with a status, stops a core of it (here the core in focus, with no other listed) and squashes what it had
pending; a core so struck keeps its registers; a die that leaves reset restarts CYCLE;
a gateway die that has not failed goes into reset and out of it; a stack base die's memory core leaves reset idle, with
memory kept where the stack's channels stay as they are. That one event asserts a reset and the next releases it is the
model's choice (notes/assumptions/52.md, 53.md). -/
def Obligations.ResetEvents : Prop :=
  (∀ (s : State) (pkg : Nat), pkg < 2048 → ∃ t, exec (.packageReset pkg) s = .next t ∧ let p := t.getPkg pkg;
    p.security = .opened ∧ p.debug = .off ∧ p.power = .run ∧ p.queues = [] ∧ p.launches = [] ∧ p.hostTab = [] ∧
    p.soSlots = [] ∧ p.hwbase = 0 ∧ p.dieReset = 0 ∧ p.gwReset = 0 ∧ (∀ k, p.slots.get k = CmdSlot.reset) ∧
    s.ns ≤ p.upAt ∧ p.upAt ≤ s.ns + 2 * 10 ^ 9 ∧ (∀ k, k / 64 = pkg → t.catalogue k = []) ∧
    (∀ r ∈ t.rops, r.pkg ≠ pkg) ∧ (∀ k, k / 256 = pkg → t.engine k = Engine.reset) ∧
    ∀ c ∈ packageCores pkg, t.getCore c = { Core.idle (BitVec.ofNat 23 c) with resetAt := t.clk }) ∧
  (∀ (s : State) (pkg die : Nat) (i : Instr), die < 8 → (s.getPkg pkg).diePresent.getLsbD die = true →
    s.dieLive pkg die = true → i = .dieReset pkg die ∨ i = .dieUnresponsiveTimeout pkg die →
    ∃ t, exec i s = .next t ∧ (t.getPkg pkg).dieReset.getLsbD die = true ∧
      ∀ l ∈ (t.getPkg pkg).launches, (∃ g ∈ l.groups, g.die = die) → l.status ≠ 0) ∧
  (∀ (s : State) (pkg die : Nat) (i : Instr), die < 8 → (s.getPkg pkg).diePresent.getLsbD die = true →
    s.dieLive pkg die = true → i = .dieReset pkg die ∨ i = .dieUnresponsiveTimeout pkg die → s.others = [] →
    s.core.addr.toNat ∈ dieTiles pkg die → s.coreExists s.core.addr.toNat = true →
    ∃ t, exec i s = .next t ∧ t.core.addr = s.core.addr ∧
      t.core.run = (if s.core.run = .idle then .idle else .endedFault) ∧ t.core.ops = [] ∧ t.core.kept = [] ∧
      t.core.anyPending = false ∧ t.core.rtab.entries = [] ∧ t.core.outst = none ∧ t.core.msgs.iface = []) ∧
  (∀ (n : Nat) (c : Core), let k := c.struck n
    k.run = (if c.run = .idle then .idle else .endedFault) ∧ k.ops = [] ∧ k.anyPending = false ∧ k.rtab.entries = [] ∧
    k.regs = c.regs ∧ k.ctl = c.ctl) ∧
  (∀ (s : State) (pkg die : Nat), die < 8 → (s.getPkg pkg).diePresent.getLsbD die = true → s.dieLive pkg die = false →
    ∃ t, exec (.dieReset pkg die) s = .next t ∧ (t.getPkg pkg).dieReset.getLsbD die = false ∧ t.mem = s.mem ∧
      (∀ d, d < 8 → d ≠ die → (t.getPkg pkg).dieReset.getLsbD d = (s.getPkg pkg).dieReset.getLsbD d) ∧
      (s.core.addr.toNat ∈ dieTiles pkg die → t.core = { s.core with resetAt := s.clk })) ∧
  (∀ (s : State) (pkg gw : Nat), gw < 4 → (s.getPkg pkg).gateways.getLsbD gw = true →
    (s.getPkg pkg).failed.contains (.gateway gw) = false →
    ∃ t, exec (.gatewayDieReset pkg gw) s = .next t ∧ t = { s with pkgs := t.pkgs } ∧
      (t.getPkg pkg).gatewayLive gw = !(s.getPkg pkg).gatewayLive gw) ∧
  ∀ (s : State) (pkg stack : Nat), stack < 16 → (s.getPkg pkg).stackPresent.getLsbD stack = true → s.others = [] →
    s.core.addr.toNat ∈ stackCores pkg stack → s.coreExists s.core.addr.toNat = true → s.core.run = .idle →
    s.core.calls = [] → s.core.info.call = none →
    channelMap (s.getPkg pkg).repaired stack = channelMap ((s.getPkg pkg).repairStack stack).repaired stack →
    ∃ t, exec (.stackBaseDieReset pkg stack) s = .next t ∧ t.mem = s.mem ∧
      t.core = { Core.idle s.core.addr with resetAt := s.clk }

/-- R379, R380, R392, R394, R409, R411, R421, R427: a link counts its replays and retires lanes, on spares first and then 64
at a time; a path to a pod goes down and comes back, and where the last exclusive holder of a guard is no longer reached
its curator takes the loss step; the throttle is recorded; a configuration request is answered with a retry while bring-up
lasts. None of them touches a core or a byte of memory. -/
def Obligations.LinkEvents : Prop :=
  ∀ (s : State) (pkg : Nat), let p := s.getPkg pkg;
    let goes := fun (i : Instr) (f : Package → Prop) =>
      ∃ t, exec i s = .next t ∧ t = { s with pkgs := t.pkgs } ∧ f (t.getPkg pkg)
    (∀ link, link < 68 → goes (.linkCrcReplay pkg link) fun q =>
        agetD q.crcReplay link 0 = countUp (agetD p.crcReplay link 0) ∧ q.lanes = p.lanes) ∧
    (∀ link, link < 68 → goes (.laneRetire pkg link) fun q => let n := (agetD q.laneSpare link 0).toNat
        agetD q.laneSpare link 0 = countUp (agetD p.laneSpare link 0) ∧
        (n ≤ 16 → agetD q.lanes link 512 = 512) ∧ (16 < n → n ≤ 528 → agetD q.lanes link 512 = (528 - n) / 64 * 64)) ∧
    (∀ pod path, pod < 128 → path < 4 →
      (∃ t, exec (.pathDown pkg pod path) s = .next t ∧ t = { s with pkgs := t.pkgs, curators := t.curators } ∧
        (let q := t.getPkg pkg
         (q.livePaths pod).getLsbD path = false ∧
           ∀ i, i < 4 → i ≠ path → (q.livePaths pod).getLsbD i = (p.livePaths pod).getLsbD i) ∧
        ∀ gk g, s.guard gk = some g → ∃ h, t.guard gk = some h ∧
          ((∃ x, g.lastX = some x ∧ t.reaches (dpaPkg (gk % 2 ^ 52)) (pkgOf (threadCore x.1)) = false) → h = g.lossStep) ∧
          ((∀ x, g.lastX = some x → t.reaches (dpaPkg (gk % 2 ^ 52)) (pkgOf (threadCore x.1)) = true) → h = g)) ∧
      goes (.pathLive pkg pod path) (fun q => (q.livePaths pod).getLsbD path = true ∧
        ∀ i, i < 4 → i ≠ path → (q.livePaths pod).getLsbD i = (p.livePaths pod).getLsbD i)) ∧
    (∀ n, n < 256 → goes (.thermalThrottle pkg n) fun q => q.throttle = n) ∧
    goes (.configurationRequest pkg) fun q => q.cfgRetry = decide (s.ns < p.upAt)

/-- R424: in the halt debug state a debugger reads and writes the registers, the accumulators, the store and the pc of a core
that has stopped; one that has not, or that the tenant's token does not show, reads as zero and is not written. A core that is
resumed goes on at the address after that of its pc, which is the model's choice (notes/assumptions/29.md); which processes a
token shows is open (notes/assumptions/48.md). -/
def Obligations.DebuggerAccess : Prop :=
  (∀ s : State, let c := s.core.addr.toNat; (s.getPkg (pkgOf c)).debug = .halt →
    s.core.run ≠ .haltDebug ∨ ((s.getPkg (pkgOf c)).security ≠ .opened ∧
      Config.tokenPid (s.getPkg (pkgOf c)).tokenReg s.core.ctl.pid = false) →
    ∀ what idx x, (∃ t, exec (.haltDebugAccess c what idx false x) s = .next t ∧ t = { s with pkgs := t.pkgs } ∧
      (t.getPkg (pkgOf c)).dbgData = 0) ∧ exec (.haltDebugAccess c what idx true x) s = .next s) ∧
  ∀ s : State, let c := s.core.addr.toNat; let pkg := pkgOf c; s.core.run = .haltDebug →
    exec (.debugResume c) s = .next { s with core := { s.core with
      run := .running, regs := { s.core.regs with pc := s.pc + 4 } } } ∧
    ((s.getPkg pkg).debug = .halt → (s.getPkg pkg).security = .opened →
      let sees := fun (what idx : Nat) (x : BitVec 512) => ∃ t, exec (.haltDebugAccess c what idx false 0) s = .next t ∧
        t = { s with pkgs := t.pkgs } ∧ (t.getPkg pkg).dbgData = x
      let sets := fun (what idx : Nat) (x : BitVec 512) (t : State) => exec (.haltDebugAccess c what idx true x) s = .next t
      (∀ i : BitVec 5, sees 0 i.toNat ((s.g i).setWidth 512) ∧ sees 1 i.toNat (s.v i)) ∧
      (∀ i : BitVec 3, sees 2 i.toNat ((s.m i).setWidth 512)) ∧
      (∀ n : BitVec 12, sees 3 n.toNat ((s.readCr n.toNat).setWidth 512)) ∧
      (∀ (n : BitVec 2) (k : Fin 16), sees 7 (16 * n.toNat + k) ((s.core.accTile n).extractLsb' (512 * k) 512)) ∧
      (∀ a, a + 64 ≤ 0x180000 → sees 4 a (BitVec.ofNat 512 (readAt s a 64))) ∧ sees 6 0 (s.pc.setWidth 512) ∧
      ∀ x : BitVec 512, (∀ i : BitVec 5, sets 0 i.toNat x (s.setG i (x.setWidth 64)) ∧ sets 1 i.toNat x (s.setV i x)) ∧
        (∀ i : BitVec 3, sets 2 i.toNat x (s.setM i (x.setWidth 64))) ∧
        (∀ (n : BitVec 2) (k : Fin 16), ∃ t, sets 7 (16 * n.toNat + k) x t ∧ t.mem = s.mem ∧ t.core.regs = s.core.regs ∧
          t.core.ctl = s.core.ctl ∧ ∀ j : Fin 16, (t.core.accTile n).extractLsb' (512 * j) 512 =
            if j = k then x else (s.core.accTile n).extractLsb' (512 * j) 512) ∧
        (∀ a, a + 64 ≤ 0x180000 → ∃ t, sets 4 a x t ∧ t.core.regs = s.core.regs ∧ readAt t a 64 = x.toNat) ∧
        sets 6 0 x (withRegs s { s.core.regs with pc := BitVec.ofNat 21 (x.toNat % 2 ^ 21 / 4 * 4) }))

/-! ## Reset, decoding and the step (R3, R11, R12, R26, R32, R59 to R66, R360, R421) -/

namespace Sys2Proof.Claims

open Sys2Proof Sys2Proof.Machine

/-- The core in focus is ready to fetch: it runs, with no frame, load, end of its launch, rollback or pending event that
goes first, nothing of a commit waiting, not in a gang's follower role, and no member of its own lags. -/
def fetches (s : State) : Prop :=
  s.core.run = .running ∧ s.core.frame = none ∧ s.core.outst = none ∧ s.launchStops = none ∧ s.core.rollsBack = false ∧
  s.core.team.committed = [] ∧ s.atBoundary = none ∧ (∀ l k, s.core.gang.role ≠ .follower l k) ∧ s.pastYield.membersLag = false

end Sys2Proof.Claims

/-- R11, R12, R27, R32, R316, R328, R381, R418, R421: what the spec gives at reset: cores idle with control registers zero
but EVEC and RXWATCH, an empty ring, range table and mailbox, nothing under way, every engine's TICKNS 1, event banks,
leak tables, population descriptors and codebook tables zero, every byte of stacked memory undefined, the resident handler
in every bay, and the package open, with debug off, power run and no queue. That SCLA, SCLB and CBOOK are zero and the event
latch is clear is the model's choice (notes/assumptions/1.md), and so are the bytes of the resident handler
(notes/assumptions/41.md) and the form of undefined memory (notes/assumptions/3.md). -/
def Obligations.ResetValues : Prop :=
  let s := State.reset; let k := s.core
  (∀ c, (s.getCore c).run = .idle) ∧ s.mem.wf = true ∧
  (∀ e off, e < 2 ^ 19 → (off < 2 ^ 20 → s.mem.byte (keyBank e off) = 0) ∧ (off < 2 ^ 13 → s.mem.byte (keyLeak e off) = 0) ∧
    (off < 2 ^ 9 → s.mem.byte (keyPop e off) = 0) ∧ (off < 2 ^ 13 → s.mem.byte (keyBook e off) = 0)) ∧
  (∀ place dpa, place < 3 → dpa < 2 ^ 52 → ∃ id, id ≠ bootSpan ∧
    s.mem.byte (keyOff place dpa) = Config.freeByte id (keyOff place dpa)) ∧
  (∀ c k, c < 2 ^ 23 → k < residentImage.length → s.mem.byte (keyLocal c (bayBase + k)) = residentImage.getD k 0) ∧
  k.ctl.status = { ppriv := false, ckpt := false, preempt := false, rm := 0, topx := false, pie := false, ie := false,
                   priv := false } ∧
  k.ctl.fstat = 0 ∧ k.ctl.fmta = 0 ∧ k.ctl.fmtb = 0 ∧ k.ctl.scla = 0 ∧ k.ctl.sclb = 0 ∧ k.ctl.cbook = 0 ∧ k.ctl.deal = 0 ∧
  k.ctl.evec = 0x17C000 ∧ k.ctl.rxwatch = 0x1000000 ∧ k.ctl.drnext = 0 ∧
  (∀ q : BitVec 16, (k.entry q).state = .empty) ∧ k.rtab.entries = [] ∧ k.mail = [] ∧ k.msgs.queue = [] ∧ k.latch = false ∧
  k.sync.phaseBits = 0 ∧ k.sync.plan = 0 ∧ k.sync.report = 0 ∧ k.paths.cnt = Vector.replicate 7 0 ∧
  k.paths.failed = Vector.replicate 7 0 ∧ s.rops = [] ∧ (∀ e, (s.engine e).tickns = 1 ∧ (s.engine e).queue = []) ∧
  ∀ p, (s.getPkg p).security = .opened ∧ (s.getPkg p).debug = .off ∧ (s.getPkg p).power = .run ∧
    (s.getPkg p).queues = [] ∧ (s.getPkg p).sync = false ∧ (s.getPkg p).hwbase = 0

/-- R26, R65, R360: a step of a core that is ready to fetch runs the instruction that the word at its pc decodes to, or
raises ILLEGAL with the word; the core's wait ends once its pc has moved, and its gang is told. With an empty schedule the
core in focus steps and the domain goes on; a turn names another core, an event, an error that arises, or time that
passes, of which no more does than is given: the schedule is the model's own (notes/assumptions/6.md). -/
def Obligations.StepRunsDecoded : Prop :=
  (∀ (s t : State) (w : BitVec 32), fetches s → s.pastYield.fetchCheck s.pc.toNat = none →
    s.pastYield.fetchWord s.pc.toNat = (w, t) →
    (∀ i, t.decodeHere w = some i →
      s.coreStep = andThen (andThen (exec i t) (State.settleWait s.pc)) (State.pushStep t w) ∧
      (s.core.gang.role = .alone → ∀ u, exec i t = .next u →
        s.coreStep = .next (if u.pc = s.pc then u else { u with core := { u.core with wait := .no } }))) ∧
    (t.decodeHere w = none → s.core.gang.role = .alone → s.coreStep = .next (t.trap (Cause.illegal, w.toNat))) ∧
    t = { s with tick := t.tick, core := { s.core with fbuf := t.core.fbuf, yielded := false } } ∧
    (s.core.fbuf = none → w = BitVec.ofNat 32 (readAt s s.pc.toNat 4))) ∧
  (∀ s, fetches s → s.core.gang.role = .alone → ∀ f, s.pastYield.fetchCheck s.pc.toNat = some f →
    s.coreStep = .next (s.pastYield.trap f)) ∧
  ∀ (s : State) (l : List Turn),
    (s.sched = [] → step s = andThen s.coreStep State.goOn) ∧
    (∀ c, s.sched = .core c :: l → s.coreExists c = true → step s = (State.focus { s with sched := l } c).coreStep) ∧
    (∀ i, s.sched = .event i :: l → step s = exec i { s with sched := l }) ∧
    (∀ u, s.sched = .upset u :: l → step s = .next (State.upset { s with sched := l } u)) ∧
    ∀ c n, s.sched = .pass c n :: l → ∃ t, step s = .next t ∧ t = State.passTime { s with sched := l } c n ∧
      s.clk ≤ t.clk ∧ t.clk ≤ s.clk + c ∧ s.ns ≤ t.ns ∧ t.ns ≤ s.ns + n ∧ t.core = s.core ∧ t.mem = s.mem

/-- R59 to R77: words written out from the formats and sub-maps decode to the instructions they stand for; the all-zero
and the all-ones word, a must-be-zero field that is not zero and an unassigned code decode to none. -/
def Obligations.DecodeWords : Prop :=
  decode? 0b00000100011000010001000000000000 = some (.add 3 1 2) ∧
  decode? 0b00001000000000000000000000000000 = some (.addi 0 0 0) ∧
  decode? 0b00011111111000010000000000011000 = some (.limh 31 1 0x18) ∧
  decode? 0b01011100101111110000000000001000 = some (.stD 5 31 8) ∧
  decode? 0b01100100001000100001111111111111 = some (.beq 1 2 0x1FFF) ∧
  decode? 0b01101000000000000000000000000001 = some (.j 1) ∧
  decode? 0b01110100010000110000001000101001 = some (.crs 2 3 0x029) ∧
  decode? 0b01111100100001010011001000000011 = some (.vadd 4 5 6 2 3) ∧
  decode? 0b10000100100001010011000111011010 = some (.vfma 4 5 6 7 3 2) ∧
  decode? 0b10010100011000010011111111111111 = some (.vld 3 1 1 0x1FFF) ∧
  decode? 0b10110100001000100001100101000010 = some (.ldx 1 2 3 1 1 2) ∧
  decode? 0b11001100001010000001000000000000 = some (.cpy 1 2 2) ∧
  decode? 0b11010000010000110000000000110100 = some (.mma 2 3 0 3 0 1 0 0) ∧
  decode? 0 = none ∧ decode? 0xFFFFFFFF = none ∧ decode? 0b00000100011000010001010000000000 = none ∧
  decode? 0b00000100011000010001000000011111 = none

/-- R59 to R77: decoding and encoding agree: each of the 271 instructions of the table has a word, and none of its events, which
stand after them in `Instr`; the word of a well-formed instruction decodes to it, with every operand at every value, and a word
that decodes is the word of what it decodes to, which is well-formed. -/
def Obligations.DecodeEncode : Prop :=
  (∀ i : Instr, (encode i).isSome = decide (i.ctorIdx < 271)) ∧
  (∀ (i : Instr) (w : BitVec 32), i.wf = true → encode i = some w → decode? w = some i) ∧
  ∀ (w : BitVec 32) (i : Instr), decode? w = some i → i.wf = true ∧ encode i = some w

/-- R24, R33: every step keeps the canonical form of memory: keys rising, and no cell listed that reads as an unlisted
one. The form is the model's own representation of memory (notes/assumptions/3.md). -/
def Obligations.MemoryFormKept : Prop :=
  ∀ s t : State, s.memOk → step s = .next t → t.memOk

/-- The memory of the state after reset is in its canonical form, and lists nothing: what a byte reads as is said by four
spans. Both are the model's own (notes/assumptions/3.md). -/
def Obligations.ResetMemoryForm : Prop :=
  State.reset.memOk ∧ State.reset.mem.cells = [] ∧ State.reset.mem.undef.length = 4

/-- R65, R92, R175: nothing that an instruction or event finds stops the machine: each answers a next state from every
state, and so does every step but one whose schedule names a core that the domain does not have, which is a fault. The schedule is the model's own
(notes/assumptions/6.md). -/
def Obligations.EveryStepGoesOn : Prop :=
  (∀ (i : Instr) (s : State), ∃ t, exec i s = .next t) ∧
  (∀ s : State, s.mayStep = true → ∃ t, step s = .next t) ∧
  ∀ s : State, s.mayStep = false → step s = .fault .noSuchAgent
end

