-- ==== Sys2Proof/Laws/Memory.lean ====
section
/-!
SUPPORT. Sys2Proof/Laws/Memory.lean: every operation on memory keeps its canonical form, and what a byte reads as after
each of them. The read laws hold for every memory value, in its canonical form or not.
-/

namespace Sys2Proof.Machine

/-! ## The canonical form -/

theorem cellsWf_mono {lo hi : Nat} {l : List Host.Cell} (h : lo ≤ hi) (w : cellsWf hi l = true) : cellsWf lo l = true := by
  cases l with
  | nil => rfl
  | cons c r =>
    obtain ⟨a, b⟩ := c
    simp only [cellsWf, Bool.and_eq_true, decide_eq_true_eq] at w ⊢
    exact ⟨⟨le_trans h w.1.1, w.1.2⟩, w.2⟩

theorem cellsWf_append {lo k : Nat} {l r : List Host.Cell} (hl : cellsWf lo l = true) (hb : ∀ c ∈ l, c.1 < k)
    (hr : cellsWf k r = true) (hlo : lo ≤ k) : cellsWf lo (l ++ r) = true := by
  induction l generalizing lo with
  | nil => exact cellsWf_mono hlo hr
  | cons c t ih =>
    obtain ⟨a, b⟩ := c
    simp only [List.cons_append, cellsWf, Bool.and_eq_true, decide_eq_true_eq] at hl ⊢
    exact ⟨hl.1, ih hl.2 (fun c hc => hb c (List.mem_cons_of_mem _ hc)) (hb (a, b) (by simp))⟩

theorem cellsBelow_wf {lo k : Nat} {l : List Host.Cell} (h : cellsWf lo l = true) : cellsWf lo (cellsBelow l k) = true := by
  induction l generalizing lo with
  | nil => rfl
  | cons c t ih =>
    obtain ⟨a, b⟩ := c
    simp only [cellsWf, Bool.and_eq_true, decide_eq_true_eq] at h
    by_cases hk : a < k
    · simp only [cellsBelow, hk, if_true, cellsWf, Bool.and_eq_true, decide_eq_true_eq]
      exact ⟨h.1, ih h.2⟩
    · simp [cellsBelow, hk, cellsWf]

theorem cellsBelow_lt {k : Nat} {l : List Host.Cell} : ∀ c ∈ cellsBelow l k, c.1 < k := by
  induction l with
  | nil => simp [cellsBelow]
  | cons c t ih =>
    obtain ⟨a, b⟩ := c
    by_cases hk : a < k
    · simp only [cellsBelow, hk, if_true, List.mem_cons, forall_eq_or_imp, true_and]; exact ih
    · simp [cellsBelow, hk]

theorem cellsFrom_wf {lo k : Nat} {l : List Host.Cell} (h : cellsWf lo l = true) : cellsWf k (cellsFrom l k) = true := by
  induction l generalizing lo with
  | nil => rfl
  | cons c t ih =>
    obtain ⟨a, b⟩ := c
    simp only [cellsWf, Bool.and_eq_true, decide_eq_true_eq] at h
    by_cases hk : a < k
    · simp only [cellsFrom, hk, if_true]; exact ih h.2
    · simp only [cellsFrom, hk, if_false, cellsWf, Bool.and_eq_true, decide_eq_true_eq]
      exact ⟨⟨by omega, h.1.2⟩, h.2⟩

theorem cellsOf_wf {k : Nat} {xs : List Byte} : cellsWf k (cellsOf k xs) = true := by
  induction xs generalizing k with
  | nil => rfl
  | cons x t ih =>
    by_cases hx : x = unlisted
    · simp only [cellsOf, hx, if_true]; exact cellsWf_mono (Nat.le_succ k) ih
    · simp only [cellsOf, hx, if_false, cellsWf, Bool.and_eq_true, decide_eq_true_eq]
      exact ⟨⟨le_refl k, by simpa using hx⟩, ih⟩

theorem cellsOf_lt {k : Nat} {xs : List Byte} : ∀ c ∈ cellsOf k xs, c.1 < k + xs.length := by
  induction xs generalizing k with
  | nil => simp [cellsOf]
  | cons x t ih =>
    have h : ∀ c ∈ cellsOf (k + 1) t, c.1 < k + (x :: t).length := fun c hc => by
      have := ih c hc; simp only [List.length_cons]; omega
    by_cases hx : x = unlisted
    · simp only [cellsOf, hx, if_true]; simpa [hx] using h
    · simp only [cellsOf, hx, if_false, List.mem_cons, forall_eq_or_imp]
      exact ⟨by simp, h⟩

/-- A write keeps the canonical form. -/
theorem Memory.wf_writeBytes {m : Memory} (h : m.wf = true) (k : Nat) (xs : List Byte) : (m.writeBytes k xs).wf = true := by
  have h' : cellsWf 0 m.cells = true := h
  show cellsWf 0 (cellsBelow m.cells k ++ cellsOf k xs ++ cellsFrom m.cells (k + xs.length)) = true
  rw [List.append_assoc]
  refine cellsWf_append (cellsBelow_wf h') cellsBelow_lt ?_ (Nat.zero_le k)
  exact cellsWf_append cellsOf_wf cellsOf_lt (cellsFrom_wf h') (Nat.le_add_right k _)

/-- So does a write of a number. -/
theorem Memory.wf_write {m : Memory} (h : m.wf = true) (k n x : Nat) : (m.write k n x).wf = true := wf_writeBytes h k _

theorem cells_cut_wf {l : List Host.Cell} (h : cellsWf 0 l = true) (k n : Nat) :
    cellsWf 0 (cellsBelow l k ++ cellsFrom l (k + n)) = true :=
  cellsWf_append (cellsBelow_wf h) cellsBelow_lt (cellsWf_mono (Nat.le_add_right k n) (cellsFrom_wf h)) (Nat.zero_le k)

/-- Bytes that become undefined keep the canonical form. -/
theorem Memory.wf_undefine {m : Memory} (h : m.wf = true) (k n id : Nat) : (m.undefine k n id).wf = true := cells_cut_wf h k n

/-- Bytes that become zero keep the canonical form. -/
theorem Memory.wf_zero {m : Memory} (h : m.wf = true) (k n : Nat) : (m.zero k n).wf = true := cells_cut_wf h k n

theorem Memory.wf_writeCells {m : Memory} (h : m.wf = true) (k : Nat) (l : List Host.Cell) :
    (m.writeCells k l).wf = true := by
  induction l generalizing m with
  | nil => exact h
  | cons c t ih => obtain ⟨d, b⟩ := c; exact ih (wf_writeBytes h (k + d) [b])

theorem Memory.wf_foldl_undefine {m : Memory} (h : m.wf = true) (us : List USpan) :
    (us.foldl (fun m (u : USpan) => m.undefine u.lo u.len u.id) m).wf = true := by
  induction us generalizing m with
  | nil => exact h
  | cons u t ih => exact ih (wf_undefine h _ _ _)

/-- A copy keeps the canonical form. -/
theorem Memory.wf_copyFrom {m : Memory} (h : m.wf = true) (m0 : Memory) (src dst n : Nat) :
    (m.copyFrom m0 src dst n).wf = true :=
  wf_foldl_undefine (wf_writeCells (wf_zero h dst n) dst _) _

theorem Memory.wf_copy {m : Memory} (h : m.wf = true) (src dst n : Nat) : (m.copy src dst n).wf = true :=
  wf_copyFrom h m src dst n

/-- Memory with nothing listed is in its canonical form. -/
theorem Memory.wf_reset : Memory.reset.wf = true := rfl

/-! ## What a byte reads as -/

theorem cellsRead_append_left {l r : List Host.Cell} {k x : Nat} (hx : x < k) (hr : ∀ c ∈ r, k ≤ c.1) :
    cellsRead (l ++ r) x = cellsRead l x := by
  induction l with
  | nil =>
    cases r with
    | nil => rfl
    | cons c t =>
      obtain ⟨a, b⟩ := c
      have := hr (a, b) (by simp)
      simp only at this
      have h1 : ¬ a < x := by omega
      have h2 : ¬ a = x := by omega
      simp [cellsRead, h1, h2]
  | cons c t ih => obtain ⟨a, b⟩ := c; simp only [List.cons_append, cellsRead, ih]

theorem cellsRead_append_right {l r : List Host.Cell} {k x : Nat} (hx : k ≤ x) (hl : ∀ c ∈ l, c.1 < k) :
    cellsRead (l ++ r) x = cellsRead r x := by
  induction l with
  | nil => rfl
  | cons c t ih =>
    obtain ⟨a, b⟩ := c
    have := hl (a, b) (by simp)
    simp only at this
    have h1 : a < x := by omega
    simp only [List.cons_append, cellsRead, h1, if_true]
    exact ih fun c hc => hl c (List.mem_cons_of_mem _ hc)

theorem cellsRead_below {l : List Host.Cell} {k x : Nat} (hx : x < k) : cellsRead (cellsBelow l k) x = cellsRead l x := by
  induction l with
  | nil => rfl
  | cons c t ih =>
    obtain ⟨a, b⟩ := c
    by_cases hk : a < k
    · simp only [cellsBelow, hk, if_true, cellsRead, ih]
    · have h1 : ¬ a < x := by omega
      have h2 : ¬ a = x := by omega
      simp [cellsBelow, hk, cellsRead, h1, h2]

theorem cellsRead_from {l : List Host.Cell} {k x : Nat} (hx : k ≤ x) : cellsRead (cellsFrom l k) x = cellsRead l x := by
  induction l with
  | nil => rfl
  | cons c t ih =>
    obtain ⟨a, b⟩ := c
    by_cases hk : a < k
    · have h1 : a < x := by omega
      simp only [cellsFrom, hk, if_true, cellsRead, h1, ih]
    · simp [cellsFrom, hk]

theorem cellsOf_ge {k : Nat} {xs : List Byte} : ∀ c ∈ cellsOf k xs, k ≤ c.1 := by
  induction xs generalizing k with
  | nil => simp [cellsOf]
  | cons x t ih =>
    have h : ∀ c ∈ cellsOf (k + 1) t, k ≤ c.1 := fun c hc => le_trans (Nat.le_succ k) (ih c hc)
    by_cases hx : x = unlisted
    · simp only [cellsOf, hx, if_true]; exact h
    · simp only [cellsOf, hx, if_false, List.mem_cons, forall_eq_or_imp]; exact ⟨le_refl k, h⟩

theorem cellsRead_of {k : Nat} {xs : List Byte} {i : Nat} (hi : i < xs.length) :
    cellsRead (cellsOf k xs) (k + i) = xs.getD i 0 := by
  induction xs generalizing k i with
  | nil => simp at hi
  | cons x t ih =>
    cases i with
    | zero =>
      by_cases hx : x = unlisted
      · simp only [cellsOf, hx, if_true]
        have : ∀ l : List Host.Cell, (∀ c ∈ l, k + 1 ≤ c.1) → cellsRead l k = unlisted := by
          intro l hl
          cases l with
          | nil => rfl
          | cons c r =>
            obtain ⟨a, b⟩ := c
            have h0 := hl (a, b) (by simp)
            simp only at h0
            have h1 : ¬ a < k := by omega
            have h2 : ¬ a = k := by omega
            simp [cellsRead, h1, h2]
        have h := this _ (cellsOf_ge (k := k + 1) (xs := t)); simpa [unlisted] using h
      · simp [cellsOf, hx, cellsRead]
    | succ j =>
      have hj : j < t.length := by simpa using hi
      have hstep : cellsRead (cellsOf (k + 1) t) (k + (j + 1)) = t.getD j 0 := by
        have := ih (k := k + 1) hj
        rwa [show k + (j + 1) = k + 1 + j by omega]
      by_cases hx : x = unlisted
      · simp only [cellsOf, hx, if_true]; simpa using hstep
      · have h1 : k < k + (j + 1) := by omega
        simp only [cellsOf, hx, if_false, cellsRead, h1, if_true]; simpa using hstep

theorem cells_ge {lo : Nat} {l : List Host.Cell} (h : cellsWf lo l = true) : ∀ c ∈ l, lo ≤ c.1 := by
  induction l generalizing lo with
  | nil => simp
  | cons c t ih =>
    obtain ⟨a, b⟩ := c
    simp only [cellsWf, Bool.and_eq_true, decide_eq_true_eq] at h
    simp only [List.mem_cons, forall_eq_or_imp]
    exact ⟨h.1.1, fun c hc => le_trans (by omega) (ih h.2 c hc)⟩

/-- The first cell at or above a key stands at or above it. -/
theorem cellsFrom_head {l : List Host.Cell} {k : Nat} : ∀ c r, cellsFrom l k = c :: r → k ≤ c.1 := by
  induction l with
  | nil => simp [cellsFrom]
  | cons c t ih =>
    obtain ⟨a, b⟩ := c
    intro d r h
    by_cases hk : a < k
    · simp only [cellsFrom, hk, if_true] at h; exact ih d r h
    · simp only [cellsFrom, hk, if_false, List.cons.injEq] at h
      rw [← h.1]; simp only; omega

theorem cellsRead_append_from {l m : List Host.Cell} {k x : Nat} (hx : x < k) :
    cellsRead (l ++ cellsFrom m k) x = cellsRead l x := by
  induction l with
  | nil =>
    cases h : cellsFrom m k with
    | nil => rfl
    | cons c r =>
      have := cellsFrom_head c r h
      obtain ⟨a, b⟩ := c
      simp only at this
      have h1 : ¬ a < x := by omega
      have h2 : ¬ a = x := by omega
      simp [cellsRead, h1, h2]
  | cons c t ih => obtain ⟨a, b⟩ := c; simp only [List.cons_append, cellsRead, ih]

/-- What the cells read as after a write. -/
theorem cellsRead_write (l : List Host.Cell) (k : Nat) (xs : List Byte) (x : Nat) :
    cellsRead (cellsWrite l k xs) x = if k ≤ x ∧ x < k + xs.length then xs.getD (x - k) 0 else cellsRead l x := by
  unfold cellsWrite
  by_cases h1 : x < k
  · rw [cellsRead_append_from (by omega), cellsRead_append_left h1 cellsOf_ge, cellsRead_below h1]
    simp [show ¬ k ≤ x by omega]
  · by_cases h2 : x < k + xs.length
    · rw [cellsRead_append_from h2, cellsRead_append_right (by omega : k ≤ x) cellsBelow_lt]
      have := cellsRead_of (k := k) (xs := xs) (i := x - k) (by omega)
      rw [show k + (x - k) = x by omega] at this
      simp [this, show k ≤ x by omega, h2]
    · rw [List.append_assoc, cellsRead_append_right (by omega : k ≤ x) cellsBelow_lt,
        cellsRead_append_right (by omega : k + xs.length ≤ x) cellsOf_lt, cellsRead_from (by omega)]
      simp [h2]

/-! ### Undefined spans -/

theorem find_covers_id {l : List USpan} {id : Nat} (h : ∀ v ∈ l, v.id = id) (y : Nat) :
    (l.find? (·.covers y)).map (·.id) = if l.any (·.covers y) = true then some id else none := by
  induction l with
  | nil => simp
  | cons v t ih =>
    cases hv : v.covers y with
    | true => simp [hv, h v (by simp)]
    | false => simpa [hv] using ih fun w hw => h w (List.mem_cons_of_mem _ hw)

theorem USpan.carve_id (u : USpan) (k n : Nat) : ∀ v ∈ u.carve k n, v.id = u.id := by
  unfold USpan.carve
  dsimp only
  split_ifs <;> simp

theorem USpan.carve_covers (u : USpan) (k n y : Nat) :
    (u.carve k n).any (·.covers y) = true ↔ u.covers y = true ∧ ¬ (k ≤ y ∧ y < k + n) := by
  obtain ⟨lo, len, id⟩ := u
  unfold USpan.carve
  dsimp only
  split_ifs with h1 h2 h3 h4 <;>
    simp only [List.nil_append, List.append_nil, List.cons_append, List.any_cons, List.any_nil, Bool.or_false,
      Bool.or_eq_true, Bool.false_eq_true, USpan.covers, Bool.and_eq_true, decide_eq_true_eq] <;>
    (first | omega | (simp; omega))

theorem USpan.carve_find (u : USpan) (k n y : Nat) :
    ((u.carve k n).find? (·.covers y)).map (·.id) =
      if u.covers y = true ∧ ¬ (k ≤ y ∧ y < k + n) then some u.id else none := by
  rw [find_covers_id (u.carve_id k n) y]
  simp only [USpan.carve_covers]

theorem carveAll_find (us : List USpan) (k n y : Nat) :
    ((carveAll us k n).find? (·.covers y)).map (·.id) =
      if k ≤ y ∧ y < k + n then none else (us.find? (·.covers y)).map (·.id) := by
  induction us with
  | nil => simp [carveAll]
  | cons u t ih =>
    have hu := USpan.carve_find u k n y
    have e : carveAll (u :: t) k n = u.carve k n ++ carveAll t k n := rfl
    rw [e, List.find?_append, List.find?_cons]
    cases hf : (u.carve k n).find? (·.covers y) with
    | some v =>
      rw [hf] at hu
      simp only [Option.map_some, Option.some_or] at hu ⊢
      split at hu
      · rename_i h; simp [h.1, h.2, hu]
      · simp at hu
    | none =>
      rw [hf] at hu
      simp only [Option.none_or, ih]
      by_cases hk : k ≤ y ∧ y < k + n
      · simp [hk]
      · cases hc : u.covers y with
        | true => simp [hc, hk] at hu
        | false => simp [hk]

/-- The byte at a key, by the number of the undefined span that covers it. -/
theorem Memory.byte_eq (m : Memory) (y : Nat) :
    m.byte y = match (m.undef.find? (·.covers y)).map (·.id) with
      | some id => spanByte id y
      | none => cellsRead m.cells y := by
  unfold Memory.byte
  cases m.undef.find? (·.covers y) <;> rfl

/-- Every byte after a write. -/
theorem Memory.byte_writeBytes (m : Memory) (k : Nat) (xs : List Byte) (y : Nat) :
    (m.writeBytes k xs).byte y = if k ≤ y ∧ y < k + xs.length then xs.getD (y - k) 0 else m.byte y := by
  rw [Memory.byte_eq, Memory.byte_eq]
  simp only [Memory.writeBytes, carveAll_find, cellsRead_write]
  by_cases h : k ≤ y ∧ y < k + xs.length
  · simp only [if_pos h]
  · simp only [if_neg h]

/-- A written byte reads as written. -/
theorem Memory.byte_writeBytes_in (m : Memory) (k : Nat) (xs : List Byte) {i : Nat} (h : i < xs.length) :
    (m.writeBytes k xs).byte (k + i) = xs.getD i 0 := by
  rw [Memory.byte_writeBytes, if_pos ⟨Nat.le_add_right k i, Nat.add_lt_add_left h k⟩, Nat.add_sub_cancel_left]

/-- A byte outside the written ones reads as before. -/
theorem Memory.byte_writeBytes_out (m : Memory) (k : Nat) (xs : List Byte) {y : Nat}
    (h : ∀ i, i < xs.length → y ≠ k + i) : (m.writeBytes k xs).byte y = m.byte y := by
  rw [Memory.byte_writeBytes, if_neg]
  rintro ⟨h1, h2⟩
  exact h (y - k) (by omega) (by omega)

theorem cellsRead_cut (l : List Host.Cell) (k n x : Nat) :
    cellsRead (cellsBelow l k ++ cellsFrom l (k + n)) x = if k ≤ x ∧ x < k + n then unlisted else cellsRead l x := by
  by_cases h1 : x < k
  · rw [cellsRead_append_from (by omega), cellsRead_below h1]; simp [show ¬ k ≤ x by omega]
  · by_cases h2 : x < k + n
    · rw [cellsRead_append_from h2]
      have : ∀ l : List Host.Cell, (∀ c ∈ l, c.1 < k) → cellsRead l x = unlisted := by
        intro l
        induction l with
        | nil => intro _; rfl
        | cons c t ih =>
          intro hl
          obtain ⟨a, b⟩ := c
          have h0 := hl (a, b) (by simp)
          simp only at h0
          have h3 : a < x := by omega
          simp only [cellsRead, h3, if_true]
          exact ih fun c hc => hl c (List.mem_cons_of_mem _ hc)
      rw [this _ cellsBelow_lt]; simp [show k ≤ x by omega, h2]
    · rw [cellsRead_append_right (by omega : k ≤ x) cellsBelow_lt, cellsRead_from (by omega)]; simp [h2]

/-- Every byte after some became zero. -/
theorem Memory.byte_zero (m : Memory) (k n y : Nat) :
    (m.zero k n).byte y = if k ≤ y ∧ y < k + n then 0 else m.byte y := by
  rw [Memory.byte_eq, Memory.byte_eq]
  simp only [Memory.zero, carveAll_find, cellsRead_cut]
  by_cases h : k ≤ y ∧ y < k + n
  · simp only [if_pos h]; rfl
  · simp only [if_neg h]

/-! ### Several bytes -/

theorem Memory.bytes_length (m : Memory) (k n : Nat) : (m.bytes k n).length = n := by
  induction n generalizing k with
  | zero => rfl
  | succ n ih => simp [Memory.bytes, ih]

theorem Memory.bytes_getD (m : Memory) (k : Nat) {n i : Nat} (h : i < n) : (m.bytes k n).getD i 0 = m.byte (k + i) := by
  induction n generalizing k i with
  | zero => omega
  | succ n ih =>
    cases i with
    | zero => simp [Memory.bytes]
    | succ j =>
      have := ih (k + 1) (i := j) (by omega)
      simp only [Memory.bytes, List.getD_cons_succ, this]
      congr 1
      omega

/-- A read depends on its bytes alone. -/
theorem Memory.bytes_congr {m m' : Memory} {k n : Nat} (h : ∀ i, i < n → m.byte (k + i) = m'.byte (k + i)) :
    m.bytes k n = m'.bytes k n := by
  induction n generalizing k with
  | zero => rfl
  | succ n ih =>
    simp only [Memory.bytes]
    rw [show m.byte k = m'.byte k from h 0 (by omega), ih fun i hi => by
      have := h (i + 1) (by omega); rwa [show k + 1 + i = k + (i + 1) by omega]]

theorem natLe_length (n x : Nat) : (natLe n x).length = n := by
  induction n generalizing x with
  | zero => rfl
  | succ n ih => simp [natLe, ih]

theorem leNat_natLe (n x : Nat) : leNat (natLe n x) = x % 256 ^ n := by
  induction n generalizing x with
  | zero => simp [natLe, leNat, Nat.mod_one]
  | succ n ih =>
    simp only [natLe, leNat, ih, BitVec.toNat_ofNat]
    rw [show (2 : Nat) ^ 8 = 256 by rfl, Nat.pow_succ, Nat.mul_comm (256 ^ n), Nat.mod_mul]

theorem natLe_getD (n x i : Nat) (h : i < n) : (natLe n x).getD i 0 = BitVec.ofNat 8 (x / 256 ^ i) := by
  induction n generalizing x i with
  | zero => omega
  | succ n ih =>
    cases i with
    | zero => simp [natLe]
    | succ j =>
      simp only [natLe, List.getD_cons_succ]
      rw [ih (x / 256) j (by omega), Nat.div_div_eq_div_mul, Nat.pow_succ, Nat.mul_comm 256]

/-- What was written reads back. -/
theorem Memory.bytes_writeBytes (m : Memory) (k : Nat) (xs : List Byte) : (m.writeBytes k xs).bytes k xs.length = xs := by
  apply List.ext_getElem (by rw [Memory.bytes_length])
  intro i h1 h2
  have := Memory.bytes_getD (m.writeBytes k xs) k h2
  rw [Memory.byte_writeBytes_in m k xs h2, List.getD_eq_getElem _ _ h1, List.getD_eq_getElem _ _ h2] at this
  exact this

/-- A number written reads back, cut to its bytes. -/
theorem Memory.read_write (m : Memory) (k n x : Nat) : (m.write k n x).read k n = x % 256 ^ n := by
  have := Memory.bytes_writeBytes m k (natLe n x)
  rw [natLe_length] at this
  rw [Memory.read, Memory.write, this, leNat_natLe]

end Sys2Proof.Machine
end

