-- ==== Sys2Proof/Laws/State.lean ====
section
/-!
SUPPORT. Sys2Proof/Laws/State.lean: what each update leaves alone: one lemma per field per update, so that no proof
unfolds a record update.
-/

namespace Sys2Proof.Machine

/-! ## Updates of the state -/
@[simp] theorem State.on_others (s : State) (f : Core → Core) : (s.on f).others = s.others := rfl
@[simp] theorem State.on_saved (s : State) (f : Core → Core) : (s.on f).saved = s.saved := rfl
@[simp] theorem State.on_snaps (s : State) (f : Core → Core) : (s.on f).snaps = s.snaps := rfl
@[simp] theorem State.on_ended (s : State) (f : Core → Core) : (s.on f).ended = s.ended := rfl
@[simp] theorem State.on_mem (s : State) (f : Core → Core) : (s.on f).mem = s.mem := rfl
@[simp] theorem State.on_poison (s : State) (f : Core → Core) : (s.on f).poison = s.poison := rfl
@[simp] theorem State.on_clk (s : State) (f : Core → Core) : (s.on f).clk = s.clk := rfl
@[simp] theorem State.on_ns (s : State) (f : Core → Core) : (s.on f).ns = s.ns := rfl
@[simp] theorem State.on_tick (s : State) (f : Core → Core) : (s.on f).tick = s.tick := rfl
@[simp] theorem State.on_sched (s : State) (f : Core → Core) : (s.on f).sched = s.sched := rfl
@[simp] theorem State.on_pkgs (s : State) (f : Core → Core) : (s.on f).pkgs = s.pkgs := rfl
@[simp] theorem State.on_stations (s : State) (f : Core → Core) : (s.on f).stations = s.stations := rfl
@[simp] theorem State.on_rops (s : State) (f : Core → Core) : (s.on f).rops = s.rops := rfl
@[simp] theorem State.on_curators (s : State) (f : Core → Core) : (s.on f).curators = s.curators := rfl
@[simp] theorem State.on_gmsgs (s : State) (f : Core → Core) : (s.on f).gmsgs = s.gmsgs := rfl
@[simp] theorem State.on_units (s : State) (f : Core → Core) : (s.on f).units = s.units := rfl
@[simp] theorem State.on_engines (s : State) (f : Core → Core) : (s.on f).engines = s.engines := rfl
@[simp] theorem State.on_triggers (s : State) (f : Core → Core) : (s.on f).triggers = s.triggers := rfl
@[simp] theorem State.on_mesh (s : State) (f : Core → Core) : (s.on f).mesh = s.mesh := rfl
@[simp] theorem State.on_evnet (s : State) (f : Core → Core) : (s.on f).evnet = s.evnet := rfl
@[simp] theorem State.on_posts (s : State) (f : Core → Core) : (s.on f).posts = s.posts := rfl
@[simp] theorem State.on_beats (s : State) (f : Core → Core) : (s.on f).beats = s.beats := rfl
@[simp] theorem State.on_follows (s : State) (f : Core → Core) : (s.on f).follows = s.follows := rfl
@[simp] theorem State.on_posted (s : State) (f : Core → Core) : (s.on f).posted = s.posted := rfl
@[simp] theorem State.on_ordered (s : State) (f : Core → Core) : (s.on f).ordered = s.ordered := rfl
@[simp] theorem State.on_hostWrites (s : State) (f : Core → Core) : (s.on f).hostWrites = s.hostWrites := rfl
@[simp] theorem State.on_order (s : State) (f : Core → Core) : (s.on f).order = s.order := rfl
@[simp] theorem State.on_copyPos (s : State) (f : Core → Core) : (s.on f).copyPos = s.copyPos := rfl
@[simp] theorem State.on_core (s : State) (f : Core → Core) : (s.on f).core = f s.core := rfl
@[simp] theorem State.withMem_core (s : State) (f : Memory → Memory) : (s.withMem f).core = s.core := rfl
@[simp] theorem State.withMem_others (s : State) (f : Memory → Memory) : (s.withMem f).others = s.others := rfl
@[simp] theorem State.withMem_saved (s : State) (f : Memory → Memory) : (s.withMem f).saved = s.saved := rfl
@[simp] theorem State.withMem_snaps (s : State) (f : Memory → Memory) : (s.withMem f).snaps = s.snaps := rfl
@[simp] theorem State.withMem_ended (s : State) (f : Memory → Memory) : (s.withMem f).ended = s.ended := rfl
@[simp] theorem State.withMem_poison (s : State) (f : Memory → Memory) : (s.withMem f).poison = s.poison := rfl
@[simp] theorem State.withMem_clk (s : State) (f : Memory → Memory) : (s.withMem f).clk = s.clk := rfl
@[simp] theorem State.withMem_ns (s : State) (f : Memory → Memory) : (s.withMem f).ns = s.ns := rfl
@[simp] theorem State.withMem_tick (s : State) (f : Memory → Memory) : (s.withMem f).tick = s.tick := rfl
@[simp] theorem State.withMem_sched (s : State) (f : Memory → Memory) : (s.withMem f).sched = s.sched := rfl
@[simp] theorem State.withMem_pkgs (s : State) (f : Memory → Memory) : (s.withMem f).pkgs = s.pkgs := rfl
@[simp] theorem State.withMem_stations (s : State) (f : Memory → Memory) : (s.withMem f).stations = s.stations := rfl
@[simp] theorem State.withMem_rops (s : State) (f : Memory → Memory) : (s.withMem f).rops = s.rops := rfl
@[simp] theorem State.withMem_curators (s : State) (f : Memory → Memory) : (s.withMem f).curators = s.curators := rfl
@[simp] theorem State.withMem_gmsgs (s : State) (f : Memory → Memory) : (s.withMem f).gmsgs = s.gmsgs := rfl
@[simp] theorem State.withMem_units (s : State) (f : Memory → Memory) : (s.withMem f).units = s.units := rfl
@[simp] theorem State.withMem_engines (s : State) (f : Memory → Memory) : (s.withMem f).engines = s.engines := rfl
@[simp] theorem State.withMem_triggers (s : State) (f : Memory → Memory) : (s.withMem f).triggers = s.triggers := rfl
@[simp] theorem State.withMem_mesh (s : State) (f : Memory → Memory) : (s.withMem f).mesh = s.mesh := rfl
@[simp] theorem State.withMem_evnet (s : State) (f : Memory → Memory) : (s.withMem f).evnet = s.evnet := rfl
@[simp] theorem State.withMem_posts (s : State) (f : Memory → Memory) : (s.withMem f).posts = s.posts := rfl
@[simp] theorem State.withMem_beats (s : State) (f : Memory → Memory) : (s.withMem f).beats = s.beats := rfl
@[simp] theorem State.withMem_follows (s : State) (f : Memory → Memory) : (s.withMem f).follows = s.follows := rfl
@[simp] theorem State.withMem_posted (s : State) (f : Memory → Memory) : (s.withMem f).posted = s.posted := rfl
@[simp] theorem State.withMem_ordered (s : State) (f : Memory → Memory) : (s.withMem f).ordered = s.ordered := rfl
@[simp] theorem State.withMem_hostWrites (s : State) (f : Memory → Memory) : (s.withMem f).hostWrites = s.hostWrites := rfl
@[simp] theorem State.withMem_order (s : State) (f : Memory → Memory) : (s.withMem f).order = s.order := rfl
@[simp] theorem State.withMem_copyPos (s : State) (f : Memory → Memory) : (s.withMem f).copyPos = s.copyPos := rfl
@[simp] theorem State.withMem_mem (s : State) (f : Memory → Memory) : (s.withMem f).mem = f s.mem := rfl
@[simp] theorem State.modPkg_core (s : State) (p : Nat) (f : Package → Package) : (s.modPkg p f).core = s.core := rfl
@[simp] theorem State.modPkg_others (s : State) (p : Nat) (f : Package → Package) : (s.modPkg p f).others = s.others := rfl
@[simp] theorem State.modPkg_saved (s : State) (p : Nat) (f : Package → Package) : (s.modPkg p f).saved = s.saved := rfl
@[simp] theorem State.modPkg_snaps (s : State) (p : Nat) (f : Package → Package) : (s.modPkg p f).snaps = s.snaps := rfl
@[simp] theorem State.modPkg_ended (s : State) (p : Nat) (f : Package → Package) : (s.modPkg p f).ended = s.ended := rfl
@[simp] theorem State.modPkg_mem (s : State) (p : Nat) (f : Package → Package) : (s.modPkg p f).mem = s.mem := rfl
@[simp] theorem State.modPkg_poison (s : State) (p : Nat) (f : Package → Package) : (s.modPkg p f).poison = s.poison := rfl
@[simp] theorem State.modPkg_clk (s : State) (p : Nat) (f : Package → Package) : (s.modPkg p f).clk = s.clk := rfl
@[simp] theorem State.modPkg_ns (s : State) (p : Nat) (f : Package → Package) : (s.modPkg p f).ns = s.ns := rfl
@[simp] theorem State.modPkg_tick (s : State) (p : Nat) (f : Package → Package) : (s.modPkg p f).tick = s.tick := rfl
@[simp] theorem State.modPkg_sched (s : State) (p : Nat) (f : Package → Package) : (s.modPkg p f).sched = s.sched := rfl
@[simp] theorem State.modPkg_stations (s : State) (p : Nat) (f : Package → Package) : (s.modPkg p f).stations = s.stations := rfl
@[simp] theorem State.modPkg_rops (s : State) (p : Nat) (f : Package → Package) : (s.modPkg p f).rops = s.rops := rfl
@[simp] theorem State.modPkg_curators (s : State) (p : Nat) (f : Package → Package) : (s.modPkg p f).curators = s.curators := rfl
@[simp] theorem State.modPkg_gmsgs (s : State) (p : Nat) (f : Package → Package) : (s.modPkg p f).gmsgs = s.gmsgs := rfl
@[simp] theorem State.modPkg_units (s : State) (p : Nat) (f : Package → Package) : (s.modPkg p f).units = s.units := rfl
@[simp] theorem State.modPkg_engines (s : State) (p : Nat) (f : Package → Package) : (s.modPkg p f).engines = s.engines := rfl
@[simp] theorem State.modPkg_triggers (s : State) (p : Nat) (f : Package → Package) : (s.modPkg p f).triggers = s.triggers := rfl
@[simp] theorem State.modPkg_mesh (s : State) (p : Nat) (f : Package → Package) : (s.modPkg p f).mesh = s.mesh := rfl
@[simp] theorem State.modPkg_evnet (s : State) (p : Nat) (f : Package → Package) : (s.modPkg p f).evnet = s.evnet := rfl
@[simp] theorem State.modPkg_posts (s : State) (p : Nat) (f : Package → Package) : (s.modPkg p f).posts = s.posts := rfl
@[simp] theorem State.modPkg_beats (s : State) (p : Nat) (f : Package → Package) : (s.modPkg p f).beats = s.beats := rfl
@[simp] theorem State.modPkg_follows (s : State) (p : Nat) (f : Package → Package) : (s.modPkg p f).follows = s.follows := rfl
@[simp] theorem State.modPkg_posted (s : State) (p : Nat) (f : Package → Package) : (s.modPkg p f).posted = s.posted := rfl
@[simp] theorem State.modPkg_ordered (s : State) (p : Nat) (f : Package → Package) : (s.modPkg p f).ordered = s.ordered := rfl
@[simp] theorem State.modPkg_hostWrites (s : State) (p : Nat) (f : Package → Package) : (s.modPkg p f).hostWrites = s.hostWrites := rfl
@[simp] theorem State.modPkg_order (s : State) (p : Nat) (f : Package → Package) : (s.modPkg p f).order = s.order := rfl
@[simp] theorem State.modPkg_copyPos (s : State) (p : Nat) (f : Package → Package) : (s.modPkg p f).copyPos = s.copyPos := rfl
@[simp] theorem State.setG_others (s : State) (i : BitVec 5) (x : Word) : (s.setG i x).others = s.others := rfl
@[simp] theorem State.setG_saved (s : State) (i : BitVec 5) (x : Word) : (s.setG i x).saved = s.saved := rfl
@[simp] theorem State.setG_snaps (s : State) (i : BitVec 5) (x : Word) : (s.setG i x).snaps = s.snaps := rfl
@[simp] theorem State.setG_ended (s : State) (i : BitVec 5) (x : Word) : (s.setG i x).ended = s.ended := rfl
@[simp] theorem State.setG_mem (s : State) (i : BitVec 5) (x : Word) : (s.setG i x).mem = s.mem := rfl
@[simp] theorem State.setG_poison (s : State) (i : BitVec 5) (x : Word) : (s.setG i x).poison = s.poison := rfl
@[simp] theorem State.setG_clk (s : State) (i : BitVec 5) (x : Word) : (s.setG i x).clk = s.clk := rfl
@[simp] theorem State.setG_ns (s : State) (i : BitVec 5) (x : Word) : (s.setG i x).ns = s.ns := rfl
@[simp] theorem State.setG_tick (s : State) (i : BitVec 5) (x : Word) : (s.setG i x).tick = s.tick := rfl
@[simp] theorem State.setG_sched (s : State) (i : BitVec 5) (x : Word) : (s.setG i x).sched = s.sched := rfl
@[simp] theorem State.setG_pkgs (s : State) (i : BitVec 5) (x : Word) : (s.setG i x).pkgs = s.pkgs := rfl
@[simp] theorem State.setG_stations (s : State) (i : BitVec 5) (x : Word) : (s.setG i x).stations = s.stations := rfl
@[simp] theorem State.setG_rops (s : State) (i : BitVec 5) (x : Word) : (s.setG i x).rops = s.rops := rfl
@[simp] theorem State.setG_curators (s : State) (i : BitVec 5) (x : Word) : (s.setG i x).curators = s.curators := rfl
@[simp] theorem State.setG_gmsgs (s : State) (i : BitVec 5) (x : Word) : (s.setG i x).gmsgs = s.gmsgs := rfl
@[simp] theorem State.setG_units (s : State) (i : BitVec 5) (x : Word) : (s.setG i x).units = s.units := rfl
@[simp] theorem State.setG_engines (s : State) (i : BitVec 5) (x : Word) : (s.setG i x).engines = s.engines := rfl
@[simp] theorem State.setG_triggers (s : State) (i : BitVec 5) (x : Word) : (s.setG i x).triggers = s.triggers := rfl
@[simp] theorem State.setG_mesh (s : State) (i : BitVec 5) (x : Word) : (s.setG i x).mesh = s.mesh := rfl
@[simp] theorem State.setG_evnet (s : State) (i : BitVec 5) (x : Word) : (s.setG i x).evnet = s.evnet := rfl
@[simp] theorem State.setG_posts (s : State) (i : BitVec 5) (x : Word) : (s.setG i x).posts = s.posts := rfl
@[simp] theorem State.setG_beats (s : State) (i : BitVec 5) (x : Word) : (s.setG i x).beats = s.beats := rfl
@[simp] theorem State.setG_follows (s : State) (i : BitVec 5) (x : Word) : (s.setG i x).follows = s.follows := rfl
@[simp] theorem State.setG_posted (s : State) (i : BitVec 5) (x : Word) : (s.setG i x).posted = s.posted := rfl
@[simp] theorem State.setG_ordered (s : State) (i : BitVec 5) (x : Word) : (s.setG i x).ordered = s.ordered := rfl
@[simp] theorem State.setG_hostWrites (s : State) (i : BitVec 5) (x : Word) : (s.setG i x).hostWrites = s.hostWrites := rfl
@[simp] theorem State.setG_order (s : State) (i : BitVec 5) (x : Word) : (s.setG i x).order = s.order := rfl
@[simp] theorem State.setG_copyPos (s : State) (i : BitVec 5) (x : Word) : (s.setG i x).copyPos = s.copyPos := rfl
@[simp] theorem State.setG_core (s : State) (i : BitVec 5) (x : Word) : (s.setG i x).core = s.core.setG i x := rfl
@[simp] theorem State.setV_others (s : State) (i : BitVec 5) (x : VReg) : (s.setV i x).others = s.others := rfl
@[simp] theorem State.setV_saved (s : State) (i : BitVec 5) (x : VReg) : (s.setV i x).saved = s.saved := rfl
@[simp] theorem State.setV_snaps (s : State) (i : BitVec 5) (x : VReg) : (s.setV i x).snaps = s.snaps := rfl
@[simp] theorem State.setV_ended (s : State) (i : BitVec 5) (x : VReg) : (s.setV i x).ended = s.ended := rfl
@[simp] theorem State.setV_mem (s : State) (i : BitVec 5) (x : VReg) : (s.setV i x).mem = s.mem := rfl
@[simp] theorem State.setV_poison (s : State) (i : BitVec 5) (x : VReg) : (s.setV i x).poison = s.poison := rfl
@[simp] theorem State.setV_clk (s : State) (i : BitVec 5) (x : VReg) : (s.setV i x).clk = s.clk := rfl
@[simp] theorem State.setV_ns (s : State) (i : BitVec 5) (x : VReg) : (s.setV i x).ns = s.ns := rfl
@[simp] theorem State.setV_tick (s : State) (i : BitVec 5) (x : VReg) : (s.setV i x).tick = s.tick := rfl
@[simp] theorem State.setV_sched (s : State) (i : BitVec 5) (x : VReg) : (s.setV i x).sched = s.sched := rfl
@[simp] theorem State.setV_pkgs (s : State) (i : BitVec 5) (x : VReg) : (s.setV i x).pkgs = s.pkgs := rfl
@[simp] theorem State.setV_stations (s : State) (i : BitVec 5) (x : VReg) : (s.setV i x).stations = s.stations := rfl
@[simp] theorem State.setV_rops (s : State) (i : BitVec 5) (x : VReg) : (s.setV i x).rops = s.rops := rfl
@[simp] theorem State.setV_curators (s : State) (i : BitVec 5) (x : VReg) : (s.setV i x).curators = s.curators := rfl
@[simp] theorem State.setV_gmsgs (s : State) (i : BitVec 5) (x : VReg) : (s.setV i x).gmsgs = s.gmsgs := rfl
@[simp] theorem State.setV_units (s : State) (i : BitVec 5) (x : VReg) : (s.setV i x).units = s.units := rfl
@[simp] theorem State.setV_engines (s : State) (i : BitVec 5) (x : VReg) : (s.setV i x).engines = s.engines := rfl
@[simp] theorem State.setV_triggers (s : State) (i : BitVec 5) (x : VReg) : (s.setV i x).triggers = s.triggers := rfl
@[simp] theorem State.setV_mesh (s : State) (i : BitVec 5) (x : VReg) : (s.setV i x).mesh = s.mesh := rfl
@[simp] theorem State.setV_evnet (s : State) (i : BitVec 5) (x : VReg) : (s.setV i x).evnet = s.evnet := rfl
@[simp] theorem State.setV_posts (s : State) (i : BitVec 5) (x : VReg) : (s.setV i x).posts = s.posts := rfl
@[simp] theorem State.setV_beats (s : State) (i : BitVec 5) (x : VReg) : (s.setV i x).beats = s.beats := rfl
@[simp] theorem State.setV_follows (s : State) (i : BitVec 5) (x : VReg) : (s.setV i x).follows = s.follows := rfl
@[simp] theorem State.setV_posted (s : State) (i : BitVec 5) (x : VReg) : (s.setV i x).posted = s.posted := rfl
@[simp] theorem State.setV_ordered (s : State) (i : BitVec 5) (x : VReg) : (s.setV i x).ordered = s.ordered := rfl
@[simp] theorem State.setV_hostWrites (s : State) (i : BitVec 5) (x : VReg) : (s.setV i x).hostWrites = s.hostWrites := rfl
@[simp] theorem State.setV_order (s : State) (i : BitVec 5) (x : VReg) : (s.setV i x).order = s.order := rfl
@[simp] theorem State.setV_copyPos (s : State) (i : BitVec 5) (x : VReg) : (s.setV i x).copyPos = s.copyPos := rfl
@[simp] theorem State.setV_core (s : State) (i : BitVec 5) (x : VReg) : (s.setV i x).core = s.core.setV i x := rfl
@[simp] theorem State.setM_others (s : State) (i : BitVec 3) (x : Word) : (s.setM i x).others = s.others := rfl
@[simp] theorem State.setM_saved (s : State) (i : BitVec 3) (x : Word) : (s.setM i x).saved = s.saved := rfl
@[simp] theorem State.setM_snaps (s : State) (i : BitVec 3) (x : Word) : (s.setM i x).snaps = s.snaps := rfl
@[simp] theorem State.setM_ended (s : State) (i : BitVec 3) (x : Word) : (s.setM i x).ended = s.ended := rfl
@[simp] theorem State.setM_mem (s : State) (i : BitVec 3) (x : Word) : (s.setM i x).mem = s.mem := rfl
@[simp] theorem State.setM_poison (s : State) (i : BitVec 3) (x : Word) : (s.setM i x).poison = s.poison := rfl
@[simp] theorem State.setM_clk (s : State) (i : BitVec 3) (x : Word) : (s.setM i x).clk = s.clk := rfl
@[simp] theorem State.setM_ns (s : State) (i : BitVec 3) (x : Word) : (s.setM i x).ns = s.ns := rfl
@[simp] theorem State.setM_tick (s : State) (i : BitVec 3) (x : Word) : (s.setM i x).tick = s.tick := rfl
@[simp] theorem State.setM_sched (s : State) (i : BitVec 3) (x : Word) : (s.setM i x).sched = s.sched := rfl
@[simp] theorem State.setM_pkgs (s : State) (i : BitVec 3) (x : Word) : (s.setM i x).pkgs = s.pkgs := rfl
@[simp] theorem State.setM_stations (s : State) (i : BitVec 3) (x : Word) : (s.setM i x).stations = s.stations := rfl
@[simp] theorem State.setM_rops (s : State) (i : BitVec 3) (x : Word) : (s.setM i x).rops = s.rops := rfl
@[simp] theorem State.setM_curators (s : State) (i : BitVec 3) (x : Word) : (s.setM i x).curators = s.curators := rfl
@[simp] theorem State.setM_gmsgs (s : State) (i : BitVec 3) (x : Word) : (s.setM i x).gmsgs = s.gmsgs := rfl
@[simp] theorem State.setM_units (s : State) (i : BitVec 3) (x : Word) : (s.setM i x).units = s.units := rfl
@[simp] theorem State.setM_engines (s : State) (i : BitVec 3) (x : Word) : (s.setM i x).engines = s.engines := rfl
@[simp] theorem State.setM_triggers (s : State) (i : BitVec 3) (x : Word) : (s.setM i x).triggers = s.triggers := rfl
@[simp] theorem State.setM_mesh (s : State) (i : BitVec 3) (x : Word) : (s.setM i x).mesh = s.mesh := rfl
@[simp] theorem State.setM_evnet (s : State) (i : BitVec 3) (x : Word) : (s.setM i x).evnet = s.evnet := rfl
@[simp] theorem State.setM_posts (s : State) (i : BitVec 3) (x : Word) : (s.setM i x).posts = s.posts := rfl
@[simp] theorem State.setM_beats (s : State) (i : BitVec 3) (x : Word) : (s.setM i x).beats = s.beats := rfl
@[simp] theorem State.setM_follows (s : State) (i : BitVec 3) (x : Word) : (s.setM i x).follows = s.follows := rfl
@[simp] theorem State.setM_posted (s : State) (i : BitVec 3) (x : Word) : (s.setM i x).posted = s.posted := rfl
@[simp] theorem State.setM_ordered (s : State) (i : BitVec 3) (x : Word) : (s.setM i x).ordered = s.ordered := rfl
@[simp] theorem State.setM_hostWrites (s : State) (i : BitVec 3) (x : Word) : (s.setM i x).hostWrites = s.hostWrites := rfl
@[simp] theorem State.setM_order (s : State) (i : BitVec 3) (x : Word) : (s.setM i x).order = s.order := rfl
@[simp] theorem State.setM_copyPos (s : State) (i : BitVec 3) (x : Word) : (s.setM i x).copyPos = s.copyPos := rfl
@[simp] theorem State.setM_core (s : State) (i : BitVec 3) (x : Word) : (s.setM i x).core = s.core.setM i x := rfl
@[simp] theorem State.setPc_others (s : State) (a : LAddr) : (s.setPc a).others = s.others := rfl
@[simp] theorem State.setPc_saved (s : State) (a : LAddr) : (s.setPc a).saved = s.saved := rfl
@[simp] theorem State.setPc_snaps (s : State) (a : LAddr) : (s.setPc a).snaps = s.snaps := rfl
@[simp] theorem State.setPc_ended (s : State) (a : LAddr) : (s.setPc a).ended = s.ended := rfl
@[simp] theorem State.setPc_mem (s : State) (a : LAddr) : (s.setPc a).mem = s.mem := rfl
@[simp] theorem State.setPc_poison (s : State) (a : LAddr) : (s.setPc a).poison = s.poison := rfl
@[simp] theorem State.setPc_clk (s : State) (a : LAddr) : (s.setPc a).clk = s.clk := rfl
@[simp] theorem State.setPc_ns (s : State) (a : LAddr) : (s.setPc a).ns = s.ns := rfl
@[simp] theorem State.setPc_tick (s : State) (a : LAddr) : (s.setPc a).tick = s.tick := rfl
@[simp] theorem State.setPc_sched (s : State) (a : LAddr) : (s.setPc a).sched = s.sched := rfl
@[simp] theorem State.setPc_pkgs (s : State) (a : LAddr) : (s.setPc a).pkgs = s.pkgs := rfl
@[simp] theorem State.setPc_stations (s : State) (a : LAddr) : (s.setPc a).stations = s.stations := rfl
@[simp] theorem State.setPc_rops (s : State) (a : LAddr) : (s.setPc a).rops = s.rops := rfl
@[simp] theorem State.setPc_curators (s : State) (a : LAddr) : (s.setPc a).curators = s.curators := rfl
@[simp] theorem State.setPc_gmsgs (s : State) (a : LAddr) : (s.setPc a).gmsgs = s.gmsgs := rfl
@[simp] theorem State.setPc_units (s : State) (a : LAddr) : (s.setPc a).units = s.units := rfl
@[simp] theorem State.setPc_engines (s : State) (a : LAddr) : (s.setPc a).engines = s.engines := rfl
@[simp] theorem State.setPc_triggers (s : State) (a : LAddr) : (s.setPc a).triggers = s.triggers := rfl
@[simp] theorem State.setPc_mesh (s : State) (a : LAddr) : (s.setPc a).mesh = s.mesh := rfl
@[simp] theorem State.setPc_evnet (s : State) (a : LAddr) : (s.setPc a).evnet = s.evnet := rfl
@[simp] theorem State.setPc_posts (s : State) (a : LAddr) : (s.setPc a).posts = s.posts := rfl
@[simp] theorem State.setPc_beats (s : State) (a : LAddr) : (s.setPc a).beats = s.beats := rfl
@[simp] theorem State.setPc_follows (s : State) (a : LAddr) : (s.setPc a).follows = s.follows := rfl
@[simp] theorem State.setPc_posted (s : State) (a : LAddr) : (s.setPc a).posted = s.posted := rfl
@[simp] theorem State.setPc_ordered (s : State) (a : LAddr) : (s.setPc a).ordered = s.ordered := rfl
@[simp] theorem State.setPc_hostWrites (s : State) (a : LAddr) : (s.setPc a).hostWrites = s.hostWrites := rfl
@[simp] theorem State.setPc_order (s : State) (a : LAddr) : (s.setPc a).order = s.order := rfl
@[simp] theorem State.setPc_copyPos (s : State) (a : LAddr) : (s.setPc a).copyPos = s.copyPos := rfl
@[simp] theorem State.setPc_core (s : State) (a : LAddr) : (s.setPc a).core = s.core.setPc a := rfl
@[simp] theorem State.adv_others (s : State) : (s.adv).others = s.others := rfl
@[simp] theorem State.adv_saved (s : State) : (s.adv).saved = s.saved := rfl
@[simp] theorem State.adv_snaps (s : State) : (s.adv).snaps = s.snaps := rfl
@[simp] theorem State.adv_ended (s : State) : (s.adv).ended = s.ended := rfl
@[simp] theorem State.adv_mem (s : State) : (s.adv).mem = s.mem := rfl
@[simp] theorem State.adv_poison (s : State) : (s.adv).poison = s.poison := rfl
@[simp] theorem State.adv_clk (s : State) : (s.adv).clk = s.clk := rfl
@[simp] theorem State.adv_ns (s : State) : (s.adv).ns = s.ns := rfl
@[simp] theorem State.adv_tick (s : State) : (s.adv).tick = s.tick := rfl
@[simp] theorem State.adv_sched (s : State) : (s.adv).sched = s.sched := rfl
@[simp] theorem State.adv_pkgs (s : State) : (s.adv).pkgs = s.pkgs := rfl
@[simp] theorem State.adv_stations (s : State) : (s.adv).stations = s.stations := rfl
@[simp] theorem State.adv_rops (s : State) : (s.adv).rops = s.rops := rfl
@[simp] theorem State.adv_curators (s : State) : (s.adv).curators = s.curators := rfl
@[simp] theorem State.adv_gmsgs (s : State) : (s.adv).gmsgs = s.gmsgs := rfl
@[simp] theorem State.adv_units (s : State) : (s.adv).units = s.units := rfl
@[simp] theorem State.adv_engines (s : State) : (s.adv).engines = s.engines := rfl
@[simp] theorem State.adv_triggers (s : State) : (s.adv).triggers = s.triggers := rfl
@[simp] theorem State.adv_mesh (s : State) : (s.adv).mesh = s.mesh := rfl
@[simp] theorem State.adv_evnet (s : State) : (s.adv).evnet = s.evnet := rfl
@[simp] theorem State.adv_posts (s : State) : (s.adv).posts = s.posts := rfl
@[simp] theorem State.adv_beats (s : State) : (s.adv).beats = s.beats := rfl
@[simp] theorem State.adv_follows (s : State) : (s.adv).follows = s.follows := rfl
@[simp] theorem State.adv_posted (s : State) : (s.adv).posted = s.posted := rfl
@[simp] theorem State.adv_ordered (s : State) : (s.adv).ordered = s.ordered := rfl
@[simp] theorem State.adv_hostWrites (s : State) : (s.adv).hostWrites = s.hostWrites := rfl
@[simp] theorem State.adv_order (s : State) : (s.adv).order = s.order := rfl
@[simp] theorem State.adv_copyPos (s : State) : (s.adv).copyPos = s.copyPos := rfl
@[simp] theorem State.adv_core (s : State) : (s.adv).core = s.core.setPc (s.pc + 4) := rfl
@[simp] theorem State.waiting_others (s : State) (w : WaitState) : (s.waiting w).others = s.others := rfl
@[simp] theorem State.waiting_saved (s : State) (w : WaitState) : (s.waiting w).saved = s.saved := rfl
@[simp] theorem State.waiting_snaps (s : State) (w : WaitState) : (s.waiting w).snaps = s.snaps := rfl
@[simp] theorem State.waiting_ended (s : State) (w : WaitState) : (s.waiting w).ended = s.ended := rfl
@[simp] theorem State.waiting_mem (s : State) (w : WaitState) : (s.waiting w).mem = s.mem := rfl
@[simp] theorem State.waiting_poison (s : State) (w : WaitState) : (s.waiting w).poison = s.poison := rfl
@[simp] theorem State.waiting_clk (s : State) (w : WaitState) : (s.waiting w).clk = s.clk := rfl
@[simp] theorem State.waiting_ns (s : State) (w : WaitState) : (s.waiting w).ns = s.ns := rfl
@[simp] theorem State.waiting_tick (s : State) (w : WaitState) : (s.waiting w).tick = s.tick := rfl
@[simp] theorem State.waiting_sched (s : State) (w : WaitState) : (s.waiting w).sched = s.sched := rfl
@[simp] theorem State.waiting_pkgs (s : State) (w : WaitState) : (s.waiting w).pkgs = s.pkgs := rfl
@[simp] theorem State.waiting_stations (s : State) (w : WaitState) : (s.waiting w).stations = s.stations := rfl
@[simp] theorem State.waiting_rops (s : State) (w : WaitState) : (s.waiting w).rops = s.rops := rfl
@[simp] theorem State.waiting_curators (s : State) (w : WaitState) : (s.waiting w).curators = s.curators := rfl
@[simp] theorem State.waiting_gmsgs (s : State) (w : WaitState) : (s.waiting w).gmsgs = s.gmsgs := rfl
@[simp] theorem State.waiting_units (s : State) (w : WaitState) : (s.waiting w).units = s.units := rfl
@[simp] theorem State.waiting_engines (s : State) (w : WaitState) : (s.waiting w).engines = s.engines := rfl
@[simp] theorem State.waiting_triggers (s : State) (w : WaitState) : (s.waiting w).triggers = s.triggers := rfl
@[simp] theorem State.waiting_mesh (s : State) (w : WaitState) : (s.waiting w).mesh = s.mesh := rfl
@[simp] theorem State.waiting_evnet (s : State) (w : WaitState) : (s.waiting w).evnet = s.evnet := rfl
@[simp] theorem State.waiting_posts (s : State) (w : WaitState) : (s.waiting w).posts = s.posts := rfl
@[simp] theorem State.waiting_beats (s : State) (w : WaitState) : (s.waiting w).beats = s.beats := rfl
@[simp] theorem State.waiting_follows (s : State) (w : WaitState) : (s.waiting w).follows = s.follows := rfl
@[simp] theorem State.waiting_posted (s : State) (w : WaitState) : (s.waiting w).posted = s.posted := rfl
@[simp] theorem State.waiting_ordered (s : State) (w : WaitState) : (s.waiting w).ordered = s.ordered := rfl
@[simp] theorem State.waiting_hostWrites (s : State) (w : WaitState) : (s.waiting w).hostWrites = s.hostWrites := rfl
@[simp] theorem State.waiting_order (s : State) (w : WaitState) : (s.waiting w).order = s.order := rfl
@[simp] theorem State.waiting_copyPos (s : State) (w : WaitState) : (s.waiting w).copyPos = s.copyPos := rfl
@[simp] theorem State.waiting_core (s : State) (w : WaitState) : (s.waiting w).core = { s.core with wait := w } := rfl
@[simp] theorem State.resumed_others (s : State) : (s.resumed).others = s.others := rfl
@[simp] theorem State.resumed_saved (s : State) : (s.resumed).saved = s.saved := rfl
@[simp] theorem State.resumed_snaps (s : State) : (s.resumed).snaps = s.snaps := rfl
@[simp] theorem State.resumed_ended (s : State) : (s.resumed).ended = s.ended := rfl
@[simp] theorem State.resumed_mem (s : State) : (s.resumed).mem = s.mem := rfl
@[simp] theorem State.resumed_poison (s : State) : (s.resumed).poison = s.poison := rfl
@[simp] theorem State.resumed_clk (s : State) : (s.resumed).clk = s.clk := rfl
@[simp] theorem State.resumed_ns (s : State) : (s.resumed).ns = s.ns := rfl
@[simp] theorem State.resumed_tick (s : State) : (s.resumed).tick = s.tick := rfl
@[simp] theorem State.resumed_sched (s : State) : (s.resumed).sched = s.sched := rfl
@[simp] theorem State.resumed_pkgs (s : State) : (s.resumed).pkgs = s.pkgs := rfl
@[simp] theorem State.resumed_stations (s : State) : (s.resumed).stations = s.stations := rfl
@[simp] theorem State.resumed_rops (s : State) : (s.resumed).rops = s.rops := rfl
@[simp] theorem State.resumed_curators (s : State) : (s.resumed).curators = s.curators := rfl
@[simp] theorem State.resumed_gmsgs (s : State) : (s.resumed).gmsgs = s.gmsgs := rfl
@[simp] theorem State.resumed_units (s : State) : (s.resumed).units = s.units := rfl
@[simp] theorem State.resumed_engines (s : State) : (s.resumed).engines = s.engines := rfl
@[simp] theorem State.resumed_triggers (s : State) : (s.resumed).triggers = s.triggers := rfl
@[simp] theorem State.resumed_mesh (s : State) : (s.resumed).mesh = s.mesh := rfl
@[simp] theorem State.resumed_evnet (s : State) : (s.resumed).evnet = s.evnet := rfl
@[simp] theorem State.resumed_posts (s : State) : (s.resumed).posts = s.posts := rfl
@[simp] theorem State.resumed_beats (s : State) : (s.resumed).beats = s.beats := rfl
@[simp] theorem State.resumed_follows (s : State) : (s.resumed).follows = s.follows := rfl
@[simp] theorem State.resumed_posted (s : State) : (s.resumed).posted = s.posted := rfl
@[simp] theorem State.resumed_ordered (s : State) : (s.resumed).ordered = s.ordered := rfl
@[simp] theorem State.resumed_hostWrites (s : State) : (s.resumed).hostWrites = s.hostWrites := rfl
@[simp] theorem State.resumed_order (s : State) : (s.resumed).order = s.order := rfl
@[simp] theorem State.resumed_copyPos (s : State) : (s.resumed).copyPos = s.copyPos := rfl
@[simp] theorem State.resumed_core (s : State) : (s.resumed).core = { s.core with wait := .no } := rfl
@[simp] theorem State.setLatch_others (s : State) : (s.setLatch).others = s.others := rfl
@[simp] theorem State.setLatch_saved (s : State) : (s.setLatch).saved = s.saved := rfl
@[simp] theorem State.setLatch_snaps (s : State) : (s.setLatch).snaps = s.snaps := rfl
@[simp] theorem State.setLatch_ended (s : State) : (s.setLatch).ended = s.ended := rfl
@[simp] theorem State.setLatch_mem (s : State) : (s.setLatch).mem = s.mem := rfl
@[simp] theorem State.setLatch_poison (s : State) : (s.setLatch).poison = s.poison := rfl
@[simp] theorem State.setLatch_clk (s : State) : (s.setLatch).clk = s.clk := rfl
@[simp] theorem State.setLatch_ns (s : State) : (s.setLatch).ns = s.ns := rfl
@[simp] theorem State.setLatch_tick (s : State) : (s.setLatch).tick = s.tick := rfl
@[simp] theorem State.setLatch_sched (s : State) : (s.setLatch).sched = s.sched := rfl
@[simp] theorem State.setLatch_pkgs (s : State) : (s.setLatch).pkgs = s.pkgs := rfl
@[simp] theorem State.setLatch_stations (s : State) : (s.setLatch).stations = s.stations := rfl
@[simp] theorem State.setLatch_rops (s : State) : (s.setLatch).rops = s.rops := rfl
@[simp] theorem State.setLatch_curators (s : State) : (s.setLatch).curators = s.curators := rfl
@[simp] theorem State.setLatch_gmsgs (s : State) : (s.setLatch).gmsgs = s.gmsgs := rfl
@[simp] theorem State.setLatch_units (s : State) : (s.setLatch).units = s.units := rfl
@[simp] theorem State.setLatch_engines (s : State) : (s.setLatch).engines = s.engines := rfl
@[simp] theorem State.setLatch_triggers (s : State) : (s.setLatch).triggers = s.triggers := rfl
@[simp] theorem State.setLatch_mesh (s : State) : (s.setLatch).mesh = s.mesh := rfl
@[simp] theorem State.setLatch_evnet (s : State) : (s.setLatch).evnet = s.evnet := rfl
@[simp] theorem State.setLatch_posts (s : State) : (s.setLatch).posts = s.posts := rfl
@[simp] theorem State.setLatch_beats (s : State) : (s.setLatch).beats = s.beats := rfl
@[simp] theorem State.setLatch_follows (s : State) : (s.setLatch).follows = s.follows := rfl
@[simp] theorem State.setLatch_posted (s : State) : (s.setLatch).posted = s.posted := rfl
@[simp] theorem State.setLatch_ordered (s : State) : (s.setLatch).ordered = s.ordered := rfl
@[simp] theorem State.setLatch_hostWrites (s : State) : (s.setLatch).hostWrites = s.hostWrites := rfl
@[simp] theorem State.setLatch_order (s : State) : (s.setLatch).order = s.order := rfl
@[simp] theorem State.setLatch_copyPos (s : State) : (s.setLatch).copyPos = s.copyPos := rfl
@[simp] theorem State.setLatch_core (s : State) : (s.setLatch).core = { s.core with latch := true } := rfl
@[simp] theorem State.setFlags_others (s : State) (f : BitVec 6) : (s.setFlags f).others = s.others := rfl
@[simp] theorem State.setFlags_saved (s : State) (f : BitVec 6) : (s.setFlags f).saved = s.saved := rfl
@[simp] theorem State.setFlags_snaps (s : State) (f : BitVec 6) : (s.setFlags f).snaps = s.snaps := rfl
@[simp] theorem State.setFlags_ended (s : State) (f : BitVec 6) : (s.setFlags f).ended = s.ended := rfl
@[simp] theorem State.setFlags_mem (s : State) (f : BitVec 6) : (s.setFlags f).mem = s.mem := rfl
@[simp] theorem State.setFlags_poison (s : State) (f : BitVec 6) : (s.setFlags f).poison = s.poison := rfl
@[simp] theorem State.setFlags_clk (s : State) (f : BitVec 6) : (s.setFlags f).clk = s.clk := rfl
@[simp] theorem State.setFlags_ns (s : State) (f : BitVec 6) : (s.setFlags f).ns = s.ns := rfl
@[simp] theorem State.setFlags_tick (s : State) (f : BitVec 6) : (s.setFlags f).tick = s.tick := rfl
@[simp] theorem State.setFlags_sched (s : State) (f : BitVec 6) : (s.setFlags f).sched = s.sched := rfl
@[simp] theorem State.setFlags_pkgs (s : State) (f : BitVec 6) : (s.setFlags f).pkgs = s.pkgs := rfl
@[simp] theorem State.setFlags_stations (s : State) (f : BitVec 6) : (s.setFlags f).stations = s.stations := rfl
@[simp] theorem State.setFlags_rops (s : State) (f : BitVec 6) : (s.setFlags f).rops = s.rops := rfl
@[simp] theorem State.setFlags_curators (s : State) (f : BitVec 6) : (s.setFlags f).curators = s.curators := rfl
@[simp] theorem State.setFlags_gmsgs (s : State) (f : BitVec 6) : (s.setFlags f).gmsgs = s.gmsgs := rfl
@[simp] theorem State.setFlags_units (s : State) (f : BitVec 6) : (s.setFlags f).units = s.units := rfl
@[simp] theorem State.setFlags_engines (s : State) (f : BitVec 6) : (s.setFlags f).engines = s.engines := rfl
@[simp] theorem State.setFlags_triggers (s : State) (f : BitVec 6) : (s.setFlags f).triggers = s.triggers := rfl
@[simp] theorem State.setFlags_mesh (s : State) (f : BitVec 6) : (s.setFlags f).mesh = s.mesh := rfl
@[simp] theorem State.setFlags_evnet (s : State) (f : BitVec 6) : (s.setFlags f).evnet = s.evnet := rfl
@[simp] theorem State.setFlags_posts (s : State) (f : BitVec 6) : (s.setFlags f).posts = s.posts := rfl
@[simp] theorem State.setFlags_beats (s : State) (f : BitVec 6) : (s.setFlags f).beats = s.beats := rfl
@[simp] theorem State.setFlags_follows (s : State) (f : BitVec 6) : (s.setFlags f).follows = s.follows := rfl
@[simp] theorem State.setFlags_posted (s : State) (f : BitVec 6) : (s.setFlags f).posted = s.posted := rfl
@[simp] theorem State.setFlags_ordered (s : State) (f : BitVec 6) : (s.setFlags f).ordered = s.ordered := rfl
@[simp] theorem State.setFlags_hostWrites (s : State) (f : BitVec 6) : (s.setFlags f).hostWrites = s.hostWrites := rfl
@[simp] theorem State.setFlags_order (s : State) (f : BitVec 6) : (s.setFlags f).order = s.order := rfl
@[simp] theorem State.setFlags_copyPos (s : State) (f : BitVec 6) : (s.setFlags f).copyPos = s.copyPos := rfl
@[simp] theorem State.setFlags_core (s : State) (f : BitVec 6) : (s.setFlags f).core = s.core.modCtl fun k => { k with fstat := k.fstat ||| f } := rfl

/-! ## Updates of a core -/

@[simp] theorem Core.setG_addr (c : Core) (i : BitVec 5) (x : Word) : (c.setG i x).addr = c.addr := by
  unfold Core.setG; split <;> rfl
@[simp] theorem Core.setG_image (c : Core) (i : BitVec 5) (x : Word) : (c.setG i x).image = c.image := by
  unfold Core.setG; split <;> rfl
@[simp] theorem Core.setG_run (c : Core) (i : BitVec 5) (x : Word) : (c.setG i x).run = c.run := by
  unfold Core.setG; split <;> rfl
@[simp] theorem Core.setG_ctl (c : Core) (i : BitVec 5) (x : Word) : (c.setG i x).ctl = c.ctl := by
  unfold Core.setG; split <;> rfl
@[simp] theorem Core.setG_ring (c : Core) (i : BitVec 5) (x : Word) : (c.setG i x).ring = c.ring := by
  unfold Core.setG; split <;> rfl
@[simp] theorem Core.setG_ops (c : Core) (i : BitVec 5) (x : Word) : (c.setG i x).ops = c.ops := by
  unfold Core.setG; split <;> rfl
@[simp] theorem Core.setG_kept (c : Core) (i : BitVec 5) (x : Word) : (c.setG i x).kept = c.kept := by
  unfold Core.setG; split <;> rfl
@[simp] theorem Core.setG_keptTrig (c : Core) (i : BitVec 5) (x : Word) : (c.setG i x).keptTrig = c.keptTrig := by
  unfold Core.setG; split <;> rfl
@[simp] theorem Core.setG_mtx (c : Core) (i : BitVec 5) (x : Word) : (c.setG i x).mtx = c.mtx := by
  unfold Core.setG; split <;> rfl
@[simp] theorem Core.setG_sync (c : Core) (i : BitVec 5) (x : Word) : (c.setG i x).sync = c.sync := by
  unfold Core.setG; split <;> rfl
@[simp] theorem Core.setG_msgs (c : Core) (i : BitVec 5) (x : Word) : (c.setG i x).msgs = c.msgs := by
  unfold Core.setG; split <;> rfl
@[simp] theorem Core.setG_mail (c : Core) (i : BitVec 5) (x : Word) : (c.setG i x).mail = c.mail := by
  unfold Core.setG; split <;> rfl
@[simp] theorem Core.setG_latch (c : Core) (i : BitVec 5) (x : Word) : (c.setG i x).latch = c.latch := by
  unfold Core.setG; split <;> rfl
@[simp] theorem Core.setG_gang (c : Core) (i : BitVec 5) (x : Word) : (c.setG i x).gang = c.gang := by
  unfold Core.setG; split <;> rfl
@[simp] theorem Core.setG_frame (c : Core) (i : BitVec 5) (x : Word) : (c.setG i x).frame = c.frame := by
  unfold Core.setG; split <;> rfl
@[simp] theorem Core.setG_rtab (c : Core) (i : BitVec 5) (x : Word) : (c.setG i x).rtab = c.rtab := by
  unfold Core.setG; split <;> rfl
@[simp] theorem Core.setG_binds (c : Core) (i : BitVec 5) (x : Word) : (c.setG i x).binds = c.binds := by
  unfold Core.setG; split <;> rfl
@[simp] theorem Core.setG_paths (c : Core) (i : BitVec 5) (x : Word) : (c.setG i x).paths = c.paths := by
  unfold Core.setG; split <;> rfl
@[simp] theorem Core.setG_team (c : Core) (i : BitVec 5) (x : Word) : (c.setG i x).team = c.team := by
  unfold Core.setG; split <;> rfl
@[simp] theorem Core.setG_info (c : Core) (i : BitVec 5) (x : Word) : (c.setG i x).info = c.info := by
  unfold Core.setG; split <;> rfl
@[simp] theorem Core.setG_wbits (c : Core) (i : BitVec 5) (x : Word) : (c.setG i x).wbits = c.wbits := by
  unfold Core.setG; split <;> rfl
@[simp] theorem Core.setG_accBad (c : Core) (i : BitVec 5) (x : Word) : (c.setG i x).accBad = c.accBad := by
  unfold Core.setG; split <;> rfl
@[simp] theorem Core.setG_ringBad (c : Core) (i : BitVec 5) (x : Word) : (c.setG i x).ringBad = c.ringBad := by
  unfold Core.setG; split <;> rfl
@[simp] theorem Core.setG_fbuf (c : Core) (i : BitVec 5) (x : Word) : (c.setG i x).fbuf = c.fbuf := by
  unfold Core.setG; split <;> rfl
@[simp] theorem Core.setG_outst (c : Core) (i : BitVec 5) (x : Word) : (c.setG i x).outst = c.outst := by
  unfold Core.setG; split <;> rfl
@[simp] theorem Core.setG_wait (c : Core) (i : BitVec 5) (x : Word) : (c.setG i x).wait = c.wait := by
  unfold Core.setG; split <;> rfl
@[simp] theorem Core.setG_preempt (c : Core) (i : BitVec 5) (x : Word) : (c.setG i x).preempt = c.preempt := by
  unfold Core.setG; split <;> rfl
@[simp] theorem Core.setG_yielded (c : Core) (i : BitVec 5) (x : Word) : (c.setG i x).yielded = c.yielded := by
  unfold Core.setG; split <;> rfl
@[simp] theorem Core.setG_resetAt (c : Core) (i : BitVec 5) (x : Word) : (c.setG i x).resetAt = c.resetAt := by
  unfold Core.setG; split <;> rfl
@[simp] theorem Core.setG_census (c : Core) (i : BitVec 5) (x : Word) : (c.setG i x).census = c.census := by
  unfold Core.setG; split <;> rfl
@[simp] theorem Core.setG_faults (c : Core) (i : BitVec 5) (x : Word) : (c.setG i x).faults = c.faults := by
  unfold Core.setG; split <;> rfl
@[simp] theorem Core.setG_calls (c : Core) (i : BitVec 5) (x : Word) : (c.setG i x).calls = c.calls := by
  unfold Core.setG; split <;> rfl
@[simp] theorem Core.setG_view (c : Core) (i : BitVec 5) (x : Word) : (c.setG i x).view = c.view := by
  unfold Core.setG; split <;> rfl
@[simp] theorem Core.setV_addr (c : Core) (i : BitVec 5) (x : VReg) : (c.setV i x).addr = c.addr := rfl
@[simp] theorem Core.setV_image (c : Core) (i : BitVec 5) (x : VReg) : (c.setV i x).image = c.image := rfl
@[simp] theorem Core.setV_run (c : Core) (i : BitVec 5) (x : VReg) : (c.setV i x).run = c.run := rfl
@[simp] theorem Core.setV_ctl (c : Core) (i : BitVec 5) (x : VReg) : (c.setV i x).ctl = c.ctl := rfl
@[simp] theorem Core.setV_ring (c : Core) (i : BitVec 5) (x : VReg) : (c.setV i x).ring = c.ring := rfl
@[simp] theorem Core.setV_ops (c : Core) (i : BitVec 5) (x : VReg) : (c.setV i x).ops = c.ops := rfl
@[simp] theorem Core.setV_kept (c : Core) (i : BitVec 5) (x : VReg) : (c.setV i x).kept = c.kept := rfl
@[simp] theorem Core.setV_keptTrig (c : Core) (i : BitVec 5) (x : VReg) : (c.setV i x).keptTrig = c.keptTrig := rfl
@[simp] theorem Core.setV_mtx (c : Core) (i : BitVec 5) (x : VReg) : (c.setV i x).mtx = c.mtx := rfl
@[simp] theorem Core.setV_sync (c : Core) (i : BitVec 5) (x : VReg) : (c.setV i x).sync = c.sync := rfl
@[simp] theorem Core.setV_msgs (c : Core) (i : BitVec 5) (x : VReg) : (c.setV i x).msgs = c.msgs := rfl
@[simp] theorem Core.setV_mail (c : Core) (i : BitVec 5) (x : VReg) : (c.setV i x).mail = c.mail := rfl
@[simp] theorem Core.setV_latch (c : Core) (i : BitVec 5) (x : VReg) : (c.setV i x).latch = c.latch := rfl
@[simp] theorem Core.setV_gang (c : Core) (i : BitVec 5) (x : VReg) : (c.setV i x).gang = c.gang := rfl
@[simp] theorem Core.setV_frame (c : Core) (i : BitVec 5) (x : VReg) : (c.setV i x).frame = c.frame := rfl
@[simp] theorem Core.setV_rtab (c : Core) (i : BitVec 5) (x : VReg) : (c.setV i x).rtab = c.rtab := rfl
@[simp] theorem Core.setV_binds (c : Core) (i : BitVec 5) (x : VReg) : (c.setV i x).binds = c.binds := rfl
@[simp] theorem Core.setV_paths (c : Core) (i : BitVec 5) (x : VReg) : (c.setV i x).paths = c.paths := rfl
@[simp] theorem Core.setV_team (c : Core) (i : BitVec 5) (x : VReg) : (c.setV i x).team = c.team := rfl
@[simp] theorem Core.setV_info (c : Core) (i : BitVec 5) (x : VReg) : (c.setV i x).info = c.info := rfl
@[simp] theorem Core.setV_wbits (c : Core) (i : BitVec 5) (x : VReg) : (c.setV i x).wbits = c.wbits := rfl
@[simp] theorem Core.setV_accBad (c : Core) (i : BitVec 5) (x : VReg) : (c.setV i x).accBad = c.accBad := rfl
@[simp] theorem Core.setV_ringBad (c : Core) (i : BitVec 5) (x : VReg) : (c.setV i x).ringBad = c.ringBad := rfl
@[simp] theorem Core.setV_fbuf (c : Core) (i : BitVec 5) (x : VReg) : (c.setV i x).fbuf = c.fbuf := rfl
@[simp] theorem Core.setV_outst (c : Core) (i : BitVec 5) (x : VReg) : (c.setV i x).outst = c.outst := rfl
@[simp] theorem Core.setV_wait (c : Core) (i : BitVec 5) (x : VReg) : (c.setV i x).wait = c.wait := rfl
@[simp] theorem Core.setV_preempt (c : Core) (i : BitVec 5) (x : VReg) : (c.setV i x).preempt = c.preempt := rfl
@[simp] theorem Core.setV_yielded (c : Core) (i : BitVec 5) (x : VReg) : (c.setV i x).yielded = c.yielded := rfl
@[simp] theorem Core.setV_resetAt (c : Core) (i : BitVec 5) (x : VReg) : (c.setV i x).resetAt = c.resetAt := rfl
@[simp] theorem Core.setV_census (c : Core) (i : BitVec 5) (x : VReg) : (c.setV i x).census = c.census := rfl
@[simp] theorem Core.setV_faults (c : Core) (i : BitVec 5) (x : VReg) : (c.setV i x).faults = c.faults := rfl
@[simp] theorem Core.setV_calls (c : Core) (i : BitVec 5) (x : VReg) : (c.setV i x).calls = c.calls := rfl
@[simp] theorem Core.setV_view (c : Core) (i : BitVec 5) (x : VReg) : (c.setV i x).view = c.view := rfl
@[simp] theorem Core.setM_addr (c : Core) (i : BitVec 3) (x : Word) : (c.setM i x).addr = c.addr := by
  unfold Core.setM; split <;> rfl
@[simp] theorem Core.setM_image (c : Core) (i : BitVec 3) (x : Word) : (c.setM i x).image = c.image := by
  unfold Core.setM; split <;> rfl
@[simp] theorem Core.setM_run (c : Core) (i : BitVec 3) (x : Word) : (c.setM i x).run = c.run := by
  unfold Core.setM; split <;> rfl
@[simp] theorem Core.setM_ctl (c : Core) (i : BitVec 3) (x : Word) : (c.setM i x).ctl = c.ctl := by
  unfold Core.setM; split <;> rfl
@[simp] theorem Core.setM_ring (c : Core) (i : BitVec 3) (x : Word) : (c.setM i x).ring = c.ring := by
  unfold Core.setM; split <;> rfl
@[simp] theorem Core.setM_ops (c : Core) (i : BitVec 3) (x : Word) : (c.setM i x).ops = c.ops := by
  unfold Core.setM; split <;> rfl
@[simp] theorem Core.setM_kept (c : Core) (i : BitVec 3) (x : Word) : (c.setM i x).kept = c.kept := by
  unfold Core.setM; split <;> rfl
@[simp] theorem Core.setM_keptTrig (c : Core) (i : BitVec 3) (x : Word) : (c.setM i x).keptTrig = c.keptTrig := by
  unfold Core.setM; split <;> rfl
@[simp] theorem Core.setM_mtx (c : Core) (i : BitVec 3) (x : Word) : (c.setM i x).mtx = c.mtx := by
  unfold Core.setM; split <;> rfl
@[simp] theorem Core.setM_sync (c : Core) (i : BitVec 3) (x : Word) : (c.setM i x).sync = c.sync := by
  unfold Core.setM; split <;> rfl
@[simp] theorem Core.setM_msgs (c : Core) (i : BitVec 3) (x : Word) : (c.setM i x).msgs = c.msgs := by
  unfold Core.setM; split <;> rfl
@[simp] theorem Core.setM_mail (c : Core) (i : BitVec 3) (x : Word) : (c.setM i x).mail = c.mail := by
  unfold Core.setM; split <;> rfl
@[simp] theorem Core.setM_latch (c : Core) (i : BitVec 3) (x : Word) : (c.setM i x).latch = c.latch := by
  unfold Core.setM; split <;> rfl
@[simp] theorem Core.setM_gang (c : Core) (i : BitVec 3) (x : Word) : (c.setM i x).gang = c.gang := by
  unfold Core.setM; split <;> rfl
@[simp] theorem Core.setM_frame (c : Core) (i : BitVec 3) (x : Word) : (c.setM i x).frame = c.frame := by
  unfold Core.setM; split <;> rfl
@[simp] theorem Core.setM_rtab (c : Core) (i : BitVec 3) (x : Word) : (c.setM i x).rtab = c.rtab := by
  unfold Core.setM; split <;> rfl
@[simp] theorem Core.setM_binds (c : Core) (i : BitVec 3) (x : Word) : (c.setM i x).binds = c.binds := by
  unfold Core.setM; split <;> rfl
@[simp] theorem Core.setM_paths (c : Core) (i : BitVec 3) (x : Word) : (c.setM i x).paths = c.paths := by
  unfold Core.setM; split <;> rfl
@[simp] theorem Core.setM_team (c : Core) (i : BitVec 3) (x : Word) : (c.setM i x).team = c.team := by
  unfold Core.setM; split <;> rfl
@[simp] theorem Core.setM_info (c : Core) (i : BitVec 3) (x : Word) : (c.setM i x).info = c.info := by
  unfold Core.setM; split <;> rfl
@[simp] theorem Core.setM_wbits (c : Core) (i : BitVec 3) (x : Word) : (c.setM i x).wbits = c.wbits := by
  unfold Core.setM; split <;> rfl
@[simp] theorem Core.setM_accBad (c : Core) (i : BitVec 3) (x : Word) : (c.setM i x).accBad = c.accBad := by
  unfold Core.setM; split <;> rfl
@[simp] theorem Core.setM_ringBad (c : Core) (i : BitVec 3) (x : Word) : (c.setM i x).ringBad = c.ringBad := by
  unfold Core.setM; split <;> rfl
@[simp] theorem Core.setM_fbuf (c : Core) (i : BitVec 3) (x : Word) : (c.setM i x).fbuf = c.fbuf := by
  unfold Core.setM; split <;> rfl
@[simp] theorem Core.setM_outst (c : Core) (i : BitVec 3) (x : Word) : (c.setM i x).outst = c.outst := by
  unfold Core.setM; split <;> rfl
@[simp] theorem Core.setM_wait (c : Core) (i : BitVec 3) (x : Word) : (c.setM i x).wait = c.wait := by
  unfold Core.setM; split <;> rfl
@[simp] theorem Core.setM_preempt (c : Core) (i : BitVec 3) (x : Word) : (c.setM i x).preempt = c.preempt := by
  unfold Core.setM; split <;> rfl
@[simp] theorem Core.setM_yielded (c : Core) (i : BitVec 3) (x : Word) : (c.setM i x).yielded = c.yielded := by
  unfold Core.setM; split <;> rfl
@[simp] theorem Core.setM_resetAt (c : Core) (i : BitVec 3) (x : Word) : (c.setM i x).resetAt = c.resetAt := by
  unfold Core.setM; split <;> rfl
@[simp] theorem Core.setM_census (c : Core) (i : BitVec 3) (x : Word) : (c.setM i x).census = c.census := by
  unfold Core.setM; split <;> rfl
@[simp] theorem Core.setM_faults (c : Core) (i : BitVec 3) (x : Word) : (c.setM i x).faults = c.faults := by
  unfold Core.setM; split <;> rfl
@[simp] theorem Core.setM_calls (c : Core) (i : BitVec 3) (x : Word) : (c.setM i x).calls = c.calls := by
  unfold Core.setM; split <;> rfl
@[simp] theorem Core.setM_view (c : Core) (i : BitVec 3) (x : Word) : (c.setM i x).view = c.view := by
  unfold Core.setM; split <;> rfl
@[simp] theorem Core.setPc_addr (c : Core) (a : LAddr) : (c.setPc a).addr = c.addr := rfl
@[simp] theorem Core.setPc_image (c : Core) (a : LAddr) : (c.setPc a).image = c.image := rfl
@[simp] theorem Core.setPc_run (c : Core) (a : LAddr) : (c.setPc a).run = c.run := rfl
@[simp] theorem Core.setPc_ctl (c : Core) (a : LAddr) : (c.setPc a).ctl = c.ctl := rfl
@[simp] theorem Core.setPc_ring (c : Core) (a : LAddr) : (c.setPc a).ring = c.ring := rfl
@[simp] theorem Core.setPc_ops (c : Core) (a : LAddr) : (c.setPc a).ops = c.ops := rfl
@[simp] theorem Core.setPc_kept (c : Core) (a : LAddr) : (c.setPc a).kept = c.kept := rfl
@[simp] theorem Core.setPc_keptTrig (c : Core) (a : LAddr) : (c.setPc a).keptTrig = c.keptTrig := rfl
@[simp] theorem Core.setPc_mtx (c : Core) (a : LAddr) : (c.setPc a).mtx = c.mtx := rfl
@[simp] theorem Core.setPc_sync (c : Core) (a : LAddr) : (c.setPc a).sync = c.sync := rfl
@[simp] theorem Core.setPc_msgs (c : Core) (a : LAddr) : (c.setPc a).msgs = c.msgs := rfl
@[simp] theorem Core.setPc_mail (c : Core) (a : LAddr) : (c.setPc a).mail = c.mail := rfl
@[simp] theorem Core.setPc_latch (c : Core) (a : LAddr) : (c.setPc a).latch = c.latch := rfl
@[simp] theorem Core.setPc_gang (c : Core) (a : LAddr) : (c.setPc a).gang = c.gang := rfl
@[simp] theorem Core.setPc_frame (c : Core) (a : LAddr) : (c.setPc a).frame = c.frame := rfl
@[simp] theorem Core.setPc_rtab (c : Core) (a : LAddr) : (c.setPc a).rtab = c.rtab := rfl
@[simp] theorem Core.setPc_binds (c : Core) (a : LAddr) : (c.setPc a).binds = c.binds := rfl
@[simp] theorem Core.setPc_paths (c : Core) (a : LAddr) : (c.setPc a).paths = c.paths := rfl
@[simp] theorem Core.setPc_team (c : Core) (a : LAddr) : (c.setPc a).team = c.team := rfl
@[simp] theorem Core.setPc_info (c : Core) (a : LAddr) : (c.setPc a).info = c.info := rfl
@[simp] theorem Core.setPc_wbits (c : Core) (a : LAddr) : (c.setPc a).wbits = c.wbits := rfl
@[simp] theorem Core.setPc_accBad (c : Core) (a : LAddr) : (c.setPc a).accBad = c.accBad := rfl
@[simp] theorem Core.setPc_ringBad (c : Core) (a : LAddr) : (c.setPc a).ringBad = c.ringBad := rfl
@[simp] theorem Core.setPc_fbuf (c : Core) (a : LAddr) : (c.setPc a).fbuf = c.fbuf := rfl
@[simp] theorem Core.setPc_outst (c : Core) (a : LAddr) : (c.setPc a).outst = c.outst := rfl
@[simp] theorem Core.setPc_wait (c : Core) (a : LAddr) : (c.setPc a).wait = c.wait := rfl
@[simp] theorem Core.setPc_preempt (c : Core) (a : LAddr) : (c.setPc a).preempt = c.preempt := rfl
@[simp] theorem Core.setPc_yielded (c : Core) (a : LAddr) : (c.setPc a).yielded = c.yielded := rfl
@[simp] theorem Core.setPc_resetAt (c : Core) (a : LAddr) : (c.setPc a).resetAt = c.resetAt := rfl
@[simp] theorem Core.setPc_census (c : Core) (a : LAddr) : (c.setPc a).census = c.census := rfl
@[simp] theorem Core.setPc_faults (c : Core) (a : LAddr) : (c.setPc a).faults = c.faults := rfl
@[simp] theorem Core.setPc_calls (c : Core) (a : LAddr) : (c.setPc a).calls = c.calls := rfl
@[simp] theorem Core.setPc_view (c : Core) (a : LAddr) : (c.setPc a).view = c.view := rfl
@[simp] theorem Core.modCtl_addr (c : Core) (f : Ctl → Ctl) : (c.modCtl f).addr = c.addr := rfl
@[simp] theorem Core.modCtl_image (c : Core) (f : Ctl → Ctl) : (c.modCtl f).image = c.image := rfl
@[simp] theorem Core.modCtl_run (c : Core) (f : Ctl → Ctl) : (c.modCtl f).run = c.run := rfl
@[simp] theorem Core.modCtl_regs (c : Core) (f : Ctl → Ctl) : (c.modCtl f).regs = c.regs := rfl
@[simp] theorem Core.modCtl_ring (c : Core) (f : Ctl → Ctl) : (c.modCtl f).ring = c.ring := rfl
@[simp] theorem Core.modCtl_ops (c : Core) (f : Ctl → Ctl) : (c.modCtl f).ops = c.ops := rfl
@[simp] theorem Core.modCtl_kept (c : Core) (f : Ctl → Ctl) : (c.modCtl f).kept = c.kept := rfl
@[simp] theorem Core.modCtl_keptTrig (c : Core) (f : Ctl → Ctl) : (c.modCtl f).keptTrig = c.keptTrig := rfl
@[simp] theorem Core.modCtl_mtx (c : Core) (f : Ctl → Ctl) : (c.modCtl f).mtx = c.mtx := rfl
@[simp] theorem Core.modCtl_sync (c : Core) (f : Ctl → Ctl) : (c.modCtl f).sync = c.sync := rfl
@[simp] theorem Core.modCtl_msgs (c : Core) (f : Ctl → Ctl) : (c.modCtl f).msgs = c.msgs := rfl
@[simp] theorem Core.modCtl_mail (c : Core) (f : Ctl → Ctl) : (c.modCtl f).mail = c.mail := rfl
@[simp] theorem Core.modCtl_latch (c : Core) (f : Ctl → Ctl) : (c.modCtl f).latch = c.latch := rfl
@[simp] theorem Core.modCtl_gang (c : Core) (f : Ctl → Ctl) : (c.modCtl f).gang = c.gang := rfl
@[simp] theorem Core.modCtl_frame (c : Core) (f : Ctl → Ctl) : (c.modCtl f).frame = c.frame := rfl
@[simp] theorem Core.modCtl_rtab (c : Core) (f : Ctl → Ctl) : (c.modCtl f).rtab = c.rtab := rfl
@[simp] theorem Core.modCtl_binds (c : Core) (f : Ctl → Ctl) : (c.modCtl f).binds = c.binds := rfl
@[simp] theorem Core.modCtl_paths (c : Core) (f : Ctl → Ctl) : (c.modCtl f).paths = c.paths := rfl
@[simp] theorem Core.modCtl_team (c : Core) (f : Ctl → Ctl) : (c.modCtl f).team = c.team := rfl
@[simp] theorem Core.modCtl_info (c : Core) (f : Ctl → Ctl) : (c.modCtl f).info = c.info := rfl
@[simp] theorem Core.modCtl_wbits (c : Core) (f : Ctl → Ctl) : (c.modCtl f).wbits = c.wbits := rfl
@[simp] theorem Core.modCtl_accBad (c : Core) (f : Ctl → Ctl) : (c.modCtl f).accBad = c.accBad := rfl
@[simp] theorem Core.modCtl_ringBad (c : Core) (f : Ctl → Ctl) : (c.modCtl f).ringBad = c.ringBad := rfl
@[simp] theorem Core.modCtl_fbuf (c : Core) (f : Ctl → Ctl) : (c.modCtl f).fbuf = c.fbuf := rfl
@[simp] theorem Core.modCtl_outst (c : Core) (f : Ctl → Ctl) : (c.modCtl f).outst = c.outst := rfl
@[simp] theorem Core.modCtl_wait (c : Core) (f : Ctl → Ctl) : (c.modCtl f).wait = c.wait := rfl
@[simp] theorem Core.modCtl_preempt (c : Core) (f : Ctl → Ctl) : (c.modCtl f).preempt = c.preempt := rfl
@[simp] theorem Core.modCtl_yielded (c : Core) (f : Ctl → Ctl) : (c.modCtl f).yielded = c.yielded := rfl
@[simp] theorem Core.modCtl_resetAt (c : Core) (f : Ctl → Ctl) : (c.modCtl f).resetAt = c.resetAt := rfl
@[simp] theorem Core.modCtl_census (c : Core) (f : Ctl → Ctl) : (c.modCtl f).census = c.census := rfl
@[simp] theorem Core.modCtl_faults (c : Core) (f : Ctl → Ctl) : (c.modCtl f).faults = c.faults := rfl
@[simp] theorem Core.modCtl_calls (c : Core) (f : Ctl → Ctl) : (c.modCtl f).calls = c.calls := rfl
@[simp] theorem Core.modCtl_view (c : Core) (f : Ctl → Ctl) : (c.modCtl f).view = c.view := rfl
@[simp] theorem Core.modCtl_ctl (c : Core) (f : Ctl → Ctl) : (c.modCtl f).ctl = f c.ctl := rfl

/-! ## Registers under updates of other registers -/

@[simp] theorem Core.setG_v (c : Core) (i : BitVec 5) (x : Word) : (c.setG i x).regs.v = c.regs.v := by
  unfold Core.setG; split <;> rfl
@[simp] theorem Core.setG_m (c : Core) (i : BitVec 5) (x : Word) : (c.setG i x).regs.m = c.regs.m := by
  unfold Core.setG; split <;> rfl
@[simp] theorem Core.setG_pc (c : Core) (i : BitVec 5) (x : Word) : (c.setG i x).regs.pc = c.regs.pc := by
  unfold Core.setG; split <;> rfl
@[simp] theorem Core.setV_g (c : Core) (i : BitVec 5) (x : VReg) : (c.setV i x).regs.g = c.regs.g := rfl
@[simp] theorem Core.setV_m (c : Core) (i : BitVec 5) (x : VReg) : (c.setV i x).regs.m = c.regs.m := rfl
@[simp] theorem Core.setV_pc (c : Core) (i : BitVec 5) (x : VReg) : (c.setV i x).regs.pc = c.regs.pc := rfl
@[simp] theorem Core.setM_g (c : Core) (i : BitVec 3) (x : Word) : (c.setM i x).regs.g = c.regs.g := by
  unfold Core.setM; split <;> rfl
@[simp] theorem Core.setM_v (c : Core) (i : BitVec 3) (x : Word) : (c.setM i x).regs.v = c.regs.v := by
  unfold Core.setM; split <;> rfl
@[simp] theorem Core.setM_pc (c : Core) (i : BitVec 3) (x : Word) : (c.setM i x).regs.pc = c.regs.pc := by
  unfold Core.setM; split <;> rfl
@[simp] theorem Core.setPc_g (c : Core) (a : LAddr) : (c.setPc a).regs.g = c.regs.g := rfl
@[simp] theorem Core.setPc_v (c : Core) (a : LAddr) : (c.setPc a).regs.v = c.regs.v := rfl
@[simp] theorem Core.setPc_m (c : Core) (a : LAddr) : (c.setPc a).regs.m = c.regs.m := rfl
@[simp] theorem Core.setPc_pc (c : Core) (a : LAddr) : (c.setPc a).regs.pc = a := rfl

@[simp] theorem State.pc_setG (s : State) (i : BitVec 5) (x : Word) : (s.setG i x).pc = s.pc := Core.setG_pc s.core i x
@[simp] theorem State.pc_setV (s : State) (i : BitVec 5) (x : VReg) : (s.setV i x).pc = s.pc := rfl
@[simp] theorem State.pc_setM (s : State) (i : BitVec 3) (x : Word) : (s.setM i x).pc = s.pc := Core.setM_pc s.core i x
@[simp] theorem State.pc_setPc (s : State) (a : LAddr) : (s.setPc a).pc = a := rfl
@[simp] theorem State.pc_adv (s : State) : s.adv.pc = s.pc + 4 := rfl
@[simp] theorem State.pc_setFlags (s : State) (f : BitVec 6) : (s.setFlags f).pc = s.pc := rfl
@[simp] theorem State.g_setPc (s : State) (a : LAddr) (i : BitVec 5) : (s.setPc a).g i = s.g i := rfl
@[simp] theorem State.g_adv (s : State) (i : BitVec 5) : s.adv.g i = s.g i := rfl
@[simp] theorem State.g_setV (s : State) (j : BitVec 5) (x : VReg) (i : BitVec 5) : (s.setV j x).g i = s.g i := rfl
@[simp] theorem State.v_setPc (s : State) (a : LAddr) (i : BitVec 5) : (s.setPc a).v i = s.v i := rfl
@[simp] theorem State.v_adv (s : State) (i : BitVec 5) : s.adv.v i = s.v i := rfl
@[simp] theorem State.m_setPc (s : State) (a : LAddr) (i : BitVec 3) : (s.setPc a).m i = s.m i := rfl
@[simp] theorem State.m_adv (s : State) (i : BitVec 3) : s.adv.m i = s.m i := rfl
@[simp] theorem State.m_setV (s : State) (j : BitVec 5) (x : VReg) (i : BitVec 3) : (s.setV j x).m i = s.m i := rfl

end Sys2Proof.Machine
end

