-- ==== Sys2Proof/Laws/Ops.lean ====
section
/-!
SUPPORT. Sys2Proof/Laws/Ops.lean: what each shared operation of Machine/Ops.lean can do, said once: lists with keys, the
core in focus, gangs, taking a trap, and writes of the local store.
-/

namespace Sys2Proof.Machine

/-! ## Lists with keys -/

theorem aget_cons {α : Type} (y : Nat × α) (l : List (Nat × α)) (k : Nat) :
    aget (y :: l) k = if y.1 = k then some y.2 else aget l k := by
  unfold aget
  by_cases h : y.1 = k <;> simp [h]

@[simp] theorem aget_nil {α : Type} (k : Nat) : aget ([] : List (Nat × α)) k = none := rfl

/-- The value just set is found. -/
@[simp] theorem aget_aset_self {α : Type} (l : List (Nat × α)) (k : Nat) (x : α) : aget (aset l k x) k = some x := by
  induction l with
  | nil => simp [aset, aget_cons]
  | cons y r ih =>
    unfold aset
    split
    · simp [aget_cons]
    · split
      · simp [aget_cons]
      · rename_i h1 h2; rw [aget_cons, if_neg (Ne.symm h2), ih]

/-- Setting one key leaves the others. -/
theorem aget_aset_of_ne {α : Type} (l : List (Nat × α)) {j k : Nat} (x : α) (h : j ≠ k) :
    aget (aset l k x) j = aget l j := by
  induction l with
  | nil => simp [aset, aget_cons, Ne.symm h]
  | cons y r ih =>
    unfold aset
    split
    · rw [aget_cons, if_neg (Ne.symm h)]
    · split
      · rename_i h1 h2; rw [aget_cons, if_neg (Ne.symm h), aget_cons, if_neg (by omega)]
      · rw [aget_cons, aget_cons, ih]

/-- A deleted key is not found. -/
@[simp] theorem aget_adel_self {α : Type} (l : List (Nat × α)) (k : Nat) : aget (adel l k) k = none := by
  induction l with
  | nil => rfl
  | cons y r ih =>
    unfold adel at ih ⊢
    by_cases h : y.1 = k
    · simpa [h] using ih
    · simpa [h, aget_cons] using ih

/-- Deleting one key leaves the others. -/
theorem aget_adel_of_ne {α : Type} (l : List (Nat × α)) {j k : Nat} (h : j ≠ k) : aget (adel l k) j = aget l j := by
  induction l with
  | nil => rfl
  | cons y r ih =>
    unfold adel at ih ⊢
    by_cases hy : y.1 = k
    · simp only [List.filter_cons, hy, bne_self_eq_false, Bool.false_eq_true, if_false]
      rw [ih, aget_cons, if_neg (by omega)]
    · simp only [List.filter_cons, bne_iff_ne, ne_eq, hy, not_false_eq_true, if_true]
      rw [aget_cons, aget_cons, ih]

@[simp] theorem agetD_aset_self {α : Type} (l : List (Nat × α)) (k : Nat) (x d : α) : agetD (aset l k x) k d = x := by
  simp [agetD]

theorem agetD_aset_of_ne {α : Type} (l : List (Nat × α)) {j k : Nat} (x d : α) (h : j ≠ k) :
    agetD (aset l k x) j d = agetD l j d := by
  simp [agetD, aget_aset_of_ne l x h]

/-! ## Packages -/

@[simp] theorem State.getPkg_modPkg_self (s : State) (p : Nat) (f : Package → Package) :
    (s.modPkg p f).getPkg p = f (s.getPkg p) := agetD_aset_self _ _ _ _

theorem State.getPkg_modPkg_of_ne (s : State) {p q : Nat} (f : Package → Package) (h : q ≠ p) :
    (s.modPkg p f).getPkg q = s.getPkg q := agetD_aset_of_ne _ _ _ h

@[simp] theorem State.getPkg_on (s : State) (f : Core → Core) (p : Nat) : (s.on f).getPkg p = s.getPkg p := rfl

/-! ## The core in focus -/

@[simp] theorem State.getCore_self (s : State) : s.getCore s.core.addr.toNat = s.core := by
  unfold State.getCore; simp

@[simp] theorem State.focus_self (s : State) : s.focus s.core.addr.toNat = s := by
  unfold State.focus; simp

@[simp] theorem State.modCore_self (s : State) (f : Core → Core) : s.modCore s.core.addr.toNat f = s.on f := by
  unfold State.modCore; simp

/-- An operation at the core in focus, which keeps its address, is the operation itself. -/
theorem State.at_self (s : State) {f : State → State} (h : (f s).core.addr = s.core.addr) :
    s.at s.core.addr.toNat f = f s := by
  unfold State.at
  rw [State.focus_self, ← h, State.focus_self]

/-- The core of a thread's name. -/
@[simp] theorem threadCore_thread (c : Core) : threadCore c.thread = c.addr.toNat := by
  have h : c.addr.toNat < 2 ^ 23 := c.addr.isLt
  unfold threadCore Core.thread
  rw [Nat.mul_add_mod_of_lt' h]
  where
  Nat.mul_add_mod_of_lt' {a b n : Nat} (h : b < n) : (a * n + b) % n = b := by
    rw [Nat.add_comm, Nat.add_mul_mod_self_right, Nat.mod_eq_of_lt h]

@[simp] theorem State.getThread_self (s : State) : s.getThread s.core.thread = some s.core := by
  unfold State.getThread; simp

/-- An operation at the thread in focus. -/
theorem State.atThread_self (s : State) {f : State → State} (h : (f s).core.addr = s.core.addr) :
    s.atThread s.core.thread f = f s := by
  unfold State.atThread
  simp [State.at_self s h]

@[simp] theorem State.focus_mem (s : State) (c : Nat) : (s.focus c).mem = s.mem := by unfold State.focus; split <;> rfl

@[simp] theorem State.modCore_mem (s : State) (c : Nat) (f : Core → Core) : (s.modCore c f).mem = s.mem := by
  unfold State.modCore; split <;> rfl

/-- What an operation at a core does to memory is what it does there in focus. -/
theorem State.at_mem (s : State) (c : Nat) (f : State → State) : (s.at c f).mem = (f (s.focus c)).mem := by
  unfold State.at; simp

/-! ## Gangs -/

@[simp] theorem State.tellLeave_mem (g : GangStep) (l : List (Nat × Nat)) (s : State) : (s.tellLeave g l).mem = s.mem := by
  induction l generalizing s with
  | nil => rfl
  | cons x r ih => obtain ⟨c, i⟩ := x; unfold State.tellLeave; rw [ih, State.modCore_mem]

@[simp] theorem State.leaveGangBy_mem (s : State) (g : GangStep) : (s.leaveGangBy g).mem = s.mem := by
  unfold State.leaveGangBy; split <;> simp

@[simp] theorem State.leaveGang_mem (s : State) : s.leaveGang.mem = s.mem := s.leaveGangBy_mem _

@[simp] theorem State.withdrawFollow_mem (s : State) : s.withdrawFollow.mem = s.mem := rfl

/-- A core that is alone leaves no gang. -/
theorem State.leaveGangBy_alone {s : State} (h : s.core.gang.role = .alone) (g : GangStep) : s.leaveGangBy g = s := by
  unfold State.leaveGangBy; rw [h]

theorem State.leaveGang_alone {s : State} (h : s.core.gang.role = .alone) : s.leaveGang = s := s.leaveGangBy_alone h _

/-- Leaving a gang changes of a core nothing but its gang. -/
theorem Core.tellLeave_core (e : GangStep) (l : List (Nat × Nat)) (s : State) :
    ∃ g, (s.tellLeave e l).core = { s.core with gang := g } := by
  induction l generalizing s with
  | nil => exact ⟨s.core.gang, rfl⟩
  | cons x r ih =>
    obtain ⟨c, i⟩ := x
    unfold State.tellLeave
    obtain ⟨g, hg⟩ := ih (s.modCore c fun k => { k with gang := { k.gang with stream := k.gang.stream ++ [e] } })
    refine ⟨g, hg.trans ?_⟩
    unfold State.modCore
    split <;> rfl

theorem State.leaveGangBy_core (s : State) (e : GangStep) : ∃ g, (s.leaveGangBy e).core = { s.core with gang := g } := by
  unfold State.leaveGangBy
  split
  · exact ⟨s.core.gang, rfl⟩
  · rename_i l i h
    unfold State.modCore
    split <;> exact ⟨_, rfl⟩
  · rename_i ms h
    obtain ⟨g, hg⟩ := Core.tellLeave_core e ms s
    exact ⟨{ g with role := .alone, begun := none }, by rw [State.on_core, hg]⟩

theorem State.leaveGang_core (s : State) : ∃ g, s.leaveGang.core = { s.core with gang := g } := s.leaveGangBy_core _

theorem State.leaveAndWithdraw_core (s : State) : ∃ g, s.leaveGang.withdrawFollow.core = { s.core with gang := g } := by
  obtain ⟨g, hg⟩ := s.leaveGang_core
  refine ⟨{ g with asked := none }, ?_⟩
  show ({ s.leaveGang.core with gang := { s.leaveGang.core.gang with asked := none } } : Core) = _
  rw [hg]

/-! ## Traps -/

/-- What taking a trap does: a double trap ends the thread, and an entry writes the registers of R28. No byte of memory
changes either way. -/
theorem State.takeTrap_spec (s : State) (cause : BitVec 8) (info : Nat) (late intr : Bool) (seq : BitVec 16)
    (resume : LAddr) : ∃ g, (s.takeTrap cause info late intr seq resume).mem = s.mem ∧
      (s.takeTrap cause info late intr seq resume).core =
        if s.core.ctl.status.priv = true ∧ s.core.ctl.status.ie = false ∧ late = false ∧ intr = false then
          { s.core with gang := g, run := .endedFault, wait := .no
                        census := { s.core.census with double := true, cause := cause } }
        else Core.enterTrap { s.core with gang := g } cause (BitVec.ofNat 64 info) late intr seq resume := by
  obtain ⟨g, hg⟩ := s.leaveAndWithdraw_core
  refine ⟨g, ?_, ?_⟩
  · unfold State.takeTrap State.doubleTrap
    split <;> simp
  · unfold State.takeTrap
    by_cases h : s.core.ctl.status.priv = true ∧ s.core.ctl.status.ie = false ∧ late = false ∧ intr = false
    · obtain ⟨h1, h2, h3, h4⟩ := h
      simp only [h1, h2, h3, h4, Bool.not_false, Bool.and_self, if_true, and_self]
      unfold State.doubleTrap
      rw [State.on_core, hg]
    · rw [if_neg h, if_neg (by simpa [and_assoc] using h), State.on_core, hg]

@[simp] theorem State.takeTrap_mem (s : State) (cause : BitVec 8) (info : Nat) (late intr : Bool) (seq : BitVec 16)
    (resume : LAddr) : (s.takeTrap cause info late intr seq resume).mem = s.mem :=
  (s.takeTrap_spec cause info late intr seq resume).choose_spec.1

@[simp] theorem State.doubleTrap_mem (s : State) (cause : BitVec 8) : (s.doubleTrap cause).mem = s.mem := by
  unfold State.doubleTrap; simp

@[simp] theorem State.trap_mem (s : State) (t : Trap) : (s.trap t).mem = s.mem := by
  unfold State.trap
  split
  · dsimp only
    split <;> simp
  · simp

/-- A trap that is not for an uncorrectable error takes the entry. -/
theorem State.trap_eq {s : State} {t : Trap} (h : t.1 ≠ Cause.uncorr) :
    s.trap t = s.takeTrap t.1 t.2 false false 0 s.pc := by
  unfold State.trap; rw [if_neg h]

/-! ## Checks -/

/-- An instruction whose checks pass has its effect; else it traps. -/
theorem State.checked_next (s : State) (t : Option Trap) (d : State) :
    s.checked t d = .next (match t with | some t => s.trap t | none => d) := by
  cases t <;> rfl

@[simp] theorem State.checked_none (s : State) (d : State) : s.checked none d = .next d := rfl

@[simp] theorem State.checked_some (s : State) (t : Trap) (d : State) : s.checked (some t) d = .next (s.trap t) := rfl

/-! ## The local store -/

theorem State.logBlocks_wf {s : State} (h : s.mem.wf = true) (l : List Nat) : (s.logBlocks l).mem.wf = true := by
  induction l generalizing s with
  | nil => exact h
  | cons b r ih =>
    unfold State.logBlocks
    split
    · dsimp only
      split
      · exact ih (Memory.wf_writeBytes h _ _)
      · exact ih h
    · exact ih h

theorem State.logWrite_wf {s : State} (h : s.mem.wf = true) (a n : Nat) : (s.logWrite a n).mem.wf = true := by
  unfold State.logWrite
  split
  · exact State.logBlocks_wf h _
  · exact h

/-- Outside a team nothing is logged. -/
@[simp] theorem State.logWrite_alone {s : State} (h : s.core.ctl.status.ckpt = false) (a n : Nat) : s.logWrite a n = s := by
  unfold State.logWrite; rw [if_neg (by simp [h])]

theorem State.rawWrite_wf {s : State} (h : s.mem.wf = true) (a : Nat) (xs : List Byte) : (s.rawWrite a xs).mem.wf = true :=
  Memory.wf_writeBytes (State.logWrite_wf h a xs.length) _ _

/-- A write of the local store keeps the canonical form. -/
theorem State.localWriteBytes_wf {s : State} (h : s.mem.wf = true) (a : Nat) (xs : List Byte) :
    (s.localWriteBytes a xs).mem.wf = true := State.rawWrite_wf h a xs

theorem State.localWrite_wf {s : State} (h : s.mem.wf = true) (a n x : Nat) : (s.localWrite a n x).mem.wf = true :=
  State.rawWrite_wf h a _

/-- The undo log changes of a core nothing but its team. -/
theorem State.logBlocks_core (l : List Nat) (s : State) : ∃ t, (s.logBlocks l).core = { s.core with team := t } := by
  induction l generalizing s with
  | nil => exact ⟨s.core.team, rfl⟩
  | cons b r ih =>
    unfold State.logBlocks
    split
    · dsimp only
      split
      · obtain ⟨t, ht⟩ := ih _; exact ⟨t, ht.trans rfl⟩
      · obtain ⟨t, ht⟩ := ih _; exact ⟨t, ht.trans rfl⟩
    · exact ih s

theorem State.logWrite_core (s : State) (a n : Nat) : ∃ t, (s.logWrite a n).core = { s.core with team := t } := by
  unfold State.logWrite
  split
  · exact State.logBlocks_core _ s
  · exact ⟨s.core.team, rfl⟩

/-- A local write puts its bytes where they belong, and changes of its core the write bits and the team alone. -/
theorem State.localWriteBytes_spec (s : State) (a : Nat) (xs : List Byte) :
    (∃ w t, (s.localWriteBytes a xs).core = { s.core with wbits := w, team := t }) ∧
    ∀ i, i < xs.length → (s.localWriteBytes a xs).mem.byte (s.core.localKey a + i) = xs.getD i 0 := by
  obtain ⟨t, ht⟩ := s.logWrite_core a xs.length
  refine ⟨⟨s.core.wbits ||| touchBits a xs.length, t, ?_⟩, fun i hi => ?_⟩
  · show ({ (s.logWrite a xs.length).core with
      wbits := (s.logWrite a xs.length).core.wbits ||| touchBits a xs.length } : Core) = _
    rw [ht]
  · show (Memory.writeBytes (s.logWrite a xs.length).mem ((s.logWrite a xs.length).core.localKey a) xs).byte _ = _
    have e : (s.logWrite a xs.length).core.localKey a = s.core.localKey a := by rw [ht]; rfl
    rw [e]
    exact Memory.byte_writeBytes_in _ _ _ hi

end Sys2Proof.Machine
end

