-- ==== Sys2Proof/Laws/PerInstr.lean ====
section
/-!
SUPPORT. Sys2Proof/Laws/PerInstr.lean: one lemma per instruction of the family `Assigned`: no word of an instruction has a
reserved major (R63); an event has no word.
-/

namespace Sys2Proof

/-! ## The fields of a word (R60) -/

theorem mkWord_toNat (mj : Nat) (d a b : BitVec 5) (lo : BitVec 11) (h : mj < 64) : (mkWord mj d a b lo).toNat =
    mj * 2 ^ 26 + d.toNat * 2 ^ 21 + a.toNat * 2 ^ 16 + b.toNat * 2 ^ 11 + lo.toNat := by
  have hd : d.toNat < 32 := d.isLt
  have ha : a.toNat < 32 := a.isLt
  have hb : b.toNat < 32 := b.isLt
  have hl : lo.toNat < 2048 := lo.isLt
  unfold mkWord
  rw [BitVec.toNat_ofNat, Nat.mod_eq_of_lt]
  omega

/-- The major of a word built from its fields. -/
theorem wordMajor_mkWord (mj : Nat) (d a b : BitVec 5) (lo : BitVec 11) (h : mj < 64) :
    wordMajor (mkWord mj d a b lo) = mj := by
  have hd : d.toNat < 32 := d.isLt
  have ha : a.toNat < 32 := a.isLt
  have hb : b.toNat < 32 := b.isLt
  have hl : lo.toNat < 2048 := lo.isLt
  unfold wordMajor
  rw [mkWord_toNat mj d a b lo h]
  omega

/-- The d field of a word built from its fields. -/
theorem wordD_mkWord (mj : Nat) (d a b : BitVec 5) (lo : BitVec 11) (h : mj < 64) : wordD (mkWord mj d a b lo) = d := by
  have hd : d.toNat < 32 := d.isLt
  have ha : a.toNat < 32 := a.isLt
  have hb : b.toNat < 32 := b.isLt
  have hl : lo.toNat < 2048 := lo.isLt
  apply BitVec.eq_of_toNat_eq
  unfold wordD
  rw [BitVec.toNat_ofNat, mkWord_toNat mj d a b lo h]
  omega

/-- The a field of a word built from its fields. -/
theorem wordA_mkWord (mj : Nat) (d a b : BitVec 5) (lo : BitVec 11) (h : mj < 64) : wordA (mkWord mj d a b lo) = a := by
  have hd : d.toNat < 32 := d.isLt
  have ha : a.toNat < 32 := a.isLt
  have hb : b.toNat < 32 := b.isLt
  have hl : lo.toNat < 2048 := lo.isLt
  apply BitVec.eq_of_toNat_eq
  unfold wordA
  rw [BitVec.toNat_ofNat, mkWord_toNat mj d a b lo h]
  omega

/-- The b field of a word built from its fields. -/
theorem wordB_mkWord (mj : Nat) (d a b : BitVec 5) (lo : BitVec 11) (h : mj < 64) : wordB (mkWord mj d a b lo) = b := by
  have hd : d.toNat < 32 := d.isLt
  have ha : a.toNat < 32 := a.isLt
  have hb : b.toNat < 32 := b.isLt
  have hl : lo.toNat < 2048 := lo.isLt
  apply BitVec.eq_of_toNat_eq
  unfold wordB
  rw [BitVec.toNat_ofNat, mkWord_toNat mj d a b lo h]
  omega

/-- The low bits of a word built from its fields. -/
theorem wordLo_mkWord (mj : Nat) (d a b : BitVec 5) (lo : BitVec 11) (h : mj < 64) : wordLo (mkWord mj d a b lo) = lo := by
  have hl : lo.toNat < 2048 := lo.isLt
  apply BitVec.eq_of_toNat_eq
  unfold wordLo
  rw [BitVec.toNat_ofNat, mkWord_toNat mj d a b lo h]
  omega

/-- A word is built from its fields. -/
theorem mkWord_fields (w : BitVec 32) : mkWord (wordMajor w) (wordD w) (wordA w) (wordB w) (wordLo w) = w := by
  have hw : w.toNat < 2 ^ 32 := w.isLt
  have hm : wordMajor w < 64 := by unfold wordMajor; omega
  apply BitVec.eq_of_toNat_eq
  rw [mkWord_toNat _ _ _ _ _ hm]
  unfold wordMajor wordD wordA wordB wordLo
  simp only [BitVec.toNat_ofNat]
  omega

/-! ## Decoding a word from its fields -/

theorem decode_of_fields {w : BitVec 32} {i : Instr}
    (hd : decodeFields (wordMajor w) (wordD w) (wordA w) (wordB w) (wordLo w) = .ok i) (hw : i.wf = true) :
    decode w = .ok i := by
  unfold decode
  rw [hd]
  exact if_pos hw

/-- A word whose fields decode to a well-formed instruction decodes to it. -/
theorem decode?_of_fields {w : BitVec 32} {i : Instr}
    (hd : decodeFields (wordMajor w) (wordD w) (wordA w) (wordB w) (wordLo w) = .ok i) (hw : i.wf = true) :
    decode? w = some i := by
  unfold decode?
  rw [decode_of_fields hd hw]

/-- A word that decodes gives a well-formed instruction, which its fields decode to. -/
theorem decode?_some {w : BitVec 32} {i : Instr} (h : decode? w = some i) : i.wf = true ∧
    decodeFields (wordMajor w) (wordD w) (wordA w) (wordB w) (wordLo w) = .ok i := by
  unfold decode? decode at h
  split at h
  · rename_i j hj
    split at hj
    · rename_i k hk
      split at hj
      · rename_i hw
        cases hj; cases h
        exact ⟨hw, hk⟩
      · cases hj
    · cases hj
  · cases h

namespace Laws.Assigned

/-- A word of the instruction has a major that R63 assigns. -/
def Statement (i : Instr) : Prop := ∀ w, encode i = some w → 0 < wordMajor w ∧ wordMajor w < 0x39

theorem of_word {i : Instr} {mj : Nat} {d a b : BitVec 5} {lo : BitVec 11} (h : encode i = some (mkWord mj d a b lo))
    (h1 : 0 < mj ∧ mj < 0x39) : Statement i := fun w hw => by
  obtain rfl := Option.some.inj (hw.symm.trans h)
  rwa [wordMajor_mkWord mj d a b lo (by omega)]

theorem of_none {i : Instr} (h : encode i = none) : Statement i := fun w hw => by rw [h] at hw; cases hw

theorem add (d a b : BitVec 5) : Statement (.add d a b) := of_word rfl (by decide)
theorem sub (d a b : BitVec 5) : Statement (.sub d a b) := of_word rfl (by decide)
theorem and (d a b : BitVec 5) : Statement (.and d a b) := of_word rfl (by decide)
theorem or (d a b : BitVec 5) : Statement (.or d a b) := of_word rfl (by decide)
theorem xor (d a b : BitVec 5) : Statement (.xor d a b) := of_word rfl (by decide)
theorem andn (d a b : BitVec 5) : Statement (.andn d a b) := of_word rfl (by decide)
theorem orn (d a b : BitVec 5) : Statement (.orn d a b) := of_word rfl (by decide)
theorem xnor (d a b : BitVec 5) : Statement (.xnor d a b) := of_word rfl (by decide)
theorem sll (d a b : BitVec 5) : Statement (.sll d a b) := of_word rfl (by decide)
theorem srl (d a b : BitVec 5) : Statement (.srl d a b) := of_word rfl (by decide)
theorem sra (d a b : BitVec 5) : Statement (.sra d a b) := of_word rfl (by decide)
theorem rol (d a b : BitVec 5) : Statement (.rol d a b) := of_word rfl (by decide)
theorem ror (d a b : BitVec 5) : Statement (.ror d a b) := of_word rfl (by decide)
theorem slt (d a b : BitVec 5) : Statement (.slt d a b) := of_word rfl (by decide)
theorem sltz (d a b : BitVec 5) : Statement (.sltz d a b) := of_word rfl (by decide)
theorem min (d a b : BitVec 5) : Statement (.min d a b) := of_word rfl (by decide)
theorem max (d a b : BitVec 5) : Statement (.max d a b) := of_word rfl (by decide)
theorem minz (d a b : BitVec 5) : Statement (.minz d a b) := of_word rfl (by decide)
theorem maxz (d a b : BitVec 5) : Statement (.maxz d a b) := of_word rfl (by decide)
theorem addW (d a b : BitVec 5) : Statement (.addW d a b) := of_word rfl (by decide)
theorem subW (d a b : BitVec 5) : Statement (.subW d a b) := of_word rfl (by decide)
theorem sllW (d a b : BitVec 5) : Statement (.sllW d a b) := of_word rfl (by decide)
theorem srlW (d a b : BitVec 5) : Statement (.srlW d a b) := of_word rfl (by decide)
theorem sraW (d a b : BitVec 5) : Statement (.sraW d a b) := of_word rfl (by decide)
theorem addSat (d a b : BitVec 5) : Statement (.addSat d a b) := of_word rfl (by decide)
theorem subSat (d a b : BitVec 5) : Statement (.subSat d a b) := of_word rfl (by decide)
theorem seq (d a b : BitVec 5) : Statement (.seq d a b) := of_word rfl (by decide)
theorem sne (d a b : BitVec 5) : Statement (.sne d a b) := of_word rfl (by decide)
theorem addi (d a : BitVec 5) (i : BitVec 16) : Statement (.addi d a i) := of_word rfl (by decide)
theorem andi (d a : BitVec 5) (i : BitVec 16) : Statement (.andi d a i) := of_word rfl (by decide)
theorem ori (d a : BitVec 5) (i : BitVec 16) : Statement (.ori d a i) := of_word rfl (by decide)
theorem xori (d a : BitVec 5) (i : BitVec 16) : Statement (.xori d a i) := of_word rfl (by decide)
theorem limh (d a : BitVec 5) (i : BitVec 16) : Statement (.limh d a i) := of_word rfl (by decide)
theorem slti (d a : BitVec 5) (i : BitVec 16) : Statement (.slti d a i) := of_word rfl (by decide)
theorem sltiz (d a : BitVec 5) (i : BitVec 16) : Statement (.sltiz d a i) := of_word rfl (by decide)
theorem slli (d a : BitVec 5) (n : BitVec 6) : Statement (.slli d a n) := of_word rfl (by decide)
theorem srli (d a : BitVec 5) (n : BitVec 6) : Statement (.srli d a n) := of_word rfl (by decide)
theorem srai (d a : BitVec 5) (n : BitVec 6) : Statement (.srai d a n) := of_word rfl (by decide)
theorem rori (d a : BitVec 5) (n : BitVec 6) : Statement (.rori d a n) := of_word rfl (by decide)
theorem slliW (d a : BitVec 5) (n : BitVec 6) : Statement (.slliW d a n) := of_word rfl (by decide)
theorem srliW (d a : BitVec 5) (n : BitVec 6) : Statement (.srliW d a n) := of_word rfl (by decide)
theorem sraiW (d a : BitVec 5) (n : BitVec 6) : Statement (.sraiW d a n) := of_word rfl (by decide)
theorem mul (d a b : BitVec 5) : Statement (.mul d a b) := of_word rfl (by decide)
theorem mulh (d a b : BitVec 5) : Statement (.mulh d a b) := of_word rfl (by decide)
theorem mulhz (d a b : BitVec 5) : Statement (.mulhz d a b) := of_word rfl (by decide)
theorem mulhsz (d a b : BitVec 5) : Statement (.mulhsz d a b) := of_word rfl (by decide)
theorem div (d a b : BitVec 5) : Statement (.div d a b) := of_word rfl (by decide)
theorem divz (d a b : BitVec 5) : Statement (.divz d a b) := of_word rfl (by decide)
theorem rem (d a b : BitVec 5) : Statement (.rem d a b) := of_word rfl (by decide)
theorem remz (d a b : BitVec 5) : Statement (.remz d a b) := of_word rfl (by decide)
theorem mulW (d a b : BitVec 5) : Statement (.mulW d a b) := of_word rfl (by decide)
theorem divW (d a b : BitVec 5) : Statement (.divW d a b) := of_word rfl (by decide)
theorem divzW (d a b : BitVec 5) : Statement (.divzW d a b) := of_word rfl (by decide)
theorem remW (d a b : BitVec 5) : Statement (.remW d a b) := of_word rfl (by decide)
theorem remzW (d a b : BitVec 5) : Statement (.remzW d a b) := of_word rfl (by decide)
theorem ext (d a : BitVec 5) (p l : BitVec 6) : Statement (.ext d a p l) := of_word rfl (by decide)
theorem extz (d a : BitVec 5) (p l : BitVec 6) : Statement (.extz d a p l) := of_word rfl (by decide)
theorem ins (d a : BitVec 5) (p l : BitVec 6) : Statement (.ins d a p l) := of_word rfl (by decide)
theorem clz (d a : BitVec 5) : Statement (.clz d a) := of_word rfl (by decide)
theorem ctz (d a : BitVec 5) : Statement (.ctz d a) := of_word rfl (by decide)
theorem popc (d a : BitVec 5) : Statement (.popc d a) := of_word rfl (by decide)
theorem rev8 (d a : BitVec 5) : Statement (.rev8 d a) := of_word rfl (by decide)
theorem revb (d a : BitVec 5) : Statement (.revb d a) := of_word rfl (by decide)
theorem adda (d a b : BitVec 5) (s : BitVec 6) : Statement (.adda d a b s) := of_word rfl (by decide)
theorem suba (d a b : BitVec 5) (s : BitVec 6) : Statement (.suba d a b s) := of_word rfl (by decide)
theorem chkb (a b : BitVec 5) : Statement (.chkb a b) := of_word rfl (by decide)
theorem chkr (d a b : BitVec 5) : Statement (.chkr d a b) := of_word rfl (by decide)
theorem aligna (d a : BitVec 5) (s : BitVec 6) : Statement (.aligna d a s) := of_word rfl (by decide)
theorem ldB (d a : BitVec 5) (i : BitVec 16) : Statement (.ldB d a i) := of_word rfl (by decide)
theorem ldH (d a : BitVec 5) (i : BitVec 16) : Statement (.ldH d a i) := of_word rfl (by decide)
theorem ldW (d a : BitVec 5) (i : BitVec 16) : Statement (.ldW d a i) := of_word rfl (by decide)
theorem ldD (d a : BitVec 5) (i : BitVec 16) : Statement (.ldD d a i) := of_word rfl (by decide)
theorem ldBz (d a : BitVec 5) (i : BitVec 16) : Statement (.ldBz d a i) := of_word rfl (by decide)
theorem ldHz (d a : BitVec 5) (i : BitVec 16) : Statement (.ldHz d a i) := of_word rfl (by decide)
theorem ldWz (d a : BitVec 5) (i : BitVec 16) : Statement (.ldWz d a i) := of_word rfl (by decide)
theorem stB (d a : BitVec 5) (i : BitVec 16) : Statement (.stB d a i) := of_word rfl (by decide)
theorem stH (d a : BitVec 5) (i : BitVec 16) : Statement (.stH d a i) := of_word rfl (by decide)
theorem stW (d a : BitVec 5) (i : BitVec 16) : Statement (.stW d a i) := of_word rfl (by decide)
theorem stD (d a : BitVec 5) (i : BitVec 16) : Statement (.stD d a i) := of_word rfl (by decide)
theorem beqz (a : BitVec 5) (o : BitVec 16) : Statement (.beqz a o) := of_word rfl (by decide)
theorem bnez (a : BitVec 5) (o : BitVec 16) : Statement (.bnez a o) := of_word rfl (by decide)
theorem bltz (a : BitVec 5) (o : BitVec 16) : Statement (.bltz a o) := of_word rfl (by decide)
theorem bgez (a : BitVec 5) (o : BitVec 16) : Statement (.bgez a o) := of_word rfl (by decide)
theorem bgtz (a : BitVec 5) (o : BitVec 16) : Statement (.bgtz a o) := of_word rfl (by decide)
theorem blez (a : BitVec 5) (o : BitVec 16) : Statement (.blez a o) := of_word rfl (by decide)
theorem beq (a b : BitVec 5) (o : BitVec 13) : Statement (.beq a b o) := of_word rfl (by decide)
theorem bne (a b : BitVec 5) (o : BitVec 13) : Statement (.bne a b o) := of_word rfl (by decide)
theorem blt (a b : BitVec 5) (o : BitVec 13) : Statement (.blt a b o) := of_word rfl (by decide)
theorem bge (a b : BitVec 5) (o : BitVec 13) : Statement (.bge a b o) := of_word rfl (by decide)
theorem blo (a b : BitVec 5) (o : BitVec 13) : Statement (.blo a b o) := of_word rfl (by decide)
theorem bhs (a b : BitVec 5) (o : BitVec 13) : Statement (.bhs a b o) := of_word rfl (by decide)
theorem j (o : BitVec 26) : Statement (.j o) := of_word rfl (by decide)
theorem jl (o : BitVec 26) : Statement (.jl o) := of_word rfl (by decide)
theorem jr (a : BitVec 5) : Statement (.jr a) := of_word rfl (by decide)
theorem jlr (a : BitVec 5) : Statement (.jlr a) := of_word rfl (by decide)
theorem crr (d : BitVec 5) (n : BitVec 12) : Statement (.crr d n) := of_word rfl (by decide)
theorem crw (a : BitVec 5) (n : BitVec 12) : Statement (.crw a n) := of_word rfl (by decide)
theorem crs (d a : BitVec 5) (n : BitVec 12) : Statement (.crs d a n) := of_word rfl (by decide)
theorem crc (d a : BitVec 5) (n : BitVec 12) : Statement (.crc d a n) := of_word rfl (by decide)
theorem svc (c : BitVec 11) : Statement (.svc c) := of_word rfl (by decide)
theorem eret : Statement (.eret) := of_word rfl (by decide)
theorem trap (c : BitVec 11) : Statement (.trap c) := of_word rfl (by decide)
theorem brk (c : BitVec 11) : Statement (.brk c) := of_word rfl (by decide)
theorem halt : Statement (.halt) := of_word rfl (by decide)
theorem wfe : Statement (.wfe) := of_word rfl (by decide)
theorem ifence : Statement (.ifence) := of_word rfl (by decide)
theorem yield : Statement (.yield) := of_word rfl (by decide)
theorem vadd (d a b : BitVec 5) (m : BitVec 3) (w : BitVec 2) : Statement (.vadd d a b m w) := of_word rfl (by decide)
theorem vsub (d a b : BitVec 5) (m : BitVec 3) (w : BitVec 2) : Statement (.vsub d a b m w) := of_word rfl (by decide)
theorem vaddsSigned (d a b : BitVec 5) (m : BitVec 3) (w : BitVec 2) : Statement (.vaddsSigned d a b m w) := of_word rfl (by decide)
theorem vaddsUnsigned (d a b : BitVec 5) (m : BitVec 3) (w : BitVec 2) : Statement (.vaddsUnsigned d a b m w) := of_word rfl (by decide)
theorem vsubsSigned (d a b : BitVec 5) (m : BitVec 3) (w : BitVec 2) : Statement (.vsubsSigned d a b m w) := of_word rfl (by decide)
theorem vsubsUnsigned (d a b : BitVec 5) (m : BitVec 3) (w : BitVec 2) : Statement (.vsubsUnsigned d a b m w) := of_word rfl (by decide)
theorem vmul (d a b : BitVec 5) (m : BitVec 3) (w : BitVec 2) : Statement (.vmul d a b m w) := of_word rfl (by decide)
theorem vmulhSigned (d a b : BitVec 5) (m : BitVec 3) (w : BitVec 2) : Statement (.vmulhSigned d a b m w) := of_word rfl (by decide)
theorem vmulhUnsigned (d a b : BitVec 5) (m : BitVec 3) (w : BitVec 2) : Statement (.vmulhUnsigned d a b m w) := of_word rfl (by decide)
theorem vminSigned (d a b : BitVec 5) (m : BitVec 3) (w : BitVec 2) : Statement (.vminSigned d a b m w) := of_word rfl (by decide)
theorem vminUnsigned (d a b : BitVec 5) (m : BitVec 3) (w : BitVec 2) : Statement (.vminUnsigned d a b m w) := of_word rfl (by decide)
theorem vmaxSigned (d a b : BitVec 5) (m : BitVec 3) (w : BitVec 2) : Statement (.vmaxSigned d a b m w) := of_word rfl (by decide)
theorem vmaxUnsigned (d a b : BitVec 5) (m : BitVec 3) (w : BitVec 2) : Statement (.vmaxUnsigned d a b m w) := of_word rfl (by decide)
theorem vand (d a b : BitVec 5) (m : BitVec 3) (w : BitVec 2) : Statement (.vand d a b m w) := of_word rfl (by decide)
theorem vor (d a b : BitVec 5) (m : BitVec 3) (w : BitVec 2) : Statement (.vor d a b m w) := of_word rfl (by decide)
theorem vxor (d a b : BitVec 5) (m : BitVec 3) (w : BitVec 2) : Statement (.vxor d a b m w) := of_word rfl (by decide)
theorem vandn (d a b : BitVec 5) (m : BitVec 3) (w : BitVec 2) : Statement (.vandn d a b m w) := of_word rfl (by decide)
theorem vsll (d a b : BitVec 5) (m : BitVec 3) (w : BitVec 2) : Statement (.vsll d a b m w) := of_word rfl (by decide)
theorem vsrl (d a b : BitVec 5) (m : BitVec 3) (w : BitVec 2) : Statement (.vsrl d a b m w) := of_word rfl (by decide)
theorem vsra (d a b : BitVec 5) (m : BitVec 3) (w : BitVec 2) : Statement (.vsra d a b m w) := of_word rfl (by decide)
theorem vabs (d a : BitVec 5) (m : BitVec 3) (w : BitVec 2) : Statement (.vabs d a m w) := of_word rfl (by decide)
theorem vsum (d a b : BitVec 5) (m : BitVec 3) (w : BitVec 2) : Statement (.vsum d a b m w) := of_word rfl (by decide)
theorem vfadd (d a b : BitVec 5) (m t : BitVec 3) : Statement (.vfadd d a b m t) := of_word rfl (by decide)
theorem vfsub (d a b : BitVec 5) (m t : BitVec 3) : Statement (.vfsub d a b m t) := of_word rfl (by decide)
theorem vfmul (d a b : BitVec 5) (m t : BitVec 3) : Statement (.vfmul d a b m t) := of_word rfl (by decide)
theorem vfdiv (d a b : BitVec 5) (m t : BitVec 3) : Statement (.vfdiv d a b m t) := of_word rfl (by decide)
theorem vfsqrt (d a : BitVec 5) (m t : BitVec 3) : Statement (.vfsqrt d a m t) := of_word rfl (by decide)
theorem vfmin (d a b : BitVec 5) (m t : BitVec 3) : Statement (.vfmin d a b m t) := of_word rfl (by decide)
theorem vfmax (d a b : BitVec 5) (m t : BitVec 3) : Statement (.vfmax d a b m t) := of_word rfl (by decide)
theorem vfabs (d a : BitVec 5) (m t : BitVec 3) : Statement (.vfabs d a m t) := of_word rfl (by decide)
theorem vfneg (d a : BitVec 5) (m t : BitVec 3) : Statement (.vfneg d a m t) := of_word rfl (by decide)
theorem vfsum (d a b : BitVec 5) (m t : BitVec 3) : Statement (.vfsum d a b m t) := of_word rfl (by decide)
theorem vfsumw (d a b : BitVec 5) (m t : BitVec 3) : Statement (.vfsumw d a b m t) := of_word rfl (by decide)
theorem vfma (d a b c : BitVec 5) (m : BitVec 3) (t : BitVec 2) : Statement (.vfma d a b c m t) := of_word rfl (by decide)
theorem vfms (d a b c : BitVec 5) (m : BitVec 3) (t : BitVec 2) : Statement (.vfms d a b c m t) := of_word rfl (by decide)
theorem vcmpEq (d : BitVec 3) (a b : BitVec 5) (m : BitVec 3) (t : BitVec 4) : Statement (.vcmpEq d a b m t) := of_word rfl (by decide)
theorem vcmpNe (d : BitVec 3) (a b : BitVec 5) (m : BitVec 3) (t : BitVec 4) : Statement (.vcmpNe d a b m t) := of_word rfl (by decide)
theorem vcmpLt (d : BitVec 3) (a b : BitVec 5) (m : BitVec 3) (t : BitVec 4) : Statement (.vcmpLt d a b m t) := of_word rfl (by decide)
theorem vcmpLe (d : BitVec 3) (a b : BitVec 5) (m : BitVec 3) (t : BitVec 4) : Statement (.vcmpLe d a b m t) := of_word rfl (by decide)
theorem vcmpGt (d : BitVec 3) (a b : BitVec 5) (m : BitVec 3) (t : BitVec 4) : Statement (.vcmpGt d a b m t) := of_word rfl (by decide)
theorem vcmpGe (d : BitVec 3) (a b : BitVec 5) (m : BitVec 3) (t : BitVec 4) : Statement (.vcmpGe d a b m t) := of_word rfl (by decide)
theorem vcmpUn (d : BitVec 3) (a b : BitVec 5) (m : BitVec 3) (t : BitVec 4) : Statement (.vcmpUn d a b m t) := of_word rfl (by decide)
theorem mand (d a b : BitVec 3) : Statement (.mand d a b) := of_word rfl (by decide)
theorem mor (d a b : BitVec 3) : Statement (.mor d a b) := of_word rfl (by decide)
theorem mxor (d a b : BitVec 3) : Statement (.mxor d a b) := of_word rfl (by decide)
theorem mandn (d a b : BitVec 3) : Statement (.mandn d a b) := of_word rfl (by decide)
theorem mnot (d a : BitVec 3) : Statement (.mnot d a) := of_word rfl (by decide)
theorem mfromg (d : BitVec 3) (a : BitVec 5) : Statement (.mfromg d a) := of_word rfl (by decide)
theorem mtog (d : BitVec 5) (a : BitVec 3) : Statement (.mtog d a) := of_word rfl (by decide)
theorem mpop (d : BitVec 5) (a : BitVec 3) : Statement (.mpop d a) := of_word rfl (by decide)
theorem vcvtEl (d a : BitVec 5) (r m : BitVec 3) (x s : BitVec 4) : Statement (.vcvtEl d a r m x s) := of_word rfl (by decide)
theorem vcvtPack (d a : BitVec 5) (r : BitVec 3) (x s : BitVec 4) : Statement (.vcvtPack d a r x s) := of_word rfl (by decide)
theorem vcvtUnpack (d a : BitVec 5) (r : BitVec 3) (x s : BitVec 4) : Statement (.vcvtUnpack d a r x s) := of_word rfl (by decide)
theorem vperm (d a b : BitVec 5) (m : BitVec 3) (w : BitVec 2) : Statement (.vperm d a b m w) := of_word rfl (by decide)
theorem vbcast (d a : BitVec 5) (m : BitVec 3) (w : BitVec 2) : Statement (.vbcast d a m w) := of_word rfl (by decide)
theorem vdup (d a b : BitVec 5) (m : BitVec 3) (w : BitVec 2) : Statement (.vdup d a b m w) := of_word rfl (by decide)
theorem vmov (d a : BitVec 5) (m : BitVec 3) (w : BitVec 2) : Statement (.vmov d a m w) := of_word rfl (by decide)
theorem vzip (d a b : BitVec 5) (m : BitVec 3) (w : BitVec 2) : Statement (.vzip d a b m w) := of_word rfl (by decide)
theorem vunzip (d a b : BitVec 5) (m : BitVec 3) (w : BitVec 2) : Statement (.vunzip d a b m w) := of_word rfl (by decide)
theorem vslide (d a b : BitVec 5) (m : BitVec 3) (w : BitVec 2) : Statement (.vslide d a b m w) := of_word rfl (by decide)
theorem vins (d a b : BitVec 5) (w : BitVec 2) : Statement (.vins d a b w) := of_word rfl (by decide)
theorem vext (d a b : BitVec 5) (w : BitVec 2) : Statement (.vext d a b w) := of_word rfl (by decide)
theorem vcompress (d a : BitVec 5) (m : BitVec 3) (w : BitVec 2) : Statement (.vcompress d a m w) := of_word rfl (by decide)
theorem vexpand (d a : BitVec 5) (m : BitVec 3) (w : BitVec 2) : Statement (.vexpand d a m w) := of_word rfl (by decide)
theorem vld (v a : BitVec 5) (m : BitVec 3) (o : BitVec 13) : Statement (.vld v a m o) := of_word rfl (by decide)
theorem vst (v a : BitVec 5) (m : BitVec 3) (o : BitVec 13) : Statement (.vst v a m o) := of_word rfl (by decide)
theorem vlds (d a b : BitVec 5) (m : BitVec 3) (w : BitVec 2) : Statement (.vlds d a b m w) := of_word rfl (by decide)
theorem vsts (d a b : BitVec 5) (m : BitVec 3) (w : BitVec 2) : Statement (.vsts d a b m w) := of_word rfl (by decide)
theorem vgath (d a b : BitVec 5) (m : BitVec 3) (w : BitVec 2) : Statement (.vgath d a b m w) := of_word rfl (by decide)
theorem vscat (d a b : BitVec 5) (m : BitVec 3) (w : BitVec 2) : Statement (.vscat d a b m w) := of_word rfl (by decide)
theorem rfrm (n : BitVec 4) (a b : BitVec 5) : Statement (.rfrm n a b) := of_word rfl (by decide)
theorem frameReplay : Statement (.frameReplay) := of_none rfl
theorem loop (o : BitVec 16) (a : BitVec 5) : Statement (.loop o a) := of_word rfl (by decide)
theorem send (a b : BitVec 5) (t : BitVec 1) (n : BitVec 4) : Statement (.send a b t n) := of_word rfl (by decide)
theorem sendV (a b : BitVec 5) (t : BitVec 1) (n : BitVec 4) : Statement (.sendV a b t n) := of_word rfl (by decide)
theorem recv (d : BitVec 5) (r : BitVec 1) (n : BitVec 4) : Statement (.recv d r n) := of_word rfl (by decide)
theorem recvV (d : BitVec 5) (r : BitVec 1) (n : BitVec 4) : Statement (.recvV d r n) := of_word rfl (by decide)
theorem recvT (d a : BitVec 5) (r : BitVec 1) (n : BitVec 4) : Statement (.recvT d a r n) := of_word rfl (by decide)
theorem recvTV (d a : BitVec 5) (r : BitVec 1) (n : BitVec 4) : Statement (.recvTV d a r n) := of_word rfl (by decide)
theorem msgst (d : BitVec 5) (n : BitVec 4) : Statement (.msgst d n) := of_word rfl (by decide)
theorem arrive (n : BitVec 4) : Statement (.arrive n) := of_word rfl (by decide)
theorem waitb (n : BitVec 4) : Statement (.waitb n) := of_word rfl (by decide)
theorem testb (d : BitVec 5) (n : BitVec 4) : Statement (.testb d n) := of_word rfl (by decide)
theorem vote (d a : BitVec 5) (n : BitVec 4) : Statement (.vote d a n) := of_word rfl (by decide)
theorem bdef (a : BitVec 5) (n : BitVec 4) : Statement (.bdef a n) := of_word rfl (by decide)
theorem follow (d a : BitVec 5) : Statement (.follow d a) := of_word rfl (by decide)
theorem split : Statement (.split) := of_word rfl (by decide)
theorem gangst (d : BitVec 5) : Statement (.gangst d) := of_word rfl (by decide)
theorem followRequestTaken (leader follower : Nat) : Statement (.followRequestTaken leader follower) := of_none rfl
theorem comm (d : BitVec 5) (r : BitVec 1) : Statement (.comm d r) := of_word rfl (by decide)
theorem ttplan (d a : BitVec 5) : Statement (.ttplan d a) := of_word rfl (by decide)
theorem ttsend (c : BitVec 16) (a : BitVec 5) : Statement (.ttsend c a) := of_word rfl (by decide)
theorem ttrecv (c : BitVec 16) (a : BitVec 5) : Statement (.ttrecv c a) := of_word rfl (by decide)
theorem ldx (d a b : BitVec 5) (z : BitVec 1) (s : BitVec 2) (p : BitVec 4) : Statement (.ldx d a b z s p) := of_word rfl (by decide)
theorem ldxAcq (d a b : BitVec 5) (z : BitVec 1) (s : BitVec 2) (p : BitVec 4) : Statement (.ldxAcq d a b z s p) := of_word rfl (by decide)
theorem loadDataReturn (c : Nat) : Statement (.loadDataReturn c) := of_none rfl
theorem memoryResponseTimeout (c : Nat) : Statement (.memoryResponseTimeout c) := of_none rfl
theorem stx (d a b : BitVec 5) (s : BitVec 2) (p : BitVec 4) : Statement (.stx d a b s p) := of_word rfl (by decide)
theorem stxRel (d a b : BitVec 5) (s : BitVec 2) (p : BitVec 4) : Statement (.stxRel d a b s p) := of_word rfl (by decide)
theorem stxOf (d a b : BitVec 5) (s : BitVec 2) (p : BitVec 4) : Statement (.stxOf d a b s p) := of_word rfl (by decide)
theorem atomAdd (d a b : BitVec 5) (r s : BitVec 1) (p : BitVec 4) : Statement (.atomAdd d a b r s p) := of_word rfl (by decide)
theorem atomAnd (d a b : BitVec 5) (r s : BitVec 1) (p : BitVec 4) : Statement (.atomAnd d a b r s p) := of_word rfl (by decide)
theorem atomOr (d a b : BitVec 5) (r s : BitVec 1) (p : BitVec 4) : Statement (.atomOr d a b r s p) := of_word rfl (by decide)
theorem atomXor (d a b : BitVec 5) (r s : BitVec 1) (p : BitVec 4) : Statement (.atomXor d a b r s p) := of_word rfl (by decide)
theorem atomMin (d a b : BitVec 5) (r s : BitVec 1) (p : BitVec 4) : Statement (.atomMin d a b r s p) := of_word rfl (by decide)
theorem atomMax (d a b : BitVec 5) (r s : BitVec 1) (p : BitVec 4) : Statement (.atomMax d a b r s p) := of_word rfl (by decide)
theorem atomMinz (d a b : BitVec 5) (r s : BitVec 1) (p : BitVec 4) : Statement (.atomMinz d a b r s p) := of_word rfl (by decide)
theorem atomMaxz (d a b : BitVec 5) (r s : BitVec 1) (p : BitVec 4) : Statement (.atomMaxz d a b r s p) := of_word rfl (by decide)
theorem atomSwap (d a b : BitVec 5) (r s : BitVec 1) (p : BitVec 4) : Statement (.atomSwap d a b r s p) := of_word rfl (by decide)
theorem atomCas (d a b : BitVec 5) (r s : BitVec 1) (p : BitVec 4) : Statement (.atomCas d a b r s p) := of_word rfl (by decide)
theorem atomFadd (d a b : BitVec 5) (r s : BitVec 1) (p : BitVec 4) : Statement (.atomFadd d a b r s p) := of_word rfl (by decide)
theorem fenceAcq (p : BitVec 4) : Statement (.fenceAcq p) := of_word rfl (by decide)
theorem fenceRel (p : BitVec 4) : Statement (.fenceRel p) := of_word rfl (by decide)
theorem fenceFull (p : BitVec 4) : Statement (.fenceFull p) := of_word rfl (by decide)
theorem fenceAck : Statement (.fenceAck) := of_word rfl (by decide)
theorem rload (d a b : BitVec 5) : Statement (.rload d a b) := of_word rfl (by decide)
theorem rprobe (d a b : BitVec 5) : Statement (.rprobe d a b) := of_word rfl (by decide)
theorem rsplit (d a b : BitVec 5) : Statement (.rsplit d a b) := of_word rfl (by decide)
theorem rmerge (d a b : BitVec 5) : Statement (.rmerge d a b) := of_word rfl (by decide)
theorem rinv (d a b : BitVec 5) : Statement (.rinv d a b) := of_word rfl (by decide)
theorem rres (d a b : BitVec 5) : Statement (.rres d a b) := of_word rfl (by decide)
theorem rcompact (d a b : BitVec 5) : Statement (.rcompact d a b) := of_word rfl (by decide)
theorem rstat (d b : BitVec 5) : Statement (.rstat d b) := of_word rfl (by decide)
theorem gbind (d a b : BitVec 5) : Statement (.gbind d a b) := of_word rfl (by decide)
theorem gunbind (d a b : BitVec 5) : Statement (.gunbind d a b) := of_word rfl (by decide)
theorem gacqS (d a b : BitVec 5) : Statement (.gacqS d a b) := of_word rfl (by decide)
theorem gacqX (d a b : BitVec 5) : Statement (.gacqX d a b) := of_word rfl (by decide)
theorem grel (d a b : BitVec 5) : Statement (.grel d a b) := of_word rfl (by decide)
theorem gtryS (d a b : BitVec 5) : Statement (.gtryS d a b) := of_word rfl (by decide)
theorem gtryX (d a b : BitVec 5) : Statement (.gtryX d a b) := of_word rfl (by decide)
theorem gflush (d a b : BitVec 5) : Statement (.gflush d a b) := of_word rfl (by decide)
theorem gstat (d a b : BitVec 5) : Statement (.gstat d a b) := of_word rfl (by decide)
theorem cpy (d : BitVec 5) (a : BitVec 3) (b : BitVec 5) : Statement (.cpy d a b) := of_word rfl (by decide)
theorem cpyW (d : BitVec 5) (a : BitVec 3) (b : BitVec 5) : Statement (.cpyW d a b) := of_word rfl (by decide)
theorem cpyst (d : BitVec 5) : Statement (.cpyst d) := of_word rfl (by decide)
theorem deal (d a : BitVec 5) : Statement (.deal d a) := of_word rfl (by decide)
theorem waitw (a b : BitVec 5) : Statement (.waitw a b) := of_word rfl (by decide)
theorem waitwSeq (d b : BitVec 5) : Statement (.waitwSeq d b) := of_word rfl (by decide)
theorem waitm (d : BitVec 5) : Statement (.waitm d) := of_word rfl (by decide)
theorem mbxrd (d a : BitVec 5) : Statement (.mbxrd d a) := of_word rfl (by decide)
theorem mma (c : BitVec 2) (a b : BitVec 5) (r : BitVec 2) (u v w x : BitVec 1) : Statement (.mma c a b r u v w x) := of_word rfl (by decide)
theorem mzero (c : BitVec 2) : Statement (.mzero c) := of_word rfl (by decide)
theorem mlda (c : BitVec 2) (a : BitVec 5) : Statement (.mlda c a) := of_word rfl (by decide)
theorem msta (c : BitVec 2) (a : BitVec 5) : Statement (.msta c a) := of_word rfl (by decide)
theorem mfmt (c : BitVec 2) (a : BitVec 5) (s r : BitVec 2) (t : BitVec 4) : Statement (.mfmt c a s r t) := of_word rfl (by decide)
theorem mcbld (a b : BitVec 5) : Statement (.mcbld a b) := of_word rfl (by decide)
theorem evcfgPop (d a b : BitVec 5) : Statement (.evcfgPop d a b) := of_word rfl (by decide)
theorem evcfgLeak (d a b : BitVec 5) : Statement (.evcfgLeak d a b) := of_word rfl (by decide)
theorem evcfgEng (d a : BitVec 5) : Statement (.evcfgEng d a) := of_word rfl (by decide)
theorem evpost (d a b : BitVec 5) : Statement (.evpost d a b) := of_word rfl (by decide)
theorem evsweep (d a : BitVec 5) : Statement (.evsweep d a) := of_word rfl (by decide)
theorem evread (d a b : BitVec 5) : Statement (.evread d a b) := of_word rfl (by decide)
theorem evreadSt (d a : BitVec 5) : Statement (.evreadSt d a) := of_word rfl (by decide)
theorem evwrite (d a b : BitVec 5) : Statement (.evwrite d a b) := of_word rfl (by decide)
theorem evdrain (d : BitVec 5) : Statement (.evdrain d) := of_word rfl (by decide)
theorem evdrainPop (d a : BitVec 5) : Statement (.evdrainPop d a) := of_word rfl (by decide)
theorem launch (d a b : BitVec 5) : Statement (.launch d a b) := of_word rfl (by decide)
theorem done : Statement (.done) := of_word rfl (by decide)
theorem signal (a : BitVec 5) : Statement (.signal a) := of_word rfl (by decide)
theorem rdtime (d : BitVec 5) : Statement (.rdtime d) := of_word rfl (by decide)
theorem rdtimeTick (d : BitVec 5) : Statement (.rdtimeTick d) := of_word rfl (by decide)
theorem tarm (d a b : BitVec 5) : Statement (.tarm d a b) := of_word rfl (by decide)
theorem tarmEv (d a b : BitVec 5) : Statement (.tarmEv d a b) := of_word rfl (by decide)
theorem waitt (a : BitVec 5) : Statement (.waitt a) := of_word rfl (by decide)
theorem ldtile (d : BitVec 5) (a : BitVec 3) : Statement (.ldtile d a) := of_word rfl (by decide)
theorem sttile (d : BitVec 5) (a : BitVec 3) : Statement (.sttile d a) := of_word rfl (by decide)
theorem ldeal (d : BitVec 5) (a : BitVec 3) : Statement (.ldeal d a) := of_word rfl (by decide)
theorem lswait (d a : BitVec 5) : Statement (.lswait d a) := of_word rfl (by decide)
theorem lateFaultTaken (c : Nat) : Statement (.lateFaultTaken c) := of_none rfl
theorem releaseCauseTaken (c : Nat) : Statement (.releaseCauseTaken c) := of_none rfl
theorem registerWrite (pkg off pid : Nat) (host : Bool) (xs : List (BitVec 8)) : Statement (.registerWrite pkg off pid host xs) := of_none rfl
theorem barrierRelease (c n : Nat) : Statement (.barrierRelease c n) := of_none rfl
theorem phaseClose (c : Nat) : Statement (.phaseClose c) := of_none rfl
theorem exchangeBeatSend (c : Nat) : Statement (.exchangeBeatSend c) := of_none rfl
theorem exchangeBeatReceive (c slot k : Nat) : Statement (.exchangeBeatReceive c slot k) := of_none rfl
theorem rxWatchdog (c : Nat) : Statement (.rxWatchdog c) := of_none rfl
theorem messageArrival (i : Nat) : Statement (.messageArrival i) := of_none rfl
theorem messageEntersChannel (c : Nat) : Statement (.messageEntersChannel c) := of_none rfl
theorem launchAdmission (pkg q : Nat) : Statement (.launchAdmission pkg q) := of_none rfl
theorem launchStart (pkg num grp : Nat) : Statement (.launchStart pkg num grp) := of_none rfl
theorem launchEnd (pkg num : Nat) : Statement (.launchEnd pkg num) := of_none rfl
theorem preemptRequest (pkg num : Nat) : Statement (.preemptRequest pkg num) := of_none rfl
theorem preempt (c : Nat) : Statement (.preempt c) := of_none rfl
theorem contextSave (pkg num : Nat) : Statement (.contextSave pkg num) := of_none rfl
theorem resume (pkg num : Nat) : Statement (.resume pkg num) := of_none rfl
theorem rollback (c : Nat) : Statement (.rollback c) := of_none rfl
theorem copyStart (c seq : Nat) : Statement (.copyStart c seq) := of_none rfl
theorem copyComplete (c seq : Nat) : Statement (.copyComplete c seq) := of_none rfl
theorem copyFault (c seq : Nat) : Statement (.copyFault c seq) := of_none rfl
theorem streamedStepReplay (c : Nat) : Statement (.streamedStepReplay c) := of_none rfl
theorem mailboxPost (c : Nat) : Statement (.mailboxPost c) := of_none rfl
theorem loaderCallStart (c : Nat) : Statement (.loaderCallStart c) := of_none rfl
theorem tileStepStart (eng : Nat) : Statement (.tileStepStart eng) := of_none rfl
theorem tileStepComplete (c mismatches : Nat) : Statement (.tileStepComplete c mismatches) := of_none rfl
theorem matrixOperationPerform (c : Nat) : Statement (.matrixOperationPerform c) := of_none rfl
theorem eventArrival (i : Nat) : Statement (.eventArrival i) := of_none rfl
theorem eventDelivery (eng : Nat) : Statement (.eventDelivery eng) := of_none rfl
theorem eventOperationPerform (c : Nat) : Statement (.eventOperationPerform c) := of_none rfl
theorem evdrainComplete (c : Nat) : Statement (.evdrainComplete c) := of_none rfl
theorem triggerFire (unit : Nat) : Statement (.triggerFire unit) := of_none rfl
theorem waittExpiry (c : Nat) : Statement (.waittExpiry c) := of_none rfl
theorem domainClockStep (pkg : Nat) (x : BitVec 64) : Statement (.domainClockStep pkg x) := of_none rfl
theorem stationLookup (c : Nat) : Statement (.stationLookup c) := of_none rfl
theorem stationRangeRequest (c : Nat) : Statement (.stationRangeRequest c) := of_none rfl
theorem rangeNotice (pkg pid station : Nat) : Statement (.rangeNotice pkg pid station) := of_none rfl
theorem holderAcknowledge (c : Nat) : Statement (.holderAcknowledge c) := of_none rfl
theorem coordinatorApply (pkg pid : Nat) : Statement (.coordinatorApply pkg pid) := of_none rfl
theorem conservatorCopy (pkg pid : Nat) : Statement (.conservatorCopy pkg pid) := of_none rfl
theorem retarget (pkg pid : Nat) : Statement (.retarget pkg pid) := of_none rfl
theorem guardOperationStart (c seq : Nat) : Statement (.guardOperationStart c seq) := of_none rfl
theorem curatorRequest (i : Nat) : Statement (.curatorRequest i) := of_none rfl
theorem supplierForward (i : Nat) : Statement (.supplierForward i) := of_none rfl
theorem grantArrival (i : Nat) : Statement (.grantArrival i) := of_none rfl
theorem curatorRelease (i : Nat) : Statement (.curatorRelease i) := of_none rfl
theorem writeBack (i : Nat) : Statement (.writeBack i) := of_none rfl
theorem writeAcknowledgement (i : Nat) : Statement (.writeAcknowledgement i) := of_none rfl
theorem orderedStoreRelease (i : Nat) : Statement (.orderedStoreRelease i) := of_none rfl
theorem orderedStoreTimeout (i : Nat) : Statement (.orderedStoreTimeout i) := of_none rfl
theorem hostWindowRead (pkg off len : Nat) : Statement (.hostWindowRead pkg off len) := of_none rfl
theorem hostWindowWrite (pkg off : Nat) (xs : List (BitVec 8)) : Statement (.hostWindowWrite pkg off xs) := of_none rfl
theorem hostOrderedWriteRelease (pkg : Nat) : Statement (.hostOrderedWriteRelease pkg) := of_none rfl
theorem hostReadCompletion (c : Nat) (ok : Bool) : Statement (.hostReadCompletion c ok) := of_none rfl
theorem recordWrite (pkg off pid : Nat) (host : Bool) (xs : List (BitVec 8)) : Statement (.recordWrite pkg off pid host xs) := of_none rfl
theorem qcreate (pkg slot : Nat) : Statement (.qcreate pkg slot) := of_none rfl
theorem qdestroy (pkg slot : Nat) : Statement (.qdestroy pkg slot) := of_none rfl
theorem cset (pkg slot : Nat) : Statement (.cset pkg slot) := of_none rfl
theorem cancel (pkg slot : Nat) : Statement (.cancel pkg slot) := of_none rfl
theorem summary (pkg slot : Nat) : Statement (.summary pkg slot) := of_none rfl
theorem tstep (pkg slot : Nat) : Statement (.tstep pkg slot) := of_none rfl
theorem hwin (pkg slot : Nat) : Statement (.hwin pkg slot) := of_none rfl
theorem mwin (pkg slot : Nat) : Statement (.mwin pkg slot) := of_none rfl
theorem soep (pkg slot : Nat) : Statement (.soep pkg slot) := of_none rfl
theorem setstate (pkg slot : Nat) : Statement (.setstate pkg slot) := of_none rfl
theorem packageReset (pkg : Nat) : Statement (.packageReset pkg) := of_none rfl
theorem dieReset (pkg die : Nat) : Statement (.dieReset pkg die) := of_none rfl
theorem gatewayDieReset (pkg gw : Nat) : Statement (.gatewayDieReset pkg gw) := of_none rfl
theorem dieUnresponsiveTimeout (pkg die : Nat) : Statement (.dieUnresponsiveTimeout pkg die) := of_none rfl
theorem linkCrcReplay (pkg link : Nat) : Statement (.linkCrcReplay pkg link) := of_none rfl
theorem laneRetire (pkg link : Nat) : Statement (.laneRetire pkg link) := of_none rfl
theorem pathDown (pkg pod path : Nat) : Statement (.pathDown pkg pod path) := of_none rfl
theorem thermalThrottle (pkg steps : Nat) : Statement (.thermalThrottle pkg steps) := of_none rfl
theorem debugResume (c : Nat) : Statement (.debugResume c) := of_none rfl
theorem grandmasterLockChange (pkg : Nat) (lock : Bool) : Statement (.grandmasterLockChange pkg lock) := of_none rfl
theorem pathLive (pkg pod path : Nat) : Statement (.pathLive pkg pod path) := of_none rfl
theorem configurationRequest (pkg : Nat) : Statement (.configurationRequest pkg) := of_none rfl
theorem stackBaseDieReset (pkg stack : Nat) : Statement (.stackBaseDieReset pkg stack) := of_none rfl
theorem haltDebugAccess (c what idx : Nat) (wr : Bool) (x : BitVec 512) : Statement (.haltDebugAccess c what idx wr x) := of_none rfl

end Laws.Assigned

end Sys2Proof
end

