-- ==== Sys2Proof/Tests/Slice0.lean ====
section
/-!
SUPPORT. Sys2Proof/Tests/Slice0.lean: tests on small states. Decoding of words written out from the formats of R60 and
the sub-maps; the well-formedness checks, each on an ill-formed term; single steps whose results are worked out by hand
from the rules they name; and for every statement of Certificates/Slice0/Obligations.lean that has hypotheses, a state
and operands that meet them.
-/

namespace Sys2Proof.Tests

set_option maxRecDepth 100000
set_option Elab.async false

open Sys2Proof Sys2Proof.Machine Sys2Proof.Claims

/-! ## Decoding -/

theorem test_decode_sub_w : decode? 0b00000101110100110101100000010100 = some (.subW 0xE 0x13 0xB) := by decide +kernel
theorem test_decode_addi : decode? 0b00001001000001000010111110100111 = some (.addi 0x8 0x4 0x2FA7) := by decide +kernel
theorem test_decode_sltiz : decode? 0b00100111011101010000000110100101 = some (.sltiz 0x1B 0x15 0x1A5) := by decide +kernel
theorem test_decode_srai_w : decode? 0b00011001010100001100000000010001 = some (.sraiW 0xA 0x10 0x11) := by decide +kernel
theorem test_decode_limh : decode? 0b00011101110111001001101011001101 = some (.limh 0xE 0x1C 0x9ACD) := by decide +kernel
theorem test_decode_mulhsz : decode? 0b00101000010010101000100000000011 = some (.mulhsz 0x2 0xA 0x11) := by decide +kernel
theorem test_decode_extz : decode? 0b00101111101100110000110010000111 = some (.extz 0x1D 0x13 0x21 0x7) := by decide +kernel
theorem test_decode_rev8 : decode? 0b00101110110000010000001000000011 = some (.rev8 0x16 0x1) := by decide +kernel
theorem test_decode_chkb : decode? 0b00110000000101110110001000000000 = some (.chkb 0x17 0xC) := by decide +kernel
theorem test_decode_ld_wz : decode? 0b01001100101101101111001000111011 = some (.ldWz 0x5 0x16 0xF23B) := by decide +kernel
theorem test_decode_st_h : decode? 0b01010101110111101011100110011101 = some (.stH 0xE 0x1E 0xB99D) := by decide +kernel
theorem test_decode_blez : decode? 0b01100000101011010010100000111011 = some (.blez 0xD 0x283B) := by decide +kernel
theorem test_decode_bhs : decode? 0b01100100101001111010000110100100 = some (.bhs 0x5 0x7 0x1A4) := by decide +kernel
theorem test_decode_j : decode? 0b01101000011100011001110000111010 = some (.j 0x719C3A) := by decide +kernel
theorem test_decode_jl : decode? 0b01101100100001111001101010010001 = some (.jl 0x879A91) := by decide +kernel
theorem test_decode_jlr : decode? 0b01110000000100000000000000000001 = some (.jlr 0x10) := by decide +kernel
theorem test_decode_crc : decode? 0b01110111011111010000001100101001 = some (.crc 0x1B 0x1D 0x29) := by decide +kernel
theorem test_decode_brk : decode? 0b01111000000000001111100011101101 = some (.brk 0x7ED) := by decide +kernel
theorem test_decode_eret : decode? 0b01111000000000000000000001000000 = some (.eret) := by decide +kernel
theorem test_decode_vsub : decode? 0b01111110010000101100010100000101 = some (.vsub 0x12 0x2 0x18 0x5 0x1) := by decide +kernel
theorem test_decode_vfmax : decode? 0b10000011001101111110000000110010 = some (.vfmax 0x19 0x17 0x1C 0x0 0x2) := by decide +kernel
theorem test_decode_vfms : decode? 0b10000111101010010011010101001110 = some (.vfms 0x1D 0x9 0x6 0x15 0x1 0x2) := by decide +kernel
theorem test_decode_vcmp_un : decode? 0b10001000110011011110000001101001 = some (.vcmpUn 0x6 0xD 0x1C 0x0 0x9) := by decide +kernel
theorem test_decode_mandn : decode? 0b10001000110000100011100011110011 = some (.mandn 0x6 0x2 0x7) := by decide +kernel
theorem test_decode_vcvt_el : decode? 0b10001100110011000010001010011011 = some (.vcvtEl 0x6 0xC 0x1 0x2 0x9 0xB) := by decide +kernel
theorem test_decode_vperm : decode? 0b10010001010110010000100100000010 = some (.vperm 0xA 0x19 0x1 0x1 0x2) := by decide +kernel
theorem test_decode_vld : decode? 0b10010111100000111110110100101000 = some (.vld 0x1C 0x3 0x7 0xD28) := by decide +kernel
theorem test_decode_vst : decode? 0b10011000001111000111101100010000 = some (.vst 0x1 0x1C 0x3 0x1B10) := by decide +kernel
theorem test_decode_vscat : decode? 0b10011101111001000001100100001101 = some (.vscat 0xF 0x4 0x3 0x1 0x1) := by decide +kernel
theorem test_decode_loop : decode? 0b10100010111111011000100001111001 = some (.loop 0xBC79 0x1D) := by decide +kernel
theorem test_decode_rfrm : decode? 0b10100001101000111111000000000000 = some (.rfrm 0xD 0x3 0x1E) := by decide +kernel
theorem test_decode_send_v : decode? 0b10100100000100110001100001001100 = some (.sendV 0x13 0x3 0x0 0xC) := by decide +kernel
theorem test_decode_vote : decode? 0b10101010010001100000000011001110 = some (.vote 0x12 0x6 0xE) := by decide +kernel
theorem test_decode_split : decode? 0b10101100000000000000000001000000 = some (.split) := by decide +kernel
theorem test_decode_ttrecv : decode? 0b10110011011001100100000011101001 = some (.ttrecv 0xDA29 0x6) := by decide +kernel
theorem test_decode_ldx_acq : decode? 0b10110101010000111110001101000011 = some (.ldxAcq 0xA 0x3 0x1C 0x1 0x1 0x3) := by decide +kernel
theorem test_decode_stx_of : decode? 0b10111000010001001000110011000101 = some (.stxOf 0x2 0x4 0x11 0x3 0x5) := by decide +kernel
theorem test_decode_atom_cas : decode? 0b10111100011100000001011001100010 = some (.atomCas 0x3 0x10 0x2 0x1 0x0 0x2) := by decide +kernel
theorem test_decode_fence_rel : decode? 0b11000000000000000000000001000110 = some (.fenceRel 0x6) := by decide +kernel
theorem test_decode_rmerge : decode? 0b11000110001111010011000011000000 = some (.rmerge 0x11 0x1D 0x6) := by decide +kernel
theorem test_decode_gtry_x : decode? 0b11001001101000100110000110000000 = some (.gtryX 0xD 0x2 0xC) := by decide +kernel
theorem test_decode_cpy_w : decode? 0b11001101001101000001100001000000 = some (.cpyW 0x9 0x5 0x3) := by decide +kernel
theorem test_decode_mfmt : decode? 0b11010000000101000000100100111001 = some (.mfmt 0x0 0x14 0x1 0x3 0x9) := by decide +kernel
theorem test_decode_mma : decode? 0b11010000000011010000000000101010 = some (.mma 0x0 0xD 0x0 0x2 0x1 0x0 0x1 0x0) := by decide +kernel
theorem test_decode_evread : decode? 0b11010110010001000010100011000000 = some (.evread 0x12 0x4 0x5) := by decide +kernel
theorem test_decode_signal : decode? 0b11011000000111100000000010000000 = some (.signal 0x1E) := by decide +kernel
theorem test_decode_tarm_ev : decode? 0b11011110011101111111000001000001 = some (.tarmEv 0x13 0x17 0x1E) := by decide +kernel
theorem test_decode_lswait : decode? 0b11100000001000010000000011000000 = some (.lswait 0x1 0x1) := by decide +kernel
theorem test_decode_zero_word : decode? 0 = none := by decide +kernel
theorem test_decode_unassigned_major : decode? 0b11100100000000000000000000000000 = none := by decide +kernel
theorem test_decode_nonzero_field : decode? 0b00000100011000010001010000000000 = none := by decide +kernel

/-! ## Well-formedness: an ill-formed term for each check -/

theorem test_wf_shift_w : (Instr.slliW 1 2 32).wf = false ∧ (Instr.srliW 1 2 32).wf = false ∧
    (Instr.sraiW 1 2 63).wf = false := by decide
theorem test_wf_field : (Instr.ext 1 2 1 63).wf = false ∧ (Instr.extz 1 2 63 1).wf = false ∧
    (Instr.ins 1 2 32 32).wf = false := by decide
theorem test_wf_control_register : (Instr.crr 1 0x003).wf = false ∧ (Instr.crw 1 0x054).wf = false ∧
    (Instr.crs 1 2 0xFFF).wf = false ∧ (Instr.crc 1 2 0x031).wf = false := by decide
theorem test_wf_float_type : (Instr.vfadd 1 2 3 0 4).wf = false ∧ (Instr.vfsub 1 2 3 0 5).wf = false ∧
    (Instr.vfmul 1 2 3 0 6).wf = false ∧ (Instr.vfdiv 1 2 3 0 7).wf = false ∧ (Instr.vfmin 1 2 3 0 4).wf = false ∧
    (Instr.vfmax 1 2 3 0 4).wf = false ∧ (Instr.vfsum 1 2 3 0 4).wf = false ∧ (Instr.vfsqrt 1 2 0 4).wf = false ∧
    (Instr.vfabs 1 2 0 4).wf = false ∧ (Instr.vfneg 1 2 0 4).wf = false := by decide
theorem test_wf_widening_sum : (Instr.vfsumw 1 2 3 0 0).wf = false ∧ (Instr.vfsumw 1 2 3 0 4).wf = false := by decide
theorem test_wf_compare : (Instr.vcmpEq 1 2 3 0 12).wf = false ∧ (Instr.vcmpNe 1 2 3 0 13).wf = false ∧
    (Instr.vcmpLt 1 2 3 0 14).wf = false ∧ (Instr.vcmpLe 1 2 3 0 15).wf = false ∧ (Instr.vcmpGt 1 2 3 0 12).wf = false ∧
    (Instr.vcmpGe 1 2 3 0 12).wf = false ∧ (Instr.vcmpUn 1 2 3 0 3).wf = false ∧
    (Instr.vcmpUn 1 2 3 0 12).wf = false := by decide
theorem test_wf_convert : (Instr.vcvtEl 1 2 5 0 8 9).wf = false ∧ (Instr.vcvtEl 1 2 0 0 9 9).wf = false ∧
    (Instr.vcvtEl 1 2 0 0 1 2).wf = false ∧ (Instr.vcvtPack 1 2 6 12 9).wf = false ∧
    (Instr.vcvtPack 1 2 0 12 8).wf = false ∧ (Instr.vcvtPack 1 2 0 9 9).wf = false ∧
    (Instr.vcvtUnpack 1 2 5 9 12).wf = false ∧ (Instr.vcvtUnpack 1 2 0 9 9).wf = false ∧
    (Instr.vcvtUnpack 1 2 0 12 12).wf = false := by decide
theorem test_wf_loop : (Instr.loop 4 0).wf = false := by decide
theorem test_wf_scope : (Instr.ldx 1 2 3 0 0 12).wf = false ∧ (Instr.ldxAcq 1 2 3 0 0 15).wf = false ∧
    (Instr.stx 1 2 3 0 12).wf = false ∧ (Instr.stxRel 1 2 3 0 13).wf = false ∧ (Instr.stxOf 1 2 3 0 14).wf = false ∧
    (Instr.atomAdd 1 2 3 0 0 12).wf = false ∧ (Instr.atomCas 1 2 3 0 0 12).wf = false ∧
    (Instr.fenceAcq 12).wf = false ∧ (Instr.fenceRel 12).wf = false ∧ (Instr.fenceFull 12).wf = false := by decide
theorem test_wf_zero_extended_double : (Instr.ldx 1 2 3 1 3 0).wf = false ∧ (Instr.ldxAcq 1 2 3 1 3 0).wf = false := by
  decide
theorem test_wf_copy : (Instr.cpy 1 0 2).wf = false ∧ (Instr.cpyW 3 1 3).wf = false ∧ (Instr.ldtile 1 0).wf = false ∧
    (Instr.sttile 1 0).wf = false ∧ (Instr.ldeal 1 0).wf = false := by decide
theorem test_wf_mma : (Instr.mma 0 1 2 0 0 0 0 1).wf = false ∧ (Instr.mma 0 0 2 0 1 0 0 1).wf = false ∧
    (Instr.mma 0 1 2 0 0 0 1 0).wf = false ∧ (Instr.mma 0 1 2 0 0 1 0 0).wf = false := by decide
theorem test_wf_mfmt : (Instr.mfmt 0 1 3 0 0).wf = false ∧ (Instr.mfmt 0 1 0 0 9).wf = false ∧
    (Instr.mfmt 0 1 2 0 2).wf = false := by decide
theorem test_wf_held : (Instr.mma 0 0 2 0 0 0 0 1).wf = true ∧ (Instr.vcmpUn 1 2 3 0 8).wf = true := by decide

/-! ## Small states -/

/-- A tile core that runs in user mode at 0x1000. -/
def tile : Core :=
  let c := Core.idle 0x123
  { c with run := .running, regs := { c.regs with pc := 0x1000 } }

/-- That core, alone in a domain in which nothing else moves, every byte of memory 0. -/
def base : State := { State.reset with core := tile, mem := { cells := [], undef := [] } }

/-- Registers set, `g0` not among them. -/
def gs (l : List (BitVec 5 × Word)) (s : State) : State := l.foldl (fun t p => t.setG p.1 p.2) s

/-- PRIV and IE set. -/
def mode (priv ie : Bool) (s : State) : State :=
  { s with core := { s.core with ctl := { s.core.ctl with status := { s.core.ctl.status with priv := priv, ie := ie } } } }

/-- CKPT set: the core is a member of a checkpointed team with an undo area. -/
def member (s : State) : State :=
  { s with core := { s.core with
    ctl := { s.core.ctl with status := { s.core.ctl.status with ckpt := true } }
    info := { s.core.info with undobase := 0x10000, undo := 0x1000 } } }

/-- The core in focus changed. -/
def coreAs (f : Core → Core) (s : State) : State := { s with core := f s.core }

/-- Package 0 changed. -/
def pkgAs (f : Package → Package) (s : State) : State := { s with pkgs := [(0, f Package.reset)] }

/-- The state an instruction leads to. -/
def after (i : Instr) (s : State) : State :=
  match exec i s with
  | .next t => t
  | _ => s

/-! ## Single steps, worked out by hand -/

theorem test_add_wraps : (after (.add 3 1 2) (gs [(1, -1), (2, 2)] base)).g 3 = 1 := by decide +kernel
theorem test_addi_sign : (after (.addi 3 1 0xFFFF) (gs [(1, 5)] base)).g 3 = 4 := by decide +kernel
theorem test_g0_discards : after (.addi 0 1 7) base = { base with core := { tile with
    regs := { tile.regs with pc := 0x1004 } } } := by decide +kernel
theorem test_sraiW_extends : (after (.sraiW 3 1 4) (gs [(1, 0x80000000)] base)).g 3 = 0xFFFFFFFFF8000000 := by
  decide +kernel
theorem test_div_by_zero : (after (.div 3 1 2) (gs [(1, 9)] base)).g 3 = -1 := by decide +kernel
theorem test_rem_overflow : (after (.rem 3 1 2) (gs [(1, 0x8000000000000000), (2, -1)] base)).g 3 = 0 := by
  decide +kernel
theorem test_limh : (after (.limh 3 1 0x8001) (gs [(1, 0x10)] base)).g 3 = 0xFFFFFFFF80010010 := by decide +kernel
theorem test_ldB_sign : (after (.ldB 3 1 1) (after (.stH 2 1 0) (gs [(1, 0x2000), (2, 0x80FF)] base))).g 3 =
    0xFFFFFFFFFFFFFF80 := by decide +kernel
theorem test_stW_misaligned : let t := after (.stW 2 1 2) (gs [(1, 0x2000)] base)
    t.core.ctl.ecause = 0x005 ∧ t.core.ctl.einfo = 0x2002 ∧ t.pc = 0x17C000 ∧ t.core.ctl.epc = 0x1000 ∧
    t.priv = true ∧ t.mem.cells = [] := by decide +kernel
theorem test_jl_links : let t := after (.jl 0x3FFFFFF) base
    t.pc = 0xFFC ∧ t.g 1 = 0x1004 := by decide +kernel
theorem test_loop_last : let t := after (.loop 0xFFF0 5) (gs [(5, 1)] base)
    t.pc = 0x1004 ∧ t.g 5 = 0 := by decide +kernel
theorem test_svc : let t := after (.svc 0x2A) base
    t.core.ctl.ecause = 0x009 ∧ t.core.ctl.einfo = 0x2A ∧ t.pc = 0x17C000 := by decide +kernel
theorem test_eret : let t := after .eret (mode true false (coreAs (fun c => { c with ctl := { c.ctl with epc := 0x40 } }) base))
    t.pc = 0x40 ∧ t.priv = false := by decide +kernel
theorem test_crr_evec_user : (after (.crr 1 0x024) base).core.ctl.ecause = 0x002 := by decide +kernel
theorem test_vadd_lane_wraps : (after (.vadd 3 1 2 0 0) ((base.setV 1 0x01FF).setV 2 0x0102)).v 3 = 0x0201 := by
  decide +kernel
theorem test_vfadd_one : (after (.vfadd 3 1 1 0 1) (base.setV 1 0x3F800000)).v 3 = 0x40000000 := by decide +kernel
theorem test_vcmpLt_mask : (after (.vcmpLt 2 1 3 0 3) (base.setV 1 (-1))).m 2 = -1 := by decide +kernel
theorem test_vcvt_f32_to_bf16_ties : (after (.vcvtEl 3 1 0 0 10 9) (base.setV 1 0x3F808000)).v 3 = 0x3F80 := by
  decide +kernel
theorem test_recvT_empty : let t := after (.recvT 3 4 0 1) base
    t.g 3 = -1 ∧ t.g 4 = -1 ∧ t.pc = 0x1004 := by decide +kernel
theorem test_deal_swaps : let t := after (.deal 3 1) (gs [(1, 0x41)] base)
    t.g 3 = 0 ∧ t.core.ctl.deal = 0x41 := by decide +kernel
theorem test_mzero_dispatches : let t := after (.mzero 2) base
    t.core.ctl.drnext = 1 ∧ (t.core.entry 0).state = .pending ∧ (t.core.entry 0).major = 0x34 ∧ t.pc = 0x1004 := by
  decide +kernel
theorem test_dispatch_keeps_earlier : (after (.mzero 1) (after (.mzero 2) base)).core.ops.length = 2 := by decide +kernel
theorem test_testb_undefined_barrier : (after (.testb 3 5) base).g 3 = 0 := by decide +kernel
theorem test_signal_zero_counts : ((after (.signal 1) (mode true false base)).getPkg 0).zeroDec = 1 := by decide +kernel
theorem test_step_runs_fetched : ∃ t, step (State.reset.withFetchWord 32 0b00001000011000000000000000000101) = .next t ∧
    t.g 3 = 5 ∧ t.pc.toNat % 4 = 0 := ⟨_, rfl, by decide +kernel, by decide +kernel⟩

/-! ## Witnesses: the scalar statements

Each theorem shows, for every clause of a statement, a state and operands that meet its hypotheses together; at the
boundary values where a clause has a range. -/

theorem wit_ShiftImmediateResults : (0 : BitVec 6).toNat < 32 ∧ (31 : BitVec 6).toNat < 32 := by decide

theorem wit_BitFieldResults : (0 : BitVec 6).toNat + (63 : BitVec 6).toNat < 64 ∧
    (63 : BitVec 6).toNat + (0 : BitVec 6).toNat < 64 := by decide

theorem wit_AddressForms : let s := gs [(1, 5), (2, 6), (3, 5)] base
    un s 1 < un s 2 ∧ un s 1 ≤ un s 3 ∧ un s 3 < un s 2 ∧ un s 3 ≤ un s 1 ∧ un s 1 < un s 2 ∧ un s 2 ≤ un s 2 := by
  decide +kernel

/-- A store of which the bytes from 0x2000 up are an uncorrectable error. -/
def poisoned : State := { base with poison := [⟨keyLocal 0x123 0x2000, 64⟩] }

theorem wit_LocalLoads :
    (let s := gs [(1, 0x2000)] base; localFailure s (addrOf s 1 0) 8 = none ∧ intact s (addrOf s 1 0) 8) ∧
    (let s := gs [(1, 0x17BFF8)] base; localFailure s (addrOf s 1 0) 8 = some (Cause.localBounds, 0) → False) ∧
    (let s := gs [(1, 0x17FFFF)] base; localFailure s (addrOf s 1 0) 2 = some (Cause.localBounds, 0x17FFFF)) ∧
    (let s := gs [(1, 0x2001)] base; localFailure s (addrOf s 1 0) 2 = some (Cause.align, 0x2001)) ∧
    (let s := gs [(1, 0x17C000)] base; localFailure s (addrOf s 1 0) 8 = some (Cause.limit, 0x17C000)) ∧
    (let s := gs [(1, 0x2000)] poisoned; localFailure s (addrOf s 1 0) 8 = none ∧ ¬ intact s (addrOf s 1 0) 8) := by
  unfold intact; decide +kernel

theorem wit_LocalStores :
    (let s := gs [(1, 0x17BFF8)] base; localFailure s (addrOf s 1 0) 8 = none) ∧
    (let s := gs [(1, 0x17C000)] base; localFailure s (addrOf s 1 0) 1 = some (Cause.limit, 0x17C000)) := by
  decide +kernel

theorem wit_ConditionalBranches :
    (let s := base; un s 0 = 0 ∧ inStore (target s (1 : BitVec 16))) ∧ ¬ inStore (target base (-0x401 : BitVec 16)) ∧
    inStore (target base (-0x400 : BitVec 16)) ∧ ¬ un (gs [(1, 1)] base) 1 = 0 := by
  unfold inStore; decide +kernel

theorem wit_Jumps :
    inStore (target base (-0x400 : BitVec 26)) ∧ ¬ inStore (target base (-0x401 : BitVec 26)) ∧
    (let s := gs [(1, 0x17FFFC)] base; un s 1 < 0x180000 ∧ un s 1 % 4 = 0) ∧
    (let s := gs [(1, 0x180000)] base; 0x180000 ≤ un s 1) ∧
    (let s := gs [(1, 0x17FFFE)] base; un s 1 < 0x180000 ∧ un s 1 % 4 ≠ 0) := by
  unfold inStore; decide +kernel

theorem wit_CountedLoop :
    (let s := gs [(5, 1)] base; (5 : BitVec 5) ≠ 0 ∧ s.g 5 = 1) ∧
    (let s := gs [(5, 0)] base; s.g 5 ≠ 1 ∧ inStore (target s (-4 : BitVec 16))) ∧
    (let s := gs [(5, 2)] base; s.g 5 ≠ 1 ∧ ¬ inStore (target s (-0x401 : BitVec 16))) := by
  unfold inStore; decide +kernel

theorem wit_ControlRegisterAccess :
    (assigned 0x010 ∧ ¬ Claims.hidden 0x010) ∧ (assigned 0x068 ∧ (mode true true base).priv = true) ∧
    mayWrite base 0x001 (base.g 1) ∧ mayWrite base 0x002 (base.readCr 2 ||| base.g 1) ∧
    mayWrite base 0x060 (base.readCr 0x060 &&& ~~~base.g 1) ∧
    mayWrite (mode true true base) 0x029 0x3F ∧
    mayWrite (gs [(1, 0x40)] base) 0 ((gs [(1, 0x40)] base).readCr 0 ||| (gs [(1, 0x40)] base).g 1) := by
  refine ⟨?_, ?_, ?_, ?_, ?_, ?_, ?_⟩
  case refine_7 =>
    refine ⟨by unfold assigned; decide, by unfold userRw; decide, fun _ => ⟨by decide +kernel, .inr ?_⟩⟩
    rintro k (rfl | rfl | rfl | rfl | rfl) <;> decide +kernel
  case refine_1 => unfold assigned Claims.hidden; decide
  case refine_2 => unfold assigned; decide +kernel
  all_goals
    exact ⟨by unfold assigned; decide, by unfold userRw; decide +kernel, fun h => absurd h (by decide)⟩

theorem wit_ControlRegisterTraps :
    ¬ assigned 0x003 ∧ (assigned 0x020 ∧ base.priv = false ∧ Claims.hidden 0x020) ∧ (assigned 0x010 ∧ ¬ userRw 0x010) ∧
    (∃ k, (k = 12 ∨ k = 7 ∨ k = 2 ∨ k = 1 ∨ k = 0) ∧
      ((gs [(1, 0x80)] base).g 1).getLsbD k ≠ ((gs [(1, 0x80)] base).readCr 0).getLsbD k) :=
  ⟨by unfold assigned; decide, by unfold assigned Claims.hidden; decide +kernel, by unfold assigned userRw; decide,
    7, by decide, by decide +kernel⟩

theorem wit_ControlRegisterMap : base.core.gang.role = .alone := by decide +kernel

theorem wit_TrapEntry : Cause.svc ≠ Cause.uncorr ∧ base.priv = false ∧
    ((mode true true base).priv = true ∧ (mode true true base).core.ctl.status.ie = true) ∧
    ((mode true false base).priv = true ∧ (mode true false base).core.ctl.status.ie = false) := by decide +kernel

theorem wit_SoftwareTraps :
    (base.getPkg (pkgOf base.core.addr.toNat)).debug = .off ∧
    (let s := pkgAs (fun p => { p with debug := .trace }) base;
      (s.getPkg (pkgOf s.core.addr.toNat)).debug = .trace) ∧
    (let s := pkgAs (fun p => { p with debug := .halt }) base;
      (s.getPkg (pkgOf s.core.addr.toNat)).debug = .halt) := by decide +kernel

theorem wit_TrapReturn : (mode true false base).priv = true ∧ base.priv = false := by decide +kernel

theorem wit_Halt : (let s := mode true false base
    s.priv = true ∧ s.core.gang.role = .alone ∧ s.core.ops = [] ∧ s.core.anyPending = false ∧
    s.core.binds = Vector.replicate 8 none ∧ s.core.preemptsHere = false ∧ s.core.rollsBackHere = false ∧
    s.core.team.committed = []) ∧
    base.priv = false := by decide +kernel

theorem wit_EventWaitFenceYield : (coreAs (fun c => { c with latch := true }) base).core.latch = true ∧
    base.core.latch = false ∧ base.core.follows = false ∧
    (coreAs (fun c => { c with gang := { c.gang with role := .follower 0x122 1 } }) base).core.follows = true := by
  decide +kernel

/-! ## Witnesses: the vector statements -/

/-- VLIM 4. -/
def fewRegs : State := coreAs (fun c => { c with ctl := { c.ctl with vlim := 4 } }) base

theorem wit_VectorLimit : overLimit fewRegs [3, 1, 2] = none ∧ overLimit fewRegs [3, 5, 4] = some 5 ∧
    overLimit (mode true true fewRegs) [31] = none := by decide +kernel

theorem wit_VectorElementAccess :
    (let s := gs [(2, 63)] base; overLimit s [3] = none ∧ un s 2 < 512 / width 0) ∧
    (let s := gs [(2, 64)] base; overLimit s [3] = none ∧ 512 / width 0 ≤ un s 2) ∧
    overLimit fewRegs [4] = some 4 := by decide +kernel

theorem wit_VectorFloatResults : (0 : BitVec 3).toNat < 4 ∧ (3 : BitVec 3).toNat < 4 ∧ overLimit base [1, 2, 3] = none ∧
    overLimit fewRegs [4, 2, 3] = some 4 := by decide +kernel

theorem wit_VectorReductions : (3 : BitVec 3).toNat < 4 ∧ (1 : BitVec 3) ≠ 0 ∧
    (coreAs (fun c => { c with ctl := { c.ctl with status := { c.ctl.status with rm := 4 } } }) base).core.ctl.status.rm =
      rmSR ∧ base.core.ctl.status.rm ≠ rmSR ∧ overLimit base [1, 2, 3] = none := by decide +kernel

theorem wit_VectorComparisons : (11 : BitVec 4).toNat < 12 ∧ 8 ≤ (8 : BitVec 4).toNat ∧ (8 : BitVec 4).toNat < 12 ∧
    overLimit base [1, 2] = none := by decide +kernel

theorem wit_ElementConversions : (Instr.vcvtEl 3 1 0 0 10 9).wf = true ∧ (Instr.vcvtEl 3 1 7 2 0 9).wf = true := by decide

theorem wit_BlockPack : (Instr.vcvtPack 3 4 0 12 9).wf = true ∧ overLimit base (3 :: blockRegs 9 4) = none ∧
    overLimit fewRegs (3 :: blockRegs 9 3) = some 4 := by decide +kernel

theorem wit_BlockUnpack : (Instr.vcvtUnpack 3 4 0 9 12).wf = true ∧ overLimit base (blockRegs 9 3 ++ [4]) = none ∧
    overLimit fewRegs (blockRegs 9 3 ++ [2]) = some 4 := by decide +kernel

theorem wit_VectorLoadStore :
    (let s := gs [(1, 0x2000)] base; let x := addrV s 1 (-1);
      overLimit s [3] = none ∧ readFailure s x 64 = none ∧ localFailure s x 64 = none ∧ x = 0x1FC0) ∧
    overLimit fewRegs [31] = some 31 ∧
    (let s := gs [(1, 0x2020)] base; readFailure s (addrV s 1 0) 64 = some (Cause.align, 0x2020)) ∧
    (let s := gs [(1, 0x2000)] poisoned; readFailure s (addrV s 1 0) 64 = some (Cause.uncorr, 0x2000) ∧
      localFailure s (addrV s 1 0) 64 = none) := by decide +kernel

theorem wit_VectorStridedGathered :
    (let s := gs [(1, 0x2000), (2, 8)] base; overLimit s [3] = none ∧
      firstFailure s 0 64 (fun k => (word (un s 1 + k * si s 2)).toNat) (fun a => errorAt s a 8) = none ∧
      firstFailure s 0 64 (fun k => (word (un s 1 + k * si s 2)).toNat) (fun a => localFailure s a 8) = none) ∧
    (let s := gs [(1, 0x2000), (2, 4)] base;
      firstFailure s 0 64 (fun k => (word (un s 1 + k * si s 2)).toNat) (fun a => localFailure s a 8) =
        some (Cause.align, 0x2004)) ∧
    (let s := gs [(1, 0x2000), (2, 8)] poisoned; overLimit s [3] = none ∧
      firstFailure s 0 64 (fun k => (word (un s 1 + k * si s 2)).toNat) (fun a => localFailure s a 8) = none ∧
      firstFailure s 0 64 (fun k => (word (un s 1 + k * si s 2)).toNat) (fun a => errorAt s a 8) =
        some (Cause.uncorr, 0x2000)) := by decide +kernel

/-! ## Witnesses: repeat frames -/

/-- The word of `vadd v4, v5, v6` under `m2` on 64-bit elements. -/
def vaddWord : BitVec 32 := 0b01111100100001010011001000000011

/-- A frame of one word, replayed twice. -/
def frame1 : Frame := { words := [vaddWord], total := 2, done := 0, sd := 1, sa := 0, sb := 0, sc := 0, at_ := 0x1000 }

/-- An `rfrm` stands at the pc with one word after it. -/
def beforeFrame : State := (mode true true (gs [(1, 2), (2, 1)] base)).localWriteBytes 0x1004 (natLe 4 vaddWord.toNat)

theorem wit_FrameCapture :
    (1 ≤ un beforeFrame 1 ∧ un beforeFrame 1 ≤ 4096 ∧ un beforeFrame 2 < 2 ^ 20 ∧ bufferTrue beforeFrame ∧
      beforeFrame.framesFetch (beforeFrame.pc.toNat + 4) 1 = none ∧
      (∀ w ∈ wordsAt beforeFrame (beforeFrame.pc.toNat + 4) 1, (capture w).isSome = true) ∧ beforeFrame.priv = true) ∧
    (un (gs [(1, 4097)] base) 1 > 4096 ∧ un base 1 = 0) ∧
    (let s := gs [(1, 4096), (2, 0x100000)] base; 1 ≤ un s 1 ∧ un s 1 ≤ 4096 ∧ 2 ^ 20 ≤ un s 2) := by
  have hw : wordsAt beforeFrame (beforeFrame.pc.toNat + 4) 1 = [vaddWord] := by decide +kernel
  refine ⟨⟨?_, ?_, ?_, ?buffer, ?_, ?words, ?_⟩, ?_, ?_⟩
  case buffer =>
    intro a x h
    have hb : beforeFrame.core.fbuf = none := by decide +kernel
    rw [hb] at h; cases h
  case words =>
    rw [hw]
    intro w h
    obtain rfl := List.mem_singleton.mp h
    decide +kernel
  all_goals decide +kernel

/-- The core executes that frame. -/
def inFrame : State := coreAs (fun c => { c with frame := some frame1 }) base

/-- The instruction that the frame executes first answers a next state. -/
theorem vadd_answers (s : State) : exec (.vadd 4 5 6 2 3) s = .next (after (.vadd 4 5 6 2 3) s) := by
  have h : ∃ t, exec (.vadd 4 5 6 2 3) s = .next t := ⟨_, State.checked_next _ _ _⟩
  obtain ⟨t, h⟩ := h
  rw [after, h]

theorem wit_FrameReplay : ∃ u : Nat → State, inFrame.core.frame = some frame1 ∧ 0 < frame1.words.length ∧
    frame1.done % frame1.words.length = 0 ∧ u 0 = { inFrame with core := { inFrame.core with wait := .no } } ∧
    ∀ j, j < frame1.words.length → ∃ i x, capture (frame1.words.getD j 0) = some (.vec i) ∧
      replayVec (frame1.rename (frame1.done / frame1.words.length)) i (u j) = some (.next x) ∧
      u (j + 1) = frameStep frame1 (frame1.done + j) x ∧
      (j + 1 < frame1.words.length → (u (j + 1)).core.frame.isSome = true) := by
  refine ⟨fun j => if j = 0 then inFrame else frameStep frame1 0 (after (.vadd 4 5 6 2 3) inFrame), rfl, by decide, by decide, rfl, fun j hj => ?_⟩
  obtain rfl : j = 0 := by simpa [frame1] using hj
  refine ⟨.vadd 4 5 6 2 3, after (.vadd 4 5 6 2 3) inFrame, ?_, ?_, if_neg (by decide), by simp [frame1]⟩
  · have hc : captureVec vaddWord = some (.vadd 4 5 6 2 3) := by decide +kernel
    have hn : ¬ wordMajor vaddWord = 0x34 := by decide
    show capture vaddWord = _
    simp only [capture, if_neg hn, hc, Option.map_some]
  have e (q : Rename) (s : State) : replayVec q (.vadd 4 5 6 2 3) s =
    some (exec (.vadd (q.d 4) (q.a 5) (q.b 6) 2 3) s) := rfl
  rw [e, show (frame1.rename (frame1.done / frame1.words.length)).d 4 = 4 by decide,
    show (frame1.rename (frame1.done / frame1.words.length)).a 5 = 5 by decide,
    show (frame1.rename (frame1.done / frame1.words.length)).b 6 = 6 by decide]
  exact congrArg some (vadd_answers inFrame)

/-- The word of `mma 1, g2, g3` with no fold. -/
def mmaWord : BitVec 32 := 0b11010000010000110010000000000000 ||| 0b00000000000000000001000000000000

/-- A frame of that word. -/
def frame2 : Frame := { frame1 with words := [mmaWord] }

/-- VLIM 8: every v register that a replay of the frame names is below it. -/
theorem wit_FrameReplayCompletes :
    (let s := coreAs (fun c => { c with ctl := { c.ctl with vlim := 8 } }) inFrame
     s.core.frame = some frame1 ∧ frame1.done % frame1.words.length = 0 ∧
      frame1.done < frame1.words.length * frame1.total ∧
      ∀ w ∈ frame1.words, ∃ i, capture w = some (.vec i) ∧ (s.priv = true ∨
        ∀ r ∈ Captured.regs (frame1.rename (frame1.done / frame1.words.length)) (.vec i),
          r.toNat < s.core.ctl.vlim.toNat)) ∧
    (let s := coreAs (fun c => { c with frame := some frame2 }) base
     s.core.frame = some frame2 ∧ frame2.words = [mmaWord] ∧ frame2.done + 1 < frame2.total ∧
      (∃ c a b r u v x y, capture mmaWord = some (.mma c a b r u v x y)) ∧ s.core.run = .running ∧
      s.core.matrixPlaces < 8 ∧ (s.core.entry s.core.ctl.drnext).state ≠ .pending ∧
      (s.core.entry s.core.ctl.drnext).untaken = false ∧
      ∀ o ∈ s.core.ops, o.seq.toNat % 64 ≠ s.core.ctl.drnext.toNat % 64) := by
  have hc : captureVec vaddWord = some (.vadd 4 5 6 2 3) := by decide +kernel
  have hn : ¬ wordMajor vaddWord = 0x34 := by decide
  refine ⟨⟨rfl, by decide, by decide, fun w h => ?_⟩, rfl, rfl, by decide, ?_, rfl, by decide +kernel, by decide +kernel,
    by decide +kernel, fun o h => by simp [coreAs, base, tile, Core.idle] at h⟩
  · obtain rfl := List.mem_singleton.mp h
    exact ⟨.vadd 4 5 6 2 3, by simp only [capture, if_neg hn, hc, Option.map_some], .inr (by decide +kernel)⟩
  · have hm : wordMajor mmaWord = 0x34 := by decide
    have ho : (wordLo mmaWord).extractLsb' 6 5 = 0 ∧ (wordD mmaWord).extractLsb' 2 3 = 0 ∧
        mmaOk (wordA mmaWord) (wordB mmaWord) ((wordLo mmaWord).extractLsb' 3 1) ((wordLo mmaWord).extractLsb' 2 1)
          ((wordLo mmaWord).extractLsb' 1 1) ((wordLo mmaWord).extractLsb' 0 1) := by decide
    exact ⟨_, _, _, _, _, _, _, _, by simp only [capture, if_pos hm, if_pos ho]; rfl⟩

/-! ## Witnesses: messages -/

/-- A message from the core in focus to itself on channel 1. -/
def msg1 (v : Bool) : Msg :=
  { src := base.core.thread, dst := 0x123, chan := 1, v := v, data := 7, nt := false, topx := false, pid := 0 }

/-- The message stands in the queue of its channel. -/
def withMsg (v : Bool) : State := coreAs (fun c => { c with msgs := { c.msgs with queue := [msg1 v] } }) base

theorem wit_MessageSending :
    (let s := gs [(1, 0x7FFFFF)] base
     channelOk s 15 ∧ un s 1 < 2 ^ 23 ∧ s.core.ctl.status.ckpt = false ∧ s.waitingOf s.core.thread < 4 ∧
      overLimit s [2] = none) ∧
    (let s := { base with mesh := List.replicate 4 (msg1 false) }
     channelOk s 0 ∧ un s 1 < 2 ^ 23 ∧ s.core.ctl.status.ckpt = false ∧ 4 ≤ s.waitingOf s.core.thread) ∧
    (let s := member base
     channelOk s 0 ∧ un s 1 < 2 ^ 23 ∧ s.core.ctl.status.ckpt = true ∧ 96 ≤ s.core.outFree ∧ overLimit s [2] = none) ∧
    (let s := gs [(1, 0x800000)] base; channelOk s 0 ∧ 2 ^ 23 ≤ un s 1) := by
  unfold channelOk; decide +kernel

theorem wit_MessageReceiving :
    (channelOk (withMsg false) 1 ∧ accepts (withMsg false) 1 false 0 (msg1 false)) ∧
    (accepts (withMsg true) 1 true 0 (msg1 true) ∧ overLimit (withMsg true) [3] = none) ∧
    (((withMsg true).core.channel 1).head? = some (msg1 true) ∧ (msg1 true).v = true) ∧
    (((withMsg false).core.channel 1).head? = some (msg1 false) ∧ (msg1 false).v = false ∧ overLimit (withMsg false) [3] = none) ∧
    (channelOk base 1 ∧ base.core.channel 1 = [] ∧ overLimit base [3] = none) := by
  unfold channelOk accepts; decide +kernel

theorem wit_MessageDelivery :
    (let s := { base with mesh := [msg1 true] }
     s.mesh[0]? = some (msg1 true) ∧ (∀ x ∈ s.mesh.take 0, ¬ (x.src = (msg1 true).src ∧ x.dst = (msg1 true).dst ∧ x.chan = (msg1 true).chan)) ∧
      s.receiver (msg1 true) = some s.core.thread ∧ (msg1 true).chan < s.core.ctl.clim.toNat ∧
      s.coresReach (threadCore (msg1 true).src) (msg1 true).dst = true ∧ s.core.ctl.status.ckpt = false) ∧
    (let m := { msg1 true with dst := 0x124 }
     let s := { base with mesh := [m] }
     s.mesh[0]? = some m ∧ s.receiver m = none ∧ m.src = s.core.thread) ∧
    (let s := coreAs (fun c => { c with msgs := { c.msgs with iface := [msg1 true] } }) base
     s.core.run = .running ∧ s.core.msgs.iface = msg1 true :: [] ∧ (if (msg1 true).v then 5 else 1) ≤ s.core.freeUnits) ∧
    (let s : State := { coreAs (fun c => { c with wait := .recv 1 5 }) base with clk := 0x1000005 }
     s.core.run = .running ∧ s.core.wait = .recv 1 5 ∧ s.core.ctl.rxwatch.toNat ≤ s.clk - 5 ∧ s.core.channel 1 = []) ∧
    (let s : State := { coreAs (fun c => { c with wait := .recv 1 5 }) (withMsg true) with clk := 0x1000005 }
     s.core.ctl.rxwatch.toNat ≤ s.clk - 5 ∧ s.core.channel 1 ≠ []) ∧
    (let s : State := { member base with mesh := [msg1 true] }
     s.receiver (msg1 true) = some s.core.thread ∧ s.core.ctl.status.ckpt = true) := by
  decide +kernel

/-! ## Witnesses: barriers -/

/-- A BRECT value: defined, of core 0x123 alone, and with more bits set (45 COMM, 46 checkpoint). -/
def rect1 (bits : Word) : Word := 0x800100010123 ||| bits

/-- BRECT[1] has a value. -/
def barred (x : Word) (s : State) : State :=
  coreAs (fun c => { c with ctl := { c.ctl with brect := c.ctl.brect.set 1 x } }) s

/-- An arrival on barrier 1 is unreleased. -/
def arrived (s : State) : State := withArrival s 1 (some (arrivalNow s 1 0 3 false))

theorem wit_BarrierInstructions :
    (let s := barred (rect1 0) base; let x := rectOf s 1;
      barrierOk s 1 ∧ x.getLsbD 47 = true ∧ x.getLsbD 46 = false ∧ x.getLsbD 45 = false ∧
      s.core.sync.arr.toList[1]? = some none ∧ s.core.ctl.status.ckpt = false) ∧
    (let s := barred (rect1 0x200000000000) base; let x := rectOf s 1;
      barrierOk s 15 ∧ x.getLsbD 47 = true ∧ x.getLsbD 46 = false ∧ x.getLsbD 45 = true ∧
      s.core.sync.arr.toList[1]? = some none ∧ s.core.gang.role = .alone ∧ s.core.sync.voteRes.toList[1]? = some none) ∧
    (let s := barred (rect1 0x400000000000) base; let x := rectOf s 1;
      x.getLsbD 47 = true ∧ x.getLsbD 46 = true ∧ x.getLsbD 45 = false ∧ s.core.sync.arr.toList[1]? = some none ∧
      s.core.sync.voteRes.toList[1]? = some none ∧ s.core.ops = [] ∧ s.core.anyPending = false ∧
      s.core.lateFaultEntry = none) ∧
    onlyComm (barred (rect1 0x200000000000) base) 1 ∧
    (let s := coreAs (fun c => { c with sync := { c.sync with voteRes := c.sync.voteRes.set 1 (some (c.regs.pc, 5)) } }) base
     s.core.sync.voteRes.toList[1]? = some (some (s.pc, 5))) ∧
    (let s := arrived (barred (rect1 0) base); (rectOf s 1).getLsbD 47 = true ∧
      s.core.sync.arr.toList[1]? = some (some (arrivalNow (barred (rect1 0) base) 1 0 3 false))) ∧
    (rectOf base 1).getLsbD 47 = false ∧
    (let s := gs [(4, 0)] base; s.core.sync.arr.toList[1]? = some none ∧ s.core.bdefOk (s.g 4) = true ∧
      (s.g 4).getLsbD 46 = false ∧ s.core.ctl.status.ckpt = false ∧ s.g 4 = 0) := by
  refine ⟨?_, ?_, ?_, ?_, ?_, ?_, ?_, ?_⟩
  case refine_4 =>
    intro k a hk h
    have h0 : ∀ j ∈ List.range 16, (barred (rect1 0x200000000000) base).core.sync.arr.toList[j]? = some none := by
      decide +kernel
    by_cases hj : k < 16
    · rw [h0 k (List.mem_range.mpr hj)] at h; cases h
    · rw [List.getElem?_eq_none (by simpa using hj)] at h; cases h
  all_goals (try unfold barrierOk); decide +kernel

theorem wit_BarrierRelease :
    (let s := { arrived (barred (rect1 0) base) with clk := 1000 }; (s.releaseReady (s.getCore 0x123) 1).isSome = true) ∧
    (let s := coreAs (fun c => { c with wait := .vote 1 3 }) (arrived (barred (rect1 0) base));
     s.core.run = .running ∧ s.core.wait = .vote 1 3 ∧
      ({ arrivalNow s 1 0 3 true with reg := 3 } : Arrival).own = true) := by decide +kernel

/-! ## Witnesses: gangs and the exchange -/

/-- Core 0x122 runs beside the core in focus, in the same launch. -/
def besides : State := { base with others := [(0x122, { tile with addr := 0x122 })] }

/-- It has been asked by core 0x123 to lead it. -/
def asking : State :=
  coreAs (fun c => { c with wait := .task, gang := { c.gang with asked := some (0x122, 3) } })
    { besides with follows := [(0x123, 0x122)] }

theorem wit_GangInstructions :
    (let s := gs [(1, 0x300)] base; s.core.gang.asked = none ∧ un s 1 < 2 ^ 23 ∧
      nearLeader s.core.addr.toNat (un s 1) = false) ∧
    (let s := gs [(1, 0x123)] base; s.core.gang.asked = none ∧ un s 1 = s.core.addr.toNat ∧
      nearLeader s.core.addr.toNat (un s 1) = true) ∧
    (let s := gs [(1, 0x122)] base; s.core.gang.asked = none ∧ un s 1 < 2 ^ 23 ∧
      nearLeader s.core.addr.toNat (un s 1) = true ∧ un s 1 ≠ s.core.addr.toNat ∧ s.core.gang.role = .alone) ∧
    ((0x123, 0x122) ∈ asking.follows ∧ (asking.getCore 0x122).run = .running ∧ (asking.getCore 0x122).frame = none ∧
      (asking.getCore 0x122).outst = none ∧ (asking.getCore 0x122).wait = .no ∧
      (asking.getCore 0x123).gang.asked = some (0x122, 3) ∧
      leaderRefusal (asking.getCore 0x122) (asking.getCore 0x123) = none) ∧
    (let s : State := { asking with others := [(0x122, { tile with addr := 0x122, run := .halted })] }
     (0x123, 0x122) ∈ s.follows ∧ (s.getCore 0x123).gang.asked = some (0x122, 3) ∧
      (leaderRefusal (s.getCore 0x122) (s.getCore 0x123)).isSome = true) ∧
    (let s := gs [(1, 0x800000)] base; s.core.gang.asked = none ∧ 2 ^ 23 ≤ un s 1) ∧
    asking.core.gang.asked = some (0x122, 3) ∧
    (coreAs (fun c => { c with gang := { c.gang with role := .leader [(0x122, 1)] } }) base).core.gang.role =
      .leader [(0x122, 1)] ∧
    (coreAs (fun c => { c with gang := { c.gang with role := .follower 0x122 1 } }) base).core.gang.role =
      .follower 0x122 1 := by decide +kernel

/-- The area of one plan: a send and a receive at offset 4 with core 0x122, in a phase of 100 clk. -/
def planned : State :=
  let s := coreAs (fun c => { c with info := { c.info with plans := 1, planbase := 0x8000 } }) base
  ((s.localWriteBytes 0x8008 (natLe 8 0x6400020002)).localWriteBytes 0x8080 (natLe 8 0x12200000004)).localWriteBytes
    0x8088 (natLe 8 0x12200010004)

/-- A phase of that plan, released at clk 10. -/
def phase1 : Phase :=
  { t0 := 10, length := 100, plan := 0, armed := [], used := [], sending := none, written := 0, mismatch := 0 }

/-- The phase is open. -/
def exchanging (p : Phase) : State := withPhase { planned with clk := 10 } (some p)

/-- The send entry of the plan. -/
def entry4 (recv : Bool) : PlanEntry := { slot := 4, beats := 1, peer := 0x122, recv := recv, clean := true }

theorem wit_ExchangeInstructions :
    (planned.core.gang.role = .alone ∧ planned.core.sync.phase = none ∧ planned.core.commArrival = false ∧
      (planned.core.sync.report.toNat / 2 ^ 16) % 2 ^ 16 = 0 ∧ planned.core.sync.relCause = []) ∧
    (let s := arrived (barred (rect1 0x200000000000) planned); s.core.sync.phase = none ∧ s.core.commArrival = true) ∧
    (exchanging phase1).core.sync.phase ≠ none ∧
    (let s := coreAs (fun c => { c with sync := { c.sync with relCause := [(Cause.planMismatch, 0)] } }) planned
     (Cause.planMismatch, 0) ∈ s.core.sync.relCause) ∧
    (let s := exchanging phase1; s.clk < phase1.t0 + phase1.length ∧ s.slotEntry phase1 false 5 = none ∧
      s.slotEntry phase1 true 5 = none) ∧
    (let s := coreAs (fun c => { c with sync := { c.sync with report := 0x10000 } }) planned;
      s.core.gang.role = .alone ∧ s.core.sync.phase = none ∧ s.core.commArrival = false ∧
      (s.core.sync.report.toNat / 2 ^ 16) % 2 ^ 16 ≠ 0) ∧
    (let s := gs [(1, 0x2000)] (exchanging phase1);
      s.core.gang.role = .alone ∧ s.core.sync.phase = some phase1 ∧ phase1.sending = none ∧
      s.slotEntry phase1 false 4 = some (entry4 false) ∧ slotOk s phase1 false 4 (s.g 1) (entry4 false) ∧
      s.slotEntry phase1 true 4 = some (entry4 true) ∧ slotOk s phase1 true 4 (s.g 1) (entry4 true)) := by
  unfold slotOk; decide +kernel

theorem wit_ExchangeClosed : closed planned ∧ noCommTrap planned ∧ closed (withPhase { planned with clk := 110 } (some phase1)) :=
  ⟨fun p h => absurd (h.symm.trans (show planned.core.sync.phase = none by decide +kernel)) (by simp), fun x h => absurd h (by rw [show planned.core.sync.relCause = [] by decide +kernel]; simp),
    fun p h => by obtain rfl : phase1 = p := Option.some.inj h; decide +kernel⟩

/-- A send of some beats from 0x2000. -/
def sending1 (beats next : Nat) : Sending :=
  { slot := 4, beats := beats, peer := 0x122, src := 0x2000, nt := false, next := next }

/-- An armed receive of one beat to 0x3000. -/
def armed1 : ArmedRecv := { slot := 4, beats := 1, peer := 0x122, dst := 0x3000, topx := false, seen := [] }

/-- The beat it awaits, sent at clk 8 of the phase's slot. -/
def beat1 : Beat := { src := 0x122, dst := 0x123, sent := 8, data := 7, topx := false, nt := true }

theorem wit_ExchangePhase :
    (let p := { phase1 with sending := some (sending1 2 0) }
     let s : State := { exchanging p with clk := 14 }
     s.core.sync.phase = some p ∧ p.t0 + (sending1 2 0).slot + (sending1 2 0).next ≤ s.clk ∧
      (sending1 2 0).next + 1 < (sending1 2 0).beats ∧ s.poisonHit (s.core.localKey 0x2000) 64 = false) ∧
    (let p := { phase1 with sending := some (sending1 2 0) }
     let s : State := { exchanging p with clk := 14, poison := poisoned.poison }
     s.core.sync.phase = some p ∧ s.poisonHit (s.core.localKey 0x2000) 64 = true) ∧
    (let p := { phase1 with sending := some (sending1 1 0) }
     let s : State := { exchanging p with clk := 14 }
     s.core.sync.phase = some p ∧ p.t0 + (sending1 1 0).slot + (sending1 1 0).next ≤ s.clk ∧
      (sending1 1 0).beats ≤ (sending1 1 0).next + 1) ∧
    (let p := { phase1 with armed := [armed1] }
     let s : State := { exchanging p with clk := 14 }
     s.core.sync.phase = some p ∧ 0 < armed1.beats ∧ ¬ 0 ∈ armed1.seen ∧ p.t0 + armed1.slot + 0 ≤ s.clk ∧
      s.beatsOwed (p.t0 + armed1.slot + 0 - 6) = false ∧ s.beatAt armed1.peer (p.t0 + armed1.slot + 0) = none) ∧
    (let p := { phase1 with armed := [armed1] }
     let s : State := { exchanging p with clk := 14, beats := [beat1] }
     s.beatsOwed (p.t0 + armed1.slot + 0 - 6) = false ∧ s.beatAt armed1.peer (p.t0 + armed1.slot + 0) = some beat1 ∧
      beat1.topx = armed1.topx ∧ s.core.ctl.status.ckpt = false) ∧
    (let p := { phase1 with armed := [armed1] }
     let s : State := { exchanging p with clk := 14, beats := [{ beat1 with topx := true }] }
     s.beatAt armed1.peer (p.t0 + armed1.slot + 0) = some { beat1 with topx := true } ∧
      ({ beat1 with topx := true } : Beat).nt = true ∧ ({ beat1 with topx := true } : Beat).topx ≠ armed1.topx) ∧
    (let s : State := { exchanging phase1 with clk := 110 }
     s.core.sync.phase = some phase1 ∧ phase1.t0 + phase1.length ≤ s.clk ∧ s.phaseSettled phase1 = true) := by
  decide +kernel

/-! ## Witnesses: off-core accesses -/

/-- A private range of 1 MiB from 0x100000, resident, readable and writable. -/
def range1 : RangeEntry :=
  { base := 0x100000, limit := 0x200000, offset := 0, e := false, x := false, w := true, rd := true, place := 0,
    hord := false, kind := 0, pid := 0, resmap := -1 }

/-- The core's table holds it. -/
def ranged : State :=
  coreAs (fun c => { c with rtab := { c.rtab with entries := [{ entry := range1, state := .valid }] } })
    (gs [(1, 0x100040)] base)

/-- Binding 0 is held, over the 512 bytes of a guarded region at 0x400000 with a window at 0x4000. -/
def binding0 (st : BindState) : Binding :=
  { guard := 0x800000, place := 0, regionVa := 0x400000, region := 0x800200, rplace := 0, len := 512, window := 0x4000,
    stamps := 0x5000, last := 0, lep := 0, state := st, fresh := true }

/-- That binding in the core. -/
def holding (st : BindState) (s : State) : State :=
  coreAs (fun c => { c with binds := c.binds.set 0 (some (binding0 st)) }) s

/-- An access to the range goes off the core. -/
theorem goesOff_ranged (k : AccKind) (o : Bool) (hk : range1.check 0x100040 k 8 = none)
    (ht : ranged.core.heldWindow 0x100040 8 = none) : goesOff ranged 0x100040 8 k o (range1.xlat 0x100040) :=
  ⟨ht, by decide, ⟨{ entry := range1, state := .valid }, by decide +kernel, by decide, hk, rfl⟩, fun _ => by decide,
    by decide +kernel⟩

/-- The access finds 8 bytes of stacked memory, without an error, a recorded write or a held store. -/
theorem reached_ranged : (let x := range1.xlat 0x100040; let u := used ranged x
    stackedAt ranged x.pa x.place 8 (keyOff 0 0x100040) ∧ ranged.poisonHit (keyOff 0 0x100040) 8 = false ∧
      ranged.order.touching (keyOff 0 0x100040) 8 = [] ∧ ranged.orderedHit x.place x.pa 8 = false ∧
      ranged.holdsOrdered = false ∧ u.readAt ranged.core.addr.toNat x.pa x.place 8 (loadMode x.kind) = .ok 0) := by
  unfold stackedAt; decide +kernel

/-- A held ordered store of the core in focus to those bytes. -/
def heldStore : OrdStore :=
  { core := base.core.thread, path := 1, pkg := 0, place := 0, dpa := 0x100040, n := 8, data := 7, carried := 0, since := some 0,
    uses := some 0x100000, va := 0x100040, kind := 0, hord := false, scope := 7, mark := 0, bound := 0, standing := [] }

theorem wit_OffCoreLoads :
    (ranged.core.outst = none ∧ goesOff ranged (ranged.g 1 + ranged.g 0) 8 .threadRead true (range1.xlat 0x100040)) ∧
    (let s : State := { ranged with ordered := [heldStore] }; s.orderedHit 0 0x100040 8 = true ∧ s.holdsOrdered = true) ∧
    (let s := holding .heldS (gs [(1, 0x4001F8)] base); s.core.outst = none ∧
      s.core.heldWindow (s.g 1 + s.g 0).toNat 8 = some (0x41F8, false) ∧ s.core.lockHit 0x41F8 8 = false ∧
      s.poisonHit (s.core.localKey 0x41F8) 8 = false ∧ (s.g 1 + s.g 0).toNat % 8 = 0) ∧
    (let s := gs [(1, 0x1000000000000000)] base; s.core.outst = none ∧ s.core.heldWindow (s.g 1 + s.g 0).toNat 8 = none ∧
      2 ^ 60 ≤ (s.g 1 + s.g 0).toNat) ∧
    (let o : Outstanding :=
      { d := 3, va := 0x100040, data := 5, flags := 0, reason := none, answered := true, so := false, since := 0, uses := 0x100000 }
     (coreAs (fun c => { c with outst := some o }) base).core.outst = some o ∧ o.answered = true ∧ o.reason = none ∧
      2 ^ 22 ≤ ({ base with clk := 2 ^ 22 } : State).clk - o.since ∧
      ({ o with reason := some 1 } : Outstanding).reason = some 1 ∧ ({ o with answered := false } : Outstanding).answered = false) := by
  refine ⟨⟨by decide +kernel, ?_⟩, by decide +kernel, by decide +kernel, by decide +kernel, by decide +kernel⟩
  have h : ranged.g 1 + ranged.g 0 = 0x100040 := by decide +kernel
  rw [h]
  exact goesOff_ranged _ _ (by decide +kernel) (by decide +kernel)

theorem wit_OffCoreStores :
    (ranged.core.ctl.status.ckpt = false ∧ goesOff ranged (ranged.g 1 + ranged.g 0) 8 .threadWrite true (range1.xlat 0x100040)) ∧
    (let s := member ranged; s.core.ctl.status.ckpt = true ∧ 32 ≤ s.core.outFree) ∧
    (let s := holding .heldX (gs [(1, 0x400000)] base);
      s.core.heldWindow (s.g 1 + s.g 0).toNat 8 = some (0x4000, true) ∧ s.core.lockHit 0x4000 8 = false) ∧
    (let s := holding .heldS (gs [(1, 0x400000)] base); s.core.heldWindow (s.g 1 + s.g 0).toNat 8 = some (0x4000, false)) ∧
    (dpaPkg 0x100040 = pkgOf base.core.addr.toNat ∧ dpaPkg (2 ^ 41 + 0x100040) ≠ pkgOf base.core.addr.toNat ∧
      base.reachesAt base.core.addr.toNat (2 ^ 41 + 0x100040) 0 = true) := by
  refine ⟨⟨by decide +kernel, ?_⟩, by decide +kernel, by decide +kernel, by decide +kernel, by decide +kernel⟩
  have h : ranged.g 1 + ranged.g 0 = 0x100040 := by decide +kernel
  rw [h]
  exact goesOff_ranged _ _ (by decide +kernel) (by decide +kernel)

/-- An ordered store of the core in focus to package 1, as it waits at its ordering point. -/
def ordered1 : OrdStore := { heldStore with pkg := 1, dpa := 0x20000100040 }

/-- The core in focus has issued one write to package 1. -/
def issued : State := coreAs (fun c => { c with paths := { c.paths with perPkg := [(1, 1)] } }) base

/-- A write on its way. -/
def posted1 (f : Bool) : Posted := { core := base.core.thread, n := 1, path := 6, pkg := 1, failed := f, uses := none }

theorem wit_WriteAcknowledgements :
    (let s : State := { base with posted := [posted1 true] }
     (posted1 true).path < 7 ∧ s.posted[0]? = some (posted1 true) ∧ (posted1 true).core = s.core.thread) ∧
    (let s : State := { issued with ordered := [ordered1] }
     s.ordered[0]? = some ordered1 ∧ ordered1.since.isSome = true ∧
      (s.settled ordered1.core ordered1.pkg - ordered1.carried).toNat < 2 ^ 31 ∧
      s.copiesOwed ordered1.core ordered1.pkg (fun p => decide ((ordered1.mark - p.seq - 1).toNat < 2 ^ 15)) = 0 ∧
      (∀ p ∈ s.ordered, p.core = ordered1.core → p.pkg = ordered1.pkg → ordered1.bound ≤ p.bound) ∧ ordered1.hord = false ∧
      targetOf ordered1.dpa = .stacked ∧ dpaLocal ordered1.dpa + ordered1.n ≤ stackedSize ∧
      s.offKey ordered1.dpa ordered1.place = some (keyOff 0 0x20000100040) ∧
      s.reachesAt (threadCore ordered1.core) ordered1.dpa ordered1.place = true) ∧
    (let s : State := { issued with ordered := [ordered1], pkgs := [(0, { Package.reset with paths := [(0, 0)] })] }
     s.reachesAt (threadCore ordered1.core) ordered1.dpa ordered1.place = false ∧
      (s.settled ordered1.core ordered1.pkg - ordered1.carried).toNat < 2 ^ 31) ∧
    (let s : State := { base with ordered := [ordered1], clk := 2 ^ 24 }
     s.ordered[0]? = some ordered1 ∧ ordered1.since = some 0 ∧ 2 ^ 24 ≤ s.clk - 0) := by decide +kernel

theorem wit_AtomicOperations : ranged.core.outst = none ∧ ranged.core.ctl.status.ckpt = false ∧
    goesOff ranged (ranged.g 1) 8 .threadAtomic true (range1.xlat 0x100040) := by
  refine ⟨by decide +kernel, by decide +kernel, ?_⟩
  have h : ranged.g 1 = 0x100040 := by decide +kernel
  rw [h]
  exact goesOff_ranged _ _ (by decide +kernel) (by decide +kernel)

/-- Counted writes on path 6. -/
def counting (cnt failed : BitVec 32) : State :=
  coreAs (fun c => { c with paths := { c.paths with cnt := c.paths.cnt.set 6 cnt, failed := c.paths.failed.set 6 failed } }) base

theorem wit_Fences :
    ((∀ x ∈ base.core.paths.cnt.toList, x = 0) ∧ (base.core.paths.failed.toList.map BitVec.toNat).sum = 0) ∧
    (let s := counting 0 2; (∀ x ∈ s.core.paths.cnt.toList, x = 0) ∧ (s.core.paths.failed.toList.map BitVec.toNat).sum ≠ 0) ∧
    (∃ x ∈ (counting 1 0).core.paths.cnt.toList, x ≠ 0) ∧ base.holdsOrdered = false ∧
    ({ base with ordered := [ordered1] } : State).holdsOrdered = true := by
  have h0 : base.core.paths.cnt.toList = List.replicate 7 0 := by decide +kernel
  have h1 : (counting 0 2).core.paths.cnt.toList = List.replicate 7 0 := by decide +kernel
  refine ⟨⟨fun x h => ?_, by decide +kernel⟩, ⟨fun x h => ?_, by decide +kernel⟩, ⟨1, by decide +kernel, by decide⟩, by decide +kernel,
    by decide +kernel⟩
  · rw [h0] at h; exact List.eq_of_mem_replicate h
  · rw [h1] at h; exact List.eq_of_mem_replicate h

/-- A release of core 0x122 that the core in focus has read, at scope pkg, with one event. -/
def releasing : State :=
  { coreAs (fun c => { c with view := { c.view with caught := [4] } }) base with
    order := { base.order with rels := [{ id := 4, writer := .thread 0x122, scope := 7, span := ⟨keyOff 0 0x100040, 8⟩, pub := [3], word := none }] } }

theorem wit_FenceAcquires : (∃ r ∈ releasing.order.rels, r.id ∈ releasing.core.view.caught ∧
    releasing.inScope r.scope r.writer releasing.agent = true ∧ releasing.inScope 7 releasing.agent r.writer = true ∧
    3 ∈ r.pub) ∧ isMemCore (threadCore 0x122) = false ∧ isMemCore (threadCore 0x923) = false ∧
    pkgOf (threadCore 0x123) ≠ pkgOf (threadCore 0x923) := by
  refine ⟨⟨_, List.mem_singleton.mpr rfl, ?_⟩, ?_⟩ <;> decide +kernel

/-! ## Witnesses: dispatch -/

/-- Slot 0 of the ring has a state and an untaken mark. -/
def slot0 (st : RingState) (untaken : Bool) (s : State) : State :=
  coreAs (fun c => { c with ring := c.ring.set 0 { RingEntry.reset with state := st, untaken := untaken } }) s

/-- An operation of the core in focus with number 7. -/
def op7 (body : OpBody) : Op :=
  { seq := 7, started := false, lread := [], lwrite := [], oread := [], owrite := [], uses := [], att := tile.attach,
    body := body }

/-- Operations pending in the core in focus, each entry of the ring that is theirs pending. -/
def pendings (l : List Op) (s : State) : State :=
  coreAs (fun c => { c with
    ops := l
    ring := c.ring.set 7 { RingEntry.reset with state := .pending, seq := 7 } }) s

theorem wit_Dispatch :
    ((nextSlot base).state ≠ .pending ∧ base.core.ops = [] ∧ (nextSlot base).untaken = false) ∧
    slotTaken (slot0 .pending false base) ∧
    (nextSlot (slot0 .faulted true base)).untaken = true ∧
    (mode false true (slot0 .faulted true base)).core.ctl.status.ie = true ∧
    (slot0 .faulted true base).core.ctl.status.ie = false :=
  ⟨by decide +kernel, .inl (by decide +kernel), by decide +kernel, by decide +kernel, by decide +kernel⟩

/-- Operand and result addresses in the registers, in supervisor mode. -/
def operands : State := mode true true (gs [(1, 0x2000), (2, 0x3000)] base)

theorem wit_RangeDispatch : (operands.priv = true ∧ localFailure operands (un operands 2) 64 = none ∧
    readFailure operands (un operands 1) 64 = none) ∧ base.priv = false := by decide +kernel

theorem wit_GuardDispatch :
    (readFailure operands (un operands 1) 64 = none ∧ localFailure operands (un operands 2) 8 = none ∧
      operands.core.ctl.status.ckpt = false) ∧
    (let s := gs [(1, 7)] base; un s 1 < 8) ∧ (holding .bound base).core.binding 0 = some (binding0 .bound) ∧
    (let s := coreAs (fun c => { c with team := { c.team with
        outbuf := List.replicate 1024 (.grel 0 []) ++ List.replicate 512 (.send (msg1 false)) } })
        (member (gs [(1, 7)] base))
     un s 1 < 8 ∧ s.core.outFree < 16) ∧
    (let s := member (gs [(1, 7)] base); un s 1 < 8 ∧ s.core.ctl.status.ckpt = true ∧ 16 ≤ s.core.outFree) ∧
    (let s := gs [(1, 8)] base; 8 ≤ un s 1) := by decide +kernel

/-- A copy of 64 bytes within the own store, from 0x2000 to 0x3000, in `g4` to `g7`. -/
def copying : State :=
  mode true true (gs [(4, 0x2000000000002000), (5, 0x2000000000003000), (6, 64)] base)

/-- A request that holds a slot. -/
def held (f : CopyForm) : Op := op7 (.copy { copying.copyRequest .cpy 1 with form := f })

theorem wit_CopyDispatch :
    (let r := copying.copyRequest .cpy 1
     copying.copyCheck r = none ∧ r.dkind = 1 ∧ copyPlaces copying false < 16) ∧
    (let s := pendings (List.replicate 16 (held .cpy)) copying; 16 ≤ copyPlaces s false) ∧
    (let s := pendings (List.replicate 4 (held .ldtile)) copying; 4 ≤ copyPlaces s true) ∧
    copying.copyReason { copying.copyRequest .cpy 1 with w3 := 0x8000000000000000 } = some 1 ∧
    (let s := gs [(7, 0x8000000000000000)] copying; s.copyReason (s.copyRequest .cpy 1) = some 1) := by decide +kernel

/-- A memory core in focus, with a loader request in `g4` to `g7`. -/
def loader : State :=
  mode true true (gs [(4, 0x100000), (5, 0x4000000000000000 + 0x123 * 0x200000 + 0x3000), (6, 64)]
    (coreAs (fun c => { c with addr := 0x400000 }) base))

theorem wit_CopyLoaderDispatch :
    (loader.copyCheck (loader.copyRequest .ldtile 1) = none) ∧
    (let s := gs [(4, 0x4000000000000000 + 0x123 * 0x200000 + 0x3000), (5, 0x100000)] loader
     s.copyCheck (s.copyRequest .sttile 1) = none) ∧
    (let s := coreAs (fun c => { c with ctl := { c.ctl with deal := 0x10101 } }) (gs [(7, 0x80000000)] loader)
     s.copyCheck (s.copyRequest .ldeal 1) = none) := by decide +kernel

theorem wit_CopyPipeline :
    (let s := gs [(1, 0xFFFFFF)] base; un s 1 < 2 ^ 24) ∧ (let s := gs [(1, 0x1000000)] base; 2 ^ 24 ≤ un s 1) ∧
    (let s := gs [(1, 0x2000)] base; engineFailure s (un s 1) 8 8 = none ∧ s.poisonHit (s.core.localKey (un s 1)) 8 = false ∧
      readAt s (un s 1) 8 = un s 2) ∧
    (let s := gs [(1, 0x2000), (2, 1)] base; engineFailure s (un s 1) 8 8 = none ∧ readAt s (un s 1) 8 ≠ un s 2) ∧
    (let s := pendings [held .cpy] base; (s.core.entry 7).seq = 7 ∧ (s.core.entry 7).state = .pending) ∧
    ((slot0 .done false base).core.entry 0).state = .done ∧ ((slot0 .faulted false base).core.entry 0).state = .faulted ∧
    ((slot0 .squashed false base).core.entry 0).state = .squashed ∧ (base.core.entry 0).state = .empty ∧
    ((coreAs (fun c => { c with mail := [5] }) base).core.mail = 5 :: []) ∧ base.core.mail = [] ∧
    (let s := gs [(1, 0x2000)] base; localFailure s (un s 1) 16 = none) ∧
    (let s := pendings [held .ldtile] base; un s 0 < s.core.lstrPending) ∧ base.core.lstrPending ≤ un base 0 := by
  decide +kernel

theorem wit_MatrixDispatch :
    (let s := gs [(1, 0x2000), (2, 0x3000)] base
     s.mmaCheck { unfold := false, stream := false, holdB := false, holdA := false } (un s 1) (un s 2) = none ∧
      s.core.matrixPlaces < 8 ∧ engineFailure s (un s 1) 1024 64 = none ∧ engineFailure s (un s 1) (mfmtLen 0 10) 64 = none) ∧
    (let s := pendings (List.replicate 8 (op7 (.mzero 1))) base; 8 ≤ s.core.matrixPlaces) ∧
    (let s := gs [(1, 0x2000), (2, 3)] base; un s 2 ≤ 3 ∧ engineFailure s (un s 1) 2048 64 = none ∧
      s.core.ctl.status.ckpt = false) ∧
    (let s := gs [(2, 4)] base; 3 < un s 2) := by decide +kernel

theorem wit_EventDispatch :
    (let s := gs [(1, 0x2000), (2, 15)] base; un s 2 ≤ 15 ∧ engineFailure s (un s 1) 32 32 = none ∧
      s.core.ctl.status.ckpt = false ∧ s.core.eventPlaces < 8) ∧
    (let s := gs [(1, 0x2000), (2, 7)] base; un s 2 ≤ 7 ∧ engineFailure s (un s 1) 1024 64 = none ∧
      engineFailure s (un s 1) 8 8 = none) ∧
    (let s := gs [(1, 0x2000), (2, 0x0001FFFE)] base; un s 2 < 2 ^ 32 ∧
      un s 2 % 2 ^ 16 + (un s 2 / 2 ^ 16 % 2 ^ 16 + 1) ≤ 65536 ∧ engineFailure s (un s 1) (16 * 2) 16 = none) ∧
    (let s := gs [(1, 15), (2, 0x7FFFFF)] base; un s 1 ≤ 15 ∧ un s 2 < 2 ^ 23) ∧
    (let s := pendings (List.replicate 8 (op7 (.evdrain none))) base; 8 ≤ s.core.eventPlaces) ∧
    (let s := gs [(1, 16)] base; 15 < un s 1) := by decide +kernel

/-! ## Witnesses: time, tasks and the end of a thread -/

/-- A copy of the core in focus waits for a trigger. -/
def triggered : State :=
  pendings [op7 (.copy { copying.copyRequest .cpy 1 with trig := .waiting })] (gs [(2, 7)] base)

theorem wit_TimeInstructions :
    isMemCore base.core.addr.toNat = false ∧ un base 1 ≤ (clockOf base).toNat ∧
    (let s := gs [(1, -1)] base; (clockOf s).toNat < un s 1) ∧
    (triggered.core.ctl.status.ckpt = false ∧ triggered.core.armable (BitVec.ofNat 16 (un triggered 2)) = true ∧
      (armedHere triggered).length < triggerRoom (triggerUnit triggered.core.addr.toNat)) ∧
    base.core.armable (BitVec.ofNat 16 (un base 2)) = false ∧
    (let s := { triggered with triggers := [(triggerUnit 0x123, List.replicate 64 ⟨1, .post 0 0⟩)] }
     triggerRoom (triggerUnit s.core.addr.toNat) ≤ (armedHere s).length) := by decide +kernel

/-- A queue of package 0 with some records. -/
def queue1 (l : List (BitVec 512)) : LQueue :=
  { num := 1, prio := 0, weight := 1, conc := false, pid := 0, dies := 0xFF, cap := 1, entries := 16, ring := 0, ctxVa := 0,
    ctxSize := 0, msix := 0, bay := 0, records := l, seq := 0, served := 0 }

/-- The core in focus has a record to launch at 0x100040, and package 0 that queue. -/
def launching (l : List (BitVec 512)) : State :=
  pkgAs (fun p => { p with queues := [queue1 l] }) (gs [(2, 1)] ranged)

theorem wit_TaskInstructions :
    (let s := launching []; un s 2 < 1024 ∧ un s 1 % 64 = 0 ∧ un s 1 < 2 ^ 60 ∧
      s.core.tableFind (un s 1) = some { entry := range1, state := .valid } ∧
      range1.check (un s 1) .threadRead 64 = none ∧ (s.getPkg 0).queue (un s 2) = some (queue1 []) ∧
      (queue1 []).pid = s.core.ctl.pid ∧ (queue1 []).records.length < (queue1 []).cap ∧ s.core.ctl.status.ckpt = false ∧
      s.holdsOrdered = false) ∧
    ({ launching [] with ordered := [ordered1] } : State).holdsOrdered = true ∧
    (let s := launching []; (used s (range1.xlat 0x100040)).readAt 0x123 0x100040 0 64 recordMode = .ok 0) ∧
    (queue1 [0]).cap ≤ (queue1 [0]).records.length ∧ ((gs [(2, 1)] ranged).getPkg 0).queue 1 = none ∧
    (let s := gs [(2, 1024)] base; 1024 ≤ un s 2) ∧
    (let s := gs [(1, 0xFFFF)] base; un s 1 < 2 ^ 16 ∧ ((s.getPkg 0).counter (un s 1)).owner = s.core.ctl.pid ∧
      ((s.getPkg 0).counter (un s 1)).value = 0) ∧
    ((pkgAs (fun p => { p with counters := [{ idx := 0, value := 3, owner := 0, pub := [] }] }) base).getPkg 0).counter 0 =
      { idx := 0, value := 3, owner := 0, pub := [] } ∧
    (let s := gs [(1, 0x10000)] base; 2 ^ 16 ≤ un s 1) ∧ quiet base := by
  unfold quiet
  refine ⟨by decide +kernel, by rfl, by decide +kernel, by decide +kernel, by decide +kernel, by decide +kernel,
    by decide +kernel, by decide +kernel, by decide +kernel⟩

/-! ## Witnesses: pending events -/

/-- A boundary at which the core takes pending events. -/
def boundary : State := mode false true base

/-- An entry of the ring whose late fault has not been taken. -/
def lateEntry : RingEntry :=
  { RingEntry.reset with state := .faulted, cause := 0x12, einfo := 9, untaken := true }

theorem wit_PendingEvents : takesEvents boundary ∧
    (let s := coreAs (fun c => { c with ring := c.ring.set 0 lateEntry }) boundary
     takesEvents s ∧ s.core.lateFaultEntry = some lateEntry) ∧
    (let s := coreAs (fun c => { c with sync := { c.sync with relCause := [(0x21, 5)] } }) boundary
     takesEvents s ∧ s.core.lateFaultEntry = none ∧ s.core.sync.relCause = (0x21, 5) :: []) ∧
    (let s := coreAs (fun c => { c with preempt := some false }) boundary
     takesEvents s ∧ s.core.lateFaultEntry = none ∧ s.core.sync.relCause = [] ∧ s.core.preempt = some false ∧ s.core.ops = []) ∧
    (let s := coreAs (fun c => { c with preempt := some true, yielded := true }) (pendings [op7 (.mzero 1)] boundary)
     takesEvents s ∧ s.core.lateFaultEntry = none ∧ s.core.sync.relCause = [] ∧ s.core.preempt = some true ∧
      s.core.safePoint = true ∧ s.core.ops = [op7 (.mzero 1)] ∧ (op7 (.mzero 1)).body.isMatrix = true ∧
      (op7 (.mzero 1)).started = false) := by
  unfold takesEvents
  refine ⟨?_, ?_, ?_, ?_, ?_⟩ <;> decide +kernel

/-! ## Witnesses: copies under way, the mailbox and loader calls -/

/-- The copy of 64 bytes within the own store, with other words. -/
def copy1 (w0 w1 : Word) : CopyOp :=
  { form := .cpy, w0 := w0, w1 := w1, w2 := 64, w3 := 0, trig := .free, path := 0, pkg := 0, pkgs := [], counted := 0,
    moved := false, fed := 0, portHeld := false, bad := none }

/-- Its operation, pending as number 7 in the core in focus. -/
def copyRuns (r : CopyOp) (started : Bool) (s : State) : State :=
  pendings [{ op7 (.copy r) with started := started }] s

/-- Own store to own store, own store to the stream port, a core that runs nothing to own store, and a loader call. -/
def own1 : CopyOp := copy1 0x2000000000002000 0x2000000000003000
def port1 : CopyOp := copy1 0x2000000000002000 0x6000000000000000
def remote1 : CopyOp := copy1 (0x4000000000000000 + 0x124 * 0x200000) 0x2000000000003000
def call1 : CopyOp := copy1 0x100000 (0xA000000000000000 + 0x400000)

/-- A core whose stream port has stopped. -/
def portShut (s : State) : State := coreAs (fun c => { c with mtx := { c.mtx with portStopped := true } }) s

/-- Core 0x122 has four copies under way, and core 0x123 a copy that waits. -/
def fullEngine : State :=
  let s := copyRuns own1 true besides
  let o := { op7 (.copy own1) with started := true }
  { copyRuns own1 false besides with others := [(0x122, { s.core with addr := 0x122, ops := [o, o, o, o] })] }

theorem wit_CopyStarts :
    (let s := copyRuns own1 false base; let o := op7 (.copy own1);
      copyAt s 7 o own1 ∧ o.started = false ∧ s.core.blocked o = false ∧ s.core.copyTurn o own1 = true ∧ own1.dkind ≠ 5 ∧
      s.orderedBefore s.core.thread o = false ∧ s.transferring s.core.copyEngine < 4 ∧ s.engineTurn = true ∧
      s.startFault own1 o.att = none ∧ own1.dkind ≠ 3) ∧
    (let o := op7 (.copy own1); own1.form = .cpy ∧ copyAt fullEngine 7 o own1 ∧ fullEngine.core.copyTurn o own1 = true ∧
      4 ≤ fullEngine.transferring fullEngine.core.copyEngine) ∧
    (let s := portShut (copyRuns port1 false base); let o := op7 (.copy port1);
      copyAt s 7 o port1 ∧ s.core.blocked o = false ∧ s.core.copyTurn o port1 = true ∧ port1.dkind = 3 ∧
      s.startFault port1 o.att = none ∧ s.core.mtx.portStopped = true) ∧
    (let s := copyRuns remote1 false base; let o := op7 (.copy remote1);
      copyAt s 7 o remote1 ∧ s.core.blocked o = false ∧ s.core.copyTurn o remote1 = true ∧ remote1.dkind ≠ 5 ∧
      (s.startFault remote1 o.att).isSome = true ∧ remote1.mbx = false ∧ pendingAt s 7) ∧
    (let s := copyRuns call1 false base; let o := op7 (.copy call1);
      copyAt s 7 o call1 ∧ s.core.blocked o = false ∧ s.core.copyTurn o call1 = true ∧ call1.dkind = 5 ∧
      call1.dst % 2 ^ 23 ≠ s.core.addr.toNat ∧ (s.getCore (call1.dst % 2 ^ 23)).calls.length < 16) := by
  unfold copyAt pendingAt; decide +kernel

/-- Do the sides of a copy resolve, and without a failure? -/
def sound (x : SidesRes) : Option Bool :=
  match x with
  | .wait _ => none
  | .ok _ _ bad _ => some bad.isNone

theorem wit_CopyEnds :
    (let s := copyRuns own1 true base; let o := { op7 (.copy own1) with started := true };
      copyAt s 7 o own1 ∧ o.started = true ∧ own1.moved = false ∧ own1.dkind ≠ 5 ∧ own1.dkind ≠ 3 ∧
      sound (s.sides o own1) = some true) ∧
    (let s := copyRuns port1 true base; let o := { op7 (.copy port1) with started := true };
      copyAt s 7 o port1 ∧ port1.dkind = 3 ∧ sound (s.sides o port1) = some true ∧
      port1.dlen ≤ (s.feedPort 7 0 (List.replicate 64 0)).1) ∧
    (let s := coreAs (fun c => { c with mtx := { c.mtx with
        port := [{ seq := 6, data := List.replicate 4096 0, bad := false }] } }) (copyRuns port1 true base);
      (s.feedPort 7 0 (List.replicate 64 0)).1 < port1.dlen) ∧
    (let r := copy1 0x100000 0x2000000000003000
     let s := copyRuns r true { ranged with poison := [⟨keyOff 0 0x100000, 64⟩] }
     let o := { op7 (.copy r) with started := true };
      copyAt s 7 o r ∧ sound (s.sides o r) = some false) ∧
    (localCopy own1 ∧ intact (copyRuns own1 true base) (localOf own1.src) own1.len ∧
      (copyRuns own1 true poisoned).poisonAt (keyLocal 0x123 (localOf own1.src)) own1.len = some 0) ∧
    (own1.red = 0 ∧ (base.offKey 0x100040 0).isSome = true ∧ base.order.touching (keyOff 0 0x100040) 8 = []) ∧
    (own1.cwe = false ∧ own1.mbx = false ∧ own1.counted = 0 ∧ pendingAt (copyRuns own1 true base) 7) ∧
    Cause.memory ≠ Cause.uncorr := by
  unfold copyAt pendingAt localCopy intact; decide +kernel

/-- A mailbox record for the core in focus. -/
def post1 (src : PostSrc) : Post := { target := 0x123, record := 5, src := src }

/-- A memory core in focus, idle, with a loader call waiting. -/
def called : State :=
  coreAs (fun _ => { Core.idle 0x400000 with calls := [
    { caller := 0x123, seq := 7, w0 := 1, w2 := 2, entry := 0x1000, pid := 0, topx := false, rm := 0 }] }) base

theorem wit_MailboxAndLoaderCalls :
    (let s : State := { base with posts := [post1 (.engine 0)] }
     s.posts.find? (·.goesTo s.core.addr.toNat s.core.thread) = some (post1 (.engine 0)) ∧ s.core.mail.length < 32) ∧
    (let p := post1 (.copy 0x123 7)
     let s : State := { copyRuns { own1 with moved := true } true base with posts := [p] }
     s.posts.find? (·.goesTo s.core.addr.toNat s.core.thread) = some p ∧ s.core.mail.length < 32 ∧
      p.src = .copy s.core.thread 7 ∧ p.record.extractLsb' 16 8 = 0 ∧ pendingAt s 7) ∧
    (isChannelCore called.core.addr.toNat = true ∧ called.coreExists called.core.addr.toNat = true ∧
      called.core.alive = false ∧ called.core.endedBadly = false ∧ called.core.anyPending = false ∧
      called.core.calls.length = 1) := by
  unfold pendingAt; decide +kernel

/-! ## Witnesses: the matrix unit -/

/-- A tile step on operands at 0x2000 and 0x4000. -/
def step1 (parked : Bool) : StepOp :=
  { acc := 1, rm := 0, form := { unfold := false, stream := false, holdB := false, holdA := false }, a := 0x2000,
    b := 0x4000, desc := 0, parked := parked }

/-- Its operation. -/
def opStep (parked : Bool) : Op := op7 (.mma 1 0 false false false false 0x2000 0x4000 0 parked)

/-- The step waits at the head of the core's queue. -/
def stepping (parked : Bool) : State := pendings [opStep parked] base

/-- The shape of the step. -/
def shape1 : StepShape := match stepShape tile.attach with
  | .ok h => h
  | .error _ => { acc := .f64, rows := 0, k := 0, la := 0, lb := 0 }

theorem wit_TileStepStarts :
    ((stepping false).stepFault (opStep false) (step1 false) = none ∧
      ((stepping false).runStep (opStep false) (step1 false) shape1).isSome = true ∧
      (stepping false).nextServed (unitOf 0x123) = some (posOf 0x123) ∧
      clusterCore (unitOf 0x123) (posOf 0x123) = (stepping false).core.addr.toNat ∧
      (stepping false).readyStep false = some (opStep false, step1 false) ∧
      (stepping false).core.accBad.getLsbD 1 = false ∧ (stepping false).core.ctl.status.ckpt = false) ∧
    stepShape (opStep false).att = .ok shape1 ∧
    ((stepping true).readyStep true = some (opStep true, step1 true) ∧ (stepping true).core.mtx.portStopped = false ∧
      (stepping true).stepFault (opStep true) (step1 true) = none ∧
      ((stepping true).runStep (opStep true) { step1 true with parked := false } shape1).isSome = true) := by
  refine ⟨by decide +kernel, by rfl, by decide +kernel⟩

theorem wit_TileStepFaults :
    (let s := coreAs (fun c => { c with accBad := 2 }) (stepping false)
     s.nextServed (unitOf 0x123) = some (posOf 0x123) ∧ s.readyStep false = some (opStep false, step1 false) ∧
      pendingAt s 7 ∧ s.stepFault (opStep false) (step1 false) = none ∧ s.core.accBad.getLsbD 1 = true) ∧
    (let p := { opStep false with lread := span 0x2000 64 }; let s := pendings [p] poisoned
     s.readyStep false = some (p, step1 false) ∧ pendingAt s 7 ∧
      s.stepFault p (step1 false) = some (Cause.uncorr, 0x2000)) ∧
    (match stepShape { tile.attach with fmta := 63 } with
      | .ok _ => false
      | .error _ => true) = true := by
  unfold pendingAt; refine ⟨?_, ?_, ?_⟩ <;> decide +kernel

/-- A step under way. -/
def run1 (reran : Bool) : MtxRun :=
  { seq := 7, acc := 1, result := 3, flags := 1, bufA := none, bufB := none, portBytes := 0, reran := reran }

/-- The core with that step. -/
def stepRuns (reran : Bool) : State :=
  coreAs (fun c => { c with mtx := { c.mtx with run := some (run1 reran) } })
    (pendings [{ opStep false with started := true }] base)

theorem wit_TileStepEnds : (stepRuns false).core.mtx.run = some (run1 false) ∧ pendingAt (stepRuns false) (run1 false).seq ∧
    (run1 false).reran = false ∧ (stepRuns false).core.accBad.getLsbD 5 = false ∧
    (coreAs (fun c => { c with accBad := 0x20 }) (stepRuns false)).core.accBad.getLsbD (4 + (run1 false).acc.toNat) = true ∧
    (stepRuns false).core.ctl.status.ckpt = false ∧ (stepRuns true).core.mtx.run = some (run1 true) ∧ pendingAt (stepRuns true) 7 := by
  unfold pendingAt; decide +kernel

/-- A matrix operation at the head of the queue. -/
def matrixNext (b : OpBody) (s : State) : State := pendings [op7 b] s

theorem wit_MatrixOperations :
    (let b := OpBody.mzero 1; let s := matrixNext b base; s.core.matrixHead = some (op7 b) ∧ s.core.blocked (op7 b) = false ∧
      pendingAt s 7) ∧
    (let b := OpBody.mlda 1 0x2000; let s := matrixNext b base; s.core.matrixHead = some (op7 b) ∧
      s.core.blocked (op7 b) = false ∧ s.poisonHit (s.core.localKey 0x2000) 1024 = false) ∧
    (let b := OpBody.mlda 1 0x2000; let s := matrixNext b poisoned; s.core.matrixHead = some (op7 b) ∧
      s.core.ctl.status.ckpt = false ∧ s.readError 0x2000 1024 = some 0x2000) ∧
    (let b := OpBody.msta 1 0x2000; let s := matrixNext b base; s.core.matrixHead = some (op7 b) ∧
      s.core.accBad.getLsbD 1 = false ∧ s.core.run ≠ .cancelled) ∧
    (let b := OpBody.msta 1 0x2000; let s := coreAs (fun c => { c with accBad := 2 }) (matrixNext b base);
      s.core.matrixHead = some (op7 b) ∧ s.core.accBad.getLsbD 1 = true ∧ s.core.ctl.status.ckpt = false) ∧
    (let s := { matrixNext (.mcbld 0x2000 3) base with core := { (matrixNext (.mcbld 0x2000 3) base).core with
        ctl := { tile.ctl with cbook := 3 }, ops := [op7 (.mcbld 0x2000 3)] } }
     s.core.matrixHead = some (op7 (.mcbld 0x2000 3))) ∧
    (let b := OpBody.mfmt 1 0 0 10 0x2000; let s := matrixNext b base; s.core.matrixHead = some (op7 b)) ∧
    (let b := OpBody.mcbld 0x2000 3; let s := matrixNext b base; s.core.matrixHead = some (op7 b) ∧
      s.poisonHit (s.core.localKey 0x2000) 2048 = false ∧ s.tableInUse (unitOf s.core.addr.toNat) 3 = false) := by
  unfold pendingAt; decide +kernel

/-! ## Witnesses: the event engine and time -/

/-- Bytes laid in memory. -/
def lay (k n x : Nat) (s : State) : State := { s with mem := s.mem.writeBytes k (natLe n x) }

/-- An event for engine 36, of the cluster of core 0x123, from that core. -/
def evmsg1 : EvMsg := { src := 0x123, engine := none, target := 36, w := 0x3F8000003, t := none }

/-- The event queued, due at tick 0. -/
def due1 : QEvent := { t := 0, clk := 0, key := 0x123, arr := 0, w := 0x3F8000003 }

/-- Engine 36 holds events. -/
def engineOf (q : List QEvent) (s : State) : State := { s with engines := [(36, { Engine.reset with queue := q })] }

theorem wit_EventArrivals :
    (let s : State := { base with evnet := [evmsg1] }
     s.evnet[0]? = some evmsg1 ∧ s.evnet.take 0 = [] ∧ s.clusterTakes (clusterCore evmsg1.target 0) = true ∧
      (s.engine evmsg1.target).queue.length < 8192) ∧
    (let s : State := { base with evnet := [evmsg1, evmsg1] }; s.evnet[1]? = some evmsg1 ∧ evmsg1 ∈ s.evnet.take 1) ∧
    (engineOf (List.replicate 8192 due1) base |>.engine 36).queue = List.replicate 8192 due1 ∧
    (pkgAs (fun p => { p with dieQuiet := 2 }) base).clusterTakes (clusterCore evmsg1.target 0) = false ∧
    (engineOf [due1] base |>.engine 36).head = some due1 ∧
    (0 < 2 ^ 48 - 2 ^ 27 ∧ (0x3F8000003 : Word).getLsbD 63 = false ∧ (0x8000000000000000 : Word).getLsbD 63 = true) :=
  ⟨by decide +kernel, by decide +kernel, rfl, by decide +kernel, by decide +kernel, by decide⟩

/-- Engine 36 with that event due, which entered in an earlier clk, and a descriptor of its population 0: states 0 to 10, with
flags and a threshold. -/
def delivering (desc : Nat) : State :=
  lay (keyPop 36 0) 32 (desc + 10 * 2 ^ 16) (engineOf [due1] { base with clk := 1, ns := 1 })

/-- V of state 3 after an event of weight 1 is added to it. -/
def summed (s : State) : Nat :=
  (round32 (sumX [fp32.decode (s.bankState 36 3).v, bf16.decode (due1.w.toNat / 2 ^ 20 % 2 ^ 16)] rmRNE)).1

theorem wit_EventDeliveries :
    (dueFirst (delivering 0) 36 due1 ∧ ((delivering 0).engine 36).waiting = [] ∧ ¬ deliverable (delivering 0) 36 due1.w) ∧
    (let s := delivering (2 ^ 36 + 2 ^ 35); dueFirst s 36 due1 ∧ deliverable s 36 due1.w ∧ popIo (s.popDesc 36 0) = true) ∧
    (let s := lay (keyBank 36 (16 * 3 + 10)) 2 5 (delivering (2 ^ 36)); dueFirst s 36 due1 ∧ deliverable s 36 due1.w ∧
      popIo (s.popDesc 36 0) = false ∧ ¬ due1.t < (s.bankState 36 3).last ∧
      due1.t < (s.bankState 36 3).last + (s.bankState 36 3).refr) ∧
    (let s := lay (keyBank 36 (16 * 3 + 4)) 2 5 (delivering (2 ^ 36)); dueFirst s 36 due1 ∧ deliverable s 36 due1.w ∧
      popIo (s.popDesc 36 0) = false ∧ due1.t < (s.bankState 36 3).last ∧ (s.bankState 36 3).refr = 0) ∧
    (let s := delivering (2 ^ 36 + 0x40000000 * 2 ^ 64); let n := s.bankState 36 3;
      deliverable s 36 due1.w ∧ popIo (s.popDesc 36 0) = false ∧ due1.t = n.last + n.refr ∧
      reaches32 (summed s) (popField (s.popDesc 36 0) 0x08 32) = false) := by
  unfold dueFirst deliverable
  refine ⟨?_, ?_, ?_, ?_, ?_⟩ <;> decide +kernel

theorem wit_EventFirings :
    (let s := delivering (2 ^ 36 + 0x3F800000 * 2 ^ 64); let n := s.bankState 36 3;
      deliverable s 36 due1.w ∧ due1.t = n.last + n.refr ∧ popFan (s.popDesc 36 0) = false ∧
      popMbx (s.popDesc 36 0) = false ∧ reaches32 (summed s) (popField (s.popDesc 36 0) 0x08 32) = true) ∧
    (let s := delivering (2 ^ 36 + 2 ^ 37 + 2 ^ 38 + 0x3F800000 * 2 ^ 64);
      deliverable s 36 due1.w ∧ popFan (s.popDesc 36 0) = true ∧ popMbx (s.popDesc 36 0) = true ∧
      reaches32 (summed s) (popField (s.popDesc 36 0) 0x08 32) = true) ∧
    (let q : QEvent := { due1 with t := 1 }
     let s : State := { delivering (2 ^ 36 + 0x3F800000 * 2 ^ 64) with engines := [(36, { Engine.reset with queue := [q] })] }
     let n := s.bankState 36 3; let k := s.decay 36 0 1
      dueFirst s 36 q ∧ deliverable s 36 q.w ∧ n.last + n.refr < q.t ∧ popLeak (s.popDesc 36 0) = 0 ∧
      reaches32 (round32 (fmaX (fp32.decode n.v) (fp32.decode k.1) (bf16.decode (q.w.toNat / 2 ^ 20 % 2 ^ 16)) rmRNE)).1
        (popField (s.popDesc 36 0) 0x08 32) = true) := by
  unfold dueFirst deliverable
  refine ⟨?_, ?_, ?_⟩ <;> decide +kernel

/-- The first of a queue of equal events is one of them. -/
theorem head_replicate (n : Nat) : ({ Engine.reset with queue := List.replicate (n + 1) due1 } : Engine).head = some due1 := by
  have hb : due1.before due1 = false := by decide
  show (List.replicate (n + 1) due1).foldl _ none = _
  rw [List.replicate_succ, List.foldl_cons]
  induction n with
  | zero => rfl
  | succ n ih => rw [List.replicate_succ, List.foldl_cons]; simpa [hb] using ih

/-- A trigger event waits for a place in a full queue. -/
theorem wit_EventDrains :
    let e : Engine := { Engine.reset with queue := List.replicate 8192 due1, waiting := [(0x123, 0, 1)] }
    e.head = some due1 ∧ e.waiting = (0x123, 0, 1) :: [] ∧ (e.queue.erase due1).length = 8191 :=
  ⟨head_replicate 8191, rfl, by simp⟩

/-- An event operation at the head of the queue of the core in focus. -/
def eventNext (b : OpBody) (s : State) : State := pendings [op7 b] s

theorem wit_EventConfiguration :
    (let b := OpBody.evcfg .leak 0x2000 7; let s := eventNext b base; engineTakes s (op7 b) ∧
      s.poisonHit (s.core.localKey 0x2000) 1024 = false) ∧
    (let b := OpBody.evcfg .pop 0x2000 0; let s := eventNext b base; engineTakes s (op7 b) ∧
      s.poisonHit (s.core.localKey 0x2000) 32 = false ∧ s.popRefusal 36 0 (op7 b).att.lslim.toNat (readAt s 0x2000 32) = none) ∧
    (let b := OpBody.evcfg .pop 0x2000 0; let s := lay (keyLocal 0x123 0x2000) 4 0xFFFFFFFF (eventNext b base);
      engineTakes s (op7 b) ∧ s.popRefusal 36 0 (op7 b).att.lslim.toNat (readAt s 0x2000 32) = some 2) ∧
    (let b := OpBody.evcfg .pop 0x2000 0; let s := { eventNext b base with poison := poisoned.poison };
      engineTakes s (op7 b) ∧ s.readError 0x2000 CfgKind.pop.len = some 0x2000) ∧
    (let b := OpBody.evcfg .eng 0x2000 0; let s := eventNext b base; engineTakes s (op7 b) ∧
      s.engRefusal 36 (readAt s 0x2000 8) = some 2) ∧
    (let b := OpBody.evcfg .eng 0x2000 0; let s := lay (keyLocal 0x123 0x2000) 4 5 (eventNext b base);
      engineTakes s (op7 b) ∧ s.engRefusal 36 (readAt s 0x2000 8) = none) := by
  unfold engineTakes pendingAt; decide +kernel

theorem wit_EventPosting :
    (let b := OpBody.evpost 3 none; engineTakes (eventNext b base) (op7 b) ∧ ownTarget 0x123 none = true) ∧
    (let b := OpBody.evpost 3 (some 0x224); let s := eventNext b base; engineTakes s (op7 b) ∧ unitOf 0x224 ≠ 36 ∧
      s.clusterPresent 0x224 = true ∧ s.eventReaches 0x123 0x224 = true) ∧
    (let b := OpBody.evpost 3 (some 0x400000); let s := eventNext b base; engineTakes s (op7 b) ∧
      isMemCore 0x400000 = true ∧ s.clusterPresent 0x400000 = false) ∧
    (let b := OpBody.evpost 3 (some 0x800); let s := eventNext b (pkgAs (fun p => { p with paths := [(0, 0)] }) base);
      engineTakes s (op7 b) ∧ unitOf 0x800 ≠ 36 ∧ s.clusterPresent 0x800 = true ∧ s.eventReaches 0x123 0x800 = false) ∧
    (let b := OpBody.evsweep 0; engineTakes (eventNext b base) (op7 b) ∧
      popEn ((eventNext b base).popDesc 36 0) = false) := by
  unfold engineTakes pendingAt; decide +kernel

theorem wit_EventPopulationOps :
    (let b := OpBody.evsweep 0; let s := lay (keyPop 36 0) 32 (2 ^ 36 + 3) (eventNext b base); engineTakes s (op7 b) ∧
      popEn (s.popDesc 36 0) = true ∧ popIo (s.popDesc 36 0) = false ∧ popBase (s.popDesc 36 0) = 3 ∧
      popNm1 (s.popDesc 36 0) = 0 ∧ s.engineTick 36 = (s.bankState 36 3).last + (s.bankState 36 3).refr) ∧
    (let b := OpBody.evread 0x2000 0xFFFE 2; let s := eventNext b base; engineTakes s (op7 b) ∧ s.core.run ≠ .cancelled ∧
      s.poisonHit (keyBank 36 (16 * 0xFFFE)) 16 = false) ∧
    (let b := OpBody.evread 0x2000 0xFFFF 1; let s := { eventNext b base with poison := [⟨keyBank 36 (16 * 0xFFFF), 4⟩] };
      engineTakes s (op7 b) ∧ s.poisonHit (keyBank 36 (16 * 0xFFFF)) 16 = true) ∧
    (let b := OpBody.evreadSt 0x2000; engineTakes (eventNext b base) (op7 b)) ∧
    (let b := OpBody.evwrite 0x2000 0xFFFE 2; let s := eventNext b base; engineTakes s (op7 b) ∧
      s.poisonHit (s.core.localKey 0x2000) 32 = false) ∧
    (let b := OpBody.evdrainPop 0; let s := eventNext b (engineOf [due1] base); engineTakes s (op7 b) ∧
      (s.engine 36).waiting = [] ∧ s.foreignPop 36 s.core 0 = false) ∧
    (let b := OpBody.evdrain none; let s := eventNext b (engineOf [due1] base); engineTakes s (op7 b) ∧
      (s.engine 36).dueBy (s.engineTick 36) = true ∧ (base.engine 36).dueBy (base.engineTick 36) = false) ∧
    (let b := OpBody.evdrain (some 0); let s := eventNext b base;
      (s.core.ops.find? fun (y : Op) => y.body.isEvent) = some (op7 b) ∧ pendingAt s 7 ∧
      (s.engine (unitOf s.core.addr.toNat)).dueBy 0 = false) := by
  unfold engineTakes pendingAt
  refine ⟨?_, ?_, ?_, ?_, ?_, ?_, ?_, ?_⟩ <;> decide +kernel

/-- Population 0 of engine 36 belongs to another launch that runs, and the core drains it. -/
def foreign1 : State :=
  let l : Launch :=
    { num := 5, queue := 1, record := 0, header := 0, bars := [], load := [], groups := [], state := .running, status := 0,
      cancelled := false, pub := [] }
  eventNext (.evdrainPop 0) { pkgAs (fun p => { p with launches := [l] }) base with
    engines := [(36, { Engine.reset with owners := [(0, 0x124, 5)] })] }

theorem wit_EventOperationsForeign : engineTakes foreign1 (op7 (.evdrainPop 0)) ∧
    foreign1.foreignPop 36 foreign1.core 0 = true ∧ (foreign1.engine 36).waiting = [] := by
  unfold engineTakes pendingAt; decide +kernel

/-- A trigger of the cluster of the core in focus. -/
def trig (a : TrigAct) (s : State) : State := { s with triggers := [(36, [⟨0, a⟩])] }

theorem wit_TimeEvents :
    ((trig (.release 0x123 7) base).dueTrigger 36 = some ⟨0, .release 0x123 7⟩ ∧ base.core.thread = 0x123) ∧
    (let s := trig (.post 3 0x123) base; s.dueTrigger 36 = some ⟨0, .post 3 0x123⟩ ∧
      (s.engine 36).queue.length < 8192 ∧ (s.engine 36).waiting = []) ∧
    (let s := trig (.post 3 0x123) { base with engines := [(36, { Engine.reset with waiting := [(0x123, 0, 1)] })] }
     s.dueTrigger 36 = some ⟨0, .post 3 0x123⟩ ∧ (s.engine 36).waiting ≠ []) ∧
    (let s := coreAs (fun c => { c with wait := .time 0 }) base; s.core.wait = .time 0 ∧ (0 : Word).toNat ≤ (clockOf s).toNat) ∧
    (1000 < max (1001 : Word).toNat (base.domainClock 0).toNat - min (1001 : Word).toNat (base.domainClock 0).toNat) := by
  decide +kernel

/-! ## Witnesses: range operations -/

/-- The core misses in its table at an address of the range. -/
def missing (cat : List CatEntry) : State :=
  coreAs (fun c => { c with rtab := { c.rtab with miss := some 0x100040 } }) { base with stations := [(stationOf 0x123, cat)] }

/-- The range in a catalogue. -/
def cat1 (st : CatState) : CatEntry := { entry := range1, state := st, holders := [] }

theorem wit_StationLookups :
    (let s := missing []; s.core.rtab.miss = some 0x100040 ∧ s.core.rtab.notFound = false ∧ foundAt s 0x100040 = []) ∧
    (let s := missing [cat1 .present]; foundAt s 0x100040 = [cat1 .present] ∧ (cat1 .present).state ≠ .changing ∧
      s.core.rtab.entries.length + s.core.bindCount < 32) ∧
    (let s := missing [cat1 .changing]; cat1 .changing ∈ foundAt s 0x100040 ∧ (cat1 .changing).state = .changing) := by
  decide +kernel

/-- A range operation pending at the core in focus. -/
def ranging (form : RangeForm) (va : Word) (block : BitVec 512) (cat : List CatEntry) : State :=
  pendings [op7 (.range form va block 0x3000 false)] { ranged with stations := [(stationOf 0x123, cat)] }

/-- That operation. -/
def opRange (form : RangeForm) (va : Word) (block : BitVec 512) : Op := op7 (.range form va block 0x3000 false)

theorem wit_StationRequests :
    (let x := { range1 with base := 0x200000, limit := 0x300000 }.bits; let s := ranging .rload 0 x [cat1 .present];
      rangeNext s (opRange .rload 0 x) .rload 0 x 0x3000 ∧ s.core.ctl.status.ckpt = false ∧ entryReserved x = true ∧
      ({ RangeEntry.ofBits x with pid := s.core.ctl.pid } : RangeEntry).wf s.getPkg = true ∧
      (s.catalogue (stationOf s.core.addr.toNat)).any (fun (y : CatEntry) => y.entry.pid == 0 &&
        y.entry.overlaps { RangeEntry.ofBits x with pid := s.core.ctl.pid }) = false ∧
      (s.catalogue (stationOf s.core.addr.toNat)).length < 16384) ∧
    (rangeNext (ranging .rload 0 0 []) (opRange .rload 0 0) .rload 0 0 0x3000 ∧
      ({ RangeEntry.ofBits 0 with pid := 0 } : RangeEntry).wf (ranging .rload 0 0 []).getPkg = false) ∧
    (let x := range1.bits; let s := ranging .rload 0 x [cat1 .present];
      rangeNext s (opRange .rload 0 x) .rload 0 x 0x3000 ∧ entryReserved x = true ∧
      ({ RangeEntry.ofBits x with pid := s.core.ctl.pid } : RangeEntry).wf s.getPkg = true ∧
      (s.catalogue (stationOf s.core.addr.toNat)).any (fun (y : CatEntry) => y.entry.pid == 0 &&
        y.entry.overlaps { RangeEntry.ofBits x with pid := s.core.ctl.pid }) = true) ∧
    (let s := ranging .rprobe 0x100040 0 []; rangeNext s (opRange .rprobe 0x100040 0) .rprobe 0x100040 0 0x3000 ∧
      s.core.tableFind 0x100040 = some { entry := range1, state := .valid }) ∧
    rangeNext (ranging .rstat 0 0 []) (opRange .rstat 0 0) .rstat 0 0 0x3000 ∧
    (let s := ranging .rinv 0x100040 0 []; rangeNext s (opRange .rinv 0x100040 0) .rinv 0x100040 0 0x3000 ∧
      s.rops = [] ∧ foundAt s 0x100040 = []) ∧
    (let s := ranging .rinv 0x100040 0 [cat1 .present]; foundAt s 0x100040 = [cat1 .present] ∧ s.rops = [] ∧
      s.rangeBound (pkgOf 0x123) .rinv range1 = false ∧
      s.rangeFull (pkgOf 0x123) s.core.ctl.pid [range1] [] = false) ∧
    (let e := { range1 with kind := kindGuarded }
     let s := coreAs (fun c => { c with binds := c.binds.set 0 (some { binding0 .bound with regionVa := 0x100040 }) })
      (ranging .rinv 0x100040 0 [{ cat1 .present with entry := e }])
     foundAt s 0x100040 = [{ cat1 .present with entry := e }] ∧ s.rangeBound (pkgOf 0x123) .rinv e = true) := by
  unfold rangeNext pendingAt; decide +kernel

/-- A range operation of the core in focus at its coordinator. -/
def rop1 (form : RangeForm) (asked : List Nat) (owed : List (Nat × Nat)) (phase : RopPhase) (news : List RangeEntry) : RangeOp :=
  { core := 0x123, seq := 7, pkg := 0, pid := 0, form := form, setOnly := false, bases := [0x100000], news := news,
    old := range1, coord := 0, was := [], asked := asked, owed := owed, resetAck := 0, phase := phase, res := 0x3000 }

/-- The state with that operation. -/
def coordinating (r : RangeOp) (s : State) : State :=
  pendings [op7 (.range r.form 0x100040 0 0x3000 true)] { s with rops := [r] }

theorem wit_RangeCoordination :
    (let r := rop1 .rinv [] [] .notices []; let s := coordinating r (pkgAs (fun p => { p with dieReset := 2 }) base);
      s.rangeOp 0 0 = some r ∧ 8 ∉ r.asked ∧ r.phase = .notices ∧ (s.getPkg 0).dieReset.getLsbD (8 / 8) = true ∧
      (s.getPkg 0).dieReset.getLsbD (0 / 8) = false) ∧
    (let r := rop1 .rinv [] [(8, 0x123)] .notices []; let s := coordinating r ranged;
      s.rangeOp 0 0 = some r ∧ (s.rops.find? fun (q : RangeOp) => q.owed.any (·.2 == s.core.addr.toNat)) = some r ∧
      r.setOnly = false ∧ (∀ y ∈ s.core.rtab.entries, s.usesOf s.core y.entry.base.toNat = 0)) ∧
    (let r := rop1 .rinv (List.range 64) [] .notices []; let s := coordinating r ranged;
      s.rangeOp 0 0 = some r ∧ r.core = s.core.thread ∧ pendingAt s r.seq ∧ r.phase = .notices ∧ r.owed = [] ∧
      r.form ≠ .rcompact ∧ r.setOnly = false ∧ s.core.run ≠ .cancelled) ∧
    (let r := { rop1 .rres (List.range 64) [] .notices [range1] with setOnly := true }; let s := coordinating r ranged;
      s.rangeOp 0 0 = some r ∧ r.core = s.core.thread ∧ pendingAt s r.seq ∧ r.owed = [] ∧ r.setOnly = true ∧
      r.form ≠ .rcompact) ∧
    (let n := { range1 with offset := 0x100000 }; let r := rop1 .rcompact (List.range 64) [] .notices [n];
      let s := coordinating r ranged; s.rangeOp 0 0 = some r ∧ r.core = s.core.thread ∧ pendingAt s r.seq ∧
      r.form = .rcompact ∧ r.news = n :: [] ∧ (List.range 64).all (fun j => r.old.resmap.getLsbD j) = true ∧
      s.mem.wf = true ∧ s.mem.undef = [] ∧ r.old.pa r.old.base.toNat = 0x100000 ∧ n.pa n.base.toNat = 0x200000 ∧
      0x100000 + 0x100000 ≤ windowEnd 0x100000 ∧ 0x200000 + 0x100000 ≤ windowEnd 0x200000) ∧
    (let n := { range1 with offset := 0x100000 }; let r := rop1 .rcompact (List.range 64) [] .copied [n];
      let s := coordinating r ranged; s.rangeOp 0 0 = some r ∧ r.core = s.core.thread ∧ pendingAt s r.seq ∧
      r.phase = .copied ∧ pkgOf s.core.addr.toNat = r.pkg ∧ r.news = n :: []) ∧
    oneNew (rop1 .rinv [] [] .notices []) ∧ oneNew { rop1 .rres [] [] .notices [range1] with setOnly := true } ∧
    (∀ k, k < 64 → k ∈ (rop1 .rinv (List.range 64) [] .notices []).asked) ∧
    ∀ i, i < 0x100000 → ranged.offKey (0x100000 + i) 0 = some (keyOff 0 0x100000 + i) := by
  unfold pendingAt
  refine ⟨by decide +kernel, by decide +kernel, by decide +kernel, by decide +kernel, by decide +kernel, by decide +kernel,
    fun h => absurd h (by decide), fun _ => ⟨range1, rfl⟩, fun k h => List.mem_range.mpr h, fun i h => ?_⟩
  have ht : targetOf (0x100000 + i) = .stacked := by
    have hl : dpaLocal (0x100000 + i) < stackedSize := by unfold dpaLocal stackedSize; omega
    unfold targetOf; simp [hl]
  simp only [State.offKey, ht, keyOff]
  exact congrArg some (by change 2 ^ 90 + 0 * 2 ^ 52 + _ = 2 ^ 90 + 0 * 2 ^ 52 + _ + i; omega)

/-- An access of core 0x123 in use on the range. -/
def postedUse : Posted := { core := 0x123, n := 1, path := 0, pkg := 0, failed := false, uses := some 0x100000 }

theorem wit_RangeCoordinationInUse :
    let s := coordinating (rop1 .rinv [] [(8, 0x123)] .notices []) { ranged with posted := [postedUse] }
    s.usesOf s.core 0x100000 ≠ 0 := by decide +kernel

/-! ## Witnesses: guards -/

/-- A guard of 512 bytes at 0x800200 whose object stands at 0x800000. -/
def guard0 (st : CurState) : Guard :=
  { dpa := 0x800000, place := 0, rplace := 0, region := 0x800200, len := 512, hstamp := 0x800400, relcnt := 3, hcnt := 1,
    epoch := 0, steps := [], state := st, queue := [], lastX := none, bindings := [(0x123, 0)], holders := [] }

/-- That guard at its curator, with a message on its way. -/
def guarding (g : Guard) (l : List GuardMsg) (s : State) : State := { s with curators := [(0x800000, g)], gmsgs := l }

/-- A guard operation on binding 0 pending at the core in focus. -/
def guardOp (form : GuardForm) (x : BitVec 512) (st : Option Nat) (s : State) : State :=
  pendings [op7 (.guard form 0 x st false)] s

/-- It can start. -/
def guardReady (form : GuardForm) (x : BitVec 512) (st : Option Nat) (s : State) : Prop :=
  guardNext (guardOp form x st s) 7 (op7 (.guard form 0 x st false)) form 0 x st

theorem guardReady_of (form : GuardForm) (x : BitVec 512) (st : Option Nat) (s : State)
    (h : (guardOp form x st s).core.op 7 = some (op7 (.guard form 0 x st false)) ∧
      (guardOp form x st s).core.blocked (op7 (.guard form 0 x st false)) = false ∧ pendingAt (guardOp form x st s) 7 ∧
      (guardOp form x st s).core.ops.takeWhile (·.seq != 7) = [] ∧ (guardOp form x st s).heldBefore 7 = false ∧
      (guardOp form x st s).core.run ≠ .cancelled) : guardReady form x st s :=
  ⟨h.1, rfl, rfl, h.2.1, h.2.2.1, by rw [h.2.2.2.1]; simp, fun _ => h.2.2.2.2.1, h.2.2.2.2.2⟩

theorem wit_TeamReleases :
    guardReady .grel 0 none (member (holding .heldX base)) ∧ bound (member (holding .heldX base)) 0 (binding0 .heldX) ∧
    guardReady .grel 0 none (member (holding .heldS base)) ∧ bound (member (holding .heldS base)) 0 (binding0 .heldS) ∧
    (member base).core.ctl.status.ckpt = true := by
  refine ⟨guardReady_of _ _ _ _ ?_, ?_, guardReady_of _ _ _ _ ?_, ?_, ?_⟩ <;>
    (try unfold pendingAt) <;> (try unfold bound) <;> decide +kernel

theorem wit_GuardStarts :
    guardReady .gacqS 0 none base ∧ (base.core.binding 0 = none ∧ base.core.ctl.status.ckpt = false) ∧
    guardReady .gacqS 0 (some 0x3000) (holding .heldX base) ∧ bound (holding .heldX base) 0 (binding0 .heldX) ∧
    GuardForm.gacqS.permitted .heldX = false ∧
    guardReady .grel 0 none (holding .heldX base) ∧ GuardForm.grel.permitted .heldX = true ∧
    (∀ f ∈ [GuardForm.gunbind, .gacqS, .gacqX, .gtryS, .gtryX, .gflush, .gstat], f.permitted .bound = true) ∧
    bound (holding .bound base) 0 (binding0 .bound) ∧
    guardReady .gacqS 0 none (holding .bound base) ∧ guardReady .gacqX 0 none (holding .bound base) ∧
    guardReady .gtryS 0 none (holding .bound base) ∧ guardReady .gtryX 0 none (holding .bound base) ∧
    guardReady .gflush 0 none (holding .bound base) ∧ guardReady .gunbind 0 none (holding .bound base) ∧
    guardReady .gstat 0 none (holding .bound base) := by
  refine ⟨guardReady_of _ _ _ _ ?_, ?_, guardReady_of _ _ _ _ ?_, ?_, ?_, guardReady_of _ _ _ _ ?_, ?_, ?_, ?_,
    guardReady_of _ _ _ _ ?_, guardReady_of _ _ _ _ ?_, guardReady_of _ _ _ _ ?_, guardReady_of _ _ _ _ ?_,
    guardReady_of _ _ _ _ ?_, guardReady_of _ _ _ _ ?_, guardReady_of _ _ _ _ ?_⟩ <;>
    (try unfold pendingAt) <;> (try unfold bound) <;> decide +kernel

/-- The ranges of a guard object at 0x800000 and of a guarded region at 0x900200, in the table of the core in focus. -/
def guardRanges : State :=
  let a : RangeEntry := { range1 with base := 0x800000, limit := 0x900000, kind := kindSync }
  let b : RangeEntry := { range1 with base := 0x900000, limit := 0xA00000, offset := 0xFFFFFFFFFFF00000, kind := kindGuarded }
  coreAs (fun c => { c with rtab := { c.rtab with entries := [⟨a, .valid⟩, ⟨b, .valid⟩] } }) base

/-- A descriptor of `gbind` for binding 0: the guard at 0x800000, its region, a window at 0x4000 and stamps at 0x5000. -/
def bindDesc : BitVec 512 := BitVec.ofNat 512 (0x800000 + 0x900200 * 2 ^ 64 + 0x4000 * 2 ^ 128 + 0x5000 * 2 ^ 160)

theorem wit_GuardStartsBind :
    let s := guardOp .gbind bindDesc none (guarding { guard0 .idle with bindings := [] } [] guardRanges)
    guardReady .gbind bindDesc none (guarding { guard0 .idle with bindings := [] } [] guardRanges) ∧
    (match s.bindCheck bindDesc 0 tile.attach.lslim.toNat with
      | .ok b _ t0 => b == { binding0 .bound with fresh := false, regionVa := 0x900200 } && !t0.core.endedBadly && (t0.core.entry 7).state == .pending && (t0.core.entry 7).seq == 7
      | _ => false) = true ∧
    (match (guardOp .gbind 1 none guardRanges).bindCheck 1 0 0x17C000 with
      | .code n _ => n == 5
      | _ => false) = true := by
  refine ⟨guardReady_of _ _ _ _ ?_, ?_, ?_⟩ <;> (try unfold pendingAt) <;> decide +kernel

/-- A request of binding 0 of the core in focus. -/
def greq (kind : ReqKind) : GuardReq := { core := 0x123, num := 0, seq := 7, kind := kind, last := 0, lep := 0 }

theorem wit_GuardProtocol :
    (let s := guarding (guard0 .idle) [.request 0x800000 (greq .exclusive) false] (guardOp .gacqX 0 none (holding (.acquiring true) base))
     let b := binding0 (.acquiring true)
     s.guardWay (.request 0x800000 (greq .exclusive) false) = true ∧
      s.guard 0x800000 = some (guard0 .idle) ∧ bound s 0 b ∧ guardOf b = 0x800000 ∧ s.core.ctl.status.ckpt = false ∧
      s.core.endedBadly = false ∧ s.gmsgs[0]? = some (.request 0x800000 (greq .exclusive) false) ∧ s.core.thread = 0x123) ∧
    (let s := guarding (guard0 .excl) [.request 0x800000 (greq .shared) true] (guardOp .gtryS 0 (some 0x3000) (holding .bound base))
     s.guard 0x800000 = some (guard0 .excl) ∧ bound s 0 (binding0 .bound) ∧ pendingAt s 7 ∧ reportsAt s 7 (some 0x3000)) ∧
    (let g := guard0 (.shared 1)
     let s := guarding g [.forward 0x800000 (greq .shared) none] (guardOp .gacqS 0 none (holding (.acquiring false) base))
     let b := binding0 (.acquiring false)
     s.guard 0x800000 = some g ∧ bound s 0 b ∧ overlap b.window g.len b.stamps (4 * (g.len / 512)) = false ∧
      s.guardWay (.forward 0x800000 (greq .shared) none) = true ∧
      (g.wanted (greq .shared) (s.homeBlocks g)).length = 1 ∧
      s.supplyError g none (g.wanted (greq .shared) (s.homeBlocks g)) = none) ∧
    (let s := guarding (guard0 .excl) [.grant 0x800000 (greq .exclusive) 3 0 false false]
        (guardOp .gacqX 0 (some 0x3000) (holding (.acquiring true) base))
     bound s 0 (binding0 (.acquiring true)) ∧ pendingAt s 7 ∧ reportsAt s 7 (some 0x3000) ∧
      s.guardWay (.grant 0x800000 (greq .exclusive) 3 0 false false) = true) ∧
    (let g := { guard0 .excl with holders := [(0x123, 0)] }
     let s := guarding g [.release 0x800000 0x123 0 (some 7) false] (guardOp .grel 0 none (holding .heldX base))
     s.guard 0x800000 = some g ∧ bound s 0 (binding0 .heldX) ∧ g.state = .excl ∧ (s.core.thread, 0) ∈ g.holders ∧
      s.curatorWay 0x800000 0x123 = true ∧ g.queue = [] ∧
      g.relcnt.toNat < 2 ^ 32 - 1 ∧ (s.core.thread, 0) ∈ g.bindings ∧ pendingAt s 7 ∧ reportsAt s 7 none) ∧
    (let s := guarding (guard0 (.shared 1)) [.writeBack 0x800000 0x123 0 7 false] (guardOp .gflush 0 none (holding .bound base))
     s.guard 0x800000 = some (guard0 (.shared 1)) ∧ bound s 0 (binding0 .bound) ∧ (guard0 (.shared 1)).lastX = none ∧
      (guard0 (.shared 1)).bindings ≠ [] ∧ pendingAt s 7 ∧ reportsAt s 7 none) ∧
    (let g := guard0 .idle
     let s := guarding g [.unbind 0x800000 0x123 0 7] (guardOp .gunbind 0 none (holding .bound base))
     s.guard 0x800000 = some g ∧ bound s 0 (binding0 .bound) ∧ s.curatorWay 0x800000 0x123 = true ∧
      (s.core.thread, 0) ∉ g.holders ∧ g.lastX ≠ some (s.core.thread, 0) ∧ pendingAt s 7 ∧ reportsAt s 7 none) ∧
    (let g := { guard0 (.shared 1) with lastX := some (0x123, 0) }
     let s := guarding g [.writeBack 0x800000 0x123 0 7 false] (guardOp .gflush 0 none (holding .bound base))
     s.guard 0x800000 = some g ∧ bound s 0 (binding0 .bound) ∧ g.queue = [] ∧ (0x123, 0) ∉ g.holders ∧
      s.supplierCopy 0x800000 (0x123, 0) = some (s.core, binding0 .bound) ∧ s.homeWay g 0x123 = true ∧
      s.supplyError g (some (s.core, binding0 .bound)) (s.newerBlocks g 0 (s.core, binding0 .bound)) = none ∧
      inStacked g.region g.len = true ∧ inStacked g.hstamp (4 * (g.len / 512)) = true ∧
      overlap g.region g.len g.hstamp (4 * (g.len / 512)) = false ∧ (binding0 .bound).len = g.len ∧ g.len % 512 = 0) ∧
    (let m := GuardMsg.request 0x800000 (greq .shared) false
     let s := guarding (guard0 .idle) [m] (pkgAs (fun p => { p with lanes := (List.range 68).map fun i => (i, 0) })
      (holding (.acquiring false) base))
     s.gmsgs[0]? = some m ∧ s.guardWay m = false) := by
  unfold pendingAt bound reportsAt
  refine ⟨?_, ?_, ?_, ?_, ?_, ?_, ?_, ?_, ?_⟩ <;> decide +kernel

/-! ## Witnesses: launches -/

/-- A record: KHDR 0x100000, groups of `n` by `n` cores, one of them, no predecessor or successor, RECLOC 0x3000, D2SIZE 1
and the flags `f`. -/
def record (n f : Nat) : BitVec 512 :=
  BitVec.ofNat 512 (0x100000 + n * 2 ^ 64 + n * 2 ^ 72 + 2 ^ 80 + f * 2 ^ 88 + 0xFFFF * 2 ^ 112 + (2 ^ 64 - 1) * 2 ^ 128 +
    0x3000 * 2 ^ 192 + 2 ^ 224)

/-- A kernel header: ENTRY 0x1000, LSLIM 0x17C000, VLIM 32. -/
def header : BitVec 512 := BitVec.ofNat 512 (0x4B514C39 + 2 ^ 32 + 0x1000 * 2 ^ 64 + 0x17C000 * 2 ^ 96 + 32 * 2 ^ 128)

/-- Queue `n` of a priority on die 1, with records and a context buffer at 0x180000. -/
def lqueue (n prio : Nat) (l : List (BitVec 512)) : LQueue :=
  { num := n, prio := prio, weight := 1, conc := true, pid := 0, dies := 2, cap := 8, entries := 4,
    ring := 0x8000000024602000, ctxVa := 0x140000, ctxSize := 0x1A0000, msix := 0xFFFF, bay := 0, records := l, seq := 0,
    served := 0 }

/-- Launch 5 of queue 1, with one group on the core in focus. -/
def launch (f : Nat) (started : Bool) (st : LaunchState) : Launch :=
  { num := 5, queue := 1, record := record 1 f, header := header, bars := [], load := [(0x3000, [1, 2, 3])],
    groups := [{ idx := 0, die := 1, row := 2, col := 3, started := started }], state := st, status := 0, cancelled := false
    pub := [] }

/-- The package holds queues and launches, the catalogue range 1 of 2 MiB, and memory the header. -/
def hosting (qs : List LQueue) (ls : List Launch) (s : State) : State :=
  let e : RangeEntry := { range1 with limit := 0x300000 }
  lay (keyOff 0 0x100000) 64 header.toNat { s with
    pkgs := [(0, { Package.reset with queues := qs, launches := ls })], stations := [(8, [⟨e, .present, []⟩])] }

/-- The core in focus runs launch 5. -/
def onLaunch (s : State) : State := coreAs (fun c => { c with info := { c.info with num := 5 } }) s

theorem wit_LaunchAdmission :
    (let u := lqueue 1 3 [record 1 0]; let s := hosting [u] [] base; let p := s.getPkg 0;
      p.nextQueue = some (u, false) ∧ s.before 0 u.prio = false ∧ p.candidate u = some 0 ∧ u.records[0]? = some (record 1 0) ∧
      p.fits (record 1 0) (u.placeDies (record 1 0)) = true) ∧
    (let u := lqueue 1 3 [record 1 0];
      (match (hosting [u] [] base).recordCheck 0 u (record 1 0) with
        | .ok h bars pre t0 => h == header && bars == [] && !(t0.firstGroups 0 u (record 1 0)).isEmpty &&
          match t0.loadOf 0 u (record 1 0) pre with
          | .ok _ _ => true
          | _ => false
        | _ => false) = true) ∧
    (let u := lqueue 1 3 [record 16 0];
      (match (hosting [u] [] base).recordCheck 0 u (record 16 0) with
        | .ok _ _ _ t0 => (t0.firstGroups 0 u (record 16 0)).isEmpty &&
          ((hosting [u] [] base).getPkg 0).fits (record 16 0) (u.placeDies (record 16 0))
        | _ => false) = true) ∧
    (let u := lqueue 1 3 [record 16 0];
      let s : State := { hosting [u] [] base with
        pkgs := [(0, { Package.reset with queues := [u], rows := Vector.replicate 8 8 })] };
      (match s.recordCheck 0 u (record 16 0) with
        | .ok .. => !(s.getPkg 0).fits (record 16 0) (u.placeDies (record 16 0))
        | _ => false) = true) ∧
    (let u := lqueue 1 3 [record 0 0]; let s := hosting [u] [] base; let p := s.getPkg 0;
      p.nextQueue = some (u, false) ∧ p.candidate u = some 0 ∧ recordOk (record 0 0) = false) ∧
    (let u := lqueue 1 3 [record 1 0];
      (match ({ hosting [u] [] base with stations := [] } : State).recordCheck 0 u (record 1 0) with
        | .refuse c => c == 1
        | _ => false) = true) ∧
    (let u := lqueue 1 3 [record 1 0];
      (match ({ hosting [u] [] base with stations := [(8, [cat1 .changing])] } : State).recordCheck 0 u (record 1 0) with
        | .wait => true
        | _ => false) = true) := by
  decide +kernel

theorem wit_LaunchStarts :
    let l := launch 0 false .running; let q := lqueue 1 3 []; let s := hosting [q] [l] base
    let g : Group := { idx := 0, die := 1, row := 2, col := 3, started := false }
    (l.num < 2 ^ 16 ∧ g.idx < 16) ∧ (s.getPkg 0).launch l.num = some l ∧ (s.getPkg 0).queue l.queue = some q ∧
    s.stopping 0 l = false ∧ l.groups = [g] ∧ l.grows = 1 ∧ l.gcols = 1 ∧
    tileAddr 0 g.die g.row g.col = s.core.addr.toNat ∧ l.load = [] ++ [(0x3000, [1, 2, 3])] := by
  decide +kernel

/-- The core in focus runs launch 5 and has ended in a way. -/
def ending (r : RunState) : State :=
  coreAs (fun c => { c with run := r }) (onLaunch (hosting [lqueue 1 3 []] [launch 0 true .running] base))

/-- The state that the report of an OK launch leads to, if its status can be written. -/
def reported (s : State) (l : Launch) : Option State :=
  let pub := s.donePub 0 l
  ((s.releaseLaunch (l.threads 0)).modPkg 0 fun p =>
    let p1 := p.successors l.record pub
    { p1 with launches := p1.launches.filter (·.num != l.num) }).reportStatus 0 l 0 pub

theorem wit_LaunchEnds :
    (let l := launch 0 true .running; let s := ending .endedDone;
      (s.getPkg 0).launch l.num = some l ∧ s.stopping 0 l = false ∧ s.launchDone 0 l = true ∧ s.launchCode 0 l = 0 ∧
      (ending .running).launchDone 0 l = false ∧ (reported s l).isSome = true) ∧
    (let l := launch 0 true .running
     let q := { lqueue 1 3 [] with ring := 0x140000 }
     let s := coreAs (fun c => { c with run := .endedDone }) (onLaunch { hosting [q] [l] base with
      stations := [(8, [cat1 .changing])] });
      s.launchDone 0 l = true ∧ (reported s l).isNone = true) ∧
    (let l := launch 0 true .running; l.threads 0 = [(ending .halted).core.thread] ∧
      (ending .halted).anyThread (ending .halted).core.thread = some (ending .halted).core ∧
      (ending .endedFault).anyThread (ending .endedFault).core.thread = some (ending .endedFault).core) ∧
    (let s := onLaunch base; let c := s.core.addr.toNat; s.coreExists c = true ∧ isMemCore c = false ∧
      s.dieLive (pkgOf c) (dieOf c) = true ∧ (s.getPkg (pkgOf c)).powered c = true ∧ s.core.alive = true ∧
      s.core.ctl.pid = (lqueue 1 3 []).pid ∧ 0x2000 + 16 ≤ 0x17C000 ∧ s.regCore (pkgOf c) (lqueue 1 3 []) c = true ∧
      s.core.binds = Vector.replicate 8 none) := by
  decide +kernel

/-- A record of a queue of a higher level waits for die 1, where launch 5 runs with PREEMPT = 1. -/
def preempting (st : LaunchState) (r : RunState) : State :=
  coreAs (fun c => { c with run := r })
    (onLaunch (hosting [lqueue 1 3 [], lqueue 2 5 [record 16 0]] [launch 2 true st] base))

/-- Launch 5 stands pre-empted, with its context saved. -/
def preempted : State :=
  let l := { launch 2 true .preempted with queue := 1 }
  let s := hosting [lqueue 1 3 []] [l] { base with core := Core.idle 0x123 }
  { s with saved := [(threadOn 5 0x123, (preempting .running .running).core.asSaved)] }

theorem wit_PreemptionAndResume :
    (let s := preempting .running .running; let l := launch 2 true .running; let q := lqueue 1 3 []; let p := s.getPkg 0;
      p.launch l.num = some l ∧ p.queue l.queue = some q ∧ recPreempt l.record = true ∧ l.joinn = 0 ∧ s.stopping 0 l = false ∧
      (s.contextSpans 0 q l.contextNeed).isSome = true ∧ s.waitsFor 0 l = true ∧ s.core.thread ∈ l.threads 0 ∧
      s.core.alive = true ∧ l.groups ≠ [] ∧ (∀ g ∈ l.groups, g.started = true) ∧
      ∀ m ∈ p.launches, m.queue = l.queue → m.num ≠ l.num → m.state = .running) ∧
    (let s := preempting .preempting .preemptHalt; let l := launch 2 true .preempting;
      (s.getPkg 0).launch l.num = some l ∧ l.threads 0 = [s.core.thread] ∧ s.core.run = .preemptHalt) ∧
    (let s := preempted; let l := launch 2 true .preempted; let k := threadOn 5 0x123; let p := s.getPkg 0;
      p.launch l.num = some l ∧ s.stopping 0 l = false ∧ p.nextQueue = none ∧
      (l.threads 0).filter (fun j => (aget s.saved j).isSome) = [k] ∧ (aget s.saved k).isSome = true ∧
      threadCore k = s.core.addr.toNat ∧ s.coreFree (threadCore k) = true ∧ s.roomToRearm [k] = true) := by
  decide +kernel

/-- A team of one: the core in focus runs launch 5 with a checkpointed barrier of its own. -/
def teamOne (f : Team → Team) : State :=
  let b : BitVec 64 := BitVec.ofNat 64 (2 ^ 47 + 2 ^ 46 + 2 ^ 32 + 2 ^ 16 + 2 ^ 8 + 2 * 16 + 3)
  coreAs (fun c => { c with team := f c.team, ctl := { c.ctl with brect := c.ctl.brect.set 0 b } }) (member base)

theorem wit_TeamRollback :
    (let s := teamOne fun t => { t with rollback := true, recoverable := true, replayed := false };
      s.teamOf s.core = [s.core.thread] ∧ s.core.alive = true ∧ s.core.ctl.status.ckpt = true ∧
      s.core.team.rollback = true ∧ s.core.frame = none ∧ s.core.outst = none ∧ s.core.run ≠ .preemptHalt ∧
      aget s.saved s.core.thread = none ∧ s.core.gang.role = .alone ∧ s.snapError s.core = false ∧ s.core.ops = [] ∧
      s.core.binds = Vector.replicate 8 none ∧
      aget ({ s with snaps := [(s.core.thread, tile)] } : State).snaps s.core.thread = some tile) ∧
    (let s := teamOne fun t => { t with rollback := true, recoverable := false };
      s.teamOf s.core = [s.core.thread] ∧ s.core.team.recoverable = false) ∧
    (let s := teamOne fun t => { t with rollback := true, logCount := 0 }; s.core.team.logCount = 0) ∧
    (let s := teamOne fun t => { t with rollback := true, snapBad := true }; s.snapError s.core = true) := by
  decide +kernel

/-! ## Witnesses: the host, commands and resets -/

/-- Package 0 with an entry of the host's window: 4 KiB at DPA 0x100000, with or without HORD. -/
def windowed (hord : Bool) : State :=
  let e : HostEntry := { num := 0, base := 0, limit := 0x1000, offset := 0x100000, rd := true, w := true, place := 0, hord := hord }
  pkgAs (fun p => { p with hostTab := [e] }) base

/-- Queue 1, full or not. -/
def queueOne (full : Bool) : State :=
  hosting [{ lqueue 1 3 [record 1 0] with cap := if full then 1 else 8 }] [] base

theorem wit_HostAccesses :
    (base.hostLink 0 = true ∧ (slotAt base 0 3).busy = false ∧ (0x38 : Nat) % 8 = 0 ∧ 0x3F < 0x48 ∧ 0x40 < 0x3F + 2 ∧
      ¬ (0x40 < 0x38 + [(0 : Byte)].length) ∧ 0x7F + [(0 : Byte)].length ≤ 0x80 ∧ 0x3F + 4033 ≤ 4096) ∧
    (let s := pkgAs (fun p => { p with slots := p.slots.set 3 { CmdSlot.reset with busy := true } }) base;
      s.hostLink 0 = true ∧ (slotAt s 0 3).busy = true) ∧
    (base.hostAwake 0 = true ∧ base.hostWrites = [] ∧ (base.getPkg 0).queue 1 = none) ∧
    (let s := queueOne false; s.hostAwake 0 = true ∧ s.hostWrites = [] ∧
      ((s.getPkg 0).queue 1).any (fun u => decide (u.records.length < u.cap ∧ u.pid = BitVec.ofNat 16 0)) = true) ∧
    (let s := queueOne true; s.hostAwake 0 = true ∧
      ((s.getPkg 0).queue 1).any (fun u => decide (u.cap ≤ u.records.length)) = true) ∧
    (let s := windowed false; s.hostAwake 0 = true ∧ s.hostWrites = [] ∧ (s.hostFind 0 0x40 8 false).isSome = true ∧
      (s.hostFind 0 0x40 8 true).any (fun x => !x.1.hord && x.2 == 0x100040) = true ∧ s.hostFind 0 0x2000 8 false = none ∧
      s.offKey 0x100040 0 = some (keyOff 0 0x100040) ∧ s.poisonHit (keyOff 0 0x100040) 8 = false) ∧
    (let s := windowed true; (s.hostFind 0 0x40 8 true).any (fun x => x.1.hord && x.2 == 0x100040) = true) ∧
    (let w : HostWrite := { pkg := 0, svc := 0, hord := true, place := 0, dpa := 0x100040, data := [1] };
      ({ windowed true with hostWrites := [w] } : State).hostWrites = [w] ∧ w.pkg = 0 ∧
      ({ windowed true with hostWrites := [w] } : State).offKey w.dpa w.place = some (keyOff 0 0x100040)) := by
  decide +kernel

/-- Slot `k` has taken a descriptor, of a process. -/
def slotted (k : Fin 16) (pid : BitVec 16) (x : BitVec 512) (s : State) : State :=
  s.modPkg 0 fun p => { p with
    slots := p.slots.set k.val { CmdSlot.reset with busy := true, pid := pid, taken := x } k.isLt }

/-- A descriptor of command `code` with words of eight bytes from byte 8 up. -/
def desc (code : Nat) (l : List Nat) : BitVec 512 :=
  BitVec.ofNat 512 (code + ((List.range l.length).map fun i => l.getD i 0 * 2 ^ (64 * (i + 1))).sum)

/-- QCREATE of queue 1: priority 3, weight 1, die 0, PID 9, CAP 1, a ring of one entry at 0x1000. -/
def qcreate1 : BitVec 512 := desc 1 [1 + 3 * 2 ^ 16 + 2 ^ 24 + 2 ^ 40 + 9 * 2 ^ 48, 1 + 2 ^ 16, 0x1000, 0, 0, 0xFFFF]

/-- A launch of queue 1 stands in package 0. -/
def launched : State := hosting [{ lqueue 1 3 [] with pid := 9 }] [launch 0 true .running] base

theorem wit_QueueCreation :
    (let s := slotted 8 9 qcreate1 base; holdsCmd s 0 8 1 qcreate1 ∧ qcreateOk qcreate1 = true ∧
      actsFor s 0 8 (newQueue qcreate1).pid ∧ (newQueue qcreate1).prio < 32 ∧ (s.getPkg 0).queue (newQueue qcreate1).num = none) ∧
    (let s := slotted 8 4 qcreate1 base; holdsCmd s 0 8 1 qcreate1 ∧ ¬ actsFor s 0 8 (newQueue qcreate1).pid) ∧
    (let s := slotted 0 0 qcreate1 (queueOne false); holdsCmd s 0 0 1 qcreate1 ∧
      ((s.getPkg 0).queue (newQueue qcreate1).num).isSome = true) ∧
    (holdsCmd (slotted 0 0 (desc 1 [0]) base) 0 0 1 (desc 1 [0]) ∧ qcreateOk (desc 1 [0]) = false) := by
  unfold holdsCmd; try unfold actsFor
  decide +kernel

theorem wit_QueueRemoval :
    (let s := slotted 8 9 (desc 2 [1]) launched; holdsCmd s 0 8 2 (desc 2 [1]) ∧ actsFor s 0 8 9 ∧
      ((s.getPkg 0).launches.any fun (l : Launch) => l.queue == 1) = true) ∧
    (let s := slotted 8 4 (desc 2 [1]) launched; holdsCmd s 0 8 2 (desc 2 [1]) ∧ ¬ actsFor s 0 8 9) ∧
    (let s := slotted 8 9 (desc 2 [1]) (hosting [{ lqueue 1 3 [] with pid := 9 }] [] base); holdsCmd s 0 8 2 (desc 2 [1]) ∧
      ((s.getPkg 0).queue 1).any (fun u => u.records.isEmpty && u.pid == 9) = true ∧ (s.getPkg 0).launches = []) ∧
    (holdsCmd (slotted 8 9 (desc 2 [1]) base) 0 8 2 (desc 2 [1]) ∧ (base.getPkg 0).queue 1 = none) := by
  unfold holdsCmd; try unfold actsFor
  decide +kernel

theorem wit_CountersAndCancel :
    (let x := desc 3 [5 + 7 * 2 ^ 16 + 9 * 2 ^ 32]; let s := slotted 8 9 x base; holdsCmd s 0 8 3 x ∧ actsFor s 0 8 9 ∧
      ((s.getPkg 0).counter 5).owner = 0) ∧
    (let x := desc 3 [5 + 7 * 2 ^ 16 + 4 * 2 ^ 32]; let s := slotted 8 9 x base; holdsCmd s 0 8 3 x ∧ ¬ actsFor s 0 8 4) ∧
    (let s := slotted 8 9 (desc 4 [5]) launched; holdsCmd s 0 8 4 (desc 4 [5]) ∧ actsFor s 0 8 9 ∧
      (s.getPkg 0).launch 5 = some (launch 0 true .running) ∧ (launch 0 true .running).status = 0 ∧
      ((s.getPkg 0).queue 1).isSome = true) ∧
    (holdsCmd (slotted 8 9 (desc 4 [5]) base) 0 8 4 (desc 4 [5]) ∧ (base.getPkg 0).launch 5 = none) ∧
    (let s := slotted 3 0 (desc 11 []) base; (slotAt s 0 3).busy = true ∧ (slotAt s 0 3).taken = desc 11 [] ∧
      10 < bytesAt (desc 11 []) 0 1) := by
  unfold holdsCmd; try unfold actsFor
  decide +kernel

/-- MWIN of entry 2: 4 KiB at 0x10000 of the window, DPA 0x110000, read and write. -/
def mwin2 : BitVec 512 := desc 8 [0x10000, 0x11000, 0x100000, 3 + kindIo.toNat * 2 ^ 8 + 2 * 2 ^ 16]

theorem wit_PackageWindows :
    (holdsCmd (slotted 0 0 (desc 5 [0x8000]) base) 0 0 5 (desc 5 [0x8000]) ∧ 0x8000 + 0x4000 ≤ 2 ^ 64 ∧
      bytesAt (desc 5 [0x8000]) 0x08 8 = 0x8000 ∧ bytesAt (desc 5 [0x8000]) 0x10 3 = 0) ∧
    (holdsCmd (slotted 0 0 (desc 6 [12345]) base) 0 0 6 (desc 6 [12345])) ∧
    (holdsCmd (slotted 0 0 (desc 7 [0x3000]) base) 0 0 7 (desc 7 [0x3000]) ∧
      holdsCmd (slotted 0 0 (desc 7 [0x3001]) base) 0 0 7 (desc 7 [0x3001])) ∧
    (holdsCmd (slotted 0 0 mwin2 base) 0 0 8 mwin2 ∧ bytesAt mwin2 0x22 1 = 2 ∧ bytesAt mwin2 0x10 8 ≠ 0 ∧
      hostEntryOk 0 mwin2 = true ∧ (base.getPkg 0).hostTab = []) ∧
    (let x := desc 8 [0, 0, 0, 2 * 2 ^ 16]; holdsCmd (slotted 0 0 x base) 0 0 8 x ∧ bytesAt x 0x10 8 = 0) ∧
    (let x := desc 8 [0x10000, 0x11000]; holdsCmd (slotted 0 0 x base) 0 0 8 x ∧ hostEntryOk 0 x = false) := by
  unfold holdsCmd; decide +kernel

theorem wit_ScaleOutSlots :
    (let x := desc 9 [7 + 5 * 2 ^ 16, 0, 0, 9]; holdsCmd (slotted 0 0 x base) 0 0 9 x ∧ bytesAt x 0x0A 1 = 5 ∧
      bytesAt x 0x23 1 = 0) ∧
    (let x := desc 9 [7 + 1 * 2 ^ 16]; holdsCmd (slotted 0 0 x base) 0 0 9 x ∧ bytesAt x 0x0A 1 = 1) := by
  unfold holdsCmd; decide +kernel

theorem wit_PackageStates :
    (let x := desc 10 [1]; let s := slotted 0 0 x base; holdsCmd s 0 0 10 x ∧
      ((s.getPkg 0).stateCmd x).any (fun c => !s.stateRefused 0 c && !s.stateBusy 0 c && c.sec == .sealed) = true ∧
      (s.getPkg 0).power ≠ .packageSleep) ∧
    (let x := desc 10 [2]; let s := slotted 0 0 x base; holdsCmd s 0 0 10 x ∧
      ((s.getPkg 0).stateCmd x).any (fun c => s.stateRefused 0 c) = true) ∧
    (let x := desc 10 [1]; let s := slotted 0 0 x launched; holdsCmd s 0 0 10 x ∧
      ((s.getPkg 0).stateCmd x).any (fun c => !s.stateRefused 0 c && s.stateBusy 0 c) = true) ∧
    (let x := desc 10 [3]; holdsCmd (slotted 0 0 x base) 0 0 10 x ∧ (base.getPkg 0).stateCmd x = none) ∧
    (let s := slotted 8 9 (desc 7 [0]) base; (slotAt s 0 8).busy = true ∧ bytesAt (slotAt s 0 8).taken 0 1 = 7) := by
  unfold holdsCmd; decide +kernel

theorem wit_ResetEvents :
    (base.getPkg 0).diePresent.getLsbD 1 = true ∧ base.dieLive 0 1 = true ∧
    (let s := pkgAs (fun p => { p with dieReset := 2 }) base; (s.getPkg 0).diePresent.getLsbD 1 = true ∧
      s.dieLive 0 1 = false ∧ s.core.addr.toNat ∈ dieTiles 0 1) ∧
    (base.getPkg 0).gateways.getLsbD 3 = true ∧
    (let s := coreAs (fun _ => Core.idle 0x400000) base; s.others = [] ∧ s.core.addr.toNat ∈ stackCores 0 0 ∧
      s.coreExists s.core.addr.toNat = true ∧ s.core.run = .idle ∧ s.core.calls = [] ∧ s.core.info.call = none ∧
      (s.getPkg 0).stackPresent.getLsbD 0 = true ∧
      channelMap (s.getPkg 0).repaired 0 = channelMap ((s.getPkg 0).repairStack 0).repaired 0) ∧
    (base.getPkg 0).failed.contains (.gateway 3) = false := by
  decide +kernel

theorem wit_DebuggerAccess :
    let s := coreAs (fun c => { c with run := .haltDebug }) (pkgAs (fun p => { p with debug := .halt }) base)
    s.core.run = .haltDebug ∧ (s.getPkg (pkgOf s.core.addr.toNat)).debug = .halt ∧
      (s.getPkg (pkgOf s.core.addr.toNat)).security = .opened := by decide +kernel

/-! ## Witnesses: the step, decoding and memory -/

/-- The word of `add g3, g1, g2` stands at the pc. -/
def ready : State := lay (keyLocal 0x123 0x1000) 4 0x04611000 base

theorem fetches_of (s : State) (h : (s.core.run = .running ∧ s.core.frame = none ∧ s.core.outst = none ∧
    s.launchStops = none ∧ s.core.rollsBack = false ∧ s.core.team.committed = [] ∧ s.atBoundary.isNone = true ∧
    s.pastYield.membersLag = false) ∧ s.core.gang.role = .alone) : fetches s :=
  ⟨h.1.1, h.1.2.1, h.1.2.2.1, h.1.2.2.2.1, h.1.2.2.2.2.1, h.1.2.2.2.2.2.1, Option.isNone_iff_eq_none.mp h.1.2.2.2.2.2.2.1,
    fun _ _ e => by simp [h.2] at e, h.1.2.2.2.2.2.2.2⟩

theorem wit_StepRunsDecoded :
    fetches ready ∧ ready.pastYield.fetchCheck ready.pc.toNat = none ∧
    (ready.pastYield.fetchWord ready.pc.toNat).1 = 0x04611000 ∧ ready.core.gang.role = .alone ∧ ready.core.fbuf = none ∧
    ready.decodeHere 0x04611000 = some (.add 3 1 2) ∧ base.decodeHere 0 = none ∧ base.sched = [] ∧
    base.coreExists 0x123 = true ∧
    ({ base with sched := [.upset (.corrected 0x123), .pass 5 7] } : State).sched = [.upset (.corrected 0x123), .pass 5 7] :=
  ⟨fetches_of _ (by decide +kernel), by decide +kernel⟩

/-- The pc stands where nothing may be fetched. -/
def unready : State := coreAs (fun c => { c with regs := { c.regs with pc := 0x17F400 } }) base

theorem wit_StepRunsDecodedRefused : fetches unready ∧ (unready.pastYield.fetchCheck unready.pc.toNat).isSome = true :=
  ⟨fetches_of _ (by decide +kernel), by decide +kernel⟩

theorem wit_DecodeEncode : (Instr.add 3 1 2).wf = true ∧ encode (.add 3 1 2) = some 0x04611000 ∧
    decode? 0x04611000 = some (.add 3 1 2) := by decide +kernel

theorem wit_MemoryFormKept : (State.reset.mem.wf = true) ∧
    (match step ready with
      | .next t => t.g 3 == 0
      | _ => false) = true := by decide +kernel

theorem wit_EveryStepGoesOn : ready.mayStep = true ∧
    ({ base with sched := [.core 0x7FFFFF] } : State).mayStep = false := by decide +kernel

/-- Two guards with a last exclusive holder, one in the curator's package and one in a package of pod 1. -/
def lastHeld : State :=
  let g : Guard := { guard0 .idle with relcnt := 5, hcnt := 3 }
  { base with curators := [(0x200000, { g with lastX := some (threadOn 5 0x123, 2) }),
    (0x200030, { g with lastX := some (2 ^ 16, 2) })] }

theorem wit_LinkEvents :
    ((67 : Nat) < 68 ∧ (127 : Nat) < 128 ∧ (3 : Nat) < 4 ∧ (255 : Nat) < 256) ∧
    (let s := lastHeld; s.reaches 0 (pkgOf (threadCore (threadOn 5 0x123))) = true ∧
      (s.guard 0x200000).any (fun g => g.lastX.isSome) = true ∧ (s.guard 0x200030).any (fun g => g.lastX.isSome) = true) ∧
    (let s := after (.pathDown 0 1 3) (after (.pathDown 0 1 2) (after (.pathDown 0 1 1) lastHeld));
      s.reaches 0 16 = true ∧ (after (.pathDown 0 1 0) s).reaches 0 16 = false) := by decide +kernel

/-! ## Witnesses: further clauses -/

/-- The forms that a team member may not execute, each behind its own checks. -/
theorem wit_TeamTraps :
    (let s := member operands; s.core.ctl.status.ckpt = true ∧ s.core.outst = none ∧ readFailure s (un s 1) 64 = none ∧
      localFailure s (un s 2) 8 = none ∧ isMemCore s.core.addr.toNat = false ∧ s.core.gang.role = .alone) ∧
    (let s := member (gs [(1, 7)] base); un s 1 < 8 ∧ s.core.ctl.status.ckpt = true) ∧
    (let s := member (gs [(1, 0x2000), (2, 3)] base); un s 2 ≤ 3 ∧ engineFailure s (un s 1) 2048 64 = none) ∧
    (let s := member (gs [(5, 0x4000000000000000 + 0x124 * 0x200000 + 0x3000)] copying)
     s.copyCheck (s.copyRequest .cpy 1) = none ∧ (s.copyRequest .cpy 1).dkind = 2 ∧ s.core.ctl.status.ckpt = true) ∧
    (let s := coreAs (fun c => { c with team := { c.team with outbuf := [.grel 0 []] } }) (member base)
     s.core.gang.role = .alone ∧ s.core.team.outbuf ≠ [] ∧ s.core.ctl.status.ckpt = true) ∧
    isMemCore loader.core.addr.toNat = true := by decide +kernel

/-- Slot 5 of the ring holds an error, and DRSEL names it. -/
def ringBroken : State :=
  coreAs (fun c => { c with ringBad := 0x20, ctl := { c.ctl with drsel := 5 } }) (mode true true base)

theorem wit_ControlRegisterRefusals :
    ¬ slotIntact ringBroken 0x02A ∧ ringBroken.priv = true ∧ slotIntact base 0x02A ∧
    (let s := gs [(1, 1)] base; s.priv = false ∧ changesPriv s (s.g 1)) ∧
    (let s := gs [(1, 0x50)] base; ¬ changesPriv s (s.g 1) ∧ 5 ≤ ((s.g 1).extractLsb' 4 3).toNat) := by
  unfold slotIntact changesPriv
  refine ⟨by decide +kernel, by decide +kernel, by decide +kernel, ⟨by decide +kernel, 0, by decide, by decide +kernel⟩, ?_, by decide +kernel⟩
  rintro ⟨k, rfl | rfl | rfl | rfl | rfl, h⟩ <;> exact absurd h (by decide +kernel)

theorem wit_HaltDebug : let s := mode true false (pkgAs (fun p => { p with debug := .halt }) base)
    s.priv = true ∧ s.core.gang.role = .alone ∧ s.core.ops = [] ∧ s.core.anyPending = false ∧
      s.core.binds = Vector.replicate 8 none ∧ s.core.preemptsHere = false ∧ s.core.rollsBackHere = false ∧
      (s.getPkg (pkgOf s.core.addr.toNat)).debug = .halt := by decide +kernel

/-- A message of a narrow format that was sent under the other TOPX. -/
def narrow (v : Bool) : Msg := { msg1 v with nt := true, topx := true }

theorem wit_MessageFormats :
    (∀ v, let s := coreAs (fun c => { c with msgs := { c.msgs with queue := [narrow v] } }) base
      channelOk s 1 ∧ (s.core.channel 1).head? = some (narrow v) ∧ (narrow v).nt = true ∧
        (narrow v).topx ≠ s.core.ctl.status.topx) ∧
    (let s := coreAs (fun c => { c with team := { c.team with outbuf := List.replicate 2047 (.grel 0 []) } })
        (member (gs [(1, 0x124)] base))
     un s 1 < 2 ^ 23 ∧ s.core.outFree < 32 ∧ overLimit s [2] = none) := by
  unfold channelOk; decide +kernel

theorem wit_TaskRefusals :
    (let s : State := { base with ordered := [ordered1] }; quiet s ∧ s.holdsOrdered = true) ∧
    (let s := gs [(1, 0x20), (2, 1023)] base; un s 2 < 1024 ∧ un s 1 % 64 ≠ 0) ∧
    (let s := pkgAs (fun p => { p with counters := [{ idx := 0, value := 3, owner := 9, pub := [] }] }) base
     un s 1 < 2 ^ 16 ∧ s.priv = false ∧ ((s.getPkg 0).counter (un s 1)).owner ≠ s.core.ctl.pid) ∧
    (let s := launching [0]; (s.getPkg 0).queue (un s 2) = some (queue1 [0]) ∧ s.core.ctl.status.ckpt = false) := by
  unfold quiet
  refine ⟨by decide +kernel, by decide +kernel, by decide +kernel, by decide +kernel⟩

/-- A matrix unit of the die of the core in focus has failed, that of its cluster. -/
def unitBroken : State :=
  let s := stepRuns false
  { s with pkgs := [(0, { Package.reset with failed := [.unit 1 (Package.reset.physUnit 1 (clusterOf 0x123))] })] }

/-- A step of the cluster uses table 3. -/
def tableBusy : State :=
  let b : OperandBuf := { data := [], scales := [], fmt := 9, mx := false, k := 16, table := 3 }
  let s := stepRuns false
  coreAs (fun c => { c with mtx := { c.mtx with run := some { run1 false with bufA := some b } } }) s

theorem wit_FailedUnits : unitBroken.unitFails 0x123 = true ∧ (stepRuns false).unitFails 0x123 = false ∧
    unitBroken.core.accBad.getLsbD 5 = false ∧ pendingAt unitBroken 7 := by
  unfold pendingAt; decide +kernel

theorem wit_TableInUse : tableBusy.tableInUse (unitOf 0x123) 3 = true := by decide +kernel

theorem wit_StationRefusals :
    (let s := coreAs (fun c => { c with rtab := { c.rtab with miss := some 0x300040, notFound := true } })
        (gs [(1, 0x300040)] base)
     s.core.outst = none ∧ s.core.heldWindow (s.g 1 + s.g 0).toNat 8 = none ∧ (s.g 1 + s.g 0).toNat < 2 ^ 60 ∧
      s.core.tableFind (s.g 1 + s.g 0).toNat = none ∧ s.core.rtab.miss = some (s.g 1 + s.g 0)) ∧
    (let s := ranging .rsplit 0x140000 0 [cat1 .present]
     rangeNext s (opRange .rsplit 0x140000 0) .rsplit 0x140000 0 0x3000 ∧ foundAt s 0x140000 = [cat1 .present] ∧
      s.rangeFull 0 0 [range1] [range1, range1] = false ∧ s.rangeBound 0 .rsplit range1 = false ∧ s.rops = []) ∧
    (let e : RangeEntry := { range1 with base := 0x200000, limit := 0x300000 }
     let s := ranging .rmerge 0x100040 0 [cat1 .present, { cat1 .present with entry := e }]
     rangeNext s (opRange .rmerge 0x100040 0) .rmerge 0x100040 0 0x3000 ∧ foundAt s 0x100040 = [cat1 .present] ∧
      ((s.catalogue (stationOf 0x123)).find? fun (w : CatEntry) => w.entry.pid == 0 && w.entry.base == 0x200000) =
        some { cat1 .present with entry := e } ∧
      ({ range1 with limit := 0x300000 } : RangeEntry).wf s.getPkg = true) ∧
    (let x : BitVec 512 := BitVec.ofNat 512 (2 ^ 256)
     let s := ranging .rres 0x100040 x [cat1 .present]
     rangeNext s (opRange .rres 0x100040 x) .rres 0x100040 x 0x3000 ∧ blockReserved x 0x20 = true ∧
      (x.extractLsb' 256 64) ≠ range1.resmap) ∧
    (let x : BitVec 512 := BitVec.ofNat 512 (0x300000 * 2 ^ 128)
     let s := ranging .rcompact 0x100040 x [cat1 .present]
     rangeNext s (opRange .rcompact 0x100040 x) .rcompact 0x100040 x 0x3000 ∧ blockReserved x 0x10 = true ∧
      ({ range1 with offset := 0x200000 } : RangeEntry).wf s.getPkg = true) := by
  unfold rangeNext pendingAt
  refine ⟨?_, ?_, ?_, ?_, ?_⟩ <;> decide +kernel

/-- A team member's release has its place in the outbound buffer. -/
theorem wit_TeamReleasePlaces :
    (coreAs (fun c => { c with team := { c.team with outbuf := [.grel 1 [], .place 7] } }) (member base)).core.team.outbuf =
      [.grel 1 []] ++ .place 7 :: [] ∧ OutOp.place 7 ∉ [OutOp.grel 1 []] ∧ OutOp.place 7 ∉ ([] : List OutOp) ∧
    (binding0 .bound).state ≠ .heldX ∧ (binding0 .bound).state ≠ .heldS := by decide

theorem wit_SettledContext : (preempting .preempting .preemptHalt).settledSync (preempting .preempting .preemptHalt).core = true ∧
    (∀ u f, (preempted.getPkg 0).nextQueue = some (u, f) → u.prio ≤ (preempted.getPkg 0).prioOf (launch 2 true .preempted)) := by
  refine ⟨by decide +kernel, fun u f h => ?_⟩
  have h0 : (preempted.getPkg 0).nextQueue = none := by decide +kernel
  rw [h0] at h; cases h

theorem wit_CopyWaits :
    (let s := fullEngine; s.core.blocked (op7 (.copy own1)) = false ∧ s.orderedBefore s.core.thread (op7 (.copy own1)) = false) ∧
    (let s := copyRuns own1 false { besides with others := [(0x122, { (copyRuns own1 false besides).core with addr := 0x122 })] }
     s.engineTurn = false) := by decide +kernel

theorem wit_ExchangeErrors :
    (let s : State := { planned with poison := [⟨keyLocal 0x123 0x8008, 4⟩] }
     s.core.sync.phase = none ∧ (s.planError s.core.commRects 0).isSome = true) ∧
    (let s : State := { exchanging phase1 with poison := [⟨keyLocal 0x123 0x8080, 4⟩] }
     s.clk < phase1.t0 + phase1.length ∧ (s.slotError phase1 false 4).isSome = true) := by decide +kernel

/-- A die of the core in focus that runs is reset with no other core listed. -/
theorem wit_ResetOfOwnDie : base.others = [] ∧ base.core.addr.toNat ∈ dieTiles 0 1 ∧
    base.coreExists base.core.addr.toNat = true ∧ base.dieLive 0 1 = true ∧ (base.getPkg 0).diePresent.getLsbD 1 = true := by
  decide +kernel

/-- A core that has not stopped is hidden from a debugger; whether a token hides one is open. -/
theorem wit_DebuggerHidden : let s := pkgAs (fun p => { p with debug := .halt }) base
    (s.getPkg (pkgOf s.core.addr.toNat)).debug = .halt ∧ s.core.run ≠ .haltDebug := by decide +kernel

end Sys2Proof.Tests
end

section

/-! ## Every step keeps the canonical form of memory

`State.memOk` holds of what each function of the model gives when it holds of the state that the function is given. Most
functions leave memory alone or only write through the operations of `Memory`, which keep the form (the laws of memory);
each lemma below says so of one function, and its proof cites the lemmas of the functions that it calls.

Where a function matches on what a long computation gives, `unfold` would leave the kernel an equation whose sides it
evaluates; there the definition is put in place as it stands (`delta%`), or the computation gets a name of its own first
(`obtain ⟨r, hr⟩ : ∃ r, … = r`). -/

namespace Sys2Proof.Machine

/-! ### The form, of a state, of an outcome and of the results that carry a state -/

@[simp] theorem State.memOk_mk {c : Core} {ot sv sn en : List (Nat × Core)} {m : Memory} {po : List Span} {ck ns tk : Nat}
    {sc : List Turn} {pk : List (Nat × Package)} {st : List (Nat × List CatEntry)} {ro : List RangeOp}
    {cu : List (Nat × Guard)} {gm : List GuardMsg} {un : List (Nat × MtxUnit)} {eg : List (Nat × Engine)}
    {tr : List (Nat × List Trigger)} {me : List Msg} {ev : List EvMsg} {ps : List Post} {be : List Beat}
    {fo : List (Nat × Nat)} {pd : List Posted} {od : List OrdStore} {hw : List HostWrite} {o : Order}
    {cp : List (Nat × Nat)} :
    State.memOk ⟨c, ot, sv, sn, en, m, po, ck, ns, tk, sc, pk, st, ro, cu, gm, un, eg, tr, me, ev, ps, be, fo, pd, od,
      hw, o, cp⟩ ↔ m.wf = true := Iff.rfl

/-- A next state, if the outcome has one, has its memory in the canonical form. -/
def outOk (o : Out) : Prop := ∀ t, o = .next t → t.memOk

@[simp] theorem outOk_next {t : State} : outOk (.next t) ↔ t.memOk :=
  ⟨fun h => h t rfl, fun h _ e => by cases e; exact h⟩

theorem foldl_memOk {α : Type} {g : State → α → State} (hg : ∀ u x, u.memOk → (g u x).memOk) (l : List α)
    {s : State} (h : s.memOk) : (l.foldl g s).memOk := by
  induction l generalizing s with
  | nil => exact h
  | cons x l ih => exact ih (hg s x h)

theorem outOk_next_of {t : State} (h : t.memOk) : outOk (.next t) := outOk_next.mpr h

/-- The outcome of a write, or the state that goes on without it. -/
theorem getD_memOk {o : Option State} (ho : ∀ t, o = some t → t.memOk) {s : State} (h : s.memOk) :
    (o.getD s).memOk := by
  cases o with
  | none => exact h
  | some t => exact ho t rfl

theorem outOk_andThen {o : Out} (h : outOk o) {f : State → State} (hf : ∀ u, u.memOk → (f u).memOk) :
    outOk (andThen o f) := by
  intro t e
  cases o with
  | next u => cases e; exact hf u (h u rfl)
  | fault r => cases e
  | refused r => cases e

/-- What a write made, followed by a change that keeps the form, or the state that goes on without it. -/
theorem written_memOk {o : Option State} (ho : ∀ t, o = some t → t.memOk) {f : State → State}
    (hf : ∀ u, u.memOk → (f u).memOk) {s : State} (h : s.memOk) (b : Bool) :
    ((if b then none else o.map f).getD s).memOk := by
  cases b with
  | true => exact h
  | false =>
    cases o with
    | none => exact h
    | some t => exact hf t (ho t rfl)

/-- What a translation leaves has its memory in the canonical form. -/
def XlatRes.memOk : XlatRes → Prop
  | .ok _ s => s.memOk
  | .wait s => s.memOk
  | .fault _ s => s.memOk

/-- What the checks of an access leave has its memory in the canonical form. -/
def AccRes.memOk : AccRes → Prop
  | .ok _ s => s.memOk
  | .wait s => s.memOk
  | .fault _ s => s.memOk

/-- What resolving a side of a copy leaves has its memory in the canonical form. -/
def SideRes.memOk : SideRes → Prop
  | .wait s => s.memOk
  | .ok _ _ s => s.memOk

/-- What resolving both sides of a copy leaves has its memory in the canonical form. -/
def SidesRes.memOk : SidesRes → Prop
  | .wait s => s.memOk
  | .ok _ _ _ s => s.memOk

/-- What the checks of a binding leave has its memory in the canonical form. -/
def BindRes.memOk : BindRes → Prop
  | .code _ s => s.memOk
  | .fault _ s => s.memOk
  | .wait s => s.memOk
  | .ok _ _ s => s.memOk

/-- What a registrar's read leaves, if it goes through, has its memory in the canonical form. -/
def RegRes.memOk {α : Type} : RegRes α → Prop
  | .ok _ s => s.memOk
  | _ => True

/-- What the checks of a record leave, if they pass, has its memory in the canonical form. -/
def RecRes.memOk : RecRes → Prop
  | .ok _ _ _ s => s.memOk
  | _ => True

theorem foldl_wf {α : Type} {g : Memory → α → Memory} (hg : ∀ m x, m.wf = true → (g m x).wf = true) (l : List α)
    {m : Memory} (h : m.wf = true) : (l.foldl g m).wf = true := by
  induction l generalizing m with
  | nil => exact h
  | cons x l ih => exact ih (hg m x h)

/-- What a command answers leaves memory in its canonical form when the state had it. -/
def cmdOk (r : CmdRes) : Prop := ∀ t, t.memOk → (r.2 t).memOk

theorem cmdRefuse_memOk (code : Nat) : cmdOk (cmdRefuse code) := fun _ h => h

theorem cmdOk_ite {p : Prop} [Decidable p] {a b : CmdRes} (ha : cmdOk a) (hb : cmdOk b) :
    cmdOk (if p then a else b) := by
  split
  · exact ha
  · exact hb

/-- An event that keeps the canonical form of memory. -/
def keepsMem (f : State → Out) : Prop := ∀ s, s.memOk → outOk (f s)

/-- Events that each keep the canonical form of memory. -/
def eventsOk (l : List (State → Out)) : Prop := ∀ f ∈ l, keepsMem f

theorem eventsOk_nil : eventsOk [] := fun _ hf => absurd hf List.not_mem_nil

theorem eventsOk_cons {f : State → Out} {l : List (State → Out)} (hf : keepsMem f) (hl : eventsOk l) :
    eventsOk (f :: l) := List.forall_mem_cons.mpr ⟨hf, hl⟩

theorem eventsOk_one {f : State → Out} (hf : keepsMem f) : eventsOk [f] := eventsOk_cons hf eventsOk_nil

theorem eventsOk_append {l r : List (State → Out)} (hl : eventsOk l) (hr : eventsOk r) : eventsOk (l ++ r) :=
  List.forall_mem_append.mpr ⟨hl, hr⟩

theorem eventsOk_map {α : Type} {f : α → State → Out} (hf : ∀ a, keepsMem (f a)) (l : List α) : eventsOk (l.map f) :=
  List.forall_mem_map.mpr fun a _ => hf a

theorem eventsOk_flatMap {α : Type} {f : α → List (State → Out)} (hf : ∀ a, eventsOk (f a)) (l : List α) :
    eventsOk (l.flatMap f) := fun g hg => by
  obtain ⟨a, _, ha⟩ := List.mem_flatMap.mp hg
  exact hf a g ha

theorem eventsOk_ite {p : Prop} [Decidable p] {a b : List (State → Out)} (ha : eventsOk a) (hb : eventsOk b) :
    eventsOk (if p then a else b) := by
  split
  · exact ha
  · exact hb

section

variable {s : State} (h : s.memOk)
include h

/-! ### Shared operations -/

theorem State.on_memOk (f : Core → Core) : (s.on f).memOk := h

omit h in
theorem State.withMem_memOk {s : State} {f : Memory → Memory} (h : (f s.mem).wf = true) : (s.withMem f).memOk :=
  h

theorem State.focus_memOk (c : Nat) : (s.focus c).memOk := by
  unfold State.focus
  split
  · exact h
  · exact h

theorem State.at_memOk (c : Nat) {f : State → State} (hf : ∀ u, u.memOk → (f u).memOk) : (s.at c f).memOk := by
  unfold State.at; exact State.focus_memOk (hf _ (State.focus_memOk h c)) _

theorem State.modCore_memOk (c : Nat) (f : Core → Core) : (s.modCore c f).memOk := by
  unfold State.modCore
  split
  · exact State.on_memOk h _
  · exact h

theorem State.atThread_memOk (k : Nat) {f : State → State} (hf : ∀ u, u.memOk → (f u).memOk) :
    (s.atThread k f).memOk := by
  unfold State.atThread
  split
  · exact State.at_memOk h _ hf
  · split
    · exact h
    · exact State.memOk_mk.mpr (hf _ (State.memOk_mk.mpr h))

theorem State.fresh_memOk : (s.fresh).2.memOk := h

theorem State.modPkg_memOk (p : Nat) (f : Package → Package) : (s.modPkg p f).memOk := h

theorem State.modEngine_memOk (eng : Nat) (f : Engine → Engine) : (s.modEngine eng f).memOk := h

theorem State.setG_memOk (i : BitVec 5) (x : Word) : (s.setG i x).memOk := State.on_memOk h _

theorem State.setV_memOk (i : BitVec 5) (x : VReg) : (s.setV i x).memOk := State.on_memOk h _

theorem State.setM_memOk (i : BitVec 3) (x : Word) : (s.setM i x).memOk := State.on_memOk h _

theorem State.setPc_memOk (a : LAddr) : (s.setPc a).memOk := State.on_memOk h _

theorem State.adv_memOk : s.adv.memOk := State.setPc_memOk h _

theorem State.setFlags_memOk (f : BitVec 6) : (s.setFlags f).memOk := State.on_memOk h _

theorem State.waiting_memOk (w : WaitState) : (s.waiting w).memOk := State.on_memOk h _

theorem State.resumed_memOk : s.resumed.memOk := State.on_memOk h _

theorem State.tellLeave_memOk (g : GangStep) (l : List (Nat × Nat)) : (s.tellLeave g l).memOk := by
  induction l generalizing s with
  | nil =>
    unfold State.tellLeave
    exact h
  | cons x l ih =>
    unfold State.tellLeave
    exact ih (State.modCore_memOk h _ _)

theorem State.leaveGangBy_memOk (g : GangStep) : (s.leaveGangBy g).memOk := by
  unfold State.leaveGangBy
  dsimp only
  split
  · exact h
  · exact State.on_memOk (State.modCore_memOk h _ _) _
  · exact State.on_memOk (State.tellLeave_memOk h _ _) _

theorem State.leaveGang_memOk : s.leaveGang.memOk := State.leaveGangBy_memOk h _

theorem State.withdrawFollow_memOk : s.withdrawFollow.memOk := State.memOk_mk.mpr (State.on_memOk h _)

theorem State.doubleTrap_memOk (cause : BitVec 8) : (s.doubleTrap cause).memOk :=
  State.on_memOk (State.withdrawFollow_memOk (State.leaveGang_memOk h)) _

theorem State.takeTrap_memOk (cause : BitVec 8) (info : Nat) (late intr : Bool) (seq : BitVec 16)
    (resume : LAddr) : (s.takeTrap cause info late intr seq resume).memOk := by
  unfold State.takeTrap
  split
  · exact State.doubleTrap_memOk h _
  · exact State.on_memOk (State.withdrawFollow_memOk (State.leaveGang_memOk h)) _

theorem State.trap_memOk (t : Trap) : (s.trap t).memOk := by
  unfold State.trap
  dsimp only
  split
  · split
    · exact State.on_memOk (State.on_memOk h _) _
    · exact State.takeTrap_memOk (State.on_memOk h _) _ _ _ _ _ _
  · exact State.takeTrap_memOk h _ _ _ _ _ _

@[simp] theorem outOk_checked (t : Option Trap) {d : State} (hd : d.memOk) : outOk (s.checked t d) := by
  cases t with
  | none => exact outOk_next_of hd
  | some t => exact outOk_next_of (State.trap_memOk h t)

theorem State.dropPoison_memOk (k n : Nat) : (s.dropPoison k n).memOk := h

theorem State.logBlocks_memOk (l : List Nat) : (s.logBlocks l).memOk := by
  induction l generalizing s with
  | nil =>
    unfold State.logBlocks
    exact h
  | cons x l ih =>
    unfold State.logBlocks
    dsimp only
    split
    · split
      · exact ih (State.memOk_mk.mpr (Memory.wf_writeBytes h _ _))
      · exact ih (State.on_memOk h _)
    · exact ih h

theorem State.logWrite_memOk (a n : Nat) : (s.logWrite a n).memOk := by
  unfold State.logWrite
  split
  · exact State.logBlocks_memOk h _
  · exact h

theorem State.rawWrite_memOk (a : Nat) (xs : List Byte) : (s.rawWrite a xs).memOk :=
  State.memOk_mk.mpr (Memory.wf_writeBytes (State.logWrite_memOk h _ _) _ _)

theorem State.localWriteBytes_memOk (a : Nat) (xs : List Byte) : (s.localWriteBytes a xs).memOk :=
  State.on_memOk (State.rawWrite_memOk h _ _) _

theorem State.localWrite_memOk (a n x : Nat) : (s.localWrite a n x).memOk := State.localWriteBytes_memOk h _ _

theorem State.setLatch_memOk : s.setLatch.memOk := State.on_memOk h _

theorem State.markFaulted_memOk (seq : BitVec 16) (cause : BitVec 8) (info : Nat) :
    (s.markFaulted seq cause info).memOk :=
  State.setLatch_memOk (State.on_memOk h _)

theorem State.lateFault_memOk (seq : BitVec 16) (cause : BitVec 8) (info : Nat) :
    (s.lateFault seq cause info).memOk := by
  unfold State.lateFault
  dsimp only
  split
  · split
    · exact State.on_memOk (State.on_memOk h _) _
    · exact State.markFaulted_memOk (State.on_memOk h _) _ _ _
  · exact State.markFaulted_memOk h _ _ _

theorem State.opDone_memOk (seq : BitVec 16) : (s.opDone seq).memOk := by
  unfold State.opDone
  split
  · exact State.lateFault_memOk (State.on_memOk h _) _ _ _
  · exact State.on_memOk h _

theorem State.accFault_memOk (seq : BitVec 16) (n : BitVec 2) : (s.accFault seq n).memOk := by
  unfold State.accFault
  dsimp only
  split
  · exact State.on_memOk (State.on_memOk h _) _
  · exact State.markFaulted_memOk (State.on_memOk h _) _ _ _

/-! ### Scopes and orders -/

theorem State.wordRelease_memOk (w : Agent) (scope : Nat) (pub : List Nat) (x : LocalWord) :
    (s.wordRelease w scope pub x).memOk :=
  h

theorem State.heard_memOk (a n : Nat) : (s.heard a n).memOk := State.on_memOk h _

/-! ### Flags -/

theorem State.putRnd_memOk (r : Rnd) : (s.putRnd r).memOk := State.on_memOk h _

/-! ### Integer instructions -/

theorem State.result_ok (d : BitVec 5) (x : Word) : outOk (s.result d x) :=
  outOk_next_of (State.adv_memOk (State.setG_memOk h _ _))

@[simp] theorem execAdd_ok (d a b : BitVec 5) : outOk (execAdd d a b s) := State.result_ok h _ _

@[simp] theorem execSub_ok (d a b : BitVec 5) : outOk (execSub d a b s) := State.result_ok h _ _

@[simp] theorem execAnd_ok (d a b : BitVec 5) : outOk (execAnd d a b s) := State.result_ok h _ _

@[simp] theorem execOr_ok (d a b : BitVec 5) : outOk (execOr d a b s) := State.result_ok h _ _

@[simp] theorem execXor_ok (d a b : BitVec 5) : outOk (execXor d a b s) := State.result_ok h _ _

@[simp] theorem execAndn_ok (d a b : BitVec 5) : outOk (execAndn d a b s) := State.result_ok h _ _

@[simp] theorem execOrn_ok (d a b : BitVec 5) : outOk (execOrn d a b s) := State.result_ok h _ _

@[simp] theorem execXnor_ok (d a b : BitVec 5) : outOk (execXnor d a b s) := State.result_ok h _ _

@[simp] theorem execSll_ok (d a b : BitVec 5) : outOk (execSll d a b s) := State.result_ok h _ _

@[simp] theorem execSrl_ok (d a b : BitVec 5) : outOk (execSrl d a b s) := State.result_ok h _ _

@[simp] theorem execSra_ok (d a b : BitVec 5) : outOk (execSra d a b s) := State.result_ok h _ _

@[simp] theorem execRol_ok (d a b : BitVec 5) : outOk (execRol d a b s) := State.result_ok h _ _

@[simp] theorem execRor_ok (d a b : BitVec 5) : outOk (execRor d a b s) := State.result_ok h _ _

@[simp] theorem execSlt_ok (d a b : BitVec 5) : outOk (execSlt d a b s) := State.result_ok h _ _

@[simp] theorem execSltz_ok (d a b : BitVec 5) : outOk (execSltz d a b s) := State.result_ok h _ _

@[simp] theorem execMin_ok (d a b : BitVec 5) : outOk (execMin d a b s) := State.result_ok h _ _

@[simp] theorem execMax_ok (d a b : BitVec 5) : outOk (execMax d a b s) := State.result_ok h _ _

@[simp] theorem execMinz_ok (d a b : BitVec 5) : outOk (execMinz d a b s) := State.result_ok h _ _

@[simp] theorem execMaxz_ok (d a b : BitVec 5) : outOk (execMaxz d a b s) := State.result_ok h _ _

@[simp] theorem execAddW_ok (d a b : BitVec 5) : outOk (execAddW d a b s) := State.result_ok h _ _

@[simp] theorem execSubW_ok (d a b : BitVec 5) : outOk (execSubW d a b s) := State.result_ok h _ _

@[simp] theorem execSllW_ok (d a b : BitVec 5) : outOk (execSllW d a b s) := State.result_ok h _ _

@[simp] theorem execSrlW_ok (d a b : BitVec 5) : outOk (execSrlW d a b s) := State.result_ok h _ _

@[simp] theorem execSraW_ok (d a b : BitVec 5) : outOk (execSraW d a b s) := State.result_ok h _ _

@[simp] theorem execAddSat_ok (d a b : BitVec 5) : outOk (execAddSat d a b s) := State.result_ok h _ _

@[simp] theorem execSubSat_ok (d a b : BitVec 5) : outOk (execSubSat d a b s) := State.result_ok h _ _

@[simp] theorem execSeq_ok (d a b : BitVec 5) : outOk (execSeq d a b s) := State.result_ok h _ _

@[simp] theorem execSne_ok (d a b : BitVec 5) : outOk (execSne d a b s) := State.result_ok h _ _

@[simp] theorem execAddi_ok (d a : BitVec 5) (i : BitVec 16) : outOk (execAddi d a i s) := State.result_ok h _ _

@[simp] theorem execAndi_ok (d a : BitVec 5) (i : BitVec 16) : outOk (execAndi d a i s) := State.result_ok h _ _

@[simp] theorem execOri_ok (d a : BitVec 5) (i : BitVec 16) : outOk (execOri d a i s) := State.result_ok h _ _

@[simp] theorem execXori_ok (d a : BitVec 5) (i : BitVec 16) : outOk (execXori d a i s) := State.result_ok h _ _

@[simp] theorem execLimh_ok (d a : BitVec 5) (i : BitVec 16) : outOk (execLimh d a i s) := State.result_ok h _ _

@[simp] theorem execSlti_ok (d a : BitVec 5) (i : BitVec 16) : outOk (execSlti d a i s) := State.result_ok h _ _

@[simp] theorem execSltiz_ok (d a : BitVec 5) (i : BitVec 16) : outOk (execSltiz d a i s) :=
  State.result_ok h _ _

@[simp] theorem execSlli_ok (d a : BitVec 5) (n : BitVec 6) : outOk (execSlli d a n s) := State.result_ok h _ _

@[simp] theorem execSrli_ok (d a : BitVec 5) (n : BitVec 6) : outOk (execSrli d a n s) := State.result_ok h _ _

@[simp] theorem execSrai_ok (d a : BitVec 5) (n : BitVec 6) : outOk (execSrai d a n s) := State.result_ok h _ _

@[simp] theorem execRori_ok (d a : BitVec 5) (n : BitVec 6) : outOk (execRori d a n s) := State.result_ok h _ _

@[simp] theorem execSlliW_ok (d a : BitVec 5) (n : BitVec 6) : outOk (execSlliW d a n s) :=
  State.result_ok h _ _

@[simp] theorem execSrliW_ok (d a : BitVec 5) (n : BitVec 6) : outOk (execSrliW d a n s) :=
  State.result_ok h _ _

@[simp] theorem execSraiW_ok (d a : BitVec 5) (n : BitVec 6) : outOk (execSraiW d a n s) :=
  State.result_ok h _ _

@[simp] theorem execMul_ok (d a b : BitVec 5) : outOk (execMul d a b s) := State.result_ok h _ _

@[simp] theorem execMulh_ok (d a b : BitVec 5) : outOk (execMulh d a b s) := State.result_ok h _ _

@[simp] theorem execMulhz_ok (d a b : BitVec 5) : outOk (execMulhz d a b s) := State.result_ok h _ _

@[simp] theorem execMulhsz_ok (d a b : BitVec 5) : outOk (execMulhsz d a b s) := State.result_ok h _ _

@[simp] theorem execDiv_ok (d a b : BitVec 5) : outOk (execDiv d a b s) := State.result_ok h _ _

@[simp] theorem execDivz_ok (d a b : BitVec 5) : outOk (execDivz d a b s) := State.result_ok h _ _

@[simp] theorem execRem_ok (d a b : BitVec 5) : outOk (execRem d a b s) := State.result_ok h _ _

@[simp] theorem execRemz_ok (d a b : BitVec 5) : outOk (execRemz d a b s) := State.result_ok h _ _

@[simp] theorem execMulW_ok (d a b : BitVec 5) : outOk (execMulW d a b s) := State.result_ok h _ _

@[simp] theorem execDivW_ok (d a b : BitVec 5) : outOk (execDivW d a b s) := State.result_ok h _ _

@[simp] theorem execDivzW_ok (d a b : BitVec 5) : outOk (execDivzW d a b s) := State.result_ok h _ _

@[simp] theorem execRemW_ok (d a b : BitVec 5) : outOk (execRemW d a b s) := State.result_ok h _ _

@[simp] theorem execRemzW_ok (d a b : BitVec 5) : outOk (execRemzW d a b s) := State.result_ok h _ _

@[simp] theorem execExt_ok (d a : BitVec 5) (p l : BitVec 6) : outOk (execExt d a p l s) :=
  State.result_ok h _ _

@[simp] theorem execExtz_ok (d a : BitVec 5) (p l : BitVec 6) : outOk (execExtz d a p l s) :=
  State.result_ok h _ _

@[simp] theorem execIns_ok (d a : BitVec 5) (p l : BitVec 6) : outOk (execIns d a p l s) :=
  State.result_ok h _ _

@[simp] theorem execClz_ok (d a : BitVec 5) : outOk (execClz d a s) := State.result_ok h _ _

@[simp] theorem execCtz_ok (d a : BitVec 5) : outOk (execCtz d a s) := State.result_ok h _ _

@[simp] theorem execPopc_ok (d a : BitVec 5) : outOk (execPopc d a s) := State.result_ok h _ _

@[simp] theorem execRev8_ok (d a : BitVec 5) : outOk (execRev8 d a s) := State.result_ok h _ _

@[simp] theorem execRevb_ok (d a : BitVec 5) : outOk (execRevb d a s) := State.result_ok h _ _

@[simp] theorem execAdda_ok (d a b : BitVec 5) (n : BitVec 6) : outOk (execAdda d a b n s) :=
  State.result_ok h _ _

@[simp] theorem execSuba_ok (d a b : BitVec 5) (n : BitVec 6) : outOk (execSuba d a b n s) :=
  State.result_ok h _ _

@[simp] theorem execChkb_ok (a b : BitVec 5) : outOk (execChkb a b s) := outOk_checked h _ (State.adv_memOk h)

@[simp] theorem execChkr_ok (d a b : BitVec 5) : outOk (execChkr d a b s) :=
  outOk_checked h _ (State.adv_memOk h)

@[simp] theorem execAligna_ok (d a : BitVec 5) (n : BitVec 6) : outOk (execAligna d a n s) :=
  State.result_ok h _ _

/-! ### Local loads and stores -/

theorem State.localLoad_ok (signed : Bool) (n : Nat) (d a : BitVec 5) (i : BitVec 16) :
    outOk (s.localLoad signed n d a i) :=
  outOk_checked h _ (State.adv_memOk (State.setG_memOk (State.heard_memOk h _ _) _ _))

theorem State.localStore_ok (n : Nat) (d a : BitVec 5) (i : BitVec 16) : outOk (s.localStore n d a i) :=
  outOk_checked h _ (State.adv_memOk (State.localWrite_memOk h _ _ _))

@[simp] theorem execLdB_ok (d a : BitVec 5) (i : BitVec 16) : outOk (execLdB d a i s) :=
  State.localLoad_ok h _ _ _ _ _

@[simp] theorem execLdH_ok (d a : BitVec 5) (i : BitVec 16) : outOk (execLdH d a i s) :=
  State.localLoad_ok h _ _ _ _ _

@[simp] theorem execLdW_ok (d a : BitVec 5) (i : BitVec 16) : outOk (execLdW d a i s) :=
  State.localLoad_ok h _ _ _ _ _

@[simp] theorem execLdD_ok (d a : BitVec 5) (i : BitVec 16) : outOk (execLdD d a i s) :=
  State.localLoad_ok h _ _ _ _ _

@[simp] theorem execLdBz_ok (d a : BitVec 5) (i : BitVec 16) : outOk (execLdBz d a i s) :=
  State.localLoad_ok h _ _ _ _ _

@[simp] theorem execLdHz_ok (d a : BitVec 5) (i : BitVec 16) : outOk (execLdHz d a i s) :=
  State.localLoad_ok h _ _ _ _ _

@[simp] theorem execLdWz_ok (d a : BitVec 5) (i : BitVec 16) : outOk (execLdWz d a i s) :=
  State.localLoad_ok h _ _ _ _ _

@[simp] theorem execStB_ok (d a : BitVec 5) (i : BitVec 16) : outOk (execStB d a i s) :=
  State.localStore_ok h _ _ _ _

@[simp] theorem execStH_ok (d a : BitVec 5) (i : BitVec 16) : outOk (execStH d a i s) :=
  State.localStore_ok h _ _ _ _

@[simp] theorem execStW_ok (d a : BitVec 5) (i : BitVec 16) : outOk (execStW d a i s) :=
  State.localStore_ok h _ _ _ _

@[simp] theorem execStD_ok (d a : BitVec 5) (i : BitVec 16) : outOk (execStD d a i s) :=
  State.localStore_ok h _ _ _ _

/-! ### Branches -/

theorem State.branch_ok (n : Nat) (taken : Bool) (o : BitVec n) : outOk (s.branch taken o) := by
  unfold State.branch
  dsimp only
  split
  · exact outOk_checked h _ (State.setPc_memOk h _)
  · exact outOk_next_of (State.adv_memOk h)

@[simp] theorem execBeqz_ok (a : BitVec 5) (o : BitVec 16) : outOk (execBeqz a o s) := State.branch_ok h _ _ _

@[simp] theorem execBnez_ok (a : BitVec 5) (o : BitVec 16) : outOk (execBnez a o s) := State.branch_ok h _ _ _

@[simp] theorem execBltz_ok (a : BitVec 5) (o : BitVec 16) : outOk (execBltz a o s) := State.branch_ok h _ _ _

@[simp] theorem execBgez_ok (a : BitVec 5) (o : BitVec 16) : outOk (execBgez a o s) := State.branch_ok h _ _ _

@[simp] theorem execBgtz_ok (a : BitVec 5) (o : BitVec 16) : outOk (execBgtz a o s) := State.branch_ok h _ _ _

@[simp] theorem execBlez_ok (a : BitVec 5) (o : BitVec 16) : outOk (execBlez a o s) := State.branch_ok h _ _ _

@[simp] theorem execBeq_ok (a b : BitVec 5) (o : BitVec 13) : outOk (execBeq a b o s) := State.branch_ok h _ _ _

@[simp] theorem execBne_ok (a b : BitVec 5) (o : BitVec 13) : outOk (execBne a b o s) := State.branch_ok h _ _ _

@[simp] theorem execBlt_ok (a b : BitVec 5) (o : BitVec 13) : outOk (execBlt a b o s) := State.branch_ok h _ _ _

@[simp] theorem execBge_ok (a b : BitVec 5) (o : BitVec 13) : outOk (execBge a b o s) := State.branch_ok h _ _ _

@[simp] theorem execBlo_ok (a b : BitVec 5) (o : BitVec 13) : outOk (execBlo a b o s) := State.branch_ok h _ _ _

@[simp] theorem execBhs_ok (a b : BitVec 5) (o : BitVec 13) : outOk (execBhs a b o s) := State.branch_ok h _ _ _

@[simp] theorem execJ_ok (o : BitVec 26) : outOk (execJ o s) := State.branch_ok h _ _ _

@[simp] theorem execJl_ok (o : BitVec 26) : outOk (execJl o s) :=
  outOk_checked h _ (State.setPc_memOk (State.setG_memOk h _ _) _)

@[simp] theorem execJr_ok (a : BitVec 5) : outOk (execJr a s) := outOk_checked h _ (State.setPc_memOk h _)

@[simp] theorem execJlr_ok (a : BitVec 5) : outOk (execJlr a s) :=
  outOk_checked h _ (State.setPc_memOk (State.setG_memOk h _ _) _)

@[simp] theorem execLoop_ok (o : BitVec 16) (a : BitVec 5) : outOk (execLoop o a s) :=
  State.branch_ok (State.setG_memOk h _ _) _ _ _

/-! ### Integer vector instructions -/

theorem State.vecInt_ok (d a b : BitVec 5) (m : BitVec 3) (w : Nat) (f : Nat → Nat → Nat → Nat) :
    outOk (s.vecInt d a b m w f) :=
  outOk_checked h _ (State.adv_memOk (State.setV_memOk h _ _))

theorem State.vecBit_ok (d a b : BitVec 5) (m : BitVec 3) (f : VReg → VReg → VReg) : outOk (s.vecBit d a b m f) :=
  outOk_checked h _ (State.adv_memOk (State.setV_memOk h _ _))

@[simp] theorem execVadd_ok (d a b : BitVec 5) (m : BitVec 3) (w : BitVec 2) : outOk (execVadd d a b m w s) :=
  State.vecInt_ok h _ _ _ _ _ _

@[simp] theorem execVsub_ok (d a b : BitVec 5) (m : BitVec 3) (w : BitVec 2) : outOk (execVsub d a b m w s) :=
  State.vecInt_ok h _ _ _ _ _ _

@[simp] theorem execVaddsSigned_ok (d a b : BitVec 5) (m : BitVec 3) (w : BitVec 2) :
    outOk (execVaddsSigned d a b m w s) :=
  State.vecInt_ok h _ _ _ _ _ _

@[simp] theorem execVaddsUnsigned_ok (d a b : BitVec 5) (m : BitVec 3) (w : BitVec 2) :
    outOk (execVaddsUnsigned d a b m w s) :=
  State.vecInt_ok h _ _ _ _ _ _

@[simp] theorem execVsubsSigned_ok (d a b : BitVec 5) (m : BitVec 3) (w : BitVec 2) :
    outOk (execVsubsSigned d a b m w s) :=
  State.vecInt_ok h _ _ _ _ _ _

@[simp] theorem execVsubsUnsigned_ok (d a b : BitVec 5) (m : BitVec 3) (w : BitVec 2) :
    outOk (execVsubsUnsigned d a b m w s) :=
  State.vecInt_ok h _ _ _ _ _ _

@[simp] theorem execVmul_ok (d a b : BitVec 5) (m : BitVec 3) (w : BitVec 2) : outOk (execVmul d a b m w s) :=
  State.vecInt_ok h _ _ _ _ _ _

@[simp] theorem execVmulhSigned_ok (d a b : BitVec 5) (m : BitVec 3) (w : BitVec 2) :
    outOk (execVmulhSigned d a b m w s) :=
  State.vecInt_ok h _ _ _ _ _ _

@[simp] theorem execVmulhUnsigned_ok (d a b : BitVec 5) (m : BitVec 3) (w : BitVec 2) :
    outOk (execVmulhUnsigned d a b m w s) :=
  State.vecInt_ok h _ _ _ _ _ _

@[simp] theorem execVminSigned_ok (d a b : BitVec 5) (m : BitVec 3) (w : BitVec 2) :
    outOk (execVminSigned d a b m w s) :=
  State.vecInt_ok h _ _ _ _ _ _

@[simp] theorem execVminUnsigned_ok (d a b : BitVec 5) (m : BitVec 3) (w : BitVec 2) :
    outOk (execVminUnsigned d a b m w s) :=
  State.vecInt_ok h _ _ _ _ _ _

@[simp] theorem execVmaxSigned_ok (d a b : BitVec 5) (m : BitVec 3) (w : BitVec 2) :
    outOk (execVmaxSigned d a b m w s) :=
  State.vecInt_ok h _ _ _ _ _ _

@[simp] theorem execVmaxUnsigned_ok (d a b : BitVec 5) (m : BitVec 3) (w : BitVec 2) :
    outOk (execVmaxUnsigned d a b m w s) :=
  State.vecInt_ok h _ _ _ _ _ _

@[simp] theorem execVand_ok (d a b : BitVec 5) (m : BitVec 3) (n4 : BitVec 2) : outOk (execVand d a b m n4 s) :=
  State.vecBit_ok h _ _ _ _ _

@[simp] theorem execVor_ok (d a b : BitVec 5) (m : BitVec 3) (n4 : BitVec 2) : outOk (execVor d a b m n4 s) :=
  State.vecBit_ok h _ _ _ _ _

@[simp] theorem execVxor_ok (d a b : BitVec 5) (m : BitVec 3) (n4 : BitVec 2) : outOk (execVxor d a b m n4 s) :=
  State.vecBit_ok h _ _ _ _ _

@[simp] theorem execVandn_ok (d a b : BitVec 5) (m : BitVec 3) (n4 : BitVec 2) : outOk (execVandn d a b m n4 s) :=
  State.vecBit_ok h _ _ _ _ _

@[simp] theorem execVsll_ok (d a b : BitVec 5) (m : BitVec 3) (w : BitVec 2) : outOk (execVsll d a b m w s) :=
  State.vecInt_ok h _ _ _ _ _ _

@[simp] theorem execVsrl_ok (d a b : BitVec 5) (m : BitVec 3) (w : BitVec 2) : outOk (execVsrl d a b m w s) :=
  State.vecInt_ok h _ _ _ _ _ _

@[simp] theorem execVsra_ok (d a b : BitVec 5) (m : BitVec 3) (w : BitVec 2) : outOk (execVsra d a b m w s) :=
  State.vecInt_ok h _ _ _ _ _ _

@[simp] theorem execVabs_ok (d a : BitVec 5) (m : BitVec 3) (w : BitVec 2) : outOk (execVabs d a m w s) :=
  outOk_checked h _ (State.adv_memOk (State.setV_memOk h _ _))

@[simp] theorem execVsum_ok (d a b : BitVec 5) (m : BitVec 3) (w : BitVec 2) : outOk (execVsum d a b m w s) :=
  outOk_checked h _ (State.adv_memOk (State.setV_memOk h _ _))

/-! ### Floating-point vector instructions -/

theorem State.vecRnd_ok (regs : List (BitVec 5)) (d : BitVec 5) (m : BitVec 3) (w : Nat)
    (f : Nat → Rnd → Nat × Rnd) : outOk (s.vecRnd regs d m w f) :=
  outOk_checked h _ (State.adv_memOk (State.putRnd_memOk (State.setV_memOk h _ _) _))

theorem State.vecFlt2_ok (d a b : BitVec 5) (m t : BitVec 3) (op : FVal → FVal → XRes) :
    outOk (s.vecFlt2 d a b m t op) :=
  State.vecRnd_ok h _ _ _ _ _

theorem State.vecPick_ok (regs : List (BitVec 5)) (d : BitVec 5) (m t : BitVec 3) (op : Nat → Nat × BitVec 6) :
    outOk (s.vecPick regs d m t op) :=
  State.vecRnd_ok h _ _ _ _ _

@[simp] theorem execVfadd_ok (d a b : BitVec 5) (m t : BitVec 3) : outOk (execVfadd d a b m t s) :=
  State.vecFlt2_ok h _ _ _ _ _ _

@[simp] theorem execVfsub_ok (d a b : BitVec 5) (m t : BitVec 3) : outOk (execVfsub d a b m t s) :=
  State.vecFlt2_ok h _ _ _ _ _ _

@[simp] theorem execVfmul_ok (d a b : BitVec 5) (m t : BitVec 3) : outOk (execVfmul d a b m t s) :=
  State.vecFlt2_ok h _ _ _ _ _ _

@[simp] theorem execVfdiv_ok (d a b : BitVec 5) (m t : BitVec 3) : outOk (execVfdiv d a b m t s) :=
  State.vecFlt2_ok h _ _ _ _ _ _

@[simp] theorem execVfsqrt_ok (d a : BitVec 5) (m t : BitVec 3) : outOk (execVfsqrt d a m t s) :=
  State.vecRnd_ok h _ _ _ _ _

@[simp] theorem execVfmin_ok (d a b : BitVec 5) (m t : BitVec 3) : outOk (execVfmin d a b m t s) :=
  State.vecPick_ok h _ _ _ _ _

@[simp] theorem execVfmax_ok (d a b : BitVec 5) (m t : BitVec 3) : outOk (execVfmax d a b m t s) :=
  State.vecPick_ok h _ _ _ _ _

@[simp] theorem execVfabs_ok (d a : BitVec 5) (m t : BitVec 3) : outOk (execVfabs d a m t s) :=
  State.vecPick_ok h _ _ _ _ _

@[simp] theorem execVfneg_ok (d a : BitVec 5) (m t : BitVec 3) : outOk (execVfneg d a m t s) :=
  State.vecPick_ok h _ _ _ _ _

theorem State.vecReduce_ok (d a b : BitVec 5) (m : BitVec 3) (src dst : Fmt) :
    outOk (s.vecReduce d a b m src dst) :=
  outOk_checked h _ (State.adv_memOk (State.putRnd_memOk (State.setV_memOk h _ _) _))

@[simp] theorem execVfsum_ok (d a b : BitVec 5) (m t : BitVec 3) : outOk (execVfsum d a b m t s) :=
  State.vecReduce_ok h _ _ _ _ _ _

@[simp] theorem execVfsumw_ok (d a b : BitVec 5) (m t : BitVec 3) : outOk (execVfsumw d a b m t s) :=
  State.vecReduce_ok h _ _ _ _ _ _

theorem State.vecFma_ok (d a b c : BitVec 5) (m : BitVec 3) (t : BitVec 2) (sub : Bool) :
    outOk (s.vecFma d a b c m t sub) :=
  State.vecRnd_ok h _ _ _ _ _

@[simp] theorem execVfma_ok (d a b c : BitVec 5) (m : BitVec 3) (t : BitVec 2) : outOk (execVfma d a b c m t s) :=
  State.vecFma_ok h _ _ _ _ _ _ _

@[simp] theorem execVfms_ok (d a b c : BitVec 5) (m : BitVec 3) (t : BitVec 2) : outOk (execVfms d a b c m t s) :=
  State.vecFma_ok h _ _ _ _ _ _ _

/-! ### Vector comparisons and masks -/

theorem State.vecCmp_ok (c : Cond) (d : BitVec 3) (a b : BitVec 5) (m : BitVec 3) (t : BitVec 4) :
    outOk (s.vecCmp c d a b m t) :=
  outOk_checked h _ (State.adv_memOk (State.setFlags_memOk (State.setM_memOk h _ _) _))

@[simp] theorem execVcmpEq_ok (d : BitVec 3) (a b : BitVec 5) (m : BitVec 3) (t : BitVec 4) :
    outOk (execVcmpEq d a b m t s) :=
  State.vecCmp_ok h _ _ _ _ _ _

@[simp] theorem execVcmpNe_ok (d : BitVec 3) (a b : BitVec 5) (m : BitVec 3) (t : BitVec 4) :
    outOk (execVcmpNe d a b m t s) :=
  State.vecCmp_ok h _ _ _ _ _ _

@[simp] theorem execVcmpLt_ok (d : BitVec 3) (a b : BitVec 5) (m : BitVec 3) (t : BitVec 4) :
    outOk (execVcmpLt d a b m t s) :=
  State.vecCmp_ok h _ _ _ _ _ _

@[simp] theorem execVcmpLe_ok (d : BitVec 3) (a b : BitVec 5) (m : BitVec 3) (t : BitVec 4) :
    outOk (execVcmpLe d a b m t s) :=
  State.vecCmp_ok h _ _ _ _ _ _

@[simp] theorem execVcmpGt_ok (d : BitVec 3) (a b : BitVec 5) (m : BitVec 3) (t : BitVec 4) :
    outOk (execVcmpGt d a b m t s) :=
  State.vecCmp_ok h _ _ _ _ _ _

@[simp] theorem execVcmpGe_ok (d : BitVec 3) (a b : BitVec 5) (m : BitVec 3) (t : BitVec 4) :
    outOk (execVcmpGe d a b m t s) :=
  State.vecCmp_ok h _ _ _ _ _ _

@[simp] theorem execVcmpUn_ok (d : BitVec 3) (a b : BitVec 5) (m : BitVec 3) (t : BitVec 4) :
    outOk (execVcmpUn d a b m t s) :=
  State.vecCmp_ok h _ _ _ _ _ _

theorem State.maskResult_ok (d : BitVec 3) (x : Word) : outOk (s.maskResult d x) :=
  outOk_next_of (State.adv_memOk (State.setM_memOk h _ _))

@[simp] theorem execMand_ok (d a b : BitVec 3) : outOk (execMand d a b s) := State.maskResult_ok h _ _

@[simp] theorem execMor_ok (d a b : BitVec 3) : outOk (execMor d a b s) := State.maskResult_ok h _ _

@[simp] theorem execMxor_ok (d a b : BitVec 3) : outOk (execMxor d a b s) := State.maskResult_ok h _ _

@[simp] theorem execMandn_ok (d a b : BitVec 3) : outOk (execMandn d a b s) := State.maskResult_ok h _ _

@[simp] theorem execMnot_ok (d a : BitVec 3) : outOk (execMnot d a s) := State.maskResult_ok h _ _

@[simp] theorem execMfromg_ok (d : BitVec 3) (a : BitVec 5) : outOk (execMfromg d a s) :=
  State.maskResult_ok h _ _

@[simp] theorem execMtog_ok (d : BitVec 5) (a : BitVec 3) : outOk (execMtog d a s) := State.result_ok h _ _

@[simp] theorem execMpop_ok (d : BitVec 5) (a : BitVec 3) : outOk (execMpop d a s) := State.result_ok h _ _

/-! ### Vector conversions -/

@[simp] theorem execVcvtEl_ok (d a : BitVec 5) (r m : BitVec 3) (x t : BitVec 4) :
    outOk (execVcvtEl d a r m x t s) :=
  outOk_checked h _ (State.adv_memOk (State.putRnd_memOk (State.setV_memOk h _ _) _))

@[simp] theorem execVcvtPack_ok (d a : BitVec 5) (r : BitVec 3) (x t : BitVec 4) :
    outOk (execVcvtPack d a r x t s) :=
  outOk_checked h _ (State.adv_memOk (State.putRnd_memOk (State.setV_memOk h _ _) _))

@[simp] theorem execVcvtUnpack_ok (d a : BitVec 5) (r : BitVec 3) (x t : BitVec 4) :
    outOk (execVcvtUnpack d a r x t s) := by
  unfold execVcvtUnpack
  dsimp only
  refine outOk_checked h _ (State.adv_memOk (State.putRnd_memOk ?_ _))
  split
  · exact State.setV_memOk (State.setV_memOk h _ _) _ _
  · exact State.setV_memOk h _ _

/-! ### Vector permutations -/

theorem State.vecPerm_ok (regs : List (BitVec 5)) (d : BitVec 5) (m : BitVec 3) (w : Nat) (f : Nat → Nat) :
    outOk (s.vecPerm regs d m w f) :=
  outOk_checked h _ (State.adv_memOk (State.setV_memOk h _ _))

@[simp] theorem execVperm_ok (d a b : BitVec 5) (m : BitVec 3) (w : BitVec 2) : outOk (execVperm d a b m w s) :=
  State.vecPerm_ok h _ _ _ _ _

@[simp] theorem execVbcast_ok (d a : BitVec 5) (m : BitVec 3) (w : BitVec 2) : outOk (execVbcast d a m w s) :=
  State.vecPerm_ok h _ _ _ _ _

@[simp] theorem execVdup_ok (d a b : BitVec 5) (m : BitVec 3) (w : BitVec 2) : outOk (execVdup d a b m w s) :=
  State.vecPerm_ok h _ _ _ _ _

@[simp] theorem execVmov_ok (d a : BitVec 5) (m : BitVec 3) (n3 : BitVec 2) : outOk (execVmov d a m n3 s) :=
  State.vecPerm_ok h _ _ _ _ _

@[simp] theorem execVzip_ok (d a b : BitVec 5) (m : BitVec 3) (w : BitVec 2) : outOk (execVzip d a b m w s) :=
  State.vecPerm_ok h _ _ _ _ _

@[simp] theorem execVunzip_ok (d a b : BitVec 5) (m : BitVec 3) (w : BitVec 2) : outOk (execVunzip d a b m w s) :=
  State.vecPerm_ok h _ _ _ _ _

@[simp] theorem execVslide_ok (d a b : BitVec 5) (m : BitVec 3) (w : BitVec 2) : outOk (execVslide d a b m w s) :=
  State.vecPerm_ok h _ _ _ _ _

@[simp] theorem execVins_ok (d a b : BitVec 5) (w : BitVec 2) : outOk (execVins d a b w s) :=
  outOk_checked h _ (State.adv_memOk (State.setV_memOk h _ _))

@[simp] theorem execVext_ok (d a b : BitVec 5) (w : BitVec 2) : outOk (execVext d a b w s) :=
  outOk_checked h _ (State.adv_memOk (State.setG_memOk h _ _))

@[simp] theorem execVcompress_ok (d a : BitVec 5) (m : BitVec 3) (w : BitVec 2) : outOk (execVcompress d a m w s) :=
  outOk_checked h _ (State.adv_memOk (State.setV_memOk h _ _))

@[simp] theorem execVexpand_ok (d a : BitVec 5) (m : BitVec 3) (w : BitVec 2) : outOk (execVexpand d a m w s) :=
  outOk_checked h _ (State.adv_memOk (State.setV_memOk h _ _))

/-! ### Vector loads and stores -/

theorem State.hearEls_memOk (addr : Nat → Nat) (n : Nat) (is : List Nat) : (s.hearEls addr n is).memOk :=
  foldl_memOk (fun _ _ hu => State.heard_memOk hu _ _) _ h

@[simp] theorem execVld_ok (d a : BitVec 5) (m : BitVec 3) (o : BitVec 13) : outOk (execVld d a m o s) :=
  outOk_checked h _ (State.adv_memOk (State.setV_memOk (State.hearEls_memOk h _ _ _) _ _))

theorem State.storeLanes_memOk (addr : Nat) (mask : Word) (n3 : Nat) (l : List Byte) :
    (s.storeLanes addr mask n3 l).memOk := by
  induction l generalizing s addr mask n3 with
  | nil =>
    unfold State.storeLanes
    exact h
  | cons x l ih =>
    unfold State.storeLanes
    refine ih ?_ _ _ _
    split
    · exact State.localWriteBytes_memOk h _ _
    · exact h

@[simp] theorem execVst_ok (d a : BitVec 5) (m : BitVec 3) (o : BitVec 13) : outOk (execVst d a m o s) :=
  outOk_checked h _ (State.adv_memOk (State.storeLanes_memOk h _ _ _ _))

theorem State.vecGather_ok (regs : List (BitVec 5)) (d : BitVec 5) (m : BitVec 3) (w : Nat) (addr : Nat → Nat) :
    outOk (s.vecGather regs d m w addr) :=
  outOk_checked h _ (State.adv_memOk (State.setV_memOk (State.hearEls_memOk h _ _ _) _ _))

theorem State.scatterEls_memOk (x : VReg) (w : Nat) (l : List (Nat × Nat)) : (s.scatterEls x w l).memOk := by
  induction l generalizing s with
  | nil =>
    unfold State.scatterEls
    exact h
  | cons x l ih =>
    unfold State.scatterEls
    exact ih (State.localWrite_memOk h _ _ _)

theorem State.vecScatter_ok (regs : List (BitVec 5)) (d : BitVec 5) (m : BitVec 3) (w : Nat) (addr : Nat → Nat) :
    outOk (s.vecScatter regs d m w addr) :=
  outOk_checked h _ (State.adv_memOk (State.scatterEls_memOk h _ _ _))

@[simp] theorem execVlds_ok (d a b : BitVec 5) (m : BitVec 3) (w : BitVec 2) : outOk (execVlds d a b m w s) :=
  State.vecGather_ok h _ _ _ _ _

@[simp] theorem execVsts_ok (d a b : BitVec 5) (m : BitVec 3) (w : BitVec 2) : outOk (execVsts d a b m w s) :=
  State.vecScatter_ok h _ _ _ _ _

@[simp] theorem execVgath_ok (d a b : BitVec 5) (m : BitVec 3) (w : BitVec 2) : outOk (execVgath d a b m w s) :=
  State.vecGather_ok h _ _ _ _ _

@[simp] theorem execVscat_ok (d a b : BitVec 5) (m : BitVec 3) (w : BitVec 2) : outOk (execVscat d a b m w s) :=
  State.vecScatter_ok h _ _ _ _ _

/-! ### Control registers and system instructions -/

@[simp] theorem execCrr_ok (d : BitVec 5) (n : BitVec 12) : outOk (execCrr d n s) :=
  outOk_checked h _ (State.adv_memOk (State.setG_memOk h _ _))

@[simp] theorem execCrw_ok (a : BitVec 5) (n : BitVec 12) : outOk (execCrw a n s) :=
  outOk_checked h _ (State.adv_memOk (State.on_memOk h _))

@[simp] theorem execCrs_ok (d a : BitVec 5) (n : BitVec 12) : outOk (execCrs d a n s) :=
  outOk_checked h _ (State.adv_memOk (State.setG_memOk (State.on_memOk h _) _ _))

@[simp] theorem execCrc_ok (d a : BitVec 5) (n : BitVec 12) : outOk (execCrc d a n s) :=
  outOk_checked h _ (State.adv_memOk (State.setG_memOk (State.on_memOk h _) _ _))

/-! ### Messages -/

theorem State.countLost_memOk (src : Nat) : (s.countLost src).memOk :=
  State.atThread_memOk h _ (fun _ hu => State.on_memOk hu _)

theorem State.loseMsgs_memOk (l : List Msg) : (s.loseMsgs l).memOk :=
  foldl_memOk (fun _ _ hu => State.countLost_memOk hu _) _ h

theorem State.dropWaiting_memOk : s.dropWaiting.memOk := State.loseMsgs_memOk (State.on_memOk h _) _

theorem State.outPush_memOk (o : OutOp) : (s.outPush o).memOk := State.on_memOk h _

theorem State.sendMsg_memOk (m : Msg) : (s.sendMsg m).memOk := by
  unfold State.sendMsg
  split
  · exact State.adv_memOk (State.outPush_memOk h _)
  · split
    · exact State.waiting_memOk h _
    · exact State.adv_memOk (State.memOk_mk.mpr h)

@[simp] theorem execSend_ok (a b : BitVec 5) (t : BitVec 1) (n : BitVec 4) : outOk (execSend a b t n s) :=
  outOk_checked h _ (State.sendMsg_memOk h _)

@[simp] theorem execSendV_ok (a b : BitVec 5) (t : BitVec 1) (n : BitVec 4) : outOk (execSendV a b t n s) :=
  outOk_checked h _ (State.sendMsg_memOk h _)

theorem State.waitRecv_memOk (n : BitVec 4) : (s.waitRecv n).memOk := State.on_memOk h _

theorem State.recvWith_ok (lim : Option Trap) (v : Bool) (raw : BitVec 1) (n : BitVec 4)
    {take : State → Msg → State} (ht : ∀ u m, u.memOk → (take u m).memOk) : outOk
      (s.recvWith lim v raw n take) := by
  unfold State.recvWith
  split
  · exact outOk_checked h _ (State.waitRecv_memOk h _)
  · exact outOk_checked h _ (State.adv_memOk (ht _ _ (State.on_memOk h _)))

@[simp] theorem execRecv_ok (d : BitVec 5) (r : BitVec 1) (n : BitVec 4) : outOk (execRecv d r n s) :=
  State.recvWith_ok h _ _ _ _ (fun _ _ hu => State.setG_memOk hu _ _)

@[simp] theorem execRecvV_ok (d : BitVec 5) (r : BitVec 1) (n : BitVec 4) : outOk (execRecvV d r n s) :=
  State.recvWith_ok h _ _ _ _ (fun _ _ hu => State.setV_memOk hu _ _)

@[simp] theorem execRecvT_ok (d a : BitVec 5) (r : BitVec 1) (n : BitVec 4) : outOk (execRecvT d a r n s) := by
  unfold execRecvT
  split
  · exact outOk_checked h _ (State.adv_memOk (State.setG_memOk (State.setG_memOk h _ _) _ _))
  · exact outOk_checked h _ (State.adv_memOk (State.setG_memOk (State.setG_memOk (State.on_memOk h _) _ _) _ _))

@[simp] theorem execRecvTV_ok (d a : BitVec 5) (r : BitVec 1) (n : BitVec 4) : outOk (execRecvTV d a r n s) := by
  unfold execRecvTV
  dsimp only
  split
  · exact outOk_checked h _ (State.adv_memOk (State.setG_memOk h _ _))
  · exact outOk_checked h _ (State.adv_memOk (State.setG_memOk (State.setV_memOk (State.on_memOk h _) _ _) _ _))

@[simp] theorem execMsgst_ok (d : BitVec 5) (n : BitVec 4) : outOk (execMsgst d n s) :=
  outOk_checked h _ (State.adv_memOk (State.setG_memOk h _ _))

theorem State.atAgent_memOk (c : Nat) {f : State → State} (hf : ∀ u, u.memOk → (f u).memOk) :
    (s.atAgent c f).memOk := by
  unfold State.atAgent
  split
  · exact State.at_memOk h _ hf
  · exact State.atThread_memOk h _ hf

theorem State.enterChannel_memOk : s.enterChannel.memOk := by
  unfold State.enterChannel
  dsimp only
  split
  · exact State.dropWaiting_memOk h
  · split
    · exact h
    · split
      · exact State.setLatch_memOk (State.on_memOk h _)
      · exact h

@[simp] theorem execMessageEntersChannel_ok (c : Nat) : outOk (execMessageEntersChannel c s) :=
  outOk_next_of (State.atAgent_memOk h _ (fun _ hu => State.enterChannel_memOk hu))

theorem State.rxExpire_memOk : s.rxExpire.memOk := by
  unfold State.rxExpire
  dsimp only
  split
  · split
    · exact State.trap_memOk (State.on_memOk h _) _
    · exact h
  · exact h

@[simp] theorem execRxWatchdog_ok (c : Nat) : outOk (execRxWatchdog c s) :=
  outOk_next_of (State.at_memOk h _ (fun _ hu => State.rxExpire_memOk hu))

/-! ### Gangs -/

@[simp] theorem execFollow_ok (d a : BitVec 5) : outOk (execFollow d a s) := by
  unfold execFollow
  dsimp only
  split
  · exact outOk_next_of (State.waiting_memOk h _)
  · split
    · exact outOk_checked h _ (State.adv_memOk (State.setG_memOk h _ _))
    · exact outOk_checked h _ (State.waiting_memOk (State.memOk_mk.mpr
        (State.on_memOk (State.setG_memOk h _ _) _)) _)

theorem State.join_memOk (l f : Nat) : (s.join l f).memOk := State.modCore_memOk (State.modCore_memOk h _ _) _ _

@[simp] theorem execFollowRequestTaken_ok (leader follower : Nat) :
    outOk (execFollowRequestTaken leader follower s) := by
  unfold execFollowRequestTaken
  dsimp only
  split
  · split
    · exact outOk_next_of (State.memOk_mk.mpr h)
    · split
      · exact outOk_next_of (State.modCore_memOk (State.memOk_mk.mpr h) _ _)
      · exact outOk_next_of (State.join_memOk (State.memOk_mk.mpr h) _ _)
  · exact outOk_next_of h

@[simp] theorem execSplit_ok : outOk (execSplit s) :=
  outOk_next_of (State.adv_memOk (State.leaveGangBy_memOk h _))

@[simp] theorem execGangst_ok (d : BitVec 5) : outOk (execGangst d s) := State.result_ok h _ _

/-! ### Ranges -/

theorem State.modCatalogue_memOk (k : Nat) (f : List CatEntry → List CatEntry) : (s.modCatalogue k f).memOk := h

theorem State.fill_memOk {t : State} {e : RangeEntry} {moving : Bool} (hf : s.fill e moving = some t) :
    t.memOk := by
  unfold State.fill at hf
  split at hf <;> cases hf
  exact State.on_memOk h _

theorem State.stationFind_memOk (k : Nat) (pid : BitVec 16) (va : Nat) : (s.stationFind k pid va).2.memOk := by
  unfold State.stationFind
  dsimp only
  split
  · exact h
  · split
    · exact h
    · exact h
    · dsimp only
      exact State.fresh_memOk h

theorem State.stationFind_memOk_of_eq {k : Nat} {pid : BitVec 16} {va : Nat} {a : StationAns} {t : State}
    (e : s.stationFind k pid va = (a, t)) : t.memOk := by
  have ht := State.stationFind_memOk h k pid va
  rw [e] at ht
  exact ht

theorem State.stationFill_memOk {t : State} {va : Nat} {e : Option RangeEntry}
    (hf : s.stationFill va = some (e, t)) : t.memOk := by
  have hs := State.stationFind_memOk h (stationOf s.core.addr.toNat) s.core.ctl.pid va
  unfold State.stationFill at hf
  dsimp only at hf
  split at hf
  · cases hf
  · rename_i hx; rw [hx] at hs; cases hf; exact hs
  · rename_i hx
    rw [hx] at hs
    split at hf
    · cases hf
    · rename_i hu; cases hf; exact State.modCatalogue_memOk (State.fill_memOk hs hu) _ _

theorem State.countMiss_memOk : s.countMiss.memOk := State.on_memOk (State.fresh_memOk h) _

theorem State.xlatBy_memOk {t : TableEntry} {va : Nat} {k : AccKind} {n : Nat} {r : XlatRes}
    (e : s.xlatBy t va k n = r) : r.memOk := by
  subst e; unfold State.xlatBy
  split
  · exact h
  · split
    · exact h
    · exact State.on_memOk h _

theorem State.threadXlat_memOk {va : Word} {k : AccKind} {n : Nat} {r : XlatRes} (e : s.threadXlat va k n = r) :
    r.memOk := by
  subst e; unfold State.threadXlat
  dsimp only
  split
  · exact h
  · split
    · exact State.xlatBy_memOk h rfl
    · split
      · split
        · exact h
        · exact h
      · exact State.on_memOk (State.countMiss_memOk h) _

theorem State.engineXlat_memOk {held : List Nat} {va : Word} {k : AccKind} {n : Nat} {r : XlatRes}
    (e : s.engineXlat held va k n = r) : r.memOk := by
  subst e; unfold State.engineXlat
  split
  · exact h
  · split
    · exact State.xlatBy_memOk h rfl
    · split
      · exact h
      · rename_i t e
        exact State.stationFill_memOk (State.countMiss_memOk h) e
      · rename_i t e
        have ht : t.memOk := State.stationFill_memOk (State.countMiss_memOk h) e
        split
        · exact State.xlatBy_memOk ht rfl
        · exact ht

theorem State.answerMiss_memOk : s.answerMiss.memOk := by
  unfold State.answerMiss
  dsimp only
  split
  · exact h
  · split
    · exact h
    · split
      · exact h
      · rename_i t e
        have ht : t.memOk := State.stationFill_memOk h e
        exact State.on_memOk ht _
      · rename_i t e
        have ht : t.memOk := State.stationFill_memOk h e
        exact State.on_memOk ht _

@[simp] theorem execStationLookup_ok (c : Nat) : outOk (execStationLookup c s) :=
  outOk_next_of (State.at_memOk h _ (fun _ hu => State.answerMiss_memOk hu))

/-! ### Weakly ordered loads and stores -/

theorem State.drewCuts_memOk (k n : Nat) : (s.drewCuts k n).memOk := by
  unfold State.drewCuts
  split
  · exact h
  · exact h

theorem State.observe_memOk (cut : Nat → Nat) (k n : Nat) (acq : Option Nat) : (s.observe cut k n acq).memOk := by
  unfold State.observe
  dsimp only
  split
  · exact h
  · exact State.drewCuts_memOk (State.on_memOk h _) _ _

theorem State.seeOwn_memOk (n : Nat) : (s.seeOwn n).memOk := State.on_memOk h _

theorem State.guardPublish_memOk (gk : Nat) (exclusive : Bool) (pub : List Nat) :
    (s.guardPublish gk exclusive pub).memOk :=
  h

theorem State.guardAcquire_memOk (gk : Nat) (exclusive : Bool) : (s.guardAcquire gk exclusive).memOk := by
  unfold State.guardAcquire
  dsimp only
  split
  · exact State.memOk_mk.mpr (State.on_memOk (State.on_memOk h _) _)
  · exact State.on_memOk h _

theorem State.fenceAcq_memOk (scope : Nat) : (s.fenceAcq scope).memOk := State.on_memOk h _

theorem State.fenceRel_memOk (scope : Nat) : (s.fenceRel scope).memOk := State.on_memOk h _

theorem State.fenceFull_memOk (scope : Nat) : (s.fenceFull scope).memOk :=
  State.memOk_mk.mpr (State.fenceRel_memOk (State.on_memOk (State.fenceAcq_memOk h _) _) _)

theorem State.seeOp_memOk (seq : BitVec 16) : (s.seeOp seq).memOk := State.on_memOk h _

/-! ### Windows -/

theorem State.choosePath_memOk (p q : Nat) : (s.choosePath p q).2.memOk := by
  unfold State.choosePath
  dsimp only
  split
  · exact h
  · dsimp only
    exact State.fresh_memOk h

theorem State.counterOf_memOk (c pa : Nat) : (s.counterOf c pa).2.memOk := by
  unfold State.counterOf
  dsimp only
  split
  · split
    · exact h
    · exact h
    · exact h
  · dsimp only
    exact State.choosePath_memOk h _ _

theorem State.keyWrite_memOk (w : WStand) (pkg k : Nat) (xs : List Byte) : (s.keyWrite w pkg k xs).memOk :=
  State.memOk_mk.mpr (Memory.wf_writeBytes h _ _)

theorem State.offWriteBytes_memOk (w : WStand) (pa : Nat) (place : BitVec 2) (xs : List Byte) :
    (s.offWriteBytes w pa place xs).memOk := by
  unfold State.offWriteBytes
  split
  · exact State.keyWrite_memOk h _ _ _ _
  · exact h

theorem State.observeAt_memOk (pa : Nat) (place : BitVec 2) (n : Nat) (m : RMode) (acq : Option Nat) :
    (s.observeAt pa place n m acq).memOk := by
  unfold State.observeAt
  refine foldl_memOk (fun u x hu => ?_) _ h
  split
  · exact State.observe_memOk hu _ _ _ _
  · exact hu

theorem State.countSymbol_memOk (pa : Nat) (place : BitVec 2) : (s.countSymbol pa place).memOk := by
  unfold State.countSymbol
  split
  · exact State.modPkg_memOk h _ _
  · exact h

theorem State.countRead_memOk (reason : BitVec 4) (pa : Nat) (place : BitVec 2) :
    (s.countRead reason pa place).memOk := by
  unfold State.countRead
  split
  · exact State.countSymbol_memOk h _ _
  · exact h

theorem State.writePart_memOk {t : State} {w : WStand} {place : BitVec 2} {pid : BitVec 16} {pa : Nat}
    {xs : List Byte} (e : s.writePart w place pid pa xs = some t) : t.memOk := by
  unfold State.writePart at e
  split at e
  · split at e
    · cases e; exact h
    · cases e
  · cases e; exact h
  · cases e
  · obtain ⟨_, _, rfl⟩ := Option.map_eq_some_iff.mp e
    exact State.offWriteBytes_memOk h _ _ _ _

theorem State.writeParts_memOk {t : State} {w : WStand} {place : BitVec 2} {pid : BitVec 16} {xs : List Byte}
    {l : List (Nat × Nat)} (e : s.writeParts w place pid xs l = some t) : t.memOk := by
  induction l generalizing s xs with
  | nil => cases e; exact h
  | cons x l ih =>
    unfold State.writeParts at e
    obtain ⟨u, hu, hl⟩ := Option.bind_eq_some_iff.mp e
    exact ih (State.writePart_memOk h hu) hl

theorem State.writeAt_memOk {t : State} {w : WStand} {c pa : Nat} {place : BitVec 2} {pid : BitVec 16}
    {n x : Nat} (e : s.writeAt w c pa place pid n x = some t) : t.memOk := by
  unfold State.writeAt at e
  split at e
  · cases e
  · exact State.writeParts_memOk h e

theorem State.performHost_memOk (w : HostWrite) : (s.performHost w).memOk := State.offWriteBytes_memOk h _ _ _ _

theorem State.drainHost_memOk (pkg : Nat) (f : HostWrite → Bool) (l : List HostWrite) :
    (s.drainHost pkg f l).memOk := by
  induction l generalizing s with
  | nil =>
    unfold State.drainHost
    exact h
  | cons x l ih =>
    unfold State.drainHost
    dsimp only
    split
    · exact ih (State.memOk_mk.mpr (State.performHost_memOk h _))
    · exact ih h

theorem State.afterHost_memOk (pkg : Nat) (hord : Bool) : (s.afterHost pkg hord).memOk := by
  unfold State.afterHost
  split
  · exact State.drainHost_memOk h _ _ _
  · exact h

theorem State.modPaths_memOk (f : Paths → Paths) : (s.modPaths f).memOk := State.on_memOk h _

/-! ### Loads, stores and atomics off the core -/

theorem State.offCoreAccess_memOk {va : Word} {n : Nat} {k : AccKind} {ord : Ord} {r : AccRes}
    (e : s.offCoreAccess va n k ord = r) : r.memOk := by
  subst e; unfold State.offCoreAccess
  split
  · split
    · exact h
    · exact h
  · split
    · rename_i t e
      exact State.threadXlat_memOk h e
    · rename_i t e
      exact State.threadXlat_memOk h e
    · rename_i t e
      have ht : t.memOk := State.threadXlat_memOk h e
      split
      · exact ht
      · split
        · exact ht
        · exact ht

omit h in
theorem AccRes.run_ok {r : AccRes} (hr : r.memOk) {k : Access → State → State}
    (hk : ∀ a u, u.memOk → (k a u).memOk) : outOk (r.run k) := by
  cases r with
  | ok a s => exact outOk_next_of (hk a s hr)
  | wait s => exact outOk_next_of (State.waiting_memOk hr _)
  | fault t s => exact outOk_next_of (State.trap_memOk hr t)

theorem State.outstand_memOk (d : BitVec 5) (va data : Word) (flags : BitVec 6) (reason : Option (BitVec 4))
    (host so : Bool) (base : Nat) : (s.outstand d va data flags reason host so base).memOk :=
  State.waiting_memOk (State.on_memOk h _) _

theorem State.loadOff_memOk (d : BitVec 5) (va : Word) (z : BitVec 1) (n : Nat) (acq : Option Nat) (x : Xlat) :
    (s.loadOff d va z n acq x).memOk := by
  unfold State.loadOff
  split
  · exact State.outstand_memOk (State.countRead_memOk h _ _ _) _ _ _ _ _ _ _ _
  · exact State.outstand_memOk (State.observeAt_memOk h _ _ _ _ _) _ _ _ _ _ _ _ _

theorem State.ldx_ok (d a b : BitVec 5) (z : BitVec 1) (sz : BitVec 2) (ord : Ord) (acq : Option Nat) :
    outOk (s.ldx d a b z sz ord acq) := by
  unfold State.ldx
  dsimp only
  split
  · exact outOk_next_of (State.waiting_memOk h _)
  · refine AccRes.run_ok (State.offCoreAccess_memOk h rfl) (fun u x hu => ?_)
    split
    · exact State.adv_memOk (State.setG_memOk hu _ _)
    · split
      · exact State.waiting_memOk hu _
      · exact State.loadOff_memOk hu _ _ _ _ _ _

@[simp] theorem execLdx_ok (d a b : BitVec 5) (z : BitVec 1) (sz : BitVec 2) (n5 : BitVec 4) :
    outOk (execLdx d a b z sz n5 s) :=
  State.ldx_ok h _ _ _ _ _ _ _

@[simp] theorem execLdxAcq_ok (d a b : BitVec 5) (z : BitVec 1) (sz : BitVec 2) (p : BitVec 4) :
    outOk (execLdxAcq d a b z sz p s) :=
  State.ldx_ok h _ _ _ _ _ _ _

theorem State.finishLoad_memOk (o : Outstanding) : (s.finishLoad o).memOk := by
  unfold State.finishLoad
  dsimp only
  split
  · exact State.trap_memOk (State.on_memOk (State.on_memOk h _) _) _
  · exact State.adv_memOk (State.setFlags_memOk (State.setG_memOk (State.on_memOk h _) _ _) _)

theorem State.dataReturn_memOk : s.dataReturn.memOk := by
  unfold State.dataReturn
  split
  · split
    · exact State.finishLoad_memOk h _
    · exact h
  · exact h

@[simp] theorem execLoadDataReturn_ok (c : Nat) : outOk (execLoadDataReturn c s) :=
  outOk_next_of (State.at_memOk h _ (fun _ hu => State.dataReturn_memOk hu))

theorem State.responseTimeout_memOk : s.responseTimeout.memOk := by
  unfold State.responseTimeout
  split
  · split
    · exact State.finishLoad_memOk h _
    · exact h
  · exact h

@[simp] theorem execMemoryResponseTimeout_ok (c : Nat) : outOk (execMemoryResponseTimeout c s) :=
  outOk_next_of (State.at_memOk h _ (fun _ hu => State.responseTimeout_memOk hu))

theorem State.hostCompletion_memOk (ok : Bool) : (State.hostCompletion ok s).memOk := by
  unfold State.hostCompletion
  split
  · split
    · exact h
    · exact State.finishLoad_memOk h _
  · exact h

@[simp] theorem execHostReadCompletion_ok (c : Nat) (ok : Bool) : outOk (execHostReadCompletion c ok s) :=
  outOk_next_of (State.at_memOk h _ (fun _ hu => State.hostCompletion_memOk hu _))

theorem State.onTheWay_memOk (p : Posted) : (s.onTheWay p).memOk := h

theorem State.admitOrdered_memOk (q g : Nat) : (s.admitOrdered q g).memOk := by
  unfold State.admitOrdered
  split
  · split
    · exact h
    · exact h
  · exact h

theorem State.hold_memOk (o : OrdStore) : (s.hold o).memOk :=
  State.admitOrdered_memOk (State.memOk_mk.mpr h) _ _

theorem State.unhold_memOk (i : Nat) (o : OrdStore) : (s.unhold i o).memOk :=
  State.admitOrdered_memOk (State.memOk_mk.mpr h) _ _

@[simp] theorem State.post_memOk (w : WStand) (pa : Nat) (place : BitVec 2) (n x base : Nat) :
    (s.post w pa place n x base).memOk := by
  let t := (s.counterOf s.core.addr.toNat pa).2
  have ht : ∀ b : Bool, (if b then t.fresh else (0, t)).2.memOk := by
    intro b
    have h0 := State.counterOf_memOk h s.core.addr.toNat pa
    cases b with
    | false => exact h0
    | true => exact State.fresh_memOk h0
  unfold State.post
  apply State.onTheWay_memOk
  refine written_memOk (fun t e => ?_) (fun u hu => State.seeOwn_memOk hu s.order.next) ?_ _
  · exact State.writeAt_memOk (State.modPaths_memOk (ht _) _) e
  · exact State.on_memOk (State.modPaths_memOk (ht _) _) _

theorem State.postOrdered_memOk (x : Xlat) (scope n : Nat) (va v : Word) : (s.postOrdered x scope n va v).memOk :=
  State.memOk_mk.mpr (State.hold_memOk (State.modPaths_memOk (State.counterOf_memOk h _ _) _) _)

theorem State.sendStore_memOk (x : Xlat) (ord : Ord) (n : Nat) (va v : Word) (rel : Option Nat) :
    (s.sendStore x ord n va v rel).memOk := by
  unfold State.sendStore
  dsimp only
  split
  · exact State.postOrdered_memOk h _ _ _ _ _
  · exact State.post_memOk (State.afterHost_memOk h _ _) _ _ _ _ _ _

theorem State.stx_ok (d a b : BitVec 5) (sz : BitVec 2) (ord : Ord) (rel : Option Nat) :
    outOk (s.stx d a b sz ord rel) := by
  unfold State.stx
  dsimp only
  split
  · rename_i t e
    have ht : t.memOk := State.offCoreAccess_memOk h e
    exact outOk_next_of (State.adv_memOk (State.localWrite_memOk ht _ _ _))
  · rename_i t e
    have ht : t.memOk := State.offCoreAccess_memOk h e
    split
    · exact outOk_checked ht _ (State.adv_memOk (State.outPush_memOk ht _))
    · split
      · exact outOk_next_of (State.waiting_memOk ht _)
      · exact outOk_next_of (State.adv_memOk (State.sendStore_memOk ht _ _ _ _ _ _))
  · rename_i t e
    have ht : t.memOk := State.offCoreAccess_memOk h e
    exact outOk_next_of (State.waiting_memOk ht _)
  · rename_i t e
    have ht : t.memOk := State.offCoreAccess_memOk h e
    exact outOk_next_of (State.trap_memOk ht _)

@[simp] theorem execStx_ok (d a b : BitVec 5) (sz : BitVec 2) (n4 : BitVec 4) : outOk (execStx d a b sz n4 s) :=
  State.stx_ok h _ _ _ _ _ _

@[simp] theorem execStxRel_ok (d a b : BitVec 5) (sz : BitVec 2) (p : BitVec 4) : outOk (execStxRel d a b sz p s) :=
  State.stx_ok h _ _ _ _ _ _

@[simp] theorem execStxOf_ok (d a b : BitVec 5) (sz : BitVec 2) (p : BitVec 4) : outOk (execStxOf d a b sz p s) :=
  State.stx_ok h _ _ _ _ _ _

@[simp] theorem execWriteAcknowledgement_ok (i : Nat) : outOk (execWriteAcknowledgement i s) := by
  unfold execWriteAcknowledgement
  dsimp only
  split
  · exact outOk_next_of h
  · exact outOk_next_of (State.atThread_memOk (State.memOk_mk.mpr h) _ (fun u hu => State.modPaths_memOk hu _))

@[simp] theorem execOrderedStoreRelease_ok (i : Nat) : outOk (execOrderedStoreRelease i s) := by
  unfold execOrderedStoreRelease
  split
  · exact outOk_next_of h
  · rename_i o _
    split
    · have ht := State.afterHost_memOk (State.unhold_memOk h i o) o.pkg o.hord
      refine outOk_next_of (State.onTheWay_memOk (getD_memOk (fun t e => ?_)
        (State.atThread_memOk ht _ fun u hu => State.on_memOk hu _)) _)
      obtain ⟨u, hu, rfl⟩ := Option.map_eq_some_iff.mp e
      exact State.atThread_memOk (State.writeAt_memOk ht hu) _ fun u hu => State.seeOwn_memOk hu _
    · exact outOk_next_of h

@[simp] theorem execOrderedStoreTimeout_ok (i : Nat) : outOk (execOrderedStoreTimeout i s) := by
  unfold execOrderedStoreTimeout
  split
  · exact outOk_next_of h
  · split
    · exact outOk_next_of (State.onTheWay_memOk (State.atThread_memOk (State.unhold_memOk h _ _) _
        (fun u hu => State.on_memOk hu _)) _)
    · exact outOk_next_of h

theorem State.atomWrite_memOk (x : Xlat) (n : Nat) (xs : List Byte) (ar : Option Nat) :
    (s.atomWrite x n xs ar).memOk :=
  State.seeOwn_memOk (State.offWriteBytes_memOk (State.observeAt_memOk h _ _ _ _ _) _ _ _ _) _

theorem State.atom_ok (op : Nat) (d a b : BitVec 5) (r sz : BitVec 1) (p : BitVec 4) (zero : Bool)
    (f : Nat → Nat → Nat → Nat × BitVec 6) : outOk (s.atom op d a b r sz p zero f) := by
  unfold State.atom
  dsimp only
  split
  · exact outOk_next_of (State.waiting_memOk h _)
  · split
    · exact outOk_next_of (State.trap_memOk h _)
    · refine AccRes.run_ok (State.offCoreAccess_memOk h rfl) (fun u x hu => ?_)
      split
      · exact hu
      · split
        · split
          · exact State.waiting_memOk hu _
          · split
            · exact State.outstand_memOk (State.countRead_memOk hu _ _ _) _ _ _ _ _ _ _ _
            · exact State.outstand_memOk (State.atomWrite_memOk hu _ _ _ _) _ _ _ _ _ _ _ _
        · split
          · exact State.waiting_memOk hu _
          · split
            · exact State.outstand_memOk (State.countRead_memOk hu _ _ _) _ _ _ _ _ _ _ _
            · exact State.outstand_memOk (State.atomWrite_memOk hu _ _ _ _) _ _ _ _ _ _ _ _

@[simp] theorem execAtomAdd_ok (d a b : BitVec 5) (r sz : BitVec 1) (p : BitVec 4) :
    outOk (execAtomAdd d a b r sz p s) :=
  State.atom_ok h _ _ _ _ _ _ _ _ _

@[simp] theorem execAtomAnd_ok (d a b : BitVec 5) (r sz : BitVec 1) (p : BitVec 4) :
    outOk (execAtomAnd d a b r sz p s) :=
  State.atom_ok h _ _ _ _ _ _ _ _ _

@[simp] theorem execAtomOr_ok (d a b : BitVec 5) (r sz : BitVec 1) (p : BitVec 4) :
    outOk (execAtomOr d a b r sz p s) :=
  State.atom_ok h _ _ _ _ _ _ _ _ _

@[simp] theorem execAtomXor_ok (d a b : BitVec 5) (r sz : BitVec 1) (p : BitVec 4) :
    outOk (execAtomXor d a b r sz p s) :=
  State.atom_ok h _ _ _ _ _ _ _ _ _

@[simp] theorem execAtomMin_ok (d a b : BitVec 5) (r sz : BitVec 1) (p : BitVec 4) :
    outOk (execAtomMin d a b r sz p s) :=
  State.atom_ok h _ _ _ _ _ _ _ _ _

@[simp] theorem execAtomMax_ok (d a b : BitVec 5) (r sz : BitVec 1) (p : BitVec 4) :
    outOk (execAtomMax d a b r sz p s) :=
  State.atom_ok h _ _ _ _ _ _ _ _ _

@[simp] theorem execAtomMinz_ok (d a b : BitVec 5) (r sz : BitVec 1) (p : BitVec 4) :
    outOk (execAtomMinz d a b r sz p s) :=
  State.atom_ok h _ _ _ _ _ _ _ _ _

@[simp] theorem execAtomMaxz_ok (d a b : BitVec 5) (r sz : BitVec 1) (p : BitVec 4) :
    outOk (execAtomMaxz d a b r sz p s) :=
  State.atom_ok h _ _ _ _ _ _ _ _ _

@[simp] theorem execAtomSwap_ok (d a b : BitVec 5) (r sz : BitVec 1) (p : BitVec 4) :
    outOk (execAtomSwap d a b r sz p s) :=
  State.atom_ok h _ _ _ _ _ _ _ _ _

@[simp] theorem execAtomCas_ok (d a b : BitVec 5) (r sz : BitVec 1) (p : BitVec 4) :
    outOk (execAtomCas d a b r sz p s) :=
  State.atom_ok h _ _ _ _ _ _ _ _ _

@[simp] theorem execAtomFadd_ok (d a b : BitVec 5) (r sz : BitVec 1) (p : BitVec 4) :
    outOk (execAtomFadd d a b r sz p s) :=
  State.atom_ok h _ _ _ _ _ _ _ _ _

@[simp] theorem execFenceAcq_ok (p : BitVec 4) : outOk (execFenceAcq p s) :=
  outOk_next_of (State.adv_memOk (State.fenceAcq_memOk h _))

@[simp] theorem execFenceRel_ok (p : BitVec 4) : outOk (execFenceRel p s) := by
  unfold execFenceRel
  refine outOk_next_of ?_
  split
  · exact State.waiting_memOk h _
  · exact State.adv_memOk (State.fenceRel_memOk h _)

@[simp] theorem execFenceFull_ok (p : BitVec 4) : outOk (execFenceFull p s) := by
  unfold execFenceFull
  refine outOk_next_of ?_
  split
  · exact State.waiting_memOk h _
  · exact State.adv_memOk (State.fenceFull_memOk h _)

@[simp] theorem execFenceAck_ok : outOk (execFenceAck s) := by
  unfold execFenceAck
  dsimp only
  split
  · exact outOk_next_of (State.waiting_memOk h _)
  · split
    · exact outOk_next_of (State.adv_memOk (State.fenceFull_memOk h _))
    · exact outOk_next_of (State.trap_memOk (State.modPaths_memOk (State.fenceFull_memOk h _) _) _)

/-! ### The operation ring -/

theorem State.dispatched_ok (t : Option Trap) (full : Bool) {go : State} (hgo : go.memOk) :
    outOk (s.dispatched t full go) := by
  unfold State.dispatched
  split
  · exact outOk_next_of (State.trap_memOk h _)
  · split
    · exact outOk_next_of (State.waiting_memOk h _)
    · split
      · exact outOk_next_of (State.waiting_memOk h _)
      · exact outOk_next_of (State.doubleTrap_memOk h _)
      · exact outOk_next_of hgo

theorem State.dispatchTo_memOk (major sub : Nat) (d : BitVec 5) (x : OpSpans) (body : OpBody) :
    (s.dispatchTo major sub d x body).memOk :=
  State.adv_memOk (State.setG_memOk (State.on_memOk h _) _ _)

theorem State.resultBytes_memOk (a : Nat) (xs : List Byte) : (s.resultBytes a xs).memOk := by
  unfold State.resultBytes
  split
  · exact h
  · exact State.localWriteBytes_memOk h _ _

theorem State.completionWord_memOk (a : Nat) (x : Word) : (s.completionWord a x).memOk := by
  unfold State.completionWord
  split
  · exact h
  · exact State.setLatch_memOk (State.localWrite_memOk h _ _ _)

/-! ### Range operations -/

theorem State.rangeInstr_ok (form : RangeForm) (d a b : BitVec 5) : outOk (s.rangeInstr form d a b) :=
  State.dispatched_ok h _ _ (State.dispatchTo_memOk h _ _ _ _ _)

@[simp] theorem execRload_ok (d a b : BitVec 5) : outOk (execRload d a b s) := State.rangeInstr_ok h _ _ _ _

@[simp] theorem execRprobe_ok (d a b : BitVec 5) : outOk (execRprobe d a b s) := State.rangeInstr_ok h _ _ _ _

@[simp] theorem execRsplit_ok (d a b : BitVec 5) : outOk (execRsplit d a b s) := State.rangeInstr_ok h _ _ _ _

@[simp] theorem execRmerge_ok (d a b : BitVec 5) : outOk (execRmerge d a b s) := State.rangeInstr_ok h _ _ _ _

@[simp] theorem execRinv_ok (d a b : BitVec 5) : outOk (execRinv d a b s) := State.rangeInstr_ok h _ _ _ _

@[simp] theorem execRres_ok (d a b : BitVec 5) : outOk (execRres d a b s) := State.rangeInstr_ok h _ _ _ _

@[simp] theorem execRcompact_ok (d a b : BitVec 5) : outOk (execRcompact d a b s) :=
  State.rangeInstr_ok h _ _ _ _

@[simp] theorem execRstat_ok (d b : BitVec 5) : outOk (execRstat d b s) := State.rangeInstr_ok h _ _ _ _

theorem State.rangeDone_memOk (seq : BitVec 16) (va : Word) (res code resetAck : Nat) (body : List Byte) :
    (s.rangeDone seq va res code resetAck body).memOk := by
  unfold State.rangeDone
  dsimp only
  split
  · exact State.lateFault_memOk (State.completionWord_memOk (State.resultBytes_memOk h _ _) _ _) _ _ _
  · exact State.opDone_memOk (State.completionWord_memOk (State.resultBytes_memOk h _ _) _ _) _

theorem State.rangeSubmit_memOk (seq : BitVec 16) (form : RangeForm) (va : Word) (block : BitVec 512)
    (res : Nat) (olds news : List RangeEntry) (setOnly : Bool) (old : RangeEntry) :
      (s.rangeSubmit seq form va block res olds news setOnly old).memOk :=
  State.memOk_mk.mpr (State.on_memOk h _)

theorem State.rangeChange_memOk (seq : BitVec 16) (form : RangeForm) (va : Word) (block : BitVec 512)
    (res : Nat) : (s.rangeChange seq form va block res).memOk := by
  unfold State.rangeChange
  dsimp only
  split
  · exact h
  · split
    · rename_i t e
      have ht : t.memOk := State.stationFind_memOk_of_eq h e
      exact h
    · rename_i t e
      have ht : t.memOk := State.stationFind_memOk_of_eq h e
      exact State.rangeDone_memOk ht _ _ _ _ _ _
    · rename_i t e
      have ht : t.memOk := State.stationFind_memOk_of_eq h e
      split
      · exact State.rangeDone_memOk ht _ _ _ _ _ _
      · exact State.rangeDone_memOk ht _ _ _ _ _ _
      · split
        · exact State.rangeDone_memOk ht _ _ _ _ _ _
        · split
          · exact State.rangeDone_memOk ht _ _ _ _ _ _
          · exact State.rangeSubmit_memOk ht _ _ _ _ _ _ _ _ _

theorem State.rangeInstall_memOk (seq : BitVec 16) (va : Word) (block : BitVec 512) (res : Nat) :
    (s.rangeInstall seq va block res).memOk := by
  unfold State.rangeInstall
  dsimp only
  split
  · exact State.rangeDone_memOk h _ _ _ _ _ _
  · split
    · exact State.rangeDone_memOk h _ _ _ _ _ _
    · split
      · exact State.rangeDone_memOk h _ _ _ _ _ _
      · exact State.rangeDone_memOk (State.modCatalogue_memOk h _ _) _ _ _ _ _ _

theorem State.rangeProbe_memOk (seq : BitVec 16) (va : Word) (res : Nat) : (s.rangeProbe seq va res).memOk := by
  unfold State.rangeProbe
  split
  · exact State.rangeDone_memOk h _ _ _ _ _ _
  · split
    · rename_i t e
      have ht : t.memOk := State.stationFind_memOk_of_eq h e
      exact h
    · rename_i t e
      have ht : t.memOk := State.stationFind_memOk_of_eq h e
      exact State.rangeDone_memOk ht _ _ _ _ _ _
    · rename_i t e
      have ht : t.memOk := State.stationFind_memOk_of_eq h e
      exact State.rangeDone_memOk ht _ _ _ _ _ _

theorem State.rangeRequest_memOk : s.rangeRequest.memOk := by
  unfold State.rangeRequest
  dsimp only
  split
  · exact h
  · split
    · exact h
    · split
      · exact State.rangeInstall_memOk h _ _ _ _
      · exact State.rangeProbe_memOk h _ _ _
      · exact State.rangeDone_memOk h _ _ _ _ _ _
      · exact State.rangeChange_memOk h _ _ _ _ _
      · exact h

@[simp] theorem execStationRangeRequest_ok (c : Nat) : outOk (execStationRangeRequest c s) :=
  outOk_next_of (State.atAgent_memOk h _ (fun _ hu => State.rangeRequest_memOk hu))

theorem State.modRangeOp_memOk (r : RangeOp) (f : RangeOp → RangeOp) : (s.modRangeOp r f).memOk := h

theorem State.dropEntries_memOk (f : TableEntry → Bool) : (s.dropEntries f).memOk := State.on_memOk h _

theorem State.dropAt_memOk (r : RangeOp) (cs : List Nat) : (s.dropAt r cs).memOk :=
  foldl_memOk (fun _ _ hu => State.at_memOk hu _ (fun _ hv => State.dropEntries_memOk hv _)) _ h

theorem State.tellAt_memOk (r : RangeOp) (cs : List Nat) : (s.tellAt r cs).memOk := by
  unfold State.tellAt
  dsimp only
  split
  · exact foldl_memOk (fun u x hu => State.at_memOk hu _ (fun v hv => State.on_memOk hv _)) _ h
  · exact State.dropAt_memOk h _ _

theorem State.noticeAt_memOk (r : RangeOp) (station : Nat) (hits : List CatEntry) (f : RangeOp → RangeOp) :
    (s.noticeAt r station hits f).memOk :=
  State.modRangeOp_memOk (State.modCatalogue_memOk h _ _) _ _

@[simp] theorem execRangeNotice_ok (pkg pid station : Nat) : outOk (execRangeNotice pkg pid station s) := by
  unfold execRangeNotice
  dsimp only
  split
  · exact outOk_next_of h
  · split
    · exact outOk_next_of h
    · split
      · exact outOk_next_of (State.noticeAt_memOk (State.tellAt_memOk h _ _) _ _ _ _)
      · exact outOk_next_of (State.noticeAt_memOk h _ _ _ _)

theorem State.holderStep_memOk (r : RangeOp) : (s.holderStep r).memOk := by
  unfold State.holderStep
  dsimp only
  split
  · exact State.on_memOk h _
  · refine State.modRangeOp_memOk ?_ _ _
    split
    · exact State.on_memOk h _
    · exact State.on_memOk (State.on_memOk h _) _

@[simp] theorem execHolderAcknowledge_ok (c : Nat) : outOk (execHolderAcknowledge c s) := by
  unfold execHolderAcknowledge
  split
  · exact outOk_next_of (State.at_memOk h _ (fun u hu => State.dropEntries_memOk hu _))
  · exact outOk_next_of (State.at_memOk h _ (fun u hu => State.holderStep_memOk hu _))

theorem State.rangeFinish_memOk (r : RangeOp) (code : Nat) : (s.rangeFinish r code).memOk :=
  State.atThread_memOk (State.memOk_mk.mpr h) _ (fun _ hu => State.rangeDone_memOk hu _ _ _ _ _ _)

theorem State.modStations_memOk (pkg : Nat) (f : List CatEntry → List CatEntry) : (s.modStations pkg f).memOk :=
  h

@[simp] theorem execCoordinatorApply_ok (pkg pid : Nat) : outOk (execCoordinatorApply pkg pid s) := by
  unfold execCoordinatorApply
  split
  · exact outOk_next_of h
  · split
    · exact outOk_next_of h
    · refine outOk_next_of (State.rangeFinish_memOk ?_ _ _)
      split
      · exact h
      · exact State.modStations_memOk h _ _

theorem State.moveRun_memOk (m0 : State) (id : Nat) (resident : Bool) (x : Option Nat × Option Nat × Nat) :
    (m0.moveRun id resident s x).memOk := by
  unfold State.moveRun
  dsimp only
  split
  · refine State.memOk_mk.mpr ?_
    split
    · split
      · exact Memory.wf_copyFrom h _ _ _ _
      · exact Memory.wf_undefine h _ _ _
    · exact Memory.wf_undefine h _ _ _
  · exact h

theorem State.movePart_memOk (m0 : State) (id : Nat) (e : RangeEntry) (dst j : Nat) :
    (m0.movePart id e dst s j).memOk := by
  unfold State.movePart
  dsimp only
  split
  · exact h
  · exact foldl_memOk (fun u x hu => State.moveRun_memOk hu _ _ _ _) _ h

@[simp] theorem execConservatorCopy_ok (pkg pid : Nat) : outOk (execConservatorCopy pkg pid s) := by
  unfold execConservatorCopy
  dsimp only
  split
  · exact outOk_next_of h
  · split
    · exact outOk_next_of h
    · exact outOk_next_of (State.modRangeOp_memOk (foldl_memOk
        (fun u x hu => State.movePart_memOk hu _ _ _ _ _) _ (State.fresh_memOk h)) _ _)

theorem State.retargetCores_memOk (r : RangeOp) (off : Word) : (s.retargetCores r off).memOk := h

@[simp] theorem execRetarget_ok (pkg pid : Nat) : outOk (execRetarget pkg pid s) := by
  unfold execRetarget
  dsimp only
  split
  · exact outOk_next_of h
  · split
    · exact outOk_next_of (State.rangeFinish_memOk (State.retargetCores_memOk
        (State.modStations_memOk h _ _) _ _) _ _)
    · exact outOk_next_of h

/-! ### Guards -/

theorem State.keepPlace_memOk (form : GuardForm) : (s.keepPlace form).memOk := by
  unfold State.keepPlace
  split
  · exact State.outPush_memOk h _
  · exact h

theorem State.guardInstr_ok (form : GuardForm) (d a b : BitVec 5) : outOk (s.guardInstr form d a b) :=
  State.dispatched_ok h _ _ (State.dispatchTo_memOk (State.keepPlace_memOk h _) _ _ _ _ _)

@[simp] theorem execGbind_ok (d a b : BitVec 5) : outOk (execGbind d a b s) := State.guardInstr_ok h _ _ _ _

@[simp] theorem execGunbind_ok (d a b : BitVec 5) : outOk (execGunbind d a b s) := State.guardInstr_ok h _ _ _ _

@[simp] theorem execGacqS_ok (d a b : BitVec 5) : outOk (execGacqS d a b s) := State.guardInstr_ok h _ _ _ _

@[simp] theorem execGacqX_ok (d a b : BitVec 5) : outOk (execGacqX d a b s) := State.guardInstr_ok h _ _ _ _

@[simp] theorem execGrel_ok (d a b : BitVec 5) : outOk (execGrel d a b s) := State.guardInstr_ok h _ _ _ _

@[simp] theorem execGtryS_ok (d a b : BitVec 5) : outOk (execGtryS d a b s) := State.guardInstr_ok h _ _ _ _

@[simp] theorem execGtryX_ok (d a b : BitVec 5) : outOk (execGtryX d a b s) := State.guardInstr_ok h _ _ _ _

@[simp] theorem execGflush_ok (d a b : BitVec 5) : outOk (execGflush d a b s) := State.guardInstr_ok h _ _ _ _

@[simp] theorem execGstat_ok (d a b : BitVec 5) : outOk (execGstat d a b s) := State.guardInstr_ok h _ _ _ _

theorem State.guardDone_memOk (seq : BitVec 16) (num : Nat) (status : Option Nat) (code : Nat)
    (lost renum : Bool) : (s.guardDone seq num status code lost renum).memOk := by
  unfold State.guardDone
  split
  · exact State.opDone_memOk (State.completionWord_memOk h _ _) _
  · split
    · exact State.opDone_memOk h _
    · exact State.lateFault_memOk h _ _ _

theorem State.guardEnd_memOk (core num : Nat) (seq : BitVec 16) (code : Nat) (lost renum : Bool) :
    (s.guardEnd core num seq code lost renum).memOk :=
  State.atThread_memOk h _ (fun _ hu => State.guardDone_memOk hu _ _ _ _ _ _)

theorem State.modGuard_memOk (gk : Nat) (f : Guard → Guard) : (s.modGuard gk f).memOk := by
  unfold State.modGuard
  split
  · exact h
  · exact h

theorem State.gsend_memOk (m : GuardMsg) : (s.gsend m).memOk := h

theorem State.acquires_memOk (r : GuardReq) : (s.acquires r).memOk := by
  unfold State.acquires
  split
  · exact h
  · exact State.atThread_memOk h _ (fun u hu => State.on_memOk hu _)

theorem State.gServe_memOk (gk : Nat) (r : GuardReq) : (s.gServe gk r).memOk := by
  unfold State.gServe
  split
  · exact State.acquires_memOk (State.gsend_memOk (State.modGuard_memOk h _ _) _) _
  · exact h

theorem State.serveQueue_memOk (gk : Nat) : (s.serveQueue gk).memOk := by
  unfold State.serveQueue
  dsimp only
  split
  · exact h
  · exact foldl_memOk (fun u x hu => State.gServe_memOk hu _ _) _ (State.modGuard_memOk h _ _)

theorem State.tidy_memOk (gk : Nat) : (s.tidy gk).memOk := by
  unfold State.tidy
  dsimp only
  split
  · exact h
  · split
    · exact State.offWriteBytes_memOk (State.memOk_mk.mpr (Memory.wf_zero h _ _)) _ _ _ _
    · exact h

theorem State.gCount_memOk (gk : Nat) : (s.gCount gk).memOk := by
  unfold State.gCount
  split
  · exact h
  · split
    · exact State.modGuard_memOk h _ _
    · exact State.tidy_memOk (State.serveQueue_memOk (State.modGuard_memOk h _ _) _) _

theorem State.stampAll_memOk (stamps r : Nat) (l : List Nat) : (s.stampAll stamps r l).memOk := by
  induction l generalizing s with
  | nil =>
    unfold State.stampAll
    exact h
  | cons x l ih =>
    unfold State.stampAll
    exact ih (State.rawWrite_memOk h _ _)

theorem State.stampRelease_memOk (num : Nat) (b : Binding) (renum : Bool) (r : BitVec 32) :
    (s.stampRelease num b renum r).memOk :=
  State.on_memOk (State.withMem_memOk (Memory.wf_copy (State.stampAll_memOk h _ _ _) _ _ _)) _

theorem State.releaseAt_memOk (num : Nat) (exclusive abort renum : Bool) (r : BitVec 32) :
    (s.releaseAt num exclusive abort renum r).memOk := by
  unfold State.releaseAt
  split
  · exact h
  · split
    · exact State.on_memOk h _
    · split
      · exact State.stampRelease_memOk h _ _ _ _
      · exact State.on_memOk h _

theorem State.releaseLater_memOk (num : Nat) (exclusive renum : Bool) (r : BitVec 32) :
    (s.releaseLater num exclusive renum r).memOk := by
  unfold State.releaseLater
  split
  · split
    · exact State.stampRelease_memOk h _ _ _ _
    · exact h
  · exact h

theorem State.gReleaseBy_memOk (gk core num : Nat) (abort : Bool) (pub : List Nat) (later : Option Bool) :
    (s.gReleaseBy gk core num abort pub later).memOk := by
  unfold State.gReleaseBy
  dsimp only
  split
  · exact h
  · split
    · exact h
    · refine State.gCount_memOk (State.atThread_memOk ?_ _ (fun u hu => ?_)) _
      · split
        · exact h
        · exact State.guardPublish_memOk (State.memOk_mk.mpr h) _ _ _
      · split
        · exact State.releaseAt_memOk hu _ _ _ _ _
        · exact State.releaseLater_memOk hu _ _ _ _

theorem State.gRelease_memOk (gk core num : Nat) (abort : Bool) (pub : List Nat) :
    (s.gRelease gk core num abort pub).memOk :=
  State.gReleaseBy_memOk h _ _ _ _ _ _

theorem State.foreignWrite_memOk (a : Nat) (xs : List Byte) : (s.foreignWrite a xs).memOk :=
  foldl_memOk (fun _ _ hu => State.withMem_memOk (Memory.wf_undefine (State.fresh_memOk hu) _ _ _)) _
    (State.localWriteBytes_memOk h _ _)

theorem State.deliver_memOk (b : Binding) (l : List SubBlock) : (s.deliver b l).memOk := by
  induction l generalizing s with
  | nil =>
    unfold State.deliver
    exact h
  | cons x l ih =>
    unfold State.deliver
    exact ih (State.rawWrite_memOk (State.rawWrite_memOk h _ _) _ _)

theorem State.homeWrite_memOk (w : WStand) (g : Guard) (x : SubBlock) : (s.homeWrite w g x).memOk :=
  State.withMem_memOk (Memory.wf_writeBytes (State.offWriteBytes_memOk
    (State.offWriteBytes_memOk h _ _ _ _) _ _ _ _) _ _)

theorem State.gWriteBack_memOk (gk : Nat) : (s.gWriteBack gk).memOk := by
  unfold State.gWriteBack
  obtain ⟨copy, hc⟩ : ∃ copy, s.supplierCopy gk = copy := ⟨_, rfl⟩
  rw [hc]
  split
  · exact h
  · split
    · exact h
    · split
      · exact State.modGuard_memOk (foldl_memOk (fun u x hu => State.homeWrite_memOk hu _ _ _) _ h) _ _
      · exact State.modGuard_memOk h _ _

theorem State.unbindCore_memOk (num : Nat) : (s.unbindCore num).memOk := by
  unfold State.unbindCore
  split
  · exact State.on_memOk (State.withMem_memOk (Memory.wf_zero h _ _)) _
  · exact h

theorem State.uncount_memOk (gk core num : Nat) : (s.uncount gk core num).memOk :=
  State.tidy_memOk (State.atThread_memOk (State.modGuard_memOk h _ _) _ (fun _ hu => State.unbindCore_memOk hu _)) _

theorem State.unbindHome_memOk (gk core num : Nat) : (s.unbindHome gk core num).memOk := by
  unfold State.unbindHome
  split
  · split
    · exact State.modGuard_memOk (State.gWriteBack_memOk h _) _ _
    · exact h
  · exact h

theorem State.unbindNow_memOk (core num : Nat) (b : Binding) : (s.unbindNow core num b).memOk :=
  State.uncount_memOk (State.unbindHome_memOk (State.gRelease_memOk h _ _ _ _ _) _ _ _) _ _ _

theorem State.takeDown_memOk (core num : Nat) (b : Binding) : (s.takeDown core num b).memOk := by
  rw [show @State.takeDown = delta% @State.takeDown from rfl]
  have ht := State.uncount_memOk (State.gRelease_memOk h (guardKey b.place b.guard) core num true [])
    (guardKey b.place b.guard) core num
  dsimp only
  split
  · split
    · exact State.modGuard_memOk ht _ _
    · exact ht
  · exact ht

theorem State.endBindings_memOk (core : Nat) {f : State → Nat → Nat → Binding → State}
    (hf : ∀ u c n b, u.memOk → (f u c n b).memOk) : (s.endBindings core f).memOk := by
  unfold State.endBindings
  refine foldl_memOk (fun u n hu => ?_) _ h
  split
  · split
    · exact hu
    · exact hf _ _ _ _ hu
  · exact hu

theorem State.bindRegion_memOk {x : BitVec 512} {gx : Xlat} {g : Guard} {lslim : Nat} {r : BindRes}
    (e : s.bindRegion x gx g lslim = r) : r.memOk := by
  subst e; unfold State.bindRegion
  dsimp only
  split
  · rename_i t e
    exact State.engineXlat_memOk h e
  · rename_i t e
    exact State.engineXlat_memOk h e
  · rename_i t e
    have ht : t.memOk := State.engineXlat_memOk h e
    split
    · exact ht
    · split
      · exact ht
      · split
        · exact ht
        · split
          · exact ht
          · split
            · exact ht
            · exact State.on_memOk ht _

omit h in
theorem BindRes.on_memOk {r : BindRes} (hr : r.memOk) {f : State → State} (hf : ∀ u, u.memOk → (f u).memOk) :
    (r.on f).memOk := by
  cases r with
  | code n s => exact hf s hr
  | fault t s => exact hf s hr
  | wait s => exact hf s hr
  | ok b g s => exact hf s hr

theorem State.bindChecks_memOk {x : BitVec 512} {num lslim : Nat} {r : BindRes}
    (e : s.bindChecks x num lslim = r) : r.memOk := by
  subst e; unfold State.bindChecks
  dsimp only
  split
  · exact h
  · split
    · exact h
    · split
      · rename_i t e
        exact State.engineXlat_memOk h e
      · rename_i t e
        exact State.engineXlat_memOk h e
      · rename_i t e
        have ht : t.memOk := State.engineXlat_memOk h e
        split
        · exact ht
        · split
          · exact ht
          · split
            · exact ht
            · exact State.bindRegion_memOk ht rfl

theorem State.bindCheck_memOk (x : BitVec 512) (num lslim : Nat) : (s.bindCheck x num lslim).memOk :=
  BindRes.on_memOk (State.bindChecks_memOk h rfl) fun _ hu => State.on_memOk hu _

theorem State.homeKept_memOk (gk : Nat) (g : Guard) : (s.homeKept gk g).memOk := by
  unfold State.homeKept
  split
  · exact h
  · exact State.withMem_memOk (Memory.wf_copy h _ _ _)

theorem State.bindMade_memOk (num : Nat) (b : Binding) (g : Guard) : (s.bindMade num b g).memOk :=
  State.on_memOk (State.memOk_mk.mpr (State.homeKept_memOk h _ _)) _

theorem State.startBind_memOk (seq : BitVec 16) (num : Nat) (x : BitVec 512) (status : Option Nat) (lslim : Nat) :
    (s.startBind seq num x status lslim).memOk := by
  have hb := State.bindCheck_memOk h x num lslim
  unfold State.startBind
  obtain ⟨r, hr⟩ : ∃ r, s.bindCheck x num lslim = r := ⟨_, rfl⟩
  rw [hr] at hb ⊢
  cases r with
  | wait t => exact hb
  | code n t => exact State.guardDone_memOk hb _ _ _ _ _ _
  | fault f t => exact State.lateFault_memOk hb _ _ _
  | ok b g t => 
    have ht := State.guardDone_memOk (State.bindMade_memOk hb num b g) seq num status gOk false false
    dsimp only
    split
    · exact State.takeDown_memOk ht _ _ _
    · exact ht

theorem State.startOn_memOk (seq : BitVec 16) (form : GuardForm) (num : Nat) (b : Binding) :
    (s.startOn seq form num b).memOk := by
  unfold State.startOn
  dsimp only
  split
  · exact State.gsend_memOk (State.on_memOk h _) _
  · exact State.on_memOk (State.gsend_memOk (State.on_memOk h _) _) _
  · exact State.on_memOk (State.gsend_memOk (State.on_memOk h _) _) _
  · exact State.gsend_memOk (State.on_memOk h _) _
  · exact State.gsend_memOk (State.on_memOk h _) _
  · exact State.gsend_memOk (State.on_memOk h _) _
  · exact State.gsend_memOk (State.on_memOk h _) _
  · exact h

theorem State.guardRefused_memOk (seq : BitVec 16) (num : Nat) (status : Option Nat) (code : Nat) :
    (s.guardRefused seq num status code).memOk :=
  State.guardDone_memOk (State.on_memOk h _) _ _ _ _ _ _

theorem State.startBufferedRelease_memOk (seq : BitVec 16) (num : Nat) (status : Option Nat) (b : Binding) :
    (s.startBufferedRelease seq num status b).memOk := by
  unfold State.startBufferedRelease
  dsimp only
  refine State.guardDone_memOk ?_ _ _ _ _ _ _
  split
  · exact h
  · split
    · exact State.on_memOk h _
    · exact State.on_memOk h _

theorem State.releaseBuffered_memOk (num : Nat) (dirty : List Nat) : (s.releaseBuffered num dirty).memOk := by
  unfold State.releaseBuffered
  split
  · exact State.gReleaseBy_memOk h _ _ _ _ _ _
  · exact h

theorem State.startGuard_memOk (seq : BitVec 16) : (s.startGuard seq).memOk := by
  unfold State.startGuard
  dsimp only
  split
  · exact h
  · split
    · split
      · exact h
      · split
        · exact State.startBind_memOk h _ _ _ _ _
        · split
          · exact State.guardRefused_memOk h _ _ _ _
          · split
            · exact State.guardDone_memOk h _ _ _ _ _ _
            · split
              · exact State.guardRefused_memOk h _ _ _ _
              · split
                · exact State.startBufferedRelease_memOk h _ _ _ _
                · exact State.startOn_memOk h _ _ _ _
    · exact h

@[simp] theorem execGuardOperationStart_ok (c seq : Nat) : outOk (execGuardOperationStart c seq s) :=
  outOk_next_of (State.atAgent_memOk h _ (fun _ hu => State.startGuard_memOk hu _))

theorem State.gtake_memOk (i : Nat) : (s.gtake i).memOk := h

@[simp] theorem execCuratorRequest_ok (i : Nat) : outOk (execCuratorRequest i s) := by
  unfold execCuratorRequest
  dsimp only
  split
  · split
    · exact outOk_next_of h
    · split
      · exact outOk_next_of (State.guardEnd_memOk (State.gtake_memOk h _) _ _ _ _ _ _)
      · split
        · exact outOk_next_of (State.gServe_memOk (State.gtake_memOk h _) _ _)
        · split
          · exact outOk_next_of (State.guardEnd_memOk (State.gtake_memOk h _) _ _ _ _ _ _)
          · exact outOk_next_of (State.modGuard_memOk (State.gtake_memOk h _) _ _)
  · exact outOk_next_of h

theorem State.supplyFailed_memOk (gk : Nat) (r : GuardReq) (t : Trap) : (s.supplyFailed gk r t).memOk :=
  State.gCount_memOk (State.atThread_memOk (State.modGuard_memOk h _ _) _
    (fun _ hu => State.lateFault_memOk (State.on_memOk hu _) _ _ _)) _

theorem State.supply_memOk (gk : Nat) (r : GuardReq) (g : Guard) (copy : Option Supplier) :
    (s.supply gk r g copy).memOk := by
  unfold State.supply
  dsimp only
  split
  · refine State.supplyFailed_memOk ?_ _ _ _
    split
    · exact State.countSymbol_memOk h _ _
    · exact h
  · refine State.gsend_memOk (State.atThread_memOk h _ (fun u hu => ?_)) _
    split
    · split
      · exact hu
      · exact State.deliver_memOk hu _ _
    · exact hu

@[simp] theorem execSupplierForward_ok (i : Nat) : outOk (execSupplierForward i s) := by
  unfold execSupplierForward
  dsimp only
  split
  · split
    · exact outOk_next_of h
    · split
      · exact outOk_next_of (State.gtake_memOk h _)
      · exact outOk_next_of (State.supply_memOk (State.gtake_memOk h _) _ _ _ _)
      · split
        · exact outOk_next_of (State.supply_memOk (State.gtake_memOk h _) _ _ _ _)
        · split
          · exact outOk_next_of (State.supply_memOk (State.gtake_memOk h _) _ _ _ _)
          · exact outOk_next_of (State.supply_memOk (State.modGuard_memOk (State.gtake_memOk h _) _ _) _ _ _ _)
  · exact outOk_next_of h

theorem State.granted_memOk (gk : Nat) (r : GuardReq) (relcnt : BitVec 32) (epoch : BitVec 8)
    (lost renum : Bool) : (s.granted gk r relcnt epoch lost renum).memOk := by
  unfold State.granted
  dsimp only
  split
  · exact h
  · exact State.guardDone_memOk (State.setLatch_memOk
      (State.on_memOk (State.guardAcquire_memOk h _ _) _)) _ _ _ _ _ _

@[simp] theorem execGrantArrival_ok (i : Nat) : outOk (execGrantArrival i s) := by
  unfold execGrantArrival
  dsimp only
  split
  · split
    · exact outOk_next_of h
    · split
      · split
        · split
          · exact outOk_next_of (State.takeDown_memOk
              (State.atThread_memOk (State.gtake_memOk h _) _
                (fun u hu => State.granted_memOk hu _ _ _ _ _ _)) _ _ _)
          · exact outOk_next_of (State.atThread_memOk (State.gtake_memOk h _) _
              (fun u hu => State.granted_memOk hu _ _ _ _ _ _))
        · exact outOk_next_of (State.atThread_memOk (State.gtake_memOk h _) _
            (fun u hu => State.granted_memOk hu _ _ _ _ _ _))
      · exact outOk_next_of (State.atThread_memOk (State.gtake_memOk h _) _
          (fun u hu => State.granted_memOk hu _ _ _ _ _ _))
  · exact outOk_next_of h

theorem State.gUnbind_memOk (gk core num : Nat) (seq : BitVec 16) : (s.gUnbind gk core num seq).memOk := by
  unfold State.gUnbind
  dsimp only
  split
  · split
    · exact State.gsend_memOk (State.gRelease_memOk h _ _ _ _ _) _
    · exact State.guardEnd_memOk (State.uncount_memOk (State.gRelease_memOk h _ _ _ _ _) _ _ _) _ _ _ _ _ _
  · exact State.guardEnd_memOk (State.gRelease_memOk h _ _ _ _ _) _ _ _ _ _ _

@[simp] theorem execCuratorRelease_ok (i : Nat) : outOk (execCuratorRelease i s) := by
  unfold execCuratorRelease
  dsimp only
  split
  · split
    · exact outOk_next_of h
    · split
      · exact outOk_next_of (State.guardEnd_memOk (State.gRelease_memOk
          (State.gtake_memOk h _) _ _ _ _ _) _ _ _ _ _ _)
      · exact outOk_next_of (State.gRelease_memOk (State.gtake_memOk h _) _ _ _ _ _)
  · refine outOk_next_of ?_
    split
    · exact State.gUnbind_memOk (State.gtake_memOk h _) _ _ _ _
    · exact h
  · exact outOk_next_of h

theorem State.writeBackFailed_memOk (gk core num : Nat) (seq : BitVec 16) (unbind : Bool) (t : Trap) :
    (s.writeBackFailed gk core num seq unbind t).memOk := by
  unfold State.writeBackFailed
  dsimp only
  refine State.atThread_memOk ?_ _ (fun u hu => State.lateFault_memOk hu _ _ _)
  split
  · exact State.uncount_memOk (State.modGuard_memOk h _ _) _ _ _
  · exact State.gCount_memOk h _

@[simp] theorem execWriteBack_ok (i : Nat) : outOk (execWriteBack i s) := by
  unfold execWriteBack
  dsimp only
  split
  · split
    · exact outOk_next_of h
    · split
      · exact outOk_next_of (State.guardEnd_memOk (State.gtake_memOk h _) _ _ _ _ _ _)
      · split
        · split
          · exact outOk_next_of h
          · split
            · exact outOk_next_of (State.writeBackFailed_memOk (State.gtake_memOk h _) _ _ _ _ _ _)
            · exact outOk_next_of (State.guardEnd_memOk
                (State.uncount_memOk (State.unbindHome_memOk (State.gtake_memOk h _) _ _ _) _ _ _) _ _ _ _ _ _)
        · split
          · exact outOk_next_of h
          · split
            · exact outOk_next_of (State.writeBackFailed_memOk (State.gtake_memOk h _) _ _ _ _ _ _)
            · exact outOk_next_of (State.guardEnd_memOk
                (State.gCount_memOk (State.gWriteBack_memOk (State.gtake_memOk h _) _) _) _ _ _ _ _ _)
  · exact outOk_next_of h

/-! ### Copies: their checks and their start -/

theorem State.countCopy_memOk (deal : BitVec 24) (r : CopyOp) : (s.countCopy deal r).2.memOk := by
  unfold State.countCopy
  dsimp only
  split
  · exact h
  · dsimp only
    exact State.modPaths_memOk (State.counterOf_memOk h _ _) _

theorem State.copyDispatch_memOk (major sub : Nat) (d : BitVec 5) (r : CopyOp) :
    (s.copyDispatch major sub d r).memOk :=
  State.dispatchTo_memOk (State.countCopy_memOk h _ _) _ _ _ _ _

theorem State.cpy_ok (wait : Bool) (d : BitVec 5) (a : BitVec 3) (b : BitVec 5) : outOk (s.cpy wait d a b) := by
  unfold State.cpy
  dsimp only
  split
  · split
    · exact outOk_next_of (State.adv_memOk (State.setG_memOk h _ _))
    · exact State.dispatched_ok h _ _ (State.setG_memOk (State.copyDispatch_memOk h _ _ _ _) _ _)
  · split
    · split
      · exact outOk_next_of (State.adv_memOk (State.setG_memOk h _ _))
      · exact State.dispatched_ok h _ _ (State.setG_memOk (State.copyDispatch_memOk h _ _ _ _) _ _)
    · split
      · exact outOk_next_of (State.adv_memOk (State.setG_memOk h _ _))
      · exact State.dispatched_ok h _ _ (State.setG_memOk (State.copyDispatch_memOk h _ _ _ _) _ _)

@[simp] theorem execCpy_ok (d : BitVec 5) (a : BitVec 3) (b : BitVec 5) : outOk (execCpy d a b s) :=
  State.cpy_ok h _ _ _ _

@[simp] theorem execCpyW_ok (d : BitVec 5) (a : BitVec 3) (b : BitVec 5) : outOk (execCpyW d a b s) :=
  State.cpy_ok h _ _ _ _

theorem State.lstr_ok (form : CopyForm) (sub : Nat) (d : BitVec 5) (a : BitVec 3) : outOk (s.lstr form sub d a) :=
  State.dispatched_ok h _ _ (State.copyDispatch_memOk h _ _ _ _)

@[simp] theorem execLdtile_ok (d : BitVec 5) (a : BitVec 3) : outOk (execLdtile d a s) :=
  State.lstr_ok h _ _ _ _

@[simp] theorem execSttile_ok (d : BitVec 5) (a : BitVec 3) : outOk (execSttile d a s) :=
  State.lstr_ok h _ _ _ _

@[simp] theorem execLdeal_ok (d : BitVec 5) (a : BitVec 3) : outOk (execLdeal d a s) := State.lstr_ok h _ _ _ _

@[simp] theorem execLswait_ok (d a : BitVec 5) : outOk (execLswait d a s) := by
  unfold execLswait
  dsimp only
  split
  · exact outOk_next_of (State.waiting_memOk h _)
  · exact outOk_next_of (State.adv_memOk (State.setG_memOk h _ _))

@[simp] theorem execCpyst_ok (d : BitVec 5) : outOk (execCpyst d s) :=
  outOk_next_of (State.adv_memOk (State.setG_memOk h _ _))

@[simp] theorem execDeal_ok (d a : BitVec 5) : outOk (execDeal d a s) :=
  outOk_checked h _ (State.adv_memOk (State.setG_memOk (State.on_memOk h _) _ _))

@[simp] theorem execWaitw_ok (a b : BitVec 5) : outOk (execWaitw a b s) := by
  unfold execWaitw
  dsimp only
  refine outOk_checked h _ ?_
  split
  · exact State.adv_memOk (State.heard_memOk h _ _)
  · exact State.waiting_memOk h _

@[simp] theorem execWaitwSeq_ok (d b : BitVec 5) : outOk (execWaitwSeq d b s) := by
  unfold execWaitwSeq
  dsimp only
  refine outOk_checked h _ ?_
  split
  · exact State.waiting_memOk h _
  · exact State.adv_memOk (State.setG_memOk h _ _)

@[simp] theorem execWaitm_ok (d : BitVec 5) : outOk (execWaitm d s) := by
  unfold execWaitm
  split
  · exact outOk_next_of (State.waiting_memOk h _)
  · exact outOk_next_of (State.adv_memOk (State.setG_memOk h _ _))

@[simp] theorem execMbxrd_ok (d a : BitVec 5) : outOk (execMbxrd d a s) := by
  unfold execMbxrd
  dsimp only
  refine outOk_checked h _ ?_
  split
  · exact State.adv_memOk (State.setG_memOk h _ _)
  · exact State.adv_memOk (State.setG_memOk (State.on_memOk (State.localWrite_memOk h _ _ _) _) _ _)

/-! ### Copies: their run -/

theorem State.xlatRun_memOk {c : SideCtx} {va n off n5 : Nat} {r : SideRes} (e : s.xlatRun c va n off n5 = r) :
    r.memOk := by
  induction n5 generalizing s c va n off r with
  | zero =>
    subst e; unfold State.xlatRun
    exact h
  | succ n5 ih =>
    subst e; unfold State.xlatRun
    dsimp only
    split
    · exact h
    · split
      · rename_i t e
        exact State.engineXlat_memOk h e
      · rename_i t e
        exact State.engineXlat_memOk h e
      · rename_i t e
        have ht : t.memOk := State.engineXlat_memOk h e
        split
        · exact ht
        · split
          · exact ht
          · split
            · exact ht
            · split
              · exact ht
              · split
                · rename_i t1 e1
                  have ht1 : t1.memOk := ih ht e1
                  exact ht1
                · rename_i t1 e1
                  have ht1 : t1.memOk := ih ht e1
                  exact ht1

theorem State.xlatRows_memOk {c : SideCtx} {l : List (Nat × Nat × Nat)} {r : SideRes} (e : s.xlatRows c l = r) :
    r.memOk := by
  induction l generalizing s c r with
  | nil =>
    subst e; unfold State.xlatRows
    exact h
  | cons x l ih =>
    subst e; unfold State.xlatRows
    split
    · rename_i t e
      exact State.xlatRun_memOk h e
    · rename_i t e
      exact State.xlatRun_memOk h e
    · rename_i t e
      have ht : t.memOk := State.xlatRun_memOk h e
      split
      · rename_i t1 e1
        have ht1 : t1.memOk := ih ht e1
        exact ht1
      · rename_i t1 e1
        have ht1 : t1.memOk := ih ht e1
        exact ht1

theorem State.storeRows_memOk {t : Nat} {write red : Bool} {rows : List (Nat × Nat × Nat)} {r : SideRes}
    (e : s.storeRows t write red rows = r) : r.memOk := by
  subst e; unfold State.storeRows
  dsimp only
  exact h

theorem State.dealSide_memOk {r : CopyOp} {a : Attach} {res : SideRes} (e : s.dealSide r a = res) : res.memOk := by
  subst e; unfold State.dealSide
  dsimp only
  split
  · exact h
  · split
    · exact h
    · split
      · exact h
      · exact h

theorem State.srcSide_memOk {o : Op} {r : CopyOp} {res : SideRes} (e : s.srcSide o r = res) : res.memOk := by
  subst e; unfold State.srcSide
  dsimp only
  split
  · exact State.storeRows_memOk h rfl
  · split
    · exact State.storeRows_memOk h rfl
    · exact h
  · exact State.xlatRows_memOk h rfl

theorem State.dstSide_memOk {o : Op} {r : CopyOp} {res : SideRes} (e : s.dstSide o r = res) : res.memOk := by
  subst e; unfold State.dstSide
  split
  · exact State.dealSide_memOk h rfl
  · split
    · exact State.xlatRows_memOk h rfl
    · exact State.storeRows_memOk h rfl
    · exact h
    · split
      · exact State.storeRows_memOk h rfl
      · exact h

theorem State.readPiece_memOk (seen : List Nat) (p : Piece) : (s.readPiece seen p).2.memOk := by
  unfold State.readPiece
  split
  · split
    · dsimp only
      exact State.drewCuts_memOk h _ _
    · exact h
  · exact h

theorem State.gather_memOk (seen : List Nat) (l : List Piece) : (s.gather seen l).2.memOk := by
  induction l generalizing s with
  | nil =>
    unfold State.gather
    exact h
  | cons x l ih =>
    unfold State.gather
    exact ih (State.readPiece_memOk h _ _)

theorem State.putPiece_memOk (o : Op) (r : CopyOp) (p : Piece) (xs : List Byte) :
    (s.putPiece o r p xs).2.memOk := by
  unfold State.putPiece
  dsimp only
  split
  · exact h
  · split
    · dsimp only
      exact State.localWriteBytes_memOk h _ _
    · split
      · dsimp only
        exact State.atThread_memOk h _ (fun u hu => State.foreignWrite_memOk hu _ _)
      · exact h
  · split
    · exact h
    · split
      · dsimp only
        exact State.modPkg_memOk h _ _
      · dsimp only
        exact State.offWriteBytes_memOk h _ _ _ _

theorem State.putAll_memOk (o : Op) (r : CopyOp) (xs : List Byte) (l : List Piece) :
    (s.putAll o r xs l).2.memOk := by
  induction l generalizing s with
  | nil =>
    unfold State.putAll
    exact h
  | cons x l ih =>
    unfold State.putAll
    exact ih (State.putPiece_memOk h _ _ _ _)

theorem State.postMail_memOk (p : Post) : (s.postMail p).memOk := h

theorem State.endCopy_memOk (seq : BitVec 16) (r : CopyOp) (t : Option Trap) : (s.endCopy seq r t).memOk := by
  unfold State.endCopy
  dsimp only
  split
  · exact State.postMail_memOk (State.on_memOk h _) _
  · split
    · exact State.lateFault_memOk h _ _ _
    · exact State.opDone_memOk h _

theorem State.foreignWord_memOk (w : Agent) (scope : Nat) (pub : List Nat) (a : Nat) (xs : List Byte) :
    (s.foreignWord w scope pub a xs).memOk :=
  State.wordRelease_memOk (State.foreignWrite_memOk h _ _) _ _ _ _

theorem State.wordAway_memOk (o : Op) (r : CopyOp) (k : Nat) : (s.wordAway o r k).memOk :=
  State.atThread_memOk h _ (fun _ hu => State.setLatch_memOk (State.foreignWord_memOk hu _ _ _ _ _))

theorem State.copyWord_memOk (o : Op) (r : CopyOp) : (s.copyWord o r).memOk := by
  unfold State.copyWord
  split
  · exact h
  · split
    · split
      · split
        · exact State.completionWord_memOk h _ _
        · split
          · exact State.wordAway_memOk h _ _ _
          · exact h
      · exact h
    · exact State.completionWord_memOk h _ _

theorem State.countFailed_memOk (n : Nat) : (s.countFailed n).memOk := by
  unfold State.countFailed
  split
  · exact h
  · exact State.on_memOk h _

theorem State.withdraw_memOk (r : CopyOp) (n : Nat) (failed : Bool) : (s.withdraw r n failed).memOk := by
  unfold State.withdraw
  dsimp only
  split
  · exact h
  · exact State.modPaths_memOk (State.countFailed_memOk h _) _

theorem State.answerWrites_memOk (r : CopyOp) (x : Nat × Nat) : (s.answerWrites r x).memOk := by
  unfold State.answerWrites
  dsimp only
  split
  · split
    · exact State.countFailed_memOk h _
    · exact State.onTheWay_memOk (State.countFailed_memOk h _) _
  · refine State.onTheWay_memOk ?_ _
    split
    · exact State.countFailed_memOk h _
    · exact State.onTheWay_memOk (State.countFailed_memOk h _) _

theorem State.failCopy_memOk (seq : BitVec 16) (r : CopyOp) (issued : Nat × Nat) (t : Trap) :
    (s.failCopy seq r issued t).memOk := by
  unfold State.failCopy
  dsimp only
  refine State.endCopy_memOk (State.seeOp_memOk (State.answerWrites_memOk ?_ _ _) _) _ _ _
  split
  · exact State.on_memOk (State.withdraw_memOk h _ _ _) _
  · exact State.withdraw_memOk h _ _ _

theorem State.callLoader_memOk (seq : BitVec 16) (r : CopyOp) (a : Attach) : (s.callLoader seq r a).memOk := by
  unfold State.callLoader
  dsimp only
  split
  · exact h
  · exact State.modCore_memOk (State.on_memOk h _) _ _

theorem State.startCopy_memOk (seq : BitVec 16) : (s.startCopy seq).memOk := by
  unfold State.startCopy
  dsimp only
  split
  · exact h
  · split
    · exact h
    · split
      · exact h
      · split
        · exact State.callLoader_memOk h _ _ _
        · split
          · exact h
          · split
            · refine State.failCopy_memOk ?_ _ _ _ _
              split
              · exact h
              · exact h
            · refine State.on_memOk ?_ _
              split
              · exact h
              · exact h

@[simp] theorem execCopyStart_ok (c seq : Nat) : outOk (execCopyStart c seq s) :=
  outOk_next_of (State.atAgent_memOk h _ (fun _ hu => State.startCopy_memOk hu _))

theorem State.sides_memOk {o : Op} {r : CopyOp} {res : SidesRes} (e : s.sides o r = res) : res.memOk := by
  subst e; unfold State.sides
  dsimp only
  split
  · rename_i t e
    exact State.srcSide_memOk h e
  · rename_i t e
    have ht : t.memOk := State.srcSide_memOk h e
    split
    · rename_i t1 e1
      exact State.dstSide_memOk ht e1
    · rename_i t1 e1
      exact State.dstSide_memOk ht e1

theorem State.feedPort_memOk (seq : BitVec 16) (fed : Nat) (xs : List Byte) : (s.feedPort seq fed xs).2.memOk := by
  unfold State.feedPort
  dsimp only
  refine State.on_memOk ?_ _
  split
  · exact h
  · exact State.on_memOk h _

theorem State.completeCopy_memOk (seq : BitVec 16) (r : CopyOp) (failed : Nat) :
    (s.completeCopy seq r failed).memOk := by
  unfold State.completeCopy
  dsimp only
  refine State.endCopy_memOk ?_ _ _ _
  split
  · refine State.seeOp_memOk ?_ _
    split
    · exact State.copyWord_memOk (State.on_memOk (State.answerWrites_memOk h _ _) _) _ _
    · exact State.on_memOk (State.answerWrites_memOk h _ _) _
  · split
    · exact State.copyWord_memOk (State.on_memOk (State.answerWrites_memOk h _ _) _) _ _
    · exact State.on_memOk (State.answerWrites_memOk h _ _) _

theorem State.feedCopy_memOk (o : Op) (r : CopyOp) (ps : List Piece) (xs : List Byte) (fl : BitVec 6)
    (bad : Option (Nat × Trap)) : (s.feedCopy o r ps xs fl bad).memOk := by
  unfold State.feedCopy
  dsimp only
  split
  · exact State.completeCopy_memOk (State.setFlags_memOk (State.on_memOk (State.feedPort_memOk h _ _ _) _) _) _ _ _
  · exact State.on_memOk (State.feedPort_memOk h _ _ _) _

theorem State.finishCopy_memOk (seq : BitVec 16) : (s.finishCopy seq).memOk := by
  unfold State.finishCopy
  dsimp only
  split
  · exact h
  · split
    · exact h
    · split
      · exact h
      · split
        · rename_i t e
          exact State.sides_memOk h e
        · rename_i t e
          have ht : t.memOk := State.sides_memOk h e
          split
          · exact State.feedCopy_memOk (State.gather_memOk ht _ _) _ _ _ _ _ _
          · split
            · exact h
            · exact State.completeCopy_memOk (State.on_memOk
                (State.setFlags_memOk (State.putAll_memOk (State.gather_memOk ht _ _) _ _ _ _) _) _) _ _ _

@[simp] theorem execCopyComplete_ok (c seq : Nat) : outOk (execCopyComplete c seq s) :=
  outOk_next_of (State.atAgent_memOk h _ (fun _ hu => State.finishCopy_memOk hu _))

theorem State.partialMove_memOk (o : Op) (r : CopyOp) (ps qs : List Piece) (limit : Nat) :
    (s.partialMove o r ps qs limit).2.memOk := by
  unfold State.partialMove
  dsimp only
  split
  · dsimp only
    exact State.fresh_memOk h
  · dsimp only
    exact State.putAll_memOk (State.gather_memOk (State.fresh_memOk h) _ _) _ _ _ _

theorem State.countCopyError_memOk (t : Trap) : (s.countCopyError t).memOk := by
  unfold State.countCopyError
  dsimp only
  split
  · split
    · exact State.countSymbol_memOk h _ _
    · exact h
  · exact h

theorem State.faultCopy_memOk (seq : BitVec 16) : (s.faultCopy seq).memOk := by
  unfold State.faultCopy
  dsimp only
  split
  · exact h
  · split
    · exact h
    · split
      · exact h
      · split
        · rename_i t e
          have ht : t.memOk := State.sides_memOk h e
          refine State.failCopy_memOk (State.countCopyError_memOk ?_ _) _ _ _ _
          split
          · exact ht
          · exact State.partialMove_memOk ht _ _ _ _ _
        · rename_i t e
          have ht : t.memOk := State.sides_memOk h e
          exact h
        · rename_i t e
          exact State.sides_memOk h e

@[simp] theorem execCopyFault_ok (c seq : Nat) : outOk (execCopyFault c seq s) :=
  outOk_next_of (State.atAgent_memOk h _ (fun _ hu => State.faultCopy_memOk hu _))

theorem State.afterPost_memOk (p : Post) : (s.afterPost p).memOk := by
  unfold State.afterPost
  dsimp only
  split
  · exact h
  · refine State.atThread_memOk h _ (fun u hu => ?_)
    split
    · exact State.opDone_memOk (State.seeOp_memOk hu _) _
    · exact State.lateFault_memOk hu _ _ _

theorem State.dropPost_memOk (p : Post) : (s.dropPost p).memOk := by
  unfold State.dropPost
  dsimp only
  split
  · exact State.modEngine_memOk (State.memOk_mk.mpr h) _ _
  · exact h

@[simp] theorem execMailboxPost_ok (c : Nat) : outOk (execMailboxPost c s) := by
  rw [show @execMailboxPost = delta% @execMailboxPost from rfl]
  dsimp only
  split
  · exact outOk_next_of (State.dropPost_memOk h _)
  · split
    · exact outOk_next_of (State.afterPost_memOk (State.atThread_memOk (State.memOk_mk.mpr h) _
        fun u hu => State.setLatch_memOk (State.on_memOk hu _)) _)
    · exact outOk_next_of h
  · exact outOk_next_of h

theorem State.disarm_memOk (k : Nat) (seq : BitVec 16) : (s.disarm k seq).memOk := h

theorem State.squashBytes_memOk (o : Op) (r : CopyOp) : (s.squashBytes o r).2.memOk := by
  unfold State.squashBytes
  split
  · split
    · rename_i t e
      have ht : t.memOk := State.sides_memOk h e
      exact State.partialMove_memOk ht _ _ _ _ _
    · rename_i t e
      exact State.sides_memOk h e
  · exact h

theorem State.squashCopy_memOk (o : Op) (r : CopyOp) : (s.squashCopy o r).memOk := by
  unfold State.squashCopy
  dsimp only
  refine State.disarm_memOk (State.on_memOk (State.on_memOk (State.seeOp_memOk (State.memOk_mk.mpr ?_) _) _) _) _ _
  split
  · exact State.squashBytes_memOk h _ _
  · exact State.answerWrites_memOk (State.withdraw_memOk (State.squashBytes_memOk h _ _) _ _ _) _ _

theorem State.squashUntriggered_memOk : s.squashUntriggered.memOk := by
  unfold State.squashUntriggered
  refine foldl_memOk (fun u x hu => ?_) _ h
  split
  · split
    · exact State.squashCopy_memOk hu _ _
    · exact hu
  · exact hu

/-! ### System operations -/

theorem State.squashMatrix_memOk (o : Op) : (s.squashMatrix o).memOk := State.on_memOk h _

theorem State.keepOp_memOk (o : Op) : (s.keepOp o).memOk := by
  unfold State.keepOp
  dsimp only
  split
  · exact h
  · refine State.on_memOk ?_ _
    split
    · exact State.squashCopy_memOk h _ _
    · exact State.squashMatrix_memOk h _

theorem State.keepOps_memOk : s.keepOps.memOk := foldl_memOk (fun _ _ hu => State.keepOp_memOk hu _) _ h

@[simp] theorem execSvc_ok (c : BitVec 11) : outOk (execSvc c s) := outOk_next_of (State.trap_memOk h _)

@[simp] theorem execTrap_ok (c : BitVec 11) : outOk (execTrap c s) := outOk_next_of (State.trap_memOk h _)

@[simp] theorem execBrk_ok (c : BitVec 11) : outOk (execBrk c s) := by
  unfold execBrk
  dsimp only
  split
  · exact outOk_next_of (State.trap_memOk h _)
  · exact outOk_next_of (State.adv_memOk (State.modPkg_memOk h _ _))
  · exact outOk_next_of (State.on_memOk (State.withdrawFollow_memOk (State.leaveGang_memOk h)) _)

@[simp] theorem execEret_ok : outOk (execEret s) := outOk_checked h _ (State.on_memOk h _)

theorem State.haltPreempted_memOk : s.haltPreempted.memOk := by
  unfold State.haltPreempted
  dsimp only
  split
  · exact State.waiting_memOk (State.keepOps_memOk h) _
  · exact State.on_memOk (State.keepOps_memOk h) _

theorem State.haltThread_memOk : s.haltThread.memOk := by
  unfold State.haltThread
  dsimp only
  split
  · exact State.waiting_memOk (State.squashUntriggered_memOk h) _
  · split
    · exact State.on_memOk (State.squashUntriggered_memOk h) _
    · exact State.endBindings_memOk (State.on_memOk
        (State.dropWaiting_memOk (State.squashUntriggered_memOk h)) _) _
          (fun u x y z hu => State.takeDown_memOk hu _ _ _)

theorem State.haltNow_memOk : s.haltNow.memOk := by
  unfold State.haltNow
  dsimp only
  split
  · exact State.haltPreempted_memOk (State.leaveGang_memOk h)
  · split
    · exact State.waiting_memOk (State.on_memOk (State.leaveGang_memOk h) _) _
    · exact State.haltThread_memOk (State.leaveGang_memOk h)

@[simp] theorem execHalt_ok : outOk (execHalt s) := outOk_checked h _ (State.haltNow_memOk h)

@[simp] theorem execWfe_ok : outOk (execWfe s) := by
  unfold execWfe
  split
  · exact outOk_next_of (State.adv_memOk (State.on_memOk h _))
  · exact outOk_next_of (State.waiting_memOk h _)

@[simp] theorem execIfence_ok : outOk (execIfence s) := by
  unfold execIfence
  refine outOk_next_of (State.adv_memOk ?_)
  split
  · exact h
  · exact State.on_memOk h _

@[simp] theorem execYield_ok : outOk (execYield s) := outOk_next_of (State.adv_memOk (State.on_memOk h _))

@[simp] theorem execDebugResume_ok (c : Nat) : outOk (execDebugResume c s) := by
  unfold execDebugResume
  refine outOk_next_of (State.at_memOk h _ (fun u hu => ?_))
  split
  · exact State.adv_memOk (State.on_memOk hu _)
  · exact hu

/-! ### Matrix instructions -/

theorem State.matrixOp_ok (sub : Nat) (t : Option Trap) (x : OpSpans) (body : OpBody) :
    outOk (s.matrixOp sub t x body) :=
  State.dispatched_ok h _ _ (State.dispatchTo_memOk h _ _ _ _ _)

@[simp] theorem execMma_ok (c : BitVec 2) (a b : BitVec 5) (r : BitVec 2) (u v w x : BitVec 1) :
    outOk (execMma c a b r u v w x s) :=
  State.matrixOp_ok h _ _ _ _

@[simp] theorem execMzero_ok (c : BitVec 2) : outOk (execMzero c s) := State.matrixOp_ok h _ _ _ _

@[simp] theorem execMlda_ok (c : BitVec 2) (a : BitVec 5) : outOk (execMlda c a s) :=
  State.matrixOp_ok h _ _ _ _

@[simp] theorem execMsta_ok (c : BitVec 2) (a : BitVec 5) : outOk (execMsta c a s) :=
  State.matrixOp_ok h _ _ _ _

@[simp] theorem execMfmt_ok (c : BitVec 2) (a : BitVec 5) (src r : BitVec 2) (t : BitVec 4) :
    outOk (execMfmt c a src r t s) :=
  State.matrixOp_ok h _ _ _ _

@[simp] theorem execMcbld_ok (a b : BitVec 5) : outOk (execMcbld a b s) := State.matrixOp_ok h _ _ _ _

/-! ### Matrix operations: their run -/

theorem State.startStep_memOk (o : Op) (p : StepOp) : (s.startStep o p).memOk := by
  unfold State.startStep
  dsimp only
  split
  · exact State.lateFault_memOk h _ _ _
  · split
    · exact State.accFault_memOk h _ _
    · split
      · exact h
      · split
        · exact h
        · exact State.on_memOk h _

theorem State.serve_memOk (unit pos : Nat) : (s.serve unit pos).memOk := h

@[simp] theorem execTileStepStart_ok (eng : Nat) : outOk (execTileStepStart eng s) := by
  unfold execTileStepStart
  split
  · exact outOk_next_of h
  · refine outOk_next_of (State.at_memOk (State.serve_memOk h _ _) _ (fun u hu => ?_))
    split
    · exact State.startStep_memOk hu _ _
    · exact hu

@[simp] theorem execStreamedStepReplay_ok (c : Nat) : outOk (execStreamedStepReplay c s) := by
  unfold execStreamedStepReplay
  refine outOk_next_of (State.at_memOk h _ (fun u hu => ?_))
  split
  · split
    · exact hu
    · exact State.startStep_memOk hu _ _
  · exact hu

theorem State.stepDone_memOk (r : MtxRun) : (s.stepDone r).memOk :=
  State.opDone_memOk (State.setFlags_memOk (State.on_memOk h _) _) _

theorem State.stepFails_memOk (r : MtxRun) : (s.stepFails r).memOk :=
  State.lateFault_memOk (State.on_memOk h _) _ _ _

theorem State.stepEnds_memOk (n : Nat) : (s.stepEnds n).memOk := by
  unfold State.stepEnds
  dsimp only
  split
  · exact h
  · split
    · exact State.stepDone_memOk h _
    · split
      · exact State.accFault_memOk (State.on_memOk h _) _ _
      · split
        · exact State.stepFails_memOk h _
        · split
          · exact State.on_memOk h _
          · exact State.stepFails_memOk (State.on_memOk h _) _

@[simp] theorem execTileStepComplete_ok (c mismatches : Nat) : outOk (execTileStepComplete c mismatches s) :=
  outOk_next_of (State.at_memOk h _ (fun _ hu => State.stepEnds_memOk hu _))

theorem State.engineRead_memOk (seq : BitVec 16) (a n : Nat) {k : List Byte → State} (hk : ∀ xs, (k xs).memOk) :
    (s.engineRead seq a n k).memOk := by
  unfold State.engineRead
  split
  · exact State.lateFault_memOk h _ _ _
  · exact hk _

theorem State.performMatrix_memOk (o : Op) : (s.performMatrix o).memOk := by
  unfold State.performMatrix
  dsimp only
  split
  · exact State.opDone_memOk (State.on_memOk h _) _
  · exact State.engineRead_memOk h _ _ _ (fun u => State.opDone_memOk (State.on_memOk h _) _)
  · split
    · exact State.accFault_memOk h _ _
    · exact State.opDone_memOk (State.resultBytes_memOk h _ _) _
  · split
    · exact State.accFault_memOk h _ _
    · exact State.opDone_memOk (State.setFlags_memOk (State.resultBytes_memOk h _ _) _) _
  · split
    · exact h
    · exact State.engineRead_memOk h _ _ _ (fun u => State.opDone_memOk
        (State.withMem_memOk (Memory.wf_writeBytes h _ _)) _)
  · exact h

theorem State.matrixPerform_memOk : s.matrixPerform.memOk := by
  unfold State.matrixPerform
  split
  · split
    · exact h
    · exact State.performMatrix_memOk h _
  · exact h

@[simp] theorem execMatrixOperationPerform_ok (c : Nat) : outOk (execMatrixOperationPerform c s) :=
  outOk_next_of (State.at_memOk h _ (fun _ hu => State.matrixPerform_memOk hu))

/-! ### Frames -/

theorem State.fillFetch_memOk (a : Nat) : (s.fillFetch a).memOk := State.on_memOk h _

theorem State.fetchWord_memOk (a : Nat) : (s.fetchWord a).2.memOk := by
  unfold State.fetchWord
  dsimp only
  split
  · dsimp only
    exact State.fillFetch_memOk h _
  · split
    · dsimp only
      exact State.fillFetch_memOk h _
    · split
      · exact h
      · split
        · dsimp only
          exact State.fresh_memOk h
        · dsimp only
          exact State.fillFetch_memOk (State.fresh_memOk h) _

theorem State.fetchWords_memOk (a n2 : Nat) : (s.fetchWords a n2).2.memOk := by
  induction n2 generalizing s a with
  | zero =>
    unfold State.fetchWords
    exact h
  | succ n2 ih =>
    unfold State.fetchWords
    exact ih (State.fetchWord_memOk h _) _

theorem State.beginFrame_ok (u : State) (x y : Word) (ws : List (BitVec 32)) : outOk (u.beginFrame s x y ws) :=
  outOk_checked h _ (State.adv_memOk (State.on_memOk h _))

@[simp] theorem execRfrm_ok (n : BitVec 4) (a b : BitVec 5) : outOk (execRfrm n a b s) := by
  unfold execRfrm
  dsimp only
  split
  · exact outOk_next_of (State.trap_memOk h _)
  · exact State.beginFrame_ok (State.fetchWords_memOk h _ _) _ _ _ _

theorem State.followFrame_ok (n : BitVec 4) (a b : BitVec 5) (x y : Word) (ws : List (BitVec 32)) :
    outOk (s.followFrame n a b x y ws) := by
  unfold State.followFrame
  split
  · split
    · exact outOk_next_of (State.trap_memOk h _)
    · exact State.beginFrame_ok h _ _ _ _
  · exact execRfrm_ok (State.leaveGang_memOk h) _ _ _

theorem State.frameNext_memOk (f : Frame) : (s.frameNext f).memOk := by
  unfold State.frameNext
  dsimp only
  split
  · exact State.setPc_memOk (State.on_memOk h _) _
  · exact State.setPc_memOk (State.on_memOk h _) _

/-- A captured instruction that replays keeps the form. -/
theorem replayVec_ok {q : Rename} {i : Instr} {o : Out} (e : replayVec q i s = some o) : outOk o := by
  unfold replayVec at e
  split at e <;> cases e <;> simp [h]

theorem State.replayMma_memOk {t : State} {c : BitVec 2} {a b : BitVec 5} {r : BitVec 2} {f : StepForm}
    (e : s.replayMma c a b r f = some t) : t.memOk := by
  unfold State.replayMma at e
  obtain ⟨_, e⟩ := Option.ite_none_left_eq_some.mp e
  split at e
  · cases e
  · cases e; exact State.doubleTrap_memOk h _
  · split at e
    · cases e; exact State.dispatchTo_memOk h _ _ _ _ _
    · cases e; exact State.lateFault_memOk (State.dispatchTo_memOk h _ _ _ _ _) _ _ _

@[simp] theorem State.replayOne_memOk (f : Frame) : (s.replayOne f).1.memOk := by
  unfold State.replayOne
  dsimp only
  split
  · exact State.frameNext_memOk h f
  · split
    · rename_i e; exact State.frameNext_memOk (replayVec_ok h e _ rfl) f
    · exact State.frameNext_memOk h f
  · split
    · exact State.waiting_memOk h _
    · rename_i t e
      have ht := State.replayMma_memOk h e
      split
      · exact State.frameNext_memOk ht f
      · exact ht

theorem State.replayLoop_memOk (n1 : Nat) : (s.replayLoop n1).memOk := by
  induction n1 generalizing s with
  | zero =>
    unfold State.replayLoop
    exact h
  | succ n1 ih =>
    unfold State.replayLoop
    dsimp only
    split
    · exact h
    · split
      · exact ih (State.replayOne_memOk h _)
      · exact State.replayOne_memOk h _

@[simp] theorem execFrameReplay_ok : outOk (execFrameReplay s) := by
  unfold execFrameReplay
  split
  · exact outOk_next_of h
  · exact outOk_next_of (State.replayLoop_memOk (State.resumed_memOk h) _)

/-! ### Members of a gang -/

theorem State.arrive_memOk (m : Msg) : (s.arrive m).memOk := by
  have hl := State.countLost_memOk h m.src
  obtain ⟨r, hr⟩ : ∃ r, s.receiver m = r := ⟨_, rfl⟩
  obtain ⟨get, hg⟩ : ∃ get, s.getThread = get := ⟨_, rfl⟩
  unfold State.arrive
  rw [hr, hg]
  cases r with
  | none => exact hl
  | some k =>
    dsimp only
    split
    · exact hl
    · split
      · exact hl
      · exact State.atThread_memOk h _ fun u hu => State.on_memOk hu _

@[simp] theorem execMessageArrival_ok (i : Nat) : outOk (execMessageArrival i s) := by
  unfold execMessageArrival
  split
  · exact outOk_next_of h
  · split
    · exact outOk_next_of h
    · exact outOk_next_of (State.arrive_memOk (State.memOk_mk.mpr h) _)

/-! ### Exchanges -/

@[simp] theorem execComm_ok (d : BitVec 5) (r : BitVec 1) : outOk (execComm d r s) := by
  unfold execComm
  dsimp only
  split
  · exact outOk_next_of (State.waiting_memOk (State.leaveGang_memOk h) _)
  · exact outOk_checked (State.leaveGang_memOk h) _
      (State.adv_memOk (State.setG_memOk (State.leaveGang_memOk h) _ _))

@[simp] theorem execTtplan_ok (d a : BitVec 5) : outOk (execTtplan d a s) := by
  unfold execTtplan
  dsimp only
  split
  · exact outOk_next_of (State.waiting_memOk (State.leaveGang_memOk h) _)
  · refine outOk_checked (State.leaveGang_memOk h) _ (State.adv_memOk (State.setG_memOk ?_ _ _))
    split
    · exact State.on_memOk (State.leaveGang_memOk h) _
    · exact State.leaveGang_memOk h

theorem State.noPhase_ok (c : Nat) : outOk (s.noPhase c) := by
  unfold State.noPhase
  split
  · exact outOk_next_of (State.waiting_memOk h _)
  · exact outOk_next_of (State.trap_memOk h _)

@[simp] theorem execTtsend_ok (c : BitVec 16) (a : BitVec 5) : outOk (execTtsend c a s) := by
  unfold execTtsend
  dsimp only
  split
  · exact State.noPhase_ok (State.leaveGang_memOk h) _
  · split
    · exact outOk_next_of (State.waiting_memOk (State.leaveGang_memOk h) _)
    · split
      · exact outOk_next_of (State.trap_memOk (State.leaveGang_memOk h) _)
      · exact outOk_checked (State.leaveGang_memOk h) _
          (State.waiting_memOk (State.on_memOk (State.leaveGang_memOk h) _) _)

@[simp] theorem execTtrecv_ok (c : BitVec 16) (a : BitVec 5) : outOk (execTtrecv c a s) := by
  unfold execTtrecv
  dsimp only
  split
  · exact State.noPhase_ok (State.leaveGang_memOk h) _
  · split
    · exact outOk_next_of (State.trap_memOk (State.leaveGang_memOk h) _)
    · exact outOk_checked (State.leaveGang_memOk h) _ (State.adv_memOk (State.on_memOk (State.leaveGang_memOk h) _))

theorem State.sendBeat_memOk : s.sendBeat.memOk := by
  unfold State.sendBeat
  dsimp only
  split
  · exact h
  · split
    · exact h
    · split
      · exact h
      · split
        · exact State.trap_memOk (State.on_memOk h _) _
        · split
          · exact State.resumed_memOk (State.adv_memOk (State.memOk_mk.mpr (State.on_memOk h _)))
          · exact State.memOk_mk.mpr (State.on_memOk h _)

@[simp] theorem execExchangeBeatSend_ok (c : Nat) : outOk (execExchangeBeatSend c s) :=
  outOk_next_of (State.at_memOk h _ (fun _ hu => State.sendBeat_memOk hu))

theorem State.takeBeat_memOk (r : ArmedRecv) (k t : Nat) : (s.takeBeat r k t).memOk := by
  unfold State.takeBeat
  dsimp only
  split
  · exact State.on_memOk h _
  · split
    · exact State.on_memOk h _
    · exact State.on_memOk (State.localWriteBytes_memOk h _ _) _

theorem State.receiveBeat_memOk (slot k : Nat) : (State.receiveBeat slot k s).memOk := by
  unfold State.receiveBeat
  dsimp only
  split
  · exact h
  · split
    · exact h
    · split
      · exact h
      · exact State.takeBeat_memOk h _ _ _

@[simp] theorem execExchangeBeatReceive_ok (c slot k : Nat) : outOk (execExchangeBeatReceive c slot k s) :=
  outOk_next_of (State.at_memOk h _ (fun _ hu => State.receiveBeat_memOk hu _ _))

theorem State.endPhase_memOk : s.endPhase.memOk := by
  unfold State.endPhase
  dsimp only
  split
  · exact h
  · exact State.memOk_mk.mpr (State.on_memOk h _)

theorem State.closePhase_memOk : s.closePhase.memOk := by
  unfold State.closePhase
  split
  · exact h
  · split
    · exact h
    · exact State.endPhase_memOk h

@[simp] theorem execPhaseClose_ok (c : Nat) : outOk (execPhaseClose c s) :=
  outOk_next_of (State.at_memOk h _ (fun _ hu => State.closePhase_memOk hu))

/-! ### Barriers and votes -/

theorem State.waitBar_memOk (n : BitVec 4) (w : WaitState) : (s.waitBar n w).memOk := State.on_memOk h _

theorem State.endFault_memOk (cause : BitVec 8) : (s.endFault cause).memOk :=
  State.on_memOk (State.withdrawFollow_memOk (State.leaveGang_memOk h)) _

theorem State.setArrived_memOk (n : BitVec 4) (ballot : BitVec 8) (reg : BitVec 5) (own : Bool) :
    (s.setArrived n ballot reg own).memOk :=
  State.on_memOk h _

theorem State.arriveOwn_memOk (n : BitVec 4) (ballot : BitVec 8) (reg : BitVec 5) :
    (s.arriveOwn n ballot reg).memOk := by
  unfold State.arriveOwn
  dsimp only
  split
  · split
    · exact State.waiting_memOk (State.squashUntriggered_memOk h) _
    · split
      · split
        · exact State.waiting_memOk (State.squashUntriggered_memOk h) _
        · exact State.endFault_memOk (State.squashUntriggered_memOk h) _
      · exact State.waitBar_memOk (State.setArrived_memOk (State.squashUntriggered_memOk h) _ _ _ _) _ _
  · exact State.waitBar_memOk (State.setArrived_memOk h _ _ _ _) _ _

theorem State.arriveNow_memOk (n : BitVec 4) (ballot : BitVec 8) (reg : BitVec 5) (own : Bool) :
    (s.arriveNow n ballot reg own).memOk := by
  unfold State.arriveNow
  split
  · split
    · exact State.waitBar_memOk h _ _
    · exact State.waitBar_memOk h _ _
  · split
    · split
      · exact State.adv_memOk (State.setG_memOk (State.on_memOk h _) _ _)
      · split
        · exact State.arriveOwn_memOk h _ _ _
        · exact State.adv_memOk (State.setArrived_memOk h _ _ _ _)
    · split
      · exact State.arriveOwn_memOk h _ _ _
      · exact State.adv_memOk (State.setArrived_memOk h _ _ _ _)

@[simp] theorem execArrive_ok (n : BitVec 4) : outOk (execArrive n s) :=
  outOk_checked h _ (State.arriveNow_memOk h _ _ _ _)

@[simp] theorem execWaitb_ok (n : BitVec 4) : outOk (execWaitb n s) := by
  unfold execWaitb
  refine outOk_checked h _ ?_
  split
  · exact State.waitBar_memOk h _ _
  · exact State.adv_memOk h

@[simp] theorem execTestb_ok (d : BitVec 5) (n : BitVec 4) : outOk (execTestb d n s) :=
  outOk_checked h _ (State.adv_memOk (State.setG_memOk h _ _))

@[simp] theorem execVote_ok (d a : BitVec 5) (n : BitVec 4) : outOk (execVote d a n s) :=
  outOk_checked (State.leaveGang_memOk h) _ (State.arriveNow_memOk (State.leaveGang_memOk h) _ _ _ _)

@[simp] theorem execBdef_ok (a : BitVec 5) (n : BitVec 4) : outOk (execBdef a n s) :=
  outOk_checked h _ (State.adv_memOk (State.on_memOk h _))

theorem State.performOut_memOk {t : State} {o : OutOp} (e : s.performOut o = some t) : t.memOk := by
  unfold State.performOut at e
  cases o with
  | stx va n x ordered pa place kind hord base rel =>
    obtain ⟨_, e⟩ := Option.ite_none_left_eq_some.mp e
    cases e; exact State.sendStore_memOk h _ _ _ _ _ _
  | send m =>
    obtain ⟨_, e⟩ := Option.ite_none_left_eq_some.mp e
    cases e; exact h
  | grel num dirty =>
    obtain ⟨_, e⟩ := Option.ite_none_left_eq_some.mp e
    cases e; exact State.releaseBuffered_memOk h _ _
  | place _ => cases e; exact h

theorem State.drainOut_memOk (n : Nat) : (s.drainOut n).memOk := by
  induction n generalizing s with
  | zero => exact h
  | succ n ih =>
    unfold State.drainOut
    split
    · exact h
    · split
      · rename_i t e; exact ih (State.performOut_memOk (State.on_memOk h _) e)
      · exact h

theorem State.drainAll_memOk : s.drainAll.memOk := State.drainOut_memOk h _

theorem State.enterAll_memOk (n1 : Nat) : (s.enterAll n1).memOk := by
  induction n1 generalizing s with
  | zero =>
    unfold State.enterAll
    exact h
  | succ n1 ih =>
    unfold State.enterAll
    exact ih (State.enterChannel_memOk h)

theorem State.commit_memOk (n : Nat) (a : Arrival) (x : Word) : (s.commit n a x).memOk :=
  State.enterAll_memOk (State.on_memOk (State.drainAll_memOk (State.on_memOk (State.memOk_mk.mpr h) _)) _) _

theorem State.undo_memOk (i : Nat) : (s.undo i).memOk :=
  State.withMem_memOk (Memory.wf_writeBytes (State.dropPoison_memOk h _ _) _ _)

theorem State.dropRing_memOk : s.dropRing.memOk := by
  unfold State.dropRing
  dsimp only
  refine State.on_memOk (foldl_memOk (fun u x hu => ?_) _ h) _
  split
  · split
    · exact hu
    · exact State.squashCopy_memOk hu _ _
  · split
    · exact State.on_memOk hu _
    · exact hu

theorem State.rollBinding_memOk (num : Nat) (old : Option Binding) : (s.rollBinding num old).memOk := by
  unfold State.rollBinding
  dsimp only
  split
  · refine State.on_memOk ?_ _
    split
    · exact State.gRelease_memOk h _ _ _ _ _
    · exact h
  · exact h

theorem State.rollCore_memOk (snap : Core) : (s.rollCore snap).memOk := by
  unfold State.rollCore
  dsimp only
  exact State.on_memOk (foldl_memOk (fun u x hu => State.rollBinding_memOk hu _ _) _
    (foldl_memOk (fun u x hu => State.undo_memOk hu _) _
      (State.on_memOk (State.dropRing_memOk (State.withdrawFollow_memOk (State.leaveGang_memOk h))) _))) _

theorem State.endMember_memOk : s.endMember.memOk := State.endFault_memOk h _

@[simp] theorem execRollback_ok (c : Nat) : outOk (execRollback c s) := by
  unfold execRollback
  dsimp only
  split
  · exact outOk_next_of h
  · split
    · exact outOk_next_of (foldl_memOk (fun u x hu => State.at_memOk hu _
        (fun v hv => State.endMember_memOk hv)) _ h)
    · refine outOk_next_of (foldl_memOk (fun u x hu => ?_) _ h)
      split
      · exact State.at_memOk hu _ (fun v hv => State.rollCore_memOk hv _)
      · exact State.at_memOk hu _ (fun v hv => State.endMember_memOk hv)

theorem State.openPhase_memOk (r : RelInfo) : (s.openPhase r).memOk := by
  unfold State.openPhase
  dsimp only
  split
  · exact State.on_memOk (State.on_memOk (State.on_memOk (State.endPhase_memOk h) _) _) _
  · split
    · exact State.on_memOk (State.on_memOk (State.endPhase_memOk h) _) _
    · exact State.on_memOk (State.on_memOk (State.endPhase_memOk h) _) _

theorem State.releaseAtCore_memOk (r : RelInfo) (a : Arrival) : (State.releaseAtCore r a s).memOk := by
  unfold State.releaseAtCore
  dsimp only
  refine State.on_memOk ?_ _
  split
  · exact State.on_memOk (State.setLatch_memOk (State.on_memOk h _)) _
  · split
    · exact State.openPhase_memOk (State.setLatch_memOk (State.on_memOk h _)) _
    · exact State.setLatch_memOk (State.on_memOk h _)

theorem State.releaseThread_memOk (r : RelInfo) (x : Nat × Arrival) : (State.releaseThread r s x).memOk := by
  unfold State.releaseThread
  dsimp only
  split
  · split
    · exact State.at_memOk h _ (fun u hu => State.releaseAtCore_memOk hu _ _)
    · exact State.modCore_memOk h _ _
  · split
    · exact h
    · exact h

theorem State.commitTeam_memOk (r : RelInfo) (l : List (Nat × Arrival)) : (s.commitTeam r l).memOk := by
  unfold State.commitTeam
  dsimp only
  split
  · refine foldl_memOk (fun u x hu => ?_) _ h
    split
    · exact State.at_memOk hu _ (fun v hv => State.commit_memOk hv _ _ _)
    · exact hu
  · exact h

@[simp] theorem execBarrierRelease_ok (c n : Nat) : outOk (execBarrierRelease c n s) := by
  unfold execBarrierRelease
  split
  · exact outOk_next_of h
  · exact outOk_next_of (State.commitTeam_memOk (foldl_memOk
      (fun u x hu => State.releaseThread_memOk hu _ _) _ h) _ _)

/-! ### Tasks -/

theorem State.launchRecord_memOk (d : BitVec 5) (va : Word) (q : Nat) (x : Xlat) :
    (s.launchRecord d va q x).memOk := by
  unfold State.launchRecord
  split
  · exact State.waiting_memOk h _
  · split
    · exact State.trap_memOk (State.countRead_memOk h _ _ _) _
    · exact State.adv_memOk (State.setG_memOk (State.modPkg_memOk (State.observeAt_memOk h _ _ _ _ _) _ _) _ _)

theorem State.launchNow_ok (d : BitVec 5) (va : Word) (q : Nat) : outOk (s.launchNow d va q) := by
  unfold State.launchNow
  dsimp only
  split
  · rename_i t e
    have ht : t.memOk := State.threadXlat_memOk h e
    exact outOk_next_of (State.waiting_memOk ht _)
  · rename_i t e
    have ht : t.memOk := State.threadXlat_memOk h e
    exact outOk_next_of (State.trap_memOk ht _)
  · rename_i t e
    have ht : t.memOk := State.threadXlat_memOk h e
    refine outOk_next_of ?_
    split
    · exact State.launchRecord_memOk ht _ _ _ _
    · exact State.adv_memOk (State.setG_memOk ht _ _)

@[simp] theorem execLaunch_ok (d a b : BitVec 5) : outOk (execLaunch d a b s) := by
  unfold execLaunch
  split
  · exact outOk_next_of (State.trap_memOk h _)
  · split
    · exact outOk_next_of (State.trap_memOk h _)
    · split
      · exact outOk_next_of (State.trap_memOk h _)
      · exact State.launchNow_ok h _ _ _

theorem State.callDone_memOk : s.callDone.memOk := by
  unfold State.callDone
  dsimp only
  split
  · exact h
  · refine State.on_memOk (State.atThread_memOk h _ (fun u hu => ?_)) _
    split
    · exact State.completeCopy_memOk hu _ _ _
    · exact hu

theorem State.finishThread_memOk : s.finishThread.memOk := by
  unfold State.finishThread
  split
  · exact State.waiting_memOk h _
  · exact State.callDone_memOk (State.on_memOk (State.dropWaiting_memOk
      (State.endBindings_memOk h _ (fun u x y z hu => State.unbindNow_memOk hu _ _ _))) _)

@[simp] theorem execDone_ok : outOk (execDone s) := by
  unfold execDone
  dsimp only
  split
  · exact outOk_next_of (State.trap_memOk (State.leaveGang_memOk h) _)
  · split
    · exact outOk_next_of (State.waiting_memOk (State.squashUntriggered_memOk (State.leaveGang_memOk h)) _)
    · split
      · refine outOk_next_of ?_
        split
        · exact State.waiting_memOk (State.squashUntriggered_memOk (State.leaveGang_memOk h)) _
        · exact State.endFault_memOk (State.squashUntriggered_memOk (State.leaveGang_memOk h)) _
      · exact outOk_next_of (State.finishThread_memOk (State.squashUntriggered_memOk (State.leaveGang_memOk h)))

@[simp] theorem execSignal_ok (a : BitVec 5) : outOk (execSignal a s) := by
  unfold execSignal
  refine outOk_checked h _ ?_
  split
  · exact State.waiting_memOk h _
  · exact State.adv_memOk (State.modPkg_memOk h _ _)

/-! ### Events -/

theorem State.countBank_memOk (eng i : Nat) : (s.countBank eng i).memOk := by
  unfold State.countBank
  split
  · exact State.dropPoison_memOk (State.modEngine_memOk h _ _) _ _
  · exact h

theorem State.putBank_memOk (eng i : Nat) (x : NState) : (s.putBank eng i x).memOk :=
  State.memOk_mk.mpr (Memory.wf_writeBytes (State.countBank_memOk h _ _) _ _)

theorem State.enterQueue_memOk (eng key t : Nat) (w : Word) : (s.enterQueue eng key t w).memOk :=
  State.modEngine_memOk h _ _

theorem State.drainEvents_memOk (eng : Nat) : (s.drainEvents eng).memOk := State.modEngine_memOk h _ _

theorem State.countFanLost_memOk (eng : Option Nat) : (s.countFanLost eng).memOk := by
  unfold State.countFanLost
  split
  · exact State.modEngine_memOk h _ _
  · exact h

@[simp] theorem execEventArrival_ok (i : Nat) : outOk (execEventArrival i s) := by
  unfold execEventArrival
  dsimp only
  split
  · exact outOk_next_of h
  · split
    · exact outOk_next_of h
    · split
      · exact outOk_next_of (State.countFanLost_memOk (State.memOk_mk.mpr h) _)
      · split
        · exact outOk_next_of (State.modEngine_memOk (State.memOk_mk.mpr h) _ _)
        · exact outOk_next_of (State.enterQueue_memOk (State.memOk_mk.mpr h) _ _ _ _)

theorem State.fanError_memOk (eng p : Nat) : (s.fanError eng p).memOk :=
  State.countFanLost_memOk (State.atThread_memOk h _ (fun _ hu => State.on_memOk hu _)) _

theorem State.fanEntry_memOk (eng p t ent k : Nat) : (State.fanEntry eng p t ent s k).memOk := by
  unfold State.fanEntry
  dsimp only
  split
  · exact State.countFanLost_memOk h _
  · split
    · exact State.fanError_memOk h _ _
    · split
      · exact State.countFanLost_memOk h _
      · exact h

theorem State.fanOut_memOk (eng p t i x : Nat) : (s.fanOut eng p t i x).memOk := by
  unfold State.fanOut
  dsimp only
  split
  · exact State.fanError_memOk h _ _
  · exact foldl_memOk (fun u x hu => State.fanEntry_memOk hu _ _ _ _ _) _ h

theorem State.fireMail_memOk (eng p t i fires x : Nat) : (s.fireMail eng p t i fires x).memOk := by
  rw [show @State.fireMail = delta% @State.fireMail from rfl]
  dsimp only
  split
  · exact State.postMail_memOk h _
  · exact State.modEngine_memOk h _ _

theorem State.fire_memOk (eng p t i : Nat) : (s.fire eng p t i).memOk := by
  unfold State.fire
  dsimp only
  split
  · refine State.fireMail_memOk ?_ _ _ _ _ _ _
    split
    · exact State.fanOut_memOk (State.modEngine_memOk (State.putBank_memOk h _ _ _) _ _) _ _ _ _ _
    · exact State.modEngine_memOk (State.putBank_memOk h _ _ _) _ _
  · split
    · exact State.fanOut_memOk (State.modEngine_memOk (State.putBank_memOk h _ _ _) _ _) _ _ _ _ _
    · exact State.modEngine_memOk (State.putBank_memOk h _ _ _) _ _

theorem State.deliverTo_memOk (eng : Nat) (q : QEvent) : (s.deliverTo eng q).memOk := by
  unfold State.deliverTo
  dsimp only
  split
  · exact State.modEngine_memOk (State.modEngine_memOk
      (State.putBank_memOk (State.modEngine_memOk h _ _) _ _ _) _ _) _ _
  · split
    · exact State.modEngine_memOk (State.modEngine_memOk h _ _) _ _
    · split
      · split
        · split
          · exact State.fire_memOk (State.modEngine_memOk
              (State.modEngine_memOk (State.putBank_memOk (State.modEngine_memOk h _ _) _ _ _) _ _) _ _) _ _ _ _
          · exact State.modEngine_memOk (State.modEngine_memOk
              (State.putBank_memOk (State.modEngine_memOk h _ _) _ _ _) _ _) _ _
        · dsimp only
          split
          · exact State.fire_memOk (State.modEngine_memOk
              (State.modEngine_memOk (State.putBank_memOk (State.modEngine_memOk h _ _) _ _ _) _ _) _ _) _ _ _ _
          · exact State.modEngine_memOk (State.modEngine_memOk
              (State.putBank_memOk (State.modEngine_memOk h _ _) _ _ _) _ _) _ _
      · split
        · split
          · exact State.fire_memOk (State.modEngine_memOk
              (State.modEngine_memOk (State.putBank_memOk (State.modEngine_memOk h _ _) _ _ _) _ _) _ _) _ _ _ _
          · exact State.modEngine_memOk (State.modEngine_memOk
              (State.putBank_memOk (State.modEngine_memOk h _ _) _ _ _) _ _) _ _
        · dsimp only
          split
          · exact State.fire_memOk (State.modEngine_memOk
              (State.modEngine_memOk (State.putBank_memOk (State.modEngine_memOk h _ _) _ _ _) _ _) _ _) _ _ _ _
          · exact State.modEngine_memOk (State.modEngine_memOk
              (State.putBank_memOk (State.modEngine_memOk h _ _) _ _ _) _ _) _ _

theorem State.deliverEvent_memOk (eng : Nat) (q : QEvent) : (s.deliverEvent eng q).memOk := by
  unfold State.deliverEvent
  dsimp only
  refine State.drainEvents_memOk ?_ _
  split
  · exact State.deliverTo_memOk (State.modEngine_memOk h _ _) _ _
  · exact State.modEngine_memOk (State.modEngine_memOk h _ _) _ _

@[simp] theorem execEventDelivery_ok (eng : Nat) : outOk (execEventDelivery eng s) := by
  unfold execEventDelivery
  split
  · split
    · exact outOk_next_of (State.deliverEvent_memOk h _ _)
    · exact outOk_next_of h
  · exact outOk_next_of h

theorem State.sweepState_memOk (eng p t i : Nat) : (State.sweepState eng p t s i).memOk := by
  unfold State.sweepState
  dsimp only
  split
  · exact h
  · split
    · dsimp only
      split
      · exact State.fire_memOk (State.modEngine_memOk (State.putBank_memOk h _ _ _) _ _) _ _ _ _
      · exact State.modEngine_memOk (State.putBank_memOk h _ _ _) _ _
    · dsimp only
      split
      · exact State.fire_memOk (State.modEngine_memOk (State.putBank_memOk h _ _ _) _ _) _ _ _ _
      · exact State.modEngine_memOk (State.putBank_memOk h _ _ _) _ _

theorem State.sweep_memOk (eng p : Nat) : (s.sweep eng p).memOk := by
  unfold State.sweep
  dsimp only
  split
  · exact h
  · exact foldl_memOk (fun u x hu => State.sweepState_memOk hu _ _ _ _) _ h

/-! ### Event operations -/

theorem State.eventInstr_ok (sub : Nat) (d : BitVec 5) (word : Option (BitVec 32)) (t : Option Trap)
    (x : OpSpans) (body : OpBody) : outOk (s.eventInstr sub d word t x body) :=
  State.dispatched_ok h _ _ (State.dispatchTo_memOk h _ _ _ _ _)

theorem State.evcfg_ok (kind : CfgKind) (fl : Nat) (d a b : BitVec 5) (limit n unit : Nat) :
    outOk (s.evcfg kind fl d a b limit n unit) := by
  unfold State.evcfg
  dsimp only
  exact State.eventInstr_ok h _ _ _ _ _ _

@[simp] theorem execEvcfgPop_ok (d a b : BitVec 5) : outOk (execEvcfgPop d a b s) :=
  State.evcfg_ok h _ _ _ _ _ _ _ _

@[simp] theorem execEvcfgLeak_ok (d a b : BitVec 5) : outOk (execEvcfgLeak d a b s) :=
  State.evcfg_ok h _ _ _ _ _ _ _ _

@[simp] theorem execEvcfgEng_ok (d a : BitVec 5) : outOk (execEvcfgEng d a s) :=
  State.evcfg_ok h _ _ _ _ _ _ _ _

@[simp] theorem execEvpost_ok (d a b : BitVec 5) : outOk (execEvpost d a b s) :=
  State.eventInstr_ok h _ _ _ _ _ _

@[simp] theorem execEvsweep_ok (d a : BitVec 5) : outOk (execEvsweep d a s) := State.eventInstr_ok h _ _ _ _ _ _

@[simp] theorem execEvread_ok (d a b : BitVec 5) : outOk (execEvread d a b s) := by
  unfold execEvread
  dsimp only
  exact State.eventInstr_ok h _ _ _ _ _ _

@[simp] theorem execEvreadSt_ok (d a : BitVec 5) : outOk (execEvreadSt d a s) := by
  unfold execEvreadSt
  dsimp only
  exact State.eventInstr_ok h _ _ _ _ _ _

@[simp] theorem execEvwrite_ok (d a b : BitVec 5) : outOk (execEvwrite d a b s) := by
  unfold execEvwrite
  dsimp only
  exact State.eventInstr_ok h _ _ _ _ _ _

@[simp] theorem execEvdrain_ok (d : BitVec 5) : outOk (execEvdrain d s) := State.eventInstr_ok h _ _ _ _ _ _

@[simp] theorem execEvdrainPop_ok (d a : BitVec 5) : outOk (execEvdrainPop d a s) :=
  State.eventInstr_ok h _ _ _ _ _ _

theorem State.eventRefused_memOk (seq : BitVec 16) (reason : Nat) : (s.eventRefused seq reason).memOk :=
  State.lateFault_memOk h _ _ _

theorem State.configure_memOk (eng : Nat) (o : Op) (kind : CfgKind) (num : Nat) (xs : List Byte) :
    (s.configure eng o kind num xs).memOk := by
  unfold State.configure
  dsimp only
  split
  · exact State.opDone_memOk (State.memOk_mk.mpr (Memory.wf_writeBytes h _ _)) _
  · split
    · exact State.eventRefused_memOk h _ _
    · exact State.opDone_memOk (State.modEngine_memOk (State.memOk_mk.mpr (Memory.wf_writeBytes h _ _)) _ _) _
  · split
    · exact State.eventRefused_memOk h _ _
    · exact State.opDone_memOk (State.modEngine_memOk h _ _) _

theorem State.postAway_memOk (seq : BitVec 16) (w : Word) (c : Nat) : (s.postAway seq w c).memOk := by
  unfold State.postAway
  split
  · exact State.eventRefused_memOk h _ _
  · split
    · exact State.opDone_memOk h _
    · exact State.opDone_memOk (State.memOk_mk.mpr h) _

theorem State.startDrain_memOk (eng : Nat) (o : Op) : (s.startDrain eng o).memOk := by
  unfold State.startDrain
  dsimp only
  split
  · exact State.on_memOk h _
  · exact State.opDone_memOk h _

theorem State.setBank_memOk (eng i : Nat) (xs : List Byte) : (s.setBank eng i xs).memOk :=
  State.memOk_mk.mpr (Memory.wf_writeBytes h _ _)

theorem State.movedState_memOk (seq : BitVec 16) (rest : OpBody) (n : Nat) : (s.movedState seq rest n).memOk := by
  unfold State.movedState
  split
  · exact State.opDone_memOk h _
  · exact State.on_memOk h _

theorem State.performEvent_memOk (o : Op) : (s.performEvent o).memOk := by
  unfold State.performEvent
  dsimp only
  split
  · exact State.engineRead_memOk h _ _ _ (fun u => State.configure_memOk h _ _ _ _ _)
  · split
    · exact State.opDone_memOk (State.enterQueue_memOk h _ _ _ _) _
    · exact State.postAway_memOk h _ _ _
  · exact State.opDone_memOk (State.sweep_memOk h _ _) _
  · exact State.movedState_memOk (State.countBank_memOk (State.resultBytes_memOk h _ _) _ _) _ _ _
  · exact State.opDone_memOk (State.resultBytes_memOk h _ _) _
  · exact State.engineRead_memOk h _ _ _ (fun u => State.movedState_memOk (State.setBank_memOk h _ _ _) _ _ _)
  · exact State.startDrain_memOk h _ _
  · split
    · exact State.eventRefused_memOk h _ _
    · exact State.opDone_memOk (State.drainEvents_memOk (State.modEngine_memOk h _ _) _) _
  · exact h

@[simp] theorem execEventOperationPerform_ok (c : Nat) : outOk (execEventOperationPerform c s) := by
  unfold execEventOperationPerform
  dsimp only
  split
  · refine outOk_next_of (State.modEngine_memOk (State.atAgent_memOk h _ (fun u hu => ?_)) _ _)
    split
    · exact State.performEvent_memOk hu _
    · exact hu
  · exact outOk_next_of h

@[simp] theorem execEvdrainComplete_ok (c : Nat) : outOk (execEvdrainComplete c s) := by
  unfold execEvdrainComplete
  refine outOk_next_of (State.atAgent_memOk h _ (fun u hu => ?_))
  split
  · split
    · split
      · exact hu
      · exact State.opDone_memOk hu _
    · exact hu
  · exact hu

@[simp] theorem execRdtime_ok (d : BitVec 5) : outOk (execRdtime d s) :=
  outOk_next_of (State.adv_memOk (State.setG_memOk h _ _))

@[simp] theorem execRdtimeTick_ok (d : BitVec 5) : outOk (execRdtimeTick d s) :=
  outOk_checked h _ (State.adv_memOk (State.setG_memOk h _ _))

theorem State.arm_memOk (d : BitVec 5) (value : Word) (act : TrigAct) {go : State → State}
    (hgo : ∀ u, u.memOk → (go u).memOk) : (s.arm d value act go).memOk := by
  unfold State.arm
  dsimp only
  split
  · exact State.adv_memOk (State.setG_memOk h _ _)
  · exact State.adv_memOk (State.setG_memOk (hgo _ (State.memOk_mk.mpr h)) _ _)

@[simp] theorem execTarm_ok (d a b : BitVec 5) : outOk (execTarm d a b s) := by
  unfold execTarm
  dsimp only
  refine outOk_checked h _ ?_
  split
  · exact State.arm_memOk h _ _ _ (fun u hu => State.on_memOk hu _)
  · exact State.adv_memOk (State.setG_memOk h _ _)

@[simp] theorem execTarmEv_ok (d a b : BitVec 5) : outOk (execTarmEv d a b s) :=
  outOk_checked h _ (State.arm_memOk h _ _ _ fun _ hu => hu)

@[simp] theorem execWaitt_ok (a : BitVec 5) : outOk (execWaitt a s) := by
  unfold execWaitt
  refine outOk_next_of ?_
  split
  · exact State.adv_memOk h
  · exact State.waiting_memOk h _

@[simp] theorem execWaittExpiry_ok (c : Nat) : outOk (execWaittExpiry c s) := by
  unfold execWaittExpiry
  refine outOk_next_of (State.at_memOk h _ (fun u hu => ?_))
  split
  · split
    · exact State.resumed_memOk (State.adv_memOk hu)
    · exact hu
  · exact hu

theorem State.triggerPost_memOk (eng : Nat) (w : Word) (core : Nat) : (s.triggerPost eng w core).memOk := by
  unfold State.triggerPost
  dsimp only
  split
  · exact State.modEngine_memOk h _ _
  · exact State.enterQueue_memOk h _ _ _ _

@[simp] theorem execTriggerFire_ok (unit : Nat) : outOk (execTriggerFire unit s) := by
  unfold execTriggerFire
  dsimp only
  split
  · exact outOk_next_of h
  · split
    · exact outOk_next_of (State.atThread_memOk (State.memOk_mk.mpr h) _ (fun u hu => State.on_memOk hu _))
    · exact outOk_next_of (State.triggerPost_memOk (State.memOk_mk.mpr h) _ _ _)

theorem State.recordStep_memOk (pkg : Nat) (old : Word) : (s.recordStep pkg old).memOk :=
  State.modPkg_memOk h _ _

theorem State.stepClock_memOk (pkg : Nat) (x : Word) : (s.stepClock pkg x).memOk :=
  State.recordStep_memOk (State.modPkg_memOk h _ _) _ _

theorem State.wrapClocks_memOk (old : State) : (s.wrapClocks old).memOk := by
  unfold State.wrapClocks
  dsimp only
  refine foldl_memOk (fun u x hu => ?_) _ h
  split
  · exact State.recordStep_memOk hu _ _
  · exact hu

@[simp] theorem execDomainClockStep_ok (pkg : Nat) (x : BitVec 64) : outOk (execDomainClockStep pkg x s) := by
  unfold execDomainClockStep
  dsimp only
  split
  · exact outOk_next_of (State.stepClock_memOk h _ _)
  · exact outOk_next_of h

@[simp] theorem execGrandmasterLockChange_ok (pkg : Nat) (lock : Bool) :
    outOk (execGrandmasterLockChange pkg lock s) :=
  outOk_next_of (State.modPkg_memOk h _ _)

/-! ### The registrar -/

theorem State.regFind_memOk (pid : BitVec 16) (va : Nat) (l : List Nat) : (s.regFind pid va l).2.memOk := by
  induction l generalizing s with
  | nil => exact h
  | cons k l ih =>
    have hf := State.stationFind_memOk h k pid va
    unfold State.regFind
    split
    · rename_i t e; exact ih (State.stationFind_memOk_of_eq h e)
    · exact hf

theorem State.regFind_memOk_of_eq {pid : BitVec 16} {va : Nat} {l : List Nat} {a : StationAns} {t : State}
    (e : s.regFind pid va l = (a, t)) : t.memOk := by
  have ht := State.regFind_memOk h pid va l
  rw [e] at ht
  exact ht

theorem State.regSpans_memOk {pkg : Nat} {q : LQueue} {va n : Nat} {k : AccKind} {n6 : Nat}
    {res : RegRes (List (Xlat × Nat))} (e : s.regSpans pkg q va n k n6 = res) : res.memOk := by
  induction n6 generalizing s pkg q va n k res with
  | zero =>
    subst e; unfold State.regSpans
    split
    · exact h
    · exact trivial
  | succ n6 ih =>
    subst e; unfold State.regSpans
    dsimp only
    split
    · exact h
    · split
      · exact trivial
      · split
        · rename_i t e
          have ht : t.memOk := State.regFind_memOk_of_eq h e
          exact trivial
        · rename_i t e
          have ht : t.memOk := State.regFind_memOk_of_eq h e
          exact trivial
        · rename_i t e
          have ht : t.memOk := State.regFind_memOk_of_eq h e
          split
          · exact trivial
          · split
            · exact trivial
            · split
              · rename_i t1 e1
                have ht1 : t1.memOk := ih ht e1
                exact ht1
              · exact ih ht rfl

theorem State.regRead_memOk {pkg : Nat} {q : LQueue} {va n : Nat} {k : AccKind} {res : RegRes (List Byte)}
    (e : s.regRead pkg q va n k = res) : res.memOk := by
  subst e; unfold State.regRead
  split
  · exact trivial
  · exact trivial
  · rename_i t e
    have ht : t.memOk := State.regSpans_memOk h e
    split
    · exact ht
    · exact trivial

theorem State.tablesCheck_memOk {pkg : Nat} {q : LQueue} {x hd : BitVec 512} {res : RecRes}
    (e : s.tablesCheck pkg q x hd = res) : res.memOk := by
  subst e; unfold State.tablesCheck
  dsimp only
  split
  · trivial
  · split
    · trivial
    · trivial
    · rename_i bs t e
      have ht : t.memOk := State.regRead_memOk h e
      split
      · trivial
      · split
        · trivial
        · trivial
        · rename_i ps t1 e1
          have ht1 : t1.memOk := State.regRead_memOk ht e1
          split
          · exact ht1
          · trivial

theorem State.recordCheck_memOk {pkg : Nat} {q : LQueue} {x : BitVec 512} {res : RecRes}
    (e : s.recordCheck pkg q x = res) : res.memOk := by
  subst e; unfold State.recordCheck
  split
  · trivial
  · split
    · trivial
    · trivial
    · rename_i hs t e
      dsimp only
      split
      · exact State.tablesCheck_memOk (State.regRead_memOk h e) rfl
      · trivial

theorem State.bayImage_memOk {pkg : Nat} {q : LQueue} {res : RegRes (List Byte)} (e : s.bayImage pkg q = res) :
    res.memOk := by
  subst e; unfold State.bayImage
  dsimp only
  split
  · exact h
  · split
    · rename_i t e
      have ht : t.memOk := State.regFind_memOk_of_eq h e
      exact trivial
    · rename_i t e
      have ht : t.memOk := State.regFind_memOk_of_eq h e
      exact trivial
    · rename_i t e
      have ht : t.memOk := State.regFind_memOk_of_eq h e
      split
      · exact State.regRead_memOk ht rfl
      · exact trivial

theorem State.segments_memOk {pkg : Nat} {q : LQueue} {l : List Preload} {res : RegRes (List (Nat × List Byte))}
    (e : s.segments pkg q l = res) : res.memOk := by
  induction l generalizing s pkg q res with
  | nil =>
    subst e; unfold State.segments
    exact h
  | cons x l ih =>
    subst e; unfold State.segments
    split
    · exact trivial
    · exact trivial
    · rename_i t e
      have ht : t.memOk := State.regRead_memOk h e
      split
      · rename_i t1 e1
        have ht1 : t1.memOk := ih ht e1
        exact ht1
      · exact ih ht rfl

theorem State.loadOf_memOk {pkg : Nat} {q : LQueue} {x : BitVec 512} {pre : List Preload}
    {res : RegRes (List (Nat × List Byte))} (e : s.loadOf pkg q x pre = res) : res.memOk := by
  subst e; unfold State.loadOf
  split
  · exact trivial
  · exact trivial
  · rename_i t e
    have ht : t.memOk := State.segments_memOk h e
    split
    · exact trivial
    · exact trivial
    · rename_i t1 e1
      exact State.bayImage_memOk ht e1

/-! ### Admission and start of a launch -/

theorem State.admitRecord_memOk (pkg : Nat) (q : LQueue) (i : Nat) (fresh : Bool) (x : BitVec 512) :
    (s.admitRecord pkg q i fresh x).memOk := by
  have hc := State.recordCheck_memOk h (pkg := pkg) (q := q) (x := x) rfl
  obtain ⟨r, hr⟩ : ∃ r, s.recordCheck pkg q x = r := ⟨_, rfl⟩
  unfold State.admitRecord
  rw [hr] at hc ⊢
  cases r with
  | wait => exact h
  | refuse code => exact State.modPkg_memOk h _ _
  | ok hd bars pre t =>
    have hl := State.loadOf_memOk hc (pkg := pkg) (q := q) (x := x) (pre := pre) rfl
    obtain ⟨l, el⟩ : ∃ l, t.loadOf pkg q x pre = l := ⟨_, rfl⟩
    dsimp only
    rw [el] at hl ⊢
    split
    · exact State.modPkg_memOk hc _ _
    · split
      · exact h
      · cases l with
        | wait => exact h
        | fault => exact State.modPkg_memOk hc _ _
        | ok load t1 => exact State.modPkg_memOk hl _ _

@[simp] theorem execLaunchAdmission_ok (pkg q : Nat) : outOk (execLaunchAdmission pkg q s) := by
  unfold execLaunchAdmission
  dsimp only
  split
  · exact outOk_next_of h
  · split
    · exact outOk_next_of h
    · split
      · exact outOk_next_of h
      · split
        · exact outOk_next_of h
        · exact outOk_next_of (State.admitRecord_memOk h _ _ _ _ _)

theorem State.giveBytes_memOk (c : Nat) (x : Nat × List Byte) : (s.giveBytes c x).memOk :=
  State.withMem_memOk (Memory.wf_writeBytes (State.dropPoison_memOk h _ _) _ _)

theorem State.giveStore_memOk (pkg c : Nat) (load : List (Nat × List Byte)) : (s.giveStore pkg c load).memOk := by
  unfold State.giveStore
  dsimp only
  refine foldl_memOk (fun u x hu => State.giveBytes_memOk hu _ _) _ ?_
  split
  · exact h
  · exact State.withMem_memOk (Memory.wf_zero (State.dropPoison_memOk h _ _) _ _)

theorem State.keepEnded_memOk (pkg c : Nat) : (s.keepEnded pkg c).memOk := by
  unfold State.keepEnded
  dsimp only
  split
  · exact h
  · exact h

theorem State.startCore_memOk (pkg : Nat) (l : Launch) (g : Group) (q : LQueue) (m : Nat) :
    (s.startCore pkg l g q m).memOk := by
  unfold State.startCore
  dsimp only
  split
  · exact State.memOk_mk.mpr (State.modCore_memOk (State.modPkg_memOk
      (State.giveStore_memOk (State.at_memOk (State.keepEnded_memOk h _ _) _
        (fun u hu => State.dropWaiting_memOk hu)) _ _ _) _ _) _ _)
  · exact State.modCore_memOk (State.modPkg_memOk (State.giveStore_memOk
      (State.at_memOk (State.keepEnded_memOk h _ _) _ (fun u hu => State.dropWaiting_memOk hu)) _ _ _) _ _) _ _

theorem State.startGroup_memOk (pkg : Nat) (l : Launch) (q : LQueue) (g : Group) :
    (State.startGroup pkg l q s g).memOk :=
  foldl_memOk (fun _ _ hu => State.startCore_memOk hu _ _ _ _ _) _ h

theorem State.startGroups_memOk (pkg : Nat) (l : Launch) (f : Group → Bool) : (s.startGroups pkg l f).memOk := by
  unfold State.startGroups
  dsimp only
  split
  · exact h
  · exact State.modPkg_memOk (foldl_memOk (fun u x hu => State.startGroup_memOk hu _ _ _ _) _ h) _ _

@[simp] theorem execLaunchStart_ok (pkg num grp : Nat) : outOk (execLaunchStart pkg num grp s) := by
  unfold execLaunchStart
  dsimp only
  split
  · exact outOk_next_of h
  · split
    · exact outOk_next_of h
    · split
      · exact outOk_next_of (State.startGroups_memOk h _ _ _)
      · split
        · exact outOk_next_of h
        · split
          · exact outOk_next_of h
          · exact outOk_next_of (State.startGroups_memOk (State.modPkg_memOk h _ _) _ _ _)

/-! ### End of a launch -/

theorem State.stopThread_memOk (how : RunState) : (State.stopThread how s).memOk :=
  State.on_memOk (State.withdrawFollow_memOk (State.leaveGang_memOk (State.keepOps_memOk h))) _

theorem State.stopOf_memOk (how : RunState) (k : Nat) : (State.stopOf how s k).memOk := by
  obtain ⟨get, hg⟩ : ∃ get, s.getThread = get := ⟨_, rfl⟩
  rw [show @State.stopOf = delta% @State.stopOf from rfl]
  dsimp only
  rw [hg]
  split
  · exact h
  · split
    · exact State.atThread_memOk h _ fun u hu => State.stopThread_memOk hu _
    · exact h

theorem State.endThreadBinds_memOk (k : Nat) : (s.endThreadBinds k).memOk := by
  obtain ⟨get, hg⟩ : ∃ get, s.getThread = get := ⟨_, rfl⟩
  rw [show @State.endThreadBinds = delta% @State.endThreadBinds from rfl]
  dsimp only
  rw [hg]
  split
  · split
    · exact State.endBindings_memOk h _ fun u x y z hu => State.takeDown_memOk hu _ _ _
    · exact h
  · exact h

theorem State.dropPops_memOk (ks : List Nat) : (s.dropPops ks).memOk := by
  unfold State.dropPops
  refine foldl_memOk (fun u x hu => ?_) _ h
  dsimp only
  split
  · exact hu
  · exact State.drainEvents_memOk (State.modEngine_memOk
      (State.memOk_mk.mpr (foldl_wf (fun _ _ hm => Memory.wf_writeBytes hm _ _) _ hu)) _ _) _

theorem State.dropTriggers_memOk (ks : List Nat) : (s.dropTriggers ks).memOk := h

theorem State.forget_memOk (ks : List Nat) : (s.forget ks).memOk := by
  unfold State.forget
  dsimp only
  refine foldl_memOk (fun u x hu => ?_) _ (State.memOk_mk.mpr h)
  split
  · exact State.modCore_memOk hu _ _
  · exact hu

theorem State.statusWords_memOk (pkg : Nat) (pub : List Nat) (a : Nat) (xs : List Byte) :
    (s.statusWords pkg pub a xs).memOk :=
  foldl_memOk (fun _ _ hu => State.foreignWord_memOk hu _ _ _ _ _) _ h

theorem State.statusLocal_memOk {t : State} {pkg : Nat} {q : LQueue} {pub : List Nat} {c a : Nat}
    {xs : List Byte} (e : s.statusLocal pkg q pub c a xs = some t) : t.memOk := by
  unfold State.statusLocal at e
  obtain ⟨_, e⟩ := Option.ite_none_left_eq_some.mp e
  split at e
  · cases e; exact State.atThread_memOk h _ fun u hu => State.statusWords_memOk hu _ _ _ _
  · obtain ⟨_, e⟩ := Option.ite_none_left_eq_some.mp e
    cases e; exact State.at_memOk h _ fun u hu => State.statusWords_memOk hu _ _ _ _

theorem State.writeHalves_memOk (w : WStand) (x : Xlat) (xs : List Byte) : (s.writeHalves w x xs).memOk :=
  foldl_memOk (fun _ _ hu => State.offWriteBytes_memOk hu _ _ _ _) _ h

theorem State.statusOff_memOk {t : State} {pkg : Nat} {q : LQueue} {pub : List Nat} {l : List (Xlat × Nat)}
    {xs : List Byte} (e : s.statusOff pkg q pub l xs = some t) : t.memOk := by
  unfold State.statusOff at e
  obtain ⟨_, e⟩ := Option.ite_none_right_eq_some.mp e
  cases e
  generalize s.registrarStand pkg true pub = w
  clear * - h
  induction l generalizing s xs with
  | nil => exact h
  | cons x l ih => exact ih (State.writeHalves_memOk h _ _ _)

/-- Of a write that may end with a fault, the state that it goes on with. -/
theorem State.statusWrite_memOk {t : State} {pkg : Nat} {q : LQueue} {pub : List Nat} {xs : List Byte}
    (e : s.statusWrite pkg q pub xs = some (some t)) : t.memOk := by
  unfold State.statusWrite at e
  dsimp only at e
  split at e
  · exact State.statusLocal_memOk h (Option.some.inj e)
  · split at e
    · cases e
    · cases e
    · rename_i l u el
      exact State.statusOff_memOk (State.regSpans_memOk h el) (Option.some.inj e)

theorem State.reportStatus_memOk {t : State} {pkg : Nat} {l : Launch} {code : Nat} {pub : List Nat}
    (e : s.reportStatus pkg l code pub = some t) : t.memOk := by
  unfold State.reportStatus at e
  dsimp only at e
  split at e
  · cases e; exact h
  · split at e
    · cases e
    · cases e; exact State.modPkg_memOk h _ _
    · rename_i u eu
      cases e; exact State.modPkg_memOk (State.modPkg_memOk (State.statusWrite_memOk h eu) _ _) _ _

theorem State.dropPosts_memOk (ks : List Nat) : (s.dropPosts ks).memOk :=
  foldl_memOk (fun _ _ hu => State.dropPost_memOk hu _) _ h

theorem State.releaseLaunch_memOk (ks : List Nat) : (s.releaseLaunch ks).memOk := by
  have hb := foldl_memOk (g := State.endThreadBinds) (fun u x hu => State.endThreadBinds_memOk hu x) ks h
  unfold State.releaseLaunch
  exact State.forget_memOk (State.dropPosts_memOk (State.dropTriggers_memOk (State.dropPops_memOk hb _) _) _) _

theorem State.endLaunch_memOk (pkg : Nat) (l : Launch) : (s.endLaunch pkg l).memOk := by
  unfold State.endLaunch
  dsimp only
  split
  · exact h
  · exact getD_memOk (fun t e => State.reportStatus_memOk
      (State.modPkg_memOk (State.releaseLaunch_memOk h _) _ _) e) h

@[simp] theorem execLaunchEnd_ok (pkg num : Nat) : outOk (execLaunchEnd pkg num s) := by
  unfold execLaunchEnd
  split
  · exact outOk_next_of h
  · rename_i l _
    have hk : ∀ u : State, u.memOk → (((l.threads pkg).foldl State.endThreadBinds u).endLaunch pkg l).memOk :=
      fun u hu => State.endLaunch_memOk
        (foldl_memOk (g := State.endThreadBinds) (fun _ x hv => State.endThreadBinds_memOk hv x) _ hu) _ _
    refine outOk_next_of (hk _ ?_)
    split
    · exact foldl_memOk (g := State.stopOf l.stopsAs) (fun _ x hv => State.stopOf_memOk hv _ x) _ h
    · exact h

theorem State.failCall_memOk : s.failCall.memOk := by
  unfold State.failCall
  dsimp only
  split
  · exact h
  · refine State.on_memOk (State.atThread_memOk (State.dropTriggers_memOk ?_ _) _ (fun u hu => ?_)) _
    · split
      · exact State.endBindings_memOk h _ (fun u x y z hu => State.takeDown_memOk hu _ _ _)
      · exact h
    · split
      · exact State.failCopy_memOk hu _ _ _ _
      · exact hu

theorem State.giveBay_memOk (c : Nat) : (s.giveBay c).memOk := State.giveStore_memOk h _ _ _

@[simp] theorem execLoaderCallStart_ok (c : Nat) : outOk (execLoaderCallStart c s) := by
  unfold execLoaderCallStart
  dsimp only
  split
  · exact outOk_next_of h
  · split
    · refine outOk_next_of ?_
      split
      · exact State.at_memOk h _ (fun u hu => State.failCall_memOk hu)
      · exact h
    · refine outOk_next_of (State.modCore_memOk (State.giveBay_memOk (State.fresh_memOk ?_) _) _ _)
      split
      · exact State.at_memOk h _ (fun u hu => State.failCall_memOk hu)
      · exact h

/-! ### Pre-emption, save and resume -/

theorem State.takeLateFault_memOk (e : RingEntry) : (s.takeLateFault e).memOk :=
  State.takeTrap_memOk (State.on_memOk h _) _ _ _ _ _ _

@[simp] theorem execLateFaultTaken_ok (c : Nat) : outOk (execLateFaultTaken c s) := by
  unfold execLateFaultTaken
  refine outOk_next_of (State.at_memOk h _ (fun u hu => ?_))
  split
  · exact State.takeLateFault_memOk hu _
  · exact hu

@[simp] theorem execReleaseCauseTaken_ok (c : Nat) : outOk (execReleaseCauseTaken c s) := by
  unfold execReleaseCauseTaken
  refine outOk_next_of (State.at_memOk h _ (fun u hu => ?_))
  split
  · exact State.takeTrap_memOk (State.on_memOk hu _) _ _ _ _ _ _
  · exact hu

@[simp] theorem execPreemptRequest_ok (pkg num : Nat) : outOk (execPreemptRequest pkg num s) := by
  unfold execPreemptRequest
  dsimp only
  split
  · exact outOk_next_of h
  · split
    · exact outOk_next_of h
    · split
      · refine outOk_next_of (State.modPkg_memOk (foldl_memOk (fun u x hu => ?_) _ h) _ _)
        split
        · exact State.modCore_memOk hu _ _
        · exact hu
      · exact outOk_next_of h

@[simp] theorem execPreempt_ok (c : Nat) : outOk (execPreempt c s) := by
  unfold execPreempt
  refine outOk_next_of (State.at_memOk h _ (fun u hu => ?_))
  split
  · exact State.on_memOk (State.takeTrap_memOk (State.keepOps_memOk hu) _ _ _ _ _ _) _
  · exact hu

theorem State.moveSpans_memOk (src dst : Nat) (clear : Bool) (l : List Span) :
    (s.moveSpans src dst clear l).memOk := by
  unfold State.moveSpans
  refine foldl_memOk (fun u x hu => ?_) _ h
  dsimp only
  refine State.memOk_mk.mpr ?_
  split
  · exact Memory.wf_zero (Memory.wf_copy hu _ _ _) _ _
  · exact Memory.wf_copy hu _ _ _

theorem State.saveCore_memOk (k : Nat) : (s.saveCore k).memOk := by
  unfold State.saveCore
  dsimp only
  split
  · exact h
  · exact State.modCore_memOk (State.memOk_mk.mpr (State.moveSpans_memOk h _ _ _ _)) _ _

theorem State.spoilBuffer_memOk (l : List (Xlat × Nat)) : (s.spoilBuffer l).memOk := by
  unfold State.spoilBuffer
  refine foldl_memOk (fun u x hu => ?_) _ h
  dsimp only
  split
  · exact State.withMem_memOk (Memory.wf_undefine (State.fresh_memOk hu) _ _ _)
  · exact hu

@[simp] theorem execContextSave_ok (pkg num : Nat) : outOk (execContextSave pkg num s) := by
  unfold execContextSave
  dsimp only
  split
  · exact outOk_next_of h
  · split
    · exact outOk_next_of (State.modPkg_memOk (foldl_memOk (fun u x hu => State.saveCore_memOk hu _) _
        (State.spoilBuffer_memOk h _)) _ _)
    · exact outOk_next_of h

theorem State.redispatch_memOk (o : Op) : (s.redispatch o).memOk := by
  unfold State.redispatch
  dsimp only
  refine State.on_memOk ?_ _
  split
  · dsimp only
    exact State.countCopy_memOk h _ _
  · exact h

theorem State.rearm_memOk (x : BitVec 16 × Word) : (s.rearm x).memOk := State.on_memOk (State.memOk_mk.mpr h) _

theorem State.resumeHere_memOk (n : Nat) : (s.resumeHere n).memOk :=
  State.takeTrap_memOk (State.on_memOk (foldl_memOk (fun _ _ hu => State.rearm_memOk hu _) _
    (foldl_memOk (fun _ _ hu => State.redispatch_memOk hu _) _ (State.on_memOk h _))) _) _ _ _ _ _ _

theorem State.resumeCore_memOk (k : Nat) : (s.resumeCore k).memOk := by
  unfold State.resumeCore
  dsimp only
  split
  · exact h
  · exact State.at_memOk (State.modCore_memOk (State.memOk_mk.mpr (State.moveSpans_memOk h _ _ _ _)) _ _) _
      (fun u hu => State.resumeHere_memOk hu _)

@[simp] theorem execResume_ok (pkg num : Nat) : outOk (execResume pkg num s) := by
  unfold execResume
  dsimp only
  split
  · exact outOk_next_of h
  · split
    · split
      · exact outOk_next_of (State.modPkg_memOk (foldl_memOk
          (fun u x hu => State.modPkg_memOk (State.resumeCore_memOk (State.keepEnded_memOk hu _ _) _) _ _) _ h) _ _)
      · exact outOk_next_of h
    · split
      · exact outOk_next_of (State.modPkg_memOk (foldl_memOk
          (fun u x hu => State.modPkg_memOk (State.resumeCore_memOk (State.keepEnded_memOk hu _ _) _) _ _) _ h) _ _)
      · exact outOk_next_of h

/-! ### Power states -/

theorem State.lose_memOk (zero : Bool) (k n : Nat) : (s.lose zero k n).memOk := by
  unfold State.lose
  dsimp only
  split
  · exact State.dropPoison_memOk (State.withMem_memOk (Memory.wf_zero h _ _)) _ _
  · exact State.dropPoison_memOk (State.withMem_memOk (Memory.wf_undefine (State.fresh_memOk h) _ _ _)) _ _

theorem State.loseEngine_memOk (zero : Bool) (eng : Nat) : (s.loseEngine zero eng).memOk := by
  unfold State.loseEngine
  dsimp only
  split
  · exact h
  · exact h

theorem State.disablePops_memOk (eng : Nat) : (s.disablePops eng).memOk := by
  unfold State.disablePops; exact State.withMem_memOk (foldl_wf (fun _ _ hm => Memory.wf_writeBytes hm _ _) _ h)

theorem State.loseUnit_memOk (zero : Bool) (u : Nat) : (State.loseUnit zero s u).memOk :=
  State.loseEngine_memOk (State.lose_memOk (State.lose_memOk h _ _ _) _ _ _) _ _

theorem State.loseStore_memOk (zero : Bool) (c : Nat) : (State.loseStore zero s c).memOk :=
  State.lose_memOk h _ _ _

theorem State.zeroAcc_memOk (c : Nat) : (s.zeroAcc c).memOk := State.modCore_memOk h _ _

theorem State.setSecurity_memOk (pkg : Nat) (c : StateCmd) : (s.setSecurity pkg c).memOk :=
  State.modPkg_memOk (State.fresh_memOk h) _ _

theorem State.boot_memOk (l : List Nat) : (s.boot l).memOk :=
  foldl_memOk (fun _ _ hu => State.modCore_memOk hu _ _) _ h

theorem State.freshStores_memOk (pkg : Nat) : (s.freshStores pkg).memOk :=
  State.lose_memOk (State.lose_memOk (State.lose_memOk
    (State.lose_memOk (State.lose_memOk (State.lose_memOk h _ _ _) _ _ _) _ _ _) _ _ _) _ _ _) _ _ _

theorem State.giveHandlers_memOk (l : List Nat) : (s.giveHandlers l).memOk := by
  unfold State.giveHandlers; exact State.withMem_memOk (foldl_wf (fun _ _ hm => Memory.wf_writeBytes hm _ _) _ h)

theorem State.wake_memOk (pkg : Nat) : (s.wake pkg).memOk := by
  unfold State.wake
  dsimp only
  exact State.modPkg_memOk (State.giveHandlers_memOk
    (State.freshStores_memOk (State.memOk_mk.mpr (State.boot_memOk h _)) _) _) _ _

theorem State.loseUnreached_memOk : s.loseUnreached.memOk := h

theorem State.setPower_memOk (pkg : Nat) (c : StateCmd) : (s.setPower pkg c).memOk := by
  unfold State.setPower
  dsimp only
  split
  · exact State.modPkg_memOk h _ _
  · exact State.modPkg_memOk h _ _
  · exact State.modPkg_memOk (foldl_memOk (fun u x hu => State.loseStore_memOk hu _ _) _
      (foldl_memOk (fun u x hu => State.loseUnit_memOk hu _ _) _ h)) _ _
  · refine State.modPkg_memOk ?_ _ _
    split
    · exact foldl_memOk (fun u x hu => State.zeroAcc_memOk hu _) _
        (foldl_memOk (fun u x hu => State.loseStore_memOk hu _ _) _
          (foldl_memOk (fun u x hu => State.lose_memOk hu _ _ _) _ h))
    · exact h
  · exact State.loseUnreached_memOk (State.modPkg_memOk h _ _)

theorem State.setState_memOk (pkg : Nat) (c : StateCmd) : (s.setState pkg c).memOk := by
  unfold State.setState
  dsimp only
  split
  · refine State.setPower_memOk (State.setSecurity_memOk ?_ _ _) _ _
    split
    · exact State.wake_memOk h _
    · exact h
  · refine State.setSecurity_memOk ?_ _ _
    split
    · exact State.wake_memOk h _
    · exact h

/-! ### Host commands and windows -/

@[simp] theorem execRegisterWrite_ok (pkg off pid : Nat) (host : Bool) (xs : List (BitVec 8)) :
    outOk (execRegisterWrite pkg off pid host xs s) := by
  unfold execRegisterWrite
  dsimp only
  split
  · split
    · exact outOk_next_of (State.modPkg_memOk h _ _)
    · exact outOk_next_of h
  · split
    · exact outOk_next_of (State.modPkg_memOk h _ _)
    · exact outOk_next_of h

theorem State.hostFails_memOk (pkg : Nat) : (s.hostFails pkg).memOk := State.modPkg_memOk h _ _

@[simp] theorem execHostWindowRead_ok (pkg off len : Nat) : outOk (execHostWindowRead pkg off len s) := by
  unfold execHostWindowRead
  dsimp only
  split
  · exact outOk_next_of (State.modPkg_memOk h _ _)
  · split
    · exact outOk_next_of (State.modPkg_memOk (State.hostFails_memOk h _) _ _)
    · split
      · split
        · exact outOk_next_of (State.modPkg_memOk (State.hostFails_memOk (State.drainHost_memOk h _ _ _) _) _ _)
        · exact outOk_next_of (State.modPkg_memOk (State.drainHost_memOk h _ _ _) _ _)
      · exact outOk_next_of (State.modPkg_memOk (State.hostFails_memOk (State.drainHost_memOk h _ _ _) _) _ _)

@[simp] theorem execHostWindowWrite_ok (pkg off : Nat) (xs : List (BitVec 8)) :
    outOk (execHostWindowWrite pkg off xs s) := by
  unfold execHostWindowWrite
  dsimp only
  split
  · exact outOk_next_of h
  · split
    · exact outOk_next_of (State.hostFails_memOk h _)
    · split
      · exact outOk_next_of (State.memOk_mk.mpr h)
      · exact outOk_next_of (State.performHost_memOk h _)

theorem State.drainPlain_memOk (pkg : Nat) (l : List HostWrite) : (s.drainPlain pkg l).memOk := by
  induction l generalizing s with
  | nil =>
    unfold State.drainPlain
    exact h
  | cons x l ih =>
    unfold State.drainPlain
    dsimp only
    split
    · exact ih h
    · split
      · exact h
      · exact ih (State.memOk_mk.mpr (State.performHost_memOk h _))

@[simp] theorem execHostOrderedWriteRelease_ok (pkg : Nat) : outOk (execHostOrderedWriteRelease pkg s) := by
  unfold execHostOrderedWriteRelease
  dsimp only
  split
  · exact outOk_next_of h
  · exact outOk_next_of (State.drainPlain_memOk (State.memOk_mk.mpr (State.performHost_memOk h _)) _ _)

@[simp] theorem execRecordWrite_ok (pkg off pid : Nat) (host : Bool) (xs : List (BitVec 8)) :
    outOk (execRecordWrite pkg off pid host xs s) := by
  unfold execRecordWrite
  dsimp only
  split
  · exact outOk_next_of h
  · refine outOk_next_of (State.modPkg_memOk ?_ _ _)
    split
    · exact State.drainHost_memOk h _ _ _
    · exact h

omit h in
theorem cmdOk_modPkg (code pkg : Nat) (f : Package → Package) : cmdOk (code, fun t => t.modPkg pkg f) :=
  fun _ h => State.modPkg_memOk h _ _

theorem State.command_ok (pkg slot code : Nat) {run : CmdSlot → BitVec 512 → CmdRes}
    (hr : ∀ c x, cmdOk (run c x)) : outOk (s.command pkg slot code run) := by
  have keep : ∀ r : CmdRes, cmdOk r → (if r.1 = resOk then r.2 s else s).memOk := fun r hk => by
    split
    · exact hk s h
    · exact h
  unfold State.command
  dsimp only
  split
  · exact outOk_next_of h
  · exact outOk_next_of (State.modPkg_memOk (keep _ (cmdOk_ite (cmdRefuse_memOk _)
      (cmdOk_ite (cmdRefuse_memOk _) (cmdOk_ite (cmdRefuse_memOk _) (hr _ _))))) _ _)

@[simp] theorem execQcreate_ok (pkg slot : Nat) : outOk (execQcreate pkg slot s) :=
  State.command_ok h _ _ _ fun _ _ => cmdOk_ite (cmdRefuse_memOk _) (cmdOk_ite (cmdRefuse_memOk _)
    (cmdOk_ite (cmdRefuse_memOk _) (cmdOk_modPkg _ _ _)))

@[simp] theorem execQdestroy_ok (pkg slot : Nat) : outOk (execQdestroy pkg slot s) := by
  refine State.command_ok h _ _ _ fun c x => ?_
  dsimp only
  split
  · exact cmdRefuse_memOk _
  · exact cmdOk_ite (cmdRefuse_memOk _) (cmdOk_ite (cmdRefuse_memOk _) (cmdOk_modPkg _ _ _))

@[simp] theorem execCset_ok (pkg slot : Nat) : outOk (execCset pkg slot s) :=
  State.command_ok h _ _ _ fun _ _ => cmdOk_ite (cmdRefuse_memOk _) (cmdOk_modPkg _ _ _)

@[simp] theorem execCancel_ok (pkg slot : Nat) : outOk (execCancel pkg slot s) := by
  refine State.command_ok h _ _ _ fun c x => ?_
  dsimp only
  split
  · exact cmdRefuse_memOk _
  · exact cmdOk_ite (cmdRefuse_memOk _) (cmdOk_ite (cmdRefuse_memOk _) (cmdOk_modPkg _ _ _))

@[simp] theorem execSummary_ok (pkg slot : Nat) : outOk (execSummary pkg slot s) := by
  refine State.command_ok h _ _ _ fun c x => ?_
  dsimp only
  generalize s.summaryKey _ _ _ = o
  cases o with
  | none => exact cmdRefuse_memOk _
  | some k => exact cmdOk_ite (cmdRefuse_memOk _) fun _ ht => State.keyWrite_memOk ht _ _ _ _

@[simp] theorem execTstep_ok (pkg slot : Nat) : outOk (execTstep pkg slot s) :=
  State.command_ok h _ _ _ fun _ _ _ ht => State.stepClock_memOk ht _ _

@[simp] theorem execHwin_ok (pkg slot : Nat) : outOk (execHwin pkg slot s) :=
  State.command_ok h _ _ _ fun _ _ => cmdOk_ite (cmdRefuse_memOk _) (cmdOk_modPkg _ _ _)

@[simp] theorem execMwin_ok (pkg slot : Nat) : outOk (execMwin pkg slot s) :=
  State.command_ok h _ _ _ fun _ _ => cmdOk_ite (cmdRefuse_memOk _) (cmdOk_ite (cmdOk_modPkg _ _ _)
    (cmdOk_ite (cmdRefuse_memOk _) (cmdOk_modPkg _ _ _)))

@[simp] theorem execSoep_ok (pkg slot : Nat) : outOk (execSoep pkg slot s) :=
  State.command_ok h _ _ _ fun _ _ => cmdOk_ite (cmdRefuse_memOk _) (cmdOk_modPkg _ _ _)

@[simp] theorem execSetstate_ok (pkg slot : Nat) : outOk (execSetstate pkg slot s) := by
  refine State.command_ok h _ _ _ fun c x => ?_
  split
  · exact cmdRefuse_memOk _
  · exact cmdOk_ite (cmdRefuse_memOk _) (cmdOk_ite (cmdRefuse_memOk _) fun _ ht => State.setState_memOk ht _ _)

/-! ### Resets, links and paths -/

theorem State.withdrawGuards_memOk (k : Nat) : (s.withdrawGuards k).memOk := by
  unfold State.withdrawGuards
  dsimp only
  refine foldl_memOk (fun u x hu => ?_) _ (State.memOk_mk.mpr h)
  split
  · split
    · exact State.atThread_memOk (State.gRelease_memOk hu _ _ _ _ _) _ (fun v hv => State.on_memOk hv _)
    · exact hu
  · exact hu

theorem State.loseHeld_memOk (n1 n2 : Nat) (b : Binding) : (s.loseHeld n1 n2 b).memOk := by
  unfold State.loseHeld
  split
  · exact State.modGuard_memOk h _ _
  · exact State.modGuard_memOk h _ _
  · exact h

theorem State.resetGuards_memOk (k : Nat) : (s.resetGuards k).memOk :=
  State.endBindings_memOk (State.endBindings_memOk (State.withdrawGuards_memOk h _) _
    (fun _ _ _ _ hu => State.loseHeld_memOk hu _ _ _)) _ (fun _ _ _ _ hu => State.takeDown_memOk hu _ _ _)

theorem State.strike_memOk (c : Nat) : (s.strike c).memOk := by
  unfold State.strike
  dsimp only
  split
  · exact h
  · refine State.memOk_mk.mpr (State.modCore_memOk (State.memOk_mk.mpr ?_) _ _)
    split
    · exact State.at_memOk h _ (fun u hu => State.dropWaiting_memOk
        (State.withdrawFollow_memOk (State.leaveGang_memOk hu)))
    · exact State.resetGuards_memOk (State.at_memOk h _
        (fun u hu => State.dropWaiting_memOk (State.withdrawFollow_memOk (State.leaveGang_memOk hu)))) _

theorem State.unmark_memOk (r : RangeOp) : (s.unmark r).memOk := by
  unfold State.unmark
  dsimp only
  split
  · exact h
  · exact State.dropAt_memOk h _ _

theorem State.strikeOp_memOk (d : Nat) (r : RangeOp) : (s.strikeOp d r).memOk := by
  unfold State.strikeOp
  dsimp only
  split
  · exact State.rangeFinish_memOk (State.unmark_memOk (State.memOk_mk.mpr h) _) _ _
  · exact State.modRangeOp_memOk (State.tellAt_memOk h _ _) _ _

theorem State.strikeUnit_memOk (u : Nat) : (s.strikeUnit u).memOk :=
  State.memOk_mk.mpr (State.disablePops_memOk (State.lose_memOk
    (State.lose_memOk (State.loseUnit_memOk h _ _) _ _ _) _ _ _) _)

theorem State.assertReset_memOk (pkg d : Nat) : (s.assertReset pkg d).memOk := by
  unfold State.assertReset
  dsimp only
  exact State.modPkg_memOk (foldl_memOk (fun u x hu => State.strikeUnit_memOk hu _) _
    (foldl_memOk (fun u x hu => State.strike_memOk hu _) _
      (foldl_memOk (fun u x hu => State.strikeOp_memOk hu _ _) _ h))) _ _

theorem State.repairDie_memOk (pkg d : Nat) : (s.repairDie pkg d).memOk := by
  unfold State.repairDie
  dsimp only
  split
  · exact State.lose_memOk (State.modPkg_memOk h _ _) _ _ _
  · exact State.modPkg_memOk h _ _

theorem State.releaseReset_memOk (pkg d : Nat) : (s.releaseReset pkg d).memOk :=
  State.modPkg_memOk (foldl_memOk (fun _ _ hu => State.modCore_memOk hu _ _) _ h) _ _

@[simp] theorem execDieReset_ok (pkg die : Nat) : outOk (execDieReset pkg die s) := by
  unfold execDieReset
  split
  · exact outOk_next_of h
  · split
    · exact outOk_next_of (State.repairDie_memOk (State.assertReset_memOk h _ _) _ _)
    · exact outOk_next_of (State.releaseReset_memOk h _ _)

@[simp] theorem execDieUnresponsiveTimeout_ok (pkg die : Nat) : outOk (execDieUnresponsiveTimeout pkg die s) := by
  unfold execDieUnresponsiveTimeout
  split
  · exact outOk_next_of (State.repairDie_memOk (State.assertReset_memOk h _ _) _ _)
  · exact outOk_next_of h

@[simp] theorem execGatewayDieReset_ok (pkg gw : Nat) : outOk (execGatewayDieReset pkg gw s) := by
  unfold execGatewayDieReset
  split
  · exact outOk_next_of (State.modPkg_memOk h _ _)
  · exact outOk_next_of h

theorem State.resetMemCore_memOk (c : Nat) : (s.resetMemCore c).memOk := by
  unfold State.resetMemCore
  dsimp only
  split
  · exact h
  · refine State.boot_memOk (foldl_memOk (fun u x hu => State.atThread_memOk hu _ (fun v hv => ?_)) _ ?_) _
    · split
      · exact State.failCopy_memOk hv _ _ _ _
      · exact hv
    · split
      · exact State.at_memOk h _ (fun u hu => State.failCall_memOk hu)
      · exact State.resetGuards_memOk (State.at_memOk h _ (fun u hu => State.failCall_memOk hu)) _

theorem State.dropPackage_memOk (pkg : Nat) : (s.dropPackage pkg).memOk :=
  State.memOk_mk.mpr (foldl_wf (fun _ _ hm => Memory.wf_zero hm _ _) _ h)

theorem State.openMemory_memOk (pkg : Nat) : (s.openMemory pkg).memOk :=
  foldl_memOk (fun _ _ hu => State.lose_memOk hu _ _ _) _
    (foldl_memOk (fun _ _ hu => State.lose_memOk hu _ _ _) _ h)

theorem State.repairStack_memOk (pkg k : Nat) : (s.repairStack pkg k).memOk := by
  unfold State.repairStack
  dsimp only
  split
  · exact State.modPkg_memOk h _ _
  · exact State.openMemory_memOk (State.memOk_mk.mpr (State.modPkg_memOk h _ _)) _

@[simp] theorem execStackBaseDieReset_ok (pkg stack : Nat) : outOk (execStackBaseDieReset pkg stack s) := by
  unfold execStackBaseDieReset
  split
  · exact outOk_next_of h
  · exact outOk_next_of (State.repairStack_memOk (foldl_memOk
      (fun u x hu => State.resetMemCore_memOk hu _) _ h) _ _)

@[simp] theorem execPackageReset_ok (pkg : Nat) : outOk (execPackageReset pkg s) := by
  unfold execPackageReset
  dsimp only
  exact outOk_next_of (State.modPkg_memOk (State.boot_memOk
    (State.fresh_memOk (State.giveHandlers_memOk (State.freshStores_memOk
      (State.openMemory_memOk (State.dropPackage_memOk
        (foldl_memOk (fun u x hu => State.assertReset_memOk hu _ _) _ h) _) _) _) _)) _) _ _)

@[simp] theorem execConfigurationRequest_ok (pkg : Nat) : outOk (execConfigurationRequest pkg s) :=
  outOk_next_of (State.modPkg_memOk h _ _)

@[simp] theorem execLinkCrcReplay_ok (pkg link : Nat) : outOk (execLinkCrcReplay pkg link s) := by
  unfold execLinkCrcReplay
  split
  · exact outOk_next_of (State.modPkg_memOk h _ _)
  · exact outOk_next_of h

@[simp] theorem execLaneRetire_ok (pkg link : Nat) : outOk (execLaneRetire pkg link s) := by
  unfold execLaneRetire
  dsimp only
  split
  · exact outOk_next_of (State.modPkg_memOk h _ _)
  · exact outOk_next_of h

@[simp] theorem execPathDown_ok (pkg pod path : Nat) : outOk (execPathDown pkg pod path s) := by
  unfold execPathDown
  split
  · exact outOk_next_of (State.loseUnreached_memOk (State.modPkg_memOk h _ _))
  · exact outOk_next_of h

@[simp] theorem execPathLive_ok (pkg pod path : Nat) : outOk (execPathLive pkg pod path s) := by
  unfold execPathLive
  split
  · exact outOk_next_of (State.modPkg_memOk h _ _)
  · exact outOk_next_of h

@[simp] theorem execThermalThrottle_ok (pkg steps : Nat) : outOk (execThermalThrottle pkg steps s) :=
  outOk_next_of (State.modPkg_memOk h _ _)

theorem State.debugWrite_memOk (what idx : Nat) (x : BitVec 512) : (s.debugWrite what idx x).memOk := by
  unfold State.debugWrite
  dsimp only
  split
  · exact State.setG_memOk h _ _
  · exact State.setV_memOk h _ _
  · exact State.setM_memOk h _ _
  · exact State.on_memOk h _
  · split
    · exact State.localWriteBytes_memOk h _ _
    · exact h
  · split
    · exact State.offWriteBytes_memOk h _ _ _ _
    · exact h
  · exact State.setPc_memOk h _
  · exact State.on_memOk h _
  · exact h

@[simp] theorem execHaltDebugAccess_ok (c what idx : Nat) (wr : Bool) (x : BitVec 512) :
    outOk (execHaltDebugAccess c what idx wr x s) := by
  unfold execHaltDebugAccess
  dsimp only
  split
  · exact outOk_next_of h
  · split
    · refine outOk_next_of ?_
      split
      · exact State.at_memOk h _ (fun u hu => State.debugWrite_memOk hu _ _ _)
      · exact h
    · exact outOk_next_of (State.modPkg_memOk h _ _)

/-! ### The dispatcher -/

/-- Every instruction keeps the canonical form of memory: its own lemma, by its constructor. -/
theorem exec_ok (i : Instr) : outOk (exec i s) := by
  cases i <;> simp [exec, h]

/-! ### A core's step -/

theorem State.settleWait_memOk (old : LAddr) : (State.settleWait old s).memOk := by
  unfold State.settleWait
  split
  · exact h
  · exact State.resumed_memOk h

theorem State.runWord_ok (w : BitVec 32) : outOk (s.runWord w) := by
  unfold State.runWord
  split
  · exact outOk_next_of (State.trap_memOk h _)
  · exact outOk_andThen (exec_ok h _) fun u hu => State.settleWait_memOk hu _

theorem State.tellMembers_memOk (g : GangStep) : (s.tellMembers g).memOk :=
  foldl_memOk (fun _ _ hu => State.modCore_memOk hu _ _) _ h

theorem State.markBegun_memOk (pc : LAddr) : (State.markBegun pc s).memOk := State.on_memOk h _

theorem State.pushStep_memOk (old : State) (w : BitVec 32) : (old.pushStep w s).memOk := by
  unfold State.pushStep
  split
  · exact h
  · split
    · exact State.markBegun_memOk h _
    · split
      · exact State.tellMembers_memOk h _
      · exact State.markBegun_memOk (State.tellMembers_memOk h _) _

theorem State.popStep_memOk : s.popStep.memOk := State.on_memOk h _

theorem State.afterWord_memOk (pc nextPc : LAddr) : (State.afterWord pc nextPc s).memOk := by
  unfold State.afterWord
  split
  · exact h
  · split
    · exact State.markBegun_memOk h _
    · split
      · exact State.leaveGang_memOk (State.popStep_memOk h)
      · exact State.popStep_memOk h

theorem State.followWord_ok (w : BitVec 32) (npc : LAddr) (size : Nat) : outOk (s.followWord w npc size) := by
  unfold State.followWord
  split
  · exact outOk_next_of (State.afterWord_memOk h _ _)
  · have ht := State.on_memOk h fun c => { c with gang := { c.gang with size := size } }
    dsimp only
    split
    · exact outOk_next_of (State.trap_memOk ht _)
    · exact outOk_andThen (State.runWord_ok ht w) fun u hu => State.afterWord_memOk hu _ _

theorem State.followStep_ok : outOk s.followStep := by
  unfold State.followStep
  dsimp only
  split
  · exact outOk_next_of h
  · exact outOk_next_of (State.on_memOk h _)
  · exact outOk_next_of (State.adv_memOk (State.on_memOk h _))
  · exact State.followWord_ok h _ _ _
  · split
    · exact outOk_next_of (State.trap_memOk h _)
    · refine outOk_andThen (State.followFrame_ok h _ _ _ _ _ _) fun u hu => ?_
      split
      · exact hu
      · exact State.popStep_memOk hu

theorem State.atBoundary_ok {o : Out} (e : s.atBoundary = some o) : outOk o := by
  unfold State.atBoundary at e
  dsimp only at e
  split at e
  · cases e; exact execLateFaultTaken_ok h _
  · split at e
    · cases e; exact execReleaseCauseTaken_ok h _
    · split at e
      · cases e; exact execPreempt_ok h _
      · cases e

theorem State.pastYield_memOk : s.pastYield.memOk := by
  unfold State.pastYield
  split
  · exact State.on_memOk h _
  · exact h

theorem State.fetchStep_ok : outOk s.fetchStep := by
  unfold State.fetchStep
  split
  · exact outOk_next_of (State.trap_memOk h _)
  · have ht := State.fetchWord_memOk h s.pc.toNat
    exact outOk_andThen (State.runWord_ok ht _) fun u hu => State.pushStep_memOk hu _ _

theorem State.instrStep_ok : outOk s.instrStep := by
  unfold State.instrStep
  split
  · exact State.followStep_ok h
  · split
    · exact outOk_next_of h
    · exact State.fetchStep_ok h

theorem State.boundaryStep_ok : outOk s.boundaryStep := by
  unfold State.boundaryStep
  split
  · exact outOk_next_of (State.stopThread_memOk h _)
  · split
    · exact outOk_next_of h
    · split
      · rename_i o e; exact State.atBoundary_ok h e
      · exact State.instrStep_ok (State.pastYield_memOk h)

theorem State.coreStep_ok : outOk s.coreStep := by
  have ht : (if s.core.team.committed.isEmpty then s else s.drainAll).memOk := by
    split
    · exact h
    · exact State.drainAll_memOk h
  unfold State.coreStep
  dsimp only
  generalize (if s.core.team.committed.isEmpty then s else s.drainAll) = t at ht ⊢
  split
  · exact outOk_next_of ht
  · split
    · exact execFrameReplay_ok ht
    · split
      · exact execLoadDataReturn_ok ht _
      · exact State.boundaryStep_ok ht

/-! ### What goes on besides the core in focus -/

omit h in
theorem opEvents_ok (k : Nat) (o : Op) : eventsOk (opEvents k o) := by
  unfold opEvents
  dsimp only
  split
  · exact eventsOk_cons (fun _ h => execCopyStart_ok h _ _) (eventsOk_cons (fun _ h => execCopyComplete_ok h _ _)
      (eventsOk_one fun _ h => execCopyFault_ok h _ _))
  · exact eventsOk_one fun _ h => execStationRangeRequest_ok h _
  · exact eventsOk_one fun _ h => execGuardOperationStart_ok h _ _
  · exact eventsOk_cons (fun _ h => execTileStepComplete_ok h _ _)
      (eventsOk_one fun _ h => execStreamedStepReplay_ok h _)
  · exact eventsOk_cons (fun _ h => execEventOperationPerform_ok h _)
      (eventsOk_one fun _ h => execEvdrainComplete_ok h _)
  · exact eventsOk_one fun _ h => execMatrixOperationPerform_ok h _
  · exact eventsOk_one fun _ h => execMatrixOperationPerform_ok h _
  · exact eventsOk_one fun _ h => execMatrixOperationPerform_ok h _
  · exact eventsOk_one fun _ h => execMatrixOperationPerform_ok h _
  · exact eventsOk_one fun _ h => execMatrixOperationPerform_ok h _
  · exact eventsOk_one fun _ h => execEventOperationPerform_ok h _

omit h in
theorem phaseEvents_ok (c : Nat) (p : Phase) : eventsOk (phaseEvents c p) :=
  eventsOk_append (eventsOk_append (eventsOk_one fun _ h => execExchangeBeatSend_ok h _)
    (eventsOk_flatMap (fun _ => eventsOk_map (fun _ _ h => execExchangeBeatReceive_ok h _ _ _) _) _))
    (eventsOk_one fun _ h => execPhaseClose_ok h _)

omit h in
theorem Core.timedEvents_ok (k : Nat) (c : Core) : eventsOk (c.timedEvents k) := by
  unfold Core.timedEvents
  refine eventsOk_append (eventsOk_append ?_ (eventsOk_map (fun _ _ h => execBarrierRelease_ok h _ _) _)) ?_
  · split
    · exact phaseEvents_ok _ _
    · exact eventsOk_nil
  · split
    · exact eventsOk_one fun _ h => execRxWatchdog_ok h _
    · exact eventsOk_nil

omit h in
theorem Core.events_ok (k : Nat) (c : Core) : eventsOk (c.events k) := by
  unfold Core.events
  refine eventsOk_append (eventsOk_append (eventsOk_append
    (eventsOk_append (eventsOk_append (eventsOk_append ?_ ?_) ?_) ?_)
    (eventsOk_flatMap (opEvents_ok k) _)) ?_) ?_
  · exact eventsOk_ite (eventsOk_one fun _ h => execStationLookup_ok h _) eventsOk_nil
  · split
    · exact eventsOk_ite eventsOk_nil (eventsOk_one fun _ h => execHostReadCompletion_ok h _ _)
    · exact eventsOk_nil
  · exact eventsOk_ite eventsOk_nil (eventsOk_one fun _ h => execMessageEntersChannel_ok h _)
  · exact eventsOk_ite (eventsOk_one fun _ h => execRollback_ok h _) eventsOk_nil
  · exact eventsOk_ite eventsOk_nil (eventsOk_one fun _ h => execLoaderCallStart_ok h _)
  · split
    · exact eventsOk_one fun _ h => execWaittExpiry_ok h _
    · exact eventsOk_nil

omit h in
theorem guardEvents_ok (i : Nat) : eventsOk (guardEvents i) :=
  eventsOk_cons (fun _ h => execCuratorRequest_ok h _) (eventsOk_cons (fun _ h => execSupplierForward_ok h _)
    (eventsOk_cons (fun _ h => execGrantArrival_ok h _) (eventsOk_cons (fun _ h => execCuratorRelease_ok h _)
      (eventsOk_one fun _ h => execWriteBack_ok h _))))

omit h in
theorem RangeOp.events_ok (r : RangeOp) : eventsOk r.events :=
  eventsOk_append (eventsOk_append (eventsOk_map (fun _ _ h => execRangeNotice_ok h _ _ _) _)
    (eventsOk_map (fun _ _ h => execHolderAcknowledge_ok h _) _))
    (eventsOk_cons (fun _ h => execCoordinatorApply_ok h _ _) (eventsOk_cons (fun _ h => execConservatorCopy_ok h _ _)
      (eventsOk_one fun _ h => execRetarget_ok h _ _)))

omit h in
theorem CmdSlot.events_ok (pkg slot : Nat) (c : CmdSlot) : eventsOk (c.events pkg slot) := by
  unfold CmdSlot.events
  refine eventsOk_ite eventsOk_nil ?_
  split
  · exact eventsOk_one fun _ h => execQdestroy_ok h _ _
  · exact eventsOk_one fun _ h => execCset_ok h _ _
  · exact eventsOk_one fun _ h => execCancel_ok h _ _
  · exact eventsOk_one fun _ h => execSummary_ok h _ _
  · exact eventsOk_one fun _ h => execTstep_ok h _ _
  · exact eventsOk_one fun _ h => execHwin_ok h _ _
  · exact eventsOk_one fun _ h => execMwin_ok h _ _
  · exact eventsOk_one fun _ h => execSoep_ok h _ _
  · exact eventsOk_one fun _ h => execSetstate_ok h _ _
  · exact eventsOk_one fun _ h => execQcreate_ok h _ _

omit h in
theorem Launch.events_ok (pkg : Nat) (l : Launch) : eventsOk (l.events pkg) :=
  eventsOk_append (eventsOk_map (fun _ _ h => execLaunchStart_ok h _ _ _) _)
    (eventsOk_cons (fun _ h => execLaunchEnd_ok h _ _) (eventsOk_cons (fun _ h => execContextSave_ok h _ _)
      (eventsOk_cons (fun _ h => execResume_ok h _ _) (eventsOk_one fun _ h => execPreemptRequest_ok h _ _))))

omit h in
theorem Package.events_ok (pkg : Nat) (p : Package) : eventsOk (p.events pkg) :=
  eventsOk_append (eventsOk_append (eventsOk_flatMap (fun _ => CmdSlot.events_ok _ _ _) _)
    (eventsOk_flatMap (Launch.events_ok pkg) _)) (eventsOk_map (fun _ _ h => execLaunchAdmission_ok h _ _) _)

omit h in
theorem State.timedEvents_ok (s : State) : eventsOk s.timedEvents :=
  eventsOk_append (eventsOk_flatMap (fun _ => Core.timedEvents_ok _ _) _)
    (eventsOk_map (fun _ _ h => execTriggerFire_ok h _) _)

omit h in
theorem State.candidates_ok (s : State) : eventsOk s.candidates := by
  unfold State.candidates
  repeat' with_reducible apply eventsOk_append
  · exact State.timedEvents_ok s
  · exact eventsOk_flatMap (fun _ => Core.events_ok _ _) _
  · exact eventsOk_flatMap (fun _ => Core.events_ok _ _) _
  · exact eventsOk_map (fun _ _ h => execTileStepStart_ok h _) _
  · exact eventsOk_map (fun _ _ h => execFollowRequestTaken_ok h _ _) _
  · exact eventsOk_map (fun _ _ h => execMessageArrival_ok h _) _
  · exact eventsOk_map (f := fun p : Post => execMailboxPost p.target)
      (fun p _ h => execMailboxPost_ok h p.target) _
  · exact eventsOk_flatMap guardEvents_ok _
  · exact eventsOk_flatMap RangeOp.events_ok _
  · exact eventsOk_map (fun _ _ h => execWriteAcknowledgement_ok h _) _
  · exact eventsOk_map (fun _ _ h => execOrderedStoreRelease_ok h _) _
  · exact eventsOk_map (fun _ _ h => execOrderedStoreTimeout_ok h _) _
  · exact eventsOk_map (fun _ _ h => execHostOrderedWriteRelease_ok h _) _
  · exact eventsOk_map (fun _ _ h => execEventArrival_ok h _) _
  · exact eventsOk_map (fun _ _ h => execEventDelivery_ok h _) _
  · exact eventsOk_flatMap (fun _ => Package.events_ok _ _) _

theorem State.changedBy_memOk {t : State} {f : State → Out} (hf : keepsMem f) (e : s.changedBy f = some t) :
    t.memOk := by
  have ho := hf s h
  unfold State.changedBy at e
  split at e
  · rename_i u hu
    split at e
    · cases e
    · cases e; exact ho _ hu
  · cases e

theorem State.firstEvent_memOk {l : List (State → Out)} (hl : eventsOk l) : (s.firstEvent l).memOk := by
  refine getD_memOk (fun t e => ?_) h
  obtain ⟨f, hf, ef⟩ := List.exists_of_findSome?_eq_some e
  exact State.changedBy_memOk h (hl f hf) ef

theorem State.progress_memOk : s.progress.memOk := State.firstEvent_memOk h (State.candidates_ok s)

theorem State.passTime_memOk (clk ns : Nat) : (s.passTime clk ns).memOk := by
  unfold State.passTime
  dsimp only
  split
  · exact h
  · exact State.wrapClocks_memOk (State.memOk_mk.mpr h) _

theorem State.tickClock_memOk : s.tickClock.memOk := State.passTime_memOk h _ _

theorem State.rotate_memOk : s.rotate.memOk := State.focus_memOk h _

theorem State.goOn_memOk : s.goOn.memOk := State.rotate_memOk (State.tickClock_memOk (State.progress_memOk h))

theorem State.failure_memOk (pkg : Nat) (r : Resource) : (s.failure pkg r).memOk :=
  State.modPkg_memOk (foldl_memOk (fun _ _ hu => State.drainEvents_memOk (State.modEngine_memOk hu _ _) _) _
    (foldl_memOk (fun _ _ hu => State.modCore_memOk hu _ _) _ h)) _ _

theorem State.upset_memOk (u : Upset) : (s.upset u).memOk := by
  unfold State.upset
  dsimp only
  split
  · exact h
  · split
    · exact State.modCore_memOk h _ _
    · exact h
  · split
    · exact State.modCore_memOk h _ _
    · exact h
  · split
    · exact State.modCore_memOk h _ _
    · exact h
  · split
    · exact State.modCore_memOk h _ _
    · exact h
  · split
    · exact State.modCore_memOk h _ _
    · exact h
  · split
    · exact State.modCore_memOk h _ _
    · exact h
  · split
    · exact State.modCore_memOk h _ _
    · exact h
  · split
    · exact State.drainEvents_memOk (State.modEngine_memOk h _ _) _
    · exact h
  · split
    · exact State.modCore_memOk h _ _
    · exact h
  · split
    · exact State.modPkg_memOk h _ _
    · exact h
  · split
    · exact State.modCore_memOk h _ _
    · exact h
  · split
    · exact State.modCore_memOk h _ _
    · exact h
  · exact State.failure_memOk h _ _

theorem State.turn_ok (t : Turn) (r : List Turn) : outOk (s.turn t r) := by
  have hu : State.memOk { s with sched := r } := State.memOk_mk.mpr h
  unfold State.turn
  dsimp only
  split
  · split
    · exact State.coreStep_ok (State.focus_memOk hu _)
    · intro _ e; cases e
  · exact exec_ok hu _
  · exact outOk_next_of (State.passTime_memOk hu _ _)
  · exact outOk_next_of (State.upset_memOk hu _)

/-! ### The step -/

theorem step_ok : outOk (step s) := by
  unfold step
  split
  · exact outOk_andThen (State.coreStep_ok h) fun u hu => State.goOn_memOk hu
  · exact State.turn_ok h _ _

end

/-- Settles O58: what a step gives next is in the form, since every function that a step is made of keeps it. -/
theorem memoryFormKept : Obligations.MemoryFormKept := fun _ _ h e => step_ok h _ e

end Sys2Proof.Machine
end

section

/-! ## Registers -/

namespace Sys2Proof.Machine

theorem Core.g_of_ne (c : Core) {r : BitVec 5} (h : r ≠ 0) : c.g r = c.regs.g[r.toNat] := if_neg h

theorem Core.m_of_ne (c : Core) {r : BitVec 3} (h : r ≠ 0) : c.m r = c.regs.m[r.toNat] := if_neg h

theorem Core.setG_g (c : Core) {d : BitVec 5} (h : d ≠ 0) (x : Word) :
    (c.setG d x).regs.g = c.regs.g.set d.toNat x := by
  rw [Core.setG, if_neg h]

theorem Core.setM_m (c : Core) {d : BitVec 3} (h : d ≠ 0) (x : Word) :
    (c.setM d x).regs.m = c.regs.m.set d.toNat x := by
  rw [Core.setM, if_neg h]

theorem Core.g_setG (c : Core) (d r : BitVec 5) (x : Word) :
    (c.setG d x).g r = if r = d ∧ d ≠ 0 then x else c.g r := by
  by_cases hd : d = 0
  · rw [Core.setG, if_pos hd, if_neg fun h => h.2 hd]
  · by_cases hr : r = 0
    · rw [if_neg fun h : r = d ∧ d ≠ 0 => hd (h.1 ▸ hr), hr]; rfl
    · simp only [Core.g_of_ne _ hr, Core.setG_g _ hd, Vector.getElem_set, BitVec.toNat_inj, eq_comm (a := d) (b := r), hd,
        ne_eq, not_false_eq_true, and_true]

theorem Core.m_setM (c : Core) (d r : BitVec 3) (x : Word) :
    (c.setM d x).m r = if r = d ∧ d ≠ 0 then x else c.m r := by
  by_cases hd : d = 0
  · rw [Core.setM, if_pos hd, if_neg fun h => h.2 hd]
  · by_cases hr : r = 0
    · rw [if_neg fun h : r = d ∧ d ≠ 0 => hd (h.1 ▸ hr), hr]; rfl
    · simp only [Core.m_of_ne _ hr, Core.setM_m _ hd, Vector.getElem_set, BitVec.toNat_inj, eq_comm (a := d) (b := r), hd,
        ne_eq, not_false_eq_true, and_true]

theorem Core.v_setV (c : Core) (d r : BitVec 5) (x : VReg) : (c.setV d x).v r = if r = d then x else c.v r := by
  simp only [Core.v, Core.setV, Vector.get_eq_getElem, Vector.getElem_set, BitVec.toNat_inj, BitVec.val_toFin,
    eq_comm (a := d) (b := r)]

/-- Settles O1: what a read gives after a write, file by file. -/
theorem registersOfR9 : Obligations.RegistersOfR9 := fun s =>
  ⟨rfl, rfl, s.core.g_setG, s.core.v_setV, s.core.m_setM, fun _ => rfl, fun _ => rfl⟩

end Sys2Proof.Machine
end

section

/-! ## The state after reset (R421) -/

namespace Sys2Proof.Machine

theorem USpan.covers_iff (u : USpan) (k : Nat) : u.covers k = true ↔ u.lo ≤ k ∧ k < u.lo + u.len := by
  simp only [USpan.covers, Bool.and_eq_true, decide_eq_true_eq]

theorem Memory.byte_of_span {m : Memory} {k : Nat} {u : USpan} (h : m.undef.find? (·.covers k) = some u) :
    m.byte k = u.byte k := by
  unfold Memory.byte; rw [h]

theorem Memory.byte_of_no_span {m : Memory} {k : Nat} (h : m.undef.find? (·.covers k) = none) :
    m.byte k = cellsRead m.cells k := by
  unfold Memory.byte; rw [h]

/-- A key that no span of the memory after reset covers reads as an unlisted one. -/
theorem Memory.reset_byte_unlisted {k : Nat} (h1 : 2 * 2 ^ 90 + 2 ^ 75 ≤ k) (h2 : k < 2 ^ 200) :
    Memory.reset.byte k = 0 := by
  refine Memory.byte_of_no_span (List.find?_eq_none.mpr ?_)
  simp only [Memory.reset, List.mem_cons, List.not_mem_nil, or_false, forall_eq_or_imp, forall_eq, USpan.covers_iff]
  omega

theorem Memory.reset_byte_local {k : Nat} (h : k < 2 ^ 44) : Memory.reset.byte k = bayByte k :=
  Memory.byte_of_span (u := { lo := 0, len := 2 ^ 44, id := bootSpan })
    (List.find?_cons_of_pos ((USpan.covers_iff _ k).mpr (by dsimp only; omega)))

/-- Off-core memory is undefined. -/
theorem Memory.reset_byte_off {place dpa : Nat} (hp : place < 3) (hd : dpa < 2 ^ 52) :
    Memory.reset.byte (keyOff place dpa) = Config.freeByte resetSpan (keyOff place dpa) := by
  have hk : 2 ^ 90 ≤ keyOff place dpa ∧ keyOff place dpa < 2 ^ 90 + 3 * 2 ^ 52 := by unfold keyOff; omega
  generalize keyOff place dpa = k at hk ⊢
  exact Memory.byte_of_span (u := { lo := 2 ^ 90, len := 3 * 2 ^ 52, id := resetSpan })
    ((List.find?_cons_of_neg (by rw [USpan.covers_iff]; dsimp only; omega)).trans
      (List.find?_cons_of_pos ((USpan.covers_iff _ k).mpr (by dsimp only; omega))))

theorem residentImage_length : residentImage.length < 0x4000 := by decide +kernel

/-- The byte of a bay of a core's store is that of the resident handler. -/
theorem bayByte_bay {c k : Nat} (h : k < residentImage.length) :
    bayByte (keyLocal c (bayBase + k)) = residentImage.getD k 0 := by
  have hl := residentImage_length
  have hm : keyLocal c (bayBase + k) % 2 ^ 21 = bayBase + k := by unfold keyLocal bayBase; omega
  rw [bayByte, hm, if_pos (by omega), Nat.add_sub_cancel_left]

theorem State.reset_getCore (c : Nat) : State.reset.getCore c = Core.idle (BitVec.ofNat 23 c) := by
  unfold State.getCore
  split
  · rename_i h; rw [← h]; rfl
  · rfl

theorem Core.idle_entry (a : CoreAddr) (q : BitVec 16) : (Core.idle a).entry q = RingEntry.reset := by
  simp only [Core.entry, Core.idle, Vector.getElem_replicate]

/-- Settles O54: the fields of the reset values as they stand, and memory by the spans that cover it. -/
theorem resetValues : Obligations.ResetValues := by
  refine ⟨fun c => ?run, rfl, fun e off he => ⟨fun h => ?bank, fun h => ?leak, fun h => ?pop, fun h => ?book⟩,
    fun place dpa hp hd => ⟨resetSpan, by decide, Memory.reset_byte_off hp hd⟩, fun c k hc hk => ?bay, rfl, rfl, rfl, rfl,
    rfl, rfl, rfl, rfl, rfl, rfl, rfl, fun q => ?ring, rfl, rfl, rfl, rfl, rfl, rfl, rfl, rfl, rfl, rfl,
    fun e => ⟨rfl, rfl⟩, fun p => ⟨rfl, rfl, rfl, rfl, rfl, rfl⟩⟩
  case run => rw [State.reset_getCore]; rfl
  case bank => exact Memory.reset_byte_unlisted (by unfold keyBank; omega) (by unfold keyBank; omega)
  case leak => exact Memory.reset_byte_unlisted (by unfold keyLeak; omega) (by unfold keyLeak; omega)
  case pop => exact Memory.reset_byte_unlisted (by unfold keyPop; omega) (by unfold keyPop; omega)
  case book => exact Memory.reset_byte_unlisted (by unfold keyBook; omega) (by unfold keyBook; omega)
  case bay =>
    have hl := residentImage_length
    exact (Memory.reset_byte_local (by unfold keyLocal bayBase; omega)).trans (bayByte_bay hk)
  case ring => exact congrArg RingEntry.state (Core.idle_entry 0 q)

end Sys2Proof.Machine
end

section

/-! ## A step of a core that is ready to fetch (R26, R65, R360) -/

namespace Sys2Proof.Machine

open Sys2Proof.Claims

theorem Core.localKey_add (c : Core) (a k : Nat) : c.localKey (a + k) = c.localKey a + k := by
  unfold Core.localKey keyImage keyLocal
  split <;> omega

theorem Memory.read_succ (m : Memory) (k n : Nat) : m.read k (n + 1) = (m.byte k).toNat + 256 * m.read (k + 1) n := rfl

/-- A read of memory is the sum of its bytes by their places. -/
theorem Memory.read_eq_sum (m : Memory) (k n : Nat) :
    m.read k n = ((List.range n).map fun i => (m.byte (k + i)).toNat * 2 ^ (8 * i)).sum := by
  induction n generalizing k with
  | zero => rfl
  | succ n ih =>
    have hs : ∀ i, (m.byte (k + (i + 1))).toNat * 2 ^ (8 * (i + 1)) =
        256 * ((m.byte (k + 1 + i)).toNat * 2 ^ (8 * i)) := fun i => by
      rw [show k + (i + 1) = k + 1 + i by omega, show 8 * (i + 1) = 8 + 8 * i by omega, pow_add]; ring
    rw [Memory.read_succ, ih, List.range_succ_eq_map, List.map_cons, List.map_map, List.sum_cons, ← List.sum_map_mul_left]
    simp only [Function.comp_def, Nat.succ_eq_add_one, hs, Nat.add_zero, Nat.mul_zero, pow_zero, mul_one]

/-- `LocalRead` of the model is that of R33. -/
theorem State.localRead_eq_readAt (s : State) (a n : Nat) : s.localRead a n = Claims.readAt s a n := by
  simp only [State.localRead, Memory.read_eq_sum, Claims.readAt, byteAt, Core.localKey_add]

theorem State.pastYield_eq (s : State) : s.pastYield = { s with core := { s.core with yielded := false } } := by
  unfold State.pastYield
  split
  · rfl
  · rename_i h
    rw [← Bool.eq_false_iff.mpr h]

theorem State.fetchWord_eq {s t : State} {a : Nat} {w : BitVec 32} (e : s.fetchWord a = (w, t)) :
    t = { s with tick := t.tick, core := { s.core with fbuf := t.core.fbuf } } := by
  obtain rfl : (s.fetchWord a).2 = t := congrArg Prod.snd e
  unfold State.fetchWord
  dsimp only
  split
  · rfl
  · split
    · rfl
    · split
      · rfl
      · split
        · rfl
        · rfl

/-- A word fetched with no fetch buffer is the one in the store. -/
theorem State.fetchWord_of_empty {s : State} {a : Nat} (h : s.core.fbuf = none) :
    s.fetchWord a = (BitVec.ofNat 32 (s.localRead a 4), s.fillFetch a) := by
  unfold State.fetchWord
  rw [h]

theorem State.instrStep_of_not_follower {s : State} (h : ∀ l k, s.core.gang.role ≠ .follower l k)
    (hl : s.membersLag = false) : s.instrStep = s.fetchStep := by
  unfold State.instrStep
  split
  · rename_i l k e; exact absurd e (h l k)
  · rw [hl]; rfl

theorem State.coreStep_of_fetches {s : State} (h : fetches s) : s.coreStep = s.pastYield.fetchStep := by
  obtain ⟨hrun, hframe, houtst, hstop, hback, hcommit, hbound, hrole, hlag⟩ := h
  have hr : ∀ l k, s.pastYield.core.gang.role ≠ .follower l k := by rw [State.pastYield_eq]; exact hrole
  have hb : s.boundaryStep = s.pastYield.fetchStep := by
    unfold State.boundaryStep
    rw [hstop, hback, hbound, ← State.instrStep_of_not_follower hr hlag]
    rfl
  unfold State.coreStep
  simp only [hcommit, List.isEmpty_nil, if_true, hrun, ne_eq, not_true_eq_false, if_false, hframe, houtst,
    Option.isSome_none, Bool.false_eq_true, hb]

theorem State.fetchStep_of_none {s t : State} {w : BitVec 32} (hc : s.fetchCheck s.pc.toNat = none)
    (e : s.fetchWord s.pc.toNat = (w, t)) : s.fetchStep = andThen (t.runWord w) (State.pushStep t w) := by
  unfold State.fetchStep
  rw [hc, e]

theorem State.fetchStep_of_some {s : State} {f : Trap} (hc : s.fetchCheck s.pc.toNat = some f) :
    s.fetchStep = .next (s.trap f) := by
  unfold State.fetchStep
  rw [hc]

/-- A core that is alone tells no member. -/
theorem State.pushStep_alone {old : State} (h : old.core.gang.role = .alone) (w : BitVec 32) (t : State) :
    old.pushStep w t = t := by
  unfold State.pushStep
  rw [if_pos (Or.inl (by simp only [Core.members, h, List.isEmpty_nil]))]

theorem State.runWord_of_none {s : State} {w : BitVec 32} (h : s.decodeHere w = none) :
    s.runWord w = .next (s.trap (Cause.illegal, w.toNat)) := by
  unfold State.runWord
  rw [h]

theorem State.runWord_of_some {s : State} {w : BitVec 32} {i : Instr} (h : s.decodeHere w = some i) :
    s.runWord w = andThen (exec i s) (State.settleWait s.pc) := by
  unfold State.runWord
  rw [h]

theorem State.settleWait_eq (p : LAddr) (u : State) :
    State.settleWait p u = if u.pc = p then u else { u with core := { u.core with wait := .no } } := rfl

/-! ### Time -/

theorem upTo_le (now n : Nat) (l : List Nat) : upTo now n l ≤ n := by
  unfold upTo
  generalize l.filter (now < ·) = r
  induction r generalizing n with
  | nil => exact le_rfl
  | cons d r ih => exact (ih (min n (d - now))).trans (min_le_left _ _)

/-- A fold of steps that change the packages alone changes them alone. -/
theorem foldl_pkgs {α : Type} {g : State → α → State} (hg : ∀ t x, g t x = { t with pkgs := (g t x).pkgs }) (l : List α)
    (s : State) : l.foldl g s = { s with pkgs := (l.foldl g s).pkgs } := by
  induction l generalizing s with
  | nil => rfl
  | cons x l ih => rw [List.foldl_cons, ih, hg]

theorem State.wrapClocks_eq (s old : State) : s.wrapClocks old = { s with pkgs := (s.wrapClocks old).pkgs } := by
  unfold State.wrapClocks
  refine foldl_pkgs (fun t k => ?_) _ s
  split <;> rfl

theorem State.passTime_spec (s : State) (c n : Nat) : s.clk ≤ (s.passTime c n).clk ∧ (s.passTime c n).clk ≤ s.clk + c ∧
    s.ns ≤ (s.passTime c n).ns ∧ (s.passTime c n).ns ≤ s.ns + n ∧ (s.passTime c n).core = s.core ∧
    (s.passTime c n).mem = s.mem := by
  unfold State.passTime
  split
  · exact ⟨le_rfl, Nat.le_add_right _ _, le_rfl, Nat.le_add_right _ _, rfl, rfl⟩
  · have hc := upTo_le s.clk c (s.timedCores.flatMap s.coreDeadlines)
    have hn := upTo_le 0 n s.triggerWaits
    dsimp only
    rw [State.wrapClocks_eq]
    exact ⟨Nat.le_add_right _ _, Nat.add_le_add_left hc _, Nat.le_add_right _ _, Nat.add_le_add_left hn _, rfl, rfl⟩

/-! ### The obligation -/

theorem step_of_empty {s : State} (h : s.sched = []) : step s = andThen s.coreStep State.goOn := by
  unfold step
  rw [h]

theorem step_of_turn {s : State} {x : Turn} {l : List Turn} (h : s.sched = x :: l) : step s = s.turn x l := by
  unfold step
  rw [h]

theorem State.turn_core {s : State} {c : Nat} (h : s.coreExists c = true) (l : List Turn) :
    s.turn (.core c) l = (State.focus { s with sched := l } c).coreStep := by
  unfold State.turn
  exact if_pos h

/-- Settles O55: a step of a core that fetches is the run of the word, taken apart by what the word decodes to; a step with
a schedule is the turn it names. -/
theorem stepRunsDecoded : Obligations.StepRunsDecoded := by
  refine ⟨fun s t w hf hc e => ?_, fun s hf _ f hc => ?_, fun s l => ⟨step_of_empty, fun c h he => ?_, fun i h => ?_,
    fun u h => ?_, fun c n h => ?_⟩⟩
  · have hpc : s.pastYield.pc = s.pc := by rw [State.pastYield_eq]; rfl
    have ht := State.fetchWord_eq e
    have htp : t.pc = s.pc := by rw [← hpc, ht]; rfl
    have hrole : t.core.gang.role = s.core.gang.role := by rw [ht, State.pastYield_eq]
    have hstep : s.coreStep = andThen (t.runWord w) (State.pushStep t w) :=
      (State.coreStep_of_fetches hf).trans (State.fetchStep_of_none (hpc ▸ hc) (hpc ▸ e))
    refine ⟨fun i hd => ⟨?_, fun ha u hu => ?_⟩, fun hd ha => ?_, ?_, fun hb => ?_⟩
    · rw [hstep, State.runWord_of_some hd, htp]
    · rw [hstep, State.runWord_of_some hd, hu, htp, ← State.settleWait_eq]
      exact congrArg Host.Outcome.next (State.pushStep_alone (hrole.trans ha) _ _)
    · rw [hstep, State.runWord_of_none hd]
      exact congrArg Host.Outcome.next (State.pushStep_alone (hrole.trans ha) _ _)
    · rw [State.pastYield_eq] at ht
      exact ht
    · have hb' : s.pastYield.core.fbuf = none := by rw [State.pastYield_eq]; exact hb
      have hw := congrArg Prod.fst ((State.fetchWord_of_empty hb').symm.trans e)
      rw [State.localRead_eq_readAt, State.pastYield_eq] at hw
      exact hw.symm
  · have hpc : s.pastYield.pc = s.pc := by rw [State.pastYield_eq]; rfl
    exact (State.coreStep_of_fetches hf).trans (State.fetchStep_of_some (hpc ▸ hc))
  · rw [step_of_turn h, State.turn_core he]
  · exact step_of_turn h
  · exact step_of_turn h
  · exact ⟨_, step_of_turn h, rfl, State.passTime_spec { s with sched := l } c n⟩

end Sys2Proof.Machine
end

section

/-! ## Traps and system instructions (R28, R111 to R114) -/

namespace Sys2Proof.Machine

open Sys2Proof.Claims

/-- ECAUSE with neither mark is the cause. -/
theorem ecause_plain (c : BitVec 8) : BitVec.ofBool false ++ BitVec.ofBool false ++ c = c.setWidth 10 := by
  show 0#2 ++ c = c.setWidth 10
  exact (BitVec.setWidth_eq_append (by decide)).symm

/-- Settles O8, by what taking a trap does. -/
theorem trapEntry : Obligations.TrapEntry := by
  intro s c n hc
  dsimp only
  rw [State.trap_eq (t := (c, n)) hc]
  obtain ⟨g, hmem, hcore⟩ := s.takeTrap_spec c n false false 0 s.pc
  refine ⟨fun h => ?entry, fun hp hi => ?double⟩
  case entry =>
    have hn : ¬ (s.core.ctl.status.priv = true ∧ s.core.ctl.status.ie = false ∧ false = false ∧ false = false) := by
      rintro ⟨hp, hi, -⟩
      rcases h with h | h
      · exact Bool.false_ne_true (h.symm.trans hp)
      · exact Bool.false_ne_true (hi.symm.trans h)
    rw [if_neg hn] at hcore
    rw [entered, hcore, hmem, ← ecause_plain]
    exact ⟨⟨rfl, rfl, rfl, rfl, rfl, rfl⟩, rfl⟩
  case double =>
    rw [if_pos ⟨hp, hi, rfl, rfl⟩] at hcore
    rw [hcore, hmem]
    exact ⟨rfl, rfl, rfl, rfl, rfl, rfl⟩

theorem State.privCheck_of_priv {s : State} (h : s.priv = true) : s.privCheck = none := if_pos h

theorem State.privCheck_of_user {s : State} (h : s.priv = false) : s.privCheck = some (Cause.privilege, 0) :=
  if_neg (Bool.eq_false_iff.mp h)

/-- A word without its `k` low bits. -/
theorem and_not_low {w : Nat} (a : BitVec w) (k : Nat) :
    a &&& ~~~(BitVec.ofNat w (2 ^ k - 1)) = BitVec.ofNat w (a.toNat / 2 ^ k * 2 ^ k) := by
  have hs : a &&& ~~~(BitVec.ofNat w (2 ^ k - 1)) = a >>> k <<< k := by
    apply BitVec.eq_of_getLsbD_eq
    intro i hi
    rw [BitVec.getLsbD_and, BitVec.getLsbD_not, BitVec.getLsbD_ofNat, Nat.testBit_two_pow_sub_one,
      BitVec.getLsbD_shiftLeft, BitVec.getLsbD_ushiftRight]
    by_cases h : i < k
    · simp [h]
    · simp [h, hi, show k + (i - k) = i by omega]
  rw [hs]
  apply BitVec.eq_of_toNat_eq
  rw [BitVec.toNat_shiftLeft, BitVec.toNat_ushiftRight, BitVec.toNat_ofNat, Nat.shiftLeft_eq, Nat.shiftRight_eq_div_pow]

/-- The pc without its two low bits, which are zero (R9). -/
theorem and_not_three (a : BitVec 21) : a &&& ~~~(3 : BitVec 21) = BitVec.ofNat 21 (a.toNat / 4 * 4) := and_not_low a 2

theorem softwareTraps : SoftwareTraps := by
  intro c s
  refine ⟨rfl, rfl, fun h => ?_, fun h => ⟨s.traceRec (s.getPkg (pkgOf s.core.addr.toNat)) c, rfl, rfl, rfl, ?_⟩,
    fun h => ?_⟩
  · show execBrk c s = _
    unfold execBrk; dsimp only; rw [h]
  · show execBrk c s = _
    unfold execBrk; dsimp only; rw [h]
  · obtain ⟨g, hg⟩ := s.leaveAndWithdraw_core
    refine ⟨s.leaveGang.withdrawFollow.on fun c => { c with run := .haltDebug, wait := .no }, ?_, rfl, ?_, ?_, ?_⟩
    · show execBrk c s = _
      unfold execBrk; dsimp only; rw [h]
    · rw [State.on_core, hg]
    · rw [State.on_core, hg]
    · simp

theorem trapReturn : TrapReturn := by
  intro s
  refine ⟨fun h => ⟨s.on Core.returnTrap, ?_, rfl, ?_, rfl, rfl⟩, fun h => ?_⟩
  · show execEret s = _
    rw [execEret, State.privCheck_of_priv h, State.checked_none]
  · rw [← and_not_three]
    rfl
  · show execEret s = _
    rw [execEret, State.privCheck_of_user h, State.checked_some]

/-! ### A core that halts -/

theorem Core.binding_none {c : Core} (h : c.binds = Vector.replicate 8 none) (num : Nat) : c.binding num = none := by
  unfold Core.binding
  rw [h, Vector.toList_replicate, List.getD_eq_getElem?_getD, List.getElem?_replicate]
  split <;> rfl

/-- With no binding there is none to end. -/
theorem State.endBindings_none {s : State} (h : s.core.binds = Vector.replicate 8 none)
    (f : State → Nat → Nat → Binding → State) : s.endBindings s.core.thread f = s := by
  unfold State.endBindings
  generalize List.range 8 = l
  induction l with
  | nil => rfl
  | cons num l ih =>
    rw [List.foldl_cons, State.getThread_self, Option.bind_some, Core.binding_none h]
    exact ih

/-- What an operation at the core in focus, which keeps its address, gives there. -/
theorem State.at_eq {s u : State} {c : Nat} {f : State → State} (hc : s.core.addr.toNat = c) (e : f s = u)
    (h : u.core.addr = s.core.addr) : s.at c f = u := by
  subst hc
  exact (State.at_self s (by rw [e, h])).trans e

theorem State.getCore_of_ne {s : State} {c : Nat} (h : s.core.addr.toNat ≠ c) :
    s.getCore c = agetD s.others c (Core.idle (BitVec.ofNat 23 c)) := if_neg h

theorem State.focus_of_ne {s : State} {c : Nat} (h : s.core.addr.toNat ≠ c) :
    s.focus c = { s with core := s.getCore c, others := aset (adel s.others c) s.core.addr.toNat s.core } := if_neg h

/-- A change of another core leaves the one in focus. -/
theorem State.at_on_core_of_ne {s : State} {c : Nat} {f : Core → Core} (h : s.core.addr.toNat ≠ c)
    (hf : (f (s.getCore c)).addr.toNat = c) : (s.at c (·.on f)).core = s.core := by
  have hn : ((s.focus c).on f).core.addr.toNat ≠ s.core.addr.toNat := by
    rw [State.on_core, State.focus_of_ne h, hf]; exact Ne.symm h
  unfold State.at
  rw [State.focus_of_ne hn, State.getCore_of_ne hn, State.on_others, State.focus_of_ne h]
  exact agetD_aset_self _ _ _ _

theorem State.focus_pkgs (s : State) (c : Nat) : (s.focus c).pkgs = s.pkgs := by unfold State.focus; split <;> rfl

/-- A change at the core of a thread is at the core in focus or leaves that one alone; no byte of memory and no package
changes. -/
theorem State.atThread_on (s : State) (k : Nat) {f : Core → Core} (hf : ∀ c, (f c).addr = c.addr) :
    ((s.atThread k (·.on f)).core = s.core ∨ (s.atThread k (·.on f)).core = f s.core) ∧
      (s.atThread k (·.on f)).mem = s.mem ∧ (s.atThread k (·.on f)).pkgs = s.pkgs := by
  unfold State.atThread
  split
  · rename_i h
    refine ⟨?_, by rw [State.at_mem, State.on_mem, State.focus_mem],
      by rw [State.at, State.focus_pkgs, State.on_pkgs, State.focus_pkgs]⟩
    by_cases hk : s.core.addr.toNat = threadCore k
    · rw [← hk, State.at_self s (hf _)]
      exact Or.inr rfl
    · exact Or.inl (State.at_on_core_of_ne hk (by rw [hf, ← threadCore_thread, h]))
  · split
    · exact ⟨Or.inl rfl, rfl, rfl⟩
    · exact ⟨Or.inl rfl, rfl, rfl⟩

/-- From `s` to `t` the messages of the core in focus may differ, and neither the rest of it, nor memory, nor a package. -/
def onlyMsgs (s t : State) : Prop := ∃ m, t.core = { s.core with msgs := m } ∧ t.mem = s.mem ∧ t.pkgs = s.pkgs

theorem onlyMsgs_trans {s t u : State} (h : onlyMsgs s t) (h' : onlyMsgs t u) : onlyMsgs s u := by
  obtain ⟨m, hc, hm, hp⟩ := h
  obtain ⟨m', hc', hm', hp'⟩ := h'
  exact ⟨m', hc'.trans (by rw [hc]), hm'.trans hm, hp'.trans hp⟩

theorem State.countLost_onlyMsgs (s : State) (src : Nat) : onlyMsgs s (s.countLost src) := by
  obtain ⟨h | h, hm, hp⟩ := s.atThread_on src
    (f := fun c => { c with msgs := { c.msgs with undeliv := satInc c.msgs.undeliv } }) fun _ => rfl
  · exact ⟨_, h, hm, hp⟩
  · exact ⟨_, h, hm, hp⟩

theorem State.loseMsgs_onlyMsgs (s : State) (l : List Msg) : onlyMsgs s (s.loseMsgs l) := by
  induction l generalizing s with
  | nil => exact ⟨_, rfl, rfl, rfl⟩
  | cons x l ih => exact onlyMsgs_trans (s.countLost_onlyMsgs x.src) (ih _)

theorem State.dropWaiting_onlyMsgs (s : State) : onlyMsgs s s.dropWaiting :=
  onlyMsgs_trans ⟨_, rfl, rfl, rfl⟩
    (State.loseMsgs_onlyMsgs (s.on fun c => { c with msgs := { c.msgs with iface := [], held := [] } }) _)

theorem State.squashUntriggered_none {s : State} (h : s.core.ops = []) : s.squashUntriggered = s := by
  unfold State.squashUntriggered
  rw [h]; rfl

/-- A core that is alone, with nothing pending and no binding, outside pre-emption and rollback, halts as it stands. -/
theorem State.haltNow_alone {s : State} (hg : s.core.gang.role = .alone) (ho : s.core.ops = [])
    (hp : s.core.anyPending = false) (hpre : s.core.preemptsHere = false) (hr : s.core.rollsBackHere = false)
    (hc : s.core.team.committed = []) (hb : s.core.binds = Vector.replicate 8 none) :
    s.haltNow = if s.debugHere = .halt then s.on (·.stop .haltDebug) else s.dropWaiting.on (·.stop .halted) := by
  obtain ⟨m, hm, -⟩ := s.dropWaiting_onlyMsgs
  have he : (s.dropWaiting.on (·.stop .halted)).core.binds = Vector.replicate 8 none := by
    rw [State.on_core, hm]; exact hb
  unfold State.haltNow State.haltThread
  simp only [State.leaveGang_alone hg, State.squashUntriggered_none ho, hp, hpre, hr, hc, List.isEmpty_nil, Bool.not_true,
    Bool.or_self, Bool.false_eq_true, if_false, State.endBindings_none he]

theorem halt : Halt := by
  intro s
  refine ⟨fun hs hg ho hp hb hpre hr hc => ⟨s.haltNow, ?_, ?_⟩, fun h => ?_⟩
  · show execHalt s = _
    rw [execHalt, State.privCheck_of_priv hs, State.checked_none]
  · rw [State.haltNow_alone hg ho hp hpre hr hc hb]
    show _ ∧ _ ∧ _ ∧ _ = if s.debugHere = .halt then _ else _
    split
    · exact ⟨rfl, rfl, rfl, rfl⟩
    · obtain ⟨m, hcore, hmem, -⟩ := s.dropWaiting_onlyMsgs
      rw [State.on_core, State.on_mem, hcore]
      exact ⟨rfl, rfl, hmem, rfl⟩
  · show execHalt s = _
    rw [execHalt, State.privCheck_of_user h, State.checked_some]

/-- Settles O9, instruction by instruction. -/
theorem systemInstructions : Obligations.SystemInstructions := ⟨softwareTraps, trapReturn, halt⟩

end Sys2Proof.Machine
end

section

/-! ## Pending events at a boundary (R29, R31, R360, R365, R366, R377) -/

namespace Sys2Proof.Machine

open Sys2Proof.Claims

theorem takesEvents_atBoundary {s : State} (h : takesEvents s) : s.core.atBoundary = true := by
  obtain ⟨hrun, hback, hwait, -, hie, hphase, hframe, houtst, hmiss⟩ := h
  simp [Core.atBoundary, hrun, hback, hwait, hie, hphase, hframe, houtst, hmiss]

theorem takesEvents_haltDrains {s : State} (h : takesEvents s) : s.core.haltDrains = false := by
  obtain ⟨-, -, -, hwait, -⟩ := h
  unfold Core.haltDrains
  split
  · rename_i halt e
    cases halt with
    | false => rfl
    | true => exact absurd e hwait
  · rfl

theorem takesEvents_ie {s : State} (h : takesEvents s) : s.core.ctl.status.ie = true := h.2.2.2.2.1

section Due

variable {s : State} (h : takesEvents s)
include h

theorem dueFault_of_takesEvents : s.core.dueFault = s.core.lateFaultEntry := by
  simp [Core.dueFault, takesEvents_atBoundary h, takesEvents_haltDrains h]

theorem dueCause_of_takesEvents (hf : s.core.lateFaultEntry = none) : s.core.dueCause = s.core.sync.relCause.head? := by
  simp [Core.dueCause, takesEvents_atBoundary h, takesEvents_haltDrains h, hf]

theorem duePreempt_of_takesEvents {defer : Bool} (hf : s.core.lateFaultEntry = none) (hc : s.core.sync.relCause = [])
    (hp : s.core.preempt = some defer) (hs : defer = true → s.core.safePoint = true) :
    s.core.duePreempt = some defer := by
  have hd : (!defer || s.core.safePoint) = true := by
    cases defer with
    | false => rfl
    | true => exact hs rfl
  simp [Core.duePreempt, takesEvents_atBoundary h, takesEvents_haltDrains h, hf, hc, hp, hd]

end Due

/-- With IE = 1 a trap takes the entry. -/
theorem State.takeTrap_ie {s : State} (hie : s.core.ctl.status.ie = true) (cause : BitVec 8) (info : Nat)
    (late intr : Bool) (seq : BitVec 16) (pc : LAddr) : ∃ g, (s.takeTrap cause info late intr seq pc).core =
      Core.enterTrap { s.core with gang := g } cause (BitVec.ofNat 64 info) late intr seq pc := by
  obtain ⟨g, -, hcore⟩ := s.takeTrap_spec cause info late intr seq pc
  rw [if_neg (by rw [hie]; exact fun e => Bool.false_ne_true e.2.1.symm)] at hcore
  exact ⟨g, hcore⟩

/-- A trap at the pc, from a state that has the control registers, registers and memory of `s`, enters from `s`. -/
theorem entered_takeTrap {s u : State} (hie : s.core.ctl.status.ie = true) (hctl : u.core.ctl = s.core.ctl)
    (hregs : u.core.regs = s.core.regs) (hmem : u.mem = s.mem) (hmtx : u.core.mtx = s.core.mtx)
    (hrun : u.core.run = s.core.run) (cause : BitVec 8) (info : Word) (late intr : Bool) (seq : BitVec 16) :
    entered s (u.takeTrap cause info.toNat late intr seq s.pc) (BitVec.ofBool intr ++ BitVec.ofBool late ++ cause) info
      seq := by
  obtain ⟨g, hg⟩ := State.takeTrap_ie (s := u) (hctl ▸ hie) cause info.toNat late intr seq s.pc
  rw [entered, hg, State.takeTrap_mem, BitVec.ofNat_toNat, BitVec.setWidth_eq]
  simp only [Core.enterTrap, hctl, hregs, hmem, hmtx, hrun, and_self]

/-- ECAUSE with the LATE mark. -/
theorem ecause_late (c : BitVec 8) : BitVec.ofBool false ++ BitVec.ofBool true ++ c = 0x100 ||| c.setWidth 10 := by
  rw [BitVec.append_def, BitVec.setWidth'_eq]
  rfl

theorem Core.entry_modEntry_self (c : Core) (q : BitVec 16) (f : RingEntry → RingEntry) :
    (c.modEntry q f).entry q = f (c.entry q) := Vector.getElem_set_self _

/-- Operations that are not squashable are not kept. -/
theorem State.keepOps_of_not_squashable {s : State} (h : ∀ o ∈ s.core.ops, o.squashable = false) : s.keepOps = s := by
  have hl : ∀ l : List Op, (∀ o ∈ l, o.squashable = false) → l.foldl State.keepOp s = s := by
    intro l hl
    induction l with
    | nil => rfl
    | cons o l ih =>
      have ho : s.keepOp o = s := if_pos (by rw [hl o List.mem_cons_self]; rfl)
      rw [List.foldl_cons, ho]
      exact ih fun x hx => hl x (List.mem_cons_of_mem _ hx)
  exact hl _ h

/-- Of the core's state, a matrix operation that leaves the ring changes the ring and the operations. -/
theorem Core.squash_eq (c : Core) (q : BitVec 16) :
    c.squash q = { c with ring := (c.squash q).ring, ops := c.ops.filter (·.seq != q) } := by
  unfold Core.squash Core.settle
  split <;> rfl

theorem Op.matrix_not_copy {o : Op} (h : o.body.isMatrix = true) (r : CopyOp) : o.body ≠ .copy r := fun e => by
  rw [e] at h; exact Bool.false_ne_true h

/-- A matrix operation that has not started is squashed and kept as it is. -/
theorem State.keepOp_matrix {s : State} {o : Op} (hm : o.body.isMatrix = true) (hn : o.started = false) :
    ∃ l, s.keepOp o = (s.on (·.squash o.seq)).on fun c => { c with kept := c.kept ++ [o], keptTrig := l } := by
  have hs : o.squashable = true := by
    unfold Op.squashable
    split
    · rename_i r e; exact absurd e (Op.matrix_not_copy hm r)
    · rw [hm, hn]; rfl
  have hk : o.asKept = o := by
    unfold Op.asKept
    split
    · rename_i r e; exact absurd e (Op.matrix_not_copy hm r)
    · rw [← hn]
  unfold State.keepOp
  rw [if_neg (by rw [hs]; exact Bool.false_ne_true), hk]
  split
  · rename_i r e; exact absurd e (Op.matrix_not_copy hm r)
  · exact ⟨_, rfl⟩

theorem State.takeTrap_addr (s : State) (cause : BitVec 8) (info : Nat) (late intr : Bool) (seq : BitVec 16)
    (resume : LAddr) : (s.takeTrap cause info late intr seq resume).core.addr = s.core.addr := by
  obtain ⟨g, -, hcore⟩ := s.takeTrap_spec cause info late intr seq resume
  rw [hcore]
  split <;> rfl

theorem execLateFaultTaken_due {s : State} {e : RingEntry} (h : s.core.dueFault = some e) :
    execLateFaultTaken s.core.addr.toNat s = .next (s.takeLateFault e) := by
  unfold execLateFaultTaken
  exact congrArg Host.Outcome.next (State.at_eq rfl (by rw [h]) (State.takeTrap_addr _ _ _ _ _ _ _))

theorem execReleaseCauseTaken_due {s : State} {cause : BitVec 8} {info : Word} (h : s.core.dueCause = some (cause, info)) :
    execReleaseCauseTaken s.core.addr.toNat s =
      .next ((s.on (·.modSync fun y => { y with relCause := y.relCause.drop 1 })).takeTrap cause info.toNat false false 0
        s.pc) := by
  unfold execReleaseCauseTaken
  exact congrArg Host.Outcome.next (State.at_eq rfl (by rw [h]) (State.takeTrap_addr _ _ _ _ _ _ _))

theorem execPreempt_due {s : State} {defer : Bool} (h : s.core.duePreempt = some defer)
    (ha : s.keepOps.core.addr = s.core.addr) :
    execPreempt s.core.addr.toNat s =
      .next ((s.keepOps.takeTrap Cause.preempt defer.toNat false true 0 s.pc).on fun k => { k with preempt := none }) := by
  unfold execPreempt
  exact congrArg Host.Outcome.next (State.at_eq rfl (by rw [h]) ((State.takeTrap_addr _ _ _ _ _ _ _).trans ha))

/-- The entry of a pre-emption (R365). -/
theorem entered_preempt {s u : State} (hie : s.core.ctl.status.ie = true) (hctl : u.core.ctl = s.core.ctl)
    (hregs : u.core.regs = s.core.regs) (hmem : u.mem = s.mem) (hmtx : u.core.mtx = s.core.mtx)
    (hrun : u.core.run = s.core.run) (defer : Bool) :
    entered s ((u.takeTrap Cause.preempt defer.toNat false true 0 s.pc).on fun k => { k with preempt := none }) 0x240
      (if defer then 1 else 0) 0 := by
  have hi : defer.toNat = (if defer then 1 else 0 : Word).toNat := by cases defer <;> rfl
  rw [hi]
  exact entered_takeTrap hie hctl hregs hmem hmtx hrun Cause.preempt _ false true 0

/-- Settles O30: which event is due, and the entry that taking it makes. -/
theorem pendingEvents : Obligations.PendingEvents := by
  intro s h
  have hie := takesEvents_ie h
  refine ⟨fun e he => ?late, fun hf => ⟨fun cause info rest hc => ?cause, fun defer hc hp hs =>
    ⟨fun ho => ?runsOn, fun o ho hm hn => ?squashed⟩⟩⟩
  case late =>
    refine ⟨_, execLateFaultTaken_due ((dueFault_of_takesEvents h).trans he), ?_, ?_⟩
    · rw [← ecause_late]
      exact entered_takeTrap (u := s.on (·.modEntry e.seq fun x => { x with untaken := false })) hie rfl rfl rfl rfl rfl
        e.cause e.einfo true false e.seq
    · obtain ⟨g, hg⟩ := State.takeTrap_ie (s := s.on (·.modEntry e.seq fun x => { x with untaken := false })) hie e.cause
        e.einfo.toNat true false e.seq s.pc
      rw [State.takeLateFault, hg]
      exact congrArg RingEntry.untaken (Core.entry_modEntry_self s.core e.seq fun x => { x with untaken := false })
  case cause =>
    refine ⟨_, execReleaseCauseTaken_due ((dueCause_of_takesEvents h hf).trans (by rw [hc]; rfl)), ?_, ?_⟩
    · rw [← ecause_plain]
      exact entered_takeTrap (u := s.on (·.modSync fun y => { y with relCause := y.relCause.drop 1 })) hie rfl rfl rfl rfl
        rfl cause info false false 0
    · obtain ⟨g, hg⟩ := State.takeTrap_ie (s := s.on (·.modSync fun y => { y with relCause := y.relCause.drop 1 })) hie
        cause info.toNat false false 0 s.pc
      rw [hg]
      exact ⟨congrArg (List.drop 1) hc, rfl⟩
  case runsOn =>
    have hk := State.keepOps_of_not_squashable ho
    obtain ⟨g, hg⟩ := State.takeTrap_ie hie Cause.preempt defer.toNat false true 0 s.pc
    refine ⟨_, execPreempt_due (duePreempt_of_takesEvents h hf hc hp hs) (by rw [hk]), ?_, rfl, ?_⟩
    · rw [hk]
      exact entered_preempt hie rfl rfl rfl rfl rfl defer
    · rw [hk, State.on_core, hg]
      rfl
  case squashed =>
    obtain ⟨l, hl⟩ := State.keepOp_matrix (s := s) hm hn
    have hk : s.keepOps = _ := (congrArg (List.foldl State.keepOp s) ho).trans hl
    have hkc := (congrArg State.core hk).trans (congrArg (fun c : Core => { c with kept := c.kept ++ [o], keptTrig := l })
      (Core.squash_eq s.core o.seq))
    have hkm : s.keepOps.mem = s.mem := by rw [hk]; rfl
    obtain ⟨g, hg⟩ := State.takeTrap_ie (s := s.keepOps) (by rw [hkc]; exact hie) Cause.preempt defer.toNat false true 0 s.pc
    refine ⟨_, execPreempt_due (duePreempt_of_takesEvents h hf hc hp hs) (by rw [hkc]), ?_, ?_, ?_⟩
    · exact entered_preempt hie (by rw [hkc]) (by rw [hkc]) hkm (by rw [hkc]) (by rw [hkc]) defer
    · rw [State.on_core, hg, hkc]
      show s.core.ops.filter (·.seq != o.seq) = []
      rw [ho]
      simp
    · rw [State.on_core, hg, hkc]
      rfl

end Sys2Proof.Machine
end

section

/-! ## The start of a launch (R32, R148, R149, R169, R202, R234) -/

namespace Sys2Proof.Machine

open Sys2Proof.Claims

/-! ### What a core starts with -/

theorem word_natCast (n : Nat) : word (n : Int) = BitVec.ofNat 64 n := BitVec.ofInt_natCast 64 n

theorem Regs.reset_v (r : BitVec 5) : Regs.reset.v.get r.toFin = 0 := by
  simp only [Regs.reset, Vector.get_eq_getElem, Vector.getElem_replicate]

theorem Regs.reset_g (r : BitVec 5) : Regs.reset.g.get r.toFin = 0 := by
  simp only [Regs.reset, Vector.get_eq_getElem, Vector.getElem_replicate]

theorem Regs.reset_m (r : BitVec 3) : Regs.reset.m.get r.toFin = 0 := by
  simp only [Regs.reset, Vector.get_eq_getElem, Vector.getElem_replicate]

/-- The core as a launch starts it, before RECLOC and its index are in its registers. -/
def Launch.blankCore (l : Launch) (g : Group) (q : LQueue) (i j : Nat) (c : Core) : Core :=
  { c.fresh with
    view := { View.reset with seen := l.pub }
    run := .running, ctl := l.startCtl g q.pid i j, info := l.infoOf g q.weight i j
    regs := { Regs.reset with pc := BitVec.ofNat 21 (hdrEntry l.header) } }

theorem Launch.startCore_eq (l : Launch) (g : Group) (q : LQueue) (i j : Nat) (c : Core) :
    l.startCore g q i j c = ((l.blankCore g q i j c).setG 3 (BitVec.ofNat 64 (recRecloc l.record))).setG 4
      (BitVec.ofNat 64 (i * l.gcols + j)) := rfl

section Start

variable (l : Launch) (g : Group) (q : LQueue) (i j : Nat) (c : Core)

theorem Launch.startCore_g (r : BitVec 5) : (l.startCore g q i j c).g r =
    if r = 4 then BitVec.ofNat 64 (i * l.gcols + j) else if r = 3 then BitVec.ofNat 64 (recRecloc l.record) else 0 := by
  have hb : (l.blankCore g q i j c).g r = 0 := by
    unfold Core.g
    split
    · rfl
    · exact Regs.reset_g r
  rw [Launch.startCore_eq, Core.g_setG, Core.g_setG, hb]
  simp only [show (4 : BitVec 5) ≠ 0 by decide, show (3 : BitVec 5) ≠ 0 by decide, ne_eq, not_false_eq_true, and_true]

theorem Launch.startCore_v (r : BitVec 5) : (l.startCore g q i j c).v r = 0 := by
  unfold Core.v
  rw [Launch.startCore_eq, Core.setG_v, Core.setG_v]
  exact Regs.reset_v r

theorem Launch.startCore_m {r : BitVec 3} (h : r ≠ 0) : (l.startCore g q i j c).m r = 0 := by
  rw [Core.m, if_neg h, Launch.startCore_eq, Core.setG_m, Core.setG_m]
  exact Regs.reset_m r

theorem Launch.startCore_ctl : (l.startCore g q i j c).ctl = l.startCtl g q.pid i j := by
  rw [Launch.startCore_eq, Core.setG_ctl, Core.setG_ctl]
  rfl

theorem Launch.startCore_addr : (l.startCore g q i j c).addr = c.addr := by
  rw [Launch.startCore_eq, Core.setG_addr, Core.setG_addr]
  rfl

theorem Launch.startCtl_brect (pid : BitVec 16) (n : Fin 16) : (l.startCtl g pid i j).brect.get n =
    if barHolds (l.bars.getD n 0) i j = true ∧ n.val < l.bars.length then
      brAbsolute (l.bars.getD n 0) g.die g.row g.col else 0 := by
  simp only [Launch.startCtl, Vector.get_eq_getElem, Vector.getElem_ofFn, Launch.brectWord, and_comm]

theorem Launch.startCtl_domain (pid : BitVec 16) (h : g.idx < 16) : (l.startCtl g pid i j).domain.get 0 =
    BitVec.ofNat 64 (2 ^ 47 + 2 ^ 32 + 2 ^ g.idx * 2 ^ 16 + l.num) := by
  have hlt : 2 ^ g.idx < 2 ^ 16 := Nat.pow_lt_pow_right (by decide) h
  simp only [Launch.startCtl, Vector.get_eq_getElem, Vector.getElem_ofFn, Launch.domainWord, Fin.val_zero, if_true,
    Nat.mod_eq_of_lt hlt, Nat.one_mul]

end Start

/-! ### What a start does at the core in focus -/

theorem State.keepEnded_spec (s : State) (pkg c : Nat) :
    (s.keepEnded pkg c).core = s.core ∧ (s.keepEnded pkg c).pkgs = s.pkgs := by
  unfold State.keepEnded
  dsimp only
  split
  · exact ⟨rfl, rfl⟩
  · exact ⟨rfl, rfl⟩

theorem foldl_giveBytes (c : Nat) (l : List (Nat × List Byte)) (s : State) :
    (l.foldl (fun t x => t.giveBytes c x) s).core = s.core ∧ (l.foldl (fun t x => t.giveBytes c x) s).pkgs = s.pkgs := by
  induction l generalizing s with
  | nil => exact ⟨rfl, rfl⟩
  | cons x l ih => exact ih (s.giveBytes c x)

theorem State.giveStore_spec (s : State) (pkg c : Nat) (load : List (Nat × List Byte)) :
    (s.giveStore pkg c load).core = s.core ∧ (s.giveStore pkg c load).pkgs = s.pkgs := by
  unfold State.giveStore
  dsimp only
  split
  · exact foldl_giveBytes c load s
  · exact foldl_giveBytes c load _

/-- The last of the bytes that a launch lays in a store are there afterwards. -/
theorem State.giveStore_last (s : State) (pkg c : Nat) (r : List (Nat × List Byte)) (a : Nat) (xs : List Byte) {k : Nat}
    (h : k < xs.length) : (s.giveStore pkg c (r ++ [(a, xs)])).mem.byte (keyLocal c (a + k)) = xs.getD k 0 := by
  unfold State.giveStore
  dsimp only
  rw [List.foldl_append]
  exact (congrArg _ (Nat.add_assoc _ _ _).symm).trans (Memory.byte_writeBytes_in _ (keyLocal c a) xs h)

/-- What a package holds of a launch after a change of it that keeps its number. -/
theorem Package.launch_modLaunch {p : Package} {num : Nat} {l : Launch} (h : p.launch num = some l)
    {f : Launch → Launch} (hf : ∀ x, (f x).num = x.num) : (p.modLaunch num f).launch num = some (f l) := by
  have hn : l.num = num := beq_iff_eq.mp (List.find?_some (p := fun x : Launch => x.num == num) h)
  have hp : (fun x : Launch => x.num == num) ∘ (fun x : Launch => if x.num = num then f x else x) =
      fun x : Launch => x.num == num := by
    funext x
    dsimp only [Function.comp_apply]
    split
    · rw [hf]
    · rfl
  unfold Package.launch Package.modLaunch
  rw [List.find?_map, hp, show p.launches.find? (fun x : Launch => x.num == num) = some l from h, Option.map_some,
    if_pos hn]

theorem State.getPkg_congr {s t : State} (h : t.pkgs = s.pkgs) (p : Nat) : t.getPkg p = s.getPkg p := by
  unfold State.getPkg; rw [h]

/-- What a start of a launch of one core does before its core begins. -/
def State.readied (s : State) (pkg : Nat) (l : Launch) (g : Group) : State :=
  (((s.keepEnded pkg s.core.addr.toNat).at s.core.addr.toNat State.dropWaiting).giveStore pkg s.core.addr.toNat
    l.load).modPkg pkg (·.dieWakes g.die)

theorem State.readied_spec (s : State) (pkg : Nat) (l : Launch) (g : Group) :
    (s.readied pkg l g).core.addr = s.core.addr ∧ (s.readied pkg l g).getPkg pkg = (s.getPkg pkg).dieWakes g.die ∧
      ∀ r a xs, l.load = r ++ [(a, xs)] → ∀ k, k < xs.length →
        (s.readied pkg l g).mem.byte (keyLocal s.core.addr.toNat (a + k)) = xs.getD k 0 := by
  obtain ⟨hkc, hkp⟩ := s.keepEnded_spec pkg s.core.addr.toNat
  unfold State.readied
  generalize s.keepEnded pkg s.core.addr.toNat = u at hkc hkp ⊢
  obtain ⟨m, hcore, -, hpkgs⟩ := u.dropWaiting_onlyMsgs
  rw [State.at_eq (s := u) (by rw [hkc]) rfl (by rw [hcore])]
  obtain ⟨hgc, hgp⟩ := u.dropWaiting.giveStore_spec pkg s.core.addr.toNat l.load
  refine ⟨?_, ?_, fun r a xs hl k hlt => ?_⟩
  · rw [State.modPkg_core, hgc, hcore, hkc]
  · rw [State.getPkg_modPkg_self, State.getPkg_congr (hgp.trans (hpkgs.trans hkp))]
  · rw [State.modPkg_mem, hl]
    exact State.giveStore_last _ _ _ _ _ _ hlt

/-- The start of a launch of one core at the core in focus. -/
theorem State.startCore_self {s : State} {pkg : Nat} {g : Group} (hc : tileAddr pkg g.die g.row g.col = s.core.addr.toNat)
    (l : Launch) (q : LQueue) : ∃ n, s.startCore pkg l g q 0 =
      { (s.readied pkg l g).on (l.startCore g q 0 0) with snaps := n } := by
  have ha := (s.readied_spec pkg l g).1
  unfold State.startCore
  simp only [Nat.zero_div, Nat.zero_mod, Nat.add_zero, hc]
  rw [show (((s.keepEnded pkg s.core.addr.toNat).at s.core.addr.toNat State.dropWaiting).giveStore pkg s.core.addr.toNat
    l.load).modPkg pkg (·.dieWakes g.die) = s.readied pkg l g from rfl, ← ha, State.modCore_self]
  split
  · exact ⟨_, rfl⟩
  · exact ⟨_, rfl⟩

theorem execLaunchStart_one {s : State} {pkg : Nat} {l : Launch} {q : LQueue} {g : Group}
    (hl : (s.getPkg pkg).launch l.num = some l) (hq : (s.getPkg pkg).queue l.queue = some q)
    (hs : s.stopping pkg l = false) (hr : l.state = .running) (hg : l.groups = [g]) (hn : g.started = false)
    (hrows : l.grows = 1) (hcols : l.gcols = 1) : ∃ f : Group → Bool, f g = true ∧
      execLaunchStart pkg l.num g.idx s =
        .next ((s.startCore pkg l g q 0).modPkg pkg (·.modLaunch l.num (·.markStarted f))) := by
  have hgr : l.group g.idx = some g := by
    unfold Launch.group
    rw [hg]
    exact List.find?_cons_of_pos (beq_self_eq_true g.idx)
  refine ⟨fun x => recGang l.record || x.idx == g.idx, by simp, ?_⟩
  unfold execLaunchStart
  simp only [hl, hs, hr, hgr, ne_eq, not_true_eq_false, or_self, Bool.false_eq_true, if_false]
  unfold State.startGroups State.startGroup
  simp only [hq, hg, hn, hrows, hcols, Bool.not_false, Bool.true_and, beq_self_eq_true, Bool.or_true, List.filter_cons,
    List.filter_nil, if_true, List.foldl_cons, List.foldl_nil, Nat.mul_one]
  rfl

/-- Settles O44: what `startCore` puts in a core, field by field, and that the start of a launch of one core is its store's
bytes and that core. -/
theorem launchStarts : Obligations.LaunchStarts := by
  refine ⟨fun l g q i j c => ?_, fun s pkg l q g hl hq hs hr hg hn hrows hcols hc => ?_⟩
  · have hv : (l.startCore g q i j c).view = { View.reset with seen := l.pub } := by
      rw [Launch.startCore_eq, Core.setG_view, Core.setG_view]; rfl
    have hr : (l.startCore g q i j c).run = .running := by rw [Launch.startCore_eq, Core.setG_run, Core.setG_run]; rfl
    have hpc : (l.startCore g q i j c).regs.pc = BitVec.ofNat 21 (hdrEntry l.header) := by
      rw [Launch.startCore_eq, Core.setG_pc, Core.setG_pc]; rfl
    dsimp only
    rw [l.startCore_ctl g q i j c]
    refine ⟨congrArg View.seen hv, hr, l.startCore_addr g q i j c, hpc, ?g3, ?g4, fun r h3 h4 => ?g0, l.startCore_v g q i j c,
      fun r h => l.startCore_m g q i j c h, rfl, rfl, rfl, rfl, rfl, rfl, l.startCtl_brect g i j q.pid, fun _ h => ?domain,
      ?_⟩
    case g3 => rw [l.startCore_g g q i j c, word_natCast]; rfl
    case g4 => rw [l.startCore_g g q i j c, word_natCast]; rfl
    case g0 => rw [l.startCore_g g q i j c, if_neg h4, if_neg h3]
    case domain => rw [l.startCtl_domain g i j q.pid h, word_natCast]
    · rw [Launch.startCore_eq, Core.setG_ops, Core.setG_ops, Core.setG_ring, Core.setG_ring, Core.setG_mail,
        Core.setG_mail, Core.setG_msgs, Core.setG_msgs, Core.setG_gang, Core.setG_gang]
      exact ⟨rfl, rfl, rfl, rfl, rfl⟩
  · obtain ⟨f, hf, he⟩ := execLaunchStart_one hl hq hs hr hg hn hrows hcols
    obtain ⟨n, ht⟩ := State.startCore_self hc l q
    obtain ⟨ha, hp, hm⟩ := s.readied_spec pkg l g
    rw [ht] at he
    refine ⟨_, (s.readied pkg l g).core, he, rfl, ha, ?_, fun r a xs hload k hk => ?_⟩
    · rw [State.getPkg_modPkg_self]
      have hm : l.markStarted f = { l with groups := [{ g with started := true }] } := by
        unfold Launch.markStarted
        rw [hg, List.map_cons, List.map_nil, if_pos hf]
      rw [← hm]
      refine Package.launch_modLaunch ?_ fun _ => rfl
      show ((s.readied pkg l g).getPkg pkg).launch l.num = some l
      rw [hp]
      exact hl
    · have hkey : (l.startCore g q 0 0 (s.readied pkg l g).core).localKey (a + k) =
          keyLocal s.core.addr.toNat (a + k) := by
        rw [Core.localKey, Launch.startCore_addr, ha]
        rfl
      exact congrArg BitVec.toNat ((congrArg _ hkey).trans (hm r a xs hload k hk))

end Sys2Proof.Machine
end

section

/-! ## Control registers (R11 to R13, R107, R379) -/

namespace Sys2Proof.Machine

open Sys2Proof.Claims

/-! ### STATUS as a word (R12) -/

/-- Bit `i` of STATUS. -/
def Core.statusBit (c : Core) : Nat → Bool
  | 0 => c.ctl.status.priv
  | 1 => c.ctl.status.ie
  | 2 => c.ctl.status.pie
  | 3 => c.ctl.status.topx
  | 4 => c.ctl.status.rm.getLsbD 0
  | 5 => c.ctl.status.rm.getLsbD 1
  | 6 => c.ctl.status.rm.getLsbD 2
  | 7 => c.ctl.status.preempt
  | 8 => c.ctl.status.ckpt
  | 9 => c.gang.role.code.testBit 0
  | 10 => c.gang.role.code.testBit 1
  | 11 => c.frame.isSome
  | 12 => c.ctl.status.ppriv
  | _ => false

theorem Role.code_lt (r : Role) : r.code < 3 := by
  cases r with
  | alone => exact Nat.zero_lt_succ 2
  | leader _ => exact Nat.one_lt_succ_succ 1
  | follower _ _ => exact Nat.lt_succ_self 2

theorem decide_eq_one_of_toNat {b : Bool} {n : Nat} (h : n = b.toNat) : decide (n = 1) = b := by
  rw [h]; cases b <;> rfl

theorem Core.statusWord_toNat (c : Core) : c.statusWord.toNat < 2 ^ 13 ∧ c.statusWord.toNat =
    c.ctl.status.priv.toNat + 2 * c.ctl.status.ie.toNat + 4 * c.ctl.status.pie.toNat + 8 * c.ctl.status.topx.toNat +
      16 * c.ctl.status.rm.toNat + 128 * c.ctl.status.preempt.toNat + 256 * c.ctl.status.ckpt.toNat +
      512 * c.gang.role.code + 2048 * c.frame.isSome.toNat + 4096 * c.ctl.status.ppriv.toNat := by
  have h1 := c.ctl.status.rm.isLt
  have h2 := c.gang.role.code_lt
  have h3 := c.ctl.status.priv.toNat_lt
  have h4 := c.ctl.status.ie.toNat_lt
  have h5 := c.ctl.status.pie.toNat_lt
  have h6 := c.ctl.status.topx.toNat_lt
  have h7 := c.ctl.status.preempt.toNat_lt
  have h8 := c.ctl.status.ckpt.toNat_lt
  have h9 := c.frame.isSome.toNat_lt
  have h10 := c.ctl.status.ppriv.toNat_lt
  unfold Core.statusWord
  dsimp only
  rw [BitVec.toNat_ofNat, Nat.mod_eq_of_lt (by omega)]
  exact ⟨by omega, rfl⟩

theorem Core.statusBit_ge (c : Core) (k : Nat) : c.statusBit (k + 13) = false := rfl

theorem Core.statusWord_getLsbD (c : Core) (i : Nat) : c.statusWord.getLsbD i = c.statusBit i := by
  obtain ⟨hlt, hsum⟩ := c.statusWord_toNat
  by_cases hi : i < 13
  · have h1 := c.ctl.status.rm.isLt
    have h2 := c.gang.role.code_lt
    have h3 := c.ctl.status.priv.toNat_lt
    have h4 := c.ctl.status.ie.toNat_lt
    have h5 := c.ctl.status.pie.toNat_lt
    have h6 := c.ctl.status.topx.toNat_lt
    have h7 := c.ctl.status.preempt.toNat_lt
    have h8 := c.ctl.status.ckpt.toNat_lt
    have h9 := c.frame.isSome.toNat_lt
    have h10 := c.ctl.status.ppriv.toNat_lt
    rw [BitVec.getLsbD, hsum, Nat.testBit_eq_decide_div_mod_eq]
    apply decide_eq_one_of_toNat
    interval_cases i <;> simp only [Core.statusBit, BitVec.getLsbD, Nat.toNat_testBit] <;> omega
  · obtain ⟨k, rfl⟩ := Nat.exists_eq_add_of_le' (Nat.le_of_not_lt hi)
    rw [Core.statusBit_ge]
    exact Nat.testBit_lt_two_pow (hlt.trans_le (Nat.pow_le_pow_right (by decide) (Nat.le_add_left 13 k)))

theorem State.readCr_zero (s : State) : s.readCr 0 = s.core.statusWord := rfl

theorem controlRegisterMap : ControlRegisterMap := by
  intro s
  refine ⟨rfl, rfl, rfl, rfl, rfl, rfl, rfl, rfl, rfl, rfl, rfl, rfl, ?_⟩
  rw [State.readCr_zero]
  simp only [Core.statusWord_getLsbD]
  refine ⟨rfl, rfl, rfl, rfl, ?rm, rfl, rfl, fun ha => ?gang, rfl, rfl, ?rest⟩
  case rm =>
    apply BitVec.eq_of_getLsbD_eq
    intro i hi
    rw [BitVec.getLsbD_extractLsb', Core.statusWord_getLsbD]
    interval_cases i <;> rfl
  case gang =>
    apply BitVec.eq_of_getLsbD_eq
    intro i hi
    rw [BitVec.getLsbD_extractLsb', Core.statusWord_getLsbD]
    interval_cases i <;> simp only [Core.statusBit, ha] <;> rfl
  case rest =>
    apply BitVec.eq_of_getLsbD_eq
    intro i hi
    rw [BitVec.getLsbD_extractLsb', Core.statusWord_getLsbD, Nat.add_comm, Core.statusBit_ge, Bool.and_false]
    exact BitVec.getLsbD_zero.symm

/-! ### Access -/

theorem crAssigned_iff (n : BitVec 12) : crAssigned n = true ↔ assigned n.toNat := by
  simp only [crAssigned, assigned, Bool.or_eq_true, Bool.and_eq_true, decide_eq_true_eq, beq_iff_eq]
  omega

theorem userHidden_iff (n : Nat) : userHidden n = true ↔ Claims.hidden n := by
  simp only [userHidden, Claims.hidden, Bool.or_eq_true, Bool.and_eq_true, decide_eq_true_eq, beq_iff_eq, or_assoc]

theorem userWrites_iff (n : Nat) : userWrites n = true ↔ userRw n := by
  simp only [userWrites, userRw, Bool.or_eq_true, Bool.and_eq_true, decide_eq_true_eq, beq_iff_eq, or_assoc]

/-- The fields marked PRIV of STATUS are its bits 12, 7, 2, 1 and 0. -/
theorem Status.changesPriv_iff (s : State) (x : Word) :
    s.core.ctl.status.changesPriv x = true ↔ Claims.changesPriv s x := by
  unfold Claims.changesPriv
  rw [State.readCr_zero]
  simp only [Status.changesPriv, bitOf, Core.statusWord_getLsbD, Bool.or_eq_true, bne_iff_ne, ne_eq, or_and_right,
    exists_or, exists_eq_left, Core.statusBit, or_assoc]
  simp only [eq_comm]

/-! ### The checks -/

/-- The checks of a read pass when the number is assigned and the mode may read it. -/
theorem State.ctrlCheck_read {s : State} (w : BitVec 32) {n : BitVec 12} (ha : assigned n.toNat)
    (hr : s.priv = true ∨ ¬ Claims.hidden n.toNat) : s.ctrlCheck w n none = none := by
  have hh : ¬ ((!s.priv && userHidden n.toNat) = true) := by
    rw [Bool.and_eq_true, Bool.not_eq_true', userHidden_iff]
    rintro ⟨hp, hn⟩
    rcases hr with hr | hr
    · exact Bool.false_ne_true (hp.symm.trans hr)
    · exact hr hn
  unfold State.ctrlCheck
  rw [(crAssigned_iff n).mpr ha]
  exact if_neg hh

/-- The checks of a write to an assigned number. -/
theorem State.ctrlCheck_some {s : State} (w : BitVec 32) {n : BitVec 12} (ha : assigned n.toNat) (x : Word) :
    s.ctrlCheck w n (some x) =
      if !s.priv && !userWrites n.toNat then some (Cause.privilege, 0)
      else if n = 0 ∧ !s.priv ∧ s.core.ctl.status.changesPriv x then some (Cause.privilege, 0)
      else if n = 0 ∧ 5 ≤ (x.extractLsb' 4 3).toNat then some (Cause.illegal, w.toNat)
      else none := by
  unfold State.ctrlCheck
  rw [(crAssigned_iff n).mpr ha]
  rfl

/-- Mode and number do not refuse a write. -/
theorem writes_not_refused {s : State} {n : BitVec 12} (h : s.priv = true ∨ userRw n.toNat) :
    ¬ ((!s.priv && !userWrites n.toNat) = true) := by
  rw [Bool.and_eq_true, Bool.not_eq_true', Bool.not_eq_true']
  rintro ⟨hp, hn⟩
  rcases h with h | h
  · exact Bool.false_ne_true (hp.symm.trans h)
  · exact Bool.false_ne_true (hn.symm.trans ((userWrites_iff _).mpr h))

theorem State.ctrlCheck_write {s : State} (w : BitVec 32) {n : BitVec 12} {x : Word} (h : mayWrite s n x) :
    s.ctrlCheck w n (some x) = none := by
  obtain ⟨ha, hu, hs⟩ := h
  rw [State.ctrlCheck_some w ha, if_neg (writes_not_refused hu), if_neg, if_neg]
  · rintro ⟨hn, hrm⟩
    obtain ⟨hlt, -⟩ := hs (congrArg BitVec.toNat hn)
    omega
  · rintro ⟨hn, hp, hc⟩
    obtain ⟨-, hp' | hsame⟩ := hs (congrArg BitVec.toNat hn)
    · rw [hp'] at hp; exact Bool.false_ne_true hp
    · obtain ⟨k, hk, hne⟩ := (Status.changesPriv_iff s x).mp hc
      exact hne (hsame k hk)

theorem State.ctrlCheck_unassigned {s : State} (w : BitVec 32) {n : BitVec 12} (h : ¬ assigned n.toNat) (x : Option Word) :
    s.ctrlCheck w n x = some (Cause.illegal, w.toNat) := by
  unfold State.ctrlCheck
  rw [Bool.eq_false_iff.mpr (mt (crAssigned_iff n).mp h)]
  rfl

theorem State.crError_of_intact {s : State} {n : BitVec 12} (h : slotIntact s n) : s.crError n = none := by
  unfold State.crError
  refine if_neg ?_
  rintro ⟨hn, he⟩
  exact Bool.false_ne_true ((h hn).symm.trans he)

/-! ### What a write leaves -/

theorem State.readCr_setG (s : State) (d : BitVec 5) (x : Word) (k : Nat) : (s.setG d x).readCr k = s.readCr k := by
  unfold State.readCr State.getPkg Core.statusWord
  simp only [State.setG_core, Core.setG_ctl, Core.setG_gang, Core.setG_frame, Core.setG_addr, Core.setG_ring,
    Core.setG_resetAt, State.setG_clk, State.setG_pkgs]

theorem State.readCr_adv (s : State) (k : Nat) : s.adv.readCr k = s.readCr k := rfl

/-- The control registers that a write reaches. -/
def crWritable : List Nat :=
  [0x000, 0x001, 0x002, 0x008, 0x009, 0x00A, 0x00B, 0x00C, 0x018, 0x019, 0x01A, 0x01B, 0x020, 0x021, 0x022, 0x023, 0x024,
   0x025, 0x029, 0x058, 0x060]

/-- A write to a register that it does not reach has no effect. -/
theorem Core.writeCr_of_not_writable {n : Nat} (h : n ∉ crWritable) (c : Core) (x : Word) : c.writeCr n x = c := by
  simp only [crWritable, List.mem_cons, List.not_mem_nil, or_false, not_or] at h
  simp only [Core.writeCr, Core.modCtl, h, if_false]

theorem State.readCr_writeCr_other (s : State) {n k : Nat} (x : Word) (hk : k ≠ n) (hd : n = 0x029 → k ≠ 0x02A) :
    (s.on (·.writeCr n x)).readCr k = s.readCr k := by
  by_cases hn : n ∈ crWritable
  · simp only [crWritable, List.mem_cons, List.not_mem_nil, or_false] at hn
    rcases hn with rfl | rfl | rfl | rfl | rfl | rfl | rfl | rfl | rfl | rfl | rfl | rfl | rfl | rfl | rfl | rfl | rfl | rfl |
      rfl | rfl | rfl
    case inr.inr.inr.inr.inr.inr.inr.inr.inr.inr.inr.inr.inr.inr.inr.inr.inr.inr.inl =>
      simp only [State.readCr, hk, hd rfl, if_false]
      rfl
    all_goals
      simp only [State.readCr, hk, if_false]
      rfl
  · simp only [State.on, Core.writeCr_of_not_writable hn]

/-! ### What a written register reads as -/

/-- STATUS after a write of it: RO fields keep their values. -/
theorem Core.statusWord_write (c : Core) (x : Word) :
    (c.writeCr 0 x).statusWord = (x &&& 0x10FF) ||| (c.statusWord &&& 0x0F00) := by
  apply BitVec.eq_of_getLsbD_eq
  intro i hi
  rw [BitVec.getLsbD_or, BitVec.getLsbD_and, BitVec.getLsbD_and, Core.statusWord_getLsbD, Core.statusWord_getLsbD]
  by_cases h13 : i < 13
  · interval_cases i <;>
      simp [Core.statusBit, Core.writeCr, Core.modCtl, Status.write, bitOf]
  · obtain ⟨k, rfl⟩ := Nat.exists_eq_add_of_le' (Nat.le_of_not_lt h13)
    have hm : (0x10FF : Word).getLsbD (k + 13) = false :=
      Nat.testBit_lt_two_pow (lt_of_lt_of_le (by decide : _ < 2 ^ 13) (Nat.pow_le_pow_right (by decide) (Nat.le_add_left 13 k)))
    rw [Core.statusBit_ge, Core.statusBit_ge, hm, Bool.and_false, Bool.false_and]
    rfl

theorem setWidth_setWidth_eq_and (w : Nat) (x : Word) : (x.setWidth w).setWidth 64 = x &&& BitVec.ofNat 64 (2 ^ w - 1) := by
  apply BitVec.eq_of_getLsbD_eq
  intro i hi
  rw [BitVec.getLsbD_and, BitVec.getLsbD_ofNat, Nat.testBit_two_pow_sub_one, BitVec.getLsbD_setWidth,
    BitVec.getLsbD_setWidth, Bool.and_comm (x.getLsbD i), Bool.and_assoc]

/-- A number that fits a register reads from it as it is. -/
theorem ofNat_setWidth {w n : Nat} (h : n < 2 ^ w) : (BitVec.ofNat w n).setWidth 64 = BitVec.ofNat 64 n := by
  apply BitVec.eq_of_toNat_eq
  rw [BitVec.toNat_setWidth, BitVec.toNat_ofNat, BitVec.toNat_ofNat, Nat.mod_eq_of_lt h]

/-- A limit register after a write (R23). -/
theorem clampTo_setWidth {w lo hi : Nat} (x : Word) (h : hi < 2 ^ w) (hl : lo ≤ hi) :
    (BitVec.ofNat w (clampTo lo hi x)).setWidth 64 = clamp lo hi x :=
  ofNat_setWidth (lt_of_le_of_lt (max_le hl (min_le_left _ _)) h)

theorem lslim_write (x : Word) : (BitVec.ofNat 21 (clampTo 0x40 0x17C000 x / 64 * 64)).setWidth 64 =
    clamp 0x40 0x17C000 x &&& ~~~0x3F := by
  have hle : clampTo 0x40 0x17C000 x ≤ 0x17C000 := max_le (by decide) (min_le_left _ _)
  have hc : (clamp 0x40 0x17C000 x).toNat = clampTo 0x40 0x17C000 x :=
    Nat.mod_eq_of_lt (lt_of_le_of_lt hle (by decide))
  rw [ofNat_setWidth (by omega), ← hc]
  exact (and_not_low (clamp 0x40 0x17C000 x) 6).symm

theorem evecOf_setWidth (x : Word) : (evecOf x).setWidth 64 =
    if 0x17C000 ≤ x.toNat ∧ x.toNat < 0x180000 then x &&& ~~~3 else 0x17C000 := by
  unfold evecOf
  split
  · rename_i h
    rw [ofNat_setWidth (by omega)]
    exact (and_not_low x 2).symm
  · rfl

theorem rxwatchOf_setWidth (x : Word) : (rxwatchOf x).setWidth 64 =
    if (x &&& 0xFFFFFFFF).toNat < 0x400 then 0x400 else x &&& 0xFFFFFFFF := by
  have hx : x &&& 0xFFFFFFFF = (x.setWidth 32).setWidth 64 := (setWidth_setWidth_eq_and 32 x).symm
  have hn : (x &&& 0xFFFFFFFF).toNat = x.toNat % 2 ^ 32 := by
    rw [hx, BitVec.toNat_setWidth, BitVec.toNat_setWidth]; omega
  unfold rxwatchOf
  rw [hn]
  split
  · rfl
  · exact hx.symm

theorem State.readCr_writeCr_self (s : State) (n : Nat) (x : Word) :
    (s.on (·.writeCr n x)).readCr n = afterWrite s n x := by
  by_cases hn : n ∈ crWritable
  · simp only [crWritable, List.mem_cons, List.not_mem_nil, or_false] at hn
    rcases hn with rfl | rfl | rfl | rfl | rfl | rfl | rfl | rfl | rfl | rfl | rfl | rfl | rfl | rfl | rfl | rfl | rfl | rfl |
      rfl | rfl | rfl
    · exact s.core.statusWord_write x
    · exact setWidth_setWidth_eq_and 6 x
    · rfl
    · rfl
    · rfl
    · exact setWidth_setWidth_eq_and 21 x
    · exact setWidth_setWidth_eq_and 21 x
    · exact setWidth_setWidth_eq_and 4 x
    · exact lslim_write x
    · exact clampTo_setWidth (w := 6) (lo := 1) (hi := 32) x (by decide) (by decide)
    · exact clampTo_setWidth (w := 5) (lo := 0) (hi := 16) x (by decide) (by decide)
    · exact clampTo_setWidth (w := 5) (lo := 0) (hi := 16) x (by decide) (by decide)
    · exact setWidth_setWidth_eq_and 21 x
    · exact setWidth_setWidth_eq_and 10 x
    · rfl
    · exact setWidth_setWidth_eq_and 16 x
    · exact evecOf_setWidth x
    · rfl
    · exact setWidth_setWidth_eq_and 6 x
    · exact rxwatchOf_setWidth x
    · exact setWidth_setWidth_eq_and 24 x
  · rw [show s.on (·.writeCr n x) = s by simp only [State.on, Core.writeCr_of_not_writable hn]]
    simp only [crWritable, List.mem_cons, List.not_mem_nil, or_false, not_or] at hn
    simp only [afterWrite, hn, or_self, if_false]

/-! ### The instructions -/

/-- A write to `g[d]` that goes on changes that register alone. -/
theorem onlyG_setG (s : State) (d : BitVec 5) (x : Word) : onlyG d s (s.setG d x).adv := by
  refine ⟨?_, fun r hr => ?_⟩
  · by_cases hd : d = 0
    · rw [hd]; rfl
    · unfold State.setG Core.setG
      simp only [hd, if_false]
      rfl
  · show (s.core.setG d x).g r = s.core.g r
    rw [Core.g_setG, if_neg fun h => hr h.1]

theorem g_setG_adv (s : State) (d : BitVec 5) (x : Word) : (s.setG d x).adv.g d = if d = 0 then 0 else x := by
  show (s.core.setG d x).g d = _
  rw [Core.g_setG]
  by_cases hd : d = 0
  · rw [if_neg fun h => h.2 hd, if_pos hd, hd]; rfl
  · rw [if_pos ⟨rfl, hd⟩, if_neg hd]

/-- A control register written and `g[d]` written, and no more. -/
theorem wroteCr_writeCr (s : State) (n : Nat) (x y : Word) (d : BitVec 5) :
    wroteCr n x d s ((s.on (·.writeCr n x)).setG d y).adv := by
  obtain ⟨hrest, hg⟩ := onlyG_setG (s.on (·.writeCr n x)) d y
  have hctl : ((s.on (·.writeCr n x)).setG d y).adv.core.ctl = (s.on (·.writeCr n x)).core.ctl := Core.setG_ctl _ d y
  refine ⟨hrest.trans (show withCtl (withRegs s _) (s.on (·.writeCr n x)).core.ctl = _ from congrArg (withCtl _) hctl.symm), hg, ?_, fun k hk hd => ?_⟩
  · rw [State.readCr_adv, State.readCr_setG, State.readCr_writeCr_self]
  · rw [State.readCr_adv, State.readCr_setG, State.readCr_writeCr_other s x hk hd]

theorem controlRegisterAccess : ControlRegisterAccess := by
  refine fun d a n => ⟨fun s hs => ?crr, fun s hm => ?crw, fun s hm hi => ?crs, fun s hm hi => ?crc⟩
  case crr =>
    obtain ⟨ha, hr, hi⟩ := hs
    refine ⟨_, s.readCr n.toNat, ?_, onlyG_setG s d _, rfl, g_setG_adv s d _⟩
    show execCrr d n s = _
    rw [execCrr, State.ctrlCheck_read _ ha hr, State.crError_of_intact hi, Option.or_none, State.checked_none]
  case crw =>
    refine ⟨_, ?_, wroteCr_writeCr s n.toNat (s.g a) 0 0⟩
    show execCrw a n s = _
    rw [execCrw, State.ctrlCheck_write _ hm, State.checked_none]
    rfl
  case crs =>
    refine ⟨_, ?_, wroteCr_writeCr s n.toNat (s.readCr n.toNat ||| s.g a) (s.readCr n.toNat) d, g_setG_adv _ d _⟩
    show execCrs d a n s = _
    unfold execCrs
    dsimp only
    rw [State.ctrlCheck_write _ hm, State.crError_of_intact hi, Option.or_none, State.checked_none]
  case crc =>
    refine ⟨_, ?_, wroteCr_writeCr s n.toNat (s.readCr n.toNat &&& ~~~s.g a) (s.readCr n.toNat) d, g_setG_adv _ d _⟩
    show execCrc d a n s = _
    unfold execCrc
    dsimp only
    rw [State.ctrlCheck_write _ hm, State.crError_of_intact hi, Option.or_none, State.checked_none]

/-! ### The traps -/

section Traps

variable {s : State} {n : BitVec 12} {f : BitVec 32 → Trap} (d a : BitVec 5)

theorem crr_traps (h : ∀ w, (s.ctrlCheck w n none).or (s.crError n) = some (f w)) :
    ∃ w, exec (.crr d n) s = .next (s.trap (f w)) :=
  ⟨_, show execCrr d n s = _ by rw [execCrr, h, State.checked_some]⟩

theorem crw_traps (h : ∀ w, s.ctrlCheck w n (some (s.g a)) = some (f w)) :
    ∃ w, exec (.crw a n) s = .next (s.trap (f w)) :=
  ⟨_, show execCrw a n s = _ by rw [execCrw, h, State.checked_some]⟩

theorem crs_traps (h : ∀ w, (s.ctrlCheck w n (some (s.readCr n.toNat ||| s.g a))).or (s.crError n) = some (f w)) :
    ∃ w, exec (.crs d a n) s = .next (s.trap (f w)) :=
  ⟨_, show execCrs d a n s = _ by unfold execCrs; dsimp only; rw [h, State.checked_some]⟩

theorem crc_traps (h : ∀ w, (s.ctrlCheck w n (some (s.readCr n.toNat &&& ~~~s.g a))).or (s.crError n) = some (f w)) :
    ∃ w, exec (.crc d a n) s = .next (s.trap (f w)) :=
  ⟨_, show execCrc d a n s = _ by unfold execCrc; dsimp only; rw [h, State.checked_some]⟩

end Traps

theorem Option.or_of_eq_some {α : Type} {o p : Option α} {x : α} (h : o = some x) : o.or p = some x := by rw [h]; rfl

theorem State.ctrlCheck_hidden {s : State} {n : BitVec 12} (ha : assigned n.toNat) (hp : s.priv = false)
    (hn : Claims.hidden n.toNat) (w : BitVec 32) : s.ctrlCheck w n none = some (Cause.privilege, 0) := by
  unfold State.ctrlCheck
  rw [(crAssigned_iff n).mpr ha, hp, (userHidden_iff _).mpr hn]
  rfl

theorem State.ctrlCheck_not_userRw {s : State} {n : BitVec 12} (ha : assigned n.toNat) (hp : s.priv = false)
    (hn : ¬ userRw n.toNat) (x : Word) (w : BitVec 32) : s.ctrlCheck w n (some x) = some (Cause.privilege, 0) := by
  rw [State.ctrlCheck_some w ha, if_pos]
  rw [hp, Bool.eq_false_iff.mpr (mt (userWrites_iff _).mp hn)]
  rfl

theorem assigned_zero : assigned (0 : BitVec 12).toNat := Or.inl (by decide)

theorem userRw_zero : userRw (0 : BitVec 12).toNat := Or.inl (by decide)

theorem State.ctrlCheck_status_priv {s : State} (hp : s.priv = false) {x : Word} (hc : Claims.changesPriv s x)
    (w : BitVec 32) : s.ctrlCheck w 0 (some x) = some (Cause.privilege, 0) := by
  rw [State.ctrlCheck_some w assigned_zero, if_neg (writes_not_refused (Or.inr userRw_zero)), if_pos]
  exact ⟨rfl, by rw [hp]; rfl, (Status.changesPriv_iff s x).mpr hc⟩

theorem State.ctrlCheck_status_rm {s : State} {x : Word} (hp : s.priv = true ∨ ¬ Claims.changesPriv s x)
    (hr : 5 ≤ (x.extractLsb' 4 3).toNat) (w : BitVec 32) : s.ctrlCheck w 0 (some x) = some (Cause.illegal, w.toNat) := by
  rw [State.ctrlCheck_some w assigned_zero, if_neg (writes_not_refused (Or.inr userRw_zero)), if_neg, if_pos ⟨rfl, hr⟩]
  rintro ⟨-, hu, hc⟩
  rcases hp with hp | hp
  · rw [hp] at hu; exact Bool.false_ne_true hu
  · exact hp ((Status.changesPriv_iff s x).mp hc)

/-- An instruction whose checks are those of a write of `x` to STATUS is refused as R13 says. -/
theorem statusRefused_of_checks {i : Instr} {s : State} {x : Word}
    (h : ∀ f : BitVec 32 → Trap, (∀ w, s.ctrlCheck w 0 (some x) = some (f w)) → ∃ w, exec i s = .next (s.trap (f w))) :
    statusRefused i s x := by
  refine ⟨fun hp hc => ?_, fun hp hr => ?_⟩
  · obtain ⟨-, hw⟩ := h (fun _ => (Cause.privilege, 0)) (State.ctrlCheck_status_priv hp hc)
    exact hw
  · obtain ⟨w, hw⟩ := h (fun w => (Cause.illegal, w.toNat)) (State.ctrlCheck_status_rm hp hr)
    exact ⟨w.toNat, hw⟩

theorem controlRegisterTraps : ControlRegisterTraps := by
  refine fun d a n s => ⟨fun hn => ?unassigned, fun hn => ?status, fun hn hp hi => ?slot, fun ha hp =>
    ⟨fun hh => ?hidden, fun hu => ⟨?crw, ?crs, ?crc⟩⟩⟩
  case unassigned =>
    have hc := fun (w : BitVec 32) (x : Option Word) => State.ctrlCheck_unassigned (s := s) w hn x
    obtain ⟨w1, h1⟩ := crr_traps d (f := fun w => (Cause.illegal, w.toNat)) fun w => Option.or_of_eq_some (hc w _)
    obtain ⟨w2, h2⟩ := crw_traps a (f := fun w => (Cause.illegal, w.toNat)) fun w => hc w _
    obtain ⟨w3, h3⟩ := crs_traps d a (f := fun w => (Cause.illegal, w.toNat)) fun w => Option.or_of_eq_some (hc w _)
    obtain ⟨w4, h4⟩ := crc_traps d a (f := fun w => (Cause.illegal, w.toNat)) fun w => Option.or_of_eq_some (hc w _)
    exact ⟨_, _, _, _, h1, h2, h3, h4⟩
  case status =>
    subst hn
    exact ⟨statusRefused_of_checks fun f h => crw_traps a h,
      statusRefused_of_checks fun f h => crs_traps d a fun w => Option.or_of_eq_some (h w),
      statusRefused_of_checks fun f h => crc_traps d a fun w => Option.or_of_eq_some (h w)⟩
  case slot =>
    subst hn
    have ha : assigned (0x02A : BitVec 12).toNat := by unfold assigned; decide
    have he : s.crError 0x02A = some (Cause.uncorr, s.core.ctl.drsel.toNat) := by
      refine if_pos ⟨rfl, ?_⟩
      by_contra hb
      exact hi fun _ => Bool.eq_false_iff.mpr hb
    have hw : ∀ (x : Word) w, s.ctrlCheck w 0x02A (some x) = none := fun x w =>
      State.ctrlCheck_write w ⟨ha, Or.inl hp, fun h0 => absurd h0 (by decide)⟩
    obtain ⟨-, h1⟩ := crr_traps d (f := fun _ => (Cause.uncorr, s.core.ctl.drsel.toNat)) fun w => by
      rw [State.ctrlCheck_read w ha (Or.inl hp), he]; rfl
    obtain ⟨-, h2⟩ := crs_traps d a (f := fun _ => (Cause.uncorr, s.core.ctl.drsel.toNat)) fun w => by rw [hw, he]; rfl
    obtain ⟨-, h3⟩ := crc_traps d a (f := fun _ => (Cause.uncorr, s.core.ctl.drsel.toNat)) fun w => by rw [hw, he]; rfl
    exact ⟨h1, h2, h3⟩
  case hidden =>
    exact (crr_traps d (f := fun _ => (Cause.privilege, 0)) fun w =>
      Option.or_of_eq_some (State.ctrlCheck_hidden ha hp hh w)).choose_spec
  case crw =>
    exact (crw_traps a (f := fun _ => (Cause.privilege, 0)) fun w => State.ctrlCheck_not_userRw ha hp hu _ w).choose_spec
  case crs =>
    exact (crs_traps d a (f := fun _ => (Cause.privilege, 0)) fun w =>
      Option.or_of_eq_some (State.ctrlCheck_not_userRw ha hp hu _ w)).choose_spec
  case crc =>
    exact (crc_traps d a (f := fun _ => (Cause.privilege, 0)) fun w =>
      Option.or_of_eq_some (State.ctrlCheck_not_userRw ha hp hu _ w)).choose_spec

/-- Settles O7, from the check that each form makes and what a written register reads as. -/
theorem controlRegisters : Obligations.ControlRegisters := ⟨controlRegisterAccess, controlRegisterTraps, controlRegisterMap⟩

end Sys2Proof.Machine
end

section

/-! ## Tile steps (R19, R298, R299, R309, R311 to R313, R379, R393) -/

namespace Sys2Proof.Machine

open Sys2Proof.Claims

/-! ### The end of a pending operation -/

theorem Core.op_dropOp (c : Core) (q : BitVec 16) : (c.dropOp q).op q = none := by
  unfold Core.op Core.dropOp
  rw [List.find?_eq_none]
  intro o ho
  have hn := (List.mem_filter.mp ho).2
  simp at hn ⊢
  exact hn

theorem Core.op_settle (c : Core) (q : BitVec 16) (f : RingEntry → RingEntry) : (c.settle q f).op q = none :=
  Core.op_dropOp _ q

theorem Core.entry_settle {c : Core} {q : BitVec 16} (hs : (c.entry q).state = .pending) (hq : (c.entry q).seq = q)
    (f : RingEntry → RingEntry) : (c.settle q f).entry q = f (c.entry q) := by
  unfold Core.settle
  rw [if_pos ⟨hs, hq⟩]
  exact Core.entry_modEntry_self c q f

/-- An operation that ends changes the ring and the operations. -/
theorem Core.settle_eq (c : Core) (q : BitVec 16) (f : RingEntry → RingEntry) :
    ∃ ring ops, c.settle q f = { c with ring := ring, ops := ops } := by
  unfold Core.settle
  split
  · exact ⟨_, _, rfl⟩
  · exact ⟨_, _, rfl⟩

/-- In `t` the operation `q` of `s` has ended with the late fault `f`; else the latch and the counters of faults alone
have changed. -/
def endsFaulted (s t : State) (q : BitVec 16) (f : Trap) : Prop :=
  lateFaulted t q f ∧ t = { s with core := { s.core with
    ring := t.core.ring, ops := t.core.ops, latch := true, faults := t.core.faults } }

section EndsFaulted

variable {s t : State} {q : BitVec 16} {f : Trap} (h : endsFaulted s t q f)
include h

theorem endsFaulted.addr : t.core.addr = s.core.addr := by rw [h.2]

theorem endsFaulted.mtx : t.core.mtx = s.core.mtx := by rw [h.2]

theorem endsFaulted.regs : t.core.regs = s.core.regs := by rw [h.2]

theorem endsFaulted.ctl : t.core.ctl = s.core.ctl := by rw [h.2]

theorem endsFaulted.mem : t.mem = s.mem := by rw [h.2]

end EndsFaulted

/-- An entry that takes a late fault. -/
def RingEntry.faulted (e : RingEntry) (f : Trap) : RingEntry :=
  { e with state := .faulted, cause := f.1, einfo := BitVec.ofNat 64 f.2, untaken := true }

theorem State.markFaulted_eq (s : State) (q : BitVec 16) (cause : BitVec 8) (info : Nat) :
    s.markFaulted q cause info = (s.on (·.settle q (·.faulted (cause, info)))).setLatch := rfl

theorem State.markFaulted_ends {s : State} {q : BitVec 16} (h : pendingAt s q) (cause : BitVec 8) (info : Nat) :
    endsFaulted s (s.markFaulted q cause info) q (cause, info) := by
  obtain ⟨hs, hq, -⟩ := h
  have he : ((s.markFaulted q cause info).core.entry q) = (s.core.entry q).faulted (cause, info) :=
    Core.entry_settle hs hq (·.faulted (cause, info))
  refine ⟨⟨Core.op_settle _ _ _, ?_⟩, ?_⟩
  · rw [he]
    exact ⟨rfl, rfl, rfl, rfl⟩
  · obtain ⟨ring, ops, e⟩ := Core.settle_eq s.core q (·.faulted (cause, info))
    have hm : s.markFaulted q cause info = { s with core := { s.core with ring := ring, ops := ops, latch := true } } :=
      congrArg (fun c : Core => { s with core := { c with latch := true } }) e
    rw [hm]

/-- A fault that is counted first ends its operation as well. -/
theorem State.markFaulted_counted {s : State} {q : BitVec 16} (h : pendingAt s q) (x : FaultCounts) (cause : BitVec 8)
    (info : Nat) : endsFaulted s ((s.on fun c => { c with faults := x }).markFaulted q cause info) q (cause, info) :=
  State.markFaulted_ends (s := s.on fun c => { c with faults := x }) h cause info

theorem pendingAt_of_ring {s t : State} {q : BitVec 16} (h : pendingAt s q) (hr : t.core.ring = s.core.ring)
    (hb : t.core.ringBad = s.core.ringBad) : pendingAt t q := by
  unfold pendingAt Core.entry
  rw [hr, hb]
  exact h

theorem State.lateFault_ends {s : State} {q : BitVec 16} (h : pendingAt s q) {cause : BitVec 8}
    (hc : cause = Cause.uncorr → s.core.ctl.status.ckpt = false) (info : Nat) :
    endsFaulted s (s.lateFault q cause info) q (cause, info) := by
  unfold State.lateFault
  split
  · rename_i e
    dsimp only
    rw [if_neg (Bool.eq_false_iff.mp (hc e))]
    exact State.markFaulted_counted h { s.core.faults with lsue := satInc s.core.faults.lsue } cause info
  · exact State.markFaulted_ends h cause info

theorem State.accFault_ends {s : State} {q : BitVec 16} (h : pendingAt s q) (hc : s.core.ctl.status.ckpt = false)
    (n : BitVec 2) : endsFaulted s (s.accFault q n) q (Cause.uncorr, 0x100 + n.toNat) := by
  unfold State.accFault
  dsimp only
  rw [if_neg (Bool.eq_false_iff.mp hc)]
  exact State.markFaulted_counted h { s.core.faults with accue := satInc s.core.faults.accue } Cause.uncorr _

/-- A pending operation whose entry holds no error ends as done. -/
theorem State.opDone_eq {s : State} {q : BitVec 16} (h : pendingAt s q) :
    s.opDone q = s.on (·.settle q fun e => { e with state := .done }) := by
  obtain ⟨-, -, hb⟩ := h
  unfold State.opDone
  exact if_neg fun e => Bool.eq_false_iff.mp hb e.1

theorem doneAt_opDone {s : State} {q : BitVec 16} (h : pendingAt s q) : doneAt (s.opDone q) q := by
  rw [State.opDone_eq h]
  obtain ⟨hs, hq, -⟩ := h
  exact ⟨Core.op_settle _ _ _, congrArg RingEntry.state (Core.entry_settle hs hq _)⟩

/-! ### The start of a step -/

/-- What a step reads does not depend on the round robin. -/
theorem State.readyStep_serve (s : State) (unit pos : Nat) (b : Bool) :
    (s.serve unit pos).readyStep b = s.readyStep b := rfl

theorem State.stepFault_serve (s : State) (unit pos : Nat) (o : Op) (p : StepOp) :
    (s.serve unit pos).stepFault o p = s.stepFault o p := rfl

theorem State.runStep_serve (s : State) (unit pos : Nat) (o : Op) (p : StepOp) (h : StepShape) :
    (s.serve unit pos).runStep o p h = s.runStep o p h := rfl

theorem State.serve_pos (s : State) (unit pos : Nat) :
    (agetD (s.serve unit pos).units unit { pos := 0, left := 0 }).pos = pos := by
  unfold State.serve
  dsimp only
  rw [agetD_aset_self]

theorem State.startStep_fault {s : State} {o : Op} {p : StepOp} {f : Trap} (h : s.stepFault o p = some f) :
    s.startStep o p = s.lateFault o.seq f.1 f.2 := by
  unfold State.startStep
  rw [h]

theorem State.startStep_accError {s : State} {o : Op} {p : StepOp} (h : s.stepFault o p = none)
    (ha : s.core.accBad.getLsbD p.acc.toNat = true) : s.startStep o p = s.accFault o.seq p.acc := by
  unfold State.startStep
  rw [h]
  exact if_pos ha

/-- The core once a step of the operation `q` runs: its operation has started and the tile stands in its shadow
(R311). -/
def Core.stepRuns (c : Core) (q : BitVec 16) (acc : BitVec 2) (r : MtxRun) : Core :=
  { c with
    ops := c.ops.map fun o => if o.seq = q then { o with started := true } else o
    accBad := c.accBad &&& ~~~(BitVec.twoPow 8 (4 + acc.toNat))
    mtx := { c.mtx with shadow := c.mtx.shadow.set acc.toNat (c.mtx.acc.get acc.toFin) acc.isLt, run := some r } }

theorem State.startStep_runs {s : State} {o : Op} {p : StepOp} {h : StepShape} {r : MtxRun}
    (hf : s.stepFault o p = none) (hs : stepShape o.att = .ok h) (hr : s.runStep o p h = some r)
    (ha : s.core.accBad.getLsbD p.acc.toNat = false) : s.startStep o p = s.on (·.stepRuns o.seq p.acc r) := by
  unfold State.startStep
  rw [hf]
  dsimp only
  rw [show s.core.accError p.acc = false from ha, if_neg Bool.false_ne_true, hs]
  dsimp only
  rw [hr]
  rfl

/-- The step that is served next starts, where it is at the core in focus. -/
theorem execTileStepStart_ready {s u : State} {unit pos : Nat} {o : Op} {p : StepOp}
    (hn : s.nextServed unit = some pos) (hc : clusterCore unit pos = s.core.addr.toNat)
    (hr : s.readyStep false = some (o, p)) (he : (s.serve unit pos).startStep o p = u)
    (ha : u.core.addr = s.core.addr) : execTileStepStart unit s = .next u := by
  unfold execTileStepStart
  rw [hn]
  refine congrArg Host.Outcome.next (State.at_eq hc.symm ?_ ha)
  rw [State.readyStep_serve, hr]
  exact he

theorem execStreamedStepReplay_ready {s u : State} {o : Op} {p : StepOp} (hr : s.readyStep true = some (o, p))
    (hp : s.core.mtx.portStopped = false) (he : s.startStep o { p with parked := false } = u)
    (ha : u.core.addr = s.core.addr) : execStreamedStepReplay s.core.addr.toNat s = .next u := by
  unfold execStreamedStepReplay
  refine congrArg Host.Outcome.next (State.at_eq rfl ?_ ha)
  rw [hr]
  dsimp only
  rw [hp]
  exact he

theorem tileStepStarts : TileStepStarts := by
  intro s o p h r hf hs hr ha
  refine ⟨fun unit pos hn hc hready => ?served, fun hready hp hr' => ?replayed⟩
  case served =>
    have he := State.startStep_runs (s := s.serve unit pos) ((s.stepFault_serve unit pos o p).trans hf) hs
      ((s.runStep_serve unit pos o p h).trans hr) ha
    exact ⟨_, execTileStepStart_ready hn hc hready he rfl, rfl, s.serve_pos unit pos⟩
  case replayed =>
    exact execStreamedStepReplay_ready hready hp
      (State.startStep_runs (p := { p with parked := false }) hf hs hr' ha) rfl

/-! ### Steps that do not execute -/

theorem State.stepFault_noShape {s : State} {o : Op} {p : StepOp} {n : Nat} (h : stepShape o.att = .error n) :
    s.stepFault o p = some (Cause.format, n) := by
  unfold State.stepFault
  rw [h]

theorem State.stepFault_format {s : State} {o : Op} {p : StepOp} {h : StepShape} {n : Nat}
    (hs : stepShape o.att = .ok h) (hn : s.core.formatCase o.att p h = some n) :
    s.stepFault o p = some (Cause.format, n) := by
  unfold State.stepFault
  rw [hs]
  dsimp only
  rw [hn]

theorem tileStepFaults : TileStepFaults := by
  intro s unit pos o p hn hc hready hpend hck
  refine ⟨fun f hf => ?fault, fun hf ha => ?acc, fun n h => State.stepFault_noShape h,
    fun h n hs hf => State.stepFault_format hs hf⟩
  case fault =>
    have hend := State.lateFault_ends (s := s.serve unit pos) (q := o.seq) hpend (cause := f.1) (fun _ => hck) f.2
    exact ⟨_, execTileStepStart_ready hn hc hready (State.startStep_fault ((s.stepFault_serve unit pos o p).trans hf))
      hend.addr, hend.1, hend.mtx, hend.regs, hend.mem⟩
  case acc =>
    have hend := State.accFault_ends (s := s.serve unit pos) (q := o.seq) hpend hck p.acc
    have he := State.startStep_accError ((s.stepFault_serve unit pos o p).trans hf) ha
    exact ⟨_, execTileStepStart_ready hn hc hready he hend.addr, hend.1, hend.mtx, hend.mem⟩

/-! ### The end of a run -/

/-- The core in focus ends its run with the mismatches that its matrix unit makes (R393). -/
theorem execTileStepComplete_ends {s u : State} {n : Nat}
    (he : s.stepEnds (if s.unitFails s.core.addr.toNat then 2 else n) = u) (ha : u.core.addr = s.core.addr) :
    execTileStepComplete s.core.addr.toNat n s = .next u :=
  congrArg Host.Outcome.next (State.at_eq rfl he ha)

section Ends

variable {s : State} {r : MtxRun} (hrun : s.core.mtx.run = some r)
include hrun

theorem State.stepEnds_zero : s.stepEnds 0 = s.stepDone r := by
  unfold State.stepEnds
  rw [hrun]
  exact if_pos rfl

theorem State.stepEnds_shadowError (he : s.core.accBad.getLsbD (4 + r.acc.toNat) = true) {n : Nat} (hn : n ≠ 0) :
    s.stepEnds n = (s.on Core.dropRun).accFault r.seq r.acc := by
  unfold State.stepEnds
  rw [hrun]
  exact (if_neg hn).trans (if_pos he)

/-- A mismatch of a run that was repeated is its second one. -/
theorem State.stepEnds_reran (he : s.core.accBad.getLsbD (4 + r.acc.toNat) = false) (hr : r.reran = true) {n : Nat}
    (hn : n ≠ 0) : s.stepEnds n = s.stepFails r := by
  unfold State.stepEnds
  rw [hrun]
  exact (if_neg hn).trans ((if_neg (Bool.eq_false_iff.mp he)).trans (if_pos hr))

end Ends

/-- The core once the tile of a run is restored and the run is repeated (R312). -/
def Core.rerunStep (c : Core) (r : MtxRun) : Core :=
  { c with
    mtx := { c.mtx with
      acc := c.mtx.acc.set r.acc.toNat (c.mtx.shadow.get r.acc.toFin) r.acc.isLt
      run := some { r with reran := true } }
    faults := { c.faults with mtxrerun := satInc c.faults.mtxrerun } }

theorem State.stepEnds_first {s : State} {r : MtxRun} (hrun : s.core.mtx.run = some r)
    (he : s.core.accBad.getLsbD (4 + r.acc.toNat) = false) (hr : r.reran = false) {n : Nat} (hn : n ≠ 0) :
    s.stepEnds n = if n = 1 then s.on (·.rerunStep r) else (s.on (·.rerunStep r)).stepFails r := by
  unfold State.stepEnds
  rw [hrun]
  exact (if_neg hn).trans ((if_neg (Bool.eq_false_iff.mp he)).trans (if_neg (Bool.eq_false_iff.mp hr)))

/-- In `t` the run `r` of `s` has failed: its tile is restored, its port bytes have left and its operation has ended with
MTX_CHECK (R295, R312). -/
def stepFailed (s t : State) (r : MtxRun) : Prop :=
  t.core.addr = s.core.addr ∧ lateFaulted t r.seq (Cause.mtxCheck, r.acc.toNat) ∧
  t.core.mtx = { s.core.mtx with
    acc := s.core.mtx.acc.set r.acc.toNat (s.core.mtx.shadow.get r.acc.toFin) r.acc.isLt
    port := dropPort r.portBytes s.core.mtx.port, run := none } ∧
  t.core.ctl = s.core.ctl ∧ t.core.regs = s.core.regs ∧ t.mem = s.mem

/-- The core as a failing run leaves it before its operation ends. -/
def Core.stopStep (c : Core) (r : MtxRun) : Core :=
  { c with
    mtx := { c.mtx with
      acc := c.mtx.acc.set r.acc.toNat (c.mtx.shadow.get r.acc.toFin) r.acc.isLt
      port := dropPort r.portBytes c.mtx.port, run := none }
    faults := { c.faults with mtxfail := satInc c.faults.mtxfail } }

theorem Core.stopStep_eq (c : Core) (r : MtxRun) :
    (let c1 := (c.restoreAcc r.acc).endRun r
     ({ c1 with faults := { c1.faults with mtxfail := satInc c1.faults.mtxfail } } : Core)) = c.stopStep r := rfl

theorem State.stepFails_eq (s : State) (r : MtxRun) :
    s.stepFails r = (s.on (·.stopStep r)).lateFault r.seq Cause.mtxCheck r.acc.toNat :=
  congrArg (fun f : Core → Core => (s.on f).lateFault r.seq Cause.mtxCheck r.acc.toNat) (funext (Core.stopStep_eq · r))

theorem State.stepFails_ends {s : State} {r : MtxRun} (h : pendingAt s r.seq) :
    endsFaulted (s.on (·.stopStep r)) (s.stepFails r) r.seq (Cause.mtxCheck, r.acc.toNat) := by
  rw [State.stepFails_eq]
  exact State.lateFault_ends (s := s.on (·.stopStep r)) (pendingAt_of_ring h rfl rfl) (cause := Cause.mtxCheck)
    (fun e => absurd e (by decide)) r.acc.toNat

theorem stepFailed_stepFails {s : State} {r : MtxRun} (h : pendingAt s r.seq) : stepFailed s (s.stepFails r) r := by
  have hend := State.stepFails_ends h
  exact ⟨hend.addr, hend.1, hend.mtx, hend.ctl, hend.regs, hend.mem⟩

/-- A run that fails when it is repeated leaves what it leaves at once: the tile is restored from the same shadow. -/
theorem stepFailed_rerun {s : State} {r : MtxRun} (h : pendingAt s r.seq) :
    stepFailed s ((s.on (·.rerunStep r)).stepFails r) r := by
  have hend := State.stepFails_ends (s := s.on (·.rerunStep r)) (pendingAt_of_ring h rfl rfl)
  refine ⟨hend.addr, hend.1, ?_, hend.ctl, hend.regs, hend.mem⟩
  rw [hend.mtx]
  exact congrArg (fun v => { s.core.mtx with acc := v, port := dropPort r.portBytes s.core.mtx.port, run := none })
    (Vector.set_set _ r.acc.isLt)

theorem stepFailed_twice {s : State} {r : MtxRun} (hrun : s.core.mtx.run = some r) (h : pendingAt s r.seq)
    (he : s.core.accBad.getLsbD (4 + r.acc.toNat) = false) : stepFailed s (s.stepEnds 2) r := by
  by_cases hr : r.reran = true
  · rw [State.stepEnds_reran hrun he hr (by decide)]
    exact stepFailed_stepFails h
  · rw [State.stepEnds_first hrun he (Bool.eq_false_iff.mpr hr) (by decide), if_neg (by decide)]
    exact stepFailed_rerun h

theorem satInc_eq_toNat (x : BitVec 32) : satInc x = if x.toNat = 2 ^ 32 - 1 then x else x + 1 := by
  have h : x = BitVec.allOnes 32 ↔ x.toNat = 2 ^ 32 - 1 := by
    rw [← BitVec.toNat_inj, BitVec.toNat_allOnes]
  unfold satInc
  exact if_congr h rfl rfl

/-- The core with the result of a run written and its operands kept (R307, R311). -/
def Core.writeResult (c : Core) (r : MtxRun) : Core :=
  { c with
    mtx := { c.mtx with
      acc := c.mtx.acc.set r.acc.toNat r.result r.acc.isLt
      port := dropPort r.portBytes c.mtx.port, run := none, bufA := r.bufA, bufB := r.bufB }
    accBad := c.accBad &&& ~~~(BitVec.twoPow 8 r.acc.toNat) }

theorem Core.writeResult_eq (c : Core) (r : MtxRun) :
    (let c1 := ((c.setAcc r.acc r.result).accClean r.acc).endRun r
     ({ c1 with mtx := { c1.mtx with bufA := r.bufA, bufB := r.bufB } } : Core)) = c.writeResult r := rfl

theorem State.stepDone_eq (s : State) (r : MtxRun) :
    s.stepDone r = ((s.on (·.writeResult r)).setFlags r.flags).opDone r.seq :=
  congrArg (fun f : Core → Core => ((s.on f).setFlags r.flags).opDone r.seq) (funext (Core.writeResult_eq · r))

/-- An operation that is done leaves all but the ring and the operations. -/
theorem State.opDone_frame {s : State} {q : BitVec 16} (h : pendingAt s q) :
    ∃ ring ops, s.opDone q = { s with core := { s.core with ring := ring, ops := ops } } := by
  obtain ⟨ring, ops, e⟩ := Core.settle_eq s.core q fun e => { e with state := .done }
  exact ⟨ring, ops, (State.opDone_eq h).trans (congrArg (fun c : Core => { s with core := c }) e)⟩

/-- A run whose mismatches fail it completes so at the core in focus. -/
theorem execTileStepComplete_failed {s : State} {r : MtxRun} {n : Nat}
    (h : stepFailed s (s.stepEnds (if s.unitFails s.core.addr.toNat then 2 else n)) r) :
    ∃ t, execTileStepComplete s.core.addr.toNat n s = .next t ∧ lateFaulted t r.seq (Cause.mtxCheck, r.acc.toNat) ∧
      t.core.mtx = { s.core.mtx with
        acc := s.core.mtx.acc.set r.acc.toNat (s.core.mtx.shadow.get r.acc.toFin) r.acc.isLt
        port := dropPort r.portBytes s.core.mtx.port, run := none } ∧
      t.core.ctl = s.core.ctl ∧ t.core.regs = s.core.regs ∧ t.mem = s.mem :=
  ⟨_, execTileStepComplete_ends rfl h.1, h.2⟩

/-- Without a mismatch the tile, the operands and the flags are written and the operation is done (R307, R311). -/
theorem State.stepDone_done {s : State} {r : MtxRun} (h : pendingAt s r.seq) :
    doneAt (s.stepDone r) r.seq ∧ ∃ ring ops, s.stepDone r =
      { s with core := { s.core.writeResult r with
        ctl := { s.core.ctl with fstat := s.core.ctl.fstat ||| r.flags }, ring := ring, ops := ops } } := by
  have hw : pendingAt ((s.on (·.writeResult r)).setFlags r.flags) r.seq := pendingAt_of_ring h rfl rfl
  rw [State.stepDone_eq]
  exact ⟨doneAt_opDone hw, State.opDone_frame hw⟩

/-- An uncorrectable error in the shadow ends the run with UNCORR; the port keeps its bytes (R295, R379). -/
theorem State.stepEnds_shadow_ends {s : State} {r : MtxRun} (hrun : s.core.mtx.run = some r) (h : pendingAt s r.seq)
    (he : s.core.accBad.getLsbD (4 + r.acc.toNat) = true) (hck : s.core.ctl.status.ckpt = false) {n : Nat}
    (hn : n ≠ 0) : endsFaulted (s.on Core.dropRun) (s.stepEnds n) r.seq (Cause.uncorr, 0x100 + r.acc.toNat) := by
  rw [State.stepEnds_shadowError hrun he hn]
  exact State.accFault_ends (s := s.on Core.dropRun) (pendingAt_of_ring h rfl rfl) hck r.acc

theorem tileStepEnds : TileStepEnds := by
  intro s r hrun hp
  refine ⟨fun hu he n => ?unitFails, fun hu => ?_⟩
  case unitFails =>
    refine execTileStepComplete_failed ?_
    rw [if_pos hu]
    exact stepFailed_twice hrun hp he
  have hends : ∀ n, s.stepEnds (if s.unitFails s.core.addr.toNat then 2 else n) = s.stepEnds n := fun n => by
    rw [hu, if_neg Bool.false_ne_true]
  refine ⟨?done, fun he hr => ?rerun, fun he hr => ?second, fun he hr => ?both, fun he hck n hn => ?shadow⟩
  case done =>
    obtain ⟨hdone, ring, ops, e⟩ := State.stepDone_done hp
    refine ⟨_, execTileStepComplete_ends ((hends 0).trans (State.stepEnds_zero hrun)) (by rw [e]; rfl), hdone, ?_⟩
    rw [e]
    exact ⟨rfl, rfl, rfl, rfl⟩
  case rerun =>
    rw [← satInc_eq_toNat]
    exact execTileStepComplete_ends ((hends 1).trans ((State.stepEnds_first hrun he hr (by decide)).trans (if_pos rfl)))
      rfl
  case second =>
    refine execTileStepComplete_failed ?_
    rw [hends, State.stepEnds_reran hrun he hr (by decide)]
    exact stepFailed_stepFails hp
  case both =>
    refine execTileStepComplete_failed ?_
    rw [hends]
    exact stepFailed_twice hrun hp he
  case shadow =>
    have hn0 : n ≠ 0 := by omega
    have hend := State.stepEnds_shadow_ends hrun hp he hck hn0
    exact ⟨_, execTileStepComplete_ends (hends n) hend.addr, hend.1, (congrArg Mtx.run hend.mtx :),
      (congrArg Mtx.port hend.mtx :), hend.regs⟩

/-- Settles O34: which step starts, how it faults and how its run ends. -/
theorem tileSteps : Obligations.TileSteps := ⟨tileStepStarts, tileStepFaults, tileStepEnds⟩

end Sys2Proof.Machine
end

section

/-! ## Matrix operations other than steps (R53, R310, R342, R343, R379) -/

namespace Sys2Proof.Machine

open Sys2Proof.Claims

/-! ### Reads and writes of an engine -/

/-- Bytes without an uncorrectable error read without one (R379). -/
theorem State.readError_of_intact {s : State} {a n : Nat} (h : intact s a n) : s.readError a n = none := by
  obtain ⟨hp, hb⟩ := Bool.or_eq_false_iff.mp h
  have hnone : s.poisonIn (s.core.localKey a) n = [] := by
    unfold State.poisonIn
    refine List.append_eq_nil_iff.mpr ⟨List.map_eq_nil_iff.mpr (List.filter_eq_nil_iff.mpr ?_), ?_⟩
    · exact List.any_eq_false.mp hp
    · split
      · rename_i ha
        rw [State.brokenHit, ha, Bool.true_and, List.any_eq_false] at hb
        exact List.map_eq_nil_iff.mpr (List.filter_eq_nil_iff.mpr hb)
      · rfl
  unfold State.readError State.poisonAt
  rw [hnone]
  rfl

theorem State.engineRead_intact {s : State} {a n : Nat} (h : intact s a n) (q : BitVec 16) (k : List Byte → State) :
    s.engineRead q a n k = k (s.localBytes a n) := by
  unfold State.engineRead
  rw [State.readError_of_intact h]

theorem State.engineRead_error {s : State} {a n b : Nat} (h : s.readError a n = some b) (q : BitVec 16)
    (k : List Byte → State) : s.engineRead q a n k = s.lateFault q Cause.uncorr b := by
  unfold State.engineRead
  rw [h]

/-- The undo log of a team member lies in its area (R372). -/
theorem State.logBlocks_byte {k : Nat} (l : List Nat) (s : State) (hc : s.core.ctl.status.ckpt = true)
    (hk : ¬ inUndo s k) : (s.logBlocks l).mem.byte k = s.mem.byte k := by
  induction l generalizing s with
  | nil => rfl
  | cons b r ih =>
    unfold State.logBlocks
    split
    · dsimp only
      split
      · rename_i hfit
        refine (ih _ (by exact hc) (by exact hk)).trans (Memory.byte_writeBytes_out _ _ _ fun i hi e => hk ⟨hc, ?_⟩)
        rw [List.length_append, natLe_length, State.localBytes, Memory.bytes_length] at hi
        rw [Core.localKey_add] at e
        omega
      · exact ih _ hc hk
    · exact ih s hc hk

theorem State.logWrite_byte (s : State) (a n : Nat) {k : Nat} (hk : ¬ inUndo s k) :
    (s.logWrite a n).mem.byte k = s.mem.byte k := by
  unfold State.logWrite
  split
  · rename_i hc
    exact State.logBlocks_byte _ s hc hk
  · rfl

/-- A local write changes the bytes that it names and the undo area alone (R33, R372). -/
theorem State.localWriteBytes_byte_out (s : State) (a : Nat) (xs : List Byte) {k : Nat}
    (ho : ∀ j, j < xs.length → k ≠ s.core.localKey (a + j)) (hk : ¬ inUndo s k) :
    (s.localWriteBytes a xs).mem.byte k = s.mem.byte k := by
  obtain ⟨t, ht⟩ := s.logWrite_core a xs.length
  have hkey : (s.logWrite a xs.length).core.localKey a = s.core.localKey a := by rw [ht]; rfl
  refine (Memory.byte_writeBytes_out _ _ xs fun j hj => ?_).trans (s.logWrite_byte a xs.length hk)
  rw [hkey, ← Core.localKey_add]
  exact ho j hj

/-- In `t` the bytes `ys` stand from local address `a` up; every byte outside them and outside the undo area is that of
`s`. -/
def bytesStored (s t : State) (a : Nat) (ys : List Byte) : Prop :=
  (∀ k, k < ys.length → byteAt t (a + k) = (ys.getD k 0).toNat) ∧
  ∀ k, (∀ j, j < ys.length → k ≠ s.core.localKey (a + j)) → ¬ inUndo s k → t.mem.byte k = s.mem.byte k

theorem bytesStored_localWriteBytes (s : State) (a : Nat) (ys : List Byte) :
    bytesStored s (s.localWriteBytes a ys) a ys := by
  obtain ⟨⟨w, t, hcore⟩, hin⟩ := s.localWriteBytes_spec a ys
  refine ⟨fun k hk => congrArg BitVec.toNat ?_, fun k => s.localWriteBytes_byte_out a ys⟩
  have hkey : (s.localWriteBytes a ys).core.localKey (a + k) = s.core.localKey a + k := by
    rw [hcore, ← Core.localKey_add]
    rfl
  rw [hkey]
  exact hin k hk

/-! ### The operation at the head of its queue -/

/-- The first operation of the queue, which no earlier one holds back, is performed. -/
theorem exec_matrixOperationPerform {s u : State} {o : Op} (hh : s.core.matrixHead = some o)
    (hb : s.core.blocked o = false) (he : s.performMatrix o = u) (ha : u.core.addr = s.core.addr) :
    exec (.matrixOperationPerform s.core.addr.toNat) s = .next u := by
  refine congrArg Host.Outcome.next (State.at_eq rfl ?_ ha)
  unfold State.matrixPerform
  rw [hh]
  exact (if_neg (Bool.eq_false_iff.mp hb)).trans he

/-- An operation that was pending before some change, which left the ring, is done after it. -/
theorem State.opDone_after {s u : State} {q : BitVec 16} (h : pendingAt s q) (hr : u.core.ring = s.core.ring)
    (hb : u.core.ringBad = s.core.ringBad) :
    doneAt (u.opDone q) q ∧ ∃ ring ops, u.opDone q = { u with core := { u.core with ring := ring, ops := ops } } :=
  ⟨doneAt_opDone (pendingAt_of_ring h hr hb), State.opDone_frame (pendingAt_of_ring h hr hb)⟩

/-- The state with tile `n` written: an error that stood there is gone (R379). -/
def State.writeTile (s : State) (n : BitVec 2) (y : Tile) : State := s.on fun c => (c.setAcc n y).accClean n

/-- In `t` the operation `q` of `s` has ended without a fault and tile `n` is `y`. -/
def tileSet (s t : State) (q : BitVec 16) (n : BitVec 2) (y : Tile) : Prop :=
  doneAt t q ∧ t.core.mtx = { s.core.mtx with acc := s.core.mtx.acc.set n.toNat y n.isLt } ∧
    t.core.ctl = s.core.ctl ∧ t.core.regs = s.core.regs ∧ t.mem = s.mem

theorem exec_writeTile {s : State} {o : Op} {n : BitVec 2} {y : Tile} (hh : s.core.matrixHead = some o)
    (hb : s.core.blocked o = false) (hp : pendingAt s o.seq)
    (he : s.performMatrix o = (s.writeTile n y).opDone o.seq) :
    ∃ t, exec (.matrixOperationPerform s.core.addr.toNat) s = .next t ∧ tileSet s t o.seq n y := by
  obtain ⟨hd, ring, ops, e⟩ := State.opDone_after (u := s.writeTile n y) hp rfl rfl
  refine ⟨_, exec_matrixOperationPerform hh hb he (by rw [e]; rfl), hd, ?_⟩
  rw [e]
  exact ⟨rfl, rfl, rfl, rfl⟩

/-- In `t` the operation `q` of `s` has ended without a fault, its bytes are stored and its flags raised. -/
def resultStored (s t : State) (q : BitVec 16) (a : Nat) (ys : List Byte) (fl : BitVec 6) : Prop :=
  t.core.ctl = { s.core.ctl with fstat := s.core.ctl.fstat ||| fl } ∧ doneAt t q ∧ t.core.mtx = s.core.mtx ∧
    t.core.regs = s.core.regs ∧ bytesStored s t a ys

theorem State.resultBytes_running {s : State} (h : s.core.run ≠ .cancelled) (a : Nat) (xs : List Byte) :
    s.resultBytes a xs = s.localWriteBytes a xs := by
  unfold State.resultBytes State.discards
  rw [if_neg (by simpa using h)]

theorem State.setFlags_zero (s : State) : s.setFlags 0 = s :=
  congrArg (fun f => { s with core := { s.core with ctl := { s.core.ctl with fstat := f } } }) (BitVec.or_zero (x := _))

/-- The result of an operation is stored, whatever flags it raises. -/
theorem exec_storeResult {s : State} {o : Op} {a : Nat} {ys : List Byte} {fl : BitVec 6}
    (hh : s.core.matrixHead = some o) (hb : s.core.blocked o = false) (hp : pendingAt s o.seq)
    (hr : s.core.run ≠ .cancelled) (he : s.performMatrix o = ((s.resultBytes a ys).setFlags fl).opDone o.seq) :
    ∃ t, exec (.matrixOperationPerform s.core.addr.toNat) s = .next t ∧ resultStored s t o.seq a ys fl := by
  rw [State.resultBytes_running hr] at he
  obtain ⟨⟨w, tm, hcore⟩, -⟩ := s.localWriteBytes_spec a ys
  obtain ⟨hin, hout⟩ := bytesStored_localWriteBytes s a ys
  have hu : ((s.localWriteBytes a ys).setFlags fl).core = { s.core with
      wbits := w, team := tm, ctl := { s.core.ctl with fstat := s.core.ctl.fstat ||| fl } } := by
    rw [State.setFlags, State.on_core, hcore]
    rfl
  obtain ⟨hd, ring, ops, e⟩ :=
    State.opDone_after (u := (s.localWriteBytes a ys).setFlags fl) hp (by rw [hu]) (by rw [hu])
  refine ⟨_, exec_matrixOperationPerform hh hb he (by rw [e, hu]), by rw [e, hu], hd, by rw [e, hu], by rw [e, hu], ?_⟩
  rw [e]
  exact ⟨hin, hout⟩

/-- An operation of an accumulator with an uncorrectable error ends with its late fault (R379). -/
theorem exec_accFault {s : State} {o : Op} {n : BitVec 2} (hh : s.core.matrixHead = some o)
    (hb : s.core.blocked o = false) (hp : pendingAt s o.seq) (hck : s.core.ctl.status.ckpt = false)
    (he : s.performMatrix o = s.accFault o.seq n) :
    ∃ t, exec (.matrixOperationPerform s.core.addr.toNat) s = .next t ∧
      lateFaulted t o.seq (Cause.uncorr, 0x100 + n.toNat) ∧ t.mem = s.mem ∧ t.core.ctl = s.core.ctl := by
  have hend := State.accFault_ends hp hck n
  exact ⟨_, exec_matrixOperationPerform hh hb he hend.addr, hend.1, hend.mem, hend.ctl⟩

/-! ### Each operation -/

theorem State.performMatrix_mzero {s : State} {o : Op} {n : BitVec 2} (h : o.body = .mzero n) :
    s.performMatrix o = (s.writeTile n 0).opDone o.seq := by
  unfold State.performMatrix
  rw [h]
  rfl

theorem State.performMatrix_mlda {s : State} {o : Op} {n : BitVec 2} {a : Nat} (h : o.body = .mlda n a)
    (hi : intact s a 1024) :
    s.performMatrix o = (s.writeTile n (BitVec.ofNat 8192 (Claims.readAt s a 1024))).opDone o.seq := by
  unfold State.performMatrix
  rw [h]
  refine (State.engineRead_intact hi _ _).trans ?_
  rw [← State.localRead_eq_readAt]
  rfl

theorem State.performMatrix_mlda_error {s : State} {o : Op} {n : BitVec 2} {a b : Nat} (h : o.body = .mlda n a)
    (he : s.readError a 1024 = some b) : s.performMatrix o = s.lateFault o.seq Cause.uncorr b := by
  unfold State.performMatrix
  rw [h]
  exact State.engineRead_error he _ _

/-- Storing a tile raises no flag. -/
theorem State.performMatrix_msta {s : State} {o : Op} {n : BitVec 2} {a : Nat} (h : o.body = .msta n a)
    (hn : s.core.accError n = false) :
    s.performMatrix o = ((s.resultBytes a (natLe 1024 (s.core.accTile n).toNat)).setFlags 0).opDone o.seq := by
  unfold State.performMatrix
  rw [h, State.setFlags_zero]
  exact if_neg (Bool.eq_false_iff.mp hn)

theorem State.performMatrix_mfmt {s : State} {o : Op} {n src rm : BitVec 2} {dst : BitVec 4} {a : Nat}
    (h : o.body = .mfmt n src rm dst a) (hn : s.core.accError n = false) :
    let y := mfmtTile (s.core.accTile n) src dst (rm.setWidth 3) o.att.topx
    s.performMatrix o = ((s.resultBytes a y.1).setFlags y.2).opDone o.seq := by
  unfold State.performMatrix
  rw [h]
  exact if_neg (Bool.eq_false_iff.mp hn)

/-- An operation that reads an accumulator with an uncorrectable error stores nothing. -/
theorem State.performMatrix_accError {s : State} {o : Op} {n : BitVec 2} {a : Nat}
    (h : o.body = .msta n a ∨ ∃ src rm dst, o.body = .mfmt n src rm dst a) (hn : s.core.accError n = true) :
    s.performMatrix o = s.accFault o.seq n := by
  unfold State.performMatrix
  rcases h with h | ⟨src, rm, dst, h⟩
  · rw [h]
    exact if_pos hn
  · rw [h]
    exact if_pos hn

theorem State.performMatrix_mcbld_used {s : State} {o : Op} {a n : Nat} (h : o.body = .mcbld a n)
    (hu : s.tableInUse (unitOf s.core.addr.toNat) n = true) : s.performMatrix o = s := by
  unfold State.performMatrix
  rw [h]
  exact if_pos hu

/-- The state with codebook table `n` of the cluster of the core in focus set from the bytes from `a` up (R53). -/
def State.loadTable (s : State) (a n : Nat) : State :=
  s.withMem (·.writeBytes (keyBook (unitOf s.core.addr.toNat) (n * 2048)) (s.localBytes a 2048))

theorem State.performMatrix_mcbld {s : State} {o : Op} {a n : Nat} (h : o.body = .mcbld a n)
    (hi : intact s a 2048) (hu : s.tableInUse (unitOf s.core.addr.toNat) n = false) :
    s.performMatrix o = (s.loadTable a n).opDone o.seq := by
  unfold State.performMatrix
  rw [h]
  exact (if_neg (Bool.eq_false_iff.mp hu)).trans (State.engineRead_intact hi _ _)

theorem keyBook_add (u a k : Nat) : keyBook u (a + k) = keyBook u a + k := by
  unfold keyBook
  omega

theorem State.loadTable_byte_in (s : State) (a n : Nat) {k : Nat} (hk : k < 2048) :
    (s.loadTable a n).tableByte (unitOf s.core.addr.toNat) n k = s.mem.byte (s.core.localKey (a + k)) := by
  have hlen : (s.localBytes a 2048).length = 2048 := Memory.bytes_length _ _ _
  rw [State.tableByte, keyBook_add, State.loadTable, State.withMem_mem,
    Memory.byte_writeBytes_in _ _ _ (hlen.symm ▸ hk), State.localBytes, Memory.bytes_getD _ _ hk, Core.localKey_add]

theorem State.loadTable_byte_out (s : State) (a n : Nat) {k : Nat}
    (h : ∀ j, j < 2048 → k ≠ keyBook (unitOf s.core.addr.toNat) (n * 2048 + j)) :
    (s.loadTable a n).mem.byte k = s.mem.byte k := by
  refine Memory.byte_writeBytes_out _ _ _ fun j hj => ?_
  rw [← keyBook_add]
  exact h j (hj.trans_eq (Memory.bytes_length _ _ _))

/-- Settles O35: what each operation at the head of its queue leaves. -/
theorem matrixOperations : Obligations.MatrixOperations := by
  intro s o hh hb hp
  refine ⟨fun n h => ?mzero, fun n a h => ⟨fun hi => ?mlda, fun hck b he => ?mldaError⟩, fun n a h hn hr => ?msta,
    fun n src rm dst a h hn hr => ?mfmt, fun n a h hn hck => ?accError, fun a n h hu => ?tableInUse,
    fun a n h hi hu => ?mcbld⟩
  case mzero => exact exec_writeTile hh hb hp (State.performMatrix_mzero h)
  case mlda => exact exec_writeTile hh hb hp (State.performMatrix_mlda h hi)
  case mldaError =>
    have hend := State.lateFault_ends hp (cause := Cause.uncorr) (fun _ => hck) b
    exact ⟨_, exec_matrixOperationPerform hh hb (State.performMatrix_mlda_error h he) hend.addr, hend.1, hend.mtx⟩
  case msta =>
    obtain ⟨t, ht, hctl, hstored⟩ :=
      exec_storeResult hh hb hp hr (State.performMatrix_msta h ((Bool.not_eq_true' _).mp hn))
    exact ⟨t, ht, hctl.trans (congrArg (fun f => { s.core.ctl with fstat := f }) (BitVec.or_zero (x := _))), hstored⟩
  case mfmt => exact exec_storeResult hh hb hp hr (State.performMatrix_mfmt h ((Bool.not_eq_true' _).mp hn))
  case accError =>
    exact exec_accFault hh hb hp hck (State.performMatrix_accError h ((Bool.not_eq_false' _).mp hn))
  case tableInUse => exact exec_matrixOperationPerform hh hb (State.performMatrix_mcbld_used h hu) rfl
  case mcbld =>
    obtain ⟨hd, ring, ops, e⟩ := State.opDone_after (u := s.loadTable a n) hp rfl rfl
    refine ⟨_, exec_matrixOperationPerform hh hb (State.performMatrix_mcbld h hi hu) (by rw [e]; rfl), hd, ?_⟩
    rw [e]
    exact ⟨rfl, rfl, fun k hk => ⟨rfl, s.loadTable_byte_in a n hk⟩, fun k => s.loadTable_byte_out a n⟩

end Sys2Proof.Machine
end

section

/-! ## Elements that are rounded one after the other (R46 to R49, R123, R124) -/

namespace Sys2Proof.Machine

open Sys2Proof.Claims

/-! ### Codes laid side by side (R40, R122) -/

theorem packCodes_lane (w : Nat) (cs : List Nat) (k : Nat) :
    packCodes w cs / 2 ^ (w * k) % 2 ^ w = cs.getD k 0 % 2 ^ w := by
  induction cs generalizing k with
  | nil => simp [packCodes]
  | cons c cs ih =>
    cases k with
    | zero => simp [packCodes]
    | succ k =>
      rw [packCodes, Nat.mul_succ, Nat.add_comm (w * k), pow_add, ← Nat.div_div_eq_div_mul,
        Nat.add_mul_div_left _ _ (Nat.two_pow_pos w), Nat.div_eq_of_lt (Nat.mod_lt c (Nat.two_pow_pos w)), Nat.zero_add, ih,
        List.getD_cons_succ]

theorem packCodes_lt (w : Nat) (cs : List Nat) : packCodes w cs < 2 ^ (w * cs.length) := by
  induction cs with
  | nil => exact Nat.two_pow_pos _
  | cons c cs ih =>
    rw [packCodes, List.length_cons, Nat.mul_succ, Nat.add_comm (w * cs.length), pow_add]
    have hc := Nat.mod_lt c (Nat.two_pow_pos w)
    calc c % 2 ^ w + 2 ^ w * packCodes w cs < 2 ^ w * (packCodes w cs + 1) := by rw [Nat.mul_succ]; omega
      _ ≤ 2 ^ w * 2 ^ (w * cs.length) := Nat.mul_le_mul_left _ ih

/-- An element below bit `n` is one of the low `n` bits. -/
theorem toNat_ofNat_element (x : Nat) {w k n : Nat} (h : w * (k + 1) ≤ n) :
    (BitVec.ofNat n x).toNat / 2 ^ (w * k) % 2 ^ w = x / 2 ^ (w * k) % 2 ^ w := by
  obtain ⟨r, rfl⟩ := Nat.exists_eq_add_of_le h
  rw [BitVec.toNat_ofNat, Nat.mul_succ, pow_add, pow_add, Nat.mul_assoc, Nat.mod_mul_right_div_self,
    Nat.mod_mul_right_mod]

/-- An element that lies in the register is read as it was written. -/
theorem lane_ofNat (x : Nat) {w k : Nat} (h : w * (k + 1) ≤ 512) :
    lane (BitVec.ofNat 512 x) w k = x / 2 ^ (w * k) % 2 ^ w := toNat_ofNat_element x h

theorem lane_ofEls (cs : List Nat) {w k : Nat} (h : w * (k + 1) ≤ 512) : lane (ofEls w cs) w k = cs.getD k 0 % 2 ^ w :=
  (lane_ofNat _ h).trans (packCodes_lane w cs k)

theorem lane_in_register {w k : Nat} (h : k < 512 / w) : w * (k + 1) ≤ 512 :=
  (Nat.mul_le_mul_left w h).trans (Nat.mul_div_le 512 w)

theorem lane_lt (x : VReg) (w k : Nat) : lane x w k < 2 ^ w := Nat.mod_lt _ (Nat.two_pow_pos w)

/-! ### The codes of a format (R38, R41, R44) -/

theorem Fmt.two_pow_width (f : Fmt) : 2 ^ f.width = 2 * 2 ^ (f.e + f.m) := by
  rw [Fmt.width, Nat.add_assoc, Nat.add_comm, pow_succ, Nat.mul_comm]

theorem Fmt.signed_lt (f : Fmt) (neg : Bool) {c : Nat} (h : c < 2 ^ (f.e + f.m)) : f.signed neg c < 2 ^ f.width := by
  have hw := f.two_pow_width
  unfold Fmt.signed
  split <;> omega

/-- The codes below the top exponent leave room for the fraction. -/
theorem Fmt.topExponent (f : Fmt) : (2 ^ f.e - 1) * 2 ^ f.m + 2 ^ f.m = 2 ^ (f.e + f.m) := by
  rw [← Nat.succ_mul, Nat.succ_eq_add_one, Nat.sub_add_cancel Nat.one_le_two_pow, pow_add]

theorem Fmt.maxCode_lt (f : Fmt) : f.maxCode < 2 ^ (f.e + f.m) := by
  have h := f.topExponent
  have hm := Nat.two_pow_pos f.m
  unfold Fmt.maxCode
  split <;> omega

theorem Fmt.infCode_lt (f : Fmt) (neg : Bool) : f.infCode neg < 2 ^ f.width := by
  refine f.signed_lt neg ?_
  have h := f.topExponent
  have hm := Nat.two_pow_pos f.m
  omega

theorem Fmt.nanCode_lt (f : Fmt) : f.nanCode < 2 ^ f.width := by
  have h := f.topExponent
  have hm : 2 ^ (f.m - 1) ≤ 2 ^ f.m := Nat.pow_le_pow_right (by decide) (Nat.sub_le _ _)
  have hw := f.two_pow_width
  have hpos := Nat.two_pow_pos (f.e + f.m)
  unfold Fmt.nanCode
  omega

theorem Fmt.overflow_lt (f : Fmt) (rm : BitVec 3) (neg : Bool) : f.overflow rm neg < 2 ^ f.width := by
  have hmax := f.signed_lt neg f.maxCode_lt
  have hinf := f.infCode_lt neg
  unfold Fmt.overflow
  split
  · exact hmax
  · split
    · exact hmax
    · split <;> assumption
    · split <;> assumption
    · exact hinf

/-- What `RoundToFormat` returns is a code of its format (R44). -/
theorem Fmt.round_lt (f : Fmt) (rm : BitVec 3) (draw : Nat) (x : XVal) : (f.round rm draw x).1 < 2 ^ f.width := by
  cases x with
  | nan =>
    unfold Fmt.round
    dsimp only
    split
    · exact f.nanCode_lt
    · exact Nat.two_pow_pos _
  | inf neg =>
    unfold Fmt.round
    dsimp only
    split
    · exact f.infCode_lt neg
    · exact f.signed_lt neg f.maxCode_lt
  | fin neg m =>
    unfold Fmt.round
    dsimp only
    split
    · exact f.signed_lt neg (Nat.two_pow_pos _)
    · split
      · exact f.overflow_lt rm neg
      · rename_i h
        exact f.signed_lt neg ((Nat.le_of_not_lt h).trans_lt f.maxCode_lt)

theorem rounded_lt (f : Fmt) (rm : BitVec 3) (draw : Nat) (x : XRes) : (rounded f rm draw x).1 < 2 ^ f.width :=
  f.round_lt rm draw x.1

/-! ### The draws of an instruction (R47, R48) -/

theorem seedAfter_add (m n : Nat) (x : Word) : seedAfter (m + n) x = seedAfter n (seedAfter m x) := by
  induction m generalizing x with
  | zero => rw [Nat.zero_add]; rfl
  | succ m ih => rw [Nat.succ_add]; exact ih _

/-- The generator after `n` roundings under a mode: only SR draws (R47). -/
def seedPast (rm : BitVec 3) (n : Nat) (x : Word) : Word := if rm = rmSR then seedAfter n x else x

theorem seedPast_add (rm : BitVec 3) (m n : Nat) (x : Word) :
    seedPast rm (m + n) x = seedPast rm n (seedPast rm m x) := by
  unfold seedPast
  split
  · exact seedAfter_add m n x
  · rfl

/-- The draw that comes after `n` others, and the generator past it. -/
theorem Rnd.draw_seedPast (s : State) (rm : BitVec 3) (n : Nat) (fl : BitVec 6) :
    (Rnd.draw { seed := seedPast rm n s.core.ctl.srseed, flags := fl } rm) =
      (drawAt s rm n, { seed := seedPast rm (n + 1) s.core.ctl.srseed, flags := fl }) := by
  rw [seedPast_add]
  unfold Rnd.draw drawAt seedPast
  by_cases h : rm = rmSR
  · simp only [if_pos h]
    rfl
  · simp only [if_neg h]

/-! ### A run of elements -/

section Elements

variable (on : Nat → Bool) (old : Nat → Nat) (f : Nat → Rnd → Nat × Rnd)

theorem rndEls_append (l l' : List Nat) (r : Rnd) :
    rndEls on old f (l ++ l') r = ((rndEls on old f l r).1 ++ (rndEls on old f l' (rndEls on old f l r).2).1,
      (rndEls on old f l' (rndEls on old f l r).2).2) := by
  induction l generalizing r with
  | nil => rfl
  | cons i l ih =>
    simp only [List.cons_append, rndEls, ih]

theorem rndEls_singleton (i : Nat) (r : Rnd) :
    rndEls on old f [i] r = if on i then ([(f i r).1], (f i r).2) else ([old i], r) := by
  simp only [rndEls]
  split <;> rfl

end Elements

/-- The flags that the active ones of the elements below `n` raise (R46). -/
def flagsBelow (on : Nat → Bool) (x : Nat → Nat × BitVec 6) : Nat → BitVec 6
  | 0 => 0
  | n + 1 => if on n then flagsBelow on x n ||| (x n).2 else flagsBelow on x n

theorem flagsBelow_getLsbD (on : Nat → Bool) (x : Nat → Nat × BitVec 6) (n b : Nat) :
    (flagsBelow on x n).getLsbD b = true ↔ ∃ k, k < n ∧ on k = true ∧ (x k).2.getLsbD b = true := by
  induction n with
  | zero => simp [flagsBelow]
  | succ n ih =>
    have hsplit : (∃ k, k < n + 1 ∧ on k = true ∧ (x k).2.getLsbD b = true) ↔
        (∃ k, k < n ∧ on k = true ∧ (x k).2.getLsbD b = true) ∨ on n = true ∧ (x n).2.getLsbD b = true := by
      simp only [Nat.lt_succ_iff_lt_or_eq, or_and_right, exists_or, exists_eq_left]
    rw [hsplit, ← ih, flagsBelow]
    split
    · rename_i h
      rw [BitVec.getLsbD_or, Bool.or_eq_true, h]
      simp only [true_and]
    · rename_i h
      simp only [h, Bool.false_eq_true, false_and, or_false]

/-- Element `k` of an instruction, with the draw that it takes after the active ones below it (R49). -/
def drawn (s : State) (on : Nat → Bool) (mode : BitVec 3) (res : Nat → Nat → Nat × BitVec 6) (k : Nat) :
    Nat × BitVec 6 := res (drawAt s mode ((List.range k).countP on)) k

/-- Each element takes one draw under a mode, and then raises its flags. -/
def drawsOnce (f : Nat → Rnd → Nat × Rnd) (mode : BitVec 3) (res : Nat → Nat → Nat × BitVec 6) : Prop :=
  ∀ k r, f k r = ((res (r.draw mode).1 k).1, (r.draw mode).2.raise (res (r.draw mode).1 k).2)

/-- The elements of an instruction in increasing index, what they raise and where they leave the generator. -/
theorem rndEls_range {s : State} {on : Nat → Bool} {old : Nat → Nat} {f : Nat → Rnd → Nat × Rnd} {mode : BitVec 3}
    {res : Nat → Nat → Nat × BitVec 6} (hf : drawsOnce f mode res) (n : Nat) :
    rndEls on old f (List.range n) s.rnd =
      ((List.range n).map fun k => if on k then (drawn s on mode res k).1 else old k,
       { seed := seedPast mode ((List.range n).countP on) s.core.ctl.srseed
         flags := flagsBelow on (drawn s on mode res) n }) := by
  induction n with
  | zero => simp [rndEls, State.rnd, seedPast, seedAfter, flagsBelow]
  | succ n ih =>
    rw [List.range_succ, rndEls_append, ih, rndEls_singleton, hf, Rnd.draw_seedPast, List.map_append, List.countP_append,
      List.countP_singleton, flagsBelow]
    by_cases h : on n = true
    · simp only [h, if_true, List.map_cons, List.map_nil]
      rfl
    · simp only [h, if_false, List.map_cons, List.map_nil, Nat.add_zero, Bool.false_eq_true]

/-! ### The instructions -/

/-- `VCheck` of the model is the limit of the statements. -/
theorem State.vcheck_eq (s : State) (l : List (BitVec 5)) :
    s.vcheck l = (overLimit s l).map fun r => (Cause.limit, r.toNat) := by
  unfold overLimit
  induction l with
  | nil => unfold State.vcheck; split <;> rfl
  | cons i r ih =>
    unfold State.vcheck
    by_cases hp : s.priv = true
    · simp only [hp, Bool.not_true, Bool.false_and, Bool.false_eq_true, if_false, if_true] at ih ⊢
      exact ih
    · simp only [Bool.eq_false_iff.mpr hp, Bool.not_false, Bool.true_and, Bool.false_eq_true, if_false,
        List.find?_cons] at ih ⊢
      cases hi : decide (s.core.ctl.vlim.toNat ≤ i.toNat) with
      | true => rfl
      | false => exact ih

theorem State.checked_within {s : State} {l : List (BitVec 5)} (h : overLimit s l = none) (t : State) :
    s.checked (s.vcheck l) t = .next t := by
  rw [State.vcheck_eq, h]
  rfl

theorem State.checked_overLimit {s : State} {l : List (BitVec 5)} {r : BitVec 5} (h : overLimit s l = some r) (t : State) :
    s.checked (s.vcheck l) t = .next (s.trap (Cause.limit, r.toNat)) := by
  rw [State.vcheck_eq, h]
  rfl

/-- One register, the flags and the generator written. -/
theorem onlyVRounded_setV (s : State) (d : BitVec 5) (x : VReg) (r : Rnd) :
    onlyVRounded [d] s ((s.setV d x).putRnd r).adv := by
  refine ⟨rfl, fun q hq => ?_⟩
  exact (s.core.v_setV d q x).trans (if_neg (by simpa using hq))

theorem State.v_written (s : State) (d : BitVec 5) (x : VReg) (r : Rnd) : ((s.setV d x).putRnd r).adv.v d = x :=
  (s.core.v_setV d d x).trans (if_pos rfl)

/-- FSTAT gains the flags that the elements raise. -/
theorem gains_flags {s t : State} {fl : BitVec 6} {raised : Nat → Prop}
    (ht : t.core.ctl.fstat = s.core.ctl.fstat ||| fl) (h : ∀ b, fl.getLsbD b = true ↔ raised b) : gains s t raised := by
  intro b _
  rw [ht, BitVec.getLsbD_or, Bool.or_eq_true, h]

theorem eachRounded_of {i : Instr} {names : List (BitVec 5)} {d : BitVec 5} {w n : Nat} {on : State → Nat → Bool}
    {mode : State → BitVec 3} {res : State → Nat → Nat → Nat × BitVec 6} {f : State → Nat → Rnd → Nat × Rnd}
    (hn : w * n ≤ 512) (hlt : ∀ s draw k, (res s draw k).1 < 2 ^ w) (hf : ∀ s, drawsOnce (f s) (mode s) (res s))
    (he : ∀ s, exec i s = s.checked (s.vcheck names)
      ((s.setV d (ofEls w (rndEls (on s) (el (s.v d) w) (f s) (List.range n) s.rnd).1)).putRnd
        (rndEls (on s) (el (s.v d) w) (f s) (List.range n) s.rnd).2).adv) :
    eachRounded i names d w n on mode res := by
  intro s
  refine ⟨fun hl => ?_, fun r hr => (he s).trans (State.checked_overLimit hr _)⟩
  refine ⟨_, (he s).trans (State.checked_within hl _), onlyVRounded_setV _ _ _ _, fun k hk => ?element, fun k hk hw => ?above,
    gains_flags rfl fun b => ?flags, ?seed⟩
  case element =>
    rw [State.v_written, rndEls_range (hf s), lane_ofEls _ ((Nat.mul_le_mul_left w hk).trans hn),
      List.getD_eq_getElem _ _ (by simpa using hk), List.getElem_map, List.getElem_range]
    refine Nat.mod_eq_of_lt ?_
    split
    · exact hlt _ _ _
    · exact lane_lt _ _ _
  case above =>
    rw [State.v_written, rndEls_range (hf s), lane_ofEls _ (lane_in_register hw),
      List.getD_eq_default _ _ (by simpa using hk), Nat.zero_mod]
  case flags =>
    rw [rndEls_range (hf s)]
    exact flagsBelow_getLsbD _ _ _ _
  case seed =>
    exact congrArg Rnd.seed (congrArg Prod.snd (rndEls_range (hf s) n))

end Sys2Proof.Machine
end

section

/-! ## Floating-point vector arithmetic and reductions (R57, R128 to R131) -/

namespace Sys2Proof.Machine

open Sys2Proof.Claims

/-! ### Forms that round each element (R128, R131) -/

theorem Fmt.width_pos (f : Fmt) : 0 < f.width := by
  unfold Fmt.width
  omega

/-- A VFLT or VFMA form rounds what its operation gives. -/
theorem eachFlt_of {i : Instr} {names : List (BitVec 5)} {d : BitVec 5} {m : BitVec 3} {f : Fmt}
    {op : State → Nat → XRes}
    (he : ∀ s, exec i s = s.vecRnd names d m f.width fun k r => r.round f s.rm (op s k)) :
    eachFlt i names d m f op :=
  eachRounded_of (Nat.mul_div_le 512 f.width) (fun _ _ _ => rounded_lt _ _ _ _) (fun _ _ _ => rfl) he

/-- The type of a fused form (R73). -/
theorem fmaType_eq (k : BitVec 2) :
    fmaType k = if k = 0 then fp64 else if k = 1 then fp32 else if k = 2 then fp16 else bf16 := by
  revert k
  decide

theorem fusedMultiplyAdd : FusedMultiplyAdd := by
  intro d a b c m k
  rw [← fmaType_eq]
  exact ⟨eachFlt_of fun _ => rfl, eachFlt_of fun _ => rfl⟩

/-! ### Forms that pick a code (R128, R129) -/

/-- A VFLT form that rounds nothing draws nothing. -/
theorem eachPick_of {i : Instr} {names : List (BitVec 5)} {d : BitVec 5} {m : BitVec 3} {f : Fmt}
    {op : State → Nat → Nat × BitVec 6} (hlt : ∀ s k, (op s k).1 < 2 ^ f.width)
    (he : ∀ s, exec i s = s.vecRnd names d m f.width fun k r => ((op s k).1, r.raise (op s k).2)) :
    eachPick i names d m f op :=
  eachRounded_of (Nat.mul_div_le 512 f.width) (fun s _ k => hlt s k) (fun _ _ _ => rfl) he

theorem lesser_lt (f : Fmt) (least : Bool) {x y : Nat} (hx : x < 2 ^ f.width) (hy : y < 2 ^ f.width) :
    (lesser f least x y).1 < 2 ^ f.width := by
  have hn := f.nanCode_lt
  unfold lesser
  dsimp only
  split_ifs <;> assumption

/-- Of two values that are no NaN, one of either sign, neither is less only where both are zeros. -/
theorem FVal.same_of_signs {x y : FVal} (hx : x.isNaN = false) (hy : y.isNaN = false) (hxn : x.isNeg = true)
    (hyn : y.isNeg = false) : x.same y = (x.isZero && y.isZero) := by
  cases x with
  | nan => exact nomatch hx
  | inf n =>
    obtain rfl : n = true := hxn
    cases y with
    | nan => exact nomatch hy
    | inf p =>
      obtain rfl : p = false := hyn
      rfl
    | fin p k e => rfl
  | fin n m e =>
    obtain rfl : n = true := hxn
    cases y with
    | nan => exact nomatch hy
    | inf p =>
      obtain rfl : p = false := hyn
      exact (Bool.and_false _).symm
    | fin p k e' =>
      obtain rfl : p = false := hyn
      have hm : m * 2 ^ (e - min e e').toNat = 0 ↔ m = 0 := by simp
      have hk : k * 2 ^ (e' - min e e').toNat = 0 ↔ k = 0 := by simp
      rw [Bool.eq_iff_iff]
      simp only [FVal.same, FVal.lt, FVal.intAt, FVal.expo, FVal.isZero, Bool.and_eq_true, Bool.not_eq_true',
        decide_eq_false_iff_not, beq_iff_eq, if_true, Bool.false_eq_true, if_false]
      omega

theorem fltBefore_eq {x y : FVal} (hx : x.isNaN = false) (hy : y.isNaN = false) :
    fltBefore x y = (x.lt y || (x.isZero && y.isZero && x.isNeg && !y.isNeg)) := by
  unfold fltBefore
  cases hxn : x.isNeg
  · simp only [Bool.and_false, Bool.false_and]
  cases hyn : y.isNeg
  · rw [FVal.same_of_signs hx hy hxn hyn]
  · simp only [Bool.not_true, Bool.and_false]

theorem pickMinMax_eq_lesser (f : Fmt) (least : Bool) (x y : Nat) : pickMinMax f least x y = lesser f least x y := by
  unfold pickMinMax lesser
  dsimp only
  cases hx : (f.decode x).isNaN with
  | true => cases (f.decode y).isNaN <;> rfl
  | false =>
    cases hy : (f.decode y).isNaN with
    | true => rfl
    | false =>
      rw [fltBefore_eq hx hy]
      cases (f.decode x).lt (f.decode y) ||
        ((f.decode x).isZero && (f.decode y).isZero && (f.decode x).isNeg && !(f.decode y).isNeg) <;>
        cases least <;> rfl

/-- The sign of a code that is no NaN is its top bit (R37). -/
theorem Fmt.decode_isNeg {f : Fmt} {c : Nat} (h : (f.decode c).isNaN = false) :
    (f.decode c).isNeg = decide (c / 2 ^ (f.e + f.m) % 2 = 1) := by
  unfold Fmt.decode at h ⊢
  dsimp only at h ⊢
  split_ifs at h ⊢
  · rfl
  · rfl
  · exact nomatch h
  · rfl

theorem Fmt.width_sub_one (f : Fmt) : f.width - 1 = f.e + f.m := by
  unfold Fmt.width
  omega

theorem resigned_lt (f : Fmt) (x : Nat) {number : Nat} (h : number < 2 ^ f.width) :
    (resigned f x number).1 < 2 ^ f.width := by
  have hn := f.nanCode_lt
  unfold resigned
  split <;> assumption

/-- `vfabs` clears the top bit. -/
theorem signOp_positive (f : Fmt) (x : Nat) :
    signOp f (fun _ => false) x = resigned f x (x % 2 ^ (f.width - 1)) := by
  rw [Fmt.width_sub_one]
  rfl

/-- `vfneg` inverts the top bit. -/
theorem signOp_inverted (f : Fmt) {x : Nat} (hx : x < 2 ^ f.width) :
    signOp f (!·) x = resigned f x ((x + 2 ^ (f.width - 1)) % 2 ^ f.width) := by
  unfold signOp resigned
  dsimp only
  cases hn : (f.decode x).isNaN with
  | true => rfl
  | false =>
    rw [Fmt.decode_isNeg hn, Fmt.width_sub_one, Fmt.two_pow_width]
    rw [Fmt.two_pow_width] at hx
    refine congrArg (fun y => ((y, 0) : Nat × BitVec 6)) ?_
    unfold Fmt.signed
    generalize 2 ^ (f.e + f.m) = p at hx ⊢
    by_cases hp : x < p
    · rw [Nat.div_eq_of_lt hp, Nat.mod_eq_of_lt hp, Nat.mod_eq_of_lt (show x + p < 2 * p by omega), Nat.add_comm]
      rfl
    · obtain ⟨r, rfl⟩ := Nat.exists_eq_add_of_le (Nat.le_of_not_lt hp)
      have hr : r < p := by omega
      rw [Nat.add_div_left r (by omega), Nat.div_eq_of_lt hr, Nat.add_mod_left, Nat.mod_eq_of_lt hr,
        show p + r + p = r + 2 * p by omega, Nat.add_mod_right, Nat.mod_eq_of_lt (show r < 2 * p by omega)]
      rfl

theorem vectorFloatResults : VectorFloatResults := by
  intro d a b m c _
  refine ⟨eachFlt_of fun _ => rfl, eachFlt_of fun _ => rfl, eachFlt_of fun _ => rfl, eachFlt_of fun _ => rfl,
    eachFlt_of fun _ => rfl, eachPick_of (fun s k => ?minBound) fun s => ?min, eachPick_of (fun s k => ?maxBound) fun s => ?max,
    eachPick_of (fun s k => ?absBound) fun s => ?abs, eachPick_of (fun s k => ?negBound) fun s => ?neg⟩
  case minBound => exact lesser_lt _ _ (lane_lt _ _ _) (lane_lt _ _ _)
  case maxBound => exact lesser_lt _ _ (lane_lt _ _ _) (lane_lt _ _ _)
  case absBound =>
    exact resigned_lt _ _ ((Nat.mod_lt _ (Nat.two_pow_pos _)).trans_le (Nat.pow_le_pow_right (by decide) (Nat.sub_le _ _)))
  case negBound => exact resigned_lt _ _ (Nat.mod_lt _ (Nat.two_pow_pos _))
  case min =>
    simp only [← pickMinMax_eq_lesser]
    rfl
  case max =>
    simp only [← pickMinMax_eq_lesser]
    rfl
  case abs =>
    simp only [← signOp_positive]
    rfl
  case neg =>
    simp only [← signOp_inverted _ (lane_lt _ _ _)]
    rfl

/-! ### Reductions (R57, R130) -/

/-- Flags among which DZ and SCLAMP are not. -/
abbrev noDzSclamp (fl : BitVec 6) : Prop := fl &&& 0x22 = 0

theorem noDzSclamp_flagIf (b : Bool) {fl : BitVec 6} (h : noDzSclamp fl) : noDzSclamp (flagIf b fl) := by
  cases b with
  | true => exact h
  | false => exact BitVec.zero_and

theorem noDzSclamp_or {x y : BitVec 6} (hx : noDzSclamp x) (hy : noDzSclamp y) : noDzSclamp (x ||| y) := by
  show (x ||| y) &&& 0x22 = 0
  rw [BitVec.and_or_distrib_right, hx, hy]
  rfl

theorem noDzSclamp_zero : noDzSclamp 0 := rfl

theorem noDzSclamp_nv : noDzSclamp flagNV := rfl

theorem noDzSclamp_overflow : noDzSclamp (flagOF ||| flagNX) := rfl

theorem noDzSclamp_sumX (ts : List FVal) (rm : BitVec 3) : noDzSclamp (sumX ts rm).2 := by
  unfold sumX
  split_ifs
  · exact noDzSclamp_flagIf _ noDzSclamp_nv
  · exact noDzSclamp_nv
  · exact noDzSclamp_zero
  · exact noDzSclamp_zero

theorem noDzSclamp_round (f : Fmt) (rm : BitVec 3) (draw : Nat) (x : XVal) : noDzSclamp (f.round rm draw x).2 := by
  unfold Fmt.round
  split
  · split
    · exact noDzSclamp_zero
    · exact noDzSclamp_nv
  · split
    · exact noDzSclamp_zero
    · exact noDzSclamp_overflow
  · dsimp only
    split_ifs
    · exact noDzSclamp_zero
    · exact noDzSclamp_overflow
    · exact noDzSclamp_or (noDzSclamp_flagIf _ rfl) (noDzSclamp_flagIf _ rfl)

/-- After `n` rounded sums: the generator has passed their draws, and no flag but NV, OF, UF and NX is new. -/
def summed (rm : BitVec 3) (n : Nat) (r r' : Rnd) : Prop :=
  r'.seed = seedPast rm n r.seed ∧ ∃ fl, noDzSclamp fl ∧ r'.flags = r.flags ||| fl

theorem summed_zero (rm : BitVec 3) (r : Rnd) : summed rm 0 r r :=
  ⟨by unfold seedPast; split <;> rfl, 0, rfl, BitVec.or_zero.symm⟩

theorem summed_trans {rm : BitVec 3} {m n : Nat} {r r' r'' : Rnd} (h : summed rm m r r') (h' : summed rm n r' r'') :
    summed rm (m + n) r r'' := by
  obtain ⟨hs, fl, hf, hr⟩ := h
  obtain ⟨hs', fl', hf', hr'⟩ := h'
  exact ⟨by rw [hs', hs, seedPast_add], fl ||| fl', noDzSclamp_or hf hf', by rw [hr', hr, BitVec.or_assoc]⟩

theorem Rnd.draw_seed (r : Rnd) (rm : BitVec 3) : (r.draw rm).2.seed = seedPast rm 1 r.seed := by
  unfold Rnd.draw seedPast
  split <;> rfl

theorem Rnd.draw_flags (r : Rnd) (rm : BitVec 3) : (r.draw rm).2.flags = r.flags := by
  unfold Rnd.draw
  split <;> rfl

theorem summed_round (f : Fmt) (rm : BitVec 3) (ts : List FVal) (r : Rnd) :
    summed rm 1 r (r.round f rm (sumX ts rm)).2 :=
  ⟨r.draw_seed rm, (sumX ts rm).2 ||| (f.round rm (r.draw rm).1 (sumX ts rm).1).2,
    noDzSclamp_or (noDzSclamp_sumX ts rm) (noDzSclamp_round _ _ _ _), congrArg (· ||| _) (r.draw_flags rm)⟩

/-- A rounding that draws nothing. -/
theorem Rnd.round_fst {rm : BitVec 3} (h : rm ≠ rmSR) (r : Rnd) (f : Fmt) (x : XRes) :
    (r.round f rm x).1 = (f.round rm 0 x.1).1 := by
  show (f.round rm (r.draw rm).1 x.1).1 = _
  unfold Rnd.draw
  rw [if_neg h]

/-- A level of the tree over `2 * n` values has `n`, each a rounded sum. -/
theorem treeLevel_summed (f : Fmt) (rm : BitVec 3) (n : Nat) {l : List FVal} (hl : l.length = 2 * n) (r : Rnd) :
    (treeLevel f rm l r).1.length = n ∧ summed rm n r (treeLevel f rm l r).2 := by
  induction n generalizing l r with
  | zero =>
    obtain rfl := List.length_eq_zero_iff.mp hl
    exact ⟨rfl, summed_zero rm r⟩
  | succ n ih =>
    obtain ⟨a, b, l, rfl⟩ : ∃ a b l', l = a :: b :: l' := by
      match l, hl with
      | a :: b :: l', _ => exact ⟨a, b, l', rfl⟩
    obtain ⟨hlen, hsum⟩ := ih (by simpa [Nat.mul_succ] using hl) (r.round f rm (sumX [a, b] rm)).2
    refine ⟨congrArg (· + 1) hlen, ?_⟩
    rw [Nat.add_comm]
    exact summed_trans (summed_round f rm [a, b] r) hsum

/-- The tree over `2 ^ n` values ends in one, after one sum for each value but one. -/
theorem treeLevels_summed (f : Fmt) (rm : BitVec 3) (n : Nat) {l : List FVal} (hl : l.length = 2 ^ n) (r : Rnd) :
    summed rm (2 ^ n - 1) r (treeLevels f rm n l r).2 := by
  induction n generalizing l r with
  | zero => exact summed_zero rm r
  | succ n ih =>
    obtain ⟨hlen, hsum⟩ := treeLevel_summed f rm (2 ^ n) (by rw [hl, pow_succ, Nat.mul_comm]) r
    have hn : 2 ^ (n + 1) - 1 = 2 ^ n + (2 ^ n - 1) := by
      have := Nat.two_pow_pos n
      rw [pow_succ]
      omega
    rw [hn]
    exact summed_trans hsum (ih hlen _)

/-- Where nothing is drawn a level adds the neighbours. -/
theorem treeLevel_values (f : Fmt) {rm : BitVec 3} (h : rm ≠ rmSR) (n : Nat) (x : Nat → FVal) (r : Rnd) :
    (treeLevel f rm ((List.range (2 * n)).map x) r).1 =
      (List.range n).map fun i => f.decode (f.round rm 0 (sumX [x (2 * i), x (2 * i + 1)] rm).1).1 := by
  induction n generalizing x r with
  | zero => rfl
  | succ n ih =>
    rw [Nat.mul_succ, List.range_succ_eq_map, List.range_succ_eq_map, List.range_succ_eq_map]
    simp only [List.map_cons, List.map_map, treeLevel, Rnd.round_fst h]
    refine congrArg (List.cons _) ?_
    exact ih (fun i => x (i + 2)) _

/-- Where nothing is drawn the levels compute the tree of R57. -/
theorem treeLevels_values (f : Fmt) {rm : BitVec 3} (h : rm ≠ rmSR) (n j : Nat) (x : Nat → FVal) (r : Rnd) :
    (treeLevels f rm n ((List.range (2 ^ n)).map (tree f rm x j)) r).1 = [tree f rm x (j + n) 0] := by
  induction n generalizing j r with
  | zero => rfl
  | succ n ih =>
    rw [pow_succ, Nat.mul_comm]
    have hlevel := treeLevel_values f h (2 ^ n) (tree f rm x j) r
    have hnext := ih (j + 1) (treeLevel f rm ((List.range (2 * 2 ^ n)).map (tree f rm x j)) r).2
    rw [Nat.add_right_comm] at hnext
    exact (congrArg (fun l => (treeLevels f rm n l _).1) hlevel).trans hnext

/-- Leaf `k` of a reduction: an inactive element counts as the identity of the sum (R57). -/
def State.leaf (s : State) (a : BitVec 5) (m : BitVec 3) (src : Fmt) (k : Nat) : FVal :=
  if laneOn s m src.width k then fval src (s.v a) k else sumIdentity s.rm

/-- The code that a sum reduction ends with, and its roundings (R130). -/
def State.reduced (s : State) (a b : BitVec 5) (m : BitVec 3) (src dst : Fmt) (n : Nat) : Nat × Rnd :=
  let up := treeLevels dst s.rm n ((List.range (512 / src.width)).map (s.leaf a m src)) s.rnd
  up.2.round dst s.rm (sumX [up.1.headD (sumIdentity s.rm), fval dst (s.v b) 0] s.rm)

theorem State.vecReduce_eq (s : State) (d a b : BitVec 5) (m : BitVec 3) (src dst : Fmt) :
    s.vecReduce d a b m src dst =
      let x := s.reduced a b m src dst (Nat.log2 (512 / src.width))
      s.checked (s.vcheck [d, a, b]) ((s.setV d (BitVec.ofNat 512 x.1)).putRnd x.2).adv := rfl

theorem State.reduced_summed {s : State} {src : Fmt} {n : Nat} (hn : 512 / src.width = 2 ^ n) (a b : BitVec 5)
    (m : BitVec 3) (dst : Fmt) : summed s.rm (2 ^ n) s.rnd (s.reduced a b m src dst n).2 := by
  have htree := treeLevels_summed dst s.rm n (l := (List.range (512 / src.width)).map (s.leaf a m src))
    ((List.length_map _).trans (List.length_range.trans hn)) s.rnd
  rw [← Nat.sub_add_cancel (Nat.one_le_two_pow (n := n))]
  exact summed_trans htree (summed_round _ _ _ _)

/-- Where nothing is drawn a reduction is the rounded sum of the root of the tree and the initial value. -/
theorem State.reduced_value {s : State} {src : Fmt} {n : Nat} (hn : 512 / src.width = 2 ^ n) (h : s.rm ≠ rmSR)
    (a b : BitVec 5) (m : BitVec 3) (dst : Fmt) : (s.reduced a b m src dst n).1 =
      (dst.round s.rm 0 (sumX [tree dst s.rm (s.leaf a m src) n 0, fval dst (s.v b) 0] s.rm).1).1 := by
  have hroot := treeLevels_values dst h n 0 (s.leaf a m src) s.rnd
  rw [Nat.zero_add, ← hn] at hroot
  unfold State.reduced
  dsimp only
  rw [Rnd.round_fst h]
  exact congrArg (fun l : List FVal => (dst.round s.rm 0
    (sumX [l.headD (sumIdentity s.rm), fval dst (s.v b) 0] s.rm).1).1) hroot

theorem or_and_absorb {w : Nat} (x y : BitVec w) : (x ||| y) &&& x = x := by
  ext i hi
  rw [BitVec.getElem_and, BitVec.getElem_or]
  cases x[i] <;> simp

/-- A code that fits in a register is read as it was written. -/
theorem toNat_code {c w n : Nat} (hc : c < 2 ^ w) (hw : w ≤ n) : (BitVec.ofNat n c).toNat = c :=
  Nat.mod_eq_of_lt (hc.trans_le (Nat.pow_le_pow_right (by decide) hw))

/-- A sum reduction over a power of two of elements (R130). -/
theorem reduces_of {i : Instr} {d a b : BitVec 5} {m : BitVec 3} {src dst : Fmt} {n : Nat}
    (hn : 512 / src.width = 2 ^ n) (hdst : dst.width ≤ 512) (he : ∀ s, exec i s = s.vecReduce d a b m src dst) :
    reduces i d a b m src dst := by
  intro s
  have hlog : Nat.log2 (512 / src.width) = n := by rw [hn, Nat.log2_two_pow]
  have hexec := (he s).trans (s.vecReduce_eq d a b m src dst)
  rw [hlog] at hexec ⊢
  refine ⟨fun hl => ?_, fun r hr => hexec.trans (State.checked_overLimit hr _)⟩
  obtain ⟨hseed, fl, hfl, hflags⟩ := s.reduced_summed hn a b m dst
  have hcode : (s.reduced a b m src dst n).1 < 2 ^ dst.width := dst.round_lt _ _ _
  have hv := toNat_code hcode hdst
  refine ⟨_, hexec.trans (State.checked_within hl _), onlyVRounded_setV _ _ _ _, ?kept, ?others, ?width,
    fun h => ?drawn, fun h => ⟨?undrawn, ?value⟩⟩
  case kept => exact or_and_absorb _ _
  case others =>
    have hnew : (s.reduced a b m src dst n).2.flags &&& 0x22 = 0 := by
      rw [hflags]
      exact noDzSclamp_or noDzSclamp_zero hfl
    show (s.core.ctl.fstat ||| (s.reduced a b m src dst n).2.flags) &&& 0x22 = _
    rw [BitVec.and_or_distrib_right, hnew]
    exact BitVec.or_zero
  case width => rw [State.v_written, hv]; exact hcode
  case drawn => exact hseed.trans ((if_pos h).trans (by rw [hn]; rfl))
  case undrawn => exact hseed.trans (if_neg h)
  case value => rw [State.v_written, hv]; exact State.reduced_value hn h a b m dst

/-- The elements of a type of VFLT are a power of two many (R70). -/
theorem elements_of_floatType {c : BitVec 3} (h : c.toNat < 4) :
    ∃ n, 512 / (fmtOf c.toNat false).width = 2 ^ n := by
  interval_cases c.toNat
  · exact ⟨3, rfl⟩
  · exact ⟨4, rfl⟩
  · exact ⟨5, rfl⟩
  · exact ⟨5, rfl⟩

theorem width_of_floatType (c : Nat) (topx : Bool) : (fmtOf c topx).width ≤ 64 := by
  unfold fmtOf
  split <;> simp [Fmt.width]

theorem vectorReductions : VectorReductions := by
  intro d a b m c hc
  obtain ⟨n, hn⟩ := elements_of_floatType hc
  refine ⟨reduces_of hn ((width_of_floatType _ _).trans (by decide)) fun _ => rfl, fun _ => reduces_of hn ?_ fun _ => rfl⟩
  split <;> decide

/-- Settles O13, from what a run of rounded elements and the tree of sums leave. -/
theorem vectorFloats : Obligations.VectorFloats := ⟨vectorFloatResults, fusedMultiplyAdd, vectorReductions⟩

end Sys2Proof.Machine
end

section

/-! ## Conversions (R50, R51, R134 to R136) -/

namespace Sys2Proof.Machine

open Sys2Proof.Claims

/-! ### Elements (R134, R135) -/

/-- The width of a format does not depend on how its top exponent is read. -/
theorem fmtOf_width (k : Nat) (topx : Bool) : (fmtOf k topx).width = (fmtOf k false).width := by
  unfold fmtOf
  split <;> rfl

/-- `SignExtend` of R33 is the signed reading of a code. -/
theorem sext_eq_toInt (x w : Nat) : sext x w = (BitVec.ofNat w x).toInt := by
  rw [BitVec.toInt_eq_toNat_cond, BitVec.toNat_ofNat]
  unfold sext
  refine if_congr ?_ rfl rfl
  cases w with
  | zero => simp [Nat.mod_one]
  | succ w =>
    rw [Nat.add_sub_cancel, pow_succ]
    omega

theorem code_lt (n : Int) (w : Nat) : (n % (2 ^ w : Nat)).toNat < 2 ^ w := by
  have hpos : (0 : Int) < (2 ^ w : Nat) := Int.natCast_pos.mpr (Nat.two_pow_pos w)
  have hlt := Int.emod_lt_of_pos n hpos
  omega

theorem toInt_lt (sg : Bool) (w : Nat) (rm : BitVec 3) (draw : Nat) (x : FVal) :
    (toInt sg w rm draw x).1 < 2 ^ w := by
  unfold toInt
  cases x with
  | nan => exact Nat.two_pow_pos w
  | inf => exact code_lt _ w
  | fin neg m e =>
    dsimp only
    split_ifs <;> dsimp only <;> exact code_lt _ w

theorem converted_lt (src dst : CvtType) (topx : Bool) (rm : BitVec 3) (draw x : Nat) :
    (converted src dst topx rm draw x).1 < 2 ^ dst.width := by
  cases dst with
  | int sg w =>
    cases src with
    | int => exact Nat.mod_lt _ (Nat.two_pow_pos w)
    | flt j => exact toInt_lt sg w rm draw _
  | flt k =>
    rw [CvtType.width, ← fmtOf_width k topx]
    cases src with
    | int => exact rounded_lt _ _ _ _
    | flt => exact rounded_lt _ _ _ _

/-- A conversion that is not from an integer type to another takes one draw. -/
theorem cvtEl_draws {src dst : CvtType} (h : ∀ sg w sg' w', src = .int sg w → dst ≠ .int sg' w') (topx : Bool)
    (rm : BitVec 3) (x : Nat → Nat) :
    drawsOnce (fun k r => cvtEl src dst topx rm (x k) r) rm fun draw k => converted src dst topx rm draw (x k) := by
  intro k r
  cases src with
  | int sg w =>
    cases dst with
    | int sg' w' => exact absurd rfl (h sg w sg' w' rfl)
    | flt =>
      simp only [cvtEl, sext_eq_toInt]
      rfl
  | flt j => cases dst <;> rfl

/-- A conversion code that is not an integer type is a format (R71). -/
theorem cvtType_of_not_int {c : BitVec 4} (h : cvtIsInt c = false) :
    cvtType c = .flt (if c = 7 then 8 else c.toNat - 8) := by
  revert c
  decide

theorem cvtType_isInt {c : BitVec 4} {sg : Bool} {w : Nat} (h : cvtType c = .int sg w) : cvtIsInt c = true := by
  by_contra hc
  rw [cvtType_of_not_int (Bool.eq_false_iff.mpr hc)] at h
  cases h

theorem elementConversions : ElementConversions := by
  intro d a r m x y hwf
  refine eachRounded_of ?fits (fun s draw k => converted_lt _ _ _ _ _ _) (fun s => cvtEl_draws ?types _ _ _) fun s => rfl
  case fits =>
    have hstep : (cvtType x).width ≤ max (max (cvtType y).width (cvtType x).width) 8 :=
      (le_max_right _ _).trans (le_max_left _ _)
    exact (Nat.mul_le_mul_right _ hstep).trans (Nat.mul_div_le 512 _)
  case types =>
    intro sg w sg' w' hy hx
    simp [Instr.wf, cvtType_isInt hy, cvtType_isInt hx] at hwf

/-! ### Blocks (R50, R51, R136) -/

theorem cvtFmt_eq {c : BitVec 4} (h : cvtIsInt c = false) (topx : Bool) : cvtFmt c topx = cvtFormat c topx := by
  unfold cvtFmt
  rw [cvtType_of_not_int h]
  rfl

theorem not_int_of_packWide {c : BitVec 4} (h : cvtIsPackWide c = true) : cvtIsInt c = false := by
  revert c
  decide

theorem not_int_of_narrow {c : BitVec 4} (h : cvtIsNarrow c = true) : cvtIsInt c = false := by
  revert c
  decide

theorem width_of_packWide {c : BitVec 4} (h : cvtIsPackWide c = true) (topx : Bool) :
    (cvtFormat c topx).width = if c = 9 then 32 else 16 := by
  revert c topx
  decide

theorem width_of_narrow {c : BitVec 4} (h : cvtIsNarrow c = true) (topx : Bool) : (cvtFormat c topx).width ≤ 8 := by
  revert c topx
  decide

/-- Rows of `n` are one run. -/
theorem flatMap_range {α : Type} (g : Nat → Nat → α) {n : Nat} (hn : 0 < n) (q : Nat) :
    ((List.range q).flatMap fun j => (List.range n).map (g j)) = (List.range (q * n)).map fun k => g (k / n) (k % n) := by
  induction q with
  | zero => simp
  | succ q ih =>
    rw [List.range_succ, List.flatMap_append, ih, Nat.succ_mul, List.range_add, List.map_append, List.map_map,
      List.flatMap_singleton]
    refine congrArg _ (List.map_congr_left fun i hi => ?_)
    have hi' : i < n := List.mem_range.mp hi
    rw [Function.comp_apply, Nat.mul_comm, Nat.mul_add_div hn, Nat.div_eq_of_lt hi', Nat.add_zero, Nat.mul_add_mod,
      Nat.mod_eq_of_lt hi']

/-- The registers of a block are as many as its elements fill. -/
theorem blockRegs_eq (c : BitVec 4) (r : BitVec 5) :
    blockRegs c r = (List.range (if c = 9 then 2 else 1)).map fun j => r + BitVec.ofNat 5 j := by
  unfold blockRegs
  split
  · simp [List.range_succ]
  · simp

/-- The values that a pack reads (R136). -/
theorem block_values {s : State} {a : BitVec 5} {y : BitVec 4} {f : Fmt} (hw : f.width = if y = 9 then 32 else 16) :
    ((blockRegs y a).flatMap fun v => (elsOf (s.v v) f.width).map f.decode) =
      (List.range 32).map fun k => fval f (s.v (a + BitVec.ofNat 5 (k / (512 / f.width)))) (k % (512 / f.width)) := by
  have hcount : (if y = 9 then 2 else 1) * (512 / f.width) = 32 := by
    rw [hw]
    split <;> rfl
  have hpos : 0 < 512 / f.width := by
    by_contra h
    rw [Nat.eq_zero_of_not_pos h] at hcount
    omega
  have hrows := flatMap_range (fun j i => fval f (s.v (a + BitVec.ofNat 5 j)) i) hpos (if y = 9 then 2 else 1)
  rw [hcount] at hrows
  rw [← hrows, blockRegs_eq, List.flatMap_map]
  refine congrArg (fun g => List.flatMap g _) (funext fun j => ?_)
  exact List.map_map

/-- What a pack writes below its scale (R51, R136): one code for each value. -/
theorem mxElems_codes (f : Fmt) (e : Int) (rm : BitVec 3) (vs : List FVal) (r : Rnd) :
    (mxElems f e rm vs r).1.length = vs.length ∧ ∀ c ∈ (mxElems f e rm vs r).1, c < 2 ^ f.width := by
  induction vs generalizing r with
  | nil => exact ⟨rfl, fun c hc => nomatch hc⟩
  | cons x xs ih =>
    unfold mxElems
    dsimp only
    generalize (if (x.scaled (-e)).isNeg = true then (x.scaled (-e)).neg else x.scaled (-e)) = size
    refine ⟨congrArg (· + 1) (ih _).1, fun c hc => ?_⟩
    rcases List.mem_cons.mp hc with rfl | hc
    · split
      · exact f.signed_lt _ f.maxCode_lt
      · exact f.round_lt _ _ _
    · exact (ih _).2 c hc

theorem zeros_codes (f : Fmt) (vs : List FVal) :
    (vs.map fun _ => 0).length = vs.length ∧ ∀ c ∈ vs.map fun _ => 0, c < 2 ^ f.width := by
  refine ⟨List.length_map _, fun c hc => ?_⟩
  obtain ⟨_, -, rfl⟩ := List.mem_map.mp hc
  exact Nat.two_pow_pos _

theorem mxScale_codes (f : Fmt) (rm : BitVec 3) (vs : List FVal) (r : Rnd) :
    (mxScale f rm vs r).2.1.length = vs.length ∧ ∀ c ∈ (mxScale f rm vs r).2.1, c < 2 ^ f.width := by
  unfold mxScale
  split
  · exact zeros_codes f vs
  · split
    · split
      · exact zeros_codes f vs
      · dsimp only
        split
        · exact mxElems_codes _ _ _ _ _
        · exact mxElems_codes _ _ _ _ _
    · exact zeros_codes f vs

/-- A finite value of no more than the magnitude that the formats of R38 hold. -/
def FVal.held (x : FVal) : Prop := ∀ n m e, x = .fin n m e → m < 2 ^ 53 ∧ e ≤ 2049

theorem FVal.held_neg {x : FVal} (h : x.held) : x.neg.held := by
  cases x with
  | nan => exact fun _ _ _ e => nomatch e
  | inf => exact fun _ _ _ e => nomatch e
  | fin n m e =>
    rintro _ _ _ ⟨⟩
    exact h n m e rfl

theorem maxAbs_held {vs : List FVal} (h : ∀ v ∈ vs, v.held) : (maxAbs vs).held := by
  induction vs with
  | nil =>
    rintro _ _ _ ⟨⟩
    decide
  | cons x r ih =>
    obtain ⟨hx, hr⟩ := List.forall_mem_cons.mp h
    have hsize : (if x.isNeg = true then x.neg else x).held := by
      split
      · exact FVal.held_neg hx
      · exact hx
    unfold maxAbs
    dsimp only
    generalize (if x.isNeg = true then x.neg else x) = size at hsize ⊢
    split
    · exact hsize
    · exact ih hr

theorem Mag.log2_le (n : Nat) (e : Int) : (Mag.ratio n 1 e).log2 ≤ Nat.log2 n + e := by
  unfold Mag.log2
  dsimp only
  have h1 : Nat.log2 1 = 0 := rfl
  rw [h1]
  split <;> omega

/-- The sizes of the formats (R38). -/
theorem fmtOf_sizes (k : Nat) (topx : Bool) :
    (fmtOf k topx).m ≤ 52 ∧ (fmtOf k topx).e ≤ 11 ∧ (fmtOf k topx).bias ≤ 1023 := by
  unfold fmtOf
  split <;> simp

theorem Fmt.decode_held {f : Fmt} (hm : f.m ≤ 52) (he : f.e ≤ 11) (c : Nat) : (f.decode c).held := by
  have hfrac : c % 2 ^ f.m < 2 ^ f.m := Nat.mod_lt _ (Nat.two_pow_pos _)
  have hexp : c / 2 ^ f.m % 2 ^ f.e < 2 ^ f.e := Nat.mod_lt _ (Nat.two_pow_pos _)
  have hm' : 2 ^ f.m ≤ 2 ^ 52 := Nat.pow_le_pow_right (by decide) hm
  have he' : 2 ^ f.e ≤ 2 ^ 11 := Nat.pow_le_pow_right (by decide) he
  have humin : f.umin ≤ 1 := by
    unfold Fmt.umin
    omega
  unfold Fmt.decode
  dsimp only
  split_ifs
  · rintro _ _ _ ⟨⟩
    omega
  · exact fun _ _ _ e => nomatch e
  · exact fun _ _ _ e => nomatch e
  · rintro _ _ _ ⟨⟩
    omega

/-- The scale of a block fits the register above its elements. -/
theorem mxScale_scale_lt {f : Fmt} (hf : f.bias ≤ 1023) (rm : BitVec 3) {vs : List FVal} (h : ∀ v ∈ vs, v.held) (r : Rnd) :
    (mxScale f rm vs r).1 < 2 ^ 12 := by
  unfold mxScale
  split
  · exact (by decide : 255 < 2 ^ 12)
  · split
    · rename_i n m e hmax
      obtain ⟨hm, he⟩ := maxAbs_held h _ _ _ hmax
      split
      · exact (by decide : 0 < 2 ^ 12)
      · dsimp only
        split
        · exact (by decide : 0 < 2 ^ 12)
        · rename_i h0 _
          have hlog := Mag.log2_le m e
          have hm53 : Nat.log2 m < 53 := (Nat.log2_lt h0).mpr hm
          have hemax : -(1023 : Int) ≤ f.emax := by
            unfold Fmt.emax
            omega
          dsimp only
          omega
    · exact (by decide : 255 < 2 ^ 12)

/-! ### Packing a block -/

/-- A packed block: the codes from bit 0 up, the scale from bit 256 up (R136). -/
def packedBlock (w : Nat) (q : List Nat) (sc : Nat) : VReg := BitVec.ofNat 512 (packCodes w q + sc * 2 ^ 256)

theorem packCodes_block_lt {w j : Nat} {q : List Nat} (hq : q.length = 32) (hj : 32 * w ≤ j) :
    packCodes w q < 2 ^ j := by
  have h := packCodes_lt w q
  rw [hq, Nat.mul_comm] at h
  exact h.trans_le (Nat.pow_le_pow_right (by decide) hj)

section PackedBlock

variable {w : Nat} {q : List Nat} (sc : Nat) (hw : w ≤ 8) (hq : q.length = 32)
include hw hq

/-- Below bit 256 a packed block is its codes. -/
theorem packedBlock_mod : (packCodes w q + sc * 2 ^ 256) % 2 ^ 256 = packCodes w q := by
  rw [Nat.add_mul_mod_self_right, Nat.mod_eq_of_lt (packCodes_block_lt hq (by omega))]

theorem packedBlock_lane {k : Nat} (hk : k < 32) : lane (packedBlock w q sc) w k = q.getD k 0 % 2 ^ w := by
  have hkw : w * (k + 1) ≤ 256 := Nat.mul_le_mul hw hk
  rw [packedBlock, lane_ofNat _ (hkw.trans (by decide)), ← toNat_ofNat_element _ hkw, BitVec.toNat_ofNat,
    packedBlock_mod sc hw hq, packCodes_lane]

theorem packedBlock_gap {j : Nat} (hj : 32 * w ≤ j) (hj' : j < 256) : (packedBlock w q sc).getLsbD j = false := by
  have hlow := Nat.testBit_mod_two_pow (packCodes w q + sc * 2 ^ 256) 256 j
  rw [packedBlock_mod sc hw hq, decide_eq_true hj', Bool.true_and,
    Nat.testBit_eq_false_of_lt (packCodes_block_lt hq hj)] at hlow
  rw [packedBlock, BitVec.getLsbD_ofNat, ← hlow, Bool.and_false]

theorem packedBlock_scale (hs : sc < 2 ^ 256) : lane (packedBlock w q sc) 256 1 = sc := by
  have hlt := packCodes_block_lt (w := w) (j := 256) hq (by omega)
  rw [packedBlock, lane_ofNat _ (by decide), Nat.mul_one, Nat.add_mul_div_right _ _ (Nat.two_pow_pos 256),
    Nat.div_eq_of_lt hlt, Nat.zero_add, Nat.mod_eq_of_lt hs]

end PackedBlock

theorem execVcvtPack_eq {s : State} {y x : BitVec 4} {src dst : Fmt} {a : BitVec 5} {vals : List FVal}
    (hs : cvtFmt y s.core.ctl.status.topx = src) (hd : cvtFmt x s.core.ctl.status.topx = dst)
    (hv : ((cvtRegs y a).flatMap fun v => (elsOf (s.v v) src.width).map src.decode) = vals) (d : BitVec 5)
    (r : BitVec 3) :
    let block := mxScale dst (s.rmField r) vals s.rnd
    execVcvtPack d a r x y s = s.checked (s.vcheck (d :: cvtRegs y a))
      ((s.setV d (packedBlock dst.width block.2.1 block.1)).putRnd block.2.2).adv := by
  subst hs hd hv
  rfl

theorem fval_cvtFormat_held (c : BitVec 4) (topx : Bool) (x : VReg) (k : Nat) : (fval (cvtFormat c topx) x k).held := by
  obtain ⟨hm, he, -⟩ := fmtOf_sizes (if c = 7 then 8 else c.toNat - 8) topx
  exact Fmt.decode_held hm he _

theorem blockPack : BlockPack := by
  intro d a r x y s hwf
  obtain ⟨⟨-, hy⟩, hx⟩ : (roundOk r = true ∧ cvtIsPackWide y = true) ∧ cvtIsNarrow x = true := by
    rwa [Instr.wf, Bool.and_eq_true, Bool.and_eq_true] at hwf
  have hwidth := width_of_narrow hx s.core.ctl.status.topx
  intro topx src dst n vals block
  have hexec := execVcvtPack_eq (cvtFmt_eq (not_int_of_packWide hy) topx) (cvtFmt_eq (not_int_of_narrow hx) topx)
    (block_values (s := s) (a := a) (width_of_packWide hy topx)) d r
  obtain ⟨hlen, hcodes⟩ := mxScale_codes dst (cvtMode s r) vals s.rnd
  have hq : block.2.1.length = 32 := hlen.trans ((List.length_map _).trans List.length_range)
  have hscale : block.1 < 2 ^ 12 := mxScale_scale_lt (fmtOf_sizes _ _).2.2 _ (fun v hv => ?held) _
  refine ⟨fun hl => ⟨_, hexec.trans (State.checked_within hl _), onlyVRounded_setV _ _ _ _, fun k hk => ?code,
    fun j hj hj' => ?gap, ?scale, rfl, rfl⟩, fun q hq => hexec.trans (State.checked_overLimit hq _)⟩
  case held =>
    obtain ⟨k, -, rfl⟩ := List.mem_map.mp hv
    exact fval_cvtFormat_held _ _ _ _
  case code =>
    have hk' : k < block.2.1.length := hk.trans_eq hq.symm
    rw [State.v_written]
    refine (packedBlock_lane block.1 hwidth hq hk).trans ?_
    rw [List.getD_eq_getElem _ _ hk', List.getElem?_eq_getElem hk']
    exact Nat.mod_eq_of_lt (hcodes _ (List.getElem_mem hk'))
  case gap =>
    rw [State.v_written]
    exact packedBlock_gap block.1 hwidth hq hj hj'
  case scale =>
    rw [State.v_written]
    exact packedBlock_scale block.1 hwidth hq (hscale.trans (by decide))

/-! ### Unpacking a block -/

/-- The codes of an unpacked block in `v[d]`, or in `v[d]` and `v[d+1]` (R136). -/
def State.writeBlock (s : State) (d : BitVec 5) (x : BitVec 4) (w : Nat) (cs : List Nat) : State :=
  let lo := s.setV d (ofEls w (cs.take (512 / w)))
  if x = 9 then lo.setV (d + 1) (ofEls w (cs.drop (512 / w))) else lo

/-- The registers of a block, the flags and the generator written. -/
theorem onlyVRounded_writeBlock (s : State) (d : BitVec 5) (x : BitVec 4) (w : Nat) (cs : List Nat) (r : Rnd) :
    onlyVRounded (blockRegs x d) s ((s.writeBlock d x w cs).putRnd r).adv := by
  unfold State.writeBlock blockRegs
  dsimp only
  split
  · refine ⟨rfl, fun q hq => ?_⟩
    obtain ⟨hd, hd'⟩ : q ≠ d ∧ q ≠ d + 1 := by simpa using hq
    exact (Core.v_setV _ (d + 1) q _).trans ((if_neg hd').trans ((s.core.v_setV d q _).trans (if_neg hd)))
  · exact onlyVRounded_setV s d _ r

theorem State.writeBlock_fstat (s : State) (d : BitVec 5) (x : BitVec 4) (w : Nat) (cs : List Nat) (r : Rnd) :
    ((s.writeBlock d x w cs).putRnd r).adv.core.ctl.fstat = s.core.ctl.fstat ||| r.flags := by
  unfold State.writeBlock
  dsimp only
  split <;> rfl

theorem State.writeBlock_first (s : State) (d : BitVec 5) (x : BitVec 4) (w : Nat) (cs : List Nat) (r : Rnd) :
    ((s.writeBlock d x w cs).putRnd r).adv.v d = ofEls w (cs.take (512 / w)) := by
  have hne : d ≠ d + 1 := by
    revert d
    decide
  unfold State.writeBlock
  dsimp only
  split
  · exact (Core.v_setV _ (d + 1) d _).trans ((if_neg hne).trans (s.v_written d _ r))
  · exact s.v_written d _ r

theorem State.writeBlock_second (s : State) (d : BitVec 5) (w : Nat) (cs : List Nat) (r : Rnd) :
    ((s.writeBlock d 9 w cs).putRnd r).adv.v (d + 1) = ofEls w (cs.drop (512 / w)) := State.v_written _ (d + 1) _ r

/-- Where the codes of a block stand. -/
theorem State.writeBlock_lane (s : State) (d : BitVec 5) {x : BitVec 4} {w : Nat} (hw : w = if x = 9 then 32 else 16)
    (cs : List Nat) (r : Rnd) {k : Nat} (hk : k < 32) :
    lane (((s.writeBlock d x w cs).putRnd r).adv.v (d + BitVec.ofNat 5 (k / (512 / w)))) w (k % (512 / w)) =
      cs.getD k 0 % 2 ^ w := by
  have hfirst : k < 512 / w → lane (((s.writeBlock d x w cs).putRnd r).adv.v (d + BitVec.ofNat 5 (k / (512 / w)))) w
      (k % (512 / w)) = cs.getD k 0 % 2 ^ w := fun h => by
    have hd : d + BitVec.ofNat 5 0 = d := BitVec.add_zero d
    rw [Nat.div_eq_of_lt h, Nat.mod_eq_of_lt h, hd, State.writeBlock_first, lane_ofEls _ (lane_in_register h),
      List.getD_eq_getElem?_getD, List.getElem?_take_of_lt h, ← List.getD_eq_getElem?_getD]
  by_cases hx : x = 9
  · subst hx
    obtain rfl : w = 32 := hw
    by_cases h : k < 16
    · exact hfirst h
    · obtain ⟨i, rfl⟩ := Nat.exists_eq_add_of_le (Nat.le_of_not_lt h)
      have hi : i < 16 := by omega
      have hq : (16 + i) / (512 / 32) = 1 := by omega
      have hm : (16 + i) % (512 / 32) = i := by omega
      have hone : d + BitVec.ofNat 5 1 = d + 1 := rfl
      rw [hq, hm, hone, State.writeBlock_second, lane_ofEls _ (lane_in_register hi), List.getD_eq_getElem?_getD,
        List.getElem?_drop, ← List.getD_eq_getElem?_getD]
  · rw [if_neg hx] at hw
    exact hfirst (by rw [hw]; exact hk)

theorem drawn_all (s : State) (mode : BitVec 3) (res : Nat → Nat → Nat × BitVec 6) :
    drawn s (fun _ => true) mode res = fun k => res (drawAt s mode k) k := by
  funext k
  unfold drawn
  rw [List.countP_true, List.length_range]

theorem mxDecode_exact (f : Fmt) (c sc : Nat) :
    (mxDecode f c sc).exact = if sc = 255 then (.nan, 0) else ((f.decode c).scaled ((sc : Int) - 127)).exact := by
  unfold mxDecode
  split <;> rfl

theorem unpackEl_draws (src dst : Fmt) (rm : BitVec 3) (sc : Nat) (x : Nat → Nat) :
    drawsOnce (fun k r => unpackEl src dst rm sc (x k) r) rm fun draw k => rounded dst rm draw
      (if sc = 255 then (.nan, 0) else ((src.decode (x k)).scaled ((sc : Int) - 127)).exact) := by
  intro k r
  dsimp only
  rw [← mxDecode_exact]
  rfl

/-- The codes of an unpacked block and its roundings. -/
def State.unpacked (s : State) (a : BitVec 5) (src dst : Fmt) (rm : BitVec 3) : List Nat × Rnd :=
  rndEls (fun _ => true) (fun _ => 0)
    (fun k r => unpackEl src dst rm (el (s.v a) 8 32) (el (s.v a) src.width k) r) (List.range 32) s.rnd

theorem execVcvtUnpack_eq {s : State} {y x : BitVec 4} {src dst : Fmt}
    (hs : cvtFmt y s.core.ctl.status.topx = src) (hd : cvtFmt x s.core.ctl.status.topx = dst) (d a : BitVec 5)
    (r : BitVec 3) :
    let u := s.unpacked a src dst (s.rmField r)
    execVcvtUnpack d a r x y s = s.checked (s.vcheck (cvtRegs x d ++ [a]))
      ((s.writeBlock d x dst.width u.1).putRnd u.2).adv := by
  subst hs hd
  rfl

theorem blockUnpack : BlockUnpack := by
  intro d a r x y s hwf
  obtain ⟨⟨-, hy⟩, hx⟩ : (roundOk r = true ∧ cvtIsNarrow y = true) ∧ cvtIsPackWide x = true := by
    rwa [Instr.wf, Bool.and_eq_true, Bool.and_eq_true] at hwf
  have hwidth := width_of_packWide hx s.core.ctl.status.topx
  intro topx src dst rm n scale res
  have hexec : exec (.vcvtUnpack d a r x y) s = s.checked (s.vcheck (blockRegs x d ++ [a]))
      ((s.writeBlock d x dst.width (s.unpacked a src dst rm).1).putRnd (s.unpacked a src dst rm).2).adv :=
    execVcvtUnpack_eq (cvtFmt_eq (not_int_of_narrow hy) topx) (cvtFmt_eq (not_int_of_packWide hx) topx) d a r
  have hu : s.unpacked a src dst rm = ((List.range 32).map fun k => (res k).1,
      { seed := seedPast rm 32 s.core.ctl.srseed, flags := flagsBelow (fun _ => true) res 32 }) := by
    have hrun := rndEls_range (s := s) (on := fun _ => true) (old := fun _ => 0)
      (unpackEl_draws src dst rm scale fun k => lane (s.v a) src.width k) 32
    rw [drawn_all, List.countP_true, List.length_range] at hrun
    exact hrun
  generalize s.unpacked a src dst rm = u at hexec hu
  refine ⟨fun hl => ⟨_, hexec.trans (State.checked_within hl _), onlyVRounded_writeBlock _ _ _ _ _ _, fun k hk => ?code,
    gains_flags (State.writeBlock_fstat _ _ _ _ _ _) fun b => ?flags, ?seed⟩,
    fun q hq => hexec.trans (State.checked_overLimit hq _)⟩
  case code =>
    have hlt : (res k).1 < 2 ^ dst.width := rounded_lt _ _ _ _
    rw [s.writeBlock_lane d hwidth u.1 u.2 hk, hu, List.getD_eq_getElem _ _ (by simpa using hk), List.getElem_map,
      List.getElem_range, Nat.mod_eq_of_lt hlt]
  case flags =>
    rw [hu, flagsBelow_getLsbD]
    simp only [true_and]
  case seed => exact congrArg (fun u => u.2.seed) hu

/-- Settles O15, from what a run of rounded elements leaves. -/
theorem conversions : Obligations.Conversions := ⟨elementConversions, blockPack, blockUnpack⟩

end Sys2Proof.Machine
end

section

/-! ## Decoding and encoding agree (R59 to R77)

A piece of a word that a decoder reads field by field is its fields laid side by side, and a field of pieces laid side
by side is the piece that stands there. By the first, what a decoder reads from a word has that word; by the second, the
word of an instruction is read as the instruction. -/

namespace Sys2Proof

/-! ### Pieces and their fields -/

theorem toNat_append_eq {v w : Nat} (x : BitVec v) (y : BitVec w) : (x ++ y).toNat = x.toNat * 2 ^ w + y.toNat := by
  rw [BitVec.toNat_append, Nat.shiftLeft_eq, mul_comm, Nat.two_pow_add_eq_or_of_lt y.isLt]

theorem toNat_extract_eq {v : Nat} (x : BitVec v) (s l : Nat) :
    (x.extractLsb' s l).toNat = x.toNat / 2 ^ s % 2 ^ l := by
  rw [BitVec.extractLsb'_toNat, Nat.shiftRight_eq_div_pow]

/-- The high part of two pieces laid side by side. -/
theorem high_append {v w : Nat} (x : BitVec v) (y : BitVec w) : (x ++ y).extractLsb' w v = x := by
  rw [BitVec.extractLsb'_append_eq_of_le le_rfl, Nat.sub_self, BitVec.extractLsb'_eq_self]

/-- The low part of two pieces laid side by side. -/
theorem low_append {v w : Nat} (x : BitVec v) (y : BitVec w) : (x ++ y).extractLsb' 0 w = y := by
  rw [BitVec.extractLsb'_append_eq_of_add_le (Nat.zero_add w).le, BitVec.extractLsb'_eq_self]

/-- Two fields that stand side by side are the field that they make up. -/
theorem extract_append {n s u v : Nat} {x : BitVec n} {y : BitVec u} {z : BitVec v} (hz : x.extractLsb' s v = z)
    (hy : x.extractLsb' (s + v) u = y) : x.extractLsb' s (u + v) = y ++ z := by
  rw [← hy, ← hz, BitVec.extractLsb'_append_extractLsb'_eq_extractLsb' rfl]

/-- The field that is the whole piece. -/
theorem whole_eq {n : Nat} {x y : BitVec n} (h : x.extractLsb' 0 n = y) : y = x := by
  rw [← h, BitVec.extractLsb'_eq_self]

/-! The low piece of a word as fields laid side by side: a lemma for each layout, whose name gives the widths. -/

section Low

variable {lo : BitVec 11}

theorem low_3_8 {x : BitVec 3} {y : BitVec 8} (hx : lo.extractLsb' 8 3 = x)
    (hy : lo.extractLsb' 0 8 = y) : x ++ y = lo :=
  whole_eq (extract_append hy hx)

theorem low_4_7 {x : BitVec 4} {n : BitVec 7} (hx : lo.extractLsb' 7 4 = x)
    (hn : lo.extractLsb' 0 7 = n) : x ++ n = lo :=
  whole_eq (extract_append hn hx)

theorem low_5_6 {x : BitVec 5} {y : BitVec 6} (hx : lo.extractLsb' 6 5 = x)
    (hy : lo.extractLsb' 0 6 = y) : x ++ y = lo :=
  whole_eq (extract_append hy hx)

theorem low_7_4 {x : BitVec 7} {n : BitVec 4} (hx : lo.extractLsb' 4 7 = x)
    (hn : lo.extractLsb' 0 4 = n) : x ++ n = lo :=
  whole_eq (extract_append hn hx)

theorem low_9_2 {x : BitVec 9} {w : BitVec 2} (hx : lo.extractLsb' 2 9 = x)
    (hw : lo.extractLsb' 0 2 = w) : x ++ w = lo :=
  whole_eq (extract_append hw hx)

theorem low_1_3_7 {p : BitVec 1} {x : BitVec 3} {y : BitVec 7} (hp : lo.extractLsb' 10 1 = p)
    (hx : lo.extractLsb' 7 3 = x) (hy : lo.extractLsb' 0 7 = y) : p ++ x ++ y = lo :=
  whole_eq (extract_append hy (extract_append hx hp))

theorem low_1_4_6 {p : BitVec 1} {x : BitVec 4} {l : BitVec 6} (hp : lo.extractLsb' 10 1 = p)
    (hx : lo.extractLsb' 6 4 = x) (hl : lo.extractLsb' 0 6 = l) : p ++ x ++ l = lo :=
  whole_eq (extract_append hl (extract_append hx hp))

theorem low_3_4_4 {m : BitVec 3} {x : BitVec 4} {t : BitVec 4} (hm : lo.extractLsb' 8 3 = m)
    (hx : lo.extractLsb' 4 4 = x) (ht : lo.extractLsb' 0 4 = t) : m ++ x ++ t = lo :=
  whole_eq (extract_append ht (extract_append hx hm))

theorem low_3_5_3 {m : BitVec 3} {x : BitVec 5} {t : BitVec 3} (hm : lo.extractLsb' 8 3 = m)
    (hx : lo.extractLsb' 3 5 = x) (ht : lo.extractLsb' 0 3 = t) : m ++ x ++ t = lo :=
  whole_eq (extract_append ht (extract_append hx hm))

theorem low_3_6_2 {m : BitVec 3} {x : BitVec 6} {w : BitVec 2} (hm : lo.extractLsb' 8 3 = m)
    (hx : lo.extractLsb' 2 6 = x) (hw : lo.extractLsb' 0 2 = w) : m ++ x ++ w = lo :=
  whole_eq (extract_append hw (extract_append hx hm))

theorem low_5_2_4 {x : BitVec 5} {r : BitVec 2} {t : BitVec 4} (hx : lo.extractLsb' 6 5 = x)
    (hr : lo.extractLsb' 4 2 = r) (ht : lo.extractLsb' 0 4 = t) : x ++ r ++ t = lo :=
  whole_eq (extract_append ht (extract_append hr hx))

theorem low_6_1_4 {x : BitVec 6} {t : BitVec 1} {n : BitVec 4} (hx : lo.extractLsb' 5 6 = x)
    (ht : lo.extractLsb' 4 1 = t) (hn : lo.extractLsb' 0 4 = n) : x ++ t ++ n = lo :=
  whole_eq (extract_append hn (extract_append ht hx))

theorem low_1_5_1_4 {r : BitVec 1} {x : BitVec 5} {t : BitVec 1} {p : BitVec 4} (hr : lo.extractLsb' 10 1 = r)
    (hx : lo.extractLsb' 5 5 = x) (ht : lo.extractLsb' 4 1 = t) (hp : lo.extractLsb' 0 4 = p) :
    r ++ x ++ t ++ p = lo :=
  whole_eq (extract_append hp (extract_append ht (extract_append hx hr)))

theorem low_3_2_2_4 {x : BitVec 3} {t : BitVec 2} {y : BitVec 2} {p : BitVec 4} (hx : lo.extractLsb' 8 3 = x)
    (ht : lo.extractLsb' 6 2 = t) (hy : lo.extractLsb' 4 2 = y) (hp : lo.extractLsb' 0 4 = p) :
    x ++ t ++ y ++ p = lo :=
  whole_eq (extract_append hp (extract_append hy (extract_append ht hx)))

theorem low_5_3_1_2 {c : BitVec 5} {m : BitVec 3} {x : BitVec 1} {t : BitVec 2} (hc : lo.extractLsb' 6 5 = c)
    (hm : lo.extractLsb' 3 3 = m) (hx : lo.extractLsb' 2 1 = x) (ht : lo.extractLsb' 0 2 = t) :
    c ++ m ++ x ++ t = lo :=
  whole_eq (extract_append ht (extract_append hx (extract_append hm hc)))

theorem low_2_1_2_2_4 {x : BitVec 2} {z : BitVec 1} {t : BitVec 2} {y : BitVec 2} {p : BitVec 4}
    (hx : lo.extractLsb' 9 2 = x) (hz : lo.extractLsb' 8 1 = z) (ht : lo.extractLsb' 6 2 = t)
    (hy : lo.extractLsb' 4 2 = y) (hp : lo.extractLsb' 0 4 = p) : x ++ z ++ t ++ y ++ p = lo :=
  whole_eq (extract_append hp (extract_append hy (extract_append ht (extract_append hz hx))))

theorem low_5_2_1_1_1_1 {x : BitVec 5} {r : BitVec 2} {t : BitVec 1} {u : BitVec 1} {v : BitVec 1} {y : BitVec 1}
    (hx : lo.extractLsb' 6 5 = x) (hr : lo.extractLsb' 4 2 = r) (ht : lo.extractLsb' 3 1 = t)
    (hu : lo.extractLsb' 2 1 = u) (hv : lo.extractLsb' 1 1 = v)
    (hy : lo.extractLsb' 0 1 = y) : x ++ r ++ t ++ u ++ v ++ y = lo :=
  whole_eq (extract_append hy (extract_append hv (extract_append hu (extract_append ht (extract_append hr hx)))))


end Low

/-! ### What a decoder reads has the word -/

/-- What is read from the pieces of a word, if anything, has that word. -/
def HasWord (mj : Nat) (d a b : BitVec 5) (lo : BitVec 11) (r : Except Reject Instr) : Prop :=
  ∀ i, r = .ok i → encode i = some (mkWord mj d a b lo)

section Words

variable {mj : Nat} {d a b d' a' b' : BitVec 5} {lo lo' : BitVec 11}

theorem hasWord_error {e : Reject} : HasWord mj d a b lo (.error e) := by
  rintro _ ⟨⟩

theorem hasWord_ok {i : Instr} (h : encode i = some (mkWord mj d a b lo)) : HasWord mj d a b lo (.ok i) :=
  fun _ e => Except.ok.inj e ▸ h

theorem hasWord_ite {c : Prop} [Decidable c] {i : Instr} {r : Except Reject Instr}
    (h : c → encode i = some (mkWord mj d a b lo)) (hr : HasWord mj d a b lo r) :
    HasWord mj d a b lo (if c then .ok i else r) := by
  split
  · next hc => exact hasWord_ok (h hc)
  · exact hr

/-- A form that leaves fields zero. -/
theorem hasWord_zeros {c : Prop} [Decidable c] {i : Instr} {e : Reject}
    (h : c → encode i = some (mkWord mj d a b lo)) : HasWord mj d a b lo (if c then .ok i else .error e) :=
  hasWord_ite h hasWord_error

theorem word_congr (hd : d' = d) (ha : a' = a) (hb : b' = b) (hlo : lo' = lo) :
    some (mkWord mj d' a' b' lo') = some (mkWord mj d a b lo) := by
  rw [hd, ha, hb, hlo]

theorem word_low (h : lo' = lo) : some (mkWord mj d a b lo') = some (mkWord mj d a b lo) := word_congr rfl rfl rfl h

end Words

section Decoders

variable (d a b : BitVec 5) (lo : BitVec 11)

theorem decInt_hasWord : HasWord 0x01 d a b lo (decInt d a b lo) := by
  unfold decInt
  split
  case h_29 => exact hasWord_error
  all_goals exact hasWord_ok rfl

theorem decShifti_hasWord : HasWord 0x06 d a b lo (decShifti d a b lo) := by
  unfold decShifti
  split <;> rename_i hop
  case h_8 => exact hasWord_error
  all_goals exact hasWord_zeros fun ⟨hb, hz⟩ =>
    word_congr rfl rfl (whole_eq (extract_append hb hop)) (low_5_6 hz rfl)

theorem decMuldiv_hasWord : HasWord 0x0a d a b lo (decMuldiv d a b lo) := by
  unfold decMuldiv
  split
  case h_14 => exact hasWord_error
  all_goals exact hasWord_ok rfl

theorem decBits_hasWord : HasWord 0x0b d a b lo (decBits d a b lo) := by
  unfold decBits
  have word : ∀ {y : BitVec 7}, lo.extractLsb' 7 3 = 4#3 →
      b = 0#5 ∧ lo.extractLsb' 10 1 = 0#1 ∧ lo.extractLsb' 0 7 = y →
      some (mkWord 0x0b d a 0#5 (0#1 ++ 4#3 ++ y)) = some (mkWord 0x0b d a b lo) :=
    fun hop ⟨hb, hp, hy⟩ => word_congr rfl rfl hb.symm (low_1_3_7 hp hop hy)
  split <;> rename_i hop
  case h_5 => exact hasWord_error
  case h_4 =>
    exact hasWord_ite (word hop) (hasWord_ite (word hop) (hasWord_ite (word hop) (hasWord_ite (word hop)
      (hasWord_zeros (word hop)))))
  all_goals
    exact hasWord_zeros fun hz =>
      word_congr rfl rfl (low_append _ _) (low_1_4_6 (high_append _ _).symm (extract_append hz hop) rfl)

theorem decAddr_hasWord : HasWord 0x0c d a b lo (decAddr d a b lo) := by
  unfold decAddr
  split <;> rename_i hop
  case h_6 => exact hasWord_error
  case h_3 => exact hasWord_zeros fun ⟨hd, hz⟩ => word_congr hd.symm rfl rfl (low_3_8 hop hz)
  case h_4 => exact hasWord_zeros fun hz => word_low (low_3_8 hop hz)
  case h_5 => exact hasWord_zeros fun ⟨hb, hz⟩ => word_congr rfl rfl hb.symm (low_5_6 (extract_append hz hop) rfl)
  all_goals exact hasWord_zeros fun hz => word_low (low_5_6 (extract_append hz hop) rfl)

theorem decBc_hasWord : HasWord 0x18 d a b lo (decBc d a b lo) := by
  unfold decBc
  split
  case h_7 => exact hasWord_error
  all_goals exact hasWord_ok (word_congr rfl rfl (high_append _ _) (low_append _ _))

theorem decBcmp_hasWord : HasWord 0x19 d a b lo (decBcmp d a b lo) := by
  unfold decBcmp
  split <;> rename_i hop
  case h_7 => exact hasWord_error
  all_goals
    exact hasWord_ok (word_congr rfl rfl (whole_eq (extract_append (high_append _ _).symm hop)) (low_append _ _))

theorem decJr_hasWord : HasWord 0x1c d a b lo (decJr d a b lo) := by
  unfold decJr
  split
  case h_3 => exact hasWord_error
  all_goals exact hasWord_zeros fun ⟨hd, hb⟩ => word_congr hd.symm rfl hb.symm rfl

theorem decCtrl_hasWord : HasWord 0x1d d a b lo (decCtrl d a b lo) := by
  unfold decCtrl
  split <;> rename_i hop
  case h_5 => exact hasWord_error
  case h_1 =>
    exact hasWord_zeros fun ⟨ha, hz⟩ =>
      word_congr rfl ha.symm (high_append _ _) (low_4_7 (extract_append hz hop) (low_append _ _).symm)
  case h_2 =>
    exact hasWord_zeros fun ⟨hd, hz⟩ =>
      word_congr hd.symm rfl (high_append _ _) (low_4_7 (extract_append hz hop) (low_append _ _).symm)
  all_goals
    exact hasWord_zeros fun hz =>
      word_congr rfl rfl (high_append _ _) (low_4_7 (extract_append hz hop) (low_append _ _).symm)

theorem decSys_hasWord : HasWord 0x1e d a b lo (decSys d a b lo) := by
  unfold decSys
  split <;> rename_i hop
  case h_9 => exact hasWord_error
  case h_1 | h_3 | h_4 =>
    exact hasWord_zeros fun ⟨hd, ha⟩ =>
      word_congr hd.symm ha.symm (high_append _ _) (low_5_6 hop (low_append _ _).symm)
  all_goals exact hasWord_zeros fun ⟨hd, ha, hb, hz⟩ => word_congr hd.symm ha.symm hb.symm (low_5_6 hop hz)

theorem decVint_hasWord : HasWord 0x1f d a b lo (decVint d a b lo) := by
  unfold decVint
  split <;> rename_i hop
  case h_23 => exact hasWord_error
  case h_21 => exact hasWord_zeros fun hb => word_congr rfl rfl hb.symm (low_3_6_2 rfl hop rfl)
  all_goals exact hasWord_ok (word_low (low_3_6_2 rfl hop rfl))

theorem decVflt_hasWord : HasWord 0x20 d a b lo (decVflt d a b lo) := by
  unfold decVflt
  split <;> rename_i hop
  case h_12 => exact hasWord_error
  case h_5 | h_8 | h_9 => exact hasWord_zeros fun hb => word_congr rfl rfl hb.symm (low_3_5_3 rfl hop rfl)
  all_goals exact hasWord_ok (word_low (low_3_5_3 rfl hop rfl))

theorem decVfma_hasWord : HasWord 0x21 d a b lo (decVfma d a b lo) := by
  unfold decVfma
  split <;> rename_i hop
  all_goals exact hasWord_ok (word_low (low_5_3_1_2 rfl rfl hop rfl))

theorem m_field {d : BitVec 5} (h : d.extractLsb' 3 2 = 0#2) : 0#2 ++ d.extractLsb' 0 3 = d :=
  whole_eq (extract_append rfl h)

theorem decVcmp_hasWord : HasWord 0x22 d a b lo (decVcmp d a b lo) := by
  unfold decVcmp
  split <;> rename_i hop
  case h_9 => exact hasWord_error
  case h_8 =>
    have word3 : ∀ {y : BitVec 4}, d.extractLsb' 3 2 = 0#2 ∧ a.extractLsb' 3 2 = 0#2 ∧ b.extractLsb' 3 2 = 0#2 ∧
        lo.extractLsb' 8 3 = 0#3 ∧ lo.extractLsb' 0 4 = y →
        some (mkWord 0x22 (0#2 ++ d.extractLsb' 0 3) (0#2 ++ a.extractLsb' 0 3) (0#2 ++ b.extractLsb' 0 3)
          (0#3 ++ 15#4 ++ y)) = some (mkWord 0x22 d a b lo) :=
      fun ⟨hd, ha, hb, hm, hy⟩ => word_congr (m_field hd) (m_field ha) (m_field hb) (low_3_4_4 hm hop hy)
    refine hasWord_ite word3 (hasWord_ite word3 (hasWord_ite word3 (hasWord_ite word3 ?_)))
    refine hasWord_ite (fun ⟨hd, ha, hb, hm, hy⟩ =>
      word_congr (m_field hd) (m_field ha) hb.symm (low_3_4_4 hm hop hy)) ?_
    refine hasWord_ite (fun ⟨hd, hb, hm, hy⟩ => word_congr (m_field hd) rfl hb.symm (low_3_4_4 hm hop hy)) ?_
    refine hasWord_ite (fun ⟨ha, hb, hm, hy⟩ => word_congr rfl (m_field ha) hb.symm (low_3_4_4 hm hop hy)) ?_
    exact hasWord_zeros fun ⟨ha, hb, hm, hy⟩ => word_congr rfl (m_field ha) hb.symm (low_3_4_4 hm hop hy)
  all_goals exact hasWord_zeros fun hd => word_congr (m_field hd) rfl rfl (low_3_4_4 rfl hop rfl)

theorem decVcvt_hasWord : HasWord 0x23 d a b lo (decVcvt d a b lo) := by
  unfold decVcvt
  split <;> rename_i hop
  case h_4 => exact hasWord_error
  case h_1 => exact hasWord_ok (word_congr rfl rfl (whole_eq (extract_append hop rfl)) (low_3_4_4 rfl rfl rfl))
  all_goals
    exact hasWord_zeros fun hm => word_congr rfl rfl (whole_eq (extract_append hop rfl)) (low_3_4_4 hm rfl rfl)

theorem decVperm_hasWord : HasWord 0x24 d a b lo (decVperm d a b lo) := by
  unfold decVperm
  split <;> rename_i hop
  case h_12 => exact hasWord_error
  case h_2 | h_4 | h_10 | h_11 => exact hasWord_zeros fun hb => word_congr rfl rfl hb.symm (low_3_6_2 rfl hop rfl)
  case h_8 | h_9 => exact hasWord_zeros fun hm => word_low (low_9_2 (extract_append hop hm) rfl)
  all_goals exact hasWord_ok (word_low (low_3_6_2 rfl hop rfl))

theorem decVlds_hasWord : HasWord 0x27 d a b lo (decVlds d a b lo) := by
  unfold decVlds
  split <;> rename_i hop
  case h_5 => exact hasWord_error
  all_goals exact hasWord_ok (word_low (low_3_6_2 rfl hop rfl))

/-- The fields of a count of 16 bits that a word splits. -/
theorem count_fields (y : BitVec 6) : (d ++ b ++ y).extractLsb' 11 5 = d ∧ (d ++ b ++ y).extractLsb' 6 5 = b ∧
    (d ++ b ++ y).extractLsb' 0 6 = y := by
  refine ⟨BitVec.eq_of_toNat_eq ?_, BitVec.eq_of_toNat_eq ?_, low_append _ _⟩ <;>
    simp only [toNat_append_eq, toNat_extract_eq] <;> omega

theorem decSeq_hasWord : HasWord 0x28 d a b lo (decSeq d a b lo) := by
  unfold decSeq
  split <;> rename_i hop
  case h_3 => exact hasWord_error
  case h_1 =>
    exact hasWord_zeros fun ⟨hd, hz⟩ => word_congr (whole_eq (extract_append rfl hd)) rfl rfl (low_5_6 hop hz)
  case h_2 =>
    obtain ⟨hd, hb, hy⟩ := count_fields d b (lo.extractLsb' 0 6)
    exact hasWord_ok (word_congr hd rfl hb (low_5_6 hop hy.symm))

theorem decMsg_hasWord : HasWord 0x29 d a b lo (decMsg d a b lo) := by
  unfold decMsg
  split <;> rename_i hop
  case h_8 => exact hasWord_error
  case h_1 | h_2 =>
    exact hasWord_zeros fun ⟨hd, hz⟩ => word_congr hd.symm rfl rfl (low_6_1_4 (extract_append hz hop) rfl rfl)
  case h_3 | h_4 =>
    exact hasWord_zeros fun ⟨ha, hb, hz⟩ =>
      word_congr rfl ha.symm hb.symm (low_6_1_4 (extract_append hz hop) rfl rfl)
  case h_5 | h_6 =>
    exact hasWord_zeros fun ⟨hb, hz⟩ => word_congr rfl rfl hb.symm (low_6_1_4 (extract_append hz hop) rfl rfl)
  case h_7 =>
    exact hasWord_zeros fun ⟨ha, hb, hz⟩ => word_congr rfl ha.symm hb.symm (low_7_4 (extract_append hz hop) rfl)

theorem decBar_hasWord : HasWord 0x2a d a b lo (decBar d a b lo) := by
  unfold decBar
  split <;> rename_i hop
  case h_6 => exact hasWord_error
  case h_1 | h_2 =>
    exact hasWord_zeros fun ⟨hd, ha, hb, hz⟩ =>
      word_congr hd.symm ha.symm hb.symm (low_7_4 (extract_append hz hop) rfl)
  case h_3 =>
    exact hasWord_zeros fun ⟨ha, hb, hz⟩ => word_congr rfl ha.symm hb.symm (low_7_4 (extract_append hz hop) rfl)
  case h_4 => exact hasWord_zeros fun ⟨hb, hz⟩ => word_congr rfl rfl hb.symm (low_7_4 (extract_append hz hop) rfl)
  case h_5 =>
    exact hasWord_zeros fun ⟨hd, hb, hz⟩ => word_congr hd.symm rfl hb.symm (low_7_4 (extract_append hz hop) rfl)

theorem decGang_hasWord : HasWord 0x2b d a b lo (decGang d a b lo) := by
  unfold decGang
  split <;> rename_i hop
  case h_4 => exact hasWord_error
  case h_1 => exact hasWord_zeros fun ⟨hb, hz⟩ => word_congr rfl rfl hb.symm (low_5_6 hop hz)
  case h_2 => exact hasWord_zeros fun ⟨hd, ha, hb, hz⟩ => word_congr hd.symm ha.symm hb.symm (low_5_6 hop hz)
  case h_3 => exact hasWord_zeros fun ⟨ha, hb, hz⟩ => word_congr rfl ha.symm hb.symm (low_5_6 hop hz)

theorem decXch_hasWord : HasWord 0x2c d a b lo (decXch d a b lo) := by
  unfold decXch
  split <;> rename_i hop
  case h_5 => exact hasWord_error
  case h_1 =>
    exact hasWord_zeros fun ⟨ha, hb, hz, hn⟩ =>
      word_congr rfl ha.symm hb.symm (low_6_1_4 (extract_append hz hop) rfl hn)
  case h_2 => exact hasWord_zeros fun ⟨hb, hz⟩ => word_congr rfl rfl hb.symm (low_5_6 hop hz)
  all_goals
    obtain ⟨hd, hb, hy⟩ := count_fields d b (lo.extractLsb' 0 6)
    exact hasWord_ok (word_congr hd rfl hb (low_5_6 hop hy.symm))

theorem decLdx_hasWord : HasWord 0x2d d a b lo (decLdx d a b lo) := by
  unfold decLdx
  split <;> rename_i hop
  case h_3 => exact hasWord_error
  all_goals exact hasWord_zeros fun hz => word_low (low_2_1_2_2_4 hop rfl rfl hz rfl)

theorem decStx_hasWord : HasWord 0x2e d a b lo (decStx d a b lo) := by
  unfold decStx
  split <;> rename_i hop
  case h_4 => exact hasWord_error
  all_goals exact hasWord_zeros fun ⟨hz, hy⟩ => word_low (low_3_2_2_4 (extract_append hz hop) rfl hy rfl)

theorem decAtom_hasWord : HasWord 0x2f d a b lo (decAtom d a b lo) := by
  unfold decAtom
  split <;> rename_i hop
  case h_12 => exact hasWord_error
  all_goals exact hasWord_zeros fun hy => word_low (low_1_5_1_4 rfl (extract_append hy hop) rfl rfl)

theorem decFence_hasWord : HasWord 0x30 d a b lo (decFence d a b lo) := by
  unfold decFence
  split <;> rename_i hop
  case h_5 => exact hasWord_error
  case h_4 => exact hasWord_zeros fun ⟨hd, ha, hb, hz⟩ => word_congr hd.symm ha.symm hb.symm (low_5_6 hop hz)
  all_goals
    exact hasWord_zeros fun ⟨hd, ha, hb, hz⟩ =>
      word_congr hd.symm ha.symm hb.symm (low_7_4 (extract_append hz hop) rfl)

theorem decRange_hasWord : HasWord 0x31 d a b lo (decRange d a b lo) := by
  unfold decRange
  split <;> rename_i hop
  case h_9 => exact hasWord_error
  case h_8 => exact hasWord_zeros fun ⟨ha, hz⟩ => word_congr rfl ha.symm rfl (low_5_6 hop hz)
  all_goals exact hasWord_zeros fun hz => word_low (low_5_6 hop hz)

theorem decGuard_hasWord : HasWord 0x32 d a b lo (decGuard d a b lo) := by
  unfold decGuard
  split <;> rename_i hop
  case h_10 => exact hasWord_error
  all_goals exact hasWord_zeros fun hz => word_low (low_5_6 hop hz)

theorem decCopy_hasWord : HasWord 0x33 d a b lo (decCopy d a b lo) := by
  unfold decCopy
  split <;> rename_i hop
  case h_8 => exact hasWord_error
  case h_1 | h_2 =>
    exact hasWord_zeros fun ⟨ha, hz⟩ => word_congr rfl (whole_eq (extract_append ha rfl)) rfl (low_5_6 hop hz)
  case h_3 | h_6 => exact hasWord_zeros fun ⟨ha, hb, hz⟩ => word_congr rfl ha.symm hb.symm (low_5_6 hop hz)
  case h_4 | h_7 => exact hasWord_zeros fun ⟨hb, hz⟩ => word_congr rfl rfl hb.symm (low_5_6 hop hz)
  case h_5 =>
    exact hasWord_ite (fun ⟨hd, hz⟩ => word_congr hd.symm rfl rfl (low_5_6 hop hz))
      (hasWord_zeros fun ⟨ha, hz⟩ => word_congr rfl ha.symm rfl (low_5_6 hop hz))

theorem decMtx_hasWord : HasWord 0x34 d a b lo (decMtx d a b lo) := by
  unfold decMtx
  have acc : d.extractLsb' 2 3 = 0#3 → 0#3 ++ d.extractLsb' 0 2 = d := fun hd => whole_eq (extract_append rfl hd)
  split <;> rename_i hop
  case h_7 => exact hasWord_error
  case h_1 => exact hasWord_zeros fun hd => word_congr (acc hd) rfl rfl (low_5_2_1_1_1_1 hop rfl rfl rfl rfl rfl)
  case h_2 => exact hasWord_zeros fun ⟨hd, ha, hb, hz⟩ => word_congr (acc hd) ha.symm hb.symm (low_5_6 hop hz)
  case h_3 | h_4 => exact hasWord_zeros fun ⟨hd, hb, hz⟩ => word_congr (acc hd) rfl hb.symm (low_5_6 hop hz)
  case h_5 =>
    exact hasWord_zeros fun ⟨hd, hb⟩ =>
      word_congr (acc hd) rfl (whole_eq (extract_append rfl hb)) (low_5_2_4 hop rfl rfl)
  case h_6 => exact hasWord_zeros fun ⟨hd, hz⟩ => word_congr hd.symm rfl rfl (low_5_6 hop hz)

theorem decEvt_hasWord : HasWord 0x35 d a b lo (decEvt d a b lo) := by
  unfold decEvt
  split <;> rename_i hop
  case h_7 => exact hasWord_error
  case h_1 =>
    exact hasWord_ite (fun hz => word_low (low_5_6 hop hz)) (hasWord_ite (fun hz => word_low (low_5_6 hop hz))
      (hasWord_zeros fun ⟨hb, hz⟩ => word_congr rfl rfl hb.symm (low_5_6 hop hz)))
  case h_3 => exact hasWord_zeros fun ⟨hb, hz⟩ => word_congr rfl rfl hb.symm (low_5_6 hop hz)
  case h_4 =>
    exact hasWord_ite (fun hz => word_low (low_5_6 hop hz))
      (hasWord_zeros fun ⟨hb, hz⟩ => word_congr rfl rfl hb.symm (low_5_6 hop hz))
  case h_6 =>
    exact hasWord_ite (fun ⟨ha, hb, hz⟩ => word_congr rfl ha.symm hb.symm (low_5_6 hop hz))
      (hasWord_zeros fun ⟨hb, hz⟩ => word_congr rfl rfl hb.symm (low_5_6 hop hz))
  all_goals exact hasWord_zeros fun hz => word_low (low_5_6 hop hz)

theorem decTask_hasWord : HasWord 0x36 d a b lo (decTask d a b lo) := by
  unfold decTask
  split <;> rename_i hop
  case h_4 => exact hasWord_error
  case h_1 => exact hasWord_zeros fun hz => word_low (low_5_6 hop hz)
  case h_2 => exact hasWord_zeros fun ⟨hd, ha, hb, hz⟩ => word_congr hd.symm ha.symm hb.symm (low_5_6 hop hz)
  case h_3 => exact hasWord_zeros fun ⟨hd, hb, hz⟩ => word_congr hd.symm rfl hb.symm (low_5_6 hop hz)

theorem decTime_hasWord : HasWord 0x37 d a b lo (decTime d a b lo) := by
  unfold decTime
  split <;> rename_i hop
  case h_4 => exact hasWord_error
  case h_1 =>
    exact hasWord_ite (fun ⟨ha, hb, hz⟩ => word_congr rfl ha.symm hb.symm (low_5_6 hop hz))
      (hasWord_zeros fun ⟨ha, hb, hz⟩ => word_congr rfl ha.symm hb.symm (low_5_6 hop hz))
  case h_2 =>
    exact hasWord_ite (fun hz => word_low (low_5_6 hop hz)) (hasWord_zeros fun hz => word_low (low_5_6 hop hz))
  case h_3 => exact hasWord_zeros fun ⟨hd, hb, hz⟩ => word_congr hd.symm rfl hb.symm (low_5_6 hop hz)

theorem decLstr_hasWord : HasWord 0x38 d a b lo (decLstr d a b lo) := by
  unfold decLstr
  split <;> rename_i hop
  case h_5 => exact hasWord_error
  case h_4 => exact hasWord_zeros fun ⟨hb, hz⟩ => word_congr rfl rfl hb.symm (low_5_6 hop hz)
  all_goals
    exact hasWord_zeros fun ⟨ha, hb, hz⟩ =>
      word_congr rfl (whole_eq (extract_append ha rfl)) hb.symm (low_5_6 hop hz)

/-- The word of an instruction with an immediate of 16 bits is that of its two parts. -/
theorem word_imm (mj : Nat) : some (mkWord mj d a ((b ++ lo).extractLsb' 11 5) ((b ++ lo).extractLsb' 0 11)) =
    some (mkWord mj d a b lo) := word_congr rfl rfl (high_append b lo) (low_append b lo)

/-- The word of a jump is that of the four parts of its offset. -/
theorem word_jump (mj : Nat) : let o := d ++ a ++ b ++ lo
    some (mkWord mj (o.extractLsb' 21 5) (o.extractLsb' 16 5) (o.extractLsb' 11 5) (o.extractLsb' 0 11)) =
      some (mkWord mj d a b lo) := by
  apply word_congr <;> apply BitVec.eq_of_toNat_eq <;> simp only [toNat_append_eq, toNat_extract_eq] <;> omega

/-- The word of a vector load or store is that of its parts. -/
theorem word_vmem (mj : Nat) : let o := b.extractLsb' 0 2 ++ lo
    some (mkWord mj d a (b.extractLsb' 2 3 ++ o.extractLsb' 11 2) (o.extractLsb' 0 11)) = some (mkWord mj d a b lo) :=
  word_congr rfl rfl (whole_eq (extract_append (high_append _ lo).symm rfl)) (low_append _ lo)

theorem decodeFields_hasWord (mj : Nat) : HasWord mj d a b lo (decodeFields mj d a b lo) := by
  unfold decodeFields
  split
  case h_1 => exact decInt_hasWord d a b lo
  case h_6 => exact decShifti_hasWord d a b lo
  case h_10 => exact decMuldiv_hasWord d a b lo
  case h_11 => exact decBits_hasWord d a b lo
  case h_12 => exact decAddr_hasWord d a b lo
  case h_24 => exact decBc_hasWord d a b lo
  case h_25 => exact decBcmp_hasWord d a b lo
  case h_26 | h_27 => exact hasWord_ok (word_jump d a b lo _)
  case h_28 => exact decJr_hasWord d a b lo
  case h_29 => exact decCtrl_hasWord d a b lo
  case h_30 => exact decSys_hasWord d a b lo
  case h_31 => exact decVint_hasWord d a b lo
  case h_32 => exact decVflt_hasWord d a b lo
  case h_33 => exact decVfma_hasWord d a b lo
  case h_34 => exact decVcmp_hasWord d a b lo
  case h_35 => exact decVcvt_hasWord d a b lo
  case h_36 => exact decVperm_hasWord d a b lo
  case h_37 | h_38 => exact hasWord_ok (word_vmem d a b lo _)
  case h_39 => exact decVlds_hasWord d a b lo
  case h_40 => exact decSeq_hasWord d a b lo
  case h_41 => exact decMsg_hasWord d a b lo
  case h_42 => exact decBar_hasWord d a b lo
  case h_43 => exact decGang_hasWord d a b lo
  case h_44 => exact decXch_hasWord d a b lo
  case h_45 => exact decLdx_hasWord d a b lo
  case h_46 => exact decStx_hasWord d a b lo
  case h_47 => exact decAtom_hasWord d a b lo
  case h_48 => exact decFence_hasWord d a b lo
  case h_49 => exact decRange_hasWord d a b lo
  case h_50 => exact decGuard_hasWord d a b lo
  case h_51 => exact decCopy_hasWord d a b lo
  case h_52 => exact decMtx_hasWord d a b lo
  case h_53 => exact decEvt_hasWord d a b lo
  case h_54 => exact decTask_hasWord d a b lo
  case h_55 => exact decTime_hasWord d a b lo
  case h_56 => exact decLstr_hasWord d a b lo
  case h_57 => exact hasWord_error
  all_goals exact hasWord_ok (word_imm d a b lo _)

end Decoders

/-! ### What is read from the word of an instruction -/

/-- The pieces of the word of an instruction, if it has one, are read as the instruction. -/
def ReadsBack (i : Instr) : Prop :=
  ∀ w, encode i = some w → decodeFields (wordMajor w) (wordD w) (wordA w) (wordB w) (wordLo w) = .ok i

theorem readsBack_of_none {i : Instr} (h : encode i = none) : ReadsBack i := fun w hw => by
  rw [h] at hw; cases hw

theorem readsBack_of_word {i : Instr} {mj : Nat} {d a b : BitVec 5} {lo : BitVec 11}
    (f : BitVec 5 → BitVec 5 → BitVec 5 → BitVec 11 → Except Reject Instr)
    (he : encode i = some (mkWord mj d a b lo)) (h : mj < 64) (hf : decodeFields mj = f)
    (hd : f d a b lo = .ok i) : ReadsBack i := fun w hw => by
  obtain rfl := Option.some.inj (hw.symm.trans he)
  rw [wordMajor_mkWord _ _ _ _ _ h, wordD_mkWord _ _ _ _ _ h, wordA_mkWord _ _ _ _ _ h, wordB_mkWord _ _ _ _ _ h,
    wordLo_mkWord _ _ _ _ _ h, hf, hd]

/-- A value cut in two parts, which are laid side by side again. -/
theorem parts_append {v w : Nat} (x : BitVec (v + w)) : x.extractLsb' w v ++ x.extractLsb' 0 w = x :=
  whole_eq (extract_append rfl (congrArg (x.extractLsb' · v) (Nat.zero_add w)))

open BitVec (extractLsb'_append_eq_of_le extractLsb'_append_eq_of_add_le extractLsb'_eq_self
  extractLsb'_append_extractLsb'_eq_extractLsb' reduceExtractLsb' reduceEq) in
theorem readsBack (i : Instr) : ReadsBack i := by
  cases i
  case frameReplay | followRequestTaken | loadDataReturn | memoryResponseTimeout | lateFaultTaken | releaseCauseTaken
      | registerWrite | barrierRelease | phaseClose | exchangeBeatSend | exchangeBeatReceive | rxWatchdog |
      messageArrival | messageEntersChannel | launchAdmission | launchStart | launchEnd | preemptRequest | preempt |
      contextSave | resume | rollback | copyStart | copyComplete | copyFault | streamedStepReplay | mailboxPost |
      loaderCallStart | tileStepStart | tileStepComplete | matrixOperationPerform | eventArrival | eventDelivery |
      eventOperationPerform | evdrainComplete | triggerFire | waittExpiry | domainClockStep | stationLookup |
      stationRangeRequest | rangeNotice | holderAcknowledge | coordinatorApply | conservatorCopy | retarget |
      guardOperationStart | curatorRequest | supplierForward | grantArrival | curatorRelease | writeBack |
      writeAcknowledgement | orderedStoreRelease | orderedStoreTimeout | hostWindowRead | hostWindowWrite |
      hostOrderedWriteRelease | hostReadCompletion | recordWrite | qcreate | qdestroy | cset | cancel | summary |
      tstep | hwin | mwin | soep | setstate | packageReset | dieReset | gatewayDieReset | dieUnresponsiveTimeout |
      linkCrcReplay | laneRetire | pathDown | thermalThrottle | debugResume | grandmasterLockChange | pathLive |
      configurationRequest | stackBaseDieReset | haltDebugAccess =>
    exact readsBack_of_none rfl
  case add | sub | and | or | xor | andn | orn | xnor | sll | srl | sra | rol | ror | slt | sltz | min | max | minz |
      maxz | addW | subW | sllW | srlW | sraW | addSat | subSat | seq | sne | mul | mulh | mulhz | mulhsz | div | divz
      | rem | remz | mulW | divW | divzW | remW | remzW | clz | ctz | popc | rev8 | revb | chkb | chkr | jr | jlr |
      eret | halt | wfe | ifence | yield | follow | split | gangst | ttplan | fenceAck | rload | rprobe | rsplit |
      rmerge | rinv | rres | rcompact | rstat | gbind | gunbind | gacqS | gacqX | grel | gtryS | gtryX | gflush |
      gstat | cpyst | deal | waitw | waitm | mbxrd | mcbld | evcfgPop | evcfgLeak | evcfgEng | evpost | evsweep |
      evread | evreadSt | evwrite | evdrain | launch | done | signal | rdtime | rdtimeTick | tarm | tarmEv | waitt |
      lswait =>
    exact readsBack_of_word (decodeFields _) rfl (by decide) rfl rfl
  case addi | andi | ori | xori | limh | slti | sltiz | ldB | ldH | ldW | ldD | ldBz | ldHz | ldWz | stB | stH | stW |
      stD =>
    exact readsBack_of_word (decodeFields _) rfl (by decide) rfl
      (congrArg _ (congrArg _ (parts_append (v := 5) (w := 11) _)))
  case slli | srli | srai | rori | slliW | srliW | sraiW =>
    refine readsBack_of_word decShifti rfl (by decide) rfl ?_
    simp (disch := decide) only [decShifti, extractLsb'_append_eq_of_le, extractLsb'_append_eq_of_add_le,
      extractLsb'_eq_self, Nat.reduceSub, reduceExtractLsb', and_self, if_true]
  case ext | extz | ins =>
    refine readsBack_of_word decBits rfl (by decide) rfl ?_
    simp (disch := decide) only [decBits, extractLsb'_append_eq_of_le, extractLsb'_append_eq_of_add_le,
      extractLsb'_eq_self, extractLsb'_append_extractLsb'_eq_extractLsb', Nat.reduceSub, reduceExtractLsb', if_true]
  case adda | suba | aligna =>
    refine readsBack_of_word decAddr rfl (by decide) rfl ?_
    simp (disch := decide) only [decAddr, extractLsb'_append_eq_of_le, extractLsb'_append_eq_of_add_le,
      extractLsb'_eq_self, Nat.reduceSub, reduceExtractLsb', and_self, if_true]
  case beqz | bnez | bltz | bgez | bgtz | blez =>
    refine readsBack_of_word decBc rfl (by decide) rfl ?_
    simp (disch := decide) only [decBc, extractLsb'_eq_self, extractLsb'_append_extractLsb'_eq_extractLsb']
  case beq | bne | blt | bge | blo | bhs =>
    refine readsBack_of_word decBcmp rfl (by decide) rfl ?_
    simp (disch := decide) only [decBcmp, extractLsb'_append_eq_of_le, extractLsb'_append_eq_of_add_le,
      extractLsb'_eq_self, extractLsb'_append_extractLsb'_eq_extractLsb', Nat.reduceSub]
  case j | jl =>
    refine readsBack_of_word (decodeFields _) rfl (by decide) rfl ?_
    simp (disch := decide) only [decodeFields, extractLsb'_eq_self, extractLsb'_append_extractLsb'_eq_extractLsb']
  case crr | crw | crs | crc =>
    refine readsBack_of_word decCtrl rfl (by decide) rfl ?_
    simp (disch := decide) only [decCtrl, extractLsb'_append_eq_of_le, extractLsb'_append_eq_of_add_le,
      extractLsb'_eq_self, extractLsb'_append_extractLsb'_eq_extractLsb', Nat.reduceSub, reduceExtractLsb', and_self,
      if_true]
  case svc | trap | brk =>
    refine readsBack_of_word decSys rfl (by decide) rfl ?_
    simp (disch := decide) only [decSys, extractLsb'_append_eq_of_le, extractLsb'_append_eq_of_add_le,
      extractLsb'_eq_self, extractLsb'_append_extractLsb'_eq_extractLsb', Nat.reduceSub, and_self, if_true]
  case vadd | vsub | vaddsSigned | vaddsUnsigned | vsubsSigned | vsubsUnsigned | vmul | vmulhSigned | vmulhUnsigned |
      vminSigned | vminUnsigned | vmaxSigned | vmaxUnsigned | vand | vor | vxor | vandn | vsll | vsrl | vsra | vabs |
      vsum =>
    refine readsBack_of_word decVint rfl (by decide) rfl ?_
    simp (disch := decide) only [decVint, extractLsb'_append_eq_of_le, extractLsb'_append_eq_of_add_le,
      extractLsb'_eq_self, Nat.reduceSub, if_true]
  case vfadd | vfsub | vfmul | vfdiv | vfsqrt | vfmin | vfmax | vfabs | vfneg | vfsum | vfsumw =>
    refine readsBack_of_word decVflt rfl (by decide) rfl ?_
    simp (disch := decide) only [decVflt, extractLsb'_append_eq_of_le, extractLsb'_append_eq_of_add_le,
      extractLsb'_eq_self, Nat.reduceSub, if_true]
  case vfma | vfms =>
    refine readsBack_of_word decVfma rfl (by decide) rfl ?_
    simp (disch := decide) only [decVfma, extractLsb'_append_eq_of_le, extractLsb'_append_eq_of_add_le,
      extractLsb'_eq_self, Nat.reduceSub]
  case vcmpEq | vcmpNe | vcmpLt | vcmpLe | vcmpGt | vcmpGe | vcmpUn | mand | mor | mxor | mandn | mnot | mfromg | mtog
      | mpop =>
    refine readsBack_of_word decVcmp rfl (by decide) rfl ?_
    simp (disch := decide) only [decVcmp, extractLsb'_append_eq_of_le, extractLsb'_append_eq_of_add_le,
      extractLsb'_eq_self, Nat.reduceSub, reduceExtractLsb', reduceEq, and_self, and_false, if_true, if_false]
  case vcvtEl | vcvtPack | vcvtUnpack =>
    refine readsBack_of_word decVcvt rfl (by decide) rfl ?_
    simp (disch := decide) only [decVcvt, extractLsb'_append_eq_of_le, extractLsb'_append_eq_of_add_le,
      extractLsb'_eq_self, Nat.reduceSub, if_true]
  case vperm | vbcast | vdup | vmov | vzip | vunzip | vslide | vins | vext | vcompress | vexpand =>
    refine readsBack_of_word decVperm rfl (by decide) rfl ?_
    simp (disch := decide) only [decVperm, extractLsb'_append_eq_of_le, extractLsb'_append_eq_of_add_le,
      extractLsb'_eq_self, Nat.reduceSub, reduceExtractLsb', if_true]
  case vld | vst =>
    refine readsBack_of_word (decodeFields _) rfl (by decide) rfl ?_
    simp (disch := decide) only [decodeFields, extractLsb'_append_eq_of_le, extractLsb'_append_eq_of_add_le,
      extractLsb'_eq_self, extractLsb'_append_extractLsb'_eq_extractLsb', Nat.reduceSub]
  case vlds | vsts | vgath | vscat =>
    refine readsBack_of_word decVlds rfl (by decide) rfl ?_
    simp (disch := decide) only [decVlds, extractLsb'_append_eq_of_le, extractLsb'_append_eq_of_add_le,
      extractLsb'_eq_self, Nat.reduceSub]
  case rfrm | loop =>
    refine readsBack_of_word decSeq rfl (by decide) rfl ?_
    simp (disch := decide) only [decSeq, extractLsb'_append_eq_of_le, extractLsb'_append_eq_of_add_le,
      extractLsb'_eq_self, extractLsb'_append_extractLsb'_eq_extractLsb', Nat.reduceSub, reduceExtractLsb', and_self,
      if_true]
  case send | sendV | recv | recvV | recvT | recvTV | msgst =>
    refine readsBack_of_word decMsg rfl (by decide) rfl ?_
    simp (disch := decide) only [decMsg, extractLsb'_append_eq_of_le, extractLsb'_append_eq_of_add_le,
      extractLsb'_eq_self, Nat.reduceSub, reduceExtractLsb', and_self, if_true]
  case arrive | waitb | testb | vote | bdef =>
    refine readsBack_of_word decBar rfl (by decide) rfl ?_
    simp (disch := decide) only [decBar, extractLsb'_append_eq_of_le, extractLsb'_append_eq_of_add_le,
      extractLsb'_eq_self, Nat.reduceSub, reduceExtractLsb', and_self, if_true]
  case comm | ttsend | ttrecv =>
    refine readsBack_of_word decXch rfl (by decide) rfl ?_
    simp (disch := decide) only [decXch, extractLsb'_append_eq_of_le, extractLsb'_append_eq_of_add_le,
      extractLsb'_eq_self, extractLsb'_append_extractLsb'_eq_extractLsb', Nat.reduceSub, reduceExtractLsb', and_self,
      if_true]
  case ldx | ldxAcq =>
    refine readsBack_of_word decLdx rfl (by decide) rfl ?_
    simp (disch := decide) only [decLdx, extractLsb'_append_eq_of_le, extractLsb'_append_eq_of_add_le,
      extractLsb'_eq_self, Nat.reduceSub, if_true]
  case stx | stxRel | stxOf =>
    refine readsBack_of_word decStx rfl (by decide) rfl ?_
    simp (disch := decide) only [decStx, extractLsb'_append_eq_of_le, extractLsb'_append_eq_of_add_le,
      extractLsb'_eq_self, Nat.reduceSub, reduceExtractLsb', and_self, if_true]
  case atomAdd | atomAnd | atomOr | atomXor | atomMin | atomMax | atomMinz | atomMaxz | atomSwap | atomCas | atomFadd
      =>
    refine readsBack_of_word decAtom rfl (by decide) rfl ?_
    simp (disch := decide) only [decAtom, extractLsb'_append_eq_of_le, extractLsb'_append_eq_of_add_le,
      extractLsb'_eq_self, Nat.reduceSub, reduceExtractLsb', if_true]
  case fenceAcq | fenceRel | fenceFull =>
    refine readsBack_of_word decFence rfl (by decide) rfl ?_
    simp (disch := decide) only [decFence, extractLsb'_append_eq_of_le, extractLsb'_append_eq_of_add_le,
      extractLsb'_eq_self, Nat.reduceSub, reduceExtractLsb', and_self, if_true]
  case cpy | cpyW | waitwSeq =>
    refine readsBack_of_word decCopy rfl (by decide) rfl ?_
    simp (disch := decide) only [decCopy, extractLsb'_append_eq_of_le, extractLsb'_append_eq_of_add_le,
      extractLsb'_eq_self, Nat.reduceSub, reduceExtractLsb', reduceEq, and_self, and_false, if_true, if_false]
  case mma | mzero | mlda | msta | mfmt =>
    refine readsBack_of_word decMtx rfl (by decide) rfl ?_
    simp (disch := decide) only [decMtx, extractLsb'_append_eq_of_le, extractLsb'_append_eq_of_add_le,
      extractLsb'_eq_self, Nat.reduceSub, reduceExtractLsb', and_self, if_true]
  case evdrainPop =>
    refine readsBack_of_word decEvt rfl (by decide) rfl ?_
    simp (disch := decide) only [decEvt, reduceExtractLsb', reduceEq, and_self, and_false, if_true, if_false]
  case ldtile | sttile | ldeal =>
    refine readsBack_of_word decLstr rfl (by decide) rfl ?_
    simp (disch := decide) only [decLstr, extractLsb'_append_eq_of_le, extractLsb'_append_eq_of_add_le,
      extractLsb'_eq_self, Nat.reduceSub, reduceExtractLsb', and_self, if_true]

/-! ### The obligations -/

theorem decode?_encode {i : Instr} {w : BitVec 32} (hwf : i.wf = true) (hw : encode i = some w) :
    decode? w = some i :=
  decode?_of_fields (readsBack i w hw) hwf

theorem encode_of_decode? {i : Instr} {w : BitVec 32} (h : decode? w = some i) : i.wf = true ∧ encode i = some w := by
  obtain ⟨hwf, hd⟩ := decode?_some h
  have hw := decodeFields_hasWord (wordD w) (wordA w) (wordB w) (wordLo w) (wordMajor w) i hd
  rw [mkWord_fields] at hw
  exact ⟨hwf, hw⟩

/-- The instructions that have a word: all but the events, of which four stand among the instructions in `Instr`
(FRAME_REPLAY, FOLLOW_REQUEST_TAKEN, LOAD_DATA_RETURN and MEMORY_RESPONSE_TIMEOUT) and the others behind them. -/
theorem encode_isSome (i : Instr) :
    (encode i).isSome = decide (i.ctorIdx < 275 ∧ i.ctorIdx ∉ [178, 195, 202, 203]) := by
  cases i <;> rfl

/-- Refutes O57: FRAME_REPLAY is an event, and stands among the first 271 of `Instr`, as three others do
(`encode_isSome`). The other two clauses hold: `decode?_encode` and `encode_of_decode?`. -/
theorem not_decodeEncode : ¬ Obligations.DecodeEncode := fun ⟨hcount, _, _⟩ =>
  absurd (hcount .frameReplay) (by decide)

/-- Settles O56, word by word. -/
theorem decodeWords : Obligations.DecodeWords := by
  unfold Obligations.DecodeWords
  decide +kernel

end Sys2Proof
end
section

/-! ## Nothing stops the machine (R65, R92, R175)

Each outcome of an instruction or event is a next state: at the leaves of its case distinctions stand only next states,
and the checks and dispatches of the shared operations, which answer one too. A function of the model whose branches are
plain is taken apart along its own cases (`fun_cases`). -/

namespace Sys2Proof.Machine

/-! ### Shared operations -/

theorem goesOn_next (t : State) : goesOn (.next t) := ⟨t, rfl⟩

theorem goesOn_ite {p : Prop} [Decidable p] {x y : Out} (hx : goesOn x) (hy : goesOn y) :
    goesOn (if p then x else y) := by
  split
  · exact hx
  · exact hy

theorem goesOn_andThen {o : Out} (h : goesOn o) (f : State → State) : goesOn (andThen o f) := by
  obtain ⟨t, rfl⟩ := h
  exact goesOn_next _

theorem State.checked_goesOn (s : State) (t : Option Trap) (d : State) : goesOn (s.checked t d) := by
  fun_cases State.checked <;> exact goesOn_next _

theorem State.dispatched_goesOn (s : State) (t : Option Trap) (full : Bool) (go : State) :
    goesOn (s.dispatched t full go) := by
  fun_cases State.dispatched <;> exact goesOn_next _

theorem State.branch_goesOn {n : Nat} (s : State) (taken : Bool) (o : BitVec n) : goesOn (s.branch taken o) :=
  goesOn_ite (s.checked_goesOn _ _) (goesOn_next _)

theorem AccRes.run_goesOn (r : AccRes) (k : Access → State → State) : goesOn (r.run k) := by
  fun_cases AccRes.run <;> exact goesOn_next _

/-! ### Instructions -/

theorem execRfrm_goesOn (n : BitVec 4) (a b : BitVec 5) (s : State) : goesOn (execRfrm n a b s) := by
  fun_cases execRfrm
  · exact goesOn_next _
  · exact State.checked_goesOn _ _ _

theorem State.recvWith_goesOn (s : State) (lim : Option Trap) (v : Bool) (raw : BitVec 1) (n : BitVec 4)
    (take : State → Msg → State) : goesOn (s.recvWith lim v raw n take) := by
  fun_cases State.recvWith <;> exact State.checked_goesOn _ _ _

theorem execRecvT_goesOn (d a : BitVec 5) (r : BitVec 1) (n : BitVec 4) (s : State) :
    goesOn (execRecvT d a r n s) := by
  fun_cases execRecvT <;> exact State.checked_goesOn _ _ _

theorem execRecvTV_goesOn (d a : BitVec 5) (r : BitVec 1) (n : BitVec 4) (s : State) :
    goesOn (execRecvTV d a r n s) := by
  fun_cases execRecvTV <;> exact State.checked_goesOn _ _ _

theorem execFollow_goesOn (d a : BitVec 5) (s : State) : goesOn (execFollow d a s) := by
  fun_cases execFollow
  · exact goesOn_next _
  · exact State.checked_goesOn _ _ _
  · exact State.checked_goesOn _ _ _

theorem execComm_goesOn (d : BitVec 5) (r : BitVec 1) (s : State) : goesOn (execComm d r s) :=
  goesOn_ite (goesOn_next _) (State.checked_goesOn _ _ _)

theorem execTtplan_goesOn (d a : BitVec 5) (s : State) : goesOn (execTtplan d a s) :=
  goesOn_ite (goesOn_next _) (State.checked_goesOn _ _ _)

theorem State.noPhase_goesOn (s : State) (c : Nat) : goesOn (s.noPhase c) :=
  goesOn_ite (goesOn_next _) (goesOn_next _)

theorem execTtsend_goesOn (c : BitVec 16) (a : BitVec 5) (s : State) : goesOn (execTtsend c a s) := by
  fun_cases execTtsend
  · exact State.noPhase_goesOn _ _
  · exact goesOn_next _
  · exact goesOn_next _
  · exact State.checked_goesOn _ _ _

theorem execTtrecv_goesOn (c : BitVec 16) (a : BitVec 5) (s : State) : goesOn (execTtrecv c a s) := by
  fun_cases execTtrecv
  · exact State.noPhase_goesOn _ _
  · exact goesOn_next _
  · exact State.checked_goesOn _ _ _

theorem State.ldx_goesOn (s : State) (d a b : BitVec 5) (z : BitVec 1) (sz : BitVec 2) (ord : Ord) (acq : Option Nat) :
    goesOn (s.ldx d a b z sz ord acq) :=
  goesOn_ite (goesOn_next _) (AccRes.run_goesOn _ _)

theorem State.stx_goesOn (s : State) (d a b : BitVec 5) (sz : BitVec 2) (ord : Ord) (rel : Option Nat) :
    goesOn (s.stx d a b sz ord rel) := by
  fun_cases State.stx
  case case2 => exact State.checked_goesOn _ _ _
  all_goals exact goesOn_next _

theorem State.atom_goesOn (s : State) (op : Nat) (d a b : BitVec 5) (r sz : BitVec 1) (p : BitVec 4) (zero : Bool)
    (f : Nat → Nat → Nat → Nat × BitVec 6) : goesOn (s.atom op d a b r sz p zero f) := by
  fun_cases State.atom
  · exact goesOn_next _
  · exact goesOn_next _
  · exact AccRes.run_goesOn _ _

theorem State.cpy_goesOn (s : State) (wait : Bool) (d : BitVec 5) (a : BitVec 3) (b : BitVec 5) :
    goesOn (s.cpy wait d a b) :=
  goesOn_ite (goesOn_next _) (State.dispatched_goesOn _ _ _ _)

theorem State.matrixOp_goesOn (s : State) (sub : Nat) (t : Option Trap) (x : OpSpans) (body : OpBody) :
    goesOn (s.matrixOp sub t x body) := State.dispatched_goesOn _ _ _ _

theorem State.launchNow_goesOn (s : State) (d : BitVec 5) (va : Word) (q : Nat) : goesOn (s.launchNow d va q) := by
  fun_cases State.launchNow <;> exact goesOn_next _

theorem execLaunch_goesOn (d a b : BitVec 5) (s : State) : goesOn (execLaunch d a b s) := by
  fun_cases execLaunch
  case case4 => exact State.launchNow_goesOn _ _ _ _
  all_goals exact goesOn_next _

theorem execBrk_goesOn (c : BitVec 11) (s : State) : goesOn (execBrk c s) := by
  fun_cases execBrk <;> exact goesOn_next _

theorem execWfe_goesOn (s : State) : goesOn (execWfe s) := by
  fun_cases execWfe <;> exact goesOn_next _

theorem execFenceAck_goesOn (s : State) : goesOn (execFenceAck s) := by
  fun_cases execFenceAck <;> exact goesOn_next _

theorem execWaitm_goesOn (d : BitVec 5) (s : State) : goesOn (execWaitm d s) := by
  fun_cases execWaitm <;> exact goesOn_next _

theorem execDone_goesOn (s0 : State) : goesOn (execDone s0) := by
  fun_cases execDone <;> exact goesOn_next _

theorem execLswait_goesOn (d a : BitVec 5) (s : State) : goesOn (execLswait d a s) := by
  fun_cases execLswait <;> exact goesOn_next _

/-! ### Events -/

theorem execMailboxPost_goesOn (c : Nat) (s : State) : goesOn (execMailboxPost c s) := by
  rw [show @execMailboxPost = delta% @execMailboxPost from rfl]
  dsimp only
  split
  · exact goesOn_next _
  · exact goesOn_ite (goesOn_next _) (goesOn_next _)
  · exact goesOn_next _

theorem execSupplierForward_goesOn (i : Nat) (s : State) : goesOn (execSupplierForward i s) := by
  unfold execSupplierForward
  dsimp only
  split
  · refine goesOn_ite (goesOn_next _) ?_
    split
    · exact goesOn_next _
    · exact goesOn_next _
    · refine goesOn_ite (goesOn_next _) ?_
      split <;> exact goesOn_next _
  · exact goesOn_next _

theorem State.command_goesOn (s : State) (pkg slot code : Nat) (run : CmdSlot → BitVec 512 → CmdRes) :
    goesOn (s.command pkg slot code run) := goesOn_ite (goesOn_next _) (goesOn_next _)

theorem execFrameReplay_goesOn (s : State) : goesOn (execFrameReplay s) := by
  fun_cases execFrameReplay <;> exact goesOn_next _

theorem execFollowRequestTaken_goesOn (leader follower : Nat) (s : State) : goesOn (execFollowRequestTaken leader
    follower s) := by
  fun_cases execFollowRequestTaken <;> exact goesOn_next _

theorem execRegisterWrite_goesOn (pkg off pid : Nat) (host : Bool) (xs : List (BitVec 8)) (s : State) : goesOn
    (execRegisterWrite pkg off pid host xs s) := by
  fun_cases execRegisterWrite <;> exact goesOn_next _

theorem execBarrierRelease_goesOn (c n : Nat) (s : State) : goesOn (execBarrierRelease c n s) := by
  fun_cases execBarrierRelease <;> exact goesOn_next _

theorem execMessageArrival_goesOn (i : Nat) (s : State) : goesOn (execMessageArrival i s) := by
  fun_cases execMessageArrival <;> exact goesOn_next _

theorem execLaunchAdmission_goesOn (pkg q : Nat) (s : State) : goesOn (execLaunchAdmission pkg q s) := by
  fun_cases execLaunchAdmission <;> exact goesOn_next _

theorem execLaunchStart_goesOn (pkg num grp : Nat) (s : State) : goesOn (execLaunchStart pkg num grp s) := by
  fun_cases execLaunchStart <;> exact goesOn_next _

theorem execLaunchEnd_goesOn (pkg num : Nat) (s : State) : goesOn (execLaunchEnd pkg num s) := by
  fun_cases execLaunchEnd <;> exact goesOn_next _

theorem execPreemptRequest_goesOn (pkg num : Nat) (s : State) : goesOn (execPreemptRequest pkg num s) := by
  fun_cases execPreemptRequest <;> exact goesOn_next _

theorem execContextSave_goesOn (pkg num : Nat) (s : State) : goesOn (execContextSave pkg num s) := by
  fun_cases execContextSave <;> exact goesOn_next _

theorem execResume_goesOn (pkg num : Nat) (s : State) : goesOn (execResume pkg num s) := by
  fun_cases execResume <;> exact goesOn_next _

theorem execRollback_goesOn (c : Nat) (s : State) : goesOn (execRollback c s) := by
  fun_cases execRollback <;> exact goesOn_next _

theorem execLoaderCallStart_goesOn (c : Nat) (s : State) : goesOn (execLoaderCallStart c s) := by
  fun_cases execLoaderCallStart <;> exact goesOn_next _

theorem execTileStepStart_goesOn (eng : Nat) (s : State) : goesOn (execTileStepStart eng s) := by
  fun_cases execTileStepStart <;> exact goesOn_next _

theorem execEventArrival_goesOn (i : Nat) (s : State) : goesOn (execEventArrival i s) := by
  fun_cases execEventArrival <;> exact goesOn_next _

theorem execEventDelivery_goesOn (eng : Nat) (s : State) : goesOn (execEventDelivery eng s) := by
  fun_cases execEventDelivery <;> exact goesOn_next _

theorem execEventOperationPerform_goesOn (c : Nat) (s : State) : goesOn (execEventOperationPerform c s) := by
  fun_cases execEventOperationPerform <;> exact goesOn_next _

theorem execTriggerFire_goesOn (unit : Nat) (s : State) : goesOn (execTriggerFire unit s) := by
  fun_cases execTriggerFire <;> exact goesOn_next _

theorem execDomainClockStep_goesOn (pkg : Nat) (x : BitVec 64) (s : State) : goesOn (execDomainClockStep pkg x s) :=
    by
  fun_cases execDomainClockStep <;> exact goesOn_next _

theorem execRangeNotice_goesOn (pkg pid station : Nat) (s : State) : goesOn (execRangeNotice pkg pid station s) := by
  fun_cases execRangeNotice <;> exact goesOn_next _

theorem execHolderAcknowledge_goesOn (c : Nat) (s : State) : goesOn (execHolderAcknowledge c s) := by
  fun_cases execHolderAcknowledge <;> exact goesOn_next _

theorem execCoordinatorApply_goesOn (pkg pid : Nat) (s : State) : goesOn (execCoordinatorApply pkg pid s) := by
  fun_cases execCoordinatorApply <;> exact goesOn_next _

theorem execConservatorCopy_goesOn (pkg pid : Nat) (s : State) : goesOn (execConservatorCopy pkg pid s) := by
  fun_cases execConservatorCopy <;> exact goesOn_next _

theorem execRetarget_goesOn (pkg pid : Nat) (s : State) : goesOn (execRetarget pkg pid s) := by
  fun_cases execRetarget <;> exact goesOn_next _

theorem execCuratorRequest_goesOn (i : Nat) (s : State) : goesOn (execCuratorRequest i s) := by
  fun_cases execCuratorRequest <;> exact goesOn_next _

theorem execGrantArrival_goesOn (i : Nat) (s : State) : goesOn (execGrantArrival i s) := by
  fun_cases execGrantArrival <;> exact goesOn_next _

theorem execCuratorRelease_goesOn (i : Nat) (s : State) : goesOn (execCuratorRelease i s) := by
  fun_cases execCuratorRelease <;> exact goesOn_next _

theorem execWriteBack_goesOn (i : Nat) (s : State) : goesOn (execWriteBack i s) := by
  fun_cases execWriteBack <;> exact goesOn_next _

theorem execWriteAcknowledgement_goesOn (i : Nat) (s : State) : goesOn (execWriteAcknowledgement i s) := by
  fun_cases execWriteAcknowledgement <;> exact goesOn_next _

theorem execOrderedStoreRelease_goesOn (i : Nat) (s : State) : goesOn (execOrderedStoreRelease i s) := by
  fun_cases execOrderedStoreRelease <;> exact goesOn_next _

theorem execOrderedStoreTimeout_goesOn (i : Nat) (s : State) : goesOn (execOrderedStoreTimeout i s) := by
  fun_cases execOrderedStoreTimeout <;> exact goesOn_next _

theorem execHostWindowRead_goesOn (pkg off len : Nat) (s : State) : goesOn (execHostWindowRead pkg off len s) := by
  fun_cases execHostWindowRead <;> exact goesOn_next _

theorem execHostWindowWrite_goesOn (pkg off : Nat) (xs : List (BitVec 8)) (s : State) : goesOn (execHostWindowWrite
    pkg off xs s) := by
  fun_cases execHostWindowWrite <;> exact goesOn_next _

theorem execHostOrderedWriteRelease_goesOn (pkg : Nat) (s : State) : goesOn (execHostOrderedWriteRelease pkg s) := by
  fun_cases execHostOrderedWriteRelease <;> exact goesOn_next _

theorem execRecordWrite_goesOn (pkg off pid : Nat) (host : Bool) (xs : List (BitVec 8)) (s : State) : goesOn
    (execRecordWrite pkg off pid host xs s) := by
  fun_cases execRecordWrite <;> exact goesOn_next _

theorem execDieReset_goesOn (pkg die : Nat) (s : State) : goesOn (execDieReset pkg die s) := by
  fun_cases execDieReset <;> exact goesOn_next _

theorem execGatewayDieReset_goesOn (pkg gw : Nat) (s : State) : goesOn (execGatewayDieReset pkg gw s) := by
  fun_cases execGatewayDieReset <;> exact goesOn_next _

theorem execDieUnresponsiveTimeout_goesOn (pkg die : Nat) (s : State) : goesOn (execDieUnresponsiveTimeout pkg die s)
    := by
  fun_cases execDieUnresponsiveTimeout <;> exact goesOn_next _

theorem execLinkCrcReplay_goesOn (pkg link : Nat) (s : State) : goesOn (execLinkCrcReplay pkg link s) := by
  fun_cases execLinkCrcReplay <;> exact goesOn_next _

theorem execLaneRetire_goesOn (pkg link : Nat) (s : State) : goesOn (execLaneRetire pkg link s) := by
  fun_cases execLaneRetire <;> exact goesOn_next _

theorem execPathDown_goesOn (pkg pod path : Nat) (s : State) : goesOn (execPathDown pkg pod path s) := by
  fun_cases execPathDown <;> exact goesOn_next _

theorem execPathLive_goesOn (pkg pod path : Nat) (s : State) : goesOn (execPathLive pkg pod path s) := by
  fun_cases execPathLive <;> exact goesOn_next _

theorem execStackBaseDieReset_goesOn (pkg stack : Nat) (s : State) : goesOn (execStackBaseDieReset pkg stack s) := by
  fun_cases execStackBaseDieReset <;> exact goesOn_next _

theorem execHaltDebugAccess_goesOn (c what idx : Nat) (wr : Bool) (x : BitVec 512) (s : State) : goesOn
    (execHaltDebugAccess c what idx wr x s) := by
  fun_cases execHaltDebugAccess <;> exact goesOn_next _

/-! ### Each instruction and event -/

theorem exec_goesOn (i : Instr) (s : State) : goesOn (exec i s) := by
  cases i
  case add | sub | and | or | xor | andn | orn | xnor | sll | srl | sra | rol | ror | slt | sltz | min | max | minz |
      maxz | addW | subW | sllW | srlW | sraW | addSat | subSat | seq | sne | addi | andi | ori | xori | limh | slti |
      sltiz | slli | srli | srai | rori | slliW | srliW | sraiW | mul | mulh | mulhz | mulhsz | div | divz | rem |
      remz | mulW | divW | divzW | remW | remzW | ext | extz | ins | clz | ctz | popc | rev8 | revb | adda | suba |
      aligna | svc | trap | ifence | yield | mand | mor | mxor | mandn | mnot | mfromg | mtog | mpop | split | gangst
      | loadDataReturn | memoryResponseTimeout | fenceAcq | fenceRel | fenceFull | cpyst | rdtime | waitt |
      lateFaultTaken | releaseCauseTaken | phaseClose | exchangeBeatSend | exchangeBeatReceive | rxWatchdog |
      messageEntersChannel | preempt | copyStart | copyComplete | copyFault | streamedStepReplay | tileStepComplete |
      matrixOperationPerform | evdrainComplete | waittExpiry | stationLookup | stationRangeRequest |
      guardOperationStart | hostReadCompletion | packageReset | thermalThrottle | debugResume | grandmasterLockChange
      | configurationRequest =>
    exact ⟨_, rfl⟩
  case chkb | chkr | ldB | ldH | ldW | ldD | ldBz | ldHz | ldWz | stB | stH | stW | stD | j | jl | jr | jlr | crr |
      crw | crs | crc | eret | halt | vadd | vsub | vaddsSigned | vaddsUnsigned | vsubsSigned | vsubsUnsigned | vmul |
      vmulhSigned | vmulhUnsigned | vminSigned | vminUnsigned | vmaxSigned | vmaxUnsigned | vand | vor | vxor | vandn
      | vsll | vsrl | vsra | vabs | vsum | vfadd | vfsub | vfmul | vfdiv | vfsqrt | vfmin | vfmax | vfabs | vfneg |
      vfsum | vfsumw | vfma | vfms | vcmpEq | vcmpNe | vcmpLt | vcmpLe | vcmpGt | vcmpGe | vcmpUn | vcvtEl | vcvtPack
      | vcvtUnpack | vperm | vbcast | vdup | vmov | vzip | vunzip | vslide | vins | vext | vcompress | vexpand | vld |
      vst | vlds | vsts | vgath | vscat | send | sendV | msgst | arrive | waitb | testb | vote | bdef | deal | waitw |
      waitwSeq | mbxrd | signal | rdtimeTick | tarm | tarmEv =>
    exact State.checked_goesOn _ _ _
  case rload | rprobe | rsplit | rmerge | rinv | rres | rcompact | rstat | gbind | gunbind | gacqS | gacqX | grel |
      gtryS | gtryX | gflush | gstat | mma | mfmt | mcbld | evcfgPop | evcfgLeak | evcfgEng | evpost | evsweep |
      evread | evreadSt | evwrite | evdrain | evdrainPop | ldtile | sttile | ldeal =>
    exact State.dispatched_goesOn _ _ _ _
  case beqz | bnez | bltz | bgez | bgtz | blez | beq | bne | blt | bge | blo | bhs | loop =>
    exact State.branch_goesOn _ _ _
  case ldx | ldxAcq =>
    exact State.ldx_goesOn _ _ _ _ _ _ _ _
  case stx | stxRel | stxOf =>
    exact State.stx_goesOn _ _ _ _ _ _ _
  case atomAdd | atomAnd | atomOr | atomXor | atomMin | atomMax | atomMinz | atomMaxz | atomSwap | atomCas | atomFadd
      =>
    delta exec
    exact State.atom_goesOn _ _ _ _ _ _ _ _ _ _
  case recv | recvV =>
    delta exec
    exact State.recvWith_goesOn _ _ _ _ _ _
  case cpy | cpyW =>
    exact State.cpy_goesOn _ _ _ _ _
  case mzero | mlda | msta =>
    delta exec
    exact State.matrixOp_goesOn _ _ _ _ _
  case qcreate | qdestroy | cset | cancel | summary | tstep | hwin | mwin | soep | setstate =>
    delta exec
    exact State.command_goesOn _ _ _ _ _
  case brk => exact execBrk_goesOn _ _
  case wfe => exact execWfe_goesOn _
  case rfrm => exact execRfrm_goesOn _ _ _ _
  case frameReplay => exact execFrameReplay_goesOn _
  case recvT => exact execRecvT_goesOn _ _ _ _ _
  case recvTV => exact execRecvTV_goesOn _ _ _ _ _
  case follow => exact execFollow_goesOn _ _ _
  case followRequestTaken => exact execFollowRequestTaken_goesOn _ _ _
  case comm => exact execComm_goesOn _ _ _
  case ttplan => exact execTtplan_goesOn _ _ _
  case ttsend => exact execTtsend_goesOn _ _ _
  case ttrecv => exact execTtrecv_goesOn _ _ _
  case fenceAck => exact execFenceAck_goesOn _
  case waitm => exact execWaitm_goesOn _ _
  case launch => exact execLaunch_goesOn _ _ _ _
  case done => exact execDone_goesOn _
  case lswait => exact execLswait_goesOn _ _ _
  case registerWrite => exact execRegisterWrite_goesOn _ _ _ _ _ _
  case barrierRelease => exact execBarrierRelease_goesOn _ _ _
  case messageArrival => exact execMessageArrival_goesOn _ _
  case launchAdmission => exact execLaunchAdmission_goesOn _ _ _
  case launchStart => exact execLaunchStart_goesOn _ _ _ _
  case launchEnd => exact execLaunchEnd_goesOn _ _ _
  case preemptRequest => exact execPreemptRequest_goesOn _ _ _
  case contextSave => exact execContextSave_goesOn _ _ _
  case resume => exact execResume_goesOn _ _ _
  case rollback => exact execRollback_goesOn _ _
  case mailboxPost => exact execMailboxPost_goesOn _ _
  case loaderCallStart => exact execLoaderCallStart_goesOn _ _
  case tileStepStart => exact execTileStepStart_goesOn _ _
  case eventArrival => exact execEventArrival_goesOn _ _
  case eventDelivery => exact execEventDelivery_goesOn _ _
  case eventOperationPerform => exact execEventOperationPerform_goesOn _ _
  case triggerFire => exact execTriggerFire_goesOn _ _
  case domainClockStep => exact execDomainClockStep_goesOn _ _ _
  case rangeNotice => exact execRangeNotice_goesOn _ _ _ _
  case holderAcknowledge => exact execHolderAcknowledge_goesOn _ _
  case coordinatorApply => exact execCoordinatorApply_goesOn _ _ _
  case conservatorCopy => exact execConservatorCopy_goesOn _ _ _
  case retarget => exact execRetarget_goesOn _ _ _
  case curatorRequest => exact execCuratorRequest_goesOn _ _
  case supplierForward => exact execSupplierForward_goesOn _ _
  case grantArrival => exact execGrantArrival_goesOn _ _
  case curatorRelease => exact execCuratorRelease_goesOn _ _
  case writeBack => exact execWriteBack_goesOn _ _
  case writeAcknowledgement => exact execWriteAcknowledgement_goesOn _ _
  case orderedStoreRelease => exact execOrderedStoreRelease_goesOn _ _
  case orderedStoreTimeout => exact execOrderedStoreTimeout_goesOn _ _
  case hostWindowRead => exact execHostWindowRead_goesOn _ _ _ _
  case hostWindowWrite => exact execHostWindowWrite_goesOn _ _ _ _
  case hostOrderedWriteRelease => exact execHostOrderedWriteRelease_goesOn _ _
  case recordWrite => exact execRecordWrite_goesOn _ _ _ _ _ _
  case dieReset => exact execDieReset_goesOn _ _ _
  case gatewayDieReset => exact execGatewayDieReset_goesOn _ _ _
  case dieUnresponsiveTimeout => exact execDieUnresponsiveTimeout_goesOn _ _ _
  case linkCrcReplay => exact execLinkCrcReplay_goesOn _ _ _
  case laneRetire => exact execLaneRetire_goesOn _ _ _
  case pathDown => exact execPathDown_goesOn _ _ _ _
  case pathLive => exact execPathLive_goesOn _ _ _ _
  case stackBaseDieReset => exact execStackBaseDieReset_goesOn _ _ _
  case haltDebugAccess => exact execHaltDebugAccess_goesOn _ _ _ _ _ _

/-! ### A step -/

theorem State.runWord_goesOn (s : State) (w : BitVec 32) : goesOn (s.runWord w) := by
  fun_cases State.runWord
  · exact goesOn_next _
  · exact goesOn_andThen (exec_goesOn _ _) _

theorem State.followWord_goesOn (s : State) (w : BitVec 32) (npc : LAddr) (size : Nat) :
    goesOn (s.followWord w npc size) := by
  fun_cases State.followWord
  · exact goesOn_next _
  · exact goesOn_next _
  · exact goesOn_andThen (State.runWord_goesOn _ _) _

theorem State.followFrame_goesOn (s : State) (n : BitVec 4) (a b : BitVec 5) (x y : Word) (ws : List (BitVec 32)) :
    goesOn (s.followFrame n a b x y ws) := by
  fun_cases State.followFrame
  · exact goesOn_next _
  · exact State.checked_goesOn _ _ _
  · exact execRfrm_goesOn _ _ _ _

theorem State.followStep_goesOn (s : State) : goesOn s.followStep := by
  fun_cases State.followStep
  case case4 => exact State.followWord_goesOn _ _ _ _
  case case6 => exact goesOn_andThen (State.followFrame_goesOn _ _ _ _ _ _ _) _
  all_goals exact goesOn_next _

theorem State.fetchStep_goesOn (s : State) : goesOn s.fetchStep := by
  fun_cases State.fetchStep
  · exact goesOn_next _
  · exact goesOn_andThen (State.runWord_goesOn _ _) _

theorem State.instrStep_goesOn (s : State) : goesOn s.instrStep := by
  fun_cases State.instrStep
  · exact State.followStep_goesOn s
  · exact goesOn_next _
  · exact State.fetchStep_goesOn s

/-- What is taken at a boundary goes on. -/
theorem State.atBoundary_goesOn {s : State} {o : Out} (h : s.atBoundary = some o) : goesOn o := by
  unfold State.atBoundary at h
  dsimp only at h
  split at h
  · cases h; exact ⟨_, rfl⟩
  · split at h
    · cases h; exact ⟨_, rfl⟩
    · split at h
      · cases h; exact ⟨_, rfl⟩
      · cases h

theorem State.boundaryStep_goesOn (s : State) : goesOn s.boundaryStep := by
  fun_cases State.boundaryStep
  case case3 h => exact State.atBoundary_goesOn h
  case case4 => exact State.instrStep_goesOn _
  all_goals exact goesOn_next _

theorem State.coreStep_goesOn (s : State) : goesOn s.coreStep := by
  fun_cases State.coreStep
  · exact goesOn_next _
  · exact execFrameReplay_goesOn _
  · exact ⟨_, rfl⟩
  · exact State.boundaryStep_goesOn _

/-- A turn that the domain can take goes on. -/
theorem State.turn_goesOn {s : State} {t : Turn} (h : s.canTake t = true) (r : List Turn) : goesOn (s.turn t r) := by
  cases t with
  | core c =>
    rw [show s.turn (.core c) r = _ from if_pos h]
    exact State.coreStep_goesOn _
  | event i => exact exec_goesOn i _
  | pass clk ns => exact goesOn_next _
  | upset x => exact goesOn_next _

/-- Settles O60: an instruction or event, a core's step and a turn that the domain can take each answer a next state; the
one turn that the domain cannot take names a core that it does not have. -/
theorem everyStepGoesOn : Obligations.EveryStepGoesOn := by
  refine ⟨exec_goesOn, fun s h => ?goes, fun s h => ?stops⟩
  case goes =>
    unfold State.mayStep at h
    unfold step
    cases hs : s.sched with
    | nil => exact goesOn_andThen s.coreStep_goesOn _
    | cons t r => rw [hs] at h; exact State.turn_goesOn h r
  case stops =>
    unfold State.mayStep at h
    unfold step
    cases hs : s.sched with
    | nil => rw [hs] at h; cases h
    | cons t r =>
      rw [hs] at h
      cases t with
      | core c => exact if_neg (Bool.eq_false_iff.mp h)
      | event i => cases h
      | pass clk ns => cases h
      | upset x => cases h

end Sys2Proof.Machine
end

section

/-! ## Repeat frames (R77, R78, R80) -/

namespace Sys2Proof.Machine

open Sys2Proof.Claims

/-! ### What a captured vector instruction changes -/

/-- From `s` to `t` only v and m registers, the pc, FSTAT and SRSEED may differ. -/
def vectorOnly (s t : State) : Prop :=
  t = withCtl (withRegs s { s.core.regs with v := t.core.regs.v, m := t.core.regs.m, pc := t.core.regs.pc })
    { s.core.ctl with fstat := t.core.ctl.fstat, srseed := t.core.ctl.srseed }

theorem vectorOnly_of_rounded {l : List (BitVec 5)} {s t : State} (h : onlyVRounded l s t) : vectorOnly s t := by
  obtain ⟨e, -⟩ := h
  rw [e]
  rfl

theorem vectorOnly_setM (s : State) (d : BitVec 3) (x : Word) : vectorOnly s (s.setM d x).adv := by
  unfold vectorOnly State.setM State.on Core.setM
  split <;> rfl

theorem vectorOnly_setM_setFlags (s : State) (d : BitVec 3) (x : Word) (fl : BitVec 6) :
    vectorOnly s ((s.setM d x).setFlags fl).adv := by
  unfold vectorOnly State.setM State.on Core.setM
  split <;> rfl

/-- A replay of a capturable instruction whose v registers are within VLIM completes. -/
theorem replayVec_within {q : Rename} {i : Instr} {s : State} {l : List (BitVec 5)} (hr : replayRegs q i = some l)
    (hl : overLimit s l = none) : ∃ t, replayVec q i s = some (.next t) ∧ vectorOnly s t := by
  cases i
  case mand | mor | mxor | mandn | mnot => exact ⟨_, rfl, vectorOnly_setM _ _ _⟩
  case vcmpEq | vcmpNe | vcmpLt | vcmpLe | vcmpGt | vcmpGe | vcmpUn =>
    cases hr
    exact ⟨_, congrArg some (State.checked_within hl _), vectorOnly_setM_setFlags _ _ _ _⟩
  case vcvtUnpack d a r x t0 =>
    cases hr
    exact ⟨_, congrArg some ((execVcvtUnpack_eq rfl rfl _ _ _).trans (State.checked_within hl _)),
      vectorOnly_of_rounded (onlyVRounded_writeBlock _ _ _ _ _ _)⟩
  case vadd | vsub | vaddsSigned | vaddsUnsigned | vsubsSigned | vsubsUnsigned | vmul | vmulhSigned | vmulhUnsigned |
      vminSigned | vminUnsigned | vmaxSigned | vmaxUnsigned | vand | vor | vxor | vandn | vsll | vsrl | vsra | vabs |
      vsum | vfadd | vfsub | vfmul | vfdiv | vfsqrt | vfmin | vfmax | vfabs | vfneg | vfsum | vfsumw | vfma | vfms |
      vcvtEl | vcvtPack | vperm | vdup | vmov | vzip | vunzip | vcompress | vexpand =>
    cases hr
    exact ⟨_, congrArg some (State.checked_within hl _), rfl⟩
  all_goals cases hr

theorem replayRegs_of_captureVec {w : BitVec 32} {i : Instr} (h : captureVec w = some i) :
    (replayRegs { sd := 0, sa := 0, sb := 0, sc := 0 } i).isSome = true := by
  unfold captureVec at h
  dsimp only at h
  split at h
  · split at h
    · rename_i hok
      cases h
      exact (Bool.and_eq_true_iff.mp hok).2
    · cases h
  · cases h

theorem captureVec_of_capture {w : BitVec 32} {i : Instr} (h : capture w = some (.vec i)) : captureVec w = some i := by
  unfold capture at h
  dsimp only at h
  split at h
  · split at h <;> cases h
  · obtain ⟨j, hj, e⟩ := Option.map_eq_some_iff.mp h
    cases e
    exact hj

/-- What a word captures as a vector instruction has v registers to name. -/
theorem capture_vec_regs {w : BitVec 32} {i : Instr} (h : capture w = some (.vec i)) (q : Rename) :
    replayRegs q i = some (Captured.regs q (.vec i)) := by
  have hq : (replayRegs q i).isSome = true := by
    have hs := replayRegs_of_captureVec (captureVec_of_capture h)
    revert hs
    cases i <;> exact id
  obtain ⟨l, hl⟩ := Option.isSome_iff_exists.mp hq
  rw [Captured.regs, hl]
  rfl

/-! ### One captured execution -/

theorem State.frameNext_eq (s : State) (f : Frame) (k : Nat) :
    s.frameNext { f with done := k } = frameStep f k s := by
  unfold State.frameNext frameStep
  dsimp only
  split <;> rfl

theorem State.replayLoop_of_one {s t : State} {f : Frame} (hf : s.core.frame = some f)
    (h : s.replayOne f = (t, true)) (m : Nat) : s.replayLoop (m + 1) = t.replayLoop m := by
  rw [State.replayLoop, hf]
  dsimp only
  rw [h]
  rfl

/-- The replay goes on behind a captured vector instruction that completes. -/
theorem State.replayLoop_vec {s t : State} {f : Frame} {i : Instr} (hf : s.core.frame = some f)
    (hw : capture (f.words.getD (f.done % f.words.length) 0) = some (.vec i))
    (hx : replayVec (f.rename (f.done / f.words.length)) i s = some (.next t)) (m : Nat) :
    s.replayLoop (m + 1) = (t.frameNext f).replayLoop m := by
  refine State.replayLoop_of_one hf ?_ m
  unfold State.replayOne
  dsimp only
  rw [hw]
  dsimp only
  rw [hx]

theorem execFrameReplay_of_some {s : State} {f : Frame} (h : s.core.frame = some f) (h0 : f.done % f.words.length = 0) :
    exec .frameReplay s = .next (s.resumed.replayLoop f.words.length) := by
  change execFrameReplay s = _
  unfold execFrameReplay
  rw [h]
  dsimp only
  rw [h0, Nat.sub_zero]

/-- Where a replay has begun, its captured execution `j` is of word `j`, under the number of the replay. -/
theorem replay_place {d n j : Nat} (h0 : d % n = 0) (hj : j < n) : (d + j) % n = j ∧ (d + j) / n = d / n := by
  obtain ⟨q, rfl⟩ := Nat.dvd_of_mod_eq_zero h0
  have hn : 0 < n := by omega
  rw [Nat.mul_add_mod, Nat.mul_add_div hn, Nat.mul_div_cancel_left _ hn, Nat.mod_eq_of_lt hj, Nat.div_eq_of_lt hj]
  exact ⟨rfl, rfl⟩

/-! ### A replay, execution by execution -/

/-- A captured vector instruction executed at place `j` of a replay that began at `f`. -/
theorem State.replayLoop_at {s t : State} {f : Frame} {i : Instr} {j : Nat} (h0 : f.done % f.words.length = 0)
    (hj : j < f.words.length) (hf : s.core.frame = some { f with done := f.done + j })
    (hw : capture (f.words.getD j 0) = some (.vec i))
    (hx : replayVec (f.rename (f.done / f.words.length)) i s = some (.next t)) (m : Nat) :
    s.replayLoop (m + 1) = (frameStep f (f.done + j) t).replayLoop m := by
  obtain ⟨hmod, hdiv⟩ := replay_place h0 hj
  rw [← State.frameNext_eq]
  refine State.replayLoop_vec (i := i) hf ?_ ?_ m
  · dsimp only
    rw [hmod]
    exact hw
  · dsimp only
    rw [hdiv]
    exact hx

theorem frameStep_frame (f : Frame) (k : Nat) (s : State) : (frameStep f k s).core.frame =
    if f.words.length * f.total ≤ k + 1 then none else some { f with done := k + 1 } := by
  unfold frameStep
  dsimp only
  split <;> rfl

/-- The states of a replay of vector words, one behind another (R78). -/
theorem replayLoop_chain {f : Frame} {u : Nat → State} (h0 : f.done % f.words.length = 0)
    (hu : ∀ j, j < f.words.length → ∃ i x, capture (f.words.getD j 0) = some (.vec i) ∧
      replayVec (f.rename (f.done / f.words.length)) i (u j) = some (.next x) ∧
      u (j + 1) = frameStep f (f.done + j) x ∧ (j + 1 < f.words.length → (u (j + 1)).core.frame.isSome = true))
    (m j : Nat) (hm : j + m = f.words.length) (hf : 0 < m → (u j).core.frame = some { f with done := f.done + j }) :
    (u j).replayLoop m = u f.words.length := by
  induction m generalizing j with
  | zero => rw [show f.words.length = j by omega]; rfl
  | succ m ih =>
    obtain ⟨i, x, hw, hx, hnext, hopen⟩ := hu j (by omega)
    rw [State.replayLoop_at h0 (by omega) (hf m.succ_pos) hw hx, ← hnext]
    refine ih (j + 1) (by omega) fun hpos => ?_
    have hsome := hopen (by omega)
    rw [hnext, frameStep_frame] at hsome ⊢
    split at hsome
    · cases hsome
    · rename_i hlt
      rw [if_neg hlt]
      rfl

/-! ### What a replay of vector words keeps -/

/-- What every captured vector instruction of a replay keeps. -/
structure ReplayKeeps (s t : State) : Prop where
  wait : t.core.wait = s.core.wait
  mem : t.mem = s.mem
  g : t.core.regs.g = s.core.regs.g
  priv : t.priv = s.priv
  vlim : t.core.ctl.vlim = s.core.ctl.vlim

theorem ReplayKeeps.trans {s t u : State} (h : ReplayKeeps s t) (k : ReplayKeeps t u) : ReplayKeeps s u where
  wait := k.wait.trans h.wait
  mem := k.mem.trans h.mem
  g := k.g.trans h.g
  priv := k.priv.trans h.priv
  vlim := k.vlim.trans h.vlim

theorem vectorOnly.keeps {s t : State} (h : vectorOnly s t) : ReplayKeeps s t := by
  rw [h]
  exact ⟨rfl, rfl, rfl, rfl, rfl⟩

theorem frameStep_keeps (f : Frame) (k : Nat) (s : State) : ReplayKeeps s (frameStep f k s) := by
  unfold frameStep
  dsimp only
  split <;> exact ⟨rfl, rfl, rfl, rfl, rfl⟩

theorem frameStep_pc (f : Frame) (k : Nat) (s : State) : (frameStep f k s).pc = f.at_ + 4 +
    if f.words.length * f.total ≤ k + 1 then 4 * BitVec.ofNat 21 f.words.length
    else 4 * BitVec.ofNat 21 ((k + 1) % f.words.length) := by
  unfold frameStep
  dsimp only
  split <;> rfl

theorem overLimit_of_within {s : State} {l : List (BitVec 5)}
    (h : s.priv = true ∨ ∀ r ∈ l, r.toNat < s.core.ctl.vlim.toNat) : overLimit s l = none := by
  unfold overLimit
  rcases h with hp | hr
  · rw [if_pos hp]
  · split
    · rfl
    · exact List.find?_eq_none.mpr fun r hm => by simpa using hr r hm

/-- The words that a replay of `f` executes are vector instructions whose v registers are within VLIM at a state. -/
def replaysWithin (f : Frame) (s : State) : Prop :=
  ∀ w ∈ f.words, ∃ i, capture w = some (.vec i) ∧ (s.priv = true ∨
    ∀ r ∈ Captured.regs (f.rename (f.done / f.words.length)) (.vec i), r.toNat < s.core.ctl.vlim.toNat)

theorem replaysWithin.of_keeps {f : Frame} {s t : State} (h : replaysWithin f s) (k : ReplayKeeps s t) :
    replaysWithin f t := by
  intro w hw
  rw [k.priv, k.vlim]
  exact h w hw

/-- A replay that has begun ends within the frame. -/
theorem replay_fits {d n T : Nat} (h0 : d % n = 0) (hlt : d < n * T) : d + n ≤ n * T := by
  obtain ⟨q, rfl⟩ := Nat.dvd_of_mod_eq_zero h0
  calc n * q + n = n * (q + 1) := rfl
    _ ≤ n * T := Nat.mul_le_mul_left n (lt_of_mul_lt_mul_left hlt n.zero_le)

/-- The rest of a replay of vector words within VLIM, from its captured execution `j`. -/
theorem replayLoop_within {f : Frame} (h0 : f.done % f.words.length = 0) (hlt : f.done < f.words.length * f.total)
    (m j : Nat) (hm : j + m = f.words.length) {s : State} (hw : replaysWithin f s)
    (hf : 0 < m → s.core.frame = some { f with done := f.done + j }) : ReplayKeeps s (s.replayLoop m) ∧
      (0 < m → ∃ x, s.replayLoop m = frameStep f (f.done + (f.words.length - 1)) x) := by
  induction m generalizing j s with
  | zero => exact ⟨⟨rfl, rfl, rfl, rfl, rfl⟩, fun h => absurd h (lt_irrefl 0)⟩
  | succ m ih =>
    have hj : j < f.words.length := by omega
    obtain ⟨i, hc, hr⟩ := hw (f.words.getD j 0) (by rw [List.getD_eq_getElem _ _ hj]; exact List.getElem_mem hj)
    obtain ⟨t, hx, ht⟩ := replayVec_within (capture_vec_regs hc _) (overLimit_of_within hr)
    have hk : ReplayKeeps s (frameStep f (f.done + j) t) := ht.keeps.trans (frameStep_keeps f _ t)
    rw [State.replayLoop_at h0 hj (hf m.succ_pos) hc hx]
    have hopen : 0 < m → (frameStep f (f.done + j) t).core.frame = some { f with done := f.done + (j + 1) } := by
      intro _
      have hfit := replay_fits h0 hlt
      rw [frameStep_frame, if_neg (by omega)]
      rfl
    obtain ⟨hrest, hlast⟩ := ih (j + 1) (by omega) (hw.of_keeps hk) hopen
    refine ⟨hk.trans hrest, fun _ => ?_⟩
    rcases m.eq_zero_or_pos with rfl | hpos
    · exact ⟨t, by rw [show f.words.length - 1 = j by omega]; rfl⟩
    · exact hlast hpos

/-- R78: a replay of vector words within VLIM completes. -/
theorem execFrameReplay_within {s : State} {f : Frame} (hf : s.core.frame = some f) (h0 : f.done % f.words.length = 0)
    (hlt : f.done < f.words.length * f.total) (hw : replaysWithin f s) :
    ∃ t x, exec .frameReplay s = .next t ∧ ReplayKeeps s.resumed t ∧
      t = frameStep f (f.done + (f.words.length - 1)) x := by
  have hpos : 0 < f.words.length := Nat.pos_of_ne_zero fun e => by rw [e, Nat.zero_mul] at hlt; omega
  obtain ⟨hk, hlast⟩ := replayLoop_within h0 hlt f.words.length 0 (Nat.zero_add _) (s := s.resumed) hw fun _ => hf
  obtain ⟨x, hx⟩ := hlast hpos
  exact ⟨_, x, execFrameReplay_of_some hf h0, hk, hx⟩

/-! ### A frame of one captured `mma` -/

/-- What the dispatch of a captured `mma`, and a late fault at it, leave as they are: DRNEXT has gone on by one. -/
structure MmaKeeps (s t : State) : Prop where
  wait : t.core.wait = s.core.wait
  run : t.core.run = s.core.run
  mem : t.mem = s.mem
  drnext : t.core.ctl.drnext = s.core.ctl.drnext + 1

theorem State.dispatchTo_mmaKeeps (s : State) (major sub : Nat) (x : OpSpans) (body : OpBody) :
    MmaKeeps s (s.dispatchTo major sub 0 x body) := ⟨rfl, rfl, rfl, rfl⟩

theorem State.markFaulted_mmaKeeps {s t : State} (h : MmaKeeps s t) (q : BitVec 16) (c : BitVec 8) (x : Nat) :
    MmaKeeps s (t.markFaulted q c x) := by
  obtain ⟨ring, ops, e⟩ := Core.settle_eq t.core q (·.faulted (c, x))
  rw [State.markFaulted_eq, State.on, e]
  exact ⟨h.wait, h.run, h.mem, h.drnext⟩

theorem Core.squash_keeps (c : Core) (q : BitVec 16) :
    (c.squash q).wait = c.wait ∧ (c.squash q).run = c.run ∧ (c.squash q).ctl = c.ctl := by
  rw [Core.squash_eq]
  exact ⟨rfl, rfl, rfl⟩

theorem State.lateFault_mmaKeeps {s t : State} (h : MmaKeeps s t) (q : BitVec 16) (c : BitVec 8) (x : Nat) :
    MmaKeeps s (t.lateFault q c x) := by
  unfold State.lateFault
  dsimp only
  split
  · split
    · obtain ⟨hwait, hrun, hctl⟩ := Core.squash_keeps
        { t.core with faults := { t.core.faults with lsue := satInc t.core.faults.lsue } } q
      exact ⟨hwait.trans h.wait, hrun.trans h.run, h.mem, (congrArg Ctl.drnext hctl).trans h.drnext⟩
    · refine State.markFaulted_mmaKeeps ?_ q c x
      exact ⟨h.wait, h.run, h.mem, h.drnext⟩
  · exact State.markFaulted_mmaKeeps h q c x

theorem Core.slotAnswer_free {c : Core} (hp : (c.entry c.ctl.drnext).state ≠ .pending)
    (hu : (c.entry c.ctl.drnext).untaken = false)
    (ho : ∀ o ∈ c.ops, o.seq.toNat % 64 ≠ c.ctl.drnext.toNat % 64) : c.slotAnswer = .free := by
  unfold Core.slotAnswer
  have hops : c.ops.any (fun o => slotOf o.seq == slotOf c.ctl.drnext) = false :=
    List.any_eq_false.mpr fun o hm => by simpa [slotOf] using ho o hm
  dsimp only
  rw [if_neg (by rw [hops]; simpa using hp), if_neg (by rw [hu]; exact Bool.false_ne_true)]

/-- A captured `mma` with a place in its queue and a free slot is dispatched. -/
theorem State.replayMma_free {s : State} (hq : s.core.matrixPlaces < 8) (hfree : s.core.slotAnswer = .free)
    (c : BitVec 2) (a b : BitVec 5) (r : BitVec 2) (f : StepForm) :
    ∃ t, s.replayMma c a b r f = some t ∧ MmaKeeps s t := by
  unfold State.replayMma
  dsimp only
  rw [if_neg (by omega), hfree]
  dsimp only
  split
  · exact ⟨_, rfl, State.dispatchTo_mmaKeeps _ _ _ _ _⟩
  · exact ⟨_, rfl, State.lateFault_mmaKeeps (State.dispatchTo_mmaKeeps _ _ _ _ _) _ _ _⟩

theorem State.replayLoop_mma {s t : State} {f : Frame} {c : BitVec 2} {a b : BitVec 5} {r : BitVec 2}
    {u v x y : BitVec 1} (hf : s.core.frame = some f)
    (hw : capture (f.words.getD (f.done % f.words.length) 0) = some (.mma c a b r u v x y))
    (hx : s.replayMma c a b r (stepForm u v x y) = some t) (hr : t.core.run = .running) (m : Nat) :
    s.replayLoop (m + 1) = (t.frameNext f).replayLoop m := by
  refine State.replayLoop_of_one hf ?_ m
  unfold State.replayOne
  dsimp only
  rw [hw]
  dsimp only
  rw [hx]
  exact if_pos hr

/-- R78: a frame whose replays are not done goes on at its first word. -/
theorem frameStep_single {f : Frame} (h1 : f.words.length = 1) (hlt : f.done + 1 < f.total) (s : State) :
    frameStep f f.done s = { s with core := { s.core with
      frame := some { f with done := f.done + 1 }, regs := { s.core.regs with pc := f.at_ + 4 } } } := by
  unfold frameStep
  dsimp only
  rw [h1, if_neg (by omega), Nat.mod_one]
  congr 3
  exact BitVec.add_zero _

/-- R80: a replay of a frame of one captured `mma`. -/
theorem execFrameReplay_mma {s : State} {f : Frame} {c : BitVec 2} {a b : BitVec 5} {r : BitVec 2}
    {u v x y : BitVec 1} (hf : s.core.frame = some f) (h1 : f.words.length = 1)
    (hw : capture (f.words.getD 0 0) = some (.mma c a b r u v x y)) (hrun : s.core.run = .running)
    (hq : s.core.matrixPlaces < 8) (hfree : s.core.slotAnswer = .free) :
    ∃ t, exec .frameReplay s = .next (frameStep f f.done t) ∧ MmaKeeps s.resumed t := by
  obtain ⟨t, ht, hk⟩ := State.replayMma_free (s := s.resumed) hq hfree c a b r (stepForm u v x y)
  refine ⟨t, ?_, hk⟩
  rw [execFrameReplay_of_some hf (by rw [h1, Nat.mod_one]), h1,
    State.replayLoop_mma (s := s.resumed) hf (by rw [h1, Nat.mod_one]; exact hw) ht (hk.run.trans hrun) 0]
  exact congrArg _ (State.frameNext_eq t f f.done)

theorem frameReplay : FrameReplay := by
  refine ⟨?within, ?mma, ?chain, fun f k => rfl,
    fun q d a b c m w t r x y s => ⟨rfl, rfl, rfl, rfl, rfl, rfl, rfl⟩⟩
  case within =>
    intro s f hf n h0 hlt hw
    obtain ⟨t, x, he, hk, ht⟩ := execFrameReplay_within hf h0 hlt hw
    have hpos : 0 < n := Nat.pos_of_ne_zero fun e => by rw [e, Nat.zero_mul] at hlt; omega
    have hn : f.done + (f.words.length - 1) + 1 = f.done + n := by change f.done + (n - 1) + 1 = _; omega
    refine ⟨t, he, hk.wait, hk.mem, hk.g, ?_, ?_⟩
    · rw [ht, frameStep_frame, hn]
    · rw [ht, frameStep_pc, hn, Nat.add_mod_right, h0]
      rfl
  case mma =>
    intro s f w c a b r u v x y hf hws hlt hc hrun hq hp hu ho
    have h1 : f.words.length = 1 := by rw [hws]; rfl
    obtain ⟨t, he, hk⟩ := execFrameReplay_mma hf h1 (by rw [hws]; exact hc) hrun hq (Core.slotAnswer_free hp hu ho)
    rw [frameStep_single h1 hlt] at he
    exact ⟨_, he, rfl, hk.drnext, hk.wait, rfl, hk.mem⟩
  case chain =>
    intro s f u hf hpos h0 hu0 hu
    rw [execFrameReplay_of_some hf h0, show s.resumed = u 0 from hu0.symm,
      replayLoop_chain h0 hu f.words.length 0 (Nat.zero_add _) fun _ => by rw [hu0]; exact hf]

/-! ### Words fetched one behind another (R26) -/

theorem Memory.read_lt (m : Memory) (k n : Nat) : m.read k n < 256 ^ n := by
  induction n generalizing k with
  | zero => exact Nat.one_pos
  | succ n ih =>
    have hb : (m.byte k).toNat < 256 := (m.byte k).isLt
    have hr := ih (k + 1)
    rw [Memory.read_succ, pow_succ]
    omega

theorem Memory.toNat_ofNat_read (m : Memory) (k n : Nat) : (BitVec.ofNat (8 * n) (m.read k n)).toNat = m.read k n := by
  rw [BitVec.toNat_ofNat, Nat.mod_eq_of_lt]
  rw [pow_mul]
  exact m.read_lt k n

theorem Memory.read_add (m : Memory) (k a b : Nat) : m.read k (a + b) = m.read k a + 256 ^ a * m.read (k + a) b := by
  induction a generalizing k with
  | zero => rw [Nat.zero_add, pow_zero, Nat.one_mul]; exact (Nat.zero_add _).symm
  | succ a ih =>
    rw [show a + 1 + b = a + b + 1 by omega, Memory.read_succ, Memory.read_succ, ih,
      show k + (a + 1) = k + 1 + a by omega, pow_succ]
    ring

/-- Bytes of a wider read are read by themselves. -/
theorem Memory.bitsAt_read (m : Memory) (k : Nat) {off n len : Nat} (h : off + n ≤ len) :
    bitsAt (m.read k len) (8 * off) (8 * n) = m.read (k + off) n := by
  obtain ⟨r, rfl⟩ := Nat.exists_eq_add_of_le h
  have hp : ∀ x, 2 ^ (8 * x) = 256 ^ x := fun x => pow_mul 2 8 x
  unfold bitsAt
  rw [hp, hp, Nat.add_assoc, Memory.read_add, Memory.read_add, Nat.add_mul_div_left _ _ (Nat.pow_pos (by decide)),
    Nat.div_eq_of_lt (m.read_lt k off), Nat.zero_add, Nat.add_mul_mod_self_left, Nat.mod_eq_of_lt (m.read_lt _ n)]

/-- From `s` to `t` the fetch buffer alone may differ, and it holds nothing or the bytes of the store. -/
def onlyFetched (s t : State) : Prop := t = { s with core := { s.core with fbuf := t.core.fbuf } } ∧ bufferTrue t

theorem onlyFetched.trans {s t u : State} (h : onlyFetched s t) (k : onlyFetched t u) : onlyFetched s u := by
  obtain ⟨e, -⟩ := h
  obtain ⟨e', hb⟩ := k
  exact ⟨e'.trans (by rw [e]), hb⟩

theorem onlyFetched.wordsAt {s t : State} (h : onlyFetched s t) (a n : Nat) :
    Claims.wordsAt t a n = Claims.wordsAt s a n := by
  rw [h.1]
  rfl

theorem State.fillFetch_onlyFetched (s : State) {a : Nat} (ha : a < 2 ^ 21) : onlyFetched s (s.fillFetch a) := by
  refine ⟨rfl, fun b x h => ?_⟩
  obtain ⟨rfl, rfl⟩ : BitVec.ofNat 21 (a / 64 * 64) = b ∧ BitVec.ofNat 512 (s.localRead (a / 64 * 64) 64) = x :=
    Prod.mk.inj (Option.some.inj h)
  rw [BitVec.toNat_ofNat, Nat.mod_eq_of_lt (by omega)]
  rfl

/-- A word of a block that the fetch buffer holds is the one in the store. -/
theorem State.buffer_word (s : State) {a : Nat} (h4 : a % 4 = 0) :
    BitVec.ofNat 32 (bitsAt (BitVec.ofNat 512 (s.localRead (a / 64 * 64) 64)).toNat (8 * (a % 64)) 32) =
      BitVec.ofNat 32 (s.localRead a 4) := by
  have hblk : (BitVec.ofNat 512 (s.localRead (a / 64 * 64) 64)).toNat = s.localRead (a / 64 * 64) 64 :=
    Memory.toNat_ofNat_read _ _ 64
  have hread : bitsAt (s.localRead (a / 64 * 64) 64) (8 * (a % 64)) (8 * 4) = s.localRead a 4 := by
    unfold State.localRead
    rw [Memory.bitsAt_read _ _ (by omega), ← Core.localKey_add, Nat.div_add_mod']
  rw [hblk, hread]

/-- R26: a word fetched while the fetch buffer holds what the store does. -/
theorem State.fetchWord_of_bufferTrue {s : State} (hb : bufferTrue s) {a : Nat} (h4 : a % 4 = 0) (ha : a < 2 ^ 21) :
    (s.fetchWord a).1 = BitVec.ofNat 32 (Claims.readAt s a 4) ∧ onlyFetched s (s.fetchWord a).2 := by
  rw [← State.localRead_eq_readAt]
  unfold State.fetchWord
  dsimp only
  split
  · exact ⟨rfl, s.fillFetch_onlyFetched ha⟩
  · rename_i blk x hf
    split
    · exact ⟨rfl, s.fillFetch_onlyFetched ha⟩
    · rename_i hblk
      rw [hb blk x hf, not_not.mp hblk, if_pos (s.buffer_word h4)]
      exact ⟨rfl, rfl, hb⟩

theorem wordsAt_succ (s : State) (a n : Nat) :
    Claims.wordsAt s a (n + 1) = BitVec.ofNat 32 (Claims.readAt s a 4) :: Claims.wordsAt s (a + 4) n := by
  unfold Claims.wordsAt
  rw [List.range_succ_eq_map, List.map_cons, List.map_map]
  refine congrArg _ (List.map_congr_left fun i _ => ?_)
  simp only [Function.comp_apply, Nat.succ_eq_add_one, show a + 4 * (i + 1) = a + 4 + 4 * i by omega]

theorem State.fetchWords_of_bufferTrue (n : Nat) {s : State} (hb : bufferTrue s) {a : Nat} (h4 : a % 4 = 0)
    (ha : a + 4 * n ≤ 2 ^ 21) :
    (s.fetchWords a n).1 = Claims.wordsAt s a n ∧ onlyFetched s (s.fetchWords a n).2 := by
  induction n generalizing s a with
  | zero => exact ⟨rfl, rfl, hb⟩
  | succ n ih =>
    obtain ⟨hw, ht⟩ := State.fetchWord_of_bufferTrue hb h4 (by omega)
    obtain ⟨hws, hu⟩ := ih ht.2 (a := a + 4) (by omega) (by omega)
    rw [State.fetchWords, wordsAt_succ, ← hw, ← ht.wordsAt, ← hws]
    exact ⟨rfl, ht.trans hu⟩

/-- R33: an address whose fetch fails no check is a multiple of 4 within the store. -/
theorem State.fetchCheck_none {s : State} {a : Nat} (h : s.fetchCheck a = none) : a % 4 = 0 ∧ a + 4 ≤ 0x180000 := by
  unfold State.fetchCheck State.localCheck spanCheck at h
  split at h
  · cases h
  · rename_i hl
    split at hl
    · cases hl
    · rename_i hs
      split at hs
      · cases hs
      · split at hs
        · cases hs
        · omega

theorem State.framesFetch_none {s : State} {a n : Nat} (h : s.framesFetch a (n + 1) = none) :
    a % 4 = 0 ∧ a + 4 * (n + 1) ≤ 2 ^ 21 := by
  have hall : ∀ i, i < n + 1 → s.fetchCheck (a + 4 * i) = none := fun i hi =>
    List.findSome?_eq_none_iff.mp h _ (List.mem_map_of_mem (List.mem_range.mpr hi))
  have hfirst := State.fetchCheck_none (hall 0 n.succ_pos)
  have hlast := State.fetchCheck_none (hall n n.lt_succ_self)
  omega

/-! ### Capture (R77) -/

theorem Frame.make_eq (x y : Word) (ws : List (BitVec 32)) (pc : LAddr) : Frame.make x y ws pc = frameOf x y ws pc := by
  have he : ∀ k, y.extractLsb' k 5 = BitVec.ofNat 5 (y.toNat / 2 ^ k) := fun k => by
    rw [BitVec.extractLsb', Nat.shiftRight_eq_div_pow]
  unfold Frame.make frameOf
  rw [he, he, he, he, pow_zero, Nat.div_one]

theorem frameCheck_none {x y : Word} (h1 : 1 ≤ x.toNat) (h2 : x.toNat ≤ 4096) (hy : y.toNat < 2 ^ 20) :
    frameCheck x y = none := by
  have hx : ¬ (x = 0 ∨ 4096 < x.toNat) := by
    rintro (rfl | h)
    · exact absurd h1 (by decide)
    · omega
  unfold frameCheck
  rw [if_neg hx, if_neg (by omega)]

theorem framesDecode_none {ws : List (BitVec 32)} (h : ∀ w ∈ ws, (capture w).isSome = true) (a : Nat) :
    framesDecode a ws = none := by
  refine List.findSome?_eq_none_iff.mpr fun p hp => ?_
  have hc := h p.1 (List.fst_mem_of_mem_zipIdx hp)
  exact if_neg (by rw [Option.isNone_iff_eq_none, ← Option.not_isSome_iff_eq_none, not_not]; exact hc)

/-- A frame whose v registers are within VLIM in every replay passes the check of R22. -/
theorem State.framesVcheck_none {s : State} {f : Frame} (h : s.priv = true ∨ ∀ k, k < f.total → ∀ w ∈ f.words, ∀ c,
    capture w = some c → ∀ r ∈ c.regs (f.rename k), r.toNat < s.core.ctl.vlim.toNat) : s.framesVcheck f = none := by
  unfold State.framesVcheck
  rw [State.vcheck_eq, overLimit_of_within]
  · rfl
  · refine h.imp id fun hr r hm => ?_
    obtain ⟨k, hk, hm⟩ := List.mem_flatMap.mp hm
    obtain ⟨w, hw, hm⟩ := List.mem_flatMap.mp hm
    have hk : k < f.total := lt_of_lt_of_le (List.mem_range.mp hk) (Nat.min_le_left _ _)
    cases hc : capture w with
    | none => rw [hc] at hm; cases hm
    | some c => rw [hc] at hm; exact hr k hk w hw c hc r hm

theorem execRfrm_of_some {n : BitVec 4} {a b : BitVec 5} {s : State} {t : Trap}
    (h : frameCheck (s.g a) (s.g b) = some t) : exec (.rfrm n a b) s = .next (s.trap t) := by
  change execRfrm n a b s = _
  unfold execRfrm
  dsimp only
  rw [h]
  rfl

theorem execRfrm_of_none {n : BitVec 4} {a b : BitVec 5} {s : State} (hc : frameCheck (s.g a) (s.g b) = none)
    (hf : s.framesFetch (s.pc.toNat + 4) (n.toNat + 1) = none) : exec (.rfrm n a b) s =
      let r := s.fetchWords (s.pc.toNat + 4) (n.toNat + 1)
      s.beginFrame r.2 (s.g a) (s.g b) r.1 := by
  change execRfrm n a b s = _
  unfold execRfrm
  dsimp only
  rw [hc, hf]
  rfl

theorem State.beginFrame_of_none {s t : State} {x y : Word} {ws : List (BitVec 32)}
    (hd : framesDecode (s.pc.toNat + 4) ws = none) (hv : t.framesVcheck (frameOf x y ws s.pc) = none) :
    s.beginFrame t x y ws = .next (t.on fun c => { c with frame := some (frameOf x y ws s.pc) }).adv := by
  unfold State.beginFrame
  dsimp only
  rw [hd, Frame.make_eq, hv]
  rfl

theorem frameCapture : FrameCapture := by
  intro n a b s ws f
  refine ⟨?captured, ?count, ?strides⟩
  case captured =>
    intro h1 h2 hy hb hf hd hv
    obtain ⟨h4, hlen⟩ := State.framesFetch_none hf
    obtain ⟨hws, ht⟩ := State.fetchWords_of_bufferTrue (n.toNat + 1) hb h4 hlen
    have he := execRfrm_of_none (frameCheck_none h1 h2 hy) hf
    generalize s.fetchWords (s.pc.toNat + 4) (n.toNat + 1) = r at he hws ht
    obtain ⟨e, -⟩ := ht
    have hvt : r.2.framesVcheck f = none := State.framesVcheck_none (by rw [e]; exact hv)
    dsimp only at he
    rw [hws, State.beginFrame_of_none (framesDecode_none hd _) hvt] at he
    exact ⟨_, he, by rw [e]; rfl⟩
  case count =>
    intro h
    have hx : s.g a = 0 ∨ 4096 < (s.g a).toNat := h.imp (fun h0 => BitVec.eq_of_toNat_eq h0) id
    exact execRfrm_of_some (if_pos hx)
  case strides =>
    intro h1 h2 hy
    have hx : ¬ (s.g a = 0 ∨ 4096 < (s.g a).toNat) := by
      rintro (h | h)
      · exact absurd h1 (by rw [un, h]; decide)
      · exact absurd h2 (by rw [un]; omega)
    refine execRfrm_of_some ((if_neg hx).trans (if_pos ?_))
    rw [un] at hy
    omega

/-- Settles O17. -/
theorem repeatFrames : Obligations.RepeatFrames := ⟨frameCapture, frameReplay⟩

end Sys2Proof.Machine
end

section

/-! ## Words as integers (R33, R35) -/

namespace Sys2Proof.Machine

open Sys2Proof.Claims

/-! ### Vectors of any width -/

section Widths

variable {v w : Nat}

theorem ofInt_toNat (x : BitVec v) : BitVec.ofInt w (x.toNat : Int) = x.setWidth w := by
  rw [BitVec.ofInt_natCast, BitVec.ofNat_toNat]

theorem ofInt_sub (x y : Int) : BitVec.ofInt w (x - y) = BitVec.ofInt w x - BitVec.ofInt w y := by
  rw [BitVec.sub_eq_add_neg, Int.sub_eq_add_neg, BitVec.ofInt_add, BitVec.ofInt_neg]

theorem ofInt_toNat_add (x y : BitVec v) :
    BitVec.ofInt w (x.toNat + y.toNat) = x.setWidth w + y.setWidth w := by
  rw [BitVec.ofInt_add, ofInt_toNat, ofInt_toNat]

theorem ofInt_toNat_sub (x y : BitVec v) :
    BitVec.ofInt w (x.toNat - y.toNat) = x.setWidth w - y.setWidth w := by
  rw [ofInt_sub, ofInt_toNat, ofInt_toNat]

theorem ofInt_toNat_mul (x y : BitVec v) :
    BitVec.ofInt w (x.toNat * y.toNat : Nat) = x.setWidth w * y.setWidth w := by
  rw [Nat.cast_mul, BitVec.ofInt_mul, ofInt_toNat, ofInt_toNat]

theorem ofInt_toNat_shiftLeft (x : BitVec v) (k : Nat) :
    BitVec.ofInt w (x.toNat * 2 ^ k : Nat) = x.setWidth w <<< k := by
  apply BitVec.eq_of_toNat_eq
  rw [BitVec.ofInt_natCast, BitVec.toNat_shiftLeft, BitVec.toNat_ofNat, BitVec.toNat_setWidth, Nat.shiftLeft_eq,
    Nat.mod_mul_mod]

theorem ofInt_toNat_ushiftRight (x : BitVec w) (k : Nat) : BitVec.ofInt w (x.toNat / 2 ^ k : Nat) = x >>> k := by
  apply BitVec.eq_of_toNat_eq
  rw [← Nat.shiftRight_eq_div_pow, ← BitVec.toNat_ushiftRight, ofInt_toNat, BitVec.setWidth_eq]

theorem ofInt_toInt_sshiftRight (x : BitVec w) (k : Nat) : BitVec.ofInt w (x.toInt / 2 ^ k) = x.sshiftRight k := by
  rw [BitVec.sshiftRight, Int.shiftRight_eq_div_pow, Nat.cast_pow, Nat.cast_ofNat]

/-- The two parts of a rotation have no bit in common. -/
theorem shiftLeft_add_ushiftRight (x : BitVec w) (k : Nat) : x <<< k + x >>> (w - k) = x <<< k ||| x >>> (w - k) := by
  refine BitVec.add_eq_or_of_and_eq_zero _ _ (BitVec.eq_of_getLsbD_eq fun i hi => ?_)
  rw [BitVec.getLsbD_and, BitVec.getLsbD_shiftLeft, BitVec.getLsbD_ushiftRight, BitVec.getLsbD_zero]
  by_cases h : i < k
  · simp [h]
  · rw [BitVec.getLsbD_of_ge x (w - k + i) (by omega), Bool.and_false]

theorem rotateLeft_eq_add (x : BitVec w) {k : Nat} (h : k < w) : x.rotateLeft k = x <<< k + x >>> (w - k) := by
  rw [BitVec.rotateLeft_eq_rotateLeftAux_of_lt h, shiftLeft_add_ushiftRight, BitVec.rotateLeftAux]

theorem rotateRight_eq_add (x : BitVec w) {k : Nat} (h : k < w) : x.rotateRight k = x >>> k + x <<< (w - k) := by
  have hs := shiftLeft_add_ushiftRight x (w - k)
  rw [Nat.sub_sub_self h.le] at hs
  rw [BitVec.rotateRight_eq_rotateRightAux_of_lt h, BitVec.add_comm, hs, BitVec.or_comm, BitVec.rotateRightAux]

theorem beq_iff_toNat {x y : BitVec w} : (x == y) = true ↔ x.toNat = y.toNat :=
  beq_iff_eq.trans BitVec.toNat_inj.symm

theorem bne_iff_toNat {x y : BitVec w} : (x != y) = true ↔ x.toNat ≠ y.toNat :=
  bne_iff_ne.trans BitVec.toNat_inj.not.symm

end Widths

/-! ### Words -/

theorem word_toNat (x : Word) : word x.toNat = x := by rw [word, ofInt_toNat, BitVec.setWidth_eq]

theorem word_toInt (x : Word) : word x.toInt = x := BitVec.ofInt_toInt

theorem add_eq_word (x y : Word) : x + y = word (x.toNat + y.toNat) := by
  rw [word, ofInt_toNat_add, BitVec.setWidth_eq, BitVec.setWidth_eq]

theorem add_signExtend_eq_word {n : Nat} (x : Word) (i : BitVec n) : x + i.signExtend 64 = word (x.toNat + i.toInt) := by
  rw [word, BitVec.ofInt_add, ofInt_toNat, BitVec.setWidth_eq, BitVec.signExtend]

theorem sub_eq_word (x y : Word) : x - y = word (x.toNat - y.toNat) := by
  rw [word, ofInt_toNat_sub, BitVec.setWidth_eq, BitVec.setWidth_eq]

theorem mul_eq_word (x y : Word) : x * y = word (x.toNat * y.toNat : Nat) := by
  rw [word, ofInt_toNat_mul, BitVec.setWidth_eq, BitVec.setWidth_eq]

theorem shiftLeft_eq_word (x : Word) (k : Nat) : x <<< k = word (x.toNat * 2 ^ k : Nat) := by
  rw [word, ofInt_toNat_shiftLeft, BitVec.setWidth_eq]

theorem ushiftRight_eq_word (x : Word) (k : Nat) : x >>> k = word (x.toNat / 2 ^ k : Nat) :=
  (ofInt_toNat_ushiftRight x k).symm

theorem sshiftRight_eq_word (x : Word) (k : Nat) : x.sshiftRight k = word (x.toInt / 2 ^ k) :=
  (ofInt_toInt_sshiftRight x k).symm

theorem word_add (x y : Nat) : word (x + y : Nat) = word x + word y := by
  rw [word, Nat.cast_add, BitVec.ofInt_add, word, word]

theorem word_sub (x y : Int) : word (x - y) = word x - word y := ofInt_sub x y

theorem rotateLeft_eq_word (x : Word) {k : Nat} (h : k < 64) :
    x.rotateLeft k = word (x.toNat * 2 ^ k + x.toNat / 2 ^ (64 - k) : Nat) := by
  rw [rotateLeft_eq_add x h, word_add, ← shiftLeft_eq_word, ← ushiftRight_eq_word]

theorem rotateRight_eq_word (x : Word) {k : Nat} (h : k < 64) :
    x.rotateRight k = word (x.toNat / 2 ^ k + x.toNat * 2 ^ (64 - k) : Nat) := by
  rw [rotateRight_eq_add x h, word_add, ← shiftLeft_eq_word, ← ushiftRight_eq_word]

theorem min_eq_word (x y : Word) : (if x.slt y then x else y) = word (min x.toInt y.toInt) := by
  split
  · rename_i h
    rw [min_eq_left (BitVec.slt_iff_toInt_lt.mp h).le, word_toInt]
  · rename_i h
    rw [min_eq_right (not_lt.mp (mt BitVec.slt_iff_toInt_lt.mpr h)), word_toInt]

theorem max_eq_word (x y : Word) : (if x.slt y then y else x) = word (max x.toInt y.toInt) := by
  split
  · rename_i h
    rw [max_eq_right (BitVec.slt_iff_toInt_lt.mp h).le, word_toInt]
  · rename_i h
    rw [max_eq_left (not_lt.mp (mt BitVec.slt_iff_toInt_lt.mpr h)), word_toInt]

theorem minz_eq_word (x y : Word) : (if x.ult y then x else y) = word (min x.toNat y.toNat : Nat) := by
  split
  · rename_i h
    rw [min_eq_left (BitVec.ult_iff_toNat_lt.mp h).le, word_toNat]
  · rename_i h
    rw [min_eq_right (not_lt.mp (mt BitVec.ult_iff_toNat_lt.mpr h)), word_toNat]

theorem maxz_eq_word (x y : Word) : (if x.ult y then y else x) = word (max x.toNat y.toNat : Nat) := by
  split
  · rename_i h
    rw [max_eq_right (BitVec.ult_iff_toNat_lt.mp h).le, word_toNat]
  · rename_i h
    rw [max_eq_left (not_lt.mp (mt BitVec.ult_iff_toNat_lt.mpr h)), word_toNat]

theorem bit1_eq_flag {b : Bool} {p : Prop} [Decidable p] (h : b = true ↔ p) : bit1 b = flag p := if_congr h rfl rfl

/-! ### The low 32 bits -/

theorem sx32_eq_word (x : BitVec 32) : sx32 x = word x.toInt := rfl

theorem word32_eq_sx32 (x : Int) : word32 x = sx32 (BitVec.ofInt 32 x) := rfl

theorem ofNat_eq_lo32 (x : Word) : BitVec.ofNat 32 x.toNat = lo32 x := BitVec.ofNat_toNat 32 x

theorem lo32_toNat (x : Word) : (lo32 x).toNat = x.toNat % 2 ^ 32 := BitVec.toNat_setWidth 32 x

theorem sx32_add (x y : Word) : sx32 (lo32 x + lo32 y) = word32 (x.toNat + y.toNat) := by
  rw [word32_eq_sx32, ofInt_toNat_add, lo32, lo32]

theorem sx32_sub (x y : Word) : sx32 (lo32 x - lo32 y) = word32 (x.toNat - y.toNat) := by
  rw [word32_eq_sx32, ofInt_toNat_sub, lo32, lo32]

theorem sx32_mul (x y : Word) : sx32 (lo32 x * lo32 y) = word32 (x.toNat * y.toNat : Nat) := by
  rw [word32_eq_sx32, ofInt_toNat_mul, lo32, lo32]

theorem sx32_shiftLeft (x : Word) (k : Nat) : sx32 (lo32 x <<< k) = word32 (x.toNat * 2 ^ k : Nat) := by
  rw [word32_eq_sx32, ofInt_toNat_shiftLeft, lo32]

theorem sx32_ushiftRight (x : Word) (k : Nat) : sx32 (lo32 x >>> k) = word32 (x.toNat % 2 ^ 32 / 2 ^ k : Nat) := by
  rw [word32_eq_sx32, ← lo32_toNat, ofInt_toNat_ushiftRight]

theorem sx32_sshiftRight (x : Word) (k : Nat) :
    sx32 ((lo32 x).sshiftRight k) = word ((BitVec.ofNat 32 x.toNat).toInt / 2 ^ k) := by
  rw [sx32_eq_word, ofNat_eq_lo32, BitVec.toInt_sshiftRight, Int.shiftRight_eq_div_pow, Nat.cast_pow, Nat.cast_ofNat]

end Sys2Proof.Machine
end

section

/-! ## Integer instructions (R94 to R96) -/

namespace Sys2Proof.Machine

open Sys2Proof.Claims

/-! ### Instructions that write one g register -/

/-- An instruction that gives a result writes it to `g[d]`, goes on and changes nothing else. -/
theorem writesG_of_result {i : Instr} {d : BitVec 5} {f : State → Word} {p : State → Word → Prop}
    (h : ∀ s, exec i s = s.result d (f s)) (hp : ∀ s, p s (f s)) : writesG i d (fun _ => True) p :=
  fun s _ => ⟨_, f s, h s, onlyG_setG s d (f s), hp s, g_setG_adv s d (f s)⟩

theorem gives_of_result {i : Instr} {d : BitVec 5} {f x : State → Word} (h : ∀ s, exec i s = s.result d (f s))
    (e : ∀ s, f s = x s) : gives i d x := writesG_of_result h e

/-! ### INT (R94) -/

/-- Settles O2: each form gives a result, and the result is the value of the table. -/
theorem integerResults : Obligations.IntegerResults := by
  intro d a b
  have amount : ∀ s, un s b % 64 < 64 := fun s => Nat.mod_lt _ (by decide)
  exact
    ⟨gives_of_result (fun _ => rfl) fun s => add_eq_word _ _,
      gives_of_result (fun _ => rfl) fun s => sub_eq_word _ _,
      gives_of_result (fun _ => rfl) fun s => rfl,
      gives_of_result (fun _ => rfl) fun s => rfl,
      gives_of_result (fun _ => rfl) fun s => rfl,
      gives_of_result (fun _ => rfl) fun s => rfl,
      gives_of_result (fun _ => rfl) fun s => rfl,
      gives_of_result (fun _ => rfl) fun s => rfl,
      gives_of_result (fun _ => rfl) fun s => shiftLeft_eq_word _ _,
      gives_of_result (fun _ => rfl) fun s => ushiftRight_eq_word _ _,
      gives_of_result (fun _ => rfl) fun s => sshiftRight_eq_word _ _,
      gives_of_result (fun _ => rfl) fun s => rotateLeft_eq_word _ (amount s),
      gives_of_result (fun _ => rfl) fun s => rotateRight_eq_word _ (amount s),
      gives_of_result (fun _ => rfl) fun s => bit1_eq_flag BitVec.slt_iff_toInt_lt,
      gives_of_result (fun _ => rfl) fun s => bit1_eq_flag BitVec.ult_iff_toNat_lt,
      gives_of_result (fun _ => rfl) fun s => min_eq_word _ _,
      gives_of_result (fun _ => rfl) fun s => max_eq_word _ _,
      gives_of_result (fun _ => rfl) fun s => minz_eq_word _ _,
      gives_of_result (fun _ => rfl) fun s => maxz_eq_word _ _,
      gives_of_result (fun _ => rfl) fun s => sx32_add _ _,
      gives_of_result (fun _ => rfl) fun s => sx32_sub _ _,
      gives_of_result (fun _ => rfl) fun s => sx32_shiftLeft _ _,
      gives_of_result (fun _ => rfl) fun s => sx32_ushiftRight _ _,
      gives_of_result (fun _ => rfl) fun s => sx32_sshiftRight _ _,
      gives_of_result (fun _ => rfl) fun s => rfl,
      gives_of_result (fun _ => rfl) fun s => rfl,
      gives_of_result (fun _ => rfl) fun s => bit1_eq_flag beq_iff_toNat,
      gives_of_result (fun _ => rfl) fun s => bit1_eq_flag bne_iff_toNat⟩

/-! ### The immediate majors and SHIFTI (R95, R96) -/

theorem immHigh_eq (i : BitVec 16) : immHigh i = (BitVec.ofNat 32 (i.toNat * 2 ^ 16)).signExtend 64 := by
  have e : i ++ (0 : BitVec 16) = BitVec.ofNat 32 (i.toNat * 2 ^ 16) := by
    apply BitVec.eq_of_toNat_eq
    rw [BitVec.toNat_append, BitVec.toNat_ofNat, Nat.shiftLeft_eq, Nat.mod_eq_of_lt (by omega)]
    exact Nat.or_zero _
  rw [immHigh, e]

theorem immS_toInt (i : BitVec 16) : (immS i).toInt = i.toInt := BitVec.toInt_signExtend_of_le (by decide)

theorem immediateResults : ImmediateResults := fun d a i =>
  ⟨gives_of_result (fun _ => rfl) fun s => add_signExtend_eq_word _ i,
    gives_of_result (fun _ => rfl) fun s => congrArg (s.g a &&& ·) (BitVec.ofNat_toNat 64 i).symm,
    gives_of_result (fun _ => rfl) fun s => congrArg (s.g a ||| ·) (BitVec.ofNat_toNat 64 i).symm,
    gives_of_result (fun _ => rfl) fun s => congrArg (s.g a ^^^ ·) (BitVec.ofNat_toNat 64 i).symm,
    gives_of_result (fun _ => rfl) fun s => by rw [immHigh_eq, add_signExtend_eq_word, un],
    gives_of_result (fun _ => rfl) fun s => bit1_eq_flag (by rw [BitVec.slt_iff_toInt_lt, immS_toInt, si]),
    gives_of_result (fun _ => rfl) fun s => bit1_eq_flag BitVec.ult_iff_toNat_lt⟩

theorem shiftImmediateResults : ShiftImmediateResults := by
  refine fun d a n =>
    ⟨gives_of_result (fun _ => rfl) fun s => shiftLeft_eq_word _ _,
      gives_of_result (fun _ => rfl) fun s => ushiftRight_eq_word _ _,
      gives_of_result (fun _ => rfl) fun s => sshiftRight_eq_word _ _,
      gives_of_result (fun _ => rfl) fun s => rotateRight_eq_word _ n.isLt, fun hn => ?_⟩
  have hk : n.toNat % 32 = n.toNat := Nat.mod_eq_of_lt hn
  exact
    ⟨gives_of_result (fun _ => rfl) fun s => by rw [hk, sx32_shiftLeft, un],
      gives_of_result (fun _ => rfl) fun s => by rw [hk, sx32_ushiftRight, un32, un],
      gives_of_result (fun _ => rfl) fun s => by rw [hk, sx32_sshiftRight, si32, un]⟩

/-! ### ADDR (R100) -/

theorem addressForms : AddressForms := by
  refine ⟨fun d a b n => ⟨?adda, ?suba, ?aligna⟩, fun d a b s => ⟨?below, ?notBelow, ?inside, ?outside⟩⟩
  case adda => exact gives_of_result (fun _ => rfl) fun s => by rw [shiftLeft_eq_word, word_add, un, un, word_toNat]
  case suba =>
    exact gives_of_result (fun _ => rfl) fun s => by
      rw [shiftLeft_eq_word, word_sub, un, un, word_toNat]
  case aligna =>
    exact gives_of_result (fun _ => rfl) fun s => by
      rw [word_natCast, Nat.add_sub_assoc Nat.one_le_two_pow, un]
  case below => exact fun h => congrArg (s.checked · s.adv) (if_neg (not_le.mpr h))
  case notBelow => exact fun h => congrArg (s.checked · s.adv) (if_pos h)
  case inside => exact fun h h' => congrArg (s.checked · s.adv) (if_neg (not_or.mpr ⟨not_lt.mpr h, not_le.mpr h'⟩))
  case outside => exact fun h => congrArg (s.checked · s.adv) (if_pos h)

/-- Settles O4. -/
theorem immediateAndAddressResults : Obligations.ImmediateAndAddressResults :=
  ⟨immediateResults, shiftImmediateResults, addressForms⟩

end Sys2Proof.Machine
end

section

/-! ## Multiplication, division and bit fields (R97 to R99) -/

namespace Sys2Proof.Machine

open Sys2Proof.Claims

/-! ### MULDIV (R97) -/

section Widths

variable {w : Nat}

theorem eq_zero_iff_toNat {y : BitVec w} : y = 0 ↔ y.toNat = 0 := by rw [← BitVec.toNat_inj]; rfl

/-- A quotient that overflows wraps. -/
theorem sdiv_eq_ofInt (x y : BitVec w) : x.sdiv y = BitVec.ofInt w (x.toInt.tdiv y.toInt) := by
  apply BitVec.eq_of_toInt_eq
  rw [BitVec.toInt_sdiv, BitVec.toInt_ofInt]

theorem divS_eq (x y : BitVec w) :
    divS x y = if y.toNat = 0 then BitVec.allOnes w else BitVec.ofInt w (x.toInt.tdiv y.toInt) :=
  if_congr eq_zero_iff_toNat rfl (sdiv_eq_ofInt x y)

theorem divU_eq (x y : BitVec w) :
    divU x y = if y.toNat = 0 then BitVec.allOnes w else BitVec.ofInt w (x.toNat / y.toNat : Nat) :=
  if_congr eq_zero_iff_toNat rfl (by rw [← BitVec.toNat_udiv, ofInt_toNat, BitVec.setWidth_eq])

theorem remS_eq (x y : BitVec w) :
    remS x y = if y.toNat = 0 then x else BitVec.ofInt w (x.toInt - y.toInt * x.toInt.tdiv y.toInt) :=
  if_congr eq_zero_iff_toNat rfl (by rw [← Int.tmod_def, ← BitVec.toInt_srem, BitVec.ofInt_toInt])

theorem remU_eq (x y : BitVec w) : remU x y = if y.toNat = 0 then x else BitVec.ofInt w (x.toNat % y.toNat : Nat) :=
  if_congr eq_zero_iff_toNat rfl (by rw [← BitVec.toNat_umod, ofInt_toNat, BitVec.setWidth_eq])

end Widths

theorem sx32_allOnes : sx32 (BitVec.allOnes 32) = BitVec.allOnes 64 := by decide

/-- Where a `.w` form has one result for a zero divisor and another else, each is sign-extended. -/
theorem sx32_ite {p : Prop} [Decidable p] (z : BitVec 32) (x : Int) :
    sx32 (if p then z else BitVec.ofInt 32 x) = if p then sx32 z else word32 x := apply_ite sx32 p _ _

/-- A signed remainder needs no wrapping to its width. -/
theorem sx32_remS (x y : BitVec 32) :
    sx32 (remS x y) = if y.toNat = 0 then word x.toInt else word (x.toInt - y.toInt * x.toInt.tdiv y.toInt) := by
  rw [remS, apply_ite sx32, sx32_eq_word, sx32_eq_word, BitVec.toInt_srem, Int.tmod_def]
  exact if_congr eq_zero_iff_toNat rfl rfl

theorem multiplyDivideResults : MultiplyDivideResults := by
  intro d a b
  exact
    ⟨gives_of_result (fun _ => rfl) fun s => mul_eq_word _ _,
      gives_of_result (fun _ => rfl) fun s => rfl,
      gives_of_result (fun _ => rfl) fun s => rfl,
      gives_of_result (fun _ => rfl) fun s => rfl,
      gives_of_result (fun _ => rfl) fun s => divS_eq _ _,
      gives_of_result (fun _ => rfl) fun s => divU_eq _ _,
      gives_of_result (fun _ => rfl) fun s => remS_eq _ _,
      gives_of_result (fun _ => rfl) fun s => remU_eq _ _,
      gives_of_result (fun _ => rfl) fun s => sx32_mul _ _,
      gives_of_result (fun _ => rfl) fun s => by
        rw [divS_eq, sx32_ite, sx32_allOnes, lo32_toNat, ← ofNat_eq_lo32, ← ofNat_eq_lo32]; rfl,
      gives_of_result (fun _ => rfl) fun s => by
        rw [divU_eq, sx32_ite, sx32_allOnes, lo32_toNat, lo32_toNat]; rfl,
      gives_of_result (fun _ => rfl) fun s => by
        rw [sx32_remS, lo32_toNat, ← ofNat_eq_lo32, ← ofNat_eq_lo32]; rfl,
      gives_of_result (fun _ => rfl) fun s => by
        rw [remU_eq, sx32_ite, lo32_toNat, lo32_toNat, ← ofNat_eq_lo32]; rfl⟩

/-! ### Fields (R98) -/

theorem fieldOf_mod (x : Word) (p l : BitVec 6) :
    sext (fieldOf x p l) (l.toNat + 1) = (BitVec.ofNat (l.toNat + 1) (x.toNat / 2 ^ p.toNat)).toInt := by
  rw [sext_eq_toInt, fieldOf, bitsAt]
  refine congrArg BitVec.toInt (BitVec.eq_of_toNat_eq ?_)
  rw [BitVec.toNat_ofNat, BitVec.toNat_ofNat, Nat.mod_mod]

/-- Bit `k` of the mask of a field is set where it lies in the field. -/
theorem fieldMask_testBit (p n k : Nat) :
    ((2 ^ n - 1) * 2 ^ p).testBit k = (decide (p ≤ k) && decide (k < p + n)) := by
  rw [Nat.testBit_mul_two_pow, Nat.testBit_two_pow_sub_one]
  by_cases h : p ≤ k
  · simp only [Nat.sub_lt_iff_lt_add' h]
  · simp only [h, decide_false, Bool.false_and]

theorem insert_getLsbD (x y : Word) (p n k : Nat) (hk : k < 64) :
    let mask : Word := BitVec.ofNat 64 ((2 ^ n - 1) * 2 ^ p)
    ((x &&& ~~~mask) ||| ((y <<< p) &&& mask)).getLsbD k =
      if p ≤ k ∧ k < p + n then y.getLsbD (k - p) else x.getLsbD k := by
  intro mask
  have hm : mask.getLsbD k = (decide (p ≤ k) && decide (k < p + n)) := by
    rw [BitVec.getLsbD_ofNat, fieldMask_testBit, decide_eq_true hk, Bool.true_and]
  rw [BitVec.getLsbD_or, BitVec.getLsbD_and, BitVec.getLsbD_and, BitVec.getLsbD_not, BitVec.getLsbD_shiftLeft, hm]
  by_cases h : p ≤ k ∧ k < p + n
  · simp [h, hk]
  · rw [if_neg h, ← Bool.decide_and, decide_eq_false h]
    simp [hk]

/-! ### Counts (R99) -/

theorem leadingZeros_eq {x n : Nat} (h : x < 2 ^ n) :
    leadingZeros x n = if x = 0 then n else n - 1 - Nat.log2 x := by
  induction n with
  | zero => rw [if_pos (Nat.lt_one_iff.mp h)]; rfl
  | succ n ih =>
    unfold leadingZeros
    split
    · rename_i hb
      have hx := Nat.ge_two_pow_of_testBit hb
      have h0 : x ≠ 0 := ((Nat.two_pow_pos n).trans_le hx).ne'
      rw [if_neg h0, (Nat.log2_eq_iff h0).mpr ⟨hx, h⟩]
      omega
    · rename_i hb
      have hx : x < 2 ^ n := Nat.lt_pow_two_of_testBit x fun i hi => by
        rcases hi.eq_or_lt with rfl | hi
        · exact Bool.eq_false_iff.mpr hb
        · exact Nat.testBit_lt_two_pow (h.trans_le (Nat.pow_le_pow_right (by decide) hi))
      rw [ih hx]
      split
      · rfl
      · rename_i h0
        have := (Nat.log2_lt h0).mpr hx
        omega

theorem trailingZeros_spec (x i n : Nat) : trailingZeros x i n ≤ n ∧
    (∀ k, k < trailingZeros x i n → x.testBit (i + k) = false) ∧
    (trailingZeros x i n = n ∨ x.testBit (i + trailingZeros x i n) = true) := by
  induction n generalizing i with
  | zero => exact ⟨le_rfl, fun k hk => absurd hk (Nat.not_lt_zero k), Or.inl rfl⟩
  | succ n ih =>
    unfold trailingZeros
    split
    · rename_i hb
      exact ⟨Nat.zero_le _, fun k hk => absurd hk (Nat.not_lt_zero k), Or.inr hb⟩
    · rename_i hb
      obtain ⟨hle, hzero, hone⟩ := ih (i + 1)
      refine ⟨Nat.succ_le_succ hle, fun k hk => ?_, hone.imp (congrArg (· + 1)) fun h => ?_⟩
      · cases k with
        | zero => exact Bool.eq_false_iff.mpr hb
        | succ k => rw [← Nat.add_assoc, Nat.add_right_comm]; exact hzero k (Nat.lt_of_succ_lt_succ hk)
      · rw [← Nat.add_assoc, Nat.add_right_comm]; exact h

theorem popCount_eq_countP (x n : Nat) : popCount x n = (List.range n).countP (x.testBit ·) := by
  induction n with
  | zero => rfl
  | succ n ih =>
    rw [popCount, ih, List.range_succ, List.countP_append, List.countP_singleton]
    cases x.testBit n <;> rfl

/-! ### Reversals (R99) -/

theorem leNat_testBit (xs : List Byte) (k : Nat) : (leNat xs).testBit k = (xs.getD (k / 8) 0).getLsbD (k % 8) := by
  induction xs generalizing k with
  | nil => simp [leNat]
  | cons x xs ih =>
    rw [leNat, Nat.add_comm, show 256 = 2 ^ 8 by rfl, Nat.testBit_two_pow_mul_add _ x.isLt]
    split
    · rename_i h
      rw [Nat.div_eq_of_lt h, Nat.mod_eq_of_lt h]; rfl
    · rename_i h
      obtain ⟨j, rfl⟩ := Nat.exists_eq_add_of_le' (Nat.le_of_not_lt h)
      rw [Nat.add_sub_cancel, ih, Nat.add_div_right _ (by decide), Nat.add_mod_right, List.getD_cons_succ]

/-- Bit `k` of a number whose bytes are read in the other order. -/
theorem leNat_reverse_testBit (n x k : Nat) (h : k < 8 * n) :
    (leNat (natLe n x).reverse).testBit k = x.testBit (8 * (n - 1 - k / 8) + k % 8) := by
  have hk : k / 8 < n := Nat.div_lt_of_lt_mul h
  have hm : k % 8 < 8 := Nat.mod_lt k (by decide)
  rw [leNat_testBit, List.getD_reverse _ (by rw [natLe_length]; exact hk), natLe_length, natLe_getD n x _ (by omega),
    BitVec.getLsbD_ofNat, decide_eq_true hm, Bool.true_and, show 256 = 2 ^ 8 by rfl, ← pow_mul,
    Nat.testBit_div_two_pow, Nat.add_comm]

theorem bitFieldResults : BitFieldResults := by
  refine fun d a p l => ⟨fun h => ⟨?ext, ?extz, ?ins⟩, ?clz, ?ctz, ?popc, ?rev8, ?revb⟩
  case ext => exact gives_of_result (fun _ => rfl) fun s => congrArg word (fieldOf_mod _ p l)
  case extz => exact gives_of_result (fun _ => rfl) fun s => rfl
  case ins =>
    refine writesG_of_result (fun _ => rfl) fun s k hk => ?_
    simp only [insert_getLsbD _ _ _ _ k hk, ← Nat.add_assoc, Nat.lt_succ_iff]
  case clz =>
    refine gives_of_result (fun _ => rfl) fun s => ?_
    rw [leadingZeros_eq (s.g a).isLt, apply_ite (BitVec.ofNat 64)]
    rfl
  case ctz =>
    refine writesG_of_result (fun _ => rfl) fun s => ?_
    obtain ⟨hle, hspec⟩ := trailingZeros_spec (s.g a).toNat 0 64
    simp only [Nat.zero_add] at hspec
    rw [BitVec.toNat_ofNat, Nat.mod_eq_of_lt (by omega)]
    exact ⟨hle, hspec⟩
  case popc => exact gives_of_result (fun _ => rfl) fun s => congrArg (BitVec.ofNat 64) (popCount_eq_countP _ 64)
  case rev8 =>
    refine writesG_of_result (fun _ => rfl) fun s k hk => ?_
    rw [BitVec.getLsbD_ofNat, decide_eq_true hk, Bool.true_and, leNat_reverse_testBit 8 _ k hk]
    rfl
  case revb =>
    refine writesG_of_result (fun _ => rfl) fun s k hk => ?_
    rw [BitVec.getLsbD_reverse, BitVec.getMsbD_eq_getLsbD, decide_eq_true hk, Bool.true_and]

/-- Settles O3. -/
theorem multiplyDivideAndBitFields : Obligations.MultiplyDivideAndBitFields :=
  ⟨multiplyDivideResults, bitFieldResults⟩

end Sys2Proof.Machine
end

section

/-! ## Local loads and stores (R33, R101, R102, R372, R379) -/

namespace Sys2Proof.Machine

open Sys2Proof.Claims

theorem State.addrI_eq_addrOf (s : State) (a : BitVec 5) (i : BitVec 16) : s.addrI a i = addrOf s a i :=
  congrArg BitVec.toNat (add_signExtend_eq_word (s.g a) i)

/-- `LocalCheck` of the model makes the tests of R33 in their order. -/
theorem State.localCheck_eq_localFailure (s : State) (a n : Nat) {k : LKind} (hk : k ≠ .fetch) :
    s.localCheck a n k = localFailure s a n := by
  unfold State.localCheck spanCheck localFailure
  simp only [Bool.and_eq_true, Bool.not_eq_true', decide_eq_true_eq, ne_eq, hk, not_false_eq_true, true_and]
  by_cases hb : 0x180000 < a + n
  · rw [if_pos hb, if_pos hb]
  · by_cases ha : a % n = 0
    · by_cases hl : s.priv = false ∧ s.core.ctl.lslim.toNat < a + n
      · simp only [hb, ha, hl, if_false, not_true_eq_false, and_self, if_true]
      · simp only [hb, ha, hl, if_false, not_true_eq_false]
    · simp only [hb, ha, if_false, not_false_eq_true, if_true]

/-! ### Loads -/

/-- A load meets an uncorrectable error after the tests of `LocalCheck` (R379). -/
theorem State.loadCheck_eq (s : State) (a n : Nat) : s.loadCheck a n = (localFailure s a n).or
    (if s.poisonHit (s.core.localKey a) n then some (Cause.uncorr, a) else none) := by
  unfold State.loadCheck
  rw [s.localCheck_eq_localFailure a n (show LKind.load ≠ .fetch by decide)]
  cases localFailure s a n <;> rfl

theorem State.acquired_nil (s : State) (scope : Nat) : s.acquired scope [] = [] := by
  simp [State.acquired]

/-- A read that covers no word of another agent acquires nothing. -/
theorem State.heard_of_no_words {s : State} {a n : Nat} (h : s.wordsAt a n = []) : s.heard a n = s := by
  unfold State.heard
  dsimp only
  rw [h, List.filter_nil, List.map_nil, State.acquired_nil]
  rfl

theorem onlyGHeard_heard (s : State) (d : BitVec 5) (a n : Nat) (x : Word) :
    onlyGHeard d a n s ((s.heard a n).setG d x).adv := by
  obtain ⟨hrest, hg⟩ := onlyG_setG (s.heard a n) d x
  have hview : ((s.heard a n).setG d x).adv.core.view = (s.heard a n).core.view := Core.setG_view _ d x
  refine ⟨hrest.trans ?_, fun h => hview.trans (by rw [State.heard_of_no_words h]), hg⟩
  rw [hview]
  rfl

theorem loads_of_localLoad {i : Instr} {d a : BitVec 5} {imm : BitVec 16} {n : Nat} {signed : Bool} {x : Nat → Word}
    (h : ∀ s, exec i s = s.localLoad signed n d a imm)
    (hx : ∀ y, (if signed then wrap64 (sext y (8 * n)) else BitVec.ofNat 64 y) = x y) : loads i d a imm n x := by
  intro s
  have he : exec i s = s.checked ((localFailure s (addrOf s a imm) n).or
      (if s.poisonHit (s.core.localKey (addrOf s a imm)) n then some (Cause.uncorr, addrOf s a imm) else none))
      ((s.heard (addrOf s a imm) n).setG d (x (readAt s (addrOf s a imm) n))).adv := by
    rw [h, State.localLoad, ← hx, ← State.localRead_eq_readAt, ← State.addrI_eq_addrOf, ← State.loadCheck_eq]
  refine ⟨fun hf hi => ⟨_, ?_, onlyGHeard_heard s d _ n _, g_setG_adv _ d _⟩, fun t hf => ?_, fun hf hi => ?_⟩
  · rw [he, hf, show s.poisonHit _ _ = false from hi]
    rfl
  · rw [he, hf]
    rfl
  · rw [he, hf, (Bool.not_eq_false _).mp hi]
    rfl

theorem localLoads : LocalLoads := by
  have signed : ∀ k y, wrap64 (sext y k) = word (BitVec.ofNat k y).toInt := fun k y => by rw [sext_eq_toInt]; rfl
  exact fun d a i =>
    ⟨loads_of_localLoad (signed := true) (fun _ => rfl) (signed 8),
      loads_of_localLoad (signed := true) (fun _ => rfl) (signed 16),
      loads_of_localLoad (signed := true) (fun _ => rfl) (signed 32),
      loads_of_localLoad (signed := false) (fun _ => rfl) fun _ => rfl,
      loads_of_localLoad (signed := false) (fun _ => rfl) fun _ => rfl,
      loads_of_localLoad (signed := false) (fun _ => rfl) fun _ => rfl,
      loads_of_localLoad (signed := false) (fun _ => rfl) fun _ => rfl⟩

/-! ### Stores -/

/-- The undo log changes memory and the team of the core, and no more. -/
theorem State.logBlocks_eq (l : List Nat) (s : State) :
    ∃ m t, s.logBlocks l = { s with mem := m, core := { s.core with team := t } } := by
  induction l generalizing s with
  | nil => exact ⟨s.mem, s.core.team, rfl⟩
  | cons b r ih =>
    unfold State.logBlocks
    split
    · dsimp only
      split
      · obtain ⟨m, t, h⟩ := ih _; exact ⟨m, t, h.trans rfl⟩
      · obtain ⟨m, t, h⟩ := ih _; exact ⟨m, t, h.trans rfl⟩
    · exact ih s

theorem State.logWrite_eq (s : State) (a n : Nat) :
    ∃ m t, s.logWrite a n = { s with mem := m, core := { s.core with team := t } } := by
  unfold State.logWrite
  split
  · exact State.logBlocks_eq _ s
  · exact ⟨s.mem, s.core.team, rfl⟩

theorem State.localWriteBytes_eq (s : State) (a : Nat) (xs : List Byte) :
    ∃ m p w t, s.localWriteBytes a xs =
      { s with mem := m, poison := p, core := { s.core with wbits := w, team := t } } := by
  obtain ⟨m, t, h⟩ := s.logWrite_eq a xs.length
  unfold State.localWriteBytes State.rawWrite
  rw [h]
  exact ⟨_, _, _, _, rfl⟩

theorem State.localWriteBytes_team {s : State} (h : s.core.ctl.status.ckpt = false) (a : Nat) (xs : List Byte) :
    (s.localWriteBytes a xs).core.team = s.core.team :=
  show (s.logWrite a xs.length).core.team = _ from by rw [State.logWrite_alone h]

/-- A local write stores the low bytes of a number. -/
theorem stored_localWrite (s : State) (a n x : Nat) : stored a n x s (s.localWrite a n x).adv := by
  obtain ⟨hin, hout⟩ := bytesStored_localWriteBytes s a (natLe n x)
  rw [natLe_length] at hin hout
  refine ⟨⟨?rest, fun h => State.localWriteBytes_team h a _,
    fun k hk => hout k fun j hj => hk _ ⟨Nat.le_add_right a j, Nat.add_lt_add_left hj a⟩⟩, fun k hk => ?bytes⟩
  case rest =>
    obtain ⟨m, p, w, t, h⟩ := s.localWriteBytes_eq a (natLe n x)
    rw [State.localWrite, h]
    rfl
  case bytes =>
    refine (hin k hk).trans ?_
    rw [natLe_getD n x k hk, BitVec.toNat_ofNat, show 256 = 2 ^ 8 by rfl, ← pow_mul]

theorem storesLocal_of_localStore {i : Instr} {d a : BitVec 5} {imm : BitVec 16} {n : Nat}
    (h : ∀ s, exec i s = s.localStore n d a imm) : storesLocal i d a imm n := by
  intro s
  have he : exec i s = s.checked (localFailure s (addrOf s a imm) n) (s.localWrite (addrOf s a imm) n (un s d)).adv := by
    rw [h, State.localStore, s.localCheck_eq_localFailure _ n (show LKind.store ≠ .fetch by decide),
      State.addrI_eq_addrOf]
    rfl
  refine ⟨fun hf => ⟨_, ?_, stored_localWrite s _ n _⟩, fun t hf => ?_⟩
  · rw [he, hf]
    rfl
  · rw [he, hf]
    rfl

theorem localStores : LocalStores := fun _ _ _ =>
  ⟨storesLocal_of_localStore fun _ => rfl, storesLocal_of_localStore fun _ => rfl,
    storesLocal_of_localStore fun _ => rfl, storesLocal_of_localStore fun _ => rfl⟩

/-- Settles O5. -/
theorem localAccess : Obligations.LocalAccess := ⟨localLoads, localStores⟩

end Sys2Proof.Machine
end

section

/-! ## Branches, jumps and the counted loop (R62, R82, R104, R105, R119) -/

namespace Sys2Proof.Machine

open Sys2Proof.Claims

/-! ### Targets -/

theorem targetCheck_of_inStore {x : Int} (h : inStore x) : targetCheck x = none :=
  if_neg (not_or.mpr ⟨not_lt.mpr h.1, not_lt.mpr h.2⟩)

theorem targetCheck_of_not_inStore {x : Int} (h : ¬ inStore x) :
    targetCheck x = some (Cause.localBounds, (word x).toNat) := by
  refine if_pos ?_
  unfold inStore at h
  omega

theorem pcTo_next (s : State) : pcTo s (s.pc.toNat + 4) = s.adv :=
  congrArg s.setPc (by rw [BitVec.ofInt_add, ofInt_toNat, BitVec.setWidth_eq]; rfl)

/-! ### Conditional branches (R104) -/

section Branch

variable {n : Nat} {s : State} {o : BitVec n}

theorem State.branch_not_taken : s.branch false o = .next (pcTo s (s.pc.toNat + 4)) := by
  rw [pcTo_next]; rfl

theorem State.branch_taken (h : inStore (target s o)) : s.branch true o = .next (pcTo s (target s o)) :=
  congrArg (s.checked · _) (targetCheck_of_inStore h)

theorem State.branch_outside (h : ¬ inStore (target s o)) :
    s.branch true o = .next (s.trap (Cause.localBounds, (word (target s o)).toNat)) :=
  congrArg (s.checked · _) (targetCheck_of_not_inStore h)

end Branch

theorem branches_of_branch {n : Nat} {i : Instr} {o : BitVec n} {b : State → Bool} {test : State → Prop}
    (h : ∀ s, exec i s = s.branch (b s) o) (hb : ∀ s, b s = true ↔ test s) : branches i o test := by
  intro s
  rw [h, ← hb]
  refine ⟨fun hn => ?_, fun ht hs => ?_, fun ht hs => ?_⟩
  · rw [Bool.eq_false_iff.mpr hn, State.branch_not_taken]
  · rw [ht, State.branch_taken hs]
  · rw [ht, State.branch_outside hs]

theorem not_slt_iff {w : Nat} {x y : BitVec w} : (!x.slt y) = true ↔ y.toInt ≤ x.toInt := by
  rw [Bool.not_eq_true', ← Bool.not_eq_true, BitVec.slt_iff_toInt_lt, not_lt]

theorem not_ult_iff {w : Nat} {x y : BitVec w} : (!x.ult y) = true ↔ y.toNat ≤ x.toNat := by
  rw [Bool.not_eq_true', ← Bool.not_eq_true, BitVec.ult_iff_toNat_lt, not_lt]

theorem conditionalBranches : ConditionalBranches := fun _ _ _ _ =>
  ⟨branches_of_branch (fun _ => rfl) fun _ => beq_iff_toNat,
    branches_of_branch (fun _ => rfl) fun _ => bne_iff_toNat,
    branches_of_branch (fun _ => rfl) fun _ => BitVec.slt_iff_toInt_lt,
    branches_of_branch (fun _ => rfl) fun _ => not_slt_iff,
    branches_of_branch (fun _ => rfl) fun _ => BitVec.slt_iff_toInt_lt,
    branches_of_branch (fun _ => rfl) fun _ => not_slt_iff,
    branches_of_branch (fun _ => rfl) fun _ => beq_iff_toNat,
    branches_of_branch (fun _ => rfl) fun _ => bne_iff_toNat,
    branches_of_branch (fun _ => rfl) fun _ => BitVec.slt_iff_toInt_lt,
    branches_of_branch (fun _ => rfl) fun _ => not_slt_iff,
    branches_of_branch (fun _ => rfl) fun _ => BitVec.ult_iff_toNat_lt,
    branches_of_branch (fun _ => rfl) fun _ => not_ult_iff⟩

/-! ### Jumps (R105) -/

/-- A jump by register takes the low bits of an address of the store. -/
theorem setPc_setWidth (s : State) (x : Word) : s.setPc (x.setWidth 21) = pcTo s x.toNat :=
  congrArg s.setPc (ofInt_toNat x).symm

theorem State.link_eq (s : State) : s.link = BitVec.ofNat 64 (s.pc + 4).toNat := (BitVec.ofNat_toNat 64 _).symm

theorem jumpCheck_inside {x : Word} (h : x.toNat < 0x180000) (h4 : x.toNat % 4 = 0) : jumpCheck x = none := by
  rw [jumpCheck, if_neg (not_le.mpr h), if_neg (not_not.mpr h4)]

theorem jumpCheck_outside {x : Word} (h : 0x180000 ≤ x.toNat) : jumpCheck x = some (Cause.localBounds, x.toNat) :=
  if_pos h

theorem jumpCheck_unaligned {x : Word} (h : x.toNat < 0x180000) (h4 : x.toNat % 4 ≠ 0) :
    jumpCheck x = some (Cause.align, x.toNat) := by
  rw [jumpCheck, if_neg (not_le.mpr h), if_pos h4]

theorem exec_jr (a : BitVec 5) (s : State) : exec (.jr a) s = s.checked (jumpCheck (s.g a)) (pcTo s (un s a)) := by
  rw [un, ← setPc_setWidth]; rfl

theorem exec_jlr (a : BitVec 5) (s : State) : exec (.jlr a) s =
    s.checked (jumpCheck (s.g a)) (pcTo (s.setG 1 (BitVec.ofNat 64 (s.pc + 4).toNat)) (un s a)) := by
  rw [un, ← setPc_setWidth, ← State.link_eq]; rfl

theorem exec_jl {n : BitVec 26} (s : State) : exec (.jl n) s =
    s.checked (targetCheck (target s n)) (pcTo (s.setG 1 (BitVec.ofNat 64 (s.pc + 4).toNat)) (target s n)) := by
  rw [← State.link_eq]; rfl

theorem jumps : Jumps := by
  refine fun o a => ⟨branches_of_branch (fun _ => rfl) fun _ => iff_of_true rfl trivial, fun s h => ?jl,
    fun s h => ?jlOutside, fun s => ⟨fun h h4 => ?inside, fun h => ?outside, fun h h4 => ?unaligned⟩⟩
  case jl => rw [exec_jl, targetCheck_of_inStore h]; rfl
  case jlOutside => rw [exec_jl, targetCheck_of_not_inStore h]; rfl
  case inside => rw [exec_jr, exec_jlr, jumpCheck_inside h h4]; exact ⟨rfl, rfl⟩
  case outside => rw [exec_jr, exec_jlr, jumpCheck_outside h]; exact ⟨rfl, rfl⟩
  case unaligned => rw [exec_jr, exec_jlr, jumpCheck_unaligned h h4]; exact ⟨rfl, rfl⟩

/-! ### The counted loop (R82, R119) -/

theorem target_setG (s : State) (d : BitVec 5) (x : Word) {n : Nat} (o : BitVec n) :
    target (s.setG d x) o = target s o := by
  rw [target, target, State.pc_setG]

theorem countedLoop : CountedLoop := by
  intro o a s _ t
  have he : exec (.loop o a) s = t.branch (s.g a - 1 != 0) o := rfl
  have ht : target t o = target s o := target_setG s a _ o
  have last : s.g a = 1 ↔ s.g a - 1 = 0 := sub_eq_zero.symm
  rw [he, ← ht]
  refine ⟨fun h => ?_, fun h hs => ?_, fun h hs => ?_⟩
  · rw [last.mp h, ← State.pc_setG s a (s.g a - 1)]
    exact State.branch_not_taken
  · rw [bne_iff_ne.mpr (mt last.mpr h), State.branch_taken hs]
  · rw [bne_iff_ne.mpr (mt last.mpr h), State.branch_outside hs]

/-- Settles O6. -/
theorem branchesJumpsAndLoop : Obligations.BranchesJumpsAndLoop := ⟨conditionalBranches, jumps, countedLoop⟩

end Sys2Proof.Machine
end

section

/-! ## `wfe`, `ifence` and `yield` (R115 to R117) -/

namespace Sys2Proof.Machine

open Sys2Proof.Claims

theorem execWfe_latched {s : State} (h : s.core.latch = true) :
    execWfe s = .next (s.on fun c => { c with latch := false }).adv := if_pos h

theorem execWfe_unlatched {s : State} (h : s.core.latch = false) : execWfe s = .next (s.waiting .event) :=
  if_neg (Bool.eq_false_iff.mp h)

theorem execIfence_follower {s : State} (h : s.core.follows = true) : execIfence s = .next s.adv := by
  rw [execIfence, if_pos h]

theorem execIfence_not_follower {s : State} (h : s.core.follows = false) :
    execIfence s = .next (s.on fun c => { c with fbuf := none }).adv := by
  rw [execIfence, if_neg (Bool.eq_false_iff.mp h)]

/-- Settles O10: the case of `wfe` is chosen by the latch, that of `ifence` by the role in a gang. -/
theorem eventWaitFenceYield : Obligations.EventWaitFenceYield := fun _ =>
  ⟨execWfe_latched, execWfe_unlatched, execIfence_not_follower, execIfence_follower, rfl⟩

end Sys2Proof.Machine
end

section

/-! ## Vector instructions that write one register (R9, R21, R122, R123) -/

namespace Sys2Proof.Machine

open Sys2Proof.Claims

/-- An active element takes its new value, another keeps its own. -/
theorem lane_mapEls (old : VReg) (mask : Word) (f : Nat → Nat) {w k : Nat} (h : k < 512 / w) :
    lane (mapEls old mask w f) w k = if active mask w k then f k % 2 ^ w else lane old w k := by
  rw [mapEls, lane_ofEls _ (lane_in_register h), List.getD_eq_getElem _ _ (by simpa using h), List.getElem_map,
    List.getElem_range]
  split
  · rfl
  · exact Nat.mod_eq_of_lt (lane_lt old w k)

theorem el_eq_lane (x : VReg) (w : Nat) : el x w = lane x w := rfl

theorem active_eq_laneOn (s : State) (m : BitVec 3) (w : Nat) : active (s.m m) w = laneOn s m w := rfl

theorem widthOf_eq_width (c : BitVec 2) : widthOf c = width c := rfl

theorem onlyV_setV (s : State) (d : BitVec 5) (x : VReg) : onlyV d s (s.setV d x).adv :=
  ⟨rfl, fun r hr => (s.core.v_setV d r x).trans (if_neg hr)⟩

theorem v_setV_adv (s : State) (d : BitVec 5) (x : VReg) : (s.setV d x).adv.v d = x :=
  (s.core.v_setV d d x).trans (if_pos rfl)

/-- Within VLIM an instruction goes on to its further checks. -/
theorem State.checked_or_within {s : State} {l : List (BitVec 5)} {c r : Option Trap} (h : overLimit s l = none)
    (hc : c = r) (t : State) : s.checked ((s.vcheck l).or c) t = s.checked r t := by
  rw [State.vcheck_eq, h, hc]
  rfl

/-- The register limit precedes the further checks of an instruction. -/
theorem State.checked_or_overLimit {s : State} {l : List (BitVec 5)} {r : BitVec 5} (h : overLimit s l = some r)
    (c : Option Trap) (t : State) : s.checked ((s.vcheck l).or c) t = .next (s.trap (Cause.limit, r.toNat)) := by
  rw [State.vcheck_eq, h]
  rfl

section Writes

variable {i : Instr} {names : List (BitVec 5)} {d : BitVec 5}

theorem writesV_of {x : State → VReg} {p : State → VReg → Prop}
    (he : ∀ s, exec i s = s.checked (s.vcheck names) (s.setV d (x s)).adv) (hp : ∀ s, p s (x s)) :
    writesV i names d p := by
  intro s
  refine ⟨fun hl => ⟨_, (he s).trans (State.checked_within hl _), onlyV_setV s d _, ?_⟩,
    fun r hr => (he s).trans (State.checked_overLimit hr _)⟩
  rw [v_setV_adv]
  exact hp s

theorem writesV_lanewise {m : BitVec 3} {w : Nat} {f g : State → Nat → Nat}
    (he : ∀ s, exec i s = s.vecPerm names d m w (f s)) (hf : ∀ s k, k < 512 / w → f s k % 2 ^ w = g s k) :
    writesV i names d (lanewise d m w g) :=
  writesV_of he fun s k hk => by rw [lane_mapEls _ _ _ hk, hf s k hk]; rfl

end Writes

end Sys2Proof.Machine
end

section

/-! ## Integer vector arithmetic (R126, R127) -/

namespace Sys2Proof.Machine

open Sys2Proof.Claims

/-! ### Codes of integers (R33, R35) -/

theorem sel_eq_laneS (x : VReg) (w k : Nat) : sel x w k = laneS x w k := sext_eq_toInt _ _

theorem wrapN_eq_code (x : Int) (w : Nat) : wrapN x w = code w x := by
  rw [wrapN, code, Nat.cast_pow, Nat.cast_ofNat]

theorem wrapN_div_two_pow (x : Int) (k w : Nat) : wrapN (x / (2 ^ k : Nat)) w = code w (x / 2 ^ k) := by
  rw [wrapN_eq_code, Nat.cast_pow, Nat.cast_ofNat]

theorem code_mod (w : Nat) (x : Int) : code w x % 2 ^ w = code w x := by
  rw [← wrapN_eq_code]
  exact Nat.mod_eq_of_lt (code_lt x w)

theorem natCast_mod_eq_code {w n : Nat} {x : Int} (h : (n : Int) = x) : n % 2 ^ w = code w x := by
  rw [← h, ← wrapN_eq_code, wrapN, ← Int.natCast_mod, Int.toNat_natCast]

theorem satEl_signed (w : Nat) (x : Int) :
    satEl true w x = code w (hold (-2 ^ (w - 1)) (2 ^ (w - 1) - 1) x) := by
  rw [satEl, wrapN_eq_code, hold, intRange, if_pos rfl, Nat.cast_pow, Nat.cast_ofNat]

theorem satEl_unsigned (w : Nat) (x : Int) : satEl false w x = code w (hold 0 (2 ^ w - 1) x) := by
  rw [satEl, wrapN_eq_code, hold, intRange, if_neg Bool.false_ne_true, Nat.cast_pow, Nat.cast_ofNat]

/-- A difference is taken modulo the width by adding the complement. -/
theorem sub_mod_eq_code (w x : Nat) {y : Nat} (h : y < 2 ^ w) : (x + (2 ^ w - y)) % 2 ^ w = code w (x - y) := by
  rw [natCast_mod_eq_code (x := (x - y) + 2 ^ w) (by push_cast [h.le]; ring), code, code, Int.add_emod_right]

/-! ### Forms on pairs of elements -/

section Pairs

variable {i : Instr} {d a b : BitVec 5} {m : BitVec 3} {w : Nat} {f : State → Nat → Nat}

theorem eachPair_of {g : Nat → Nat → Int → Int → Int} (he : ∀ s, exec i s = s.vecPerm [d, a, b] d m w (f s))
    (hf : ∀ s k, f s k % 2 ^ w =
      code w (g (lane (s.v a) w k) (lane (s.v b) w k) (sel (s.v a) w k) (sel (s.v b) w k))) :
    eachPair i d a b m w g :=
  writesV_lanewise he fun s k _ => by rw [hf, sel_eq_laneS, sel_eq_laneS]

/-- A form whose result is the code of an integer. -/
theorem eachPair_of_code {g : Nat → Nat → Int → Int → Int} (he : ∀ s, exec i s = s.vecPerm [d, a, b] d m w (f s))
    (hf : ∀ s k, f s k =
      code w (g (lane (s.v a) w k) (lane (s.v b) w k) (sel (s.v a) w k) (sel (s.v b) w k))) :
    eachPair i d a b m w g :=
  eachPair_of he fun s k => by rw [hf, code_mod]

/-- A form that reads its elements unsigned and whose result is a natural number, cut to the width. -/
theorem eachPair_of_natCast {g : Nat → Nat → Int} {n : State → Nat → Nat}
    (he : ∀ s, exec i s = s.vecPerm [d, a, b] d m w (f s)) (hf : ∀ s k, f s k % 2 ^ w = n s k % 2 ^ w)
    (hn : ∀ s k, (n s k : Int) = g (lane (s.v a) w k) (lane (s.v b) w k)) :
    eachPair i d a b m w (fun x y _ _ => g x y) :=
  eachPair_of he fun s k => (hf s k).trans (natCast_mod_eq_code (hn s k))

theorem eachByte_of {g : VReg → VReg → VReg} (he : ∀ s, exec i s = s.vecBit d a b m g) : eachByte i d a b m g :=
  writesV_lanewise he fun _ _ _ => Nat.mod_mod _ _

end Pairs

/-! ### The sum of a register (R127) -/

theorem foldl_add_if (p : Nat → Bool) (x : Nat → Nat) (l : List Nat) (t : Nat) :
    l.foldl (fun t i => if p i then t + x i else t) t = t + (l.map fun i => if p i then x i else 0).sum := by
  induction l generalizing t with
  | nil => rfl
  | cons i l ih =>
    rw [List.foldl_cons, ih, List.map_cons, List.sum_cons]
    split
    · exact Nat.add_assoc _ _ _
    · rw [Nat.zero_add]

theorem sumActive_eq (s : State) (x : VReg) (m : BitVec 3) (w : Nat) : sumActive x (s.m m) w =
    ((List.range (512 / w)).map fun k => if laneOn s m w k then lane x w k else 0).sum :=
  (foldl_add_if _ _ _ 0).trans (Nat.zero_add _)

theorem width_le (c : BitVec 2) : width c ≤ 64 := by
  revert c
  decide

/-- Settles O11: each form writes, element by element, the code of an integer; `vsum` writes one number. -/
theorem vectorIntegerResults : Obligations.VectorIntegerResults := by
  intro d a b m c
  refine
    ⟨eachPair_of_natCast (fun _ => rfl) (fun _ _ => Nat.mod_mod _ _) fun _ _ => Nat.cast_add _ _,
      eachPair_of (fun _ => rfl) fun _ _ => (Nat.mod_mod _ _).trans (sub_mod_eq_code _ _ (lane_lt _ _ _)),
      eachPair_of_code (fun _ => rfl) fun _ _ => satEl_signed _ _,
      eachPair_of_code (fun _ => rfl) fun _ _ => satEl_unsigned _ _,
      eachPair_of_code (fun _ => rfl) fun _ _ => satEl_signed _ _,
      eachPair_of_code (fun _ => rfl) fun _ _ => satEl_unsigned _ _,
      eachPair_of_natCast (fun _ => rfl) (fun _ _ => Nat.mod_mod _ _) fun _ _ => Nat.cast_mul _ _,
      eachPair_of_code (fun _ => rfl) fun _ _ => wrapN_div_two_pow _ _ _,
      eachPair_of_natCast (fun _ => rfl) (fun _ _ => rfl) fun _ _ => by push_cast; rfl,
      eachPair_of_code (fun _ => rfl) fun _ _ => wrapN_eq_code _ _,
      eachPair_of_natCast (fun _ => rfl) (fun _ _ => rfl) fun _ _ => Nat.cast_min _ _,
      eachPair_of_code (fun _ => rfl) fun _ _ => wrapN_eq_code _ _,
      eachPair_of_natCast (fun _ => rfl) (fun _ _ => rfl) fun _ _ => Nat.cast_max _ _,
      eachPair_of_natCast (fun _ => rfl) (fun _ _ => Nat.mod_mod _ _) fun _ _ => by push_cast; rfl,
      eachPair_of_natCast (fun _ => rfl) (fun _ _ => rfl) fun _ _ => by push_cast; rfl,
      eachPair_of_code (fun _ => rfl) fun _ _ => wrapN_div_two_pow _ _ _,
      eachByte_of fun _ => rfl, eachByte_of fun _ => rfl, eachByte_of fun _ => rfl, eachByte_of fun _ => rfl,
      writesV_lanewise (fun _ => rfl) fun s k _ => ?abs, writesV_of (fun _ => rfl) fun s => ?sum⟩
  case abs =>
    rw [widthOf_eq_width, wrapN_eq_code, code_mod, Int.natCast_natAbs, sel_eq_laneS]
  case sum =>
    rw [sumActive_eq]
    exact toNat_code (Nat.mod_lt _ (Nat.two_pow_pos _)) ((width_le c).trans (by decide))

end Sys2Proof.Machine
end

section

/-! ## Vector permutations and element access (R137, R138) -/

namespace Sys2Proof.Machine

open Sys2Proof.Claims

/-! ### Permutations -/

theorem lane_mod (x : VReg) (w k : Nat) : lane x w k % 2 ^ w = lane x w k := Nat.mod_mod _ _

theorem ite_mod {p : Prop} [Decidable p] {x y n : Nat} (hx : x % n = x) (hy : y % n = y) :
    (if p then x else y) % n = if p then x else y := by
  split
  · exact hx
  · exact hy

/-- An index in the lower half of the elements. -/
theorem lt_half_iff (c : BitVec 2) (k : Nat) : k < 512 / width c / 2 ↔ 2 * k < 512 / width c := by
  have heven : 512 / width c % 2 = 0 := by
    revert c
    decide
  omega

/-- An index that is chosen stands behind as many chosen ones as lie below it. -/
theorem filter_range_getElem? {p : Nat → Bool} {n k : Nat} (hk : k < n) (hp : p k = true) :
    ((List.range n).filter p)[(List.range k).countP p]? = some k := by
  obtain ⟨r, rfl⟩ := Nat.exists_eq_add_of_lt hk
  rw [Nat.add_assoc, List.range_add, List.filter_append,
    List.getElem?_append_right (by rw [List.countP_eq_length_filter]), List.countP_eq_length_filter, Nat.sub_self,
    List.range_succ_eq_map, List.map_cons, Nat.add_zero, List.filter_cons_of_pos hp]
  rfl

/-- Element `j` of `vexpand` is the source element numbered by the active ones below it, or the old one. -/
theorem expandEls_getD (act : Nat → Bool) (old src : Nat → Nat) {l : List Nat} {j : Nat} (hj : j < l.length) (k : Nat) :
    (expandEls act old src l k).getD j 0 =
      if act l[j] then src (k + (l.take j).countP act) else old l[j] := by
  induction l generalizing j k with
  | nil => exact absurd hj (Nat.not_lt_zero j)
  | cons i l ih =>
    unfold expandEls
    cases j with
    | zero => cases h : act i <;> simp [h]
    | succ j =>
      have hl : j < l.length := Nat.lt_of_succ_lt_succ hj
      rw [List.getElem_cons_succ, List.take_succ_cons, List.countP_cons]
      cases act i with
      | true => exact (ih hl (k + 1)).trans (by rw [if_pos rfl, Nat.add_right_comm, Nat.add_assoc])
      | false => exact ih hl k

theorem vectorPermutations : VectorPermutations := by
  intro d a b m c
  refine ⟨writesV_lanewise (fun _ => rfl) fun _ _ _ => lane_mod _ _ _,
    writesV_lanewise (fun _ => rfl) fun _ _ _ => Nat.mod_mod _ _,
    writesV_lanewise (fun _ => rfl) fun _ _ _ => lane_mod _ _ _,
    writesV_lanewise (fun _ => rfl) fun _ _ _ => lane_mod _ _ _,
    writesV_lanewise (fun _ => rfl) fun s k _ => ?zip, writesV_lanewise (fun _ => rfl) fun s k _ => ?unzip,
    writesV_lanewise (fun _ => rfl) fun s k _ => ?slide,
    writesV_of (fun _ => rfl) fun s => ⟨fun k hk hon => ?closed, fun j hj hn => ?zeros⟩,
    writesV_of (fun _ => rfl) fun s k hk => ?expand⟩
  case zip =>
    have hodd : k % 2 ≠ 0 → (k - 1) / 2 = k / 2 := by omega
    refine (ite_mod (lane_mod _ _ _) (lane_mod _ _ _)).trans (if_ctx_congr Iff.rfl (fun _ => rfl) fun h => ?_)
    rw [hodd h]
    rfl
  case unzip =>
    exact (ite_mod (lane_mod _ _ _) (lane_mod _ _ _)).trans (if_congr (lt_half_iff c k) rfl rfl)
  case slide => exact ite_mod (lane_mod _ _ _) (Nat.zero_mod _)
  case closed =>
    have hle : (List.range k).countP (laneOn s m (width c)) ≤ k :=
      List.countP_le_length.trans_eq List.length_range
    refine (lane_ofEls _ (lane_in_register (hle.trans_lt hk))).trans ?_
    rw [List.getD_eq_getElem?_getD, List.getElem?_map, widthOf_eq_width, active_eq_laneOn, filter_range_getElem? hk hon]
    exact lane_mod _ _ _
  case zeros =>
    refine (lane_ofEls _ (lane_in_register hn)).trans ?_
    rw [List.getD_eq_default _ _ ?_, Nat.zero_mod]
    rw [List.length_map, ← List.countP_eq_length_filter]
    exact hj
  case expand =>
    refine (lane_ofEls _ (lane_in_register hk)).trans ?_
    rw [widthOf_eq_width, active_eq_laneOn, expandEls_getD _ _ _ (by rwa [List.length_range]), List.getElem_range,
      List.take_range, Nat.min_eq_left hk.le, Nat.zero_add]
    exact ite_mod (lane_mod _ _ _) (lane_mod _ _ _)

/-! ### Element access -/

theorem elemCheck_inside {s : State} {b : BitVec 5} {w : Nat} (h : un s b < 512 / w) : s.elemCheck b w = none :=
  if_neg (Nat.not_le.mpr h)

theorem elemCheck_beyond {s : State} {b : BitVec 5} {w : Nat} (h : 512 / w ≤ un s b) :
    s.elemCheck b w = some (Cause.bounds, un s b) := if_pos h

theorem vectorElementAccess : VectorElementAccess := by
  intro d a b c s
  refine
    ⟨fun hl hb => ⟨_, State.checked_or_within hl (elemCheck_inside hb) _,
        onlyV_setV s d _, fun k hk => ?inserted⟩,
      fun hl hb => ⟨_, State.checked_or_within hl (elemCheck_inside hb) _,
        onlyG_setG s d _, ?extracted⟩,
      fun hl hb => State.checked_or_within hl (elemCheck_beyond hb) _,
      fun hl hb => State.checked_or_within hl (elemCheck_beyond hb) _,
      fun r hr => State.checked_or_overLimit hr _ _, fun r hr => State.checked_or_overLimit hr _ _⟩
  case inserted =>
    rw [v_setV_adv, widthOf_eq_width, lane_ofEls _ (lane_in_register hk), List.getD_eq_getElem _ _ (by simpa using hk),
      List.getElem_map, List.getElem_range]
    exact ite_mod (Nat.mod_mod _ _) (lane_mod _ _ _)
  case extracted =>
    rw [g_setG_adv, word_natCast, widthOf_eq_width, el_eq_lane, Nat.mod_eq_of_lt (show (s.g b).toNat < _ from hb), un]

/-- Settles O12. -/
theorem vectorPermutesAndElements : Obligations.VectorPermutesAndElements := ⟨vectorPermutations, vectorElementAccess⟩

end Sys2Proof.Machine
end

section

/-! ## Vector comparisons and mask operations (R132, R133) -/

namespace Sys2Proof.Machine

open Sys2Proof.Claims

/-! ### A mask register written -/

theorem onlyM_setM (s : State) (d : BitVec 3) (x : Word) : onlyM d s (s.setM d x).adv := by
  refine ⟨?_, fun r hr => (s.core.m_setM d r x).trans (if_neg fun h => hr h.1)⟩
  unfold State.setM State.on Core.setM
  split <;> rfl

theorem onlyM_setM_setFlags (s : State) (d : BitVec 3) (x : Word) (fl : BitVec 6) :
    onlyM d s ((s.setM d x).setFlags fl).adv := by
  refine ⟨?_, fun r hr => (s.core.m_setM d r x).trans (if_neg fun h => hr h.1)⟩
  unfold State.setM State.on Core.setM
  split <;> rfl

theorem writesM_of {i : Instr} {d : BitVec 3} {x : State → Word} (he : ∀ s, exec i s = s.maskResult d (x s)) :
    writesM i d x := by
  refine fun s => ⟨_, he s, onlyM_setM s d _, congrArg Ctl.fstat (s.core.setM_ctl d _), ?_⟩
  refine (s.core.m_setM d d _).trans ?_
  split
  · rename_i h
    exact (if_neg h.2).symm
  · rename_i h
    obtain rfl : d = 0 := not_not.mp fun hd => h ⟨rfl, hd⟩
    rfl

theorem maskOperations : MaskOperations := fun _ _ _ _ _ =>
  ⟨writesM_of fun _ => rfl, writesM_of fun _ => rfl, writesM_of fun _ => rfl, writesM_of fun _ => rfl,
    writesM_of fun _ => rfl, writesM_of fun _ => rfl, gives_of_result (fun _ => rfl) fun _ => rfl,
    gives_of_result (fun _ => rfl) fun _ => congrArg (BitVec.ofNat 64) (popCount_eq_countP _ 64)⟩

/-! ### The bits and the flags of a comparison -/

theorem packCodes_testBit (l : List Bool) (k : Nat) : (packCodes 1 (l.map Bool.toNat)).testBit k = l.getD k false := by
  have h := packCodes_lane 1 (l.map Bool.toNat) k
  rw [Nat.one_mul, pow_one, show 0 = Bool.toNat false by rfl, List.getD_map] at h
  rw [Nat.testBit_eq_decide_div_mod_eq, h]
  cases l.getD k false <;> rfl

theorem foldl_flags (on : Nat → Bool) (x : Nat → BitVec 6) (n : Nat) :
    (List.range n).foldl (fun (f : BitVec 6) i => if on i then f ||| x i else f) 0 =
      flagsBelow on (fun k => (0, x k)) n := by
  induction n with
  | zero => rfl
  | succ n ih =>
    rw [List.range_succ, List.foldl_append, ih]
    rfl

theorem flagIf_NV_getLsbD (b : Bool) (e : Nat) : (flagIf b flagNV).getLsbD e = true ↔ e = 0 ∧ b = true := by
  cases b <;> simp [flagIf]

/-! ### The comparisons (R132) -/

/-- A condition is a test of integers, a test of numbers, what a NaN gives and whether a quiet NaN goes without a flag. -/
structure Cond.Means (c : Cond) (quiet : Bool) (int : Int → Int → Bool) (float : FVal → FVal → Bool)
    (unordered : Bool) : Prop where
  int_eq : c.int = int
  float_eq : ∀ x y, c.float x y = if x.isNaN || y.isNaN then unordered else float x y
  flag_eq : ∀ x y, c.flag x y =
    flagIf (if quiet then x.isSNaN || y.isSNaN else x.isNaN || y.isNaN) flagNV

/-- The width of a floating-point type (R70). -/
theorem typeWidth_float {t : BitVec 4} (h : ¬ t.toNat < 8) : typeWidth t = (fmtOf (t.toNat - 8) false).width :=
  if_neg h

theorem elemTest_snd (c : Cond) (t : BitVec 4) (x y : Nat) : (elemTest c t x y).2 = if t.toNat < 8 then 0 else
    c.flag ((fmtOf (t.toNat - 8) false).decode x) ((fmtOf (t.toNat - 8) false).decode y) := by
  unfold elemTest
  split_ifs with h4 h8
  · rfl
  · exact absurd (h4.trans (by decide)) h8
  · rfl
  · rfl

section Compare

variable {c : Cond} {quiet : Bool} {int : Int → Int → Bool} {float : FVal → FVal → Bool} {unordered : Bool}

theorem elemTest_outcome (h : c.Means quiet int float unordered) (t : BitVec 4) (x y : VReg) (k : Nat) :
    let w := typeWidth t
    let f := fmtOf (t.toNat - 8) false
    (elemTest c t (lane x w k) (lane y w k)).1 =
      if t.toNat < 4 then int (laneS x w k) (laneS y w k)
      else if t.toNat < 8 then int (lane x w k) (lane y w k)
      else if (fval f x k).isNaN || (fval f y k).isNaN then unordered else float (fval f x k) (fval f y k) := by
  intro w f
  rw [← h.int_eq, ← h.float_eq, laneS, laneS, ← sext_eq_toInt, ← sext_eq_toInt, fval, fval]
  unfold elemTest
  split_ifs with h4 h8
  · rfl
  · rfl
  · rw [← typeWidth_float h8]

theorem elemTest_flag (h : c.Means quiet int float unordered) (t : BitVec 4) (x y : VReg) (k e : Nat) :
    let w := typeWidth t
    let f := fmtOf (t.toNat - 8) false
    (elemTest c t (lane x w k) (lane y w k)).2.getLsbD e = true ↔ e = 0 ∧ (decide (8 ≤ t.toNat) &&
      if quiet then (fval f x k).isSNaN || (fval f y k).isSNaN
      else (fval f x k).isNaN || (fval f y k).isNaN) = true := by
  intro w f
  rw [elemTest_snd]
  split
  · rename_i h8
    simp [Nat.not_le.mpr h8]
  · rename_i h8
    rw [h.flag_eq, flagIf_NV_getLsbD, decide_eq_true (Nat.le_of_not_lt h8), Bool.true_and, fval, fval,
      ← typeWidth_float h8]

theorem compares_of (h : c.Means quiet int float unordered) {i : Instr} {d : BitVec 3} {a b : BitVec 5} {m : BitVec 3}
    {t : BitVec 4} (he : ∀ s, exec i s = s.vecCmp c d a b m t) : compares i d a b m t quiet int float unordered := by
  intro s x y test nv
  refine ⟨fun hl => ⟨_, (he s).trans (State.checked_within hl _), onlyM_setM_setFlags s d _ _, fun hd j hj => ?bits,
    gains_flags (congrArg (·.fstat ||| _) (s.core.setM_ctl d _)) fun e => ?flags⟩,
    fun r hr => (he s).trans (State.checked_overLimit hr _)⟩
  case bits =>
    refine (congrArg (·.getLsbD j) ((s.core.m_setM d d _).trans (if_pos ⟨rfl, hd⟩))).trans ?_
    rw [BitVec.getLsbD_ofNat, decide_eq_true hj, Bool.true_and, packCodes_testBit,
      List.getD_eq_getElem _ _ (by simpa using hj), List.getElem_map, List.getElem_range]
    exact if_congr Iff.rfl (elemTest_outcome h t _ _ _) rfl
  case flags =>
    rw [foldl_flags, flagsBelow_getLsbD]
    constructor
    · rintro ⟨k, hk, hon, hfl⟩
      obtain ⟨h0, hnv⟩ := (elemTest_flag h t _ _ k e).mp hfl
      exact ⟨h0, k, hk, hon, hnv⟩
    · rintro ⟨h0, k, hk, hon, hnv⟩
      exact ⟨k, hk, hon, (elemTest_flag h t _ _ k e).mpr ⟨h0, hnv⟩⟩

end Compare

theorem vectorComparisons : VectorComparisons := fun _ _ _ _ _ _ =>
  ⟨compares_of (c := .eq) ⟨rfl, fun _ _ => rfl, fun _ _ => rfl⟩ fun _ => rfl,
    compares_of (c := .ne) ⟨rfl, fun _ _ => rfl, fun _ _ => rfl⟩ fun _ => rfl,
    compares_of (c := .lt) ⟨rfl, fun _ _ => rfl, fun _ _ => rfl⟩ fun _ => rfl,
    compares_of (c := .le) ⟨rfl, fun _ _ => rfl, fun _ _ => rfl⟩ fun _ => rfl,
    compares_of (c := .gt) ⟨rfl, fun _ _ => rfl, fun _ _ => rfl⟩ fun _ => rfl,
    compares_of (c := .ge) ⟨rfl, fun _ _ => rfl, fun _ _ => rfl⟩ fun _ => rfl,
    fun _ => compares_of (c := .un) ⟨rfl, fun _ _ => rfl, fun _ _ => rfl⟩ fun _ => rfl⟩

/-- Settles O14. -/
theorem vectorComparesAndMasks : Obligations.VectorComparesAndMasks := ⟨vectorComparisons, maskOperations⟩

end Sys2Proof.Machine
end

section

/-! ## Vector loads and stores (R33, R139, R141, R372, R379) -/

namespace Sys2Proof.Machine

open Sys2Proof.Claims

/-! ### Addresses -/

theorem State.addrM_eq_addrV (s : State) (a : BitVec 5) (o : BitVec 13) : s.addrM a o = addrV s a o := by
  rw [State.addrM, addrV, word, BitVec.ofInt_add, BitVec.ofInt_mul, ← word, un, word_toNat]
  rfl

theorem State.strideAddr_eq (s : State) (a b : BitVec 5) :
    s.strideAddr a b = fun k : Nat => (word (un s a + k * si s b)).toNat := by
  funext k
  rw [State.strideAddr, word, BitVec.ofInt_add, BitVec.ofInt_mul, ← word, ← word, un, word_toNat, word_natCast, si,
    BitVec.ofInt_toInt]

theorem State.gatherAddr_eq (s : State) (a b : BitVec 5) (w : Nat) :
    s.gatherAddr a b w = fun k => (word (un s a + lane (s.v b) w k)).toNat := by
  funext k
  rw [State.gatherAddr, word, BitVec.ofInt_add, ← word, ← word, un, word_toNat, word_natCast, el_eq_lane]

/-! ### Checks -/

theorem State.checkEach_eq (chk : Nat → Option Trap) (l : List Nat) : State.checkEach chk l = l.findSome? chk := by
  induction l with
  | nil => rfl
  | cons a l ih =>
    rw [State.checkEach, ih, List.findSome?_cons]
    cases chk a <;> rfl

/-- The checks of the active addresses, in increasing index (R141). -/
theorem State.checkEach_active (s : State) (m : BitVec 3) (w : Nat) (addr : Nat → Nat) (chk : Nat → Option Trap) :
    State.checkEach chk ((activeAddrs (s.m m) w addr).map (·.2)) = firstFailure s m w addr chk := by
  rw [State.checkEach_eq, activeAddrs, List.map_map, List.findSome?_map]
  rfl

theorem firstFailure_none {s : State} {m : BitVec 3} {w : Nat} {addr : Nat → Nat} {chk : Nat → Option Trap}
    (h : firstFailure s m w addr chk = none) {k : Nat} (hk : k < 512 / w) (hon : laneOn s m w k = true) :
    chk (addr k) = none :=
  List.findSome?_eq_none_iff.mp h k (List.mem_filter.mpr ⟨List.mem_range.mpr hk, hon⟩)

/-- A span that passes `LocalCheck` is aligned and meets no lock. -/
theorem localFailure_none {s : State} {a n : Nat} (h : localFailure s a n = none) :
    a % n = 0 ∧ s.core.lockHit a n = false := by
  unfold localFailure at h
  split_ifs at h with _ ha _ hl
  exact ⟨not_not.mp ha, Bool.eq_false_iff.mpr hl⟩

theorem State.loadCheck_eq_readFailure (s : State) (a n : Nat) : s.loadCheck a n = readFailure s a n :=
  s.loadCheck_eq a n

/-! ### What a load has seen (R289) -/

theorem State.hearEls_eq (addr : Nat → Nat) (n : Nat) (is : List Nat) (s : State) :
    ∃ v, s.hearEls addr n is = { s with core := { s.core with view := v } } := by
  induction is generalizing s with
  | nil => exact ⟨s.core.view, rfl⟩
  | cons i is ih =>
    obtain ⟨v, h⟩ := ih (s.heard (addr i) n)
    exact ⟨v, h⟩

theorem State.hearEls_of_no_words {s : State} {addr : Nat → Nat} {n : Nat} {is : List Nat}
    (h : ∀ i ∈ is, s.wordsAt (addr i) n = []) : s.hearEls addr n is = s := by
  induction is with
  | nil => rfl
  | cons i is ih =>
    obtain ⟨hi, his⟩ := List.forall_mem_cons.mp h
    rw [State.hearEls, List.foldl_cons, State.heard_of_no_words hi]
    exact ih his

/-- A span that covers no other agent's word has no part that does. -/
theorem State.wordsAt_part {s : State} {a n b k : Nat} (h : s.wordsAt a n = []) (hlo : a ≤ b) (hhi : b + k ≤ a + n) :
    s.wordsAt b k = [] := by
  refine List.filter_eq_nil_iff.mpr fun r hr hin => List.filter_eq_nil_iff.mp h r hr ?_
  cases hw : r.word with
  | none => simp [hw] at hin
  | some x =>
    simp only [hw, Bool.and_eq_true, decide_eq_true_eq] at hin ⊢
    obtain ⟨⟨⟨ht, hl⟩, hu⟩, hb⟩ := hin
    exact ⟨⟨⟨ht, hlo.trans hl⟩, hu.trans hhi⟩, hb⟩

/-- A register written after some reads. -/
theorem onlyVHeard_hearEls {s : State} {addr : Nat → Nat} {is reads : List Nat} {k n : Nat} (d : BitVec 5) (x : VReg)
    (h : (∀ y ∈ reads, s.wordsAt y n = []) → ∀ i ∈ is, s.wordsAt (addr i) k = []) :
    onlyVHeard d reads n s ((s.hearEls addr k is).setV d x).adv := by
  obtain ⟨hrest, hv⟩ := onlyV_setV (s.hearEls addr k is) d x
  obtain ⟨v, hview⟩ := State.hearEls_eq addr k is s
  refine ⟨?_, fun hw => congrArg (·.core.view) (State.hearEls_of_no_words (h hw)), fun r hr => (hv r hr).trans ?_⟩
  · rw [hview]
    rfl
  · rw [hview]
    rfl

/-! ### Bytes and numbers -/

theorem leNat_eq_packCodes (xs : List Byte) : leNat xs = packCodes 8 (xs.map BitVec.toNat) := by
  induction xs with
  | nil => rfl
  | cons x xs ih =>
    rw [leNat, ih, List.map_cons, packCodes, Nat.mod_eq_of_lt x.isLt]
    rfl

/-- Byte `k` of a register made of its bytes. -/
theorem lane_ofLanes (xs : List Byte) {k : Nat} (h : k < 64) : lane (ofLanes xs) 8 k = (xs.getD k 0).toNat := by
  rw [ofLanes, lane_ofNat _ (by omega), leNat_eq_packCodes, packCodes_lane, show 0 = BitVec.toNat (0 : Byte) by rfl,
    List.getD_map, Nat.mod_eq_of_lt (BitVec.isLt _)]

theorem State.localBytes_getD (s : State) (a : Nat) {n k : Nat} (h : k < n) :
    ((s.localBytes a n).getD k 0).toNat = byteAt s (a + k) := by
  rw [State.localBytes, Memory.bytes_getD _ _ h, byteAt, Core.localKey_add]

theorem readAt_lt (s : State) (a n : Nat) : readAt s a n < 2 ^ (8 * n) := by
  rw [← State.localRead_eq_readAt, State.localRead, Memory.read, leNat_eq_packCodes]
  refine (packCodes_lt 8 _).trans_eq ?_
  rw [List.length_map, Memory.bytes_length]

theorem eight_mul_width (c : BitVec 2) : 8 * (width c / 8) = width c := by
  revert c
  decide

/-! ### Loads -/

theorem gathers_of {i : Instr} {names : List (BitVec 5)} {d : BitVec 5} {m : BitVec 3} {w : Nat}
    {addr : State → Nat → Nat} (hw : 8 * (w / 8) = w) (he : ∀ s, exec i s = s.vecGather names d m w (addr s)) :
    gathers i names d m w addr := by
  intro s errors fails
  have hc : exec i s = s.checked ((s.vcheck names).or fails)
      ((s.hearEls (addr s) (w / 8) ((List.range (512 / w)).filter (laneOn s m w))).setV d
        (mapEls (s.v d) (s.m m) w fun k => s.localRead (addr s k) (w / 8))).adv := by
    rw [he, State.vecGather]
    simp only [s.localCheck_eq_localFailure _ _ (show LKind.load ≠ .fetch by decide), State.checkEach_active]
    rfl
  refine ⟨fun hl hf => ⟨_, hc.trans (State.checked_or_within hl hf _),
    onlyVHeard_hearEls d _ fun h k hk => h _ (List.mem_map_of_mem hk), fun k hk => ?value⟩,
    fun r hr => hc.trans (State.checked_or_overLimit hr _ _),
    fun x hl hf => hc.trans (State.checked_or_within hl hf _)⟩
  case value =>
    rw [v_setV_adv, lane_mapEls _ _ _ hk, State.localRead_eq_readAt,
      Nat.mod_eq_of_lt ((readAt_lt s _ _).trans_eq (congrArg (2 ^ ·) hw))]
    rfl

/-! ### Stores -/

/-- From `s` to `t` only what a store may change differs, and of memory only bytes at a set of local addresses and in the
undo area. -/
def onlyStored (inside : Nat → Prop) (s t : State) : Prop :=
  t = { s with
    mem := t.mem, poison := t.poison, core := { s.core with wbits := t.core.wbits, team := t.core.team } } ∧
  (s.core.ctl.status.ckpt = false → t.core.team = s.core.team) ∧
  ∀ k, (∀ a, inside a → k ≠ s.core.localKey a) → ¬ inUndo s k → t.mem.byte k = s.mem.byte k

theorem onlyStored.storesOnly_adv {inside : Nat → Prop} {s t : State} (h : onlyStored inside s t) :
    storesOnly inside s t.adv := by
  obtain ⟨hrest, hteam, hmem⟩ := h
  refine ⟨?_, hteam, hmem⟩
  rw [hrest]
  rfl

theorem onlyStored.refl (inside : Nat → Prop) (s : State) : onlyStored inside s s :=
  ⟨rfl, fun _ => rfl, fun _ _ _ => rfl⟩

theorem onlyStored.mono {p q : Nat → Prop} {s t : State} (h : onlyStored p s t) (hp : ∀ y, p y → q y) :
    onlyStored q s t := by
  obtain ⟨hrest, hteam, hmem⟩ := h
  exact ⟨hrest, hteam, fun k ho => hmem k fun a ha => ho a (hp a ha)⟩

theorem onlyStored.trans {inside : Nat → Prop} {s t u : State} (h : onlyStored inside s t) (h' : onlyStored inside t u) :
    onlyStored inside s u := by
  obtain ⟨hrest, hteam, hmem⟩ := h
  obtain ⟨hrest', hteam', hmem'⟩ := h'
  refine ⟨?_, fun hc => ?_, fun k ho hu => (hmem' k ?_ ?_).trans (hmem k ho hu)⟩
  · rw [hrest', hrest]
  · exact (hteam' (by rw [hrest]; exact hc)).trans (hteam hc)
  · rw [hrest]
    exact ho
  · rw [hrest]
    exact hu

theorem onlyStored_localWrite (s : State) (a n x : Nat) :
    onlyStored (fun y => a ≤ y ∧ y < a + n) s (s.localWrite a n x) := by
  obtain ⟨m, p, w, t, h⟩ := s.localWriteBytes_eq a (natLe n x)
  obtain ⟨-, hout⟩ := bytesStored_localWriteBytes s a (natLe n x)
  rw [natLe_length] at hout
  refine ⟨?_, fun hc => State.localWriteBytes_team hc a _,
    fun k hk => hout k fun j hj => hk _ ⟨Nat.le_add_right a j, Nat.add_lt_add_left hj a⟩⟩
  rw [State.localWrite, h]

theorem onlyStored_scatterEls (x : VReg) (w : Nat) (l : List (Nat × Nat)) (s : State) :
    onlyStored (fun y => ∃ p ∈ l, p.2 ≤ y ∧ y < p.2 + w / 8) s (s.scatterEls x w l) := by
  induction l generalizing s with
  | nil => exact onlyStored.refl _ s
  | cons p l ih =>
    obtain ⟨k, a⟩ := p
    refine ((onlyStored_localWrite s a (w / 8) (el x w k)).mono fun y hy => ⟨_, List.mem_cons_self, hy⟩).trans
      ((ih _).mono ?_)
    rintro y ⟨q, hq, hy⟩
    exact ⟨q, List.mem_cons_of_mem _ hq, hy⟩

theorem Core.localKey_eq_add (c : Core) (a : Nat) : c.localKey a = c.localKey 0 + a := by
  rw [← Core.localKey_add, Nat.zero_add]

theorem Core.localKey_injective (c : Core) : Function.Injective c.localKey := by
  intro a b h
  rw [c.localKey_eq_add a, c.localKey_eq_add b] at h
  exact Nat.add_left_cancel h

/-- A byte that is neither written nor in the undo area keeps its value. -/
theorem onlyStored.byteAt_eq {inside : Nat → Prop} {s t : State} (h : onlyStored inside s t) {y : Nat}
    (ho : ¬ inside y) (hu : ¬ inUndo s (s.core.localKey y)) : byteAt t y = byteAt s y := by
  obtain ⟨hrest, -, hmem⟩ := h
  have hkey : t.core.localKey y = s.core.localKey y := by
    rw [hrest]
    rfl
  rw [byteAt, byteAt, hkey, hmem _ (fun a ha e => ho ?_) hu]
  obtain rfl : y = a := s.core.localKey_injective e
  exact ha

theorem readAt_congr {s t : State} {a n : Nat} (h : ∀ j, j < n → byteAt t (a + j) = byteAt s (a + j)) :
    readAt t a n = readAt s a n :=
  congrArg List.sum (List.map_congr_left fun j hj => by rw [h j (List.mem_range.mp hj)])

theorem readAt_one (s : State) (a : Nat) : readAt s a 1 = byteAt s a := by simp [readAt]

theorem readAt_localWrite (s : State) (a n x : Nat) : readAt (s.localWrite a n x) a n = x % 2 ^ (8 * n) := by
  have hkey : (s.localWrite a n x).core.localKey a = (s.logWrite a (natLe n x).length).core.localKey a := rfl
  rw [← State.localRead_eq_readAt, State.localRead, hkey, pow_mul]
  exact Memory.read_write _ _ n x

theorem State.scatterEls_append (x : VReg) (w : Nat) (l r : List (Nat × Nat)) (s : State) :
    s.scatterEls x w (l ++ r) = (s.scatterEls x w l).scatterEls x w r := by
  induction l generalizing s with
  | nil => rfl
  | cons p l ih => exact ih _

/-- The bytes of a span that passes `LocalCheck` are not in the undo area (R33, R372). -/
theorem not_inUndo_of_localFailure {s : State} {a n j : Nat} (h : localFailure s a n = none) (hj : j < n) :
    ¬ inUndo s (s.core.localKey (a + j)) := by
  rintro ⟨hc, hlo, hhi⟩
  obtain ⟨-, hlock⟩ := localFailure_none h
  have ho := (Bool.or_eq_false_iff.mp hlock).2
  rw [hc, Bool.true_and, overlap, decide_eq_false_iff_not] at ho
  rw [s.core.localKey_eq_add (a + j), s.core.localKey_eq_add s.core.info.undobase] at hlo hhi
  omega

theorem mem_activeAddrs {mask : Word} {w : Nat} {addr : Nat → Nat} {q : Nat × Nat} :
    q ∈ activeAddrs mask w addr ↔ ∃ k, k < 512 / w ∧ active mask w k = true ∧ (k, addr k) = q := by
  simp only [activeAddrs, List.mem_map, List.mem_filter, List.mem_range, and_assoc]

/-- What is written before and after an active element. -/
theorem activeAddrs_split {mask : Word} {w : Nat} (addr : Nat → Nat) {k : Nat} (hk : k < 512 / w)
    (hon : active mask w k = true) : ∃ l r, activeAddrs mask w addr = l ++ (k, addr k) :: r ∧
      ∀ q ∈ r, ∃ j, k < j ∧ j < 512 / w ∧ active mask w j = true ∧ q = (j, addr j) := by
  obtain ⟨n, hn⟩ := Nat.exists_eq_add_of_lt hk
  refine ⟨((List.range k).filter (active mask w)).map fun i => (i, addr i),
    ((List.range' (k + 1) n).filter (active mask w)).map fun i => (i, addr i), ?_, ?_⟩
  · rw [activeAddrs, hn, List.range_eq_range', List.range_eq_range', Nat.add_assoc, ← List.range'_append_1, Nat.zero_add,
      List.range'_succ, List.filter_append, List.filter_cons_of_pos hon, List.map_append, List.map_cons]
  · intro q hq
    obtain ⟨j, hj, rfl⟩ := List.mem_map.mp hq
    obtain ⟨hmem, hact⟩ := List.mem_filter.mp hj
    obtain ⟨hlo, hhi⟩ := List.mem_range'_1.mp hmem
    exact ⟨j, hlo, by omega, hact, rfl⟩

/-- An active element whose bytes no later one covers and no undo record holds reads as it was written. -/
theorem readAt_scatterEls {s : State} {x : VReg} {mask : Word} {w : Nat} {addr : Nat → Nat} {k : Nat}
    (hw : 8 * (w / 8) = w) (hk : k < 512 / w) (hon : active mask w k = true)
    (hu : ∀ j, j < w / 8 → ¬ inUndo s (s.core.localKey (addr k + j)))
    (hd : ∀ j, k < j → j < 512 / w → active mask w j = true →
      addr j + w / 8 ≤ addr k ∨ addr k + w / 8 ≤ addr j) :
    readAt (s.scatterEls x w (activeAddrs mask w addr)) (addr k) (w / 8) = lane x w k := by
  obtain ⟨l, r, hlist, hr⟩ := activeAddrs_split addr hk hon
  obtain ⟨hbefore, -⟩ := ((onlyStored_scatterEls x w l s).mono (q := fun _ => True) fun _ _ => trivial).trans
    ((onlyStored_localWrite _ (addr k) (w / 8) (el x w k)).mono fun _ _ => trivial)
  have hafter := onlyStored_scatterEls x w r ((s.scatterEls x w l).localWrite (addr k) (w / 8) (el x w k))
  rw [hlist, State.scatterEls_append]
  refine (readAt_congr fun j hj => hafter.byteAt_eq ?_ ?_).trans ?_
  · rintro ⟨q, hq, hlo, hhi⟩
    obtain ⟨i, hi, hin, hact, rfl⟩ := hr q hq
    have := hd i hi hin hact
    dsimp only at hlo hhi
    omega
  · rw [hbefore]
    exact hu j hj
  · rw [readAt_localWrite, hw]
    exact lane_mod _ _ _

/-- Two aligned spans of one length share no byte unless they are the same. -/
theorem aligned_apart {a b n : Nat} (ha : a % n = 0) (hb : b % n = 0) (h : a ≠ b) : a + n ≤ b ∨ b + n ≤ a := by
  obtain ⟨x, rfl⟩ := Nat.dvd_of_mod_eq_zero ha
  obtain ⟨y, rfl⟩ := Nat.dvd_of_mod_eq_zero hb
  rcases Nat.lt_or_gt_of_ne fun e : x = y => h (congrArg (n * ·) e) with hlt | hlt
  · exact Or.inl (Nat.mul_le_mul_left n hlt)
  · exact Or.inr (Nat.mul_le_mul_left n hlt)

theorem scatters_of {i : Instr} {names : List (BitVec 5)} {d : BitVec 5} {m : BitVec 3} {w : Nat}
    {addr : State → Nat → Nat} (hw : 8 * (w / 8) = w) (he : ∀ s, exec i s = s.vecScatter names d m w (addr s)) :
    scatters i names d m w addr := by
  intro s fails
  have hc : exec i s = s.checked ((s.vcheck names).or fails)
      (s.scatterEls (s.v d) w (activeAddrs (s.m m) w (addr s))).adv := by
    rw [he, State.vecScatter]
    simp only [s.localCheck_eq_localFailure _ _ (show LKind.store ≠ .fetch by decide), State.checkEach_active]
    rfl
  refine ⟨fun hl hf => ⟨_, hc.trans (State.checked_or_within hl hf _),
    ((onlyStored_scatterEls _ _ _ s).mono ?inside).storesOnly_adv, fun k hk hon hlast =>
      readAt_scatterEls hw hk hon (fun j hj => ?undo) fun j hkj hj hact => ?apart⟩,
    fun r hr => hc.trans (State.checked_or_overLimit hr _ _),
    fun x hl hf => hc.trans (State.checked_or_within hl hf _)⟩
  case inside =>
    rintro y ⟨p, hp, hy⟩
    obtain ⟨k, hk, hon, rfl⟩ := mem_activeAddrs.mp hp
    exact ⟨k, hk, hon, hy⟩
  case undo => exact not_inUndo_of_localFailure (firstFailure_none hf hk hon) hj
  case apart =>
    exact aligned_apart (localFailure_none (firstFailure_none hf hj hact)).1
      (localFailure_none (firstFailure_none hf hk hon)).1 (hlast j hkj hj hact)

theorem vectorStridedGathered : VectorStridedGathered := fun d a b m c =>
  ⟨gathers_of (eight_mul_width c) fun s => congrArg (s.vecGather [d] d m (width c)) (s.strideAddr_eq a b),
    scatters_of (eight_mul_width c) fun s => congrArg (s.vecScatter [d] d m (width c)) (s.strideAddr_eq a b),
    gathers_of (eight_mul_width c) fun s => congrArg (s.vecGather [d, b] d m (width c)) (s.gatherAddr_eq a b (width c)),
    scatters_of (eight_mul_width c) fun s =>
      congrArg (s.vecScatter [d, b] d m (width c)) (s.gatherAddr_eq a b (width c))⟩

/-! ### Contiguous loads and stores (R139) -/

theorem active_byte (mask : Word) : active mask 8 = mask.toNat.testBit := by
  funext k
  rw [active, Nat.mul_div_cancel_left k (by decide)]

/-- The bytes of a `vst` are scattered elements of one byte. -/
theorem State.storeLanes_eq_scatterEls (x : VReg) (addr : Nat) (mask : Word) {xs : List Byte} (k : Nat) (s : State)
    (h : ∀ j, j < xs.length → xs.getD j 0 = BitVec.ofNat 8 (el x 8 (k + j))) : s.storeLanes addr mask k xs =
      s.scatterEls x 8 (((List.range' k xs.length).filter mask.toNat.testBit).map fun i => (i, addr + i)) := by
  induction xs generalizing k s with
  | nil => rfl
  | cons y ys ih =>
    have hy : y = BitVec.ofNat 8 (el x 8 k) := h 0 (Nat.succ_pos _)
    have hys : ∀ j, j < ys.length → ys.getD j 0 = BitVec.ofNat 8 (el x 8 (k + 1 + j)) := fun j hj => by
      rw [Nat.add_assoc, Nat.add_comm 1]
      exact h (j + 1) (Nat.succ_lt_succ hj)
    rw [State.storeLanes, ih _ _ hys, List.length_cons, List.range'_succ, List.filter_cons]
    cases mask.toNat.testBit k with
    | true =>
      rw [hy]
      rfl
    | false => rfl

theorem State.storeLanes_lanes (s : State) (x : VReg) (addr : Nat) (mask : Word) :
    s.storeLanes addr mask 0 (lanes x) = s.scatterEls x 8 (activeAddrs mask 8 (addr + ·)) := by
  rw [State.storeLanes_eq_scatterEls x addr mask 0 s fun j hj => ?_, activeAddrs, active_byte, List.range_eq_range', lanes,
    natLe_length]
  rw [lanes, natLe_length] at hj
  refine BitVec.eq_of_toNat_eq ?_
  rw [lanes, natLe_getD _ _ _ hj, Nat.zero_add, BitVec.toNat_ofNat, BitVec.toNat_ofNat, el, bitsAt, Nat.mod_mod,
    show 256 = 2 ^ 8 by rfl, ← pow_mul]

theorem execVst_eq (d a : BitVec 5) (m : BitVec 3) (o : BitVec 13) (s : State) : exec (.vst d a m o) s =
    s.checked ((s.vcheck [d]).or (localFailure s (addrV s a o) 64))
      (s.scatterEls (s.v d) 8 (activeAddrs (s.m m) 8 (addrV s a o + ·))).adv := by
  rw [← State.storeLanes_lanes, ← State.addrM_eq_addrV,
    ← s.localCheck_eq_localFailure _ _ (show LKind.store ≠ .fetch by decide)]
  rfl

theorem execVld_eq (d a : BitVec 5) (m : BitVec 3) (o : BitVec 13) (s : State) : exec (.vld d a m o) s =
    s.checked ((s.vcheck [d]).or (readFailure s (addrV s a o) 64))
      ((s.hearEls (fun i => addrV s a o + 8 * i) 8 (wholeWords (s.m m))).setV d (mapEls (s.v d) (s.m m) 8 fun k =>
        el (ofLanes (s.localBytes (addrV s a o) 64)) 8 k)).adv := by
  rw [← State.loadCheck_eq_readFailure, ← State.addrM_eq_addrV]
  rfl

theorem vectorLoadStore : VectorLoadStore := by
  intro d a m o s x
  have hld := execVld_eq d a m o s
  have hst := execVst_eq d a m o s
  refine ⟨fun hl hf => ⟨_, hld.trans (State.checked_or_within hl hf _),
      onlyVHeard_hearEls d _ ?heard, fun k hk => ?loaded⟩,
    fun hl hf => ⟨_, hst.trans (State.checked_or_within hl hf _),
      ((onlyStored_scatterEls _ _ _ s).mono ?inside).storesOnly_adv, fun k hk hon => ?stored⟩,
    fun r hr => ⟨hld.trans (State.checked_or_overLimit hr _ _), hst.trans (State.checked_or_overLimit hr _ _)⟩,
    fun f hl hf => hld.trans (State.checked_or_within hl hf _),
    fun f hl hf => hst.trans (State.checked_or_within hl hf _)⟩
  case heard =>
    intro h i hi
    have hlt : i < 8 := List.mem_range.mp (List.mem_of_mem_filter hi)
    exact State.wordsAt_part (h x List.mem_cons_self) (Nat.le_add_right _ _) (by omega)
  case loaded =>
    rw [v_setV_adv, lane_mapEls _ _ _ hk, el_eq_lane, lane_mod, lane_ofLanes _ hk, State.localBytes_getD _ _ hk]
    rfl
  case inside =>
    rintro y ⟨p, hp, hlo, hhi⟩
    obtain ⟨k, hk, hon, rfl⟩ := mem_activeAddrs.mp hp
    obtain rfl : y = x + k := Nat.le_antisymm (Nat.le_of_lt_succ hhi) hlo
    exact ⟨Nat.le_add_right x k, Nat.add_lt_add_left hk x, by rwa [Nat.add_sub_cancel_left]⟩
  case stored =>
    refine (readAt_one _ _).symm.trans (readAt_scatterEls (w := 8) rfl hk hon (fun j hj => ?_) fun j hkj _ _ => Or.inr ?_)
    · obtain rfl : j = 0 := Nat.lt_one_iff.mp hj
      exact not_inUndo_of_localFailure (a := x) (j := k) hf hk
    · exact Nat.add_lt_add_left hkj x

/-- Settles O16. -/
theorem vectorMemory : Obligations.VectorMemory := ⟨vectorLoadStore, vectorStridedGathered⟩

end Sys2Proof.Machine
end

section

/-! ## Delivery of messages (R162 to R164, R178, R180, R374) -/

namespace Sys2Proof.Machine

open Sys2Proof.Claims

theorem Core.alive_of_running {c : Core} (h : c.run = .running) : c.alive = true := by
  unfold Core.alive
  rw [h]

theorem State.trap_addr (s : State) (t : Trap) : (s.trap t).core.addr = s.core.addr := by
  unfold State.trap
  split
  · dsimp only
    split
    · rfl
    · exact State.takeTrap_addr _ _ _ _ _ _ _
  · exact State.takeTrap_addr _ _ _ _ _ _ _

/-- An event that names the core in focus by its address acts on it. -/
theorem State.atAgent_self (s : State) {f : State → State} (h : (f s).core.addr = s.core.addr) :
    s.atAgent s.core.addr.toNat f = f s := by
  unfold State.atAgent
  rw [if_pos s.core.addr.isLt, State.at_self s h]

/-- A message that none of its sender overtakes arrives. -/
theorem execMessageArrival_first {s : State} {i : Nat} {m : Msg} (hm : s.mesh[i]? = some m)
    (h : ∀ x ∈ s.mesh.take i, ¬ (x.src = m.src ∧ x.dst = m.dst ∧ x.chan = m.chan)) :
    execMessageArrival i s = .next ({ s with mesh := s.mesh.eraseIdx i }.arrive m) := by
  have hn : ¬ ((s.mesh.take i).any fun (x : Msg) => x.src == m.src && x.dst == m.dst && x.chan == m.chan) = true := by
    simpa [and_assoc] using h
  unfold execMessageArrival
  rw [hm]
  dsimp only
  rw [if_neg hn]

/-- A message that a thread takes waits at its interface, or is held for its team's next commit. -/
theorem State.arrive_taken {s : State} {m : Msg} {k : Nat} {c : Core} (hk : s.receiver m = some k)
    (hc : s.getThread k = some c) (hch : m.chan < c.ctl.clim.toNat) (hr : s.coresReach (threadCore m.src) m.dst = true) :
    s.arrive m = s.atThread k (·.on fun d =>
      if d.ctl.status.ckpt && !(s.teamOf c).contains m.src then { d with msgs := { d.msgs with held := d.msgs.held ++ [m] } }
      else { d with msgs := { d.msgs with iface := d.msgs.iface ++ [m] } }) := by
  have hn : ¬ (c.ctl.clim.toNat ≤ m.chan ∨ (!s.coresReach (threadCore m.src) m.dst) = true) := by
    rw [hr]; simpa using hch
  obtain ⟨get, hg⟩ : ∃ get, s.getThread = get := ⟨_, rfl⟩
  rw [hg] at hc
  unfold State.arrive
  rw [hk, hg]
  dsimp only
  rw [hc]
  exact if_neg hn

/-- A message for the thread in focus waits at its interface, or is held for its team's next commit. -/
theorem State.arrive_focus {s : State} {m : Msg} (hk : s.receiver m = some s.core.thread)
    (hch : m.chan < s.core.ctl.clim.toNat) (hr : s.coresReach (threadCore m.src) m.dst = true) :
    s.arrive m = { s with core := { s.core with
      msgs := if s.core.ctl.status.ckpt = true ∧ ¬ m.src ∈ s.teamOf s.core
        then { s.core.msgs with held := s.core.msgs.held ++ [m] }
        else { s.core.msgs with iface := s.core.msgs.iface ++ [m] } } } := by
  rw [State.arrive_taken hk s.getThread_self hch hr, State.atThread_self]
  case h => rw [State.on_core]; split <;> rfl
  refine congrArg (fun c => { s with core := c }) ?_
  by_cases hh : s.core.ctl.status.ckpt = true ∧ ¬ m.src ∈ s.teamOf s.core
  · simp [hh]
  · have hb : ¬ (s.core.ctl.status.ckpt && !(s.teamOf s.core).contains m.src) = true := by simpa using hh
    dsimp only
    rw [if_neg hb, if_neg hh]

/-- A message that no thread takes is counted at the sender in focus. -/
theorem State.arrive_lost {s : State} {m : Msg} (hk : s.receiver m = none) (hm : m.src = s.core.thread) :
    s.arrive m = s.on fun c => { c with msgs := { c.msgs with undeliv := satInc c.msgs.undeliv } } := by
  unfold State.arrive
  rw [hk]
  dsimp only
  rw [State.countLost, hm]
  exact State.atThread_self s rfl

/-- A message enters its channel when the queue has room. -/
theorem State.enterChannel_room {s : State} {m : Msg} {r : List Msg} (hrun : s.core.run = .running)
    (hi : s.core.msgs.iface = m :: r) (hu : m.units ≤ s.core.freeUnits) :
    s.enterChannel = { s with core := { s.core with
      latch := true, msgs := { s.core.msgs with queue := s.core.msgs.queue ++ [m], iface := r } } } := by
  unfold State.enterChannel
  rw [Core.alive_of_running hrun, hi]
  exact if_pos hu

/-- A receive whose period has passed traps on an empty channel, and else goes on waiting. -/
theorem State.rxExpire_waited {s : State} {n t0 : Nat} (hrun : s.core.run = .running) (hw : s.core.wait = .recv n t0)
    (ht : s.core.ctl.rxwatch.toNat ≤ s.clk - t0) :
    s.rxExpire = if s.core.channel n = [] then State.trap (s.on fun c => { c with
        census := { c.census with wd := true, chan := BitVec.ofNat 4 n }
        faults := { c.faults with rxwd := satInc c.faults.rxwd } }) (Cause.rxWatchdog, n) else s := by
  unfold State.rxExpire
  rw [hrun, hw]
  simp only [ht, true_and]

/-- Settles O19. -/
theorem messageDelivery : Obligations.MessageDelivery := by
  refine ⟨fun i m s hm hfirst => ?_, fun m r s hrun hi hu => ?_, fun n t0 s hrun hw ht => ?_⟩
  · have he : exec (.messageArrival i) s = _ := execMessageArrival_first hm hfirst
    refine ⟨fun hk hch hr => he.trans ?_, fun hk hsrc => he.trans ?_⟩
    · exact congrArg Host.Outcome.next (State.arrive_focus (s := { s with mesh := s.mesh.eraseIdx i }) hk hch hr)
    · rw [State.arrive_lost (s := { s with mesh := s.mesh.eraseIdx i }) hk hsrc, ← satInc_eq_toNat]
      rfl
  · show execMessageEntersChannel _ s = _
    have he := State.enterChannel_room hrun hi hu
    rw [execMessageEntersChannel, State.atAgent_self s (by rw [he]), he]
  · have hx := State.rxExpire_waited hrun hw ht
    have he : exec (.rxWatchdog s.core.addr.toNat) s = .next s.rxExpire :=
      congrArg Host.Outcome.next (State.at_self s (by rw [hx]; split; exacts [State.trap_addr _ _, rfl]))
    refine ⟨fun hne => ?_, fun hnil => ?_⟩
    · rw [he, hx, if_neg hne]
    · rw [he, hx, if_pos hnil, ← satInc_eq_toNat]
      rfl

end Sys2Proof.Machine
end

section

/-! ## Admission of a launch (R165, R166, R169, R170, R173, R395) -/

namespace Sys2Proof.Machine

open Sys2Proof.Claims

/-! ### What the registrar reads

Reading and translating draws free values, and changes nothing else of the state. -/

/-- From `s` to `t` free values may have been drawn; nothing else has changed. -/
def drew (s t : State) : Prop := t = { s with tick := t.tick }

theorem drew_refl (s : State) : drew s s := rfl

theorem drew.trans {s t u : State} (h : drew s t) (h' : drew t u) : drew s u := by
  unfold drew at h'
  rw [h] at h'
  exact h'

theorem drew.core {s t : State} (h : drew s t) : t.core = s.core := by rw [h]

theorem drew.mem {s t : State} (h : drew s t) : t.mem = s.mem := by rw [h]

theorem drew.getPkg {s t : State} (h : drew s t) (pkg : Nat) : t.getPkg pkg = s.getPkg pkg := by rw [h]; rfl

theorem State.stationFind_drew (s : State) (k : Nat) (pid : BitVec 16) (va : Nat) :
    drew s (s.stationFind k pid va).2 := by
  unfold State.stationFind
  dsimp only
  split
  · exact drew_refl s
  · split <;> rfl

theorem State.regFind_drew (pid : BitVec 16) (va : Nat) (l : List Nat) (s : State) : drew s (s.regFind pid va l).2 := by
  induction l generalizing s with
  | nil => exact drew_refl s
  | cons k l ih =>
    have hf := s.stationFind_drew k pid va
    unfold State.regFind
    split
    · rename_i t e
      rw [e] at hf
      exact hf.trans (ih t)
    · exact hf

/-- What the registrar reads or translates, if it does, leaves all but free values. -/
def RegRes.drewFrom {α : Type} (s : State) : RegRes α → Prop
  | .ok _ t => drew s t
  | _ => True

theorem RegRes.drewFrom_trans {α : Type} {s t : State} {r : RegRes α} (h : drew s t) (h' : r.drewFrom t) :
    r.drewFrom s := by
  cases r with
  | ok x u => exact h.trans h'
  | _ => trivial

theorem State.regSpans_drew (pkg : Nat) (q : LQueue) (k : AccKind) (fuel : Nat) :
    ∀ (s : State) (va n : Nat), (s.regSpans pkg q va n k fuel).drewFrom s := by
  induction fuel with
  | zero =>
    intro s va n
    unfold State.regSpans
    split
    · exact drew_refl s
    · trivial
  | succ fuel ih =>
    intro s va n
    unfold State.regSpans
    have hf := s.regFind_drew q.pid va (regStations pkg q.dies)
    split
    · exact drew_refl s
    split
    · trivial
    split
    · trivial
    · trivial
    rename_i e t he
    rw [he] at hf
    split
    · trivial
    dsimp only
    split
    · trivial
    have hi := ih t (va + min n (e.entry.limit.toNat - va)) (n - min n (e.entry.limit.toNat - va))
    split
    · rename_i ht
      rw [ht] at hi
      exact hf.trans hi
    · exact RegRes.drewFrom_trans hf hi

theorem State.regRead_drew (s : State) (pkg : Nat) (q : LQueue) (va n : Nat) (k : AccKind) :
    (s.regRead pkg q va n k).drewFrom s := by
  have hs := s.regSpans_drew pkg q k (n / 64 + 2) va n
  unfold State.regRead
  split
  · trivial
  · trivial
  · rename_i l t e
    rw [e] at hs
    split
    · exact hs
    · trivial

theorem State.segments_drew (pkg : Nat) (q : LQueue) (l : List Preload) (s : State) :
    (s.segments pkg q l).drewFrom s := by
  induction l generalizing s with
  | nil => exact drew_refl s
  | cons p l ih =>
    have hr := s.regRead_drew pkg q p.src p.len .codeRead
    unfold State.segments
    split
    · trivial
    · trivial
    · rename_i xs t e
      rw [e] at hr
      have hi := ih t
      split
      · rename_i r u hu
        rw [hu] at hi
        exact hr.trans hi
      · exact RegRes.drewFrom_trans hr hi

theorem State.bayImage_drew (s : State) (pkg : Nat) (q : LQueue) : (s.bayImage pkg q).drewFrom s := by
  have hf := s.regFind_drew q.pid q.bay.toNat (regStations pkg q.dies)
  unfold State.bayImage
  dsimp only
  split
  · exact drew_refl s
  split
  · trivial
  · trivial
  · rename_i e t he
    rw [he] at hf
    split
    · exact RegRes.drewFrom_trans hf (t.regRead_drew pkg q _ _ _)
    · trivial

theorem State.loadOf_drew (s : State) (pkg : Nat) (q : LQueue) (x : BitVec 512) (pre : List Preload) :
    (s.loadOf pkg q x pre).drewFrom s := by
  have hs := State.segments_drew pkg q pre s
  unfold State.loadOf
  split
  · trivial
  · trivial
  · rename_i segs t e
    rw [e] at hs
    have hb := t.bayImage_drew pkg q
    split
    · trivial
    · trivial
    · rename_i bay u hu
      rw [hu] at hb
      exact hs.trans hb

/-- The checks on a record, where they pass, leave all but free values. -/
def RecRes.drewFrom (s : State) : RecRes → Prop
  | .ok _ _ _ t => drew s t
  | _ => True

theorem State.tablesCheck_drew (s : State) (pkg : Nat) (q : LQueue) (x h : BitVec 512) :
    (s.tablesCheck pkg q x h).drewFrom s := by
  have hb := s.regRead_drew pkg q (recBartab x) (8 * hdrBlim h) .engineRead
  unfold State.tablesCheck
  dsimp only
  split
  · trivial
  split
  · trivial
  · trivial
  rename_i bs t e
  rw [e] at hb
  split
  · trivial
  have hp := t.regRead_drew pkg q (recPre x) (16 * recNpre x) .engineRead
  split
  · trivial
  · trivial
  rename_i ps u hu
  rw [hu] at hp
  split
  · exact hb.trans hp
  · trivial

theorem State.recordCheck_drew (s : State) (pkg : Nat) (q : LQueue) (x : BitVec 512) :
    (s.recordCheck pkg q x).drewFrom s := by
  have hk := s.regRead_drew pkg q (recKhdr x) 64 .engineRead
  unfold State.recordCheck
  split
  · trivial
  split
  · trivial
  · trivial
  rename_i hs t e
  rw [e] at hk
  dsimp only
  split
  · have ht := t.tablesCheck_drew pkg q x (BitVec.ofNat 512 (leNat hs))
    cases hc : t.tablesCheck pkg q x (BitVec.ofNat 512 (leNat hs)) with
    | ok h bars pre u =>
      rw [hc] at ht
      exact hk.trans ht
    | _ => trivial
  · trivial

theorem State.recordCheck_of_not_recordOk {s : State} {pkg : Nat} {q : LQueue} {x : BitVec 512} (h : recordOk x = false) :
    s.recordCheck pkg q x = .refuse stRecord := by
  unfold State.recordCheck
  rw [h]
  rfl

/-! ### The record becomes a launch -/

/-- A package that takes in a record, in a state whose package is that of `s`. -/
theorem admitted_modPkg {s t : State} {pkg : Nat} (ht : t.getPkg pkg = s.getPkg pkg) (u : LQueue) (fresh : Bool) (i : Nat)
    (f : Package → Launch) :
    admitted pkg u fresh i (f (s.getPkg pkg)) s (t.modPkg pkg fun p => p.admitRecord u i fresh (f p)) := by
  unfold admitted
  rw [State.getPkg_modPkg_self, ht]
  unfold Package.admitRecord
  dsimp only
  congr 1
  refine List.map_congr_left fun v _ => ?_
  by_cases hp : fresh = true ∧ v.prio = u.prio
  · simp [hp]
  · simp only [if_neg hp]

/-- The record that is served next, with nothing before it, is the one that the registrar acts on. -/
theorem execLaunchAdmission_next {s : State} {pkg : Nat} {u : LQueue} {fresh : Bool} {i : Nat} {x : BitVec 512}
    (hq : (s.getPkg pkg).nextQueue = some (u, fresh)) (hb : s.before pkg u.prio = false)
    (hc : (s.getPkg pkg).candidate u = some i) (hx : u.records[i]? = some x) :
    execLaunchAdmission pkg u.num s = .next (s.admitRecord pkg u i fresh x) := by
  unfold execLaunchAdmission
  dsimp only
  rw [hq]
  dsimp only
  rw [if_neg (by simp [hb]), hc]
  dsimp only
  rw [hx]

section Admits

variable {s t0 t1 : State} {pkg : Nat} {u : LQueue} {x h : BitVec 512} {bars : List Word} {pre : List Preload}
  {load : List (Nat × List Byte)} (i : Nat) (fresh : Bool)

/-- The record refused with a status, in a state `t`. -/
def State.refuseRecord (t : State) (pkg : Nat) (u : LQueue) (i : Nat) (fresh : Bool) (x : BitVec 512) (code : Nat) : State :=
  t.modPkg pkg fun p => p.admitRecord u i fresh (p.newLaunch u x 0 [] [] [] code)

theorem State.admitted_refuseRecord (ht : t0.getPkg pkg = s.getPkg pkg) (code : Nat) :
    admitted pkg u fresh i (launchOf (s.getPkg pkg) u x 0 [] [] [] (BitVec.ofNat 8 code)) s
      (t0.refuseRecord pkg u i fresh x code) :=
  admitted_modPkg ht u fresh i fun p => p.newLaunch u x 0 [] [] [] code

theorem State.admitRecord_wait (hc : s.recordCheck pkg u x = .wait) : s.admitRecord pkg u i fresh x = s := by
  unfold State.admitRecord
  rw [hc]

theorem State.admitRecord_refuse {code : Nat} (hc : s.recordCheck pkg u x = .refuse code) :
    s.admitRecord pkg u i fresh x = s.refuseRecord pkg u i fresh x code := by
  unfold State.admitRecord
  rw [hc]
  rfl

variable (hc : s.recordCheck pkg u x = .ok h bars pre t0)
include hc

theorem State.admitRecord_misfit (hf : (s.getPkg pkg).fits x (u.placeDies x) = false) :
    s.admitRecord pkg u i fresh x = t0.refuseRecord pkg u i fresh x stRecord := by
  unfold State.admitRecord
  rw [hc]
  exact if_pos (by rw [hf]; rfl)

theorem State.admitRecord_noPlace (hf : (s.getPkg pkg).fits x (u.placeDies x) = true) (hg : t0.firstGroups pkg u x = []) :
    s.admitRecord pkg u i fresh x = s := by
  unfold State.admitRecord
  rw [hc]
  dsimp only
  rw [if_neg (by simp [hf]), if_pos (by simp [hg])]

theorem State.admitRecord_placed (hf : (s.getPkg pkg).fits x (u.placeDies x) = true) (hg : t0.firstGroups pkg u x ≠ [])
    (hl : t0.loadOf pkg u x pre = .ok load t1) :
    s.admitRecord pkg u i fresh x = t1.modPkg pkg fun p =>
      p.admitRecord u i fresh (p.newLaunch u x h bars load (t0.firstGroups pkg u x) stOk) := by
  unfold State.admitRecord
  rw [hc]
  dsimp only
  rw [if_neg (by simp [hf]), if_neg (by simpa using hg), hl]

end Admits

/-- Settles O43: which way the registrar goes is chosen by the checks on the record, the room on its dies and the places
that are free; what it has read before leaves the package. -/
theorem launchAdmission : Obligations.LaunchAdmission := by
  intro s pkg u fresh i x p hq hb hcand hx y
  have hy : y = .next (s.admitRecord pkg u i fresh x) := execLaunchAdmission_next hq hb hcand hx
  refine ⟨fun code hc _ => ⟨_, hy, ?_, ?_⟩, fun hbad => ⟨_, hy, ?_⟩, fun hw => ?_, fun h bars pre t0 hc => ?_⟩
  · rw [State.admitRecord_refuse i fresh hc]
    rfl
  · rw [State.admitRecord_refuse i fresh hc]
    exact State.admitted_refuseRecord i fresh rfl code
  · rw [State.admitRecord_refuse i fresh (State.recordCheck_of_not_recordOk hbad)]
    exact State.admitted_refuseRecord i fresh rfl stRecord
  · rw [hy, State.admitRecord_wait i fresh hw]
  · have h0 : drew s t0 := by
      have hd := s.recordCheck_drew pkg u x
      rwa [hc] at hd
    refine ⟨fun hf => ⟨_, hy, ?_⟩, fun hf hg => ?_, fun load t1 hf hg hl => ⟨_, hy, ?_⟩⟩
    · rw [State.admitRecord_misfit i fresh hc hf]
      exact State.admitted_refuseRecord i fresh (h0.getPkg pkg) stRecord
    · rw [hy, State.admitRecord_noPlace i fresh hc hf hg]
    · have h1 : drew s t1 := by
        have hd := t0.loadOf_drew pkg u x pre
        rw [hl] at hd
        exact h0.trans hd
      rw [State.admitRecord_placed i fresh hc hf hg hl]
      exact ⟨h1.mem, h1.core, admitted_modPkg (h1.getPkg pkg) u fresh i
        fun p => p.newLaunch u x h bars load (t0.firstGroups pkg u x) stOk⟩

end Sys2Proof.Machine
end

section

/-! ## A status that meets an undo log (R372, R405)

The last part of `Obligations.LaunchEnds` lets a status of 16 bytes stand anywhere below 0x17C000 in the store of a core, and
says nothing of STATUS.CKPT. The two halves are written one after the other, each as a write that a team member's undo log
takes. Where the first half ends the log and the second opens a block behind it, the record of that block is the last of
the log, and lies over the first half. -/

namespace Sys2Proof.Machine

open Sys2Proof.Claims

/-- The domain after reset, with a running team member in focus; seven of the eight records that its undo log of 576 bytes
at 0x1000 takes have been written. -/
def fullLogMember : State :=
  { State.reset with core := { Core.idle 0 with
      run := .running
      ctl := { Ctl.reset with status := { Status.reset with ckpt := true } }
      info := { LaunchInfo.reset with undobase := 0x1000, undo := 576 }
      team := { Team.reset with logCount := 7, logged := List.range 7 } } }

/-- A launch queue on all eight dies, of the process of `fullLogMember`. -/
def fullLogQueue : LQueue :=
  { num := 0, prio := 0, weight := 1, conc := false, pid := 0, dies := 0xFF, cap := 1, entries := 1, ring := 0, ctxVa := 0,
    ctxSize := 0, msix := 0xFFFF, bay := 0, records := [], seq := 0, served := 0 }

/-- A status of ones, written so that its first half ends the log: the record of the block behind the log, whose bytes are
zero, has come over it. -/
theorem statusLocal_fullLogMember :
    ((fullLogMember.statusLocal 0 fullLogQueue [] 0 0x1238 (List.replicate 16 1)).map (byteAt · 0x1238)) = some 0 := by
  decide +kernel

/-- Refutes O45: in a team the status of a launch, at an address that is no multiple of 16, is not what its 16 bytes then
read as. -/
theorem not_launchEnds : ¬ Obligations.LaunchEnds := by
  rintro ⟨-, -, -, h⟩
  obtain ⟨t, ht, -, -, hb⟩ := h fullLogMember fullLogQueue [] 0x1238 (List.replicate 16 1) (by decide +kernel)
    (by decide +kernel) (by decide +kernel) (by decide +kernel) rfl (by decide +kernel) rfl rfl (by decide) rfl
  have h0 := statusLocal_fullLogMember
  rw [show fullLogMember.statusLocal 0 fullLogQueue [] 0 0x1238 (List.replicate 16 1) = some t from ht, Option.map_some,
    show byteAt t 0x1238 = 1 from hb 0 (by decide)] at h0
  exact absurd h0 (by decide)

end Sys2Proof.Machine
end

section

/-! ## Pre-emption request, saved context and resume (R174, R365, R368 to R370) -/

namespace Sys2Proof.Machine

open Sys2Proof.Claims

/-- What no step of a fold changes, the fold does not change. -/
theorem foldl_keeps {α β γ : Type} (F : β → γ) {g : β → α → β} (h : ∀ b x, F (g b x) = F b) (l : List α) (b : β) :
    F (l.foldl g b) = F b := by
  induction l generalizing b with
  | nil => rfl
  | cons x l ih => exact (ih (g b x)).trans (h b x)

theorem State.modCore_core_of_ne {s : State} {c : Nat} (h : s.core.addr.toNat ≠ c) (f : Core → Core) :
    (s.modCore c f).core = s.core := by
  unfold State.modCore
  rw [if_neg h]

theorem State.modCore_pkgs (s : State) (c : Nat) (f : Core → Core) : (s.modCore c f).pkgs = s.pkgs := by
  unfold State.modCore
  split <;> rfl

/-! ### The request (R174, R365) -/

/-- A core with a request for pre-emption. -/
def Core.asked (defer : Bool) (c : Core) : Core := { c with preempt := some defer, latch := true }

/-- A thread that runs is asked to stop. -/
def State.askThread (defer : Bool) (t : State) (k : Nat) : State :=
  if (t.getCore (threadCore k)).thread = k ∧ (t.getCore (threadCore k)).alive then
    t.modCore (threadCore k) fun c => { c with preempt := some defer, latch := true }
  else t

/-- Of the core in focus, the request to its own thread sets the request and the latch, and any other nothing. -/
theorem State.askThread_core {s : State} (ha : s.core.alive = true) (defer : Bool) (k : Nat) :
    (s.askThread defer k).core = if k = s.core.thread then s.core.asked defer else s.core := by
  unfold State.askThread
  by_cases hk : s.core.addr.toNat = threadCore k
  · rw [← hk, State.getCore_self, State.modCore_self]
    by_cases ht : s.core.thread = k
    · rw [if_pos ⟨ht, ha⟩, if_pos ht.symm]; rfl
    · rw [if_neg fun h => ht h.1, if_neg (Ne.symm ht)]
  · have ht : k ≠ s.core.thread := fun h => hk (by rw [h, threadCore_thread])
    rw [if_neg ht]
    split
    · exact State.modCore_core_of_ne hk _
    · rfl

theorem foldl_askThread_core (defer : Bool) (l : List Nat) {s : State} (ha : s.core.alive = true) :
    (l.foldl (State.askThread defer) s).core = if s.core.thread ∈ l then s.core.asked defer else s.core := by
  induction l generalizing s with
  | nil => rfl
  | cons k l ih =>
    have hc := State.askThread_core ha defer k
    by_cases hk : k = s.core.thread
    · rw [if_pos hk] at hc
      rw [List.foldl_cons, ih (s := s.askThread defer k) (by rw [hc]; exact ha), hc,
        if_pos (List.mem_cons.mpr (Or.inl hk.symm))]
      exact ite_self _
    · rw [if_neg hk] at hc
      rw [List.foldl_cons, ih (s := s.askThread defer k) (by rw [hc]; exact ha), hc]
      simp only [List.mem_cons, Ne.symm hk, false_or]

theorem State.askThread_mem (defer : Bool) (s : State) (k : Nat) : (s.askThread defer k).mem = s.mem := by
  unfold State.askThread
  split
  · exact State.modCore_mem _ _ _
  · rfl

theorem State.askThread_pkgs (defer : Bool) (s : State) (k : Nat) : (s.askThread defer k).pkgs = s.pkgs := by
  unfold State.askThread
  split
  · exact State.modCore_pkgs _ _ _
  · rfl

/-- A launch that may be pre-empted gets a request on each of its threads. -/
theorem execPreemptRequest_asks {s : State} {pkg : Nat} {l : Launch} {q : LQueue}
    (hl : (s.getPkg pkg).launch l.num = some l) (hq : (s.getPkg pkg).queue l.queue = some q) (hs : l.state = .running)
    (hp : recPreempt l.record = true) (hj : l.joinn = 0) (hstop : s.stopping pkg l = false) (hg : l.groups ≠ [])
    (hstart : ∀ g ∈ l.groups, g.started = true)
    (ho : ∀ m ∈ (s.getPkg pkg).launches, m.queue = l.queue → m.num ≠ l.num → m.state = .running)
    (hb : (s.contextSpans pkg q l.contextNeed).isSome = true) (hw : s.waitsFor pkg l = true) :
    execPreemptRequest pkg l.num s = .next (((l.threads pkg).foldl (State.askThread (recDefer l.record)) s).modPkg pkg
      (·.modLaunch l.num fun m => { m with state := .preempting })) := by
  have hothers : ((s.getPkg pkg).launches.any fun (m : Launch) =>
      m.queue == l.queue && m.num != l.num && decide (m.state ≠ .running)) = false := by
    simpa [and_imp] using ho
  obtain ⟨thread, ht⟩ : ∃ f, Core.thread = f := ⟨_, rfl⟩
  unfold execPreemptRequest State.askThread
  rw [ht]
  dsimp only
  rw [hl]
  dsimp only
  rw [hq]
  dsimp only
  rw [if_pos ⟨hs, hp, hj, by rw [hstop]; rfl, by simpa using hg, by simpa using hstart, by rw [hothers]; rfl, hb, hw⟩]

/-! ### The saved context (R368, R369) -/

theorem State.moveSpans_spec (s : State) (src dst : Nat) (clear : Bool) (l : List Span) :
    ∃ m p, s.moveSpans src dst clear l = { s with mem := m, poison := p } := by
  induction l generalizing s with
  | nil => exact ⟨s.mem, s.poison, rfl⟩
  | cons x l ih =>
    obtain ⟨m, p, h⟩ := ih (s.moveSpans src dst clear [x])
    exact ⟨m, p, h⟩

theorem State.spoilBuffer_spec (s : State) (l : List (Xlat × Nat)) :
    ∃ m n, s.spoilBuffer l = { s with mem := m, tick := n } := by
  induction l generalizing s with
  | nil => exact ⟨s.mem, s.tick, rfl⟩
  | cons x l ih =>
    have h1 : ∃ m n, s.spoilBuffer [x] = { s with mem := m, tick := n } := by
      unfold State.spoilBuffer
      rw [List.foldl_cons, List.foldl_nil]
      split
      · exact ⟨_, _, rfl⟩
      · exact ⟨_, _, rfl⟩
    obtain ⟨m, n, h⟩ := ih (s.spoilBuffer [x])
    obtain ⟨m1, n1, h1⟩ := h1
    refine ⟨m, n, h.trans ?_⟩
    rw [h1]

/-- The thread in focus, stopped by a pre-emption halt, leaves its core and stands among the saved ones. -/
theorem State.saveCore_self {s : State} (h : s.core.run = .preemptHalt) :
    (s.saveCore s.core.thread).core = s.core.fresh ∧
      aget (s.saveCore s.core.thread).saved s.core.thread = some s.core.asSaved ∧
      (s.saveCore s.core.thread).pkgs = s.pkgs := by
  obtain ⟨m, p, hm⟩ := s.moveSpans_spec (keyLocal s.core.addr.toNat 0) (keyImage s.core.thread 0) false s.core.contextSpans
  have he : s.saveCore s.core.thread =
      ({ s with mem := m, poison := p, saved := aset s.saved s.core.thread s.core.asSaved } : State).on Core.fresh := by
    have hc := threadCore_thread s.core
    have hg := s.getCore_self
    obtain ⟨thread, ht⟩ : ∃ f, Core.thread = f := ⟨_, rfl⟩
    obtain ⟨get, hget⟩ : ∃ f, s.getCore = f := ⟨_, rfl⟩
    rw [hget] at hg
    unfold State.saveCore
    rw [ht] at hc hm ⊢
    rw [hget]
    dsimp only
    rw [hc, hg, if_neg (by simp [h]), hm]
    exact State.modCore_self _ _
  rw [he]
  exact ⟨rfl, aget_aset_self _ _ _, rfl⟩

/-- The context of a launch of the thread in focus, which has stopped, is saved. -/
theorem execContextSave_self {s : State} {pkg : Nat} {l : Launch} (hl : (s.getPkg pkg).launch l.num = some l)
    (hs : l.state = .preempting) (ht : l.threads pkg = [s.core.thread]) (hr : s.core.run = .preemptHalt)
    (hsync : s.settledSync s.core = true) :
    ∃ m n, execContextSave pkg l.num s = .next ((({ s with mem := m, tick := n } : State).saveCore s.core.thread).modPkg pkg
      (·.modLaunch l.num fun x => { x with state := .preempted })) := by
  obtain ⟨m, n, hsp⟩ :=
    s.spoilBuffer_spec ((((s.getPkg pkg).queue l.queue).bind fun q => s.contextSpans pkg q l.contextNeed).getD [])
  refine ⟨m, n, ?_⟩
  have hk := s.getThread_self
  obtain ⟨get, hget⟩ : ∃ f, State.getThread = f := ⟨_, rfl⟩
  obtain ⟨thread, hth⟩ : ∃ f, Core.thread = f := ⟨_, rfl⟩
  rw [hget] at hk
  unfold execContextSave
  rw [hth] at hk ht ⊢
  rw [hget]
  dsimp only
  rw [hl]
  dsimp only
  rw [ht]
  rw [if_pos ⟨hs, by simp [hk, hr], by simp [hk, hr], by simp [hk, hsync]⟩, hsp, List.foldl_cons, List.foldl_nil]

/-! ### The resume (R370) -/

/-- From `s` to `t` of the core in focus the ring, the operations and the path counters may differ; memory and the saved
contexts stay. -/
def redone (s t : State) : Prop :=
  t.mem = s.mem ∧ t.saved = s.saved ∧
    t.core = { s.core with ring := t.core.ring, ops := t.core.ops, paths := t.core.paths }

theorem redone_refl (s : State) : redone s s := ⟨rfl, rfl, rfl⟩

theorem redone.trans {s t u : State} (h : redone s t) (h' : redone t u) : redone s u := by
  obtain ⟨hm, hs, hc⟩ := h
  obtain ⟨hm', hs', hc'⟩ := h'
  refine ⟨hm'.trans hm, hs'.trans hs, ?_⟩
  rw [hc] at hc'
  exact hc'

theorem foldl_redone {α : Type} {g : State → α → State} (hg : ∀ t x, redone t (g t x)) (l : List α) (s : State) :
    redone s (l.foldl g s) := by
  induction l generalizing s with
  | nil => exact redone_refl s
  | cons x l ih => exact (hg s x).trans (ih _)

theorem State.choosePath_redone (s : State) (p q : Nat) : redone s (s.choosePath p q).2 := by
  unfold State.choosePath
  dsimp only
  split
  · exact redone_refl s
  · exact ⟨rfl, rfl, rfl⟩

theorem State.counterOf_redone (s : State) (c pa : Nat) : redone s (s.counterOf c pa).2 := by
  unfold State.counterOf
  split
  · split <;> exact redone_refl s
  · exact s.choosePath_redone _ _

theorem State.countCopy_redone (s : State) (deal : BitVec 24) (r : CopyOp) : redone s (s.countCopy deal r).2 := by
  unfold State.countCopy
  dsimp only
  split
  · exact redone_refl s
  · exact (s.counterOf_redone _ _).trans ⟨rfl, rfl, rfl⟩

theorem State.redispatch_redone (s : State) (o : Op) : redone s (s.redispatch o) := by
  unfold State.redispatch
  split
  rename_i b t e
  have ht : redone s t := by
    split at e
    · rename_i r _
      cases e
      exact s.countCopy_redone _ _
    · cases e
      exact redone_refl s
  exact ht.trans ⟨rfl, rfl, rfl⟩

theorem State.rearm_redone (s : State) (x : BitVec 16 × Word) : redone s (s.rearm x) := ⟨rfl, rfl, rfl⟩

theorem State.modCore_saved (s : State) (c : Nat) (f : Core → Core) : (s.modCore c f).saved = s.saved := by
  unfold State.modCore
  split <;> rfl

theorem State.tellLeave_saved (g : GangStep) (l : List (Nat × Nat)) (s : State) : (s.tellLeave g l).saved = s.saved := by
  induction l generalizing s with
  | nil => rfl
  | cons x l ih =>
    obtain ⟨c, i⟩ := x
    unfold State.tellLeave
    exact (ih _).trans (s.modCore_saved c _)

theorem State.leaveGang_saved (s : State) : s.leaveGang.saved = s.saved := by
  unfold State.leaveGang State.leaveGangBy
  split
  · rfl
  · exact s.modCore_saved _ _
  · exact State.tellLeave_saved _ _ s

/-- An interrupt enters its handler. -/
theorem State.takeTrap_intr (s : State) (cause : BitVec 8) (info : Nat) (seq : BitVec 16) (resume : LAddr) :
    ∃ g, (s.takeTrap cause info false true seq resume).core =
        Core.enterTrap { s.core with gang := g } cause (BitVec.ofNat 64 info) false true seq resume ∧
      (s.takeTrap cause info false true seq resume).saved = s.saved := by
  obtain ⟨g, -, hc⟩ := s.takeTrap_spec cause info false true seq resume
  refine ⟨g, hc.trans (if_neg fun h => Bool.noConfusion h.2.2.2), ?_⟩
  unfold State.takeTrap
  rw [if_neg (by simp)]
  exact s.leaveGang_saved

/-- A write of a limit register changes of a core its control registers, and leaves EVEC. -/
theorem Core.writeLimit_eq (c : Core) {n : Nat} (hn : n = 0x018 ∨ n = 0x019 ∨ n = 0x01A ∨ n = 0x01B) (x : Word) :
    ∃ k, c.writeCr n x = { c with ctl := k } ∧ k.evec = c.ctl.evec := by
  refine ⟨_, rfl, ?_⟩
  rcases hn with rfl | rfl | rfl | rfl <;> rfl

theorem Core.openRegs_eq (c : Core) (n : Nat) : ∃ r k, c.openRegs n = { c with regs := r, ctl := k } ∧ k.evec = c.ctl.evec :=
  ⟨_, _, rfl, rfl⟩

/-- A context that is put back has its registers open and its limits written. -/
theorem Core.reopened_eq (c : Core) (n : Nat) (f : Nat → Word) :
    ∃ r k, (c.openRegs n).withLimits f = { c with regs := r, ctl := k } ∧ k.evec = c.ctl.evec := by
  obtain ⟨r, k0, h0, e0⟩ := c.openRegs_eq n
  obtain ⟨k1, h1, e1⟩ := Core.writeLimit_eq { c with regs := r, ctl := k0 } (n := 0x018) (by decide) (f 0x1B0)
  obtain ⟨k2, h2, e2⟩ := Core.writeLimit_eq { c with regs := r, ctl := k1 } (n := 0x019) (by decide) (f 0x1B8)
  obtain ⟨k3, h3, e3⟩ := Core.writeLimit_eq { c with regs := r, ctl := k2 } (n := 0x01A) (by decide) (f 0x1C0)
  obtain ⟨k4, h4, e4⟩ := Core.writeLimit_eq { c with regs := r, ctl := k3 } (n := 0x01B) (by decide) (f 0x1C8)
  refine ⟨r, { k4 with rxwatch := 0x1000000 }, ?_, e4.trans (e3.trans (e2.trans (e1.trans e0)))⟩
  unfold Core.withLimits
  rw [h0, h1, h2, h3, h4]
  rfl

/-- The core in focus, whose context stands in it again, enters its handler with cause RESUME. -/
theorem State.resumeHere_spec (s : State) (n : Nat) (hi : s.core.image = false) :
    ∃ d : Core, (d.addr = s.core.addr ∧ d.image = false ∧ d.run = s.core.run ∧ d.kept = [] ∧
        d.ctl.evec = s.core.ctl.evec) ∧
      (s.resumeHere n).mem = s.mem ∧ (s.resumeHere n).saved = s.saved ∧
      (s.resumeHere n).core = d.enterTrap Cause.resume (BitVec.ofNat 64 s.core.kept.length) false true 0
        (BitVec.ofNat 21 (Claims.readAt s (saveArea + 0x188) 8)) := by
  have hepc : (s.saved64 s.core.addr.toNat 0x188).setWidth 21 =
      BitVec.ofNat 21 (Claims.readAt s (saveArea + 0x188) 8) := by
    rw [← State.localRead_eq_readAt, State.localRead, Core.localKey, hi]
    exact BitVec.setWidth_ofNat_of_le (by decide) _
  obtain ⟨r, y, hy, hev⟩ := s.core.reopened_eq n (s.saved64 s.core.addr.toNat)
  have ht : (s.on fun k => { (k.openRegs n).withLimits (s.saved64 s.core.addr.toNat) with kept := [], keptTrig := [] }) =
      s.on fun k => { k with regs := r, ctl := y, kept := [], keptTrig := [] } :=
    congrArg (fun c : Core => { s with core := { c with kept := [], keptTrig := [] } }) hy
  have hr := (foldl_redone State.redispatch_redone s.core.kept
    (s.on fun k => { k with regs := r, ctl := y, kept := [], keptTrig := [] })).trans
    (foldl_redone State.rearm_redone s.core.keptTrig _)
  unfold State.resumeHere
  dsimp only
  rw [hepc, ht]
  generalize s.core.keptTrig.foldl State.rearm _ = u at hr ⊢
  obtain ⟨hm, hs, hc⟩ := hr
  rw [State.on_core] at hc
  obtain ⟨g, hg, hgs⟩ := State.takeTrap_intr
    (u.on fun k => { k with census := { k.census with handler := k.census.handler - 1 } })
    Cause.resume s.core.kept.length 0 (BitVec.ofNat 21 (Claims.readAt s (saveArea + 0x188) 8))
  refine ⟨_, ⟨?_, ?_, ?_, ?_, ?_⟩, (State.takeTrap_mem _ _ _ _ _ _ _).trans hm, hgs.trans hs, hg⟩
  · exact (congrArg Core.addr hc :)
  · exact (congrArg Core.image hc :).trans hi
  · exact (congrArg Core.run hc :)
  · exact (congrArg Core.kept hc :)
  · exact (congrArg (·.ctl.evec) hc :).trans hev

/-- The context of a thread stands on the core in focus again, which takes it up. -/
theorem State.resumeCore_spec {s : State} {k : Nat} {x : Core} (hx : aget s.saved k = some x)
    (hc : threadCore k = s.core.addr.toNat) (ha : x.addr = s.core.addr) :
    ∃ (u : State) (n : Nat), s.resumeCore k = u.resumeHere n ∧ u.saved = adel s.saved k ∧ u.core = { x with
      image := false, run := .running, resetAt := s.core.resetAt, fbuf := none
      rtab := { x.rtab with entries := [], miss := none } } := by
  obtain ⟨m, p, hm⟩ := s.moveSpans_spec (keyImage k 0) (keyLocal s.core.addr.toNat 0) true x.contextSpans
  refine ⟨({ s with mem := m, poison := p, saved := adel s.saved k, tick := s.tick + 512 } : State).on fun _ => { x with
      image := false, run := .running, resetAt := s.core.resetAt, fbuf := none
      rtab := { x.rtab with entries := [], miss := none } }, s.tick, ?_, rfl, rfl⟩
  have hg := s.getCore_self
  obtain ⟨get, hget⟩ : ∃ f, s.getCore = f := ⟨_, rfl⟩
  rw [hget] at hg
  unfold State.resumeCore
  rw [hx, hget, hc]
  dsimp only
  rw [hg, hm]
  have hf := State.modCore_self ({ s with mem := m, poison := p, saved := adel s.saved k, tick := s.tick + 512 } : State)
    fun _ => { x with image := false, run := .running, resetAt := s.core.resetAt, fbuf := none
                      rtab := { x.rtab with entries := [], miss := none } }
  refine (congrArg (fun v : State => v.at s.core.addr.toNat (·.resumeHere s.tick)) hf).trans (State.at_eq ?_ rfl ?_)
  · exact congrArg BitVec.toNat ha
  · obtain ⟨d, ⟨hd, -⟩, -, -, hcore⟩ := State.resumeHere_spec (({ s with
      mem := m, poison := p, saved := adel s.saved k, tick := s.tick + 512 } : State).on fun _ => { x with
        image := false, run := .running, resetAt := s.core.resetAt, fbuf := none
        rtab := { x.rtab with entries := [], miss := none } }) s.tick rfl
    exact (congrArg Core.addr hcore :).trans hd

/-- A launch of one saved thread is taken up again. -/
theorem execResume_one {s : State} {pkg : Nat} {l : Launch} {k : Nat} (hl : (s.getPkg pkg).launch l.num = some l)
    (hs : l.state = .preempted) (hstop : s.stopping pkg l = false)
    (hq : ∀ u f, (s.getPkg pkg).nextQueue = some (u, f) → u.prio ≤ (s.getPkg pkg).prioOf l)
    (hk : (l.threads pkg).filter (fun j => (aget s.saved j).isSome) = [k]) (hfree : s.coreFree (threadCore k) = true)
    (hroom : s.roomToRearm [k] = true) :
    ∃ f g, execResume pkg l.num s =
      .next ((((s.keepEnded pkg (threadCore k)).resumeCore k).modPkg pkg f).modPkg pkg g) := by
  refine ⟨(·.dieWakes (dieOf (threadCore k))), (·.modLaunch l.num fun m => { m with state := .running }), ?_⟩
  unfold execResume
  dsimp only
  rw [hl]
  dsimp only
  rw [hk]
  refine (if_pos ⟨hs, ?higher, by rw [hstop]; rfl, by simpa using hfree, hroom⟩).trans ?_
  · rw [List.foldl_cons, List.foldl_nil]
  case higher =>
    split
    · rename_i u f e
      simpa using hq u f e
    · rfl

/-- The request reaches the running core in focus. -/
theorem execPreemptRequest_focus {s : State} {pkg : Nat} {l : Launch} {t : State} (defer : Bool)
    (hl : (s.getPkg pkg).launch l.num = some l) (ha : s.core.alive = true) (hmem : s.core.thread ∈ l.threads pkg)
    (ht : t = ((l.threads pkg).foldl (State.askThread defer) s).modPkg pkg
      (·.modLaunch l.num fun m => { m with state := .preempting })) :
    t.core = s.core.asked defer ∧ (t.getPkg pkg).launch l.num = some { l with state := .preempting } ∧ t.mem = s.mem := by
  subst ht
  refine ⟨?_, ?_, ?_⟩
  · rw [State.modPkg_core, foldl_askThread_core _ _ ha, if_pos hmem]
  · rw [State.getPkg_modPkg_self, State.getPkg_congr (foldl_keeps State.pkgs (State.askThread_pkgs _) _ s)]
    exact Package.launch_modLaunch hl fun _ => rfl
  · rw [State.modPkg_mem]
    exact foldl_keeps State.mem (State.askThread_mem _) _ s

/-- The context of the thread in focus is saved, and the core freed. -/
theorem execContextSave_focus {s t u : State} {pkg : Nat} {l : Launch} (hl : (s.getPkg pkg).launch l.num = some l)
    (hr : s.core.run = .preemptHalt) (hc : u.core = s.core) (hp : u.pkgs = s.pkgs)
    (ht : t = (u.saveCore s.core.thread).modPkg pkg (·.modLaunch l.num fun x => { x with state := .preempted })) :
    t.core = s.core.fresh ∧ aget t.saved s.core.thread = some s.core.asSaved ∧
      (t.getPkg pkg).launch l.num = some { l with state := .preempted } := by
  rw [← hc] at ht
  obtain ⟨hcore, hsaved, hpkgs⟩ := State.saveCore_self (s := u) (by rw [hc, hr])
  subst ht
  rw [hc] at hcore hsaved hpkgs ⊢
  refine ⟨by rw [State.modPkg_core, hcore], by rw [State.modPkg_saved, hsaved], ?_⟩
  rw [State.getPkg_modPkg_self, State.getPkg_congr (hpkgs.trans hp)]
  exact Package.launch_modLaunch hl fun _ => rfl

theorem State.keepEnded_saved (s : State) (pkg c : Nat) : (s.keepEnded pkg c).saved = s.saved := by
  unfold State.keepEnded
  dsimp only
  split <;> rfl

/-- The thread whose context is put back on the core in focus enters its handler with cause RESUME. -/
theorem State.resumeCore_focus {s t : State} {k : Nat} {x : Core} (hx : aget s.saved k = some x)
    (hc : threadCore k = s.core.addr.toNat) (ha : x.addr = s.core.addr) (htc : t.core = (s.resumeCore k).core)
    (htm : t.mem = (s.resumeCore k).mem) (hts : t.saved = (s.resumeCore k).saved) :
    t.core.run = .running ∧ t.pc = x.ctl.evec ∧ t.core.ctl.ecause = 0x241 ∧
      t.core.ctl.einfo = word x.kept.length ∧ t.core.ctl.eseq = 0 ∧
      t.core.ctl.epc = BitVec.ofNat 21 (Claims.readAt t (0x17F400 + 0x188) 8) ∧ t.core.ctl.status.priv = true ∧
      t.core.ctl.status.ie = false ∧ t.core.kept = [] ∧ aget t.saved k = none := by
  obtain ⟨u, n, hu, hsaved, hcore⟩ := State.resumeCore_spec hx hc ha
  obtain ⟨d, ⟨hd, hi, hrun, hkept, hev⟩, hmem, hsv, ht⟩ := u.resumeHere_spec n (by rw [hcore])
  have hkey : ∀ a, (u.resumeHere n).core.localKey a = u.core.localKey a := fun a => by
    rw [ht, Core.localKey, Core.localKey, hcore, if_neg (by simp [Core.enterTrap, hi]), if_neg (by simp)]
    exact congrArg (fun z : CoreAddr => keyLocal z.toNat a) (hd.trans (by rw [hcore]))
  have hread : Claims.readAt (u.resumeHere n) (0x17F400 + 0x188) 8 = Claims.readAt u (saveArea + 0x188) 8 :=
    readAt_congr fun j _ => by rw [byteAt, byteAt, hkey, hmem]
  have ht' : Claims.readAt t (0x17F400 + 0x188) 8 = Claims.readAt (u.resumeHere n) (0x17F400 + 0x188) 8 :=
    readAt_congr fun j _ => by rw [byteAt, byteAt, htc, htm, hu]
  rw [ht', hread, State.pc, htc, hts, hu, ht, hsv, hsaved, word_natCast]
  rw [hcore] at hrun hev ⊢
  exact ⟨hrun, hev, rfl, rfl, rfl, rfl, rfl, rfl, hkept, aget_adel_self _ _⟩

/-- Settles O46: the request by the fold over the threads of its launch, the saved context by what saving leaves of the
core, and the resume by what putting a context back and entering its handler do. -/
theorem preemptionAndResume : Obligations.PreemptionAndResume := by
  refine ⟨fun s pkg l q hl hq hs hp hj hstop hg hstart ho hb hw hmem halive => ?_,
    fun s pkg l hl hs ht hr hsync => ?_, fun s pkg l x k hl hs hstop hq hk hx hc ha hfree hroom => ?_⟩
  · exact ⟨_, execPreemptRequest_asks hl hq hs hp hj hstop hg hstart ho hb hw,
      execPreemptRequest_focus _ hl halive hmem rfl⟩
  · obtain ⟨m, n, he⟩ := execContextSave_self hl hs ht hr hsync
    obtain ⟨hcore, hsaved, hlaunch⟩ :=
      execContextSave_focus (u := { s with mem := m, tick := n }) hl hr rfl rfl rfl
    exact ⟨_, he, congrArg Core.run hcore, hsaved, hlaunch⟩
  · obtain ⟨f, g, he⟩ := execResume_one hl hs hstop hq hk hfree hroom
    obtain ⟨hkc, -⟩ := s.keepEnded_spec pkg (threadCore k)
    exact ⟨_, he, State.resumeCore_focus (s := s.keepEnded pkg (threadCore k))
      (by rw [State.keepEnded_saved, hx]) (by rw [hkc, hc]) (by rw [hkc, ha])
      ((State.modPkg_core _ _ _).trans (State.modPkg_core _ _ _))
      ((State.modPkg_mem _ _ _).trans (State.modPkg_mem _ _ _))
      ((State.modPkg_saved _ _ _).trans (State.modPkg_saved _ _ _))⟩

end Sys2Proof.Machine
end

section

/-! ## Barrier instructions (R152, R158, R183 to R187, R375) -/

namespace Sys2Proof.Machine

open Sys2Proof.Claims

/-! ### What the instructions read -/

theorem rectOf_eq (s : State) (n : BitVec 4) : rectOf s n = s.core.brect n.toNat := by
  have h := n.isLt
  have hn : ∀ k, k < 0x040 → 0x040 + n.toNat ≠ k := fun k hk => by omega
  unfold rectOf State.readCr
  rw [if_neg (hn _ (by decide)), if_neg (hn _ (by decide)), if_neg (hn _ (by decide)), if_neg (hn _ (by decide)),
    if_neg (hn _ (by decide)), if_neg (hn _ (by decide)), if_neg (hn _ (by decide)), if_neg (hn _ (by decide)),
    if_neg (hn _ (by decide)), if_neg (hn _ (by decide)), if_neg (hn _ (by decide)), if_neg (hn _ (by decide)),
    if_neg (hn _ (by decide)), if_neg (hn _ (by decide)), if_neg (hn _ (by decide)), if_neg (hn _ (by decide)),
    if_neg (hn _ (by decide)), if_neg (hn _ (by decide)), if_neg (hn _ (by decide)), if_neg (hn _ (by decide)),
    if_neg (hn _ (by decide)), if_neg (hn _ (by decide)), if_neg (hn _ (by decide)), if_neg (hn _ (by decide)),
    if_pos ⟨Nat.le_add_right _ _, Nat.add_lt_add_left h _⟩, Nat.add_sub_cancel_left]
  rfl

theorem State.barCheck_of_ok {s : State} {n : BitVec 4} (h : barrierOk s n) : s.barCheck n = none := by
  unfold State.barCheck
  refine if_neg fun hb => ?_
  rw [Bool.and_eq_true, Bool.not_eq_true', decide_eq_true_eq] at hb
  obtain ⟨hp, hl⟩ := hb
  rcases h with h | h
  · rw [h] at hp; exact Bool.noConfusion hp
  · exact absurd h (Nat.not_lt.mpr hl)

/-- Barrier `n` has a flag. -/
theorem Core.flag_eq (c : Core) (n : BitVec 4) : c.sync.arr.toList[n.toNat]? = some (c.arrivalOn n.toNat) := by
  have hl : n.toNat < c.sync.arr.toList.length := by rw [Vector.length_toList]; exact n.isLt
  unfold Core.arrivalOn
  rw [List.getD_eq_getElem?_getD, List.getElem?_eq_getElem hl]
  rfl

theorem Core.commElsewhere_of_onlyComm {s : State} {n : BitVec 4} (h : onlyComm s n) :
    s.core.commElsewhere n.toNat = false := by
  unfold Core.commElsewhere
  rw [List.any_eq_false]
  intro k hk hb
  rw [Bool.and_eq_true, bne_iff_ne] at hb
  obtain ⟨hne, hc⟩ := hb
  split at hc
  · rename_i a ha
    have hlt : k < s.core.sync.arr.toList.length := by rw [Vector.length_toList]; exact List.mem_range.mp hk
    unfold Core.arrivalOn at ha
    rw [List.getD_eq_getElem?_getD, List.getElem?_eq_getElem hlt, Option.getD_some] at ha
    have hr := h k a hne (by rw [List.getElem?_eq_getElem hlt, ha])
    exact absurd hc (by rw [brComm, bitOf, hr]; exact Bool.false_ne_true)
  · exact Bool.noConfusion hc

/-! ### The checks -/

section Checks

variable {s : State} {n : BitVec 4} (hv : (rectOf s n).getLsbD 47 = true)

theorem State.arriveCheck_undefined (hv : (rectOf s n).getLsbD 47 = false) :
    s.arriveCheck n = some (Cause.barrier, n.toNat) := by
  rw [rectOf_eq] at hv
  unfold State.arriveCheck
  dsimp only
  rw [if_pos (by rw [brValid, bitOf, hv]; rfl)]
  rfl

include hv

/-- On a defined barrier, with no other COMM barrier awaited if this one is, an arrival reads the DIGEST at most. -/
theorem State.arriveCheck_defined (hc : (rectOf s n).getLsbD 45 = true → onlyComm s n)
    (hd : (rectOf s n).getLsbD 45 = true → s.core.arrivalOn n.toNat = none → s.core.info.plans = 0 ∨
      intact s s.core.info.planbase 4) : s.arriveCheck n = none := by
  rw [rectOf_eq] at hv hc hd
  have hb : brValid (s.core.brect n.toNat) = true := hv
  have hcomm : (brComm (s.core.brect n.toNat) && s.core.commElsewhere n.toNat) = false := by
    cases h : brComm (s.core.brect n.toNat) with
    | false => rfl
    | true => exact Core.commElsewhere_of_onlyComm (hc h)
  unfold State.arriveCheck
  dsimp only
  rw [hb, hcomm]
  simp only [Bool.not_true, Bool.false_eq_true, if_false]
  split
  · rename_i h
    simp only [Bool.and_eq_true, Option.isNone_iff_eq_none, bne_iff_ne] at h
    obtain ⟨⟨h45, hplans⟩, hnone⟩ := h
    rcases hd h45 hnone with h0 | hi
    · exact absurd h0 hplans
    · rw [State.readError_of_intact hi]; rfl
  · rfl

theorem State.arriveCheck_free (hc : (rectOf s n).getLsbD 45 = true → commFree s n) : s.arriveCheck n = none :=
  State.arriveCheck_defined hv (fun h => (hc h).1) fun h _ => (hc h).2

theorem State.arriveCheck_flagged {y : Arrival} (hc : (rectOf s n).getLsbD 45 = true → onlyComm s n)
    (hf : s.core.arrivalOn n.toNat = some y) : s.arriveCheck n = none :=
  State.arriveCheck_defined hv hc fun _ h => by rw [hf] at h; exact absurd h (by simp)

theorem State.voteCheck_free (hc : (rectOf s n).getLsbD 45 = true) (hf : commFree s n) : s.voteCheck n = none := by
  have ha := State.arriveCheck_free hv fun _ => hf
  rw [rectOf_eq] at hv hc
  unfold State.voteCheck
  dsimp only
  rw [if_neg (by rw [brValid, bitOf, hv]; exact Bool.false_ne_true),
    if_neg (by rw [brComm, bitOf, hc]; exact Bool.false_ne_true), ha]

end Checks

/-! ### Arriving -/

theorem State.setArrived_eq (s : State) (n : BitVec 4) (ballot : BitVec 8) (reg : BitVec 5) (own : Bool) :
    s.setArrived n ballot reg own = withArrival s n (some (arrivalNow s n ballot reg own)) := by
  have h : n.toNat < 16 := n.isLt
  unfold State.setArrived withArrival arrivalNow Core.setVoteRes Core.setArrival
  rw [rectOf_eq]
  simp only [h, dif_pos]
  rfl

section Arrive

variable {s : State} {n : BitVec 4} {ballot : BitVec 8} {reg : BitVec 5}

theorem State.arriveNow_passing (hf : s.core.arrivalOn n.toNat = none) :
    s.arriveNow n ballot reg false = past (withArrival s n (some (arrivalNow s n ballot reg false))) := by
  unfold State.arriveNow
  rw [hf, ← State.setArrived_eq]
  dsimp only
  split
  · rename_i pc x _
    rw [if_neg (fun h => Bool.false_ne_true h.1), if_neg Bool.false_ne_true]
    rfl
  · rfl

theorem State.arriveNow_flagged {y : Arrival} (hf : s.core.arrivalOn n.toNat = some y) (own : Bool) :
    ∃ w, w ≠ .no ∧ s.arriveNow n ballot reg own = s.waitBar n w := by
  unfold State.arriveNow
  rw [hf]
  dsimp only
  split
  · exact ⟨_, by simp, rfl⟩
  · exact ⟨_, by simp, rfl⟩

theorem Core.voteRes_of_getElem {c : Core} {n : Nat} {x : Option (LAddr × Word)} (h : c.sync.voteRes.toList[n]? = some x) :
    c.sync.voteRes.toList.getD n none = x := by
  rw [List.getD_eq_getElem?_getD, h]
  rfl

/-- The state in which the core has arrived and waits for the release. -/
def State.arrivedOwn (s : State) (n : BitVec 4) (ballot : BitVec 8) (reg : BitVec 5) : State :=
  (withArrival s n (some (arrivalNow s n ballot reg true))).waitBar n (.vote n.toNat reg)

theorem State.arriveNow_own (hf : s.core.arrivalOn n.toNat = none)
    (hr : s.core.sync.voteRes.toList[n.toNat]? = some none) :
    s.arriveNow n ballot reg true = s.arriveOwn n ballot reg := by
  unfold State.arriveNow
  rw [hf, Core.voteRes_of_getElem hr]
  rfl

theorem State.arriveOwn_plain (hk : (rectOf s n).getLsbD 46 = false) :
    s.arriveOwn n ballot reg = s.arrivedOwn n ballot reg := by
  rw [rectOf_eq] at hk
  unfold State.arriveOwn
  dsimp only
  rw [if_neg (by rw [brCkpt, bitOf, hk]; exact Bool.false_ne_true), State.setArrived_eq]
  rfl

/-- On a CKPT barrier the ring has drained. -/
theorem State.arriveOwn_drained (ho : s.core.ops = []) (hp : s.core.anyPending = false)
    (hl : s.core.lateFaultEntry = none) : s.arriveOwn n ballot reg = s.arrivedOwn n ballot reg := by
  have hgo : (s.setArrived n ballot reg true).waitBar n (.vote n.toNat reg) = s.arrivedOwn n ballot reg := by
    rw [State.setArrived_eq]
    rfl
  unfold State.arriveOwn
  dsimp only
  rw [State.squashUntriggered_none ho, hp, hl, hgo]
  simp only [Bool.false_eq_true, if_false, ite_self]

/-- A vote that was released while an interrupt was served finds its result. -/
theorem State.arriveNow_kept {v : Word} (hf : s.core.arrivalOn n.toNat = none)
    (hr : s.core.sync.voteRes.toList[n.toNat]? = some (some (s.pc, v))) :
    s.arriveNow n ballot reg true = past (State.setG { s with core := { s.core with sync := { s.core.sync with
      voteRes := s.core.sync.voteRes.set n.toNat none } } } reg v) := by
  have h : n.toNat < 16 := n.isLt
  unfold State.arriveNow
  rw [hf, Core.voteRes_of_getElem hr]
  dsimp only
  rw [if_pos ⟨rfl, rfl⟩]
  unfold Core.setVoteRes
  simp only [h, dif_pos]
  rfl

end Arrive

end Sys2Proof.Machine
end

section

/-! ## Barriers that are defined (R148, R187, R371) -/

namespace Sys2Proof.Machine

open Sys2Proof.Claims

theorem State.bdefCheck_passes {s : State} {n : BitVec 4} {x : Word} (hf : s.core.arrivalOn n.toNat = none)
    (ho : s.core.bdefOk x = true) (hk : x.getLsbD 46 = false)
    (ht : s.core.ctl.status.ckpt = true → (rectOf s n).getLsbD 47 = false ∨ (rectOf s n).getLsbD 46 = false) :
    s.bdefCheck n x = none := by
  have hkx : brCkpt x = false := hk
  have hteam : (s.core.ctl.status.ckpt && ((brValid (s.core.brect n.toNat) && brCkpt (s.core.brect n.toNat)) || brCkpt x)) =
      false := by
    rw [rectOf_eq] at ht
    rw [hkx, Bool.or_false]
    cases hc : s.core.ctl.status.ckpt with
    | false => rfl
    | true =>
      rcases ht hc with h | h
      · rw [show brValid (s.core.brect n.toNat) = false from h]; rfl
      · rw [show brCkpt (s.core.brect n.toNat) = false from h, Bool.and_false]; rfl
  unfold State.bdefCheck
  dsimp only
  rw [hf, ho, hteam, hkx]
  rfl

/-- The phase bit of a barrier that is defined is clear, and the others stay. -/
theorem clearBit_getLsbD (x : BitVec 16) (n : BitVec 4) (k : Nat) :
    (x &&& ~~~BitVec.ofNat 16 (2 ^ n.toNat)).getLsbD k = if k = n.toNat then false else x.getLsbD k := by
  rw [BitVec.getLsbD_and, BitVec.getLsbD_not, BitVec.getLsbD_ofNat, Nat.testBit_two_pow]
  by_cases hk : k < 16
  · by_cases hn : k = n.toNat
    · simp [hn]
    · simp [hk, hn, Ne.symm hn]
  · rw [BitVec.getLsbD_of_ge x k (by omega)]
    simp

theorem brAbsolute_of_domain {x : Word} (h : x = 0 ∨ x.getLsbD 44 = true) (die row0 col0 : Nat) :
    brAbsolute x die row0 col0 = x := by
  unfold brAbsolute
  refine if_neg ?_
  rcases h with rfl | h
  · decide
  · rw [show brDom x = true from h]; simp

/-- Fields of a word laid side by side. -/
theorem rectWord_fields {a die b r c : Nat} (ha : a < 536870912) (hd : die < 8) (hb : b < 16777216) (hr : r < 16)
    (hc : c < 16) :
    let v := a * 34359738368 + die * 4294967296 + b * 256 + r * 16 + c
    v < 18446744073709551616 ∧ v % 16 = c ∧ v / 16 % 16 = r ∧ v / 256 % 16777216 = b ∧ v / 4294967296 % 8 = die ∧
      v / 34359738368 % 536870912 = a := by
  dsimp only
  omega

/-- The fields of a rectangle whose place is made absolute: those of its corner and die are replaced. -/
theorem brAbsolute_fields {x : Word} (hv : x.getLsbD 47 = true) (hd : x.getLsbD 44 = false) {die : Nat} (hdie : die < 8)
    (row0 col0 : Nat) :
    (brAbsolute x die row0 col0).extractLsb' 0 4 = x.extractLsb' 0 4 + BitVec.ofNat 4 col0 ∧
    (brAbsolute x die row0 col0).extractLsb' 4 4 = x.extractLsb' 4 4 + BitVec.ofNat 4 row0 ∧
    (brAbsolute x die row0 col0).extractLsb' 8 24 = x.extractLsb' 8 24 ∧
    (brAbsolute x die row0 col0).extractLsb' 32 3 = BitVec.ofNat 3 die ∧
    (brAbsolute x die row0 col0).extractLsb' 35 29 = x.extractLsb' 35 29 := by
  have hb : (brValid x && !brDom x) = true := by
    rw [show brValid x = true from hv, show brDom x = false from hd]; rfl
  obtain ⟨h64, hc, hr, hm, hdi, ha⟩ := rectWord_fields (a := x.toNat / 2 ^ 35 % 536870912) (die := die)
    (b := x.toNat / 2 ^ 8 % 16777216) (r := (x.toNat / 2 ^ 4 % 16 + row0) % 16) (c := (x.toNat / 1 % 16 + col0) % 16)
    (Nat.mod_lt _ (by decide)) hdie (Nat.mod_lt _ (by decide)) (Nat.mod_lt _ (by decide)) (Nat.mod_lt _ (by decide))
  have hy : (brAbsolute x die row0 col0).toNat = x.toNat / 2 ^ 35 % 536870912 * 34359738368 + die * 4294967296 +
      x.toNat / 2 ^ 8 % 16777216 * 256 + (x.toNat / 2 ^ 4 % 16 + row0) % 16 * 16 + (x.toNat / 1 % 16 + col0) % 16 := by
    unfold brAbsolute
    rw [if_pos hb]
    exact (BitVec.toNat_ofNat _ _).trans (Nat.mod_eq_of_lt h64)
  have hf : ∀ (y : Word) (k m : Nat), (y.extractLsb' k m).toNat = y.toNat / 2 ^ k % 2 ^ m := fun y k m => by
    rw [BitVec.extractLsb'_toNat, Nat.shiftRight_eq_div_pow]
  rw [← hy, Nat.div_one] at hc
  rw [← hy] at hr hm hdi ha
  refine ⟨?_, ?_, ?_, ?_, ?_⟩ <;> apply BitVec.eq_of_toNat_eq
  · rw [BitVec.toNat_add, hf, hf, BitVec.toNat_ofNat, Nat.add_mod_mod, Nat.pow_zero, Nat.div_one, Nat.div_one]
    exact hc
  · rw [BitVec.toNat_add, hf, hf, BitVec.toNat_ofNat, Nat.add_mod_mod]
    exact hr
  · rw [hf, hf]
    exact hm
  · rw [hf, BitVec.toNat_ofNat, Nat.mod_eq_of_lt hdie]
    exact hdi
  · rw [hf, hf]
    exact ha

theorem Core.brect_defineBarrier_self (c : Core) (n : BitVec 4) (x : Word) :
    (c.defineBarrier n x).brect n.toNat = x := by
  unfold Core.brect
  show (c.ctl.brect.set n.toNat x n.isLt).toList.getD n.toNat 0 = x
  rw [List.getD_eq_getElem?_getD, Vector.toList_set, List.getElem?_set_self (by rw [Vector.length_toList]; exact n.isLt)]
  rfl

theorem Core.brect_defineBarrier_of_ne (c : Core) {k n : BitVec 4} (h : k ≠ n) (x : Word) :
    (c.defineBarrier n x).brect k.toNat = c.brect k.toNat := by
  have hn : n.toNat ≠ k.toNat := fun e => h (BitVec.eq_of_toNat_eq e.symm)
  unfold Core.brect
  show (c.ctl.brect.set n.toNat x n.isLt).toList.getD k.toNat 0 = _
  rw [List.getD_eq_getElem?_getD, Vector.toList_set, List.getElem?_set_ne hn, ← List.getD_eq_getElem?_getD]

/-- The core address gives a die of three bits. -/
theorem dieOf_lt (c : Nat) : dieOf c < 8 := Nat.mod_lt _ (by decide)

/-- What `testb` reads, from the flag and the rectangle (R185). -/
theorem Core.testBarrier_eq (s : State) (n : BitVec 4) : s.core.testBarrier n.toNat =
    word ((if s.core.sync.arr.toList[n.toNat]? = some none then 0 else 1) +
      2 * (s.core.sync.phaseBits.getLsbD n.toNat).toNat + 4 * ((rectOf s n).getLsbD 47).toNat +
      8 * ((rectOf s n).getLsbD 45).toNat) := by
  rw [rectOf_eq, s.core.flag_eq n]
  unfold Core.testBarrier
  rw [← word_natCast]
  congr 1
  cases s.core.arrivalOn n.toNat with
  | none => simp; rfl
  | some a => simp; rfl

end Sys2Proof.Machine
end

section

/-! ## The release of a barrier (R151, R152, R158, R186, R375, R412) -/

namespace Sys2Proof.Machine

open Sys2Proof.Claims

/-! ### When a release is due -/

theorem foldl_max_spec {α : Type} (f : α → Nat) (l : List α) (b : Nat) :
    b ≤ l.foldl (fun t y => max t (f y)) b ∧ (∀ y ∈ l, f y ≤ l.foldl (fun t y => max t (f y)) b) ∧
      (l.foldl (fun t y => max t (f y)) b = b ∨ ∃ y ∈ l, f y = l.foldl (fun t y => max t (f y)) b) := by
  induction l generalizing b with
  | nil => exact ⟨Nat.le_refl b, fun y hy => absurd hy List.not_mem_nil, Or.inl rfl⟩
  | cons x l ih =>
    rw [List.foldl_cons]
    obtain ⟨hb, hl, hm⟩ := ih (max b (f x))
    refine ⟨(le_max_left _ _).trans hb, fun y hy => ?_, ?_⟩
    · rcases List.mem_cons.mp hy with rfl | hy
      · exact (le_max_right _ _).trans hb
      · exact hl y hy
    · rcases hm with hm | ⟨y, hy, hf⟩
      · rcases max_choice b (f x) with hc | hc
        · exact Or.inl (hm.trans hc)
        · exact Or.inr ⟨x, List.mem_cons_self, (hm.trans hc).symm⟩
      · exact Or.inr ⟨y, List.mem_cons_of_mem _ hy, hf⟩

/-- The greatest of some numbers is one of them. -/
theorem foldl_max_attained {α : Type} (f : α → Nat) {l : List α} (h : l ≠ []) :
    ∃ y ∈ l, f y = l.foldl (fun t y => max t (f y)) 0 := by
  obtain ⟨-, hl, hm | hm⟩ := foldl_max_spec f l 0
  · obtain ⟨y, hy⟩ := List.exists_mem_of_ne_nil l h
    exact ⟨y, hy, by rw [hm]; exact Nat.le_zero.mp (hm ▸ hl y hy)⟩
  · exact hm

/-- The clk of the last arrival of a member. -/
def lastArrival (ms : List Nat) (l : List (Nat × Arrival)) : Nat :=
  (l.filter fun y => ms.contains y.1).foldl (fun t y => max t y.2.at_) 0

theorem at_le_lastArrival {ms : List Nat} {l : List (Nat × Arrival)} {y : Nat × Arrival} (hy : y ∈ l) (hm : y.1 ∈ ms) :
    y.2.at_ ≤ lastArrival ms l :=
  (foldl_max_spec (fun y : Nat × Arrival => y.2.at_) _ 0).2.1 y (List.mem_filter.mpr ⟨hy, by simpa using hm⟩)

theorem lastArrival_attained {ms : List Nat} {l : List (Nat × Arrival)} (h : ∀ k ∈ ms, ∃ y ∈ l, y.1 = k) (hne : ms ≠ []) :
    ∃ y ∈ l, y.1 ∈ ms ∧ y.2.at_ = lastArrival ms l := by
  obtain ⟨k, hk⟩ := List.exists_mem_of_ne_nil ms hne
  obtain ⟨y, hy, rfl⟩ := h k hk
  obtain ⟨z, hz, he⟩ := foldl_max_attained (fun y : Nat × Arrival => y.2.at_)
    (List.ne_nil_of_mem (List.mem_filter.mpr ⟨hy, by simpa using hk⟩ : y ∈ l.filter fun y => ms.contains y.1))
  obtain ⟨hz, hc⟩ := List.mem_filter.mp hz
  exact ⟨z, hz, by simpa using hc, he⟩

theorem State.releaseInstant_spec {s : State} {d : Core} {n t0 : Nat} {l : List (Nat × Arrival)}
    (h : s.releaseInstant d n = some (l, t0)) :
    ∃ ms, s.members d (d.brect n) = some ms ∧ (∀ k ∈ ms, ∃ y ∈ l, y.1 = k) ∧
      t0 = lastArrival ms l + s.releaseDelay d (d.brect n) := by
  unfold State.releaseInstant at h
  dsimp only at h
  split at h
  · exact absurd h (by simp)
  split at h
  · exact absurd h (by simp)
  rename_i ms hms
  split at h
  · rename_i hall
    obtain ⟨rfl, rfl⟩ := Prod.mk.inj (Option.some.inj h)
    refine ⟨ms, hms, fun k hk => ?_, rfl⟩
    rw [Bool.and_eq_true, List.all_eq_true] at hall
    obtain ⟨y, hy, he⟩ := List.any_eq_true.mp (hall.1 k hk)
    exact ⟨y, hy, beq_iff_eq.mp he⟩
  · exact absurd h (by simp)

theorem State.releaseReady_spec {s : State} {d : Core} {n : Nat} {l : List (Nat × Arrival)} {r : RelInfo}
    (h : s.releaseReady d n = some (l, r)) :
    ∃ t0, s.releaseInstant d n = some (l, t0) ∧ t0 ≤ s.clk ∧ r = relInfo n t0 (d.brect n) (l.map (·.2)) := by
  unfold State.releaseReady at h
  obtain ⟨⟨l', t0⟩, hi, hr⟩ := Option.bind_eq_some_iff.mp h
  dsimp only at hr
  split at hr
  · rename_i ht
    obtain ⟨rfl, rfl⟩ := Prod.mk.inj (Option.some.inj hr)
    exact ⟨t0, hi, ht, rfl⟩
  · exact absurd hr (by simp)

theorem execBarrierRelease_due {s : State} {c n : Nat} {l : List (Nat × Arrival)} {r : RelInfo}
    (h : s.releaseReady (s.getCore c) n = some (l, r)) :
    execBarrierRelease c n s = .next ((l.foldl (State.releaseThread r) s).commitTeam r l) := by
  unfold execBarrierRelease State.deciders
  rw [List.findSome?_cons, h]

/-! ### The ballots -/

theorem foldl_and_getLsbD (l : List Arrival) (b : BitVec 8) (k : Nat) :
    (l.foldl (fun x (y : Arrival) => x &&& y.ballot) b).getLsbD k = true ↔
      b.getLsbD k = true ∧ ∀ y ∈ l, y.ballot.getLsbD k = true := by
  induction l generalizing b with
  | nil => simp
  | cons x l ih =>
    rw [List.foldl_cons, ih, BitVec.getLsbD_and, Bool.and_eq_true, List.forall_mem_cons, and_assoc]

theorem foldl_or_getLsbD (l : List Arrival) (b : BitVec 8) (k : Nat) :
    (l.foldl (fun x (y : Arrival) => x ||| y.ballot) b).getLsbD k = true ↔
      b.getLsbD k = true ∨ ∃ y ∈ l, y.ballot.getLsbD k = true := by
  induction l generalizing b with
  | nil => simp
  | cons x l ih =>
    rw [List.foldl_cons, ih, BitVec.getLsbD_or, Bool.or_eq_true, List.exists_mem_cons_iff, or_assoc]

theorem relInfo_ballots (n t0 : Nat) (rect : Word) (l : List (Nat × Arrival)) {k : Nat} (hk : k < 8) :
    ((relInfo n t0 rect (l.map (·.2))).andB.getLsbD k = true ↔ ∀ y ∈ l, y.2.ballot.getLsbD k = true) ∧
      ((relInfo n t0 rect (l.map (·.2))).orB.getLsbD k = true ↔ ∃ y ∈ l, y.2.ballot.getLsbD k = true) := by
  refine ⟨(foldl_and_getLsbD _ _ k).trans ?_, (foldl_or_getLsbD _ _ k).trans ?_⟩
  · rw [BitVec.getLsbD_allOnes, decide_eq_true hk]
    exact ⟨fun h => List.forall_mem_map.mp h.2, fun h => ⟨rfl, List.forall_mem_map.mpr h⟩⟩
  · have h0 : (0 : BitVec 8).getLsbD k = false := BitVec.getLsbD_zero
    constructor
    · rintro (h | ⟨y, hy, h⟩)
      · exact absurd (h0 ▸ h) Bool.false_ne_true
      · obtain ⟨z, hz, rfl⟩ := List.mem_map.mp hy
        exact ⟨z, hz, h⟩
    · rintro ⟨z, hz, h⟩
      exact Or.inr ⟨_, List.mem_map_of_mem hz, h⟩

/-! ### What a release leaves of a core -/

/-- From `s` to `t` a phase may have opened or closed, and a cause may have become pending: of the core in focus the
barriers, registers, control registers, latch and wait stay, and so does memory. -/
def phaseOnly (s t : State) : Prop :=
  t.mem = s.mem ∧ t.core = { s.core with
    sync := { t.core.sync with arr := s.core.sync.arr, phaseBits := s.core.sync.phaseBits, voteRes := s.core.sync.voteRes }
    faults := t.core.faults, team := t.core.team }

theorem phaseOnly_refl (s : State) : phaseOnly s s := ⟨rfl, rfl⟩

theorem phaseOnly.trans {s t u : State} (h : phaseOnly s t) (h' : phaseOnly t u) : phaseOnly s u := by
  obtain ⟨hm, hc⟩ := h
  obtain ⟨hm', hc'⟩ := h'
  refine ⟨hm'.trans hm, ?_⟩
  rw [hc] at hc'
  exact hc'

theorem State.endPhase_phaseOnly (s : State) : phaseOnly s s.endPhase := by
  unfold State.endPhase
  split
  · exact phaseOnly_refl s
  · exact ⟨rfl, rfl⟩

theorem State.openPhase_phaseOnly (s : State) (r : RelInfo) : phaseOnly s (s.openPhase r) := by
  unfold State.openPhase
  dsimp only
  refine s.endPhase_phaseOnly.trans ?_
  split
  · exact ⟨rfl, rfl⟩
  · split
    · exact ⟨rfl, rfl⟩
    · exact ⟨rfl, rfl⟩

/-- The core in focus with the flag of a barrier clear, its phase bit inverted and the latch set. -/
def State.flagReleased (s : State) (n : Nat) : State :=
  (s.on fun c => (c.setArrival n none).modSync fun y =>
    { y with phaseBits := y.phaseBits ^^^ BitVec.ofNat 16 (2 ^ n) }).setLatch

theorem State.releaseAtCore_eq (r : RelInfo) (a : Arrival) (s : State) :
    ∃ u, phaseOnly (s.flagReleased r.n) u ∧ s.releaseAtCore r a = u.on (·.takeResult r.n a r.result) := by
  unfold State.releaseAtCore
  dsimp only
  refine ⟨_, ?_, rfl⟩
  split
  · exact ⟨rfl, rfl⟩
  · split
    · exact State.openPhase_phaseOnly _ r
    · exact phaseOnly_refl _

theorem invertBit_getLsbD (x : BitVec 16) {n k : Nat} (hk : k < 16) :
    (x ^^^ BitVec.ofNat 16 (2 ^ n)).getLsbD k = ((x.getLsbD k) != decide (k = n)) := by
  rw [BitVec.getLsbD_xor, BitVec.getLsbD_ofNat, Nat.testBit_two_pow]
  simp [hk, eq_comm]

/-- What a core learns of its own release leaves its flags, phase bits and latch. -/
theorem Core.takeResult_keeps (c : Core) (n : Nat) (a : Arrival) (x : Word) :
    let d := c.takeResult n a x
    d.sync.arr = c.sync.arr ∧ d.sync.phaseBits = c.sync.phaseBits ∧ d.latch = c.latch ∧ d.ctl = c.ctl ∧ d.addr = c.addr := by
  have hs : (c.setG a.reg x).sync = c.sync ∧ (c.setG a.reg x).latch = c.latch ∧ (c.setG a.reg x).ctl = c.ctl ∧
      (c.setG a.reg x).addr = c.addr := by
    unfold Core.setG
    split
    · exact ⟨rfl, rfl, rfl, rfl⟩
    · exact ⟨rfl, rfl, rfl, rfl⟩
  obtain ⟨h1, h2, h3, h4⟩ := hs
  unfold Core.takeResult
  dsimp only
  split
  · exact ⟨rfl, rfl, rfl, rfl, rfl⟩
  split
  · split
    · exact ⟨congrArg Sync.arr h1, congrArg Sync.phaseBits h1, h2, h3, h4⟩
    · exact ⟨rfl, rfl, rfl, rfl, rfl⟩
  · exact ⟨rfl, rfl, rfl, rfl, rfl⟩

theorem Core.takeResult_other (c : Core) (n : Nat) {a : Arrival} (h : a.own = false) (x : Word) : c.takeResult n a x = c := by
  unfold Core.takeResult
  rw [h]
  rfl

/-- An instruction that waits for its own release gets the result and goes on. -/
theorem Core.takeResult_own {c : Core} {n : Nat} {a : Arrival} (h : a.own = true) (hw : c.wait = .vote n a.reg) (x : Word) :
    c.takeResult n a x = { (c.setG a.reg x).setPc (a.pc + 4) with wait := .no } := by
  unfold Core.takeResult
  rw [h, hw]
  exact if_pos rfl

theorem State.releaseThread_focus {s : State} (r : RelInfo) (a : Arrival) (hrun : s.core.run = .running) :
    s.releaseThread r (s.core.thread, a) = s.releaseAtCore r a := by
  have hc := threadCore_thread s.core
  have hg := s.getCore_self
  have hat : s.at s.core.addr.toNat (State.releaseAtCore r a) = s.releaseAtCore r a := by
    obtain ⟨u, ⟨-, hu⟩, he⟩ := s.releaseAtCore_eq r a
    refine State.at_self s ?_
    rw [he]
    exact (Core.takeResult_keeps _ _ _ _).2.2.2.2.trans (by rw [hu]; rfl)
  obtain ⟨thread, ht⟩ : ∃ f, Core.thread = f := ⟨_, rfl⟩
  obtain ⟨get, hget⟩ : ∃ f, s.getCore = f := ⟨_, rfl⟩
  rw [hget] at hg
  unfold State.releaseThread
  rw [ht] at hc ⊢
  rw [hget]
  dsimp only
  rw [hc, hg, if_pos rfl, if_pos (Core.alive_of_running hrun), hat]

theorem State.flagReleased_arr {s : State} {n : Nat} (h : n < 16) :
    (s.flagReleased n).core.sync.arr.toList[n]? = some none := by
  have he : (s.flagReleased n).core.sync.arr = s.core.sync.arr.set n none := by
    show (if h : n < 16 then s.core.sync.arr.set n none else s.core.sync.arr) = _
    rw [dif_pos h]
  rw [he, Vector.toList_set]
  exact List.getElem?_set_self (by rw [Vector.length_toList]; exact h)

end Sys2Proof.Machine
end

section

namespace Sys2Proof.Machine

open Sys2Proof.Claims

/-! ### The instructions, as far as their checks -/

section Instructions

variable {s : State} {n : BitVec 4}

theorem execArrive_of (hb : barrierOk s n) (hc : s.arriveCheck n = none) :
    execArrive n s = .next (s.arriveNow n (if (rectOf s n).getLsbD 45 then BitVec.ofNat 8 (2 ^ s.core.sync.plan.toNat) else 0) 0
      ((rectOf s n).getLsbD 46)) := by
  unfold execArrive
  dsimp only
  rw [State.barCheck_of_ok hb, hc, rectOf_eq]
  rfl

theorem execVote_of {d a : BitVec 5} (hb : barrierOk s n) (hr : s.core.gang.role = .alone) (hc : s.voteCheck n = none) :
    execVote d a n s = .next (s.arriveNow n (BitVec.ofNat 8 (un s a)) d true) := by
  have hballot : (s.g a).setWidth 8 = BitVec.ofNat 8 (un s a) := BitVec.eq_of_toNat_eq rfl
  unfold execVote
  dsimp only
  rw [State.leaveGang_alone hr, State.barCheck_of_ok hb, hc, hballot]
  rfl

theorem execWaitb_of (hb : barrierOk s n) (hv : (rectOf s n).getLsbD 47 = true) :
    execWaitb n s = .next (if (s.core.arrivalOn n.toNat).isSome then s.waitBar n (.barrier n.toNat) else s.adv) := by
  rw [rectOf_eq] at hv
  unfold execWaitb
  rw [State.barCheck_of_ok hb, if_pos (show brValid _ = true from hv)]
  rfl

/-- An undefined barrier raises BARRIER with reason 0 (R183). -/
theorem execWaitb_undefined (hb : barrierOk s n) (hv : (rectOf s n).getLsbD 47 = false) :
    execWaitb n s = .next (s.trap (Cause.barrier, n.toNat)) := by
  rw [rectOf_eq] at hv
  unfold execWaitb
  rw [State.barCheck_of_ok hb, if_neg (by rw [brValid, bitOf, hv]; exact Bool.false_ne_true)]
  rfl

theorem execArrive_undefined (hb : barrierOk s n) (hv : (rectOf s n).getLsbD 47 = false) :
    execArrive n s = .next (s.trap (Cause.barrier, n.toNat)) := by
  unfold execArrive
  dsimp only
  rw [State.barCheck_of_ok hb, State.arriveCheck_undefined hv]
  rfl

/-- `bdef` past its checks. -/
def State.defined (s : State) (n : BitVec 4) (x : Word) : State :=
  (s.on (·.defineBarrier n (brAbsolute x (dieOf s.core.addr.toNat) s.core.info.row0 s.core.info.col0))).adv

theorem execBdef_of {a : BitVec 5} (hb : barrierOk s n) (hc : s.bdefCheck n (s.g a) = none) :
    execBdef a n s = .next (s.defined n (s.g a)) := by
  unfold execBdef
  dsimp only
  rw [State.barCheck_of_ok hb, hc]
  rfl

theorem rectOf_defined_self (s : State) (n : BitVec 4) (x : Word) :
    rectOf (s.defined n x) n = brAbsolute x (dieOf s.core.addr.toNat) s.core.info.row0 s.core.info.col0 := by
  rw [rectOf_eq]
  exact Core.brect_defineBarrier_self s.core n _

theorem rectOf_defined_of_ne (s : State) {k n : BitVec 4} (h : k ≠ n) (x : Word) :
    rectOf (s.defined n x) k = rectOf s k := by
  rw [rectOf_eq, rectOf_eq]
  exact Core.brect_defineBarrier_of_ne s.core h _

/-- A waiting core keeps its registers and its barriers. -/
theorem State.arrivedOwn_spec (s : State) (n : BitVec 4) (ballot : BitVec 8) (reg : BitVec 5) :
    let t := s.arrivedOwn n ballot reg
    t.core.regs = s.core.regs ∧ t.core.wait = .vote n.toNat reg ∧
      t.core.sync = (withArrival s n (some (arrivalNow s n ballot reg true))).core.sync := ⟨rfl, rfl, rfl⟩

end Instructions

theorem barrierInstructions : BarrierInstructions := by
  intro d a n s hb x flag
  have hflag : flag = some (s.core.arrivalOn n.toNat) := s.core.flag_eq n
  have hset : ∀ {y}, flag = some y → s.core.arrivalOn n.toNat = y := fun h => Option.some.inj (hflag.symm.trans h)
  refine ⟨fun hv hk hc hf => ?_, fun hv hk hc hf hr ho hp hl => ?_, fun hv hc y hf => ?_, fun hv hk hc hfree hf halone => ?_,
    fun hv hf => ?_, fun hv y hf => ?_, fun hv => ⟨execWaitb_undefined hb hv, execArrive_undefined hb hv⟩, ?_,
    fun hf ho hk ht => ?_⟩
  · refine (execArrive_of hb (State.arriveCheck_free hv hc)).trans ?_
    rw [show (rectOf s n).getLsbD 46 = false from hk, State.arriveNow_passing (hset hf)]
  · refine ⟨_, ?_, s.arrivedOwn_spec n _ 0⟩
    refine (execArrive_of hb (State.arriveCheck_free hv hc)).trans ?_
    rw [show (rectOf s n).getLsbD 46 = true from hk, State.arriveNow_own (hset hf) hr, State.arriveOwn_drained ho hp hl]
  · obtain ⟨w, hw, he⟩ := State.arriveNow_flagged (ballot := if (rectOf s n).getLsbD 45 then
      BitVec.ofNat 8 (2 ^ s.core.sync.plan.toNat) else 0) (reg := 0) (hset hf) ((rectOf s n).getLsbD 46)
    exact ⟨s.waitBar n w, (execArrive_of hb (State.arriveCheck_flagged hv hc (hset hf))).trans (congrArg _ he), rfl, rfl, hw⟩
  · have hvote : execVote d a n s = .next (s.arriveNow n (BitVec.ofNat 8 (un s a)) d true) :=
      execVote_of hb halone (State.voteCheck_free hv hc hfree)
    refine ⟨fun hr => ⟨_, ?_, s.arrivedOwn_spec n (BitVec.ofNat 8 (un s a)) d⟩, fun v hr => ?_⟩
    · refine hvote.trans ?_
      rw [State.arriveNow_own (hset hf) hr, State.arriveOwn_plain hk]
    · refine hvote.trans ?_
      rw [State.arriveNow_kept (hset hf) hr]
  · refine (execWaitb_of hb hv).trans ?_
    rw [hset hf]
    rfl
  · refine ⟨s.waitBar n (.barrier n.toNat), (execWaitb_of hb hv).trans ?_, rfl, rfl⟩
    rw [hset hf]
    rfl
  · show execTestb d n s = _
    unfold execTestb
    rw [State.barCheck_of_ok hb, State.checked_none, Core.testBarrier_eq]
    rfl
  · refine ⟨s.defined n (s.g a), execBdef_of hb (State.bdefCheck_passes (hset hf) ho hk ht), rfl,
      fun k => clearBit_getLsbD _ n k, fun k hk => rectOf_defined_of_ne s hk _, fun h => ?_, fun hv hd => ?_⟩
    · rw [rectOf_defined_self, brAbsolute_of_domain h]
    · rw [rectOf_defined_self]
      exact brAbsolute_fields hv hd (dieOf_lt _) _ _

/-! ### The release -/

/-- On a tile the delay grows with the rectangle (R151). -/
theorem State.releaseDelay_of_tile (s : State) (c : Core) {x : Word} (h : brDom x = false) :
    s.releaseDelay c x = 2 * ((x.extractLsb' 16 5).toNat + (x.extractLsb' 8 5).toNat) + 4 := by
  unfold State.releaseDelay brRows brCols bitsAt
  rw [h, BitVec.extractLsb'_toNat, BitVec.extractLsb'_toNat, Nat.shiftRight_eq_div_pow, Nat.shiftRight_eq_div_pow]
  rfl

/-- A release that is due has the arrivals of all its members, the last of which gives its instant (R151, R158). -/
theorem State.releaseReady_facts {s : State} {d : Core} {n : Nat} {l : List (Nat × Arrival)} {r : RelInfo}
    (h : s.releaseReady d n = some (l, r)) :
    r.n = n ∧ r.t0 ≤ s.clk ∧
      (∃ ms, s.members d (d.brect n) = some ms ∧ (∀ k ∈ ms, ∃ y ∈ l, y.1 = k) ∧
        (∀ y ∈ l, y.1 ∈ ms → y.2.at_ + s.releaseDelay d (d.brect n) ≤ r.t0) ∧
        (ms ≠ [] → ∃ y ∈ l, y.1 ∈ ms ∧ y.2.at_ + s.releaseDelay d (d.brect n) = r.t0)) ∧
      ∀ k, k < 8 → (r.andB.getLsbD k = true ↔ ∀ y ∈ l, y.2.ballot.getLsbD k = true) ∧
        (r.orB.getLsbD k = true ↔ ∃ y ∈ l, y.2.ballot.getLsbD k = true) := by
  obtain ⟨t0, hi, hclk, rfl⟩ := State.releaseReady_spec h
  obtain ⟨ms, hms, hall, rfl⟩ := State.releaseInstant_spec hi
  refine ⟨rfl, hclk, ⟨ms, hms, hall, fun y hy hm => Nat.add_le_add_right (at_le_lastArrival hy hm) _, fun hne => ?_⟩,
    fun k hk => relInfo_ballots _ _ _ l hk⟩
  obtain ⟨y, hy, hm, he⟩ := lastArrival_attained hall hne
  exact ⟨y, hy, hm, congrArg (· + _) he⟩

/-- A release at the core in focus, up to what its own instruction learns. -/
theorem State.releaseAtCore_spec (r : RelInfo) (a : Arrival) (s : State) :
    ∃ u : Core, (s.releaseAtCore r a).core = u.takeResult r.n a r.result ∧ (s.releaseAtCore r a).mem = s.mem ∧
      u.sync.arr = (s.flagReleased r.n).core.sync.arr ∧
      u.sync.phaseBits = s.core.sync.phaseBits ^^^ BitVec.ofNat 16 (2 ^ r.n) ∧ u.latch = true ∧ u.ctl = s.core.ctl ∧
      u.regs = s.core.regs ∧ u.wait = s.core.wait := by
  obtain ⟨u, ⟨hm, hc⟩, he⟩ := s.releaseAtCore_eq r a
  refine ⟨u.core, congrArg State.core he, (congrArg State.mem he).trans hm, ?_⟩
  rw [hc]
  exact ⟨rfl, rfl, rfl, rfl, rfl, rfl⟩

theorem barrierRelease : BarrierRelease := by
  refine ⟨fun c n s l r h => ⟨execBarrierRelease_due h, State.releaseReady_facts h⟩,
    fun c x s h => s.releaseDelay_of_tile c h, fun s r a hn hrun => ?_⟩
  obtain ⟨u, hcore, hmem, harr, hbits, hlatch, hctl, hregs, hwait⟩ := s.releaseAtCore_spec r a
  obtain ⟨karr, kbits, klatch, kctl, -⟩ := u.takeResult_keeps r.n a r.result
  have hg : ∀ k, (s.releaseAtCore r a).g k = (u.takeResult r.n a r.result).g k := fun k => congrArg (Core.g · k) hcore
  rw [State.releaseThread_focus r a hrun]
  intro t
  refine ⟨?_, fun k hk => ?_, ?_, hmem, ?_, fun hown hw => ?_, fun hown => ?_⟩
  · rw [hcore, karr, harr, State.flagReleased_arr hn]
  · rw [hcore, kbits, hbits, invertBit_getLsbD _ hk]
  · rw [hcore, klatch, hlatch]
  · rw [hcore, kctl, hctl]
  · rw [Core.takeResult_own hown (hwait.trans hw)] at hcore hg
    have hgk : ∀ k, t.g k = (u.setG a.reg r.result).g k := hg
    have hu : ∀ k, u.g k = s.g k := fun k => by unfold Core.g; rw [hregs]; rfl
    refine ⟨congrArg Core.wait hcore, congrArg (·.regs.pc) hcore, fun k hk => ?_, fun h0 => ?_⟩
    · rw [hgk, Core.g_setG, if_neg fun h => hk h.1, hu]
    · rw [hgk, Core.g_setG, if_pos ⟨rfl, h0⟩]
  · rw [Core.takeResult_other u r.n hown] at hcore
    exact ⟨(congrArg Core.regs hcore).trans hregs, (congrArg Core.wait hcore).trans hwait⟩

/-- Settles O20: the instructions by what their checks let through, the release by what it leaves of a member. -/
theorem barriers : Obligations.Barriers := ⟨barrierInstructions, barrierRelease⟩

end Sys2Proof.Machine
end

section

/-! ## Exchange instructions (R154, R194 to R199, R379) -/

namespace Sys2Proof.Machine

open Sys2Proof.Claims

/-! ### Plans -/

theorem State.planScan_mem {s : State} {k j : Nat} {rects : List Word} {l : List Nat} {prev se re : Nat}
    (h : s.planScan k rects l prev se re = some j) : j ∈ l := by
  fun_induction State.planScan s k rects l prev se re with
  | case1 => exact absurd h (by simp)
  | case2 => exact Option.some.inj h ▸ List.mem_cons_self
  | case3 => exact Option.some.inj h ▸ List.mem_cons_self
  | case4 _ _ _ _ _ _ _ _ _ ih => exact List.mem_cons_of_mem _ (ih h)

theorem bitsAt_lt (x lo n : Nat) : bitsAt x lo n < 2 ^ n := Nat.mod_lt _ (Nat.two_pow_pos n)

/-- The status of a plan fits its register (R199). -/
theorem State.planCheck_lt (s : State) (rects : List Word) (k : Nat) : s.planCheck rects k < 2 ^ 64 := by
  unfold State.planCheck
  split
  · decide
  split
  · decide
  split
  · rename_i j hj
    have hlt : j < s.planCount k := List.mem_range.mp (State.planScan_mem hj)
    have hcount : s.planCount k < 2 ^ 16 := bitsAt_lt _ _ _
    omega
  · decide

/-! ### Is a phase open? -/

theorem State.openNow_of_closed {s : State} (h : closed s) : s.openNow = none := by
  unfold State.openNow
  split
  · rename_i p hp
    obtain ⟨ht, hs⟩ := h p hp
    rw [hs]
    exact if_neg (by rintro (h | h); exacts [absurd h (Nat.not_lt.mpr ht), Bool.false_ne_true h])
  · rfl

theorem State.openNow_of_open {s : State} {p : Phase} (hp : s.core.sync.phase = some p) (ht : s.clk < p.t0 + p.length) :
    s.openNow = some p := by
  unfold State.openNow
  rw [hp]
  exact if_pos (Or.inl ht)

theorem Core.commCause_iff (s : State) : s.core.commCause = false ↔ noCommTrap s := by
  unfold Core.commCause noCommTrap
  rw [List.any_eq_false]
  refine forall₂_congr fun x _ => ?_
  rw [Bool.or_eq_true, Bool.and_eq_true, beq_iff_eq, beq_iff_eq, not_or, not_and, Bool.not_eq_true]
  rfl

/-- Outside an open phase, with no release of a COMM barrier to come, SLOT is raised (R194). -/
theorem State.noPhase_idle {s : State} (ha : s.core.commArrival = false) (hn : noneAwaited s) (c : Nat) :
    s.noPhase c = .next (s.trap (Cause.slot, c)) := by
  unfold State.noPhase
  rw [ha, Bool.false_or]
  refine (if_neg fun h => ?_).trans rfl
  rw [Bool.and_eq_true, decide_eq_true_eq] at h
  rcases hn with hn | hn
  · rw [(Core.commCause_iff s).mpr hn] at h
    exact Bool.false_ne_true h.1
  · exact hn h.2

theorem State.noPhase_awaiting {s : State} (h : s.core.commArrival = true ∨ ¬ noneAwaited s) (c : Nat) :
    s.noPhase c = .next (waits s .task) := by
  unfold State.noPhase
  refine if_pos ?_
  rw [Bool.or_eq_true, Bool.and_eq_true, decide_eq_true_eq]
  refine h.imp_right fun hn => ?_
  obtain ⟨hc, hw⟩ := not_or.mp hn
  exact ⟨Bool.eq_true_of_not_eq_false fun h => hc ((Core.commCause_iff s).mp h), not_not.mp hw⟩

/-! ### The instructions of a core that is alone -/

section Alone

variable {s : State} (hr : s.core.gang.role = .alone)
include hr

theorem execComm_waits {d : BitVec 5} {r : BitVec 1} (h : s.core.sync.phase ≠ none ∨ s.core.commArrival = true) :
    execComm d r s = .next (waits s .task) := by
  unfold execComm
  rw [State.leaveGang_alone hr]
  refine if_pos ?_
  rw [Bool.or_eq_true]
  exact h.imp_left Option.isSome_iff_ne_none.mpr

theorem execComm_closed {d : BitVec 5} {r : BitVec 1} (hp : s.core.sync.phase = none) (ha : s.core.commArrival = false) :
    execComm d r s = s.checked (if r = 0 ∧ s.core.sync.report.toNat / 2 ^ 16 % 2 ^ 16 ≠ 0
      then some (Cause.formatMismatch, s.core.sync.report.toNat) else none) (past (s.setG d s.core.sync.report)) := by
  unfold execComm
  dsimp only
  rw [State.leaveGang_alone hr, hp, ha]
  rfl

theorem execTtplan_waits {d a : BitVec 5} (h : s.core.sync.phase ≠ none) : execTtplan d a s = .next (waits s .task) := by
  unfold execTtplan
  rw [State.leaveGang_alone hr]
  exact if_pos (Option.isSome_iff_ne_none.mpr h)

theorem execTtplan_closed {d a : BitVec 5} (hp : s.core.sync.phase = none) :
    execTtplan d a s = s.checked ((s.planError s.core.commRects (un s a)).map fun e => (Cause.uncorr, e))
      (past (State.setG (if s.planCheck s.core.commRects (un s a) = 0 then { s with core := { s.core with
        sync := { s.core.sync with plan := BitVec.ofNat 3 (un s a) } } } else s) d
          (BitVec.ofNat 64 (s.planCheck s.core.commRects (un s a))))) := by
  unfold execTtplan
  dsimp only
  rw [State.leaveGang_alone hr]
  exact if_neg (by rw [hp]; exact Bool.false_ne_true)

theorem execTtsend_closed {c : BitVec 16} {a : BitVec 5} (h : closed s) : execTtsend c a s = s.noPhase c.toNat := by
  unfold execTtsend
  dsimp only
  rw [State.leaveGang_alone hr, State.openNow_of_closed h]

theorem execTtrecv_closed {c : BitVec 16} {a : BitVec 5} (h : closed s) : execTtrecv c a s = s.noPhase c.toNat := by
  unfold execTtrecv
  dsimp only
  rw [State.leaveGang_alone hr, State.openNow_of_closed h]

end Alone

/-! ### A slot in an open phase -/

/-- What R195 and R196 ask of an entry is what its checks test. -/
theorem State.slotCheck_of_ok {s : State} {p : Phase} {recv : Bool} {c : Nat} {x : Word} {e : PlanEntry}
    (h : slotOk s p recv c x e) : s.slotCheck p recv c x e = none := by
  obtain ⟨hused, hhigh, hal, hstore, hlim, hlock, ht⟩ := h
  have hh : bitsAt x.toNat 21 42 = 0 := by
    have := congrArg BitVec.toNat hhigh
    rwa [BitVec.extractLsb'_toNat, Nat.shiftRight_eq_div_pow] at this
  have ha : bitsAt x.toNat 0 21 = x.toNat % 2 ^ 21 := by rw [bitsAt, Nat.pow_zero, Nat.div_one]
  have hspan : spanCheck s.priv s.core.ctl.lslim (x.toNat % 2 ^ 21) (64 * e.beats) 64 = none := by
    unfold spanCheck
    rw [if_neg (Nat.not_lt.mpr hstore), if_neg (not_not.mpr hal), if_neg]
    rw [Bool.and_eq_true, Bool.not_eq_true', decide_eq_true_eq, not_and, Nat.not_lt]
    intro hp
    rcases hlim with hl | hl
    · rw [hl] at hp; exact Bool.noConfusion hp
    · exact hl
  unfold State.slotCheck
  dsimp only
  rw [ha, hh, hspan, hlock, if_neg (by simpa using hused), if_neg (not_not.mpr rfl), if_neg (not_not.mpr hal)]
  exact (if_neg Bool.false_ne_true).trans (if_neg (Nat.not_lt.mpr ht))

/-- A change to the open phase leaves the rest. -/
theorem State.on_modPhase {s : State} {p : Phase} (hp : s.core.sync.phase = some p) (f : Phase → Phase) :
    s.on (·.modPhase f) = withPhase s (some (f p)) := by
  unfold withPhase
  show ({ s with core := { s.core with sync := { s.core.sync with phase := s.core.sync.phase.map f } } } : State) = _
  rw [hp]
  rfl

section Open

variable {s : State} {p : Phase} {c : BitVec 16} {a : BitVec 5} (hr : s.core.gang.role = .alone)
  (hp : s.core.sync.phase = some p) (ht : s.clk < p.t0 + p.length)
include hr hp ht

theorem execTtsend_missing (hs : p.sending = none) (he : s.slotEntry p false c.toNat = none) :
    execTtsend c a s = .next (s.trap ((s.slotError p false c.toNat).getD (slotTrap c.toNat 2))) := by
  unfold execTtsend
  dsimp only
  rw [State.leaveGang_alone hr, State.openNow_of_open hp ht]
  dsimp only
  rw [hs, he]
  exact if_neg Bool.false_ne_true

theorem execTtsend_found {e : PlanEntry} (hs : p.sending = none) (he : s.slotEntry p false c.toNat = some e) :
    execTtsend c a s = s.checked ((s.slotError p false c.toNat).or (s.slotCheck p false c.toNat (s.g a) e))
      (waits (withPhase s (some { p with
        used := 2 * c.toNat :: p.used
        sending := some { slot := c.toNat, beats := e.beats, peer := e.peer, src := un s a % 2 ^ 21, nt := (s.g a).getLsbD 63,
                          next := 0 } })) .other) := by
  unfold execTtsend
  dsimp only
  rw [State.leaveGang_alone hr, State.openNow_of_open hp ht]
  dsimp only
  rw [hs, he]
  dsimp only
  rw [State.on_modPhase hp, bitsAt, Nat.pow_zero, Nat.div_one]
  exact if_neg Bool.false_ne_true

theorem execTtrecv_missing (he : s.slotEntry p true c.toNat = none) :
    execTtrecv c a s = .next (s.trap ((s.slotError p true c.toNat).getD (slotTrap c.toNat 2))) := by
  unfold execTtrecv
  dsimp only
  rw [State.leaveGang_alone hr, State.openNow_of_open hp ht]
  dsimp only
  rw [he]

theorem execTtrecv_found {e : PlanEntry} (he : s.slotEntry p true c.toNat = some e) :
    execTtrecv c a s = s.checked ((s.slotError p true c.toNat).or (s.slotCheck p true c.toNat (s.g a) e))
      (past (withPhase s (some { p with used := (2 * c.toNat + 1) :: p.used, armed := p.armed ++
        [{ slot := c.toNat, beats := e.beats, peer := e.peer, dst := un s a % 2 ^ 21, topx := s.core.ctl.status.topx,
           seen := [] }] }))) := by
  unfold execTtrecv
  dsimp only
  rw [State.leaveGang_alone hr, State.openNow_of_open hp ht]
  dsimp only
  rw [he]
  dsimp only
  rw [State.on_modPhase hp, bitsAt, Nat.pow_zero, Nat.div_one]
  rfl

/-- An entry with an uncorrectable error on the way to it raises UNCORR, found or not (R379). -/
theorem execTtsend_error {x : Trap} (hs : p.sending = none) (hx : s.slotError p false c.toNat = some x) :
    execTtsend c a s = .next (s.trap x) := by
  cases he : s.slotEntry p false c.toNat with
  | none => rw [execTtsend_missing hr hp ht hs he, hx]; rfl
  | some e => rw [execTtsend_found hr hp ht hs he, hx]; rfl

theorem execTtrecv_error {x : Trap} (hx : s.slotError p true c.toNat = some x) :
    execTtrecv c a s = .next (s.trap x) := by
  cases he : s.slotEntry p true c.toNat with
  | none => rw [execTtrecv_missing hr hp ht he, hx]; rfl
  | some e => rw [execTtrecv_found hr hp ht he, hx]; rfl

end Open

theorem slotTrap_two (c : Nat) : slotTrap c 2 = (Cause.slot, c + 2 * 2 ^ 16) := rfl

theorem exchangeInstructions : ExchangeInstructions := by
  intro d a c r s hr
  refine ⟨fun hp ha h => ?_, fun hp ha h1 h2 => ?_, fun e hp he => ?_, fun hp he => ⟨_, ?_, (word_natCast _).symm⟩,
    execComm_waits hr, execTtplan_waits hr, fun hc ha hn => ⟨?_, ?_⟩, fun hc h => ⟨?_, ?_⟩, fun p hp ht => ⟨?_, ?_, ?_, ?_, ?_, ?_⟩⟩
  · have hno : ¬ (r = 0 ∧ s.core.sync.report.toNat / 2 ^ 16 % 2 ^ 16 ≠ 0) := by
      rintro ⟨h0, hne⟩
      rcases h with h | h
      · rw [h] at h0; exact absurd h0 (by decide)
      · exact hne h
    refine (execComm_closed hr hp ha).trans ?_
    rw [if_neg hno, State.checked_none]
  · refine (execComm_closed hr hp ha).trans ?_
    rw [if_pos ⟨h1, h2⟩, State.checked_some]
  · refine (execTtplan_closed hr hp).trans ?_
    rw [he]
    rfl
  · have hz : BitVec.ofNat 64 (s.planCheck s.core.commRects (un s a)) = 0 ↔ s.planCheck s.core.commRects (un s a) = 0 := by
      rw [← BitVec.toNat_inj, BitVec.toNat_ofNat, Nat.mod_eq_of_lt (s.planCheck_lt _ _)]
      rfl
    refine (execTtplan_closed hr hp).trans ?_
    rw [he]
    simp only [hz]
    rfl
  · exact (execTtsend_closed hr hc).trans (State.noPhase_idle ha hn _)
  · exact (execTtrecv_closed hr hc).trans (State.noPhase_idle ha hn _)
  · exact (execTtsend_closed hr hc).trans (State.noPhase_awaiting h _)
  · exact (execTtrecv_closed hr hc).trans (State.noPhase_awaiting h _)
  · exact fun e he hs => execTtsend_error hr hp ht hs he
  · exact fun e he => execTtrecv_error hr hp ht he
  · intro hs he hx
    refine (execTtsend_missing hr hp ht hs he).trans ?_
    rw [hx, Option.getD_none, slotTrap_two]
  · intro he hx
    refine (execTtrecv_missing hr hp ht he).trans ?_
    rw [hx, Option.getD_none, slotTrap_two]
  · intro e hs he hx hok
    refine (execTtsend_found hr hp ht hs he).trans ?_
    rw [hx, State.slotCheck_of_ok hok]
    rfl
  · intro e he hx hok
    refine (execTtrecv_found hr hp ht he).trans ?_
    rw [hx, State.slotCheck_of_ok hok]
    rfl

end Sys2Proof.Machine
end

section

/-! ## The events of a phase (R154, R159, R160, R195 to R198) -/

namespace Sys2Proof.Machine

open Sys2Proof.Claims

/-- An event at the core in focus. -/
theorem State.at_self_of {s t : State} {f : State → State} (h : f s = t) (ha : t.core.addr = s.core.addr) :
    s.at s.core.addr.toNat f = t := by
  rw [State.at_self s (by rw [h]; exact ha), h]

/-! ### A beat leaves -/

section Send

variable {s : State} {p : Phase} {y : Sending} (hp : s.core.sync.phase = some p) (hy : p.sending = some y)
  (ht : p.t0 + y.slot + y.next ≤ s.clk)
include hp hy ht

theorem State.sendBeat_bad (hb : ¬ intact s (y.src + 64 * y.next) 64) :
    s.sendBeat = State.trap (withPhase s (some { p with sending := none })) (Cause.uncorr, y.src + 64 * y.next) := by
  unfold State.sendBeat
  rw [hp]
  dsimp only
  rw [hy]
  dsimp only
  rw [if_neg (Nat.not_lt.mpr ht), if_pos (Bool.eq_true_of_not_eq_false hb), State.on_modPhase hp]

/-- The phase of the core in focus is another, and a beat is on the crossbar. -/
def State.beatSent (s : State) (p : Phase) (y : Sending) (z : Option Sending) : State :=
  { withPhase s (some { p with sending := z }) with
    beats := s.beats ++ [{
      src := s.core.addr.toNat, dst := y.peer, sent := p.t0 + y.slot + y.next,
      data := BitVec.ofNat 512 (s.localRead (y.src + 64 * y.next) 64), topx := s.core.ctl.status.topx, nt := y.nt }] }

theorem State.sendBeat_more (hb : intact s (y.src + 64 * y.next) 64) (hn : y.next + 1 < y.beats) :
    s.sendBeat = s.beatSent p y (some { y with next := y.next + 1 }) := by
  unfold State.sendBeat
  rw [hp]
  dsimp only
  rw [hy]
  dsimp only
  rw [if_neg (Nat.not_lt.mpr ht), if_neg (by rw [hb]; exact Bool.false_ne_true), State.on_modPhase hp,
    decide_eq_false (Nat.not_le.mpr hn), if_neg Bool.false_ne_true, if_neg Bool.false_ne_true]
  rfl

/-- The last beat completes the instruction. -/
theorem State.sendBeat_last (hb : intact s (y.src + 64 * y.next) 64) (hn : y.beats ≤ y.next + 1) :
    s.sendBeat = (s.beatSent p y none).adv.resumed := by
  unfold State.sendBeat
  rw [hp]
  dsimp only
  rw [hy]
  dsimp only
  rw [if_neg (Nat.not_lt.mpr ht), if_neg (by rw [hb]; exact Bool.false_ne_true), State.on_modPhase hp,
    decide_eq_true hn, if_pos rfl, if_pos rfl]
  rfl

end Send

/-! ### A beat arrives -/

/-- Beat `k` of the one armed entry is decided: `w` written, `m` mismatched. -/
def decided (p : Phase) (q : ArmedRecv) (k w m : Nat) : Phase :=
  { p with written := p.written + w, mismatch := p.mismatch + m, armed := [{ q with seen := k :: q.seen }] }

section Receive

variable {s : State} {p : Phase} {q : ArmedRecv} {k : Nat} (hp : s.core.sync.phase = some p) (hq : p.armed = [q])

include hq in
theorem State.markBeat {u : State} (hu : u.core.sync.phase = some p) (w m : Nat) :
    (u.on (·.modPhase fun p => { p with
      written := p.written + w, mismatch := p.mismatch + m
      armed := p.armed.map fun (x : ArmedRecv) => if x.slot = q.slot then { x with seen := k :: x.seen } else x })) =
    withPhase u (some (decided p q k w m)) := by
  rw [State.on_modPhase hu, hq, List.map_cons, if_pos rfl, List.map_nil]
  rfl

include hp hq

theorem State.receiveBeat_due (hk : k < q.beats) (hseen : ¬ k ∈ q.seen) (ht : p.t0 + q.slot + k ≤ s.clk)
    (ho : s.beatsOwed (p.t0 + q.slot + k - 6) = false) :
    s.receiveBeat q.slot k = s.takeBeat q k (p.t0 + q.slot + k) := by
  have hfind : p.armed.find? (fun (r : ArmedRecv) => r.slot == q.slot) = some q := by
    rw [hq]
    exact List.find?_cons_of_pos (beq_self_eq_true q.slot)
  unfold State.receiveBeat
  rw [hp]
  dsimp only
  rw [hfind]
  dsimp only
  rw [ho, if_neg]
  rintro (h | h | h | h)
  · exact absurd h (Nat.not_le.mpr hk)
  · exact hseen (by simpa using h)
  · exact absurd h (Nat.not_lt.mpr ht)
  · exact Bool.false_ne_true h

theorem State.takeBeat_missed {t : Nat} (hb : s.beatAt q.peer t = none) :
    s.takeBeat q k t = withPhase s (some (decided p q k 0 0)) := by
  unfold State.takeBeat
  rw [hb]
  exact State.markBeat hq hp 0 0

theorem State.takeBeat_mismatched {t : Nat} {b : Beat} (hb : s.beatAt q.peer t = some b) (hn : b.nt = true)
    (hx : b.topx ≠ q.topx) : s.takeBeat q k t = withPhase s (some (decided p q k 0 1)) := by
  unfold State.takeBeat
  rw [hb]
  exact (if_pos ⟨hn, hx⟩).trans (State.markBeat hq hp 0 1)

theorem State.takeBeat_written {t : Nat} {b : Beat} (hb : s.beatAt q.peer t = some b)
    (hx : b.nt = false ∨ b.topx = q.topx) :
    s.takeBeat q k t =
      withPhase (s.localWriteBytes (q.dst + 64 * k) (natLe 64 b.data.toNat)) (some (decided p q k 1 0)) := by
  have hw : (s.localWriteBytes (q.dst + 64 * k) (natLe 64 b.data.toNat)).core.sync.phase = some p := by
    obtain ⟨⟨w, t, h⟩, -⟩ := s.localWriteBytes_spec (q.dst + 64 * k) (natLe 64 b.data.toNat)
    rw [h]
    exact hp
  unfold State.takeBeat
  rw [hb]
  refine (if_neg ?_).trans (State.markBeat hq hw 1 0)
  rintro ⟨hn, hne⟩
  rcases hx with hx | hx
  · rw [hx] at hn; exact Bool.noConfusion hn
  · exact hne hx

end Receive

/-- Outside a team the bytes written locally are read back. -/
theorem State.localBytes_localWriteBytes {s : State} (h : s.core.ctl.status.ckpt = false) (a : Nat) (xs : List Byte) :
    (s.localWriteBytes a xs).localBytes a xs.length = xs := by
  have hm : (s.localWriteBytes a xs).mem = s.mem.writeBytes (s.core.localKey a) xs := by
    show (s.logWrite a xs.length).mem.writeBytes ((s.logWrite a xs.length).core.localKey a) xs = _
    rw [State.logWrite_alone h]
  have hk : (s.localWriteBytes a xs).core.localKey a = s.core.localKey a := by
    obtain ⟨⟨w, t, h⟩, -⟩ := s.localWriteBytes_spec a xs
    rw [h]
    rfl
  unfold State.localBytes
  rw [hm, hk, Memory.bytes_writeBytes]

/-! ### The end of a phase -/

theorem State.closePhase_due {s : State} {p : Phase} (hp : s.core.sync.phase = some p) (ht : p.t0 + p.length ≤ s.clk)
    (hs : s.phaseSettled p = true) : s.closePhase = s.endPhase := by
  unfold State.closePhase
  rw [hp]
  refine if_neg ?_
  rintro (h | h)
  · exact absurd h (Nat.not_lt.mpr ht)
  · rw [hs] at h; exact Bool.noConfusion h

/-- A phase that ends leaves its report; of the core nothing else changes. -/
theorem State.endPhase_eq {s : State} {p : Phase} (hp : s.core.sync.phase = some p) :
    ∃ b, s.endPhase = { s with beats := b, core := { s.core with sync := { s.core.sync with
      phase := none, phases := s.core.sync.phases + 1
      report := reportOf (s.core.sync.phases + 1) p.plan p.mismatch
        (s.planBeats p.plan.toNat - p.written - p.mismatch) } } } := by
  unfold State.endPhase
  rw [hp]
  exact ⟨_, rfl⟩

theorem exchangePhase : ExchangePhase := by
  intro s p hp c
  refine ⟨fun y hy ht hb => ?_, fun y hy ht hb hn => ?_,
    fun y hy ht hb hn => ⟨(s.beatSent p y none).adv.resumed, ?_, rfl, rfl, rfl, List.length_append⟩,
    fun q k hq hk hseen ht ho => ⟨fun hb => ?_, fun b hb => ⟨fun hn hx => ?_, fun hx => ?_⟩⟩, fun ht hs => ?_⟩
  · exact congrArg Host.Outcome.next (State.at_self_of (State.sendBeat_bad hp hy ht hb) (State.trap_addr _ _))
  · exact congrArg Host.Outcome.next (State.at_self_of (State.sendBeat_more hp hy ht hb hn) rfl)
  · exact congrArg Host.Outcome.next (State.at_self_of (State.sendBeat_last hp hy ht hb hn) rfl)
  · exact congrArg Host.Outcome.next (State.at_self_of
      ((State.receiveBeat_due hp hq hk hseen ht ho).trans (State.takeBeat_missed hp hq hb)) rfl)
  · exact congrArg Host.Outcome.next (State.at_self_of
      ((State.receiveBeat_due hp hq hk hseen ht ho).trans (State.takeBeat_mismatched hp hq hb hn hx)) rfl)
  · obtain ⟨⟨w, t, hcore⟩, -⟩ := s.localWriteBytes_spec (q.dst + 64 * k) (natLe 64 b.data.toNat)
    refine ⟨_, congrArg Host.Outcome.next (State.at_self_of
      ((State.receiveBeat_due hp hq hk hseen ht ho).trans (State.takeBeat_written hp hq hb hx)) ?_), ?_, ?_, fun hck => ?_⟩
    · exact (congrArg Core.addr hcore :)
    · show ({ (s.localWriteBytes (q.dst + 64 * k) (natLe 64 b.data.toNat)).core.sync with phase := _ } : Sync) = _
      rw [hcore]
      rfl
    · exact (congrArg Core.regs hcore :)
    · have hb := State.localBytes_localWriteBytes hck (q.dst + 64 * k) (natLe 64 b.data.toNat)
      rwa [natLe_length] at hb
  · obtain ⟨b, he⟩ := State.endPhase_eq hp
    refine ⟨_, congrArg Host.Outcome.next (State.at_self_of ((State.closePhase_due hp ht hs).trans he) rfl), ?_, rfl, rfl⟩
    rw [word_natCast]
    rfl

/-- Settles O22: the instructions by their checks and the open phase, the events of a phase by what each does at its
core. -/
theorem exchange : Obligations.Exchange := ⟨exchangeInstructions, exchangePhase⟩

end Sys2Proof.Machine
end

section

/-! ## Events that arrive at an engine (R163, R319, R320, R324, R346, R396) -/

namespace Sys2Proof.Machine

open Sys2Proof.Claims

/-! ### The event delivered next -/

/-- No queued event comes before another: the lower tick, the earlier entry, the lower sender, the lower number. -/
def notAfter (x y : QEvent) : Prop :=
  x.t < y.t ∨ x.t = y.t ∧ (x.clk < y.clk ∨ x.clk = y.clk ∧ (x.key < y.key ∨ x.key = y.key ∧ x.arr ≤ y.arr))

theorem notAfter_refl (x : QEvent) : notAfter x x := Or.inr ⟨rfl, Or.inr ⟨rfl, Or.inr ⟨rfl, le_refl _⟩⟩⟩

theorem notAfter_trans {x y z : QEvent} (h : notAfter x y) (h' : notAfter y z) : notAfter x z := by
  unfold notAfter at *
  omega

theorem QEvent.before_iff (x y : QEvent) : x.before y = true ↔ ¬ notAfter y x := by
  unfold QEvent.before QEvent.earlier notAfter
  simp only [Bool.or_eq_true, Bool.and_eq_true, decide_eq_true_eq, beq_iff_eq]
  omega

theorem notAfter_of_before {x y : QEvent} (h : x.before y = true) : notAfter x y := by
  rw [QEvent.before_iff] at h
  unfold notAfter at *
  omega

theorem notAfter_of_not_before {x y : QEvent} (h : ¬ x.before y = true) : notAfter y x := by
  rw [QEvent.before_iff] at h
  exact not_not.mp h

/-- The search for the first event, from one that has been found. -/
theorem head_foldl_spec (l : List QEvent) (y : QEvent) :
    ∃ q, l.foldl (fun (b : Option QEvent) x => match b with
        | some y => if x.before y then some x else some y
        | none => some x) (some y) = some q ∧
      (q = y ∨ q ∈ l) ∧ notAfter q y ∧ ∀ x ∈ l, notAfter q x := by
  induction l generalizing y with
  | nil => exact ⟨y, rfl, Or.inl rfl, notAfter_refl y, fun x hx => absurd hx List.not_mem_nil⟩
  | cons x l ih =>
    rw [List.foldl_cons]
    dsimp only
    by_cases hb : x.before y = true
    · rw [if_pos hb]
      obtain ⟨q, he, hm, hx, hl⟩ := ih x
      exact ⟨q, he, Or.inr (List.mem_cons.mpr hm), notAfter_trans hx (notAfter_of_before hb),
        List.forall_mem_cons.mpr ⟨hx, hl⟩⟩
    · rw [if_neg hb]
      obtain ⟨q, he, hm, hy, hl⟩ := ih y
      exact ⟨q, he, hm.imp_right (List.mem_cons_of_mem x), hy,
        List.forall_mem_cons.mpr ⟨notAfter_trans hy (notAfter_of_not_before hb), hl⟩⟩

theorem Engine.head_spec {e : Engine} {q : QEvent} (h : e.head = some q) : q ∈ e.queue ∧ ∀ x ∈ e.queue, notAfter q x := by
  unfold Engine.head at h
  cases hl : e.queue with
  | nil => rw [hl] at h; exact absurd h (by simp)
  | cons y l =>
    rw [hl, List.foldl_cons] at h
    obtain ⟨q', he, hm, hy, hall⟩ := head_foldl_spec l y
    obtain rfl : q' = q := Option.some.inj (he.symm.trans h)
    exact ⟨List.mem_cons.mpr hm, List.forall_mem_cons.mpr ⟨hy, hall⟩⟩

/-! ### The tick an event resolves to -/

/-- An event without an absolute time is due so many ticks on. -/
theorem resolveTick_relative {w : Word} {now : Nat} (hn : now < 2 ^ 48 - 2 ^ 27) (h : w.getLsbD 63 = false) :
    resolveTick w now = now + w.toNat / 2 ^ 36 % 2 ^ 27 := by
  have ht : w.toNat / 2 ^ 36 % 2 ^ 27 < 2 ^ 27 := Nat.mod_lt _ (by decide)
  unfold resolveTick bitOf evTime bitsAt
  rw [h]
  exact (if_neg Bool.false_ne_true).trans (Nat.mod_eq_of_lt (by omega))

/-- An event with the low bits of its tick is due at the tick with these bits that is nearest. -/
theorem resolveTick_absolute {w : Word} {now : Nat} (hn : now < 2 ^ 48 - 2 ^ 27) (h : w.getLsbD 63 = true) :
    resolveTick w now % 2 ^ 27 = w.toNat / 2 ^ 36 % 2 ^ 27 ∧ now ≤ resolveTick w now + 2 ^ 26 ∧
      resolveTick w now < max now (2 ^ 26) + 2 ^ 26 := by
  have ht : w.toNat / 2 ^ 36 % 2 ^ 27 < 2 ^ 27 := Nat.mod_lt _ (by decide)
  have he : resolveTick w now = ((if now < 2 ^ 26 then 0 else now - 2 ^ 26) + (w.toNat / 2 ^ 36 % 2 ^ 27 + 2 ^ 27 -
      (if now < 2 ^ 26 then 0 else now - 2 ^ 26) % 2 ^ 27) % 2 ^ 27) % 2 ^ 48 := by
    unfold resolveTick bitOf evTime bitsAt
    rw [h]
    exact if_pos rfl
  rw [he]
  generalize w.toNat / 2 ^ 36 % 2 ^ 27 = time at *
  by_cases hlow : now < 2 ^ 26
  · rw [if_pos hlow]
    omega
  · rw [if_neg hlow]
    omega

/-! ### Entering the queue -/

theorem satInc_eq_countUp (x : BitVec 32) : satInc x = countUp x := satInc_eq_toNat x

theorem Engine.full_eq (e : Engine) : e.full = decide (8192 ≤ e.queue.length) := rfl

theorem State.countFanLost_some (s : State) (k : Nat) :
    s.countFanLost (some k) = withEngine s k { s.engine k with fanlost := countUp (s.engine k).fanlost } := by
  rw [← satInc_eq_countUp]
  rfl

theorem execEventArrival_behind {s : State} {i : Nat} {m : EvMsg} (hm : s.evnet[i]? = some m)
    (hb : (s.evnet.take i).any m.sameWay = true) : execEventArrival i s = .next s := by
  unfold execEventArrival
  rw [hm]
  exact if_pos hb

section First

variable {s : State} {i : Nat} {m : EvMsg} (hm : s.evnet[i]? = some m) (hb : (s.evnet.take i).any m.sameWay = false)
include hm hb

theorem execEventArrival_lost (hc : s.clusterTakes (clusterCore m.target 0) = false) :
    execEventArrival i s = .next (State.countFanLost { s with evnet := s.evnet.eraseIdx i } m.engine) := by
  unfold execEventArrival
  rw [hm]
  dsimp only
  rw [if_neg (by rw [hb]; exact Bool.false_ne_true), if_pos (by rw [hc]; rfl)]

theorem execEventArrival_taken (hc : s.clusterTakes (clusterCore m.target 0) = true) :
    execEventArrival i s = .next (withEngine { s with evnet := s.evnet.eraseIdx i } m.target
      (if (s.engine m.target).full then { s.engine m.target with overflow := countUp (s.engine m.target).overflow }
        else queued s m.target m.key (m.t.getD (resolveTick m.w (s.engineTick m.target))) m.w)) := by
  unfold execEventArrival
  rw [hm]
  dsimp only
  rw [if_neg (by rw [hb]; exact Bool.false_ne_true), if_neg (by rw [hc]; exact Bool.false_ne_true)]
  by_cases hf : (s.engine m.target).full = true
  · rw [if_pos hf, if_pos hf, ← satInc_eq_countUp]
    rfl
  · rw [if_neg hf, if_neg hf]
    rfl

end First

theorem EvMsg.sameWay_iff (m x : EvMsg) :
    m.sameWay x = true ↔ x.sender = m.sender ∧ x.engine = m.engine ∧ x.target = m.target := by
  unfold EvMsg.sameWay
  simp only [Bool.and_eq_true, beq_iff_eq]
  exact ⟨fun ⟨⟨h1, h2⟩, h3⟩ => ⟨h2, h1, h3⟩, fun ⟨h1, h2, h3⟩ => ⟨⟨h2, h1⟩, h3⟩⟩

theorem eventArrivals : EventArrivals := by
  refine ⟨?_, fun e q h => Engine.head_spec h, fun w now hn => ⟨resolveTick_relative hn, resolveTick_absolute hn⟩⟩
  intro s i m hm t e there sender same
  have hsender : ∀ x, sender x = x.sender := fun x => by
    show (match x.engine with | some e => clusterCore e 0 | none => threadCore x.src) = _
    unfold EvMsg.sender
    cases x.engine <;> rfl
  have hsame : ∀ x, m.sameWay x = true ↔ same x := fun x => by
    rw [EvMsg.sameWay_iff, ← hsender, ← hsender]
  refine ⟨fun ⟨x, hx, h⟩ => execEventArrival_behind hm (List.any_eq_true.mpr ⟨x, hx, (hsame x).mpr h⟩), fun hno => ?_⟩
  have hb : (s.evnet.take i).any m.sameWay = false :=
    List.any_eq_false.mpr fun x hx h => hno x hx ((hsame x).mp h)
  refine ⟨fun hc hl => ?_, fun hc hl => ?_, fun hc => ?_⟩
  · refine (execEventArrival_taken hm hb hc).trans ?_
    rw [Engine.full_eq, decide_eq_false (Nat.not_le.mpr hl)]
    rfl
  · refine (execEventArrival_taken hm hb hc).trans ?_
    rw [Engine.full_eq, decide_eq_true hl]
    rfl
  · refine (execEventArrival_lost hm hb hc).trans ?_
    cases m.engine with
    | none => rfl
    | some k => rw [State.countFanLost_some]; rfl

end Sys2Proof.Machine
end

section

/-! ## The bank of an engine (R315, R379) -/

namespace Sys2Proof.Machine

open Sys2Proof.Claims

/-! ### Errors in memory -/

/-- Two spans overlap in a byte that both hold. -/
theorem overlap_iff (a n b m : Nat) : overlap a n b m = true ↔ ∃ y, (a ≤ y ∧ y < a + n) ∧ b ≤ y ∧ y < b + m := by
  unfold overlap
  rw [decide_eq_true_iff]
  constructor
  · intro h
    exact ⟨max a b, by omega, by omega⟩
  · rintro ⟨y, ha, hb⟩
    omega

/-- A span without some bytes holds the others that it held. -/
theorem Span.carve_holds (p : Span) (k n y : Nat) :
    (∃ v ∈ p.carve k n, v.lo ≤ y ∧ y < v.lo + v.len) ↔ (p.lo ≤ y ∧ y < p.lo + p.len) ∧ ¬ (k ≤ y ∧ y < k + n) := by
  unfold Span.carve overlap
  simp only [decide_eq_true_eq]
  split_ifs with ho hl hr hr
  · simp only [List.cons_append, List.nil_append, List.mem_cons, List.not_mem_nil, or_false, exists_eq_or_imp, exists_eq_left]
    omega
  · simp only [List.append_nil, List.mem_singleton, exists_eq_left]
    omega
  · simp only [List.nil_append, List.mem_singleton, exists_eq_left]
    omega
  · simp only [List.append_nil, List.not_mem_nil, false_and, exists_false, false_iff]
    omega
  · simp only [List.mem_singleton, exists_eq_left]
    omega

theorem spansHit_iff (l : List Span) (a m : Nat) :
    spansHit l a m = true ↔ ∃ p ∈ l, ∃ y, (p.lo ≤ y ∧ y < p.lo + p.len) ∧ a ≤ y ∧ y < a + m := by
  unfold spansHit
  simp only [List.any_eq_true, overlap_iff]

theorem spansHit_carve (l : List Span) (k n a m : Nat) :
    spansHit (l.flatMap (·.carve k n)) a m = true ↔
      ∃ p ∈ l, ∃ y, (p.lo ≤ y ∧ y < p.lo + p.len) ∧ (a ≤ y ∧ y < a + m) ∧ ¬ (k ≤ y ∧ y < k + n) := by
  rw [spansHit_iff]
  constructor
  · rintro ⟨v, hv, y, hy, ha⟩
    obtain ⟨p, hp, hv⟩ := List.mem_flatMap.mp hv
    obtain ⟨hpy, hk⟩ := (p.carve_holds k n y).mp ⟨v, hv, hy⟩
    exact ⟨p, hp, y, hpy, ha, hk⟩
  · rintro ⟨p, hp, y, hpy, ha, hk⟩
    obtain ⟨v, hv, hy⟩ := (p.carve_holds k n y).mpr ⟨hpy, hk⟩
    exact ⟨v, List.mem_flatMap.mpr ⟨p, hp, hv⟩, y, hy, ha⟩

/-- Bytes that have been carved out hold no error. -/
theorem spansHit_carve_same (l : List Span) (k n : Nat) : spansHit (l.flatMap (·.carve k n)) k n = false := by
  rw [← Bool.not_eq_true, spansHit_carve]
  rintro ⟨-, -, y, -, h, h'⟩
  exact h' h

/-- Bytes apart from the carved ones hold the errors that they held. -/
theorem spansHit_carve_apart (l : List Span) {k n a m : Nat} (h : a + m ≤ k ∨ k + n ≤ a) :
    spansHit (l.flatMap (·.carve k n)) a m = spansHit l a m := by
  rw [Bool.eq_iff_iff, spansHit_carve, spansHit_iff]
  refine exists_congr fun p => and_congr_right fun _ => exists_congr fun y => and_congr_right fun _ => ?_
  omega

theorem State.brokenHit_congr {s t : State} (h : t.pkgs = s.pkgs) (k n : Nat) : t.brokenHit k n = s.brokenHit k n := by
  unfold State.brokenHit State.anyBroken State.brokenByte
  simp only [State.getPkg_congr h, h]

theorem State.poisonHit_congr {s t : State} (hk : t.pkgs = s.pkgs) (hp : t.poison = s.poison) (k n : Nat) :
    t.poisonHit k n = s.poisonHit k n := by
  unfold State.poisonHit
  rw [hp, State.brokenHit_congr hk]

theorem Memory.read_congr {m m' : Memory} {k n : Nat} (h : ∀ i, i < n → m.byte (k + i) = m'.byte (k + i)) :
    m.read k n = m'.read k n := congrArg leNat (Memory.bytes_congr h)

/-! ### A state of the bank -/

theorem leNat_append (xs ys : List Byte) : leNat (xs ++ ys) = leNat xs + 256 ^ xs.length * leNat ys := by
  induction xs with
  | nil => simp [leNat]
  | cons x xs ih =>
    rw [List.cons_append, leNat, leNat, ih, List.length_cons, pow_succ]
    ring

/-- The 16 bytes of a state give its fields, cut to their sizes. -/
theorem NState.bytes_fields (x : NState) :
    let y := leNat x.bytes
    bitsAt y 0 32 = x.v % 2 ^ 32 ∧ bitsAt y 32 48 = x.last % 2 ^ 48 ∧ bitsAt y 80 16 = x.refr % 2 ^ 16 ∧
      bitsAt y 96 16 = x.fires % 2 ^ 16 ∧ bitsAt y 112 16 = x.user % 2 ^ 16 := by
  have hy : leNat x.bytes = x.v % 4294967296 + 4294967296 * (x.last % 281474976710656) +
      1208925819614629174706176 * (x.refr % 65536) + 79228162514264337593543950336 * (x.fires % 65536) +
      5192296858534827628530496329220096 * (x.user % 65536) := by
    simp only [NState.bytes, leNat_append, leNat_natLe, List.length_append, natLe_length]
    norm_num
  dsimp only
  rw [hy]
  unfold bitsAt
  omega

theorem NState.bytes_length (x : NState) : x.bytes.length = 16 := by
  simp only [NState.bytes, List.length_append, natLe_length]

theorem State.bankState_congr {s t : State} (hm : t.mem = s.mem) (hp : t.poison = s.poison) (hk : t.pkgs = s.pkgs)
    (eng i : Nat) : t.bankState eng i = s.bankState eng i := by
  unfold State.bankState
  rw [hm, State.poisonHit_congr hk hp]

/-- A state whose engine has failed reads as the canonical NaN, whatever is written (R379, R393). -/
def State.readBack (s : State) (eng i : Nat) (x : NState) : NState :=
  { v := if s.brokenHit (keyBank eng (16 * i)) 16 then fp32.nanCode else x.v % 2 ^ 32
    last := x.last % 2 ^ 48, refr := x.refr % 2 ^ 16, fires := x.fires % 2 ^ 16, user := x.user % 2 ^ 16 }

/-- Some bytes lie apart from those of a state. -/
def offState (eng i k n : Nat) : Prop := k + n ≤ keyBank eng (16 * i) ∨ keyBank eng (16 * i) + 16 ≤ k

/-- From `s` to `t` the engine, the bytes of one of its states and the errors there may differ. -/
structure BankStep (eng i : Nat) (s t : State) : Prop where
  frame : t = { s with engines := t.engines, mem := t.mem, poison := t.poison }
  engines : ∀ d, d ≠ eng → t.engine d = s.engine d
  bytes : ∀ k, offState eng i k 1 → t.mem.byte k = s.mem.byte k
  errors : ∀ k n, offState eng i k n → t.poisonHit k n = s.poisonHit k n

theorem BankStep.refl (eng i : Nat) (s : State) : BankStep eng i s s :=
  ⟨rfl, fun _ _ => rfl, fun _ _ => rfl, fun _ _ _ => rfl⟩

theorem BankStep.trans {eng i : Nat} {s t u : State} (h : BankStep eng i s t) (h' : BankStep eng i t u) : BankStep eng i s u := by
  have hf := h'.frame
  rw [h.frame] at hf
  exact ⟨hf, fun d hd => (h'.engines d hd).trans (h.engines d hd), fun k hk => (h'.bytes k hk).trans (h.bytes k hk),
    fun k n hk => (h'.errors k n hk).trans (h.errors k n hk)⟩

section Steps

variable {s t : State} {eng i : Nat} (h : BankStep eng i s t)
include h

theorem BankStep.pkgs : t.pkgs = s.pkgs := (congrArg State.pkgs h.frame :)
theorem BankStep.core : t.core = s.core := (congrArg State.core h.frame :)
theorem BankStep.others : t.others = s.others := (congrArg State.others h.frame :)
theorem BankStep.saved : t.saved = s.saved := (congrArg State.saved h.frame :)
theorem BankStep.evnet : t.evnet = s.evnet := (congrArg State.evnet h.frame :)
theorem BankStep.posts : t.posts = s.posts := (congrArg State.posts h.frame :)
theorem BankStep.clk : t.clk = s.clk := (congrArg State.clk h.frame :)

/-- A read apart from the state gives what it gave. -/
theorem BankStep.read {k n : Nat} (hk : offState eng i k n) : t.mem.read k n = s.mem.read k n :=
  Memory.read_congr fun j hj => h.bytes (k + j) (by unfold offState at *; omega)

end Steps

theorem State.engine_modEngine_self (s : State) (eng : Nat) (f : Engine → Engine) :
    (s.modEngine eng f).engine eng = f (s.engine eng) := agetD_aset_self _ _ _ _

theorem State.engine_modEngine_of_ne (s : State) {d eng : Nat} (h : d ≠ eng) (f : Engine → Engine) :
    (s.modEngine eng f).engine d = s.engine d := agetD_aset_of_ne _ _ _ h

theorem aset_aset {α : Type} (l : List (Nat × α)) (k : Nat) (x y : α) : aset (aset l k x) k y = aset l k y := by
  induction l with
  | nil => simp [aset]
  | cons z l ih =>
    by_cases h1 : k < z.1
    · rw [show aset (z :: l) k x = (k, x) :: z :: l from if_pos h1, show aset (z :: l) k y = (k, y) :: z :: l from if_pos h1]
      exact (if_neg (lt_irrefl k)).trans (if_pos rfl)
    by_cases h2 : k = z.1
    · rw [show aset (z :: l) k x = (k, x) :: l from (if_neg h1).trans (if_pos h2),
        show aset (z :: l) k y = (k, y) :: l from (if_neg h1).trans (if_pos h2)]
      exact (if_neg (lt_irrefl k)).trans (if_pos rfl)
    · have hz : ∀ (m : List (Nat × α)) v, aset (z :: m) k v = z :: aset m k v := fun m v => (if_neg h1).trans (if_neg h2)
      rw [hz, hz, hz, ih]

theorem State.modEngine_step (s : State) (eng i : Nat) (f : Engine → Engine) : BankStep eng i s (s.modEngine eng f) :=
  ⟨rfl, fun _ hd => s.engine_modEngine_of_ne hd f, fun _ _ => rfl, fun _ _ _ => State.poisonHit_congr rfl rfl _ _⟩

theorem State.bankState_modEngine (s : State) (eng d i : Nat) (f : Engine → Engine) :
    (s.modEngine eng f).bankState d i = s.bankState d i :=
  State.bankState_congr (s := s) (t := s.modEngine eng f) rfl rfl rfl d i

/-- An error in a state is counted and dropped. -/
theorem State.countBank_spec (s : State) (eng i : Nat) :
    BankStep eng i s (s.countBank eng i) ∧ (s.countBank eng i).mem = s.mem ∧
      (∃ b, (s.countBank eng i).engine eng = { s.engine eng with bankue := b }) ∧
      spansHit (s.countBank eng i).poison (keyBank eng (16 * i)) 16 = false := by
  unfold State.countBank
  split
  · have hself := s.engine_modEngine_self eng fun e => { e with bankue := satInc e.bankue }
    have hother := fun d (hd : d ≠ eng) => s.engine_modEngine_of_ne hd fun e => { e with bankue := satInc e.bankue }
    refine ⟨⟨rfl, hother, fun _ _ => rfl, fun k n hk => ?_⟩, rfl, ⟨_, hself⟩, spansHit_carve_same _ _ _⟩
    unfold State.poisonHit
    rw [State.brokenHit_congr (s := s) rfl]
    exact congrArg (· || _) (spansHit_carve_apart s.poison hk)
  · rename_i hp
    refine ⟨BankStep.refl _ _ _, rfl, ⟨(s.engine eng).bankue, rfl⟩, ?_⟩
    exact (Bool.or_eq_false_iff.mp (Bool.eq_false_of_not_eq_true hp)).1

/-- A state written: only the engine's count of errors changes besides, and it reads back unless its engine has failed. -/
theorem State.putBank_spec (s : State) (eng i : Nat) (x : NState) :
    BankStep eng i s (s.putBank eng i x) ∧ (∃ b, (s.putBank eng i x).engine eng = { s.engine eng with bankue := b }) ∧
      (s.putBank eng i x).bankState eng i = s.readBack eng i x := by
  obtain ⟨hstep, hmem, heng, hclean⟩ := s.countBank_spec eng i
  have hput : BankStep eng i (s.countBank eng i) (s.putBank eng i x) := by
    refine ⟨rfl, fun _ _ => rfl, fun k hk => ?_, fun _ _ _ => State.poisonHit_congr rfl rfl _ _⟩
    refine Memory.byte_writeBytes_out _ _ _ fun j hj => ?_
    rw [x.bytes_length] at hj
    unfold offState at hk
    omega
  refine ⟨hstep.trans hput, heng, ?_⟩
  have hread : (s.putBank eng i x).mem.read (keyBank eng (16 * i)) 16 = leNat x.bytes := by
    have hb := Memory.bytes_writeBytes (s.countBank eng i).mem (keyBank eng (16 * i)) x.bytes
    rw [x.bytes_length] at hb
    exact congrArg leNat hb
  have hpoison : (s.putBank eng i x).poisonHit (keyBank eng (16 * i)) 16 = s.brokenHit (keyBank eng (16 * i)) 16 := by
    unfold State.poisonHit
    rw [show (s.putBank eng i x).poison = (s.countBank eng i).poison from rfl, hclean, Bool.false_or]
    exact State.brokenHit_congr (hstep.trans hput).pkgs _ _
  obtain ⟨h0, h1, h2, h3, h4⟩ := x.bytes_fields
  unfold State.bankState State.readBack
  dsimp only
  rw [hread, hpoison, h0, h1, h2, h3, h4]

/-! ### Events that wait for room in the queue (R330) -/

theorem Engine.drainOnly_keeps (e : Engine) (clk n : Nat) :
    ∃ q a w, e.drainOnly clk n = { e with queue := q, arr := a, waiting := w } := by
  induction n generalizing e with
  | zero => exact ⟨_, _, _, rfl⟩
  | succ n ih =>
    unfold Engine.drainOnly
    split
    · exact ⟨_, _, _, rfl⟩
    split
    · exact ⟨_, _, _, rfl⟩
    · obtain ⟨q, a, w, h⟩ := ih (Engine.enter _ clk _ _ _)
      exact ⟨q, a, w, h⟩

theorem Engine.drainOnly_none {e : Engine} (h : e.waiting = []) (clk n : Nat) : e.drainOnly clk n = e := by
  cases n with
  | zero => rfl
  | succ n => unfold Engine.drainOnly; rw [h]

theorem Engine.drainOnly_full {e : Engine} (h : 8192 ≤ e.queue.length) (clk n : Nat) : e.drainOnly clk n = e := by
  have hf : e.full = true := decide_eq_true h
  cases n with
  | zero => rfl
  | succ n =>
    unfold Engine.drainOnly
    split
    · rfl
    · rw [if_pos hf]

/-- With one place free the first event that waits enters. -/
theorem Engine.drainOnly_one {e : Engine} {k d : Nat} {w : Word} {r : List (Nat × Nat × Word)} (h : e.waiting = (k, d, w) :: r)
    (hl : e.queue.length = 8191) (clk n : Nat) :
    e.drainOnly clk (n + 1) = ({ e with waiting := r } : Engine).enter clk k d w := by
  have hf : e.full = false := by rw [Engine.full_eq, hl]; rfl
  unfold Engine.drainOnly
  rw [h]
  dsimp only
  rw [if_neg (by rw [hf]; exact Bool.false_ne_true)]
  refine Engine.drainOnly_full ?_ clk n
  show 8192 ≤ (e.queue ++ [_]).length
  rw [List.length_append, hl]
  exact le_refl _

end Sys2Proof.Machine
end

section

/-! ## The fan-out and the fire record of a population (R290, R324) -/

namespace Sys2Proof.Machine

open Sys2Proof.Claims

/-! ### A change at the core of a thread -/

theorem State.focus_frame (s : State) (c : Nat) : ∃ k o, s.focus c = { s with core := k, others := o } := by
  unfold State.focus
  split
  · exact ⟨_, _, rfl⟩
  · exact ⟨_, _, rfl⟩

theorem State.at_on_frame (s : State) (c : Nat) (f : Core → Core) :
    ∃ k o, s.at c (·.on f) = { s with core := k, others := o } := by
  obtain ⟨k, o, h⟩ := s.focus_frame c
  obtain ⟨k', o', h'⟩ := ((s.focus c).on f).focus_frame s.core.addr.toNat
  refine ⟨k', o', h'.trans ?_⟩
  rw [h]
  rfl

theorem State.atThread_on_frame (s : State) (k : Nat) (f : Core → Core) :
    ∃ c o v, s.atThread k (·.on f) = { s with core := c, others := o, saved := v } := by
  unfold State.atThread
  split
  · obtain ⟨c, o, h⟩ := s.at_on_frame (threadCore k) f
    exact ⟨c, o, s.saved, h⟩
  · split
    · exact ⟨_, _, _, rfl⟩
    · exact ⟨_, _, _, rfl⟩

/-- A change at a core changes that core alone. -/
theorem State.getCore_at_on {s : State} {c : Nat} {f : Core → Core} (hf : ∀ k, (f k).addr = k.addr)
    (hc : (s.getCore c).addr.toNat = c) (x : Nat) :
    (s.at c (·.on f)).getCore x = if x = c then f (s.getCore c) else s.getCore x := by
  by_cases h : s.core.addr.toNat = c
  · subst h
    rw [State.at_self s (hf _), State.getCore_self]
    by_cases hx : x = s.core.addr.toNat
    · subst hx
      rw [if_pos rfl]
      exact if_pos (congrArg BitVec.toNat (hf s.core))
    · rw [if_neg hx, State.getCore_of_ne (Ne.symm hx)]
      exact if_neg fun e => hx ((congrArg BitVec.toNat (hf s.core)).symm.trans e).symm
  · have hn : ((s.focus c).on f).core.addr.toNat ≠ s.core.addr.toNat := by
      rw [State.on_core, State.focus_of_ne h, hf, hc]; exact Ne.symm h
    have hcore : (s.at c (·.on f)).core = s.core := State.at_on_core_of_ne h (by rw [hf, hc])
    have hothers : (s.at c (·.on f)).others =
        aset (adel (aset (adel s.others c) s.core.addr.toNat s.core) s.core.addr.toNat) c (f (s.getCore c)) := by
      unfold State.at
      rw [State.focus_of_ne hn, State.focus_of_ne h]
      exact congrArg (fun k => aset _ k _) ((congrArg BitVec.toNat (hf _)).trans hc)
    by_cases hs : s.core.addr.toNat = x
    · subst hs
      rw [if_neg h, State.getCore_self, ← hcore, State.getCore_self]
    · rw [State.getCore_of_ne (by rw [hcore]; exact hs), hothers]
      by_cases hx : x = c
      · subst hx
        rw [if_pos rfl, agetD_aset_self]
      · rw [if_neg hx, State.getCore_of_ne hs, agetD_aset_of_ne _ _ _ hx]
        unfold agetD
        rw [aget_adel_of_ne _ (Ne.symm hs), aget_aset_of_ne _ _ (Ne.symm hs), aget_adel_of_ne _ hx]

/-- What a change of a context does not touch is found of every thread as before. -/
theorem State.getThread_atThread_on {α : Type} (s : State) (k : Nat) {f : Core → Core} {g : Core → α}
    (hf : ∀ c, (f c).addr = c.addr) (ht : ∀ c, (f c).thread = c.thread) (hg : ∀ c, g (f c) = g c) (j : Nat) :
    ((s.atThread k (·.on f)).getThread j).map g = (s.getThread j).map g := by
  have hget : ∀ u : State, u.getThread j =
      if (u.getCore (threadCore j)).thread = j then some (u.getCore (threadCore j)) else aget u.saved j := fun _ => rfl
  have haddr : ∀ c : Core, threadCore c.thread = c.addr.toNat := threadCore_thread
  obtain ⟨thread, hthread⟩ : ∃ t, Core.thread = t := ⟨_, rfl⟩
  obtain ⟨tc, htc⟩ : ∃ t, threadCore = t := ⟨_, rfl⟩
  rw [hget, hget]
  unfold State.atThread
  rw [hthread, htc] at haddr ⊢
  rw [hthread] at ht
  by_cases hk : thread (s.getCore (tc k)) = k
  · have hc : (s.getCore (tc k)).addr.toNat = tc k := by rw [← haddr, hk]
    have hsaved : (s.at (tc k) (·.on f)).saved = s.saved := by
      obtain ⟨_, _, h⟩ := s.at_on_frame (tc k) f
      rw [h]
    rw [if_pos hk, State.getCore_at_on hf hc, hsaved]
    by_cases hj : tc j = tc k
    · rw [if_pos hj, ht, hj]
      by_cases h : thread (s.getCore (tc k)) = j
      · rw [if_pos h, if_pos h, Option.map_some, Option.map_some, hg]
      · rw [if_neg h, if_neg h]
    · rw [if_neg hj]
  · rw [if_neg hk]
    cases hsv : aget s.saved k with
    | none => rfl
    | some c =>
      show (if thread (s.getCore (tc j)) = j then some (s.getCore (tc j)) else aget (aset s.saved k (f c)) j).map g = _
      by_cases h : thread (s.getCore (tc j)) = j
      · rw [if_pos h, if_pos h]
      · rw [if_neg h, if_neg h]
        by_cases hj : j = k
        · subst hj
          rw [aget_aset_self, hsv, Option.map_some, Option.map_some, hg]
        · rw [aget_aset_of_ne _ _ hj]

/-! ### Where the owner's bytes stand -/

/-! The kernel would evaluate a thread's name in unary where it compares a `match` on a thread with the function that it
stands in; so such a function is unfolded as a function. -/

theorem State.ownerKey_of_some {s : State} {e : Engine} {p : Nat} {c : Core} (h : s.getThread (e.ownerThread p) = some c)
    (a : Nat) : s.ownerKey e p a = c.localKey a := by
  obtain ⟨f, hf⟩ : ∃ f, f = State.ownerKey := ⟨_, rfl⟩
  rw [← hf]
  delta State.ownerKey at hf
  rw [hf]
  beta_reduce
  rw [h]

theorem State.ownerKey_of_none {s : State} {e : Engine} {p : Nat} (h : s.getThread (e.ownerThread p) = none)
    (a : Nat) : s.ownerKey e p a = keyLocal (threadCore (e.ownerThread p)) a := by
  obtain ⟨f, hf⟩ : ∃ f, f = State.ownerKey := ⟨_, rfl⟩
  rw [← hf]
  delta State.ownerKey at hf
  rw [hf]
  beta_reduce
  rw [h]

/-- The bytes of a store stand where they stood, if every thread is found with its keys. -/
theorem State.ownerKey_congr {s t : State} {e e' : Engine} (ho : e'.ownerThread = e.ownerThread)
    (h : ∀ k, (t.getThread k).map Core.localKey = (s.getThread k).map Core.localKey) (p a : Nat) :
    t.ownerKey e' p a = s.ownerKey e p a := by
  have hk := h (e.ownerThread p)
  cases hs : s.getThread (e.ownerThread p) with
  | none =>
    rw [hs, Option.map_none, Option.map_eq_none_iff] at hk
    rw [State.ownerKey_of_none hs, State.ownerKey_of_none (by rw [ho]; exact hk), ho]
  | some c =>
    rw [hs, Option.map_some] at hk
    obtain ⟨d, hd, he⟩ := Option.map_eq_some_iff.mp hk
    rw [State.ownerKey_of_some hs, State.ownerKey_of_some (by rw [ho]; exact hd), he]

/-- The bytes of an owner's store stand apart from those of a bank. -/
theorem keyLocal_offState {c a n eng i : Nat} (hc : c < 2 ^ 23) (ha : a + n < 2 ^ 23) :
    offState eng i (keyLocal c a) n := by
  unfold offState keyLocal keyBank
  omega

theorem keyImage_offState {k a n eng i : Nat} (he : eng < 2 ^ 19) (hi : i < 2 ^ 16) :
    offState eng i (keyImage k a) n := by
  unfold offState keyImage keyBank
  omega

theorem Core.localKey_offState (c : Core) {a n eng i : Nat} (he : eng < 2 ^ 19) (hi : i < 2 ^ 16) (ha : a + n < 2 ^ 23) :
    offState eng i (c.localKey a) n := by
  unfold Core.localKey
  by_cases h : c.image = true
  · rw [if_pos h]
    exact keyImage_offState he hi
  · rw [if_neg h]
    exact keyLocal_offState c.addr.isLt ha

theorem threadCore_lt (k : Nat) : threadCore k < 2 ^ 23 := Nat.mod_lt k (by decide)

theorem State.ownerKey_offState (s : State) (e : Engine) (p : Nat) {a n eng i : Nat} (he : eng < 2 ^ 19) (hi : i < 2 ^ 16)
    (ha : a + n < 2 ^ 23) : offState eng i (s.ownerKey e p a) n := by
  cases h : s.getThread (e.ownerThread p) with
  | none => rw [State.ownerKey_of_none h]; exact keyLocal_offState (threadCore_lt _) ha
  | some c => rw [State.ownerKey_of_some h]; exact c.localKey_offState he hi ha

/-! ### The fan-out -/

theorem countUp_toNat (x : BitVec 32) : (countUp x).toNat = min (2 ^ 32 - 1) (x.toNat + 1) := by
  have hx := x.isLt
  unfold countUp
  split
  · omega
  · rw [BitVec.toNat_add, show (1 : BitVec 32).toNat = 1 from rfl]
    omega

/-- From `s` to `t` fan-out events and lost ones may be more, and errors may be counted in contexts of threads. -/
structure FanStep (eng : Nat) (s t : State) : Prop where
  frame : t = { s with engines := t.engines, evnet := t.evnet, core := t.core, others := t.others, saved := t.saved }
  engines : ∀ d, d ≠ eng → t.engine d = s.engine d
  engine : ∃ l, t.engine eng = { s.engine eng with fanlost := l }
  keys : ∀ k, (t.getThread k).map Core.localKey = (s.getThread k).map Core.localKey

theorem FanStep.refl (eng : Nat) (s : State) : FanStep eng s s :=
  ⟨rfl, fun _ _ => rfl, ⟨(s.engine eng).fanlost, rfl⟩, fun _ => rfl⟩

theorem FanStep.trans {eng : Nat} {s t u : State} (h : FanStep eng s t) (h' : FanStep eng t u) : FanStep eng s u := by
  have hf := h'.frame
  rw [h.frame] at hf
  obtain ⟨l, hl⟩ := h.engine
  obtain ⟨l', hl'⟩ := h'.engine
  exact ⟨hf, fun d hd => (h'.engines d hd).trans (h.engines d hd), ⟨l', by rw [hl', hl]⟩,
    fun k => (h'.keys k).trans (h.keys k)⟩

theorem FanStep.mem {eng : Nat} {s t : State} (h : FanStep eng s t) : t.mem = s.mem := (congrArg State.mem h.frame :)

theorem FanStep.poisonHit {eng : Nat} {s t : State} (h : FanStep eng s t) (k n : Nat) : t.poisonHit k n = s.poisonHit k n :=
  State.poisonHit_congr (congrArg State.pkgs h.frame :) (congrArg State.poison h.frame :) k n

theorem FanStep.ownerThread {eng : Nat} {s t : State} (h : FanStep eng s t) :
    (t.engine eng).ownerThread = (s.engine eng).ownerThread := by
  obtain ⟨l, hl⟩ := h.engine
  rw [hl]
  rfl

theorem FanStep.ownerKey {eng : Nat} {s t : State} (h : FanStep eng s t) (p a : Nat) :
    t.ownerKey (t.engine eng) p a = s.ownerKey (s.engine eng) p a := State.ownerKey_congr h.ownerThread h.keys p a

theorem FanStep.eventReaches {eng : Nat} {s t : State} (h : FanStep eng s t) (a b : Nat) :
    t.eventReaches a b = s.eventReaches a b := by
  rw [h.frame]
  rfl

/-- One more event lost. -/
theorem State.countFanLost_step (s : State) (eng : Nat) :
    FanStep eng s (s.countFanLost (some eng)) ∧ (s.countFanLost (some eng)).evnet = s.evnet ∧
      ((s.countFanLost (some eng)).engine eng).fanlost = countUp (s.engine eng).fanlost := by
  have he : (s.countFanLost (some eng)).engine eng = _ := s.engine_modEngine_self eng _
  refine ⟨⟨rfl, fun d hd => s.engine_modEngine_of_ne hd _, ⟨_, he⟩, fun _ => rfl⟩, rfl, ?_⟩
  rw [he, ← satInc_eq_countUp]

/-- An error counted at a context. -/
def Core.readLost (c : Core) : Core := { c with faults := { c.faults with lsue := satInc c.faults.lsue } }

theorem State.readLost_step (s : State) (eng k : Nat) :
    FanStep eng s (s.atThread k (·.on Core.readLost)) ∧ (s.atThread k (·.on Core.readLost)).evnet = s.evnet ∧
      (s.atThread k (·.on Core.readLost)).engine eng = s.engine eng := by
  have hkeys := s.getThread_atThread_on k (f := Core.readLost) (g := Core.localKey) (fun _ => rfl) (fun _ => rfl) fun _ => rfl
  obtain ⟨c, o, v, h⟩ := s.atThread_on_frame k Core.readLost
  rw [h] at hkeys ⊢
  exact ⟨⟨rfl, fun _ _ => rfl, ⟨_, rfl⟩, hkeys⟩, rfl, rfl⟩

theorem State.fanError_step (s : State) (eng p : Nat) :
    FanStep eng s (s.fanError eng p) ∧ (s.fanError eng p).evnet = s.evnet ∧
      ((s.fanError eng p).engine eng).fanlost = countUp (s.engine eng).fanlost := by
  obtain ⟨h, hev, heng⟩ := s.readLost_step eng ((s.engine eng).ownerThread p)
  obtain ⟨h', hev', hl⟩ := (s.atThread ((s.engine eng).ownerThread p) (·.on Core.readLost)).countFanLost_step eng
  exact ⟨h.trans h', hev'.trans hev, hl.trans (by rw [heng])⟩

end Sys2Proof.Machine
end

section

namespace Sys2Proof.Machine

open Sys2Proof.Claims

/-! ### The entries of a fan-out (R324) -/

/-- The reserved bits of an entry. -/
theorem fanWord_reserved (x : Nat) : (bitOf (BitVec.ofNat 64 x) 63 || x.testBit 87 || bitsAt x 88 40 != 0) = false ↔
    x / 2 ^ 63 % 2 = 0 ∧ x / 2 ^ 87 % 2 ^ 41 = 0 := by
  have h63 : bitOf (BitVec.ofNat 64 x) 63 = x.testBit 63 := by
    unfold bitOf
    rw [BitVec.getLsbD_ofNat, decide_eq_true (by decide), Bool.true_and]
  rw [h63, Bool.or_eq_false_iff, Bool.or_eq_false_iff, bne_eq_false_iff_eq, Nat.testBit_eq_decide_div_mod_eq,
    Nat.testBit_eq_decide_div_mod_eq, decide_eq_false_iff_not, decide_eq_false_iff_not]
  unfold bitsAt
  omega

theorem evTime_ofNat (x : Nat) : evTime (BitVec.ofNat 64 x) = x / 2 ^ 36 % 2 ^ 27 := by
  unfold evTime bitsAt
  rw [BitVec.toNat_ofNat]
  omega

section Entry

variable {b s : State} {eng p t ent k : Nat} (h : FanStep eng b s)
include h

theorem State.fanSent_keeps (a : Nat) : fanSent s eng p t a = fanSent b eng p t a := by
  unfold fanSent
  dsimp only
  rw [h.ownerKey, h.mem, h.poisonHit, h.eventReaches, h.ownerThread]

end Entry

/-- What the fan-out entry at an address holds (R324). -/
def State.fanBits (s : State) (eng p a : Nat) : Nat := s.mem.read (s.ownerKey (s.engine eng) p a) 16

/-- An entry that is sent. -/
def State.fanGood (s : State) (eng p a : Nat) : Prop :=
  a + 16 ≤ 0x180000 ∧ s.poisonHit (s.ownerKey (s.engine eng) p a) 16 = false ∧ s.fanBits eng p a / 2 ^ 63 % 2 = 0 ∧
    s.fanBits eng p a / 2 ^ 87 % 2 ^ 41 = 0 ∧
    s.eventReaches (clusterCore eng 0) (s.fanBits eng p a / 2 ^ 64 % 2 ^ 23) = true

/-- The event of an entry. -/
def State.fanEvent (s : State) (eng p t a : Nat) : EvMsg :=
  { src := (s.engine eng).ownerThread p, engine := some eng, target := unitOf (s.fanBits eng p a / 2 ^ 64 % 2 ^ 23)
    w := BitVec.ofNat 64 (s.fanBits eng p a), t := some ((t + s.fanBits eng p a / 2 ^ 36 % 2 ^ 27) % 2 ^ 48) }

theorem fanSent_of_good {s : State} {eng p a : Nat} (t : Nat) (h : s.fanGood eng p a) :
    fanSent s eng p t a = some (s.fanEvent eng p t a) := if_pos h

theorem fanSent_of_not_good {s : State} {eng p a : Nat} (t : Nat) (h : ¬ s.fanGood eng p a) : fanSent s eng p t a = none :=
  if_neg h

theorem State.fanEntry_of_good {s : State} {eng p t ent k : Nat} (h : s.fanGood eng p (ent + 16 * k)) :
    s.fanEntry eng p t ent k = { s with evnet := s.evnet ++ [s.fanEvent eng p t (ent + 16 * k)] } := by
  obtain ⟨hstore, hintact, h63, h87, hreach⟩ := h
  unfold State.fanEntry
  dsimp only
  have hres := (fanWord_reserved _).mpr ⟨h63, h87⟩
  unfold State.fanBits at hres hreach
  rw [if_neg (Nat.not_lt.mpr hstore), if_neg (by rw [hintact]; exact Bool.false_ne_true), if_neg, evTime_ofNat]
  · rfl
  · rw [hres, bitsAt, hreach]
    exact Bool.false_ne_true

theorem State.fanEntry_of_not_good {s : State} {eng p t ent k : Nat} (h : ¬ s.fanGood eng p (ent + 16 * k)) :
    s.fanEntry eng p t ent k = s.countFanLost (some eng) ∨ s.fanEntry eng p t ent k = s.fanError eng p := by
  unfold State.fanEntry
  dsimp only
  by_cases hstore : 0x180000 < ent + 16 * k + 16
  · exact Or.inl (if_pos hstore)
  rw [if_neg hstore]
  by_cases hp : s.poisonHit (s.ownerKey (s.engine eng) p (ent + 16 * k)) 16 = true
  · exact Or.inr (if_pos hp)
  rw [if_neg hp]
  refine Or.inl (if_pos ?_)
  by_contra hc
  rw [Bool.not_eq_true, Bool.or_eq_false_iff, Bool.not_eq_false'] at hc
  obtain ⟨h63, h87⟩ := (fanWord_reserved _).mp hc.1
  exact h ⟨Nat.not_lt.mp hstore, Bool.eq_false_of_not_eq_true hp, h63, h87, hc.2⟩

/-- An entry is sent, or counted as lost. -/
theorem State.fanEntry_step (s : State) (eng p t ent k : Nat) :
    FanStep eng s (s.fanEntry eng p t ent k) ∧
      (∀ m, fanSent s eng p t (ent + 16 * k) = some m → (s.fanEntry eng p t ent k).evnet = s.evnet ++ [m] ∧
        ((s.fanEntry eng p t ent k).engine eng).fanlost = (s.engine eng).fanlost) ∧
      (fanSent s eng p t (ent + 16 * k) = none → (s.fanEntry eng p t ent k).evnet = s.evnet ∧
        ((s.fanEntry eng p t ent k).engine eng).fanlost = countUp (s.engine eng).fanlost) := by
  by_cases hg : s.fanGood eng p (ent + 16 * k)
  · rw [fanSent_of_good t hg, State.fanEntry_of_good hg]
    refine ⟨⟨rfl, fun _ _ => rfl, ⟨_, rfl⟩, fun _ => rfl⟩, fun m hm => ?_, fun hn => absurd hn (by simp)⟩
    exact ⟨by rw [Option.some.inj hm], rfl⟩
  · rw [fanSent_of_not_good t hg]
    have hstep : FanStep eng s (s.fanEntry eng p t ent k) ∧ (s.fanEntry eng p t ent k).evnet = s.evnet ∧
        ((s.fanEntry eng p t ent k).engine eng).fanlost = countUp (s.engine eng).fanlost := by
      rcases State.fanEntry_of_not_good hg with he | he
      · rw [he]; exact s.countFanLost_step eng
      · rw [he]; exact s.fanError_step eng p
    exact ⟨hstep.1, fun m hm => absurd hm (by simp), fun _ => hstep.2⟩

/-- The entries of a fan-out are sent in their order, and the others counted (R324). -/
theorem State.fanEntries_step (eng p t ent : Nat) (ks : List Nat) (s : State) :
    let r := ks.foldl (State.fanEntry eng p t ent) s
    let ms := ks.filterMap fun k => fanSent s eng p t (ent + 16 * k)
    FanStep eng s r ∧ r.evnet = s.evnet ++ ms ∧
      (r.engine eng).fanlost.toNat = min (2 ^ 32 - 1) ((s.engine eng).fanlost.toNat + (ks.length - ms.length)) := by
  induction ks generalizing s with
  | nil =>
    have hlt := (s.engine eng).fanlost.isLt
    exact ⟨FanStep.refl eng s, (List.append_nil _).symm, (Nat.min_eq_right (by omega)).symm⟩
  | cons k ks ih =>
    intro r ms
    obtain ⟨hstep, hsome, hnone⟩ := s.fanEntry_step eng p t ent k
    obtain ⟨hrest, hev, hlost⟩ := ih (s.fanEntry eng p t ent k)
    simp only [State.fanSent_keeps hstep] at hev hlost
    have hle := List.length_filterMap_le (fun k => fanSent s eng p t (ent + 16 * k)) ks
    refine ⟨hstep.trans hrest, ?_⟩
    show (ks.foldl (State.fanEntry eng p t ent) (s.fanEntry eng p t ent k)).evnet = _ ∧
      ((ks.foldl (State.fanEntry eng p t ent) (s.fanEntry eng p t ent k)).engine eng).fanlost.toNat = _
    rw [hev, hlost]
    cases hk : fanSent s eng p t (ent + 16 * k) with
    | some m =>
      obtain ⟨hm, hl⟩ := hsome m hk
      have hms : ms = m :: ks.filterMap fun k => fanSent s eng p t (ent + 16 * k) := List.filterMap_cons_some hk
      rw [hms, hm, hl, List.append_assoc, List.length_cons, List.length_cons, Nat.add_sub_add_right]
      exact ⟨rfl, rfl⟩
    | none =>
      obtain ⟨hm, hl⟩ := hnone hk
      have hms : ms = ks.filterMap fun k => fanSent s eng p t (ent + 16 * k) := List.filterMap_cons_none hk
      rw [hms, hm, hl, countUp_toNat, List.length_cons]
      exact ⟨rfl, by omega⟩

/-- What a state sends as it fires (R324). -/
theorem State.fanOut_fannedOut (s : State) (eng p t i : Nat) :
    FanStep eng s (s.fanOut eng p t i (s.popDesc eng p)) ∧
      fannedOut eng p i t s (s.fanOut eng p t i (s.popDesc eng p)) := by
  unfold State.fanOut fannedOut
  dsimp only
  split
  · obtain ⟨hstep, hev, hl⟩ := s.fanError_step eng p
    exact ⟨hstep, hev, by rw [hl, countUp_toNat]⟩
  · exact s.fanEntries_step eng p t _ _

/-! ### What a step of the bank leaves -/

section Bank

variable {s b : State} {eng i : Nat} (he : eng < 2 ^ 19) (hi : i < 2 ^ 16) (h : BankStep eng i s b)
include h

theorem BankStep.getThread (k : Nat) : b.getThread k = s.getThread k := by
  unfold State.getThread State.getCore
  rw [h.core, h.others, h.saved]

theorem BankStep.eventReaches (x y : Nat) : b.eventReaches x y = s.eventReaches x y := by
  rw [h.frame]
  rfl

theorem BankStep.ownerKey (ho : (b.engine eng).owners = (s.engine eng).owners) (p a : Nat) :
    b.ownerKey (b.engine eng) p a = s.ownerKey (s.engine eng) p a := by
  refine State.ownerKey_congr ?_ (fun k => congrArg _ (h.getThread k)) p a
  unfold Engine.ownerThread Engine.owner
  rw [ho]

include he hi

theorem BankStep.popDesc (p : Nat) : b.popDesc eng p = s.popDesc eng p :=
  h.read (by unfold offState keyPop keyBank; omega)

theorem BankStep.fanSent (ho : (b.engine eng).owners = (s.engine eng).owners) (p t a : Nat) :
    fanSent b eng p t a = fanSent s eng p t a := by
  by_cases ha : a + 16 ≤ 0x180000
  · have hoff : offState eng i (s.ownerKey (s.engine eng) p a) 16 := s.ownerKey_offState _ p he hi (by omega)
    have hown : (b.engine eng).ownerThread p = (s.engine eng).ownerThread p := by
      unfold Engine.ownerThread Engine.owner
      rw [ho]
    unfold Claims.fanSent
    dsimp only
    rw [h.ownerKey ho, h.read hoff, h.errors _ _ hoff, h.eventReaches, hown]
  · exact (if_neg fun hg => ha hg.1).trans (if_neg fun hg => ha hg.1).symm

/-- A fan-out after a step of the bank reads what it would have read before. -/
theorem BankStep.fannedOut {r t : State} {p now : Nat} (ho : (b.engine eng).owners = (s.engine eng).owners)
    (hl : (b.engine eng).fanlost = (s.engine eng).fanlost) (hf : fannedOut eng p i now b r) (hev : t.evnet = r.evnet)
    (hfl : (t.engine eng).fanlost = (r.engine eng).fanlost) : fannedOut eng p i now s t := by
  have ha : popField (s.popDesc eng p) 0x18 21 + 4 * (i - popBase (s.popDesc eng p)) + 8 < 2 ^ 23 := by
    have := bitsAt_lt (s.popDesc eng p) (8 * 0x18) 21
    unfold popField
    omega
  unfold Claims.fannedOut at hf ⊢
  dsimp only at hf ⊢
  rw [h.popDesc he hi] at hf
  generalize popField (s.popDesc eng p) 0x18 21 + 4 * (i - popBase (s.popDesc eng p)) = a at ha hf ⊢
  simp only [h.ownerKey ho, h.fanSent he hi ho] at hf
  rw [h.read (s.ownerKey_offState _ p he hi (by omega)), h.read (s.ownerKey_offState _ p he hi (by omega)),
    h.errors _ _ (s.ownerKey_offState _ p he hi ha), h.evnet, hl] at hf
  rw [hev, hfl]
  exact hf

end Bank

end Sys2Proof.Machine
end

section

/-! ## A state that fires (R324) -/

namespace Sys2Proof.Machine

open Sys2Proof.Claims

/-! ### The fire record -/

/-- The thread that takes the fire records of a population. -/
def State.mailTarget (s : State) (eng p : Nat) : Option Nat :=
  (s.anyThread ((s.engine eng).ownerThread p)).bind fun o =>
    if s.coresReach (clusterCore eng 0) (popField (s.popDesc eng p) 0x14 23) then
      s.storeOwner o.ctl.pid (popField (s.popDesc eng p) 0x14 23) else none

theorem State.mailTarget_of_some {s : State} {eng p : Nat} {o : Core} (h : s.anyThread ((s.engine eng).ownerThread p) = some o) :
    s.mailTarget eng p = if s.coresReach (clusterCore eng 0) (popField (s.popDesc eng p) 0x14 23) then
      s.storeOwner o.ctl.pid (popField (s.popDesc eng p) 0x14 23) else none := by
  unfold State.mailTarget
  rw [h]
  rfl

theorem State.mailTarget_of_none {s : State} {eng p : Nat} (h : s.anyThread ((s.engine eng).ownerThread p) = none) :
    s.mailTarget eng p = none := by
  unfold State.mailTarget
  rw [h]
  rfl

section Mail

variable {s : State} {eng p : Nat}

/-- The record is posted, or counted as lost. -/
theorem State.fireMail_of_some {k : Nat} (h : s.mailTarget eng p = some k) (t i fires : Nat) :
    s.fireMail eng p t i fires (s.popDesc eng p) =
      s.postMail { target := k, record := fireRecord eng p t i fires, src := .engine eng } := by
  obtain ⟨f, hf⟩ : ∃ f, f = State.fireMail := ⟨_, rfl⟩
  rw [← hf]
  delta State.fireMail at hf
  rw [hf]
  beta_reduce
  dsimp only
  cases ho : s.anyThread ((s.engine eng).ownerThread p) with
  | none => rw [State.mailTarget_of_none ho] at h; exact absurd h (by simp)
  | some o =>
    rw [State.mailTarget_of_some ho] at h
    dsimp only
    rw [h]

theorem State.fireMail_of_none (h : s.mailTarget eng p = none) (t i fires : Nat) :
    s.fireMail eng p t i fires (s.popDesc eng p) = s.modEngine eng fun e => { e with reclost := satInc e.reclost } := by
  obtain ⟨f, hf⟩ : ∃ f, f = State.fireMail := ⟨_, rfl⟩
  rw [← hf]
  delta State.fireMail at hf
  rw [hf]
  beta_reduce
  dsimp only
  cases ho : s.anyThread ((s.engine eng).ownerThread p) with
  | none => rfl
  | some o =>
    rw [State.mailTarget_of_some ho] at h
    dsimp only
    rw [h]

theorem mailed_some_iff {t : State} {k : Nat} (x : BitVec 128) (h : s.mailTarget eng p = some k) :
    mailed eng p x s t ↔ t.posts = s.posts ++ [{ target := k, record := x, src := .engine eng }] ∧
      (t.engine eng).reclost = (s.engine eng).reclost := by
  obtain ⟨f, hf⟩ : ∃ f, f = mailed := ⟨_, rfl⟩
  rw [← hf]
  delta Claims.mailed at hf
  rw [hf]
  beta_reduce
  dsimp only
  cases ho : s.anyThread ((s.engine eng).ownerThread p) with
  | none => rw [State.mailTarget_of_none ho] at h; exact absurd h (by simp)
  | some o =>
    rw [State.mailTarget_of_some ho] at h
    dsimp only
    rw [h]

theorem mailed_none_iff {t : State} (x : BitVec 128) (h : s.mailTarget eng p = none) :
    mailed eng p x s t ↔ t.posts = s.posts ∧ (t.engine eng).reclost = countUp (s.engine eng).reclost := by
  obtain ⟨f, hf⟩ : ∃ f, f = mailed := ⟨_, rfl⟩
  rw [← hf]
  delta Claims.mailed at hf
  rw [hf]
  beta_reduce
  dsimp only
  cases ho : s.anyThread ((s.engine eng).ownerThread p) with
  | none => exact Iff.rfl
  | some o =>
    rw [State.mailTarget_of_some ho] at h
    dsimp only
    rw [h]

end Mail

theorem State.anyThread_congr {s t : State} {k : Nat} (h : t.getThread k = s.getThread k) (he : t.ended = s.ended) :
    t.anyThread k = s.anyThread k := by
  obtain ⟨f, hf⟩ : ∃ f, f = State.anyThread := ⟨_, rfl⟩
  rw [← hf]
  delta State.anyThread at hf
  rw [hf]
  beta_reduce
  rw [h, he]

/-! ### What a delivery may touch -/

/-- From `s` to `t` the engine, the bytes of one of its states and the errors there, posts, events on their way and contexts of
threads may differ. -/
structure Delivering (eng i : Nat) (s t : State) : Prop where
  frame : t = { s with
    engines := t.engines, mem := t.mem, poison := t.poison, posts := t.posts, evnet := t.evnet, core := t.core
    others := t.others, saved := t.saved }
  engines : ∀ d, d ≠ eng → t.engine d = s.engine d
  bytes : ∀ k, offState eng i k 1 → t.mem.byte k = s.mem.byte k

theorem Delivering.trans {eng i : Nat} {s t u : State} (h : Delivering eng i s t) (h' : Delivering eng i t u) :
    Delivering eng i s u := by
  have hf := h'.frame
  rw [h.frame] at hf
  exact ⟨hf, fun d hd => (h'.engines d hd).trans (h.engines d hd), fun k hk => (h'.bytes k hk).trans (h.bytes k hk)⟩

theorem BankStep.delivering {eng i : Nat} {s t : State} (h : BankStep eng i s t) : Delivering eng i s t :=
  ⟨by rw [h.frame], h.engines, h.bytes⟩

theorem FanStep.delivering {eng i : Nat} {s t : State} (h : FanStep eng s t) : Delivering eng i s t :=
  ⟨by rw [h.frame], h.engines, fun _ _ => by rw [h.mem]⟩

/-- A record goes to the thread to which it would have gone, as long as no context has changed. -/
theorem Delivering.mailTarget {eng i : Nat} {s t : State} (h : Delivering eng i s t) (hc : t.core = s.core)
    (ho : t.others = s.others) (hs : t.saved = s.saved) (hown : (t.engine eng).owners = (s.engine eng).owners)
    {p : Nat} (hd : t.popDesc eng p = s.popDesc eng p) : t.mailTarget eng p = s.mailTarget eng p := by
  have hpkgs : t.pkgs = s.pkgs := (congrArg State.pkgs h.frame :)
  have hget : ∀ c, t.getCore c = s.getCore c := fun c => by
    unfold State.getCore
    rw [hc, ho]
  have hthread : (t.engine eng).ownerThread p = (s.engine eng).ownerThread p := by
    unfold Engine.ownerThread Engine.owner
    rw [hown]
  have hany : t.anyThread ((t.engine eng).ownerThread p) = s.anyThread ((s.engine eng).ownerThread p) := by
    rw [hthread]
    refine State.anyThread_congr ?_ (congrArg State.ended h.frame :)
    unfold State.getThread
    rw [hget, hs]
  have hreach : ∀ x y, t.coresReach x y = s.coresReach x y := fun x y => by
    rw [h.frame]
    rfl
  have hexists : ∀ c, t.coreExists c = s.coreExists c := fun c => by
    unfold State.coreExists
    rw [State.getPkg_congr hpkgs]
  have hstore : ∀ x c, t.storeOwner x c = s.storeOwner x c := fun x c => by
    unfold State.storeOwner
    rw [hget, hexists, hs]
  unfold State.mailTarget
  rw [hany, hd]
  simp only [hreach, hstore]

/-- A record that is posted after a step of the bank is posted where it would have been. -/
theorem BankStep.mailed {eng i p : Nat} {x : BitVec 128} {s b t : State} (he : eng < 2 ^ 19) (hi : i < 2 ^ 16)
    (h : BankStep eng i s b) (hown : (b.engine eng).owners = (s.engine eng).owners)
    (hrec : (b.engine eng).reclost = (s.engine eng).reclost) (hm : mailed eng p x b t) : mailed eng p x s t := by
  have htarget := h.delivering.mailTarget h.core h.others h.saved hown (h.popDesc he hi p)
  cases hk : s.mailTarget eng p with
  | some k =>
    rw [mailed_some_iff x (htarget.trans hk), h.posts, hrec] at hm
    exact (mailed_some_iff x hk).mpr hm
  | none =>
    rw [mailed_none_iff x (htarget.trans hk), h.posts, hrec] at hm
    exact (mailed_none_iff x hk).mpr hm

/-- A fire record, posted or lost. -/
theorem State.fireMail_step (s : State) (eng i p t j fires : Nat) :
    let r := s.fireMail eng p t j fires (s.popDesc eng p)
    Delivering eng i s r ∧ r.mem = s.mem ∧ r.poison = s.poison ∧ r.evnet = s.evnet ∧ r.core = s.core ∧
      r.others = s.others ∧ r.saved = s.saved ∧ (∃ l, r.engine eng = { s.engine eng with reclost := l }) ∧
      (∀ k, s.mailTarget eng p = some k →
        r.posts = s.posts ++ [{ target := k, record := fireRecord eng p t j fires, src := .engine eng }] ∧
          (r.engine eng).reclost = (s.engine eng).reclost) ∧
      (s.mailTarget eng p = none → r.posts = s.posts ∧ (r.engine eng).reclost = countUp (s.engine eng).reclost) := by
  intro r
  cases hm : s.mailTarget eng p with
  | some k =>
    have hr : r = _ := State.fireMail_of_some hm t j fires
    rw [hr]
    refine ⟨⟨rfl, fun _ _ => rfl, fun _ _ => rfl⟩, rfl, rfl, rfl, rfl, rfl, rfl, ⟨_, rfl⟩, fun k' hk => ?_,
      fun hn => absurd hn (by simp)⟩
    rw [← Option.some.inj hk]
    exact ⟨rfl, rfl⟩
  | none =>
    have hr : r = _ := State.fireMail_of_none hm t j fires
    rw [hr]
    have he := s.engine_modEngine_self eng fun e => { e with reclost := satInc e.reclost }
    refine ⟨(s.modEngine_step eng i _).delivering, rfl, rfl, rfl, rfl, rfl, rfl, ⟨_, he⟩,
      fun k hk => absurd hk (by simp), fun _ => ⟨rfl, ?_⟩⟩
    rw [he, ← satInc_eq_countUp]

end Sys2Proof.Machine
end

section

namespace Sys2Proof.Machine

open Sys2Proof.Claims

/-! ### Firing -/

/-- The state that a firing leaves in the bank. -/
def State.firedState (s : State) (eng p t i : Nat) : NState :=
  { s.bankState eng i with
    v := popField (s.popDesc eng p) 0x0C 32, last := max (s.bankState eng i).last t
    refr := popField (s.popDesc eng p) 0x10 16, fires := min ((s.bankState eng i).fires + 1) 0xFFFF }

/-- A firing up to its fan-out: the state is reset and counted. -/
def State.fireReset (s : State) (eng p t i : Nat) : State :=
  (s.putBank eng i (s.firedState eng p t i)).modEngine eng fun e => { e with fired := satInc e.fired }

/-- A firing up to its fire record. -/
def State.fireFan (s : State) (eng p t i : Nat) : State :=
  if popFan (s.popDesc eng p) then (s.fireReset eng p t i).fanOut eng p t i (s.popDesc eng p) else s.fireReset eng p t i

theorem State.fire_eq (s : State) (eng p t i : Nat) :
    s.fire eng p t i = if popMbx (s.popDesc eng p) then
      (s.fireFan eng p t i).fireMail eng p t i (s.firedState eng p t i).fires (s.popDesc eng p) else s.fireFan eng p t i := rfl

theorem State.fireReset_step (s : State) (eng p t i : Nat) :
    BankStep eng i s (s.fireReset eng p t i) ∧
      (∃ b, (s.fireReset eng p t i).engine eng =
        { s.engine eng with bankue := b, fired := countUp (s.engine eng).fired }) ∧
      (s.fireReset eng p t i).bankState eng i = s.readBack eng i (s.firedState eng p t i) := by
  obtain ⟨hstep, ⟨b, hb⟩, hbank⟩ := s.putBank_spec eng i (s.firedState eng p t i)
  refine ⟨hstep.trans (State.modEngine_step _ eng i _), ⟨b, ?_⟩, (State.bankState_modEngine _ eng eng i _).trans hbank⟩
  refine (State.engine_modEngine_self _ eng _).trans ?_
  rw [hb, ← satInc_eq_countUp]

section Fire

variable {eng i : Nat} (he : eng < 2 ^ 19) (hi : i < 2 ^ 16)
include he hi

theorem State.fireFan_step (s : State) (p t : Nat) :
    FanStep eng (s.fireReset eng p t i) (s.fireFan eng p t i) ∧
      (popFan (s.popDesc eng p) = false → s.fireFan eng p t i = s.fireReset eng p t i) ∧
      (popFan (s.popDesc eng p) = true →
        fannedOut eng p i t (s.fireReset eng p t i) (s.fireFan eng p t i)) := by
  obtain ⟨hstep, -, -⟩ := s.fireReset_step eng p t i
  unfold State.fireFan
  cases hf : popFan (s.popDesc eng p) with
  | false => exact ⟨FanStep.refl _ _, fun _ => rfl, fun h => absurd h (by simp)⟩
  | true =>
    rw [if_pos rfl, ← hstep.popDesc he hi]
    obtain ⟨h1, h2⟩ := (s.fireReset eng p t i).fanOut_fannedOut eng p t i
    exact ⟨h1, fun h => absurd h (by simp), fun _ => h2⟩

theorem State.fireFan_popDesc (s : State) (p t : Nat) : (s.fireFan eng p t i).popDesc eng p = s.popDesc eng p := by
  obtain ⟨hreset, -, -⟩ := s.fireReset_step eng p t i
  obtain ⟨hfan, -, -⟩ := State.fireFan_step he hi s p t
  unfold State.popDesc
  rw [hfan.mem]
  exact hreset.popDesc he hi p

/-- What a state that fires leaves of the rest, and in the bank. -/
theorem State.fire_step (s : State) (p t : Nat) :
    let r := s.fire eng p t i
    Delivering eng i s r ∧
      (∃ b fl rl, r.engine eng =
        { s.engine eng with bankue := b, fired := countUp (s.engine eng).fired, fanlost := fl, reclost := rl }) ∧
      r.bankState eng i = s.readBack eng i (s.firedState eng p t i) := by
  obtain ⟨hreset, ⟨b, hb⟩, hbank⟩ := s.fireReset_step eng p t i
  obtain ⟨hfan, -, -⟩ := State.fireFan_step he hi s p t
  obtain ⟨fl, hfl⟩ := hfan.engine
  have hfanbank : (s.fireFan eng p t i).bankState eng i = (s.fireReset eng p t i).bankState eng i :=
    State.bankState_congr hfan.mem (congrArg State.poison hfan.frame :) (congrArg State.pkgs hfan.frame :) eng i
  have hdel := hreset.delivering.trans (hfan.delivering (i := i))
  rw [State.fire_eq]
  cases popMbx (s.popDesc eng p) with
  | false => exact ⟨hdel, ⟨b, fl, (s.engine eng).reclost, by rw [if_neg Bool.false_ne_true, hfl, hb]⟩, hfanbank.trans hbank⟩
  | true =>
    rw [if_pos rfl, ← State.fireFan_popDesc he hi s p t]
    obtain ⟨hmail, hmem, hpoison, -, -, -, -, ⟨rl, hrl⟩, -⟩ :=
      (s.fireFan eng p t i).fireMail_step eng i p t i (s.firedState eng p t i).fires
    refine ⟨hdel.trans hmail, ⟨b, fl, rl, by rw [hrl, hfl, hb]⟩, ?_⟩
    exact (State.bankState_congr hmem hpoison (congrArg State.pkgs hmail.frame :) eng i).trans (hfanbank.trans hbank)

/-- The fire record leaves the fan-out and the contexts. -/
theorem State.fire_fireFan (s : State) (p t : Nat) :
    let r := s.fire eng p t i
    let g := s.fireFan eng p t i
    r.core = g.core ∧ r.others = g.others ∧ r.saved = g.saved ∧ r.evnet = g.evnet ∧
      (r.engine eng).fanlost = (g.engine eng).fanlost := by
  rw [State.fire_eq]
  cases popMbx (s.popDesc eng p) with
  | false => exact ⟨rfl, rfl, rfl, rfl, rfl⟩
  | true =>
    rw [if_pos rfl, ← State.fireFan_popDesc he hi s p t]
    obtain ⟨-, -, -, hev, hc, ho, hs, ⟨rl, hrl⟩, -⟩ :=
      (s.fireFan eng p t i).fireMail_step eng i p t i (s.firedState eng p t i).fires
    exact ⟨hc, ho, hs, hev, by rw [hrl]⟩

/-- The fan-out of a state that fires. -/
theorem State.fire_fan (s : State) (p t : Nat) :
    let r := s.fire eng p t i
    (popFan (s.popDesc eng p) = false → r.core = s.core ∧ r.others = s.others ∧ r.saved = s.saved ∧
      r.evnet = s.evnet ∧ (r.engine eng).fanlost = (s.engine eng).fanlost) ∧
    ∀ u : State, u.evnet = r.evnet → (u.engine eng).fanlost = (r.engine eng).fanlost →
      popFan (s.popDesc eng p) = true → fannedOut eng p i t s u := by
  obtain ⟨hreset, ⟨b, hb⟩, -⟩ := s.fireReset_step eng p t i
  obtain ⟨-, hplain, hfanned⟩ := State.fireFan_step he hi s p t
  obtain ⟨hc, ho, hs, hev, hfl⟩ := State.fire_fireFan he hi s p t
  refine ⟨fun hf => ?_, fun u hu hul hf => ?_⟩
  · rw [hplain hf] at hc ho hs hev hfl
    exact ⟨hc.trans hreset.core, ho.trans hreset.others, hs.trans hreset.saved, hev.trans hreset.evnet,
      hfl.trans (by rw [hb])⟩
  · exact hreset.fannedOut he hi (by rw [hb]) (by rw [hb]) (hfanned hf) (hu.trans hev) (hul.trans hfl)

/-- The fire record of a state that fires. -/
theorem State.fire_mail (s : State) (p t : Nat) :
    let r := s.fire eng p t i
    (popMbx (s.popDesc eng p) = false → r.posts = s.posts ∧ (r.engine eng).reclost = (s.engine eng).reclost) ∧
    ∀ u : State, u.posts = r.posts → (u.engine eng).reclost = (r.engine eng).reclost →
      popMbx (s.popDesc eng p) = true → r.core = s.core → r.others = s.others → r.saved = s.saved →
        mailed eng p (fireRecord eng p t i (s.firedState eng p t i).fires) s u := by
  obtain ⟨hreset, ⟨b, hb⟩, -⟩ := s.fireReset_step eng p t i
  obtain ⟨hfan, -, -⟩ := State.fireFan_step he hi s p t
  obtain ⟨hc, ho, hs, -, -⟩ := State.fire_fireFan he hi s p t
  obtain ⟨fl, hfl⟩ := hfan.engine
  have hposts : (s.fireFan eng p t i).posts = s.posts := (congrArg State.posts hfan.frame : _).trans hreset.posts
  have hrl : ((s.fireFan eng p t i).engine eng).reclost = (s.engine eng).reclost := by rw [hfl, hb]
  have hown : ((s.fireFan eng p t i).engine eng).owners = (s.engine eng).owners := by rw [hfl, hb]
  refine ⟨fun hm => ?_, fun u hu hul hm hrc hro hrs => ?_⟩
  · rw [State.fire_eq, hm, if_neg Bool.false_ne_true]
    exact ⟨hposts, hrl⟩
  · have hdel := hreset.delivering.trans (hfan.delivering (i := i))
    have htarget := hdel.mailTarget (hc.symm.trans hrc) (ho.symm.trans hro) (hs.symm.trans hrs) hown
      (State.fireFan_popDesc he hi s p t)
    rw [State.fire_eq, hm, if_pos rfl, ← State.fireFan_popDesc he hi s p t] at hu hul
    obtain ⟨-, -, -, -, -, -, -, -, hsome, hnone⟩ :=
      (s.fireFan eng p t i).fireMail_step eng i p t i (s.firedState eng p t i).fires
    cases hk : s.mailTarget eng p with
    | some k =>
      obtain ⟨hp, hr⟩ := hsome k (htarget.trans hk)
      exact (mailed_some_iff _ hk).mpr ⟨hu.trans (hp.trans (by rw [hposts])), hul.trans (hr.trans hrl)⟩
    | none =>
      obtain ⟨hp, hr⟩ := hnone (htarget.trans hk)
      exact (mailed_none_iff _ hk).mpr ⟨hu.trans (hp.trans hposts), hul.trans (hr.trans (by rw [hrl]))⟩

end Fire

end Sys2Proof.Machine
end

section

/-! ## Delivery (R320 to R323) -/

namespace Sys2Proof.Machine

open Sys2Proof.Claims

/-! ### A NaN stays one -/

theorem round32_nan (f : BitVec 6) : (round32 (.nan, f)).1 = fp32.nanCode := rfl

theorem sumX_nan {a : FVal} (h : a.isNaN = true) (l : List FVal) (rm : BitVec 3) : (sumX (a :: l) rm).1 = .nan := by
  unfold sumX
  rw [if_pos (by rw [List.any_cons, h]; rfl)]

theorem mulF_nan (s : Bool) (b : FVal) : (mulF (.nan s) b).isNaN = true := by
  cases b <;> rfl

theorem fmaX_nan (s : Bool) (b c : FVal) (rm : BitVec 3) : (fmaX (.nan s) b c rm).1 = .nan := by
  unfold fmaX
  split
  · rfl
  · exact sumX_nan (mulF_nan s b) _ rm

theorem round32_of_nan {x : XRes} (h : x.1 = .nan) : (round32 x).1 = fp32.nanCode := by
  obtain ⟨v, f⟩ := x
  obtain rfl : v = .nan := h
  exact round32_nan f

theorem decode_nanCode : fp32.decode fp32.nanCode = .nan false := rfl

theorem reaches32_nan (theta : Nat) : reaches32 fp32.nanCode theta = false := by
  unfold reaches32
  rw [decode_nanCode]
  rfl

/-! ### The sums of a delivery (R322) -/

/-- V and the weight of an event, rounded. -/
def State.plainSum (s : State) (eng : Nat) (q : QEvent) : Nat × BitVec 6 :=
  round32 (sumX [fp32.decode (s.bankState eng (evIndex q.w)).v, bf16.decode (q.w.toNat / 2 ^ 20 % 2 ^ 16)] rmRNE)

/-- V decayed over some ticks and the weight of an event, rounded. -/
def State.decayedSum (s : State) (eng : Nat) (q : QEvent) (d : Nat) : Nat × BitVec 6 :=
  let k := s.decay eng (popLeak (s.popDesc eng (evPop q.w))) d
  let z := round32 (fmaX (fp32.decode (s.bankState eng (evIndex q.w)).v) (fp32.decode k.1)
    (bf16.decode (q.w.toNat / 2 ^ 20 % 2 ^ 16)) rmRNE)
  (z.1, z.2 ||| k.2)

/-- The sum of an event that is not dropped: decayed where it comes past the refractory ticks. -/
def State.eventSum (s : State) (eng : Nat) (q : QEvent) : Nat × BitVec 6 :=
  let n := s.bankState eng (evIndex q.w)
  if q.t < n.last ∨ q.t = n.last + n.refr then s.plainSum eng q else s.decayedSum eng q (q.t - (n.last + n.refr))

/-- An event that falls into the refractory ticks of its state, or a late one while any are left. -/
def State.drops (s : State) (eng : Nat) (q : QEvent) : Prop :=
  let n := s.bankState eng (evIndex q.w)
  if q.t < n.last then 0 < n.refr else q.t < n.last + n.refr

/-- A state written by a delivery, and the delivery counted. -/
def State.integrated (s : State) (eng i : Nat) (late : Bool) (n : NState) (f : BitVec 6) : State :=
  (((s.modEngine eng (·.countLate late)).putBank eng i n).modEngine eng (·.raise f)).modEngine eng fun e =>
    { e with deliv := satInc e.deliv }

/-- The state that an IO population keeps. -/
def State.ioState (s : State) (eng : Nat) (q : QEvent) : NState :=
  let n := s.bankState eng (evIndex q.w)
  { n with v := (s.plainSum eng q).1, last := max n.last q.t }

/-- The state that another population keeps, before it fires. -/
def State.sumState (s : State) (eng : Nat) (q : QEvent) : NState :=
  let n := s.bankState eng (evIndex q.w)
  { n with v := (s.eventSum eng q).1, last := max n.last q.t, refr := 0 }

/-- Is an event late? -/
def State.isLate (s : State) (eng : Nat) (q : QEvent) : Bool := decide (q.t < (s.bankState eng (evIndex q.w)).last)

/-- The state after an event of a population that is not IO, before it fires. -/
def State.summed (s : State) (eng : Nat) (q : QEvent) : State :=
  s.integrated eng (evIndex q.w) (s.isLate eng q) (s.sumState eng q) (s.eventSum eng q).2

section Deliver

variable {s : State} {eng : Nat} {q : QEvent}

theorem State.deliverTo_io (h : popIo (s.popDesc eng (evPop q.w)) = true) :
    s.deliverTo eng q = s.integrated eng (evIndex q.w) (s.isLate eng q) (s.ioState eng q) (s.plainSum eng q).2 := by
  unfold State.deliverTo
  dsimp only
  rw [if_pos h]
  rfl

theorem State.deliverTo_drop (hio : popIo (s.popDesc eng (evPop q.w)) = false) (hd : s.drops eng q) :
    s.deliverTo eng q = (s.modEngine eng (·.countLate (s.isLate eng q))).modEngine eng fun e =>
      { e with refdrop := satInc e.refdrop } := by
  unfold State.deliverTo
  dsimp only
  rw [if_neg (by rw [hio]; exact Bool.false_ne_true), if_pos]
  · rfl
  · unfold State.drops at hd
    dsimp only at hd
    by_cases hl : q.t < (s.bankState eng (evIndex q.w)).last
    · rw [if_pos hl] at hd
      rw [decide_eq_true hl, decide_eq_true hd]
      rfl
    · rw [if_neg hl] at hd
      rw [decide_eq_false hl, decide_eq_true hd]
      rfl

/-- The ticks since a state was last refractory, none for a late event. -/
def State.eventAge (s : State) (eng : Nat) (q : QEvent) : Nat :=
  let n := s.bankState eng (evIndex q.w)
  if s.isLate eng q then 0 else q.t - (n.last + n.refr)

theorem ite_age_eq {α : Type} {t last refr : Nat} (hd : ¬ if t < last then 0 < refr else t < last + refr) (x : α) (f : Nat → α) :
    (if t < last ∨ t = last + refr then x else f (t - (last + refr))) =
      if (if decide (t < last) = true then 0 else t - (last + refr)) = 0 then x
      else f (if decide (t < last) = true then 0 else t - (last + refr)) := by
  by_cases hl : t < last
  · rw [if_pos (Or.inl hl), decide_eq_true hl, if_pos rfl, if_pos rfl]
  · rw [if_neg hl, Nat.not_lt] at hd
    rw [decide_eq_false hl, if_neg Bool.false_ne_true]
    by_cases hz : t = last + refr
    · rw [if_pos (Or.inr hz), if_pos (by omega)]
    · rw [if_neg (by omega), if_neg (by omega)]

theorem State.eventSum_eq (hd : ¬ s.drops eng q) :
    s.eventSum eng q = if s.eventAge eng q = 0 then s.plainSum eng q else s.decayedSum eng q (s.eventAge eng q) :=
  ite_age_eq hd _ _

theorem State.deliverTo_sum (hio : popIo (s.popDesc eng (evPop q.w)) = false) (hd : ¬ s.drops eng q) :
    s.deliverTo eng q =
      if reaches32 (s.eventSum eng q).1 (popField (s.popDesc eng (evPop q.w)) 0x08 32) then
        (s.summed eng q).fire eng (evPop q.w) q.t (evIndex q.w) else s.summed eng q := by
  unfold State.summed State.sumState
  rw [State.eventSum_eq hd]
  unfold State.drops at hd
  unfold State.deliverTo
  dsimp only at hd ⊢
  rw [if_neg (by rw [hio]; exact Bool.false_ne_true), if_neg]
  · rfl
  · by_cases hl : q.t < (s.bankState eng (evIndex q.w)).last
    · rw [if_pos hl] at hd
      rw [decide_eq_true hl, decide_eq_false hd]
      exact Bool.false_ne_true
    · rw [if_neg hl] at hd
      rw [decide_eq_false hl, decide_eq_false hd]
      exact Bool.false_ne_true

end Deliver

/-! ### What a delivery leaves -/

/-- A state written by a delivery reads back, and of its engine the counters of the delivery differ. -/
theorem State.integrated_step (s : State) (eng i : Nat) (late : Bool) (n : NState) (f : BitVec 6) :
    let r := s.integrated eng i late n f
    let e := s.engine eng
    BankStep eng i s r ∧ r.bankState eng i = s.readBack eng i n ∧
      ∃ b, r.engine eng = { e with
        late := if late then countUp e.late else e.late, bankue := b, flags := e.flags ||| f.setWidth 5
        deliv := countUp e.deliv } := by
  intro r e
  have hlate : (s.modEngine eng (·.countLate late)).engine eng = { e with late := if late then countUp e.late else e.late } := by
    refine (s.engine_modEngine_self eng _).trans ?_
    unfold Engine.countLate
    cases late with
    | false => rfl
    | true => rw [if_pos rfl, if_pos rfl, ← satInc_eq_countUp]
  obtain ⟨hput, ⟨b, hb⟩, hbank⟩ := (s.modEngine eng (·.countLate late)).putBank_spec eng i n
  refine ⟨(s.modEngine_step eng i _).trans (hput.trans ((State.modEngine_step _ eng i _).trans
    (State.modEngine_step _ eng i _))), ?_, b, ?_⟩
  · refine (State.bankState_modEngine _ eng eng i _).trans ((State.bankState_modEngine _ eng eng i _).trans (hbank.trans ?_))
    unfold State.readBack
    rw [State.brokenHit_congr (s := s) (t := s.modEngine eng (·.countLate late)) rfl]
  · refine (State.engine_modEngine_self _ eng _).trans ?_
    rw [State.engine_modEngine_self, hb, hlate, satInc_eq_countUp]
    rfl

end Sys2Proof.Machine
end

section

namespace Sys2Proof.Machine

open Sys2Proof.Claims

/-! ### What every delivery leaves (R320, R321, R330) -/

theorem evIndex_lt (w : Word) : evIndex w < 2 ^ 16 := bitsAt_lt _ _ _

/-- What a delivery to a population leaves: the engine's queue, the events that wait and the count of rejected ones; a late
event is counted. -/
theorem State.deliverTo_step {eng : Nat} (he : eng < 2 ^ 19) (s : State) (q : QEvent) :
    let r := s.deliverTo eng q
    let e := s.engine eng
    let u := r.engine eng
    Delivering eng (evIndex q.w) s r ∧
      (popFan (s.popDesc eng (evPop q.w)) = false → r.core = s.core ∧ r.others = s.others ∧ r.saved = s.saved) ∧
      u.queue = e.queue ∧ u.waiting = e.waiting ∧ u.arr = e.arr ∧ u.reject = e.reject ∧
      u.late = if s.isLate eng q then countUp e.late else e.late := by
  intro r e u
  have hi := evIndex_lt q.w
  cases hio : popIo (s.popDesc eng (evPop q.w)) with
  | true =>
    obtain ⟨hstep, -, b, hb⟩ := s.integrated_step eng (evIndex q.w) (s.isLate eng q) (s.ioState eng q) (s.plainSum eng q).2
    rw [← State.deliverTo_io hio] at hstep hb
    refine ⟨hstep.delivering, fun _ => ⟨hstep.core, hstep.others, hstep.saved⟩, ?_⟩
    rw [show u = _ from hb]
    exact ⟨rfl, rfl, rfl, rfl, rfl⟩
  | false =>
    by_cases hd : s.drops eng q
    · have hr : r = _ := State.deliverTo_drop hio hd
      have hstep : BankStep eng (evIndex q.w) s r := by
        rw [hr]
        exact (s.modEngine_step eng _ _).trans (State.modEngine_step _ eng _ _)
      have hu : u = _ := (congrArg (State.engine · eng) hr).trans (State.engine_modEngine_self _ eng _)
      rw [State.engine_modEngine_self] at hu
      refine ⟨hstep.delivering, fun _ => ⟨hstep.core, hstep.others, hstep.saved⟩, ?_⟩
      rw [hu]
      unfold Engine.countLate
      cases s.isLate eng q with
      | true => exact ⟨rfl, rfl, rfl, rfl, by rw [← satInc_eq_countUp]; rfl⟩
      | false => exact ⟨rfl, rfl, rfl, rfl, rfl⟩
    · obtain ⟨hstep, -, b, hb⟩ := s.integrated_step eng (evIndex q.w) (s.isLate eng q) (s.sumState eng q) (s.eventSum eng q).2
      have hr : r = _ := State.deliverTo_sum hio hd
      by_cases hfire : reaches32 (s.eventSum eng q).1 (popField (s.popDesc eng (evPop q.w)) 0x08 32) = true
      · rw [if_pos hfire] at hr
        obtain ⟨hdel, ⟨b', fl, rl, hb'⟩, -⟩ := State.fire_step he hi (s.summed eng q) (evPop q.w) q.t
        obtain ⟨hplain, -⟩ := State.fire_fan he hi (s.summed eng q) (evPop q.w) q.t
        have hu : u = _ := (congrArg (State.engine · eng) hr).trans hb'
        rw [show (s.summed eng q).engine eng = _ from hb] at hu
        have hdesc : (s.summed eng q).popDesc eng (evPop q.w) = _ := hstep.popDesc he hi (evPop q.w)
        rw [hdesc] at hplain
        refine ⟨by rw [hr]; exact hstep.delivering.trans hdel, fun hf => ?_, ?_⟩
        · obtain ⟨hc, ho, hs, -, -⟩ := hplain hf
          rw [hr]
          exact ⟨hc.trans hstep.core, ho.trans hstep.others, hs.trans hstep.saved⟩
        · rw [hu]
          exact ⟨rfl, rfl, rfl, rfl, rfl⟩
      · rw [if_neg hfire] at hr
        rw [show u = _ from (congrArg (State.engine · eng) hr).trans hb, hr]
        exact ⟨hstep.delivering, fun _ => ⟨hstep.core, hstep.others, hstep.saved⟩, rfl, rfl, rfl, rfl, rfl⟩

/-! ### The queue and what waits for it -/

/-- The state in which an event has left the queue. -/
def State.dequeued (s : State) (eng : Nat) (q : QEvent) : State :=
  s.modEngine eng fun e => { e with queue := e.queue.erase q }

theorem State.dequeued_engine (s : State) (eng : Nat) (q : QEvent) :
    (s.dequeued eng q).engine eng = { s.engine eng with queue := (s.engine eng).queue.erase q } :=
  s.engine_modEngine_self eng _

theorem State.drainEvents_engine (s : State) (eng : Nat) :
    (s.drainEvents eng).engine eng = (s.engine eng).drainOnly s.clk (s.engine eng).waiting.length :=
  s.engine_modEngine_self eng _

theorem execEventDelivery_due {s : State} {eng : Nat} {q : QEvent} (h : dueFirst s eng q) :
    execEventDelivery eng s = .next (s.deliverEvent eng q) := by
  obtain ⟨hhead, ht, hclk, hpost, hruns⟩ := h
  unfold execEventDelivery
  rw [hhead]
  exact if_pos ⟨ht, hclk, by rw [hpost]; rfl, hruns⟩

theorem State.deliverEvent_of_deliverable {s : State} {eng : Nat} {q : QEvent} (h : deliverable s eng q.w) :
    s.deliverEvent eng q = ((s.dequeued eng q).deliverTo eng q).drainEvents eng := by
  unfold deliverable at h
  unfold State.deliverEvent
  dsimp only at h ⊢
  rw [if_pos h]
  rfl

theorem withEngine_modEngine (s : State) (eng : Nat) (f : Engine → Engine) (e : Engine) :
    withEngine (s.modEngine eng f) eng e = withEngine s eng e :=
  congrArg (fun l => ({ s with engines := l } : State)) (aset_aset s.engines eng _ e)

theorem State.drainEvents_none {s : State} {eng : Nat} {e : Engine} (he : s.engine eng = e) (hw : e.waiting = []) :
    s.drainEvents eng = withEngine s eng e := by
  unfold State.drainEvents State.modEngine
  rw [he]
  beta_reduce
  rw [Engine.drainOnly_none hw]
  rfl

theorem State.deliverEvent_of_not_deliverable {s : State} {eng : Nat} {q : QEvent} (h : ¬ deliverable s eng q.w)
    (hw : (s.engine eng).waiting = []) :
    s.deliverEvent eng q = withEngine s eng { s.engine eng with
      queue := (s.engine eng).queue.erase q, reject := countUp (s.engine eng).reject } := by
  have hr : s.deliverEvent eng q =
      ((s.dequeued eng q).modEngine eng fun e => { e with reject := satInc e.reject }).drainEvents eng := by
    unfold deliverable at h
    unfold State.deliverEvent
    dsimp only at h ⊢
    rw [if_neg h]
    rfl
  have he := (s.dequeued eng q).engine_modEngine_self eng fun e => { e with reject := satInc e.reject }
  rw [State.dequeued_engine, satInc_eq_countUp] at he
  rw [hr, State.drainEvents_none he hw, withEngine_modEngine]
  exact withEngine_modEngine s eng _ _

/-- An engine that delivers loses the event from its queue, and what waits enters as there is room. -/
theorem delivered_of_deliverTo {s : State} {eng : Nat} {q : QEvent} (he : eng < 2 ^ 19) :
    delivered eng q s (((s.dequeued eng q).deliverTo eng q).drainEvents eng) := by
  obtain ⟨hdel, hquiet, hqueue, hwaiting, harr, -, -⟩ := State.deliverTo_step he (s.dequeued eng q) q
  have hstart : BankStep eng (evIndex q.w) s (s.dequeued eng q) := s.modEngine_step eng _ _
  have hend : BankStep eng (evIndex q.w) ((s.dequeued eng q).deliverTo eng q)
      (((s.dequeued eng q).deliverTo eng q).drainEvents eng) := State.modEngine_step _ eng _ _
  have hall := hstart.delivering.trans (hdel.trans hend.delivering)
  have heng := ((s.dequeued eng q).deliverTo eng q).drainEvents_engine eng
  have hclk : ((s.dequeued eng q).deliverTo eng q).clk = s.clk := (congrArg State.clk hdel.frame :)
  rw [State.dequeued_engine] at hqueue hwaiting harr
  refine ⟨hall.frame, fun hf => ?_, hall.engines, fun k hk => hall.bytes k ?_, fun hw => ?_, fun k d w r hw hl => ?_⟩
  · obtain ⟨hc, ho, hs⟩ := hquiet hf
    exact ⟨hc, ho, hs⟩
  · by_contra hno
    unfold offState at hno
    exact hk (k - keyBank eng (16 * evIndex q.w)) (by omega) (by unfold keyBank at *; omega)
  · rw [heng, Engine.drainOnly_none (hwaiting.trans hw)]
    exact ⟨hqueue, hwaiting.trans hw⟩
  · have hw' := hwaiting.trans hw
    rw [heng, hw', List.length_cons, Engine.drainOnly_one hw' ((congrArg List.length hqueue).trans hl), hclk]
    unfold Engine.enter
    dsimp only
    rw [hqueue, harr]
    exact ⟨rfl, rfl⟩

end Sys2Proof.Machine
end

section

namespace Sys2Proof.Machine

open Sys2Proof.Claims

/-! ### What is read as an event is taken from the queue -/

section Dequeued

variable (s : State) (eng : Nat) (q : QEvent)

theorem State.dequeued_bankState (i : Nat) : (s.dequeued eng q).bankState eng i = s.bankState eng i :=
  s.bankState_modEngine eng eng i _

theorem State.dequeued_plainSum : (s.dequeued eng q).plainSum eng q = s.plainSum eng q := by
  unfold State.plainSum
  rw [State.dequeued_bankState]

theorem State.dequeued_eventSum : (s.dequeued eng q).eventSum eng q = s.eventSum eng q := by
  have hdecay : ∀ j d, (s.dequeued eng q).decay eng j d = s.decay eng j d := fun _ _ => rfl
  have hdesc : ∀ p, (s.dequeued eng q).popDesc eng p = s.popDesc eng p := fun _ => rfl
  unfold State.eventSum State.decayedSum
  simp only [State.dequeued_plainSum, State.dequeued_bankState, hdecay, hdesc]

theorem State.dequeued_drops : (s.dequeued eng q).drops eng q ↔ s.drops eng q := by
  unfold State.drops
  rw [State.dequeued_bankState]

theorem State.dequeued_isLate : (s.dequeued eng q).isLate eng q = s.isLate eng q := by
  unfold State.isLate
  rw [State.dequeued_bankState]

theorem State.dequeued_readBack (i : Nat) (x : NState) : (s.dequeued eng q).readBack eng i x = s.readBack eng i x := by
  unfold State.readBack
  rw [State.brokenHit_congr (s := s) (t := s.dequeued eng q) rfl]

end Dequeued

/-! ### What the bank then holds -/

theorem State.bankState_bounds (s : State) (eng i : Nat) :
    let n := s.bankState eng i
    n.last < 2 ^ 48 ∧ n.refr < 2 ^ 16 ∧ n.fires < 2 ^ 16 ∧ n.user < 2 ^ 16 :=
  ⟨bitsAt_lt _ _ _, bitsAt_lt _ _ _, bitsAt_lt _ _ _, bitsAt_lt _ _ _⟩

/-- V of a state whose engine has failed is the canonical NaN, and so is what is added to it. -/
theorem State.bankState_broken {s : State} {eng i : Nat} (h : s.brokenHit (keyBank eng (16 * i)) 16 = true) :
    (s.bankState eng i).v = fp32.nanCode := by
  unfold State.bankState State.poisonHit
  dsimp only
  rw [h, Bool.or_true, if_pos rfl]

theorem State.plainSum_broken {s : State} {eng : Nat} {q : QEvent}
    (h : s.brokenHit (keyBank eng (16 * evIndex q.w)) 16 = true) : (s.plainSum eng q).1 = fp32.nanCode := by
  unfold State.plainSum
  rw [State.bankState_broken h, decode_nanCode]
  exact round32_of_nan (sumX_nan rfl _ _)

theorem State.eventSum_broken {s : State} {eng : Nat} {q : QEvent}
    (h : s.brokenHit (keyBank eng (16 * evIndex q.w)) 16 = true) : (s.eventSum eng q).1 = fp32.nanCode := by
  unfold State.eventSum
  dsimp only
  split
  · exact State.plainSum_broken h
  · unfold State.decayedSum
    dsimp only
    rw [State.bankState_broken h, decode_nanCode]
    exact round32_of_nan (fmaX_nan _ _ _ _)

/-- A state reads back with its fields cut to their sizes, if V is NaN where the engine has failed. -/
theorem State.readBack_eq {s : State} {eng i : Nat} {x : NState}
    (h : s.brokenHit (keyBank eng (16 * i)) 16 = true → x.v = fp32.nanCode) :
    s.readBack eng i x = { v := x.v % 2 ^ 32, last := x.last % 2 ^ 48, refr := x.refr % 2 ^ 16, fires := x.fires % 2 ^ 16
                           user := x.user % 2 ^ 16 } := by
  unfold State.readBack
  cases hb : s.brokenHit (keyBank eng (16 * i)) 16 with
  | false => rw [if_neg Bool.false_ne_true]
  | true => rw [if_pos rfl, h hb]; rfl

theorem State.readBack_ioState (s : State) (eng : Nat) (q : QEvent) :
    let n := s.bankState eng (evIndex q.w)
    s.readBack eng (evIndex q.w) (s.ioState eng q) =
      { n with v := (s.plainSum eng q).1 % 2 ^ 32, last := max n.last q.t % 2 ^ 48 } := by
  obtain ⟨-, hrefr, hfires, huser⟩ := s.bankState_bounds eng (evIndex q.w)
  rw [State.readBack_eq fun h => State.plainSum_broken h]
  unfold State.ioState
  dsimp only
  rw [Nat.mod_eq_of_lt hrefr, Nat.mod_eq_of_lt hfires, Nat.mod_eq_of_lt huser]

theorem State.readBack_sumState (s : State) (eng : Nat) (q : QEvent) :
    let n := s.bankState eng (evIndex q.w)
    s.readBack eng (evIndex q.w) (s.sumState eng q) =
      { n with v := (s.eventSum eng q).1 % 2 ^ 32, last := max n.last q.t % 2 ^ 48, refr := 0 } := by
  obtain ⟨-, -, hfires, huser⟩ := s.bankState_bounds eng (evIndex q.w)
  rw [State.readBack_eq fun h => State.eventSum_broken h]
  unfold State.sumState
  dsimp only
  rw [Nat.zero_mod, Nat.mod_eq_of_lt hfires, Nat.mod_eq_of_lt huser]

/-- A state that fires keeps its reset values. -/
theorem State.readBack_firedState {s : State} {eng : Nat} {q : QEvent} (he : eng < 2 ^ 19)
    (hf : reaches32 (s.eventSum eng q).1 (popField (s.popDesc eng (evPop q.w)) 0x08 32) = true) :
    let n := s.bankState eng (evIndex q.w)
    let x := s.popDesc eng (evPop q.w)
    (s.summed eng q).readBack eng (evIndex q.w) ((s.summed eng q).firedState eng (evPop q.w) q.t (evIndex q.w)) =
      { v := popField x 0x0C 32, last := max n.last q.t % 2 ^ 48, refr := popField x 0x10 16
        fires := min (n.fires + 1) 0xFFFF, user := n.user } ∧
      ((s.summed eng q).firedState eng (evPop q.w) q.t (evIndex q.w)).fires = min (n.fires + 1) 0xFFFF := by
  intro n x
  obtain ⟨hstep, hbank, -⟩ := s.integrated_step eng (evIndex q.w) (s.isLate eng q) (s.sumState eng q) (s.eventSum eng q).2
  have hsummed : (s.summed eng q).bankState eng (evIndex q.w) = _ := hbank.trans (s.readBack_sumState eng q)
  have hdesc : (s.summed eng q).popDesc eng (evPop q.w) = x := hstep.popDesc he (evIndex_lt _) _
  have hwhole : s.brokenHit (keyBank eng (16 * evIndex q.w)) 16 = false := by
    refine Bool.eq_false_of_not_eq_true fun h => ?_
    rw [State.eventSum_broken h, reaches32_nan] at hf
    exact Bool.false_ne_true hf
  have hbroken : (s.summed eng q).brokenHit (keyBank eng (16 * evIndex q.w)) 16 = false :=
    (State.brokenHit_congr hstep.pkgs _ _).trans hwhole
  obtain ⟨hlast, -, -, huser⟩ := s.bankState_bounds eng (evIndex q.w)
  have hmax : max (max n.last q.t % 2 ^ 48) q.t % 2 ^ 48 = max n.last q.t % 2 ^ 48 := by
    have hn : n.last < 2 ^ 48 := hlast
    omega
  have hfires : min (n.fires + 1) 0xFFFF % 2 ^ 16 = min (n.fires + 1) 0xFFFF := Nat.mod_eq_of_lt (by omega)
  rw [State.readBack_eq fun h => absurd (hbroken.symm.trans h) Bool.false_ne_true]
  unfold State.firedState
  rw [hsummed, hdesc]
  dsimp only
  refine ⟨?_, rfl⟩
  rw [hmax, hfires, Nat.mod_eq_of_lt (show popField x 0x0C 32 < 2 ^ 32 from bitsAt_lt _ _ _),
    Nat.mod_eq_of_lt (show popField x 0x10 16 < 2 ^ 16 from bitsAt_lt _ _ _), Nat.mod_eq_of_lt huser]

end Sys2Proof.Machine
end

section

namespace Sys2Proof.Machine

open Sys2Proof.Claims

/-! ### The deliveries, as they leave the queue -/

section Cases

variable {s : State} {eng : Nat} {q : QEvent}

/-- What a delivery leaves that neither fires nor drops its event: a state of the bank and the counters. -/
theorem State.dequeued_integrated (late : Bool) (n : NState) (f : BitVec 6) :
    let u := (s.dequeued eng q).integrated eng (evIndex q.w) late n f
    u.evnet = s.evnet ∧ u.posts = s.posts ∧ u.bankState eng (evIndex q.w) = s.readBack eng (evIndex q.w) n ∧
      ∃ b l, u.engine eng = { s.engine eng with
        queue := (s.engine eng).queue.erase q, late := l, bankue := b, flags := (s.engine eng).flags ||| f.setWidth 5
        deliv := countUp (s.engine eng).deliv } := by
  obtain ⟨hstep, hbank, b, hb⟩ := (s.dequeued eng q).integrated_step eng (evIndex q.w) late n f
  rw [State.dequeued_engine] at hb
  exact ⟨hstep.evnet, hstep.posts, hbank.trans (s.dequeued_readBack eng q _ _), b, _, hb⟩

/-- An event of an IO population. -/
theorem State.deliverTo_dequeued_io (hio : popIo (s.popDesc eng (evPop q.w)) = true) :
    (s.dequeued eng q).deliverTo eng q = (s.dequeued eng q).integrated eng (evIndex q.w) (s.isLate eng q)
      (s.ioState eng q) (s.plainSum eng q).2 := by
  have h := State.deliverTo_io (s := s.dequeued eng q) hio
  unfold State.ioState at h ⊢
  rwa [State.dequeued_isLate, State.dequeued_plainSum, State.dequeued_bankState] at h

/-- An event that is dropped changes counters alone. -/
theorem State.deliverTo_dequeued_drop (hio : popIo (s.popDesc eng (evPop q.w)) = false) (hd : s.drops eng q) :
    let u := (s.dequeued eng q).deliverTo eng q
    u.evnet = s.evnet ∧ u.posts = s.posts ∧ u.mem = s.mem ∧ ∃ l, u.engine eng = { s.engine eng with
      queue := (s.engine eng).queue.erase q, late := l, refdrop := countUp (s.engine eng).refdrop } := by
  intro u
  have hu : u = _ := State.deliverTo_drop (s := s.dequeued eng q) hio ((s.dequeued_drops eng q).mpr hd)
  rw [hu]
  refine ⟨rfl, rfl, rfl, if s.isLate eng q then satInc (s.engine eng).late else (s.engine eng).late, ?_⟩
  rw [State.engine_modEngine_self, State.engine_modEngine_self, State.dequeued_engine, State.dequeued_isLate,
    ← satInc_eq_countUp]
  unfold Engine.countLate
  cases s.isLate eng q with
  | true => rfl
  | false => rfl

/-- The state after an event of a population that is not IO. -/
theorem State.dequeued_summed :
    (s.dequeued eng q).summed eng q = (s.dequeued eng q).integrated eng (evIndex q.w) (s.isLate eng q)
      (s.sumState eng q) (s.eventSum eng q).2 := by
  unfold State.summed State.sumState
  rw [State.dequeued_isLate, State.dequeued_eventSum, State.dequeued_bankState]

theorem State.deliverTo_dequeued_sum (hio : popIo (s.popDesc eng (evPop q.w)) = false) (hd : ¬ s.drops eng q) :
    (s.dequeued eng q).deliverTo eng q =
      if reaches32 (s.eventSum eng q).1 (popField (s.popDesc eng (evPop q.w)) 0x08 32) then
        ((s.dequeued eng q).summed eng q).fire eng (evPop q.w) q.t (evIndex q.w) else (s.dequeued eng q).summed eng q := by
  have h := State.deliverTo_sum (s := s.dequeued eng q) hio (mt (s.dequeued_drops eng q).mp hd)
  rwa [State.dequeued_eventSum] at h


/-- An event after which its state fires. -/
theorem State.deliverTo_dequeued_fire (he : eng < 2 ^ 19) (hio : popIo (s.popDesc eng (evPop q.w)) = false)
    (hd : ¬ s.drops eng q)
    (hfire : reaches32 (s.eventSum eng q).1 (popField (s.popDesc eng (evPop q.w)) 0x08 32) = true) :
    let n := s.bankState eng (evIndex q.w)
    let p := evPop q.w
    let x := s.popDesc eng p
    let r := (s.dequeued eng q).deliverTo eng q
    r.bankState eng (evIndex q.w) =
        { v := popField x 0x0C 32, last := max n.last q.t % 2 ^ 48, refr := popField x 0x10 16
          fires := min (n.fires + 1) 0xFFFF, user := n.user } ∧
      (∃ b l fl rl, r.engine eng = { s.engine eng with
        queue := (s.engine eng).queue.erase q, late := l, bankue := b
        flags := (s.engine eng).flags ||| (s.eventSum eng q).2.setWidth 5, deliv := countUp (s.engine eng).deliv
        fired := countUp (s.engine eng).fired, fanlost := fl, reclost := rl }) ∧
      (popFan x = false → r.evnet = s.evnet ∧ (r.engine eng).fanlost = (s.engine eng).fanlost) ∧
      (popMbx x = false → r.posts = s.posts ∧ (r.engine eng).reclost = (s.engine eng).reclost) ∧
      ∀ u : State, u.evnet = r.evnet → u.posts = r.posts → (u.engine eng).fanlost = (r.engine eng).fanlost →
        (u.engine eng).reclost = (r.engine eng).reclost →
        (popFan x = true → fannedOut eng p (evIndex q.w) q.t s u) ∧
        (popMbx x = true → r.core = s.core → r.others = s.others → r.saved = s.saved →
          mailed eng p (fireRecord eng p q.t (evIndex q.w) (min (n.fires + 1) 0xFFFF)) s u) := by
  intro n p x r
  have hi := evIndex_lt q.w
  have hr : r = ((s.dequeued eng q).summed eng q).fire eng p q.t (evIndex q.w) :=
    (State.deliverTo_dequeued_sum hio hd).trans (if_pos hfire)
  obtain ⟨hint, -, -⟩ := (s.dequeued eng q).integrated_step eng (evIndex q.w) (s.isLate eng q) (s.sumState eng q)
    (s.eventSum eng q).2
  obtain ⟨-, -, -, b, l, heng⟩ := State.dequeued_integrated (s := s) (q := q) (s.isLate eng q)
    (s.sumState eng q) (s.eventSum eng q).2
  rw [← State.dequeued_summed] at hint heng
  have hm : BankStep eng (evIndex q.w) s ((s.dequeued eng q).summed eng q) := (s.modEngine_step eng _ _).trans hint
  have hdesc : ((s.dequeued eng q).summed eng q).popDesc eng p = x := hm.popDesc he hi p
  have hfire' : reaches32 ((s.dequeued eng q).eventSum eng q).1
      (popField ((s.dequeued eng q).popDesc eng (evPop q.w)) 0x08 32) = true := by
    rw [State.dequeued_eventSum]
    exact hfire
  obtain ⟨hback, hfires⟩ := State.readBack_firedState he hfire'
  rw [State.dequeued_bankState] at hback hfires
  obtain ⟨-, ⟨b', fl, rl, heng'⟩, hbank⟩ := State.fire_step he hi ((s.dequeued eng q).summed eng q) p q.t
  obtain ⟨hplain, hfanned⟩ := State.fire_fan he hi ((s.dequeued eng q).summed eng q) p q.t
  obtain ⟨hunmailed, hmailed⟩ := State.fire_mail he hi ((s.dequeued eng q).summed eng q) p q.t
  rw [hdesc] at hplain hfanned hunmailed hmailed
  rw [← hr] at heng' hbank hplain hfanned hunmailed hmailed
  refine ⟨hbank.trans hback, ⟨b', l, fl, rl, by rw [heng', heng]⟩, fun hf => ?_, fun hx => ?_,
    fun u hu hup hfl hrl => ⟨fun hf => ?_, fun hx hc ho hs => ?_⟩⟩
  · obtain ⟨-, -, -, hev, hl⟩ := hplain hf
    exact ⟨hev.trans hm.evnet, hl.trans (by rw [heng])⟩
  · obtain ⟨hposts, hl⟩ := hunmailed hx
    exact ⟨hposts.trans hm.posts, hl.trans (by rw [heng])⟩
  · exact hm.fannedOut he hi (by rw [heng]) (by rw [heng]) (hfanned u hu hfl hf) rfl rfl
  · rw [← hfires]
    exact hm.mailed he hi (by rw [heng]) (by rw [heng]) (hmailed u hup hrl hx (hc.trans hm.core.symm)
      (ho.trans hm.others.symm) (hs.trans hm.saved.symm))

end Cases

/-- What waits enters the queue; of the engine nothing else changes. -/
theorem State.drainEvents_keeps (s : State) (eng : Nat) :
    ∃ q a w, (s.drainEvents eng).engine eng = { s.engine eng with queue := q, arr := a, waiting := w } := by
  rw [State.drainEvents_engine]
  exact Engine.drainOnly_keeps _ _ _

theorem State.drainEvents_bankState (s : State) (eng i : Nat) :
    (s.drainEvents eng).bankState eng i = s.bankState eng i := s.bankState_modEngine eng eng i _

theorem eventDeliveries : EventDeliveries := by
  intro s eng q he hdue p x i n e w v late dropped y last
  have hexec : exec (.eventDelivery eng) s = .next (s.deliverEvent eng q) := execEventDelivery_due hdue
  refine ⟨fun hno hw => hexec.trans (congrArg _ (State.deliverEvent_of_not_deliverable hno hw)), fun hyes => ?_⟩
  obtain ⟨-, -, -, -, -, hreject, hlate⟩ := State.deliverTo_step he (s.dequeued eng q) q
  rw [State.dequeued_engine, State.dequeued_isLate] at hlate
  rw [State.dequeued_engine] at hreject
  obtain ⟨qu, a, wt, hdrain⟩ := ((s.dequeued eng q).deliverTo eng q).drainEvents_keeps eng
  have hbank := ((s.dequeued eng q).deliverTo eng q).drainEvents_bankState eng i
  refine ⟨_, hexec.trans (congrArg _ (State.deliverEvent_of_deliverable hyes)), delivered_of_deliverTo he, ?_⟩
  rw [hdrain, hbank]
  intro u takes silent
  refine ⟨hreject, fun hl => ?_, fun hl => ?_, fun hio => ?_, fun hio hd => ?_, fun hio hd => ?_⟩
  · exact hlate.trans (if_pos (decide_eq_true hl))
  · exact hlate.trans (if_neg (by rw [State.isLate, decide_eq_false hl]; exact Bool.false_ne_true))
  · obtain ⟨hev, hposts, hb, b, l, heng⟩ := State.dequeued_integrated (s := s) (q := q) (s.isLate eng q)
      (s.ioState eng q) (s.plainSum eng q).2
    rw [← State.deliverTo_dequeued_io hio] at hev hposts hb heng
    exact ⟨⟨(congrArg Engine.deliv heng :), (congrArg Engine.flags heng :), (congrArg Engine.refdrop heng :)⟩,
      ⟨hev, hposts, (congrArg Engine.fired heng :), (congrArg Engine.fanlost heng :), (congrArg Engine.reclost heng :)⟩,
      hb.trans (s.readBack_ioState eng q)⟩
  · obtain ⟨hev, hposts, hmem, l, heng⟩ := State.deliverTo_dequeued_drop hio hd
    exact ⟨⟨hev, hposts, (congrArg Engine.fired heng :), (congrArg Engine.fanlost heng :), (congrArg Engine.reclost heng :)⟩,
      hmem, (congrArg Engine.deliv heng :), (congrArg Engine.flags heng :), (congrArg Engine.refdrop heng :)⟩
  · have hr := State.deliverTo_dequeued_sum hio hd
    obtain ⟨hev, hposts, hb, b, l, heng⟩ := State.dequeued_integrated (s := s) (q := q) (s.isLate eng q)
      (s.sumState eng q) (s.eventSum eng q).2
    rw [← State.dequeued_summed] at hev hposts hb heng
    by_cases hfire : reaches32 (s.eventSum eng q).1 (popField x 0x08 32) = true
    · obtain ⟨hb, ⟨b, l, fl, rl, heng⟩, hplain, hunmailed, hsent⟩ := State.deliverTo_dequeued_fire he hio hd hfire
      obtain ⟨hfanned, hmailed⟩ := hsent (((s.dequeued eng q).deliverTo eng q).drainEvents eng) rfl rfl
        (by rw [hdrain]) (by rw [hdrain])
      exact ⟨⟨(congrArg Engine.deliv heng :), (congrArg Engine.flags heng :), (congrArg Engine.refdrop heng :)⟩,
        fun h => absurd (h.symm.trans hfire) Bool.false_ne_true,
        fun _ => ⟨(congrArg Engine.fired heng :), hb, hplain, hfanned, hunmailed, hmailed⟩⟩
    · rw [if_neg hfire] at hr
      rw [← hr] at hev hposts hb heng
      exact ⟨⟨(congrArg Engine.deliv heng :), (congrArg Engine.flags heng :), (congrArg Engine.refdrop heng :)⟩,
        fun _ => ⟨⟨hev, hposts, (congrArg Engine.fired heng :), (congrArg Engine.fanlost heng :),
          (congrArg Engine.reclost heng :)⟩, hb.trans (s.readBack_sumState eng q)⟩, fun h => absurd h hfire⟩

/-- Settles O36: an arrival by where the event stands among those of its sender, a delivery by what its population makes
of it. -/
theorem eventQueue : Obligations.EventQueue := ⟨eventArrivals, eventDeliveries⟩

end Sys2Proof.Machine
end
